-- ==== Sys2Proof/Word.lean ====
section
/-! DEFINITION. The word types of the Chorik (R4, R45): plain bit vectors under their own names. -/

namespace Sys2Proof

/-- A 64-bit scalar value (R96). -/
abbrev Word := BitVec 64
/-- The smallest addressable unit of every memory (R4). -/
abbrev Byte := BitVec 8
/-- A vector tile: one vector register or vector queue entry, 2048 bytes, byte 0 in bits [7:0] (R40, R127). -/
abbrev Tile := BitVec 16384
/-- A predicate register: bit i governs element i (R135). -/
abbrev Pred := BitVec 2048

/-- A table from a number to a value, as a list of pairs with rising keys. A key that is not listed
holds the table's default. Registers, memories, cores and device tables all have this form. -/
abbrev Tab (α : Type) := List (Nat × α)

end Sys2Proof
end

