-- ==== Sys2Proof/Syntax.lean ====
section
/-! DEFINITION. The instructions and events of the Chorik as data (03_encoding R67 to R86 and the
instruction entries of the other chapters; spec/opcode_table.json). -/

namespace Sys2Proof

/-- A source operand (R76, R77): a register, a queue to pop, zero, or a literal. -/
inductive Src where
  | reg (n : Nat)
  | queue (n : Nat)
  | zero
  | lit32 (v : BitVec 32)
  | lit64 (v : Word)
deriving DecidableEq, Repr

/-- A destination operand (R76): a register, a queue to push, or nothing. -/
inductive Dst where
  | reg (n : Nat)
  | queue (n : Nat)
  | discard
deriving DecidableEq, Repr

/-- The four sequencers of a core (R9). -/
inductive SeqKind where
  | K | V | M | Q
deriving DecidableEq, Repr

/-- The number of a sequencer (R98 SKIND, R242 kind 4). -/
def SeqKind.code : SeqKind → Nat
  | .K => 0 | .V => 1 | .M => 2 | .Q => 3
def SeqKind.ofCode : Nat → SeqKind
  | 1 => .V | 2 => .M | 3 => .Q | _ => .K

/-- Where a word of a sequencer executes: its only pipe, or one of V's sub-queues (R13). -/
inductive Sub where
  | pipe | vl | va | vs
deriving DecidableEq, Repr

/-- The TCAUSE source code of a place (R430). -/
def Sub.code : Sub → Nat
  | .pipe => 0 | .vl => 1 | .va => 2 | .vs => 3
def Sub.ofCode : Nat → Sub
  | 1 => .vl | 2 => .va | 3 => .vs | _ => .pipe

/-- The branch conditions of R75; SEL numbers the first two the other way round (R113). -/
inductive Cond where
  | eqz | nez | ltz | gez | gtz | lez | odd | even
deriving DecidableEq, Repr
def Cond.code : Cond → Nat
  | .eqz => 0 | .nez => 1 | .ltz => 2 | .gez => 3 | .gtz => 4 | .lez => 5 | .odd => 6 | .even => 7
def Cond.ofCode : Nat → Cond
  | 0 => .eqz | 1 => .nez | 2 => .ltz | 3 => .gez | 4 => .gtz | 5 => .lez | 6 => .odd | _ => .even
def Cond.selCode : Cond → Nat
  | .nez => 0 | .eqz => 1 | .ltz => 2 | .gez => 3 | .gtz => 4 | .lez => 5 | .odd => 6 | .even => 7
def Cond.ofSelCode : Nat → Cond
  | 0 => .nez | 1 => .eqz | 2 => .ltz | 3 => .gez | 4 => .gtz | 5 => .lez | 6 => .odd | _ => .even

/-- Access widths: 8, 4, 2 and 1 bytes (R110, R253). -/
inductive Wid where
  | d | w | h | b
deriving DecidableEq, Repr
def Wid.code : Wid → Nat
  | .d => 0 | .w => 1 | .h => 2 | .b => 3
def Wid.ofCode : Nat → Wid
  | 0 => .d | 1 => .w | 2 => .h | _ => .b
/-- The width in bytes. -/
def Wid.bytes : Wid → Nat
  | .d => 8 | .w => 4 | .h => 2 | .b => 1

/-- The rounding codes of R50. -/
inductive Rnd where
  /-- nearest, ties to even -/
  | rne
  /-- toward zero -/
  | rtz
  /-- toward minus infinity -/
  | rdn
  /-- toward plus infinity -/
  | rup
deriving DecidableEq, Repr
def Rnd.code : Rnd → Nat
  | .rne => 0 | .rtz => 1 | .rdn => 2 | .rup => 3
def Rnd.ofCode : Nat → Rnd
  | 0 => .rne | 1 => .rtz | 2 => .rdn | _ => .rup

/-- The overflow policies of R52. -/
inductive Policy where
  | saturate | infinity | nan | trap
deriving DecidableEq, Repr
def Policy.code : Policy → Nat
  | .saturate => 0 | .infinity => 1 | .nan => 2 | .trap => 3
def Policy.ofCode : Nat → Policy
  | 0 => .saturate | 1 => .infinity | 2 => .nan | _ => .trap

/-- The element formats of R125 (codes 0 to 9). -/
inductive NumFmt where
  | fp32 | fp16 | bf16 | e4m3 | e5m2 | int4 | int8 | int16 | int32 | int64
deriving DecidableEq, Repr
/-- The format code of R125. -/
def NumFmt.code : NumFmt → Nat
  | .fp32 => 0 | .fp16 => 1 | .bf16 => 2 | .e4m3 => 3 | .e5m2 => 4
  | .int4 => 5 | .int8 => 6 | .int16 => 7 | .int32 => 8 | .int64 => 9
/-- The format a code names; 10 to 15 name none (R125). -/
def NumFmt.ofCode : Nat → Option NumFmt
  | 0 => some .fp32 | 1 => some .fp16 | 2 => some .bf16 | 3 => some .e4m3 | 4 => some .e5m2
  | 5 => some .int4 | 6 => some .int8 | 7 => some .int16 | 8 => some .int32 | 9 => some .int64
  | _ => none
/-- The format of a code that a check has found to be assigned. -/
def NumFmt.ofCodeD (n : Nat) : NumFmt := (NumFmt.ofCode n).getD .fp32

/-- The memory orders of R75. -/
inductive Order where
  | relaxed | acquire | release | acqRel | seqCst
deriving DecidableEq, Repr
def Order.code : Order → Nat
  | .relaxed => 0 | .acquire => 1 | .release => 2 | .acqRel => 3 | .seqCst => 4
def Order.ofCode : Nat → Order
  | 0 => .relaxed | 1 => .acquire | 2 => .release | 3 => .acqRel | _ => .seqCst

/-- The scopes of R75. -/
inductive Scope where
  | core | grove | glade | device | panel | system
deriving DecidableEq, Repr
def Scope.code : Scope → Nat
  | .core => 0 | .grove => 1 | .glade => 2 | .device => 3 | .panel => 4 | .system => 5
def Scope.ofCode : Nat → Scope
  | 0 => .core | 1 => .grove | 2 => .glade | 3 => .device | 4 => .panel | _ => .system

/-- The conditions of VCMP (R151). -/
inductive VCond where
  | eq | ne | lt | le | gt | ge | un
deriving DecidableEq, Repr
def VCond.code : VCond → Nat
  | .eq => 0 | .ne => 1 | .lt => 2 | .le => 3 | .gt => 4 | .ge => 5 | .un => 6
def VCond.ofCode : Nat → VCond
  | 0 => .eq | 1 => .ne | 2 => .lt | 3 => .le | 4 => .gt | 5 => .ge | _ => .un

/-- The operations of VRED (R160). -/
inductive RedOp where
  | add | min | max
deriving DecidableEq, Repr
def RedOp.code : RedOp → Nat
  | .add => 0 | .min => 1 | .max => 2
def RedOp.ofCode : Nat → RedOp
  | 0 => .add | 1 => .min | _ => .max

/-- The axes of VRED (R160). -/
inductive Axis where
  | all | row | col
deriving DecidableEq, Repr
def Axis.code : Axis → Nat
  | .all => 0 | .row => 1 | .col => 2
def Axis.ofCode : Nat → Axis
  | 0 => .all | 1 => .row | _ => .col

/-- The operations of VPSET (R154). -/
inductive PsetOp where
  | all | none | first | not | and | or | xor | andn
deriving DecidableEq, Repr
def PsetOp.code : PsetOp → Nat
  | .all => 0 | .none => 1 | .first => 2 | .not => 3 | .and => 4 | .or => 5 | .xor => 6 | .andn => 7
def PsetOp.ofCode : Nat → PsetOp
  | 0 => .all | 1 => .none | 2 => .first | 3 => .not | 4 => .and | 5 => .or | 6 => .xor | _ => .andn

/-- The control registers of VSHAPE (R168). -/
inductive ShapeReg where
  | sh | key | base | gstr
deriving DecidableEq, Repr
def ShapeReg.code : ShapeReg → Nat
  | .sh => 0 | .key => 1 | .base => 2 | .gstr => 3
def ShapeReg.ofCode : Nat → ShapeReg
  | 0 => .sh | 1 => .key | 2 => .base | _ => .gstr

/-- The values of VIOTA (R165). -/
inductive IotaKind where
  | index | col | row
deriving DecidableEq, Repr
def IotaKind.code : IotaKind → Nat
  | .index => 0 | .col => 1 | .row => 2
def IotaKind.ofCode : Nat → IotaKind
  | 0 => .index | 1 => .col | _ => .row

/-- The accumulation modes of R171. -/
inductive AccMode where
  | fp32 | wrap | sat
deriving DecidableEq, Repr
def AccMode.code : AccMode → Nat
  | .fp32 => 0 | .wrap => 1 | .sat => 2
def AccMode.ofCode : Nat → AccMode
  | 0 => .fp32 | 1 => .wrap | _ => .sat

/-- The words of MSTAT (R208). -/
inductive MstatWord where
  | word | steps | bcast
deriving DecidableEq, Repr
def MstatWord.code : MstatWord → Nat
  | .word => 0 | .steps => 1 | .bcast => 2
def MstatWord.ofCode : Nat → MstatWord
  | 0 => .word | 1 => .steps | _ => .bcast

/-- What QRDA stores (R236). -/
inductive RowSel where
  | o0 | o1 | ang
deriving DecidableEq, Repr
def RowSel.code : RowSel → Nat
  | .o0 => 0 | .o1 => 1 | .ang => 2
def RowSel.ofCode : Nat → RowSel
  | 0 => .o0 | 1 => .o1 | _ => .ang

/-- The conditions of WAITA (R257). -/
inductive WaitCond where
  | eq | ne | geu | bit
deriving DecidableEq, Repr
def WaitCond.code : WaitCond → Nat
  | .eq => 0 | .ne => 1 | .geu => 2 | .bit => 3
def WaitCond.ofCode : Nat → WaitCond
  | 0 => .eq | 1 => .ne | 2 => .geu | _ => .bit

/-- The operations of XFORM (R259). -/
inductive XformOp where
  | fill | bswap | tr4 | addc | qe4 | qi8 | crc
deriving DecidableEq, Repr
def XformOp.code : XformOp → Nat
  | .fill => 0 | .bswap => 1 | .tr4 => 2 | .addc => 3 | .qe4 => 4 | .qi8 => 5 | .crc => 6
def XformOp.ofCode : Nat → XformOp
  | 0 => .fill | 1 => .bswap | 2 => .tr4 | 3 => .addc | 4 => .qe4 | 5 => .qi8 | _ => .crc

/-- The states of a buffer handle (R394 to R396). -/
inductive BufState where
  | free | fill | full | drain
deriving DecidableEq, Repr
def BufState.code : BufState → Nat
  | .free => 0 | .fill => 1 | .full => 2 | .drain => 3
def BufState.ofCode : Nat → BufState
  | 0 => .free | 1 => .fill | 2 => .full | _ => .drain

/-- The words of RSTAT (R350). -/
inductive RstatWord where
  | word | tail | err
deriving DecidableEq, Repr
def RstatWord.code : RstatWord → Nat
  | .word => 0 | .tail => 1 | .err => 2
def RstatWord.ofCode : Nat → RstatWord
  | 0 => .word | 1 => .tail | _ => .err

/-- The words of BSTAT (R390). -/
inductive BstatWord where
  | send | recv | sched
deriving DecidableEq, Repr
def BstatWord.code : BstatWord → Nat
  | .send => 0 | .recv => 1 | .sched => 2
def BstatWord.ofCode : Nat → BstatWord
  | 0 => .send | 1 => .recv | _ => .sched

/-- The forms of VLDA (R264). -/
inductive AccType where
  | raw | bf16 | fp16
deriving DecidableEq, Repr
def AccType.code : AccType → Nat
  | .raw => 0 | .bf16 => 1 | .fp16 => 2
def AccType.ofCode : Nat → AccType
  | 0 => .raw | 1 => .bf16 | _ => .fp16

/-- The source formats of VLDC (R265). -/
inductive WidenSrc where
  | bf16 | fp16 | e4m3 | e5m2 | i8 | i16 | i4
deriving DecidableEq, Repr
def WidenSrc.code : WidenSrc → Nat
  | .bf16 => 0 | .fp16 => 1 | .e4m3 => 2 | .e5m2 => 3 | .i8 => 4 | .i16 => 5 | .i4 => 6
def WidenSrc.ofCode : Nat → WidenSrc
  | 0 => .bf16 | 1 => .fp16 | 2 => .e4m3 | 3 => .e5m2 | 4 => .i8 | 5 => .i16 | _ => .i4

/-- The destination formats of VSTC (R265). -/
inductive StoreFmt where
  | bf16 | fp16 | e4m3 | e5m2
deriving DecidableEq, Repr
def StoreFmt.code : StoreFmt → Nat
  | .bf16 => 0 | .fp16 => 1 | .e4m3 => 2 | .e5m2 => 3
def StoreFmt.ofCode : Nat → StoreFmt
  | 0 => .bf16 | 1 => .fp16 | 2 => .e4m3 | _ => .e5m2

/-- A remote task post in flight: the sender's device and operation number, the grove and the fabric
key of R337, and the record (R316). -/
structure RemotePost where
  device : Nat
  op : Nat
  grove : Nat
  fkey : Nat
  record : BitVec 2560
deriving DecidableEq, Repr

/-- The remote-memory operations of R373 to R375. -/
inductive RemKind where
  | store | load | chain
deriving DecidableEq, Repr

/-- A remote-memory access in flight (R372 to R375): the sender's device and operation number, the
destination word of R370, the target address, the bytes written (or, for a load, none), the byte count,
the flag operation, the peers after this one (destination word, address, flag) and this peer's index. -/
structure RemoteAccess where
  device : Nat
  op : Nat
  kind : RemKind
  dest : Word
  raddr : Word
  data : List Byte
  length : Nat
  rflag : Word
  finc : Word
  set : Bool
  peers : List (Word × Word × Word)
  index : Nat
deriving DecidableEq, Repr

/-- A pull request header with its prefix (R378, R379). -/
structure PullRequest where
  device : Nat
  id : Nat
  rcb : Nat
  fkey : Nat
  length : Nat
  tag : Nat
  cls : Nat
  pfx : List Byte
deriving DecidableEq, Repr

/-- A pull token (R382). -/
structure Token where
  device : Nat
  id : Nat
  offset : Nat
  count : Nat
  gen : Nat
deriving DecidableEq, Repr

/-- A multicast-reduce contribution (R376). -/
structure RmcrMsg where
  op : Nat
  group : Nat
  fmt : Nat
  data : List Byte
deriving DecidableEq, Repr

/-- What the device sends to other devices, to the panel switch and over PCI Express (R362, R364,
R371, R377, R454). -/
inductive OutMsg where
  | post (to_ : Nat) (m : RemotePost)
  | postAck (to_ : Nat) (op : Nat) (word : Word)
  | access (to_ : Nat) (m : RemoteAccess)
  | accessAck (to_ : Nat) (op status cause index : Nat) (data : List Byte)
  | rmcr (m : RmcrMsg)
  | request (to_ : Nat) (m : PullRequest)
  | token (to_ : Nat) (t : Token)
  | data (to_ : Nat) (t : Token) (bytes : List Byte)
  | notice (to_ : Nat) (id status cause : Nat)
  | suspend (to_ : Nat) (id : Nat)
  | resume (to_ : Nat) (id offset : Nat)
  | prefixes (link : Nat) (sizes : List Nat)
  | flits (link : Nat) (bytes : List (List Byte))
  | pcieWrite (addr : Nat) (bytes : List Byte)
  | vector (n : Nat)
  | i3cEvent
  | reply (bytes : List Byte)
  | unsupported
deriving DecidableEq, Repr

/-- An update that reaches a barrier object (R411): arrivals with bytes, an add, a subtraction. -/
inductive BarUpdate where
  | arrive (k n : Nat)
  | add (n : Nat)
  | sub (n : Nat)
deriving DecidableEq, Repr

/-- An agent whose update reaches a barrier object in a cycle (R409, R411): a sequencer at a BARA, a BARX or an add to the
arrival port, the matrix array with a stream's subtraction (at a weight load, a step of a nest, the entry of an MMA, or a
broadcast delivery), the transpose unit, a copy channel, or an access that arrives from another device. -/
inductive BarAgent where
  | stream (core : Nat) (seq : SeqKind)
  | array (core : Nat)
  | nest (core : Nat)
  | commit (core : Nat)
  | broadcast (grove group : Nat)
  | xpose (core : Nat)
  | channel (core n : Nat)
  | remote (m : RemoteAccess)
deriving DecidableEq, Repr

/-- Who gives the mailbox a command, with the buffer for the result (R458): PF0 and an address of host memory, or an I3C
write to an address. -/
inductive Mailbox where
  | host (buffer : Nat)
  | i3c (address : Nat)
deriving DecidableEq, Repr

/-- An operand of a mailbox command, with who gives the command. -/
structure Mail (α : Type) where
  by_ : Mailbox
  arg : α
deriving DecidableEq, Repr

/-- What an I3C transfer carries, and the address that it names (R459). -/
structure I3cCall where
  address : Nat
  arg : Nat
deriving DecidableEq, Repr

/-- One constructor per row of the table of operations and events (R86 and the event rules). An
encoded instruction carries its decoded fields, an event its parties. -/
inductive Instr where
  /-- ADD (R107): Writes a + b to d. -/
  | add (d : Dst) (a : Src) (b : Src)
  /-- SUB (R107): Writes a − b to d. -/
  | sub (d : Dst) (a : Src) (b : Src)
  /-- MUL (R107): Writes the low 64 bits of a × b to d. -/
  | mul (d : Dst) (a : Src) (b : Src)
  /-- MULH (R107): Writes the high 64 bits of the signed product to d. -/
  | mulh (d : Dst) (a : Src) (b : Src)
  /-- MULHU (R107): Writes the high 64 bits of the unsigned product to d. -/
  | mulhu (d : Dst) (a : Src) (b : Src)
  /-- DIV (R108): Writes the signed quotient truncated toward zero to d, never trapping. -/
  | div (d : Dst) (a : Src) (b : Src)
  /-- DIVU (R108): Writes the unsigned quotient to d, all ones for a divisor of zero. -/
  | divu (d : Dst) (a : Src) (b : Src)
  /-- REM (R108): Writes the signed remainder to d. -/
  | rem (d : Dst) (a : Src) (b : Src)
  /-- REMU (R108): Writes the unsigned remainder to d. -/
  | remu (d : Dst) (a : Src) (b : Src)
  /-- AND (R107): Writes a AND b to d. -/
  | and (d : Dst) (a : Src) (b : Src)
  /-- OR (R107): Writes a OR b to d. -/
  | or (d : Dst) (a : Src) (b : Src)
  /-- XOR (R107): Writes a XOR b to d. -/
  | xor (d : Dst) (a : Src) (b : Src)
  /-- ANDN (R107): Writes a AND NOT b to d. -/
  | andn (d : Dst) (a : Src) (b : Src)
  /-- SHL (R107): Shifts a left by bits [5:0] of b. -/
  | shl (d : Dst) (a : Src) (b : Src)
  /-- SHR (R107): Shifts a right logically by bits [5:0] of b. -/
  | shr (d : Dst) (a : Src) (b : Src)
  /-- SAR (R107): Shifts a right arithmetically by bits [5:0] of b. -/
  | sar (d : Dst) (a : Src) (b : Src)
  /-- ROL (R107): Rotates a left by bits [5:0] of b. -/
  | rol (d : Dst) (a : Src) (b : Src)
  /-- MIN (R107): Writes the signed minimum of a and b. -/
  | min (d : Dst) (a : Src) (b : Src)
  /-- MAX (R107): Writes the signed maximum of a and b. -/
  | max (d : Dst) (a : Src) (b : Src)
  /-- MINU (R107): Writes the unsigned minimum of a and b. -/
  | minu (d : Dst) (a : Src) (b : Src)
  /-- MAXU (R107): Writes the unsigned maximum of a and b. -/
  | maxu (d : Dst) (a : Src) (b : Src)
  /-- CLZ (R110): Counts the leading zeros of a at the width that f selects. -/
  | clz (d : Dst) (a : Src) (f : Wid)
  /-- FFS (R110): Writes the index of the lowest set bit of a at the width that f selects. -/
  | ffs (d : Dst) (a : Src) (f : Wid)
  /-- POPC (R110): Counts the set bits of a at the width that f selects. -/
  | popc (d : Dst) (a : Src) (f : Wid)
  /-- SEXT (R111): Sign-extends a from the bit position that b gives. -/
  | sext (d : Dst) (a : Src) (b : Src)
  /-- ZEXT (R111): Zero-extends a from the bit position that b gives. -/
  | zext (d : Dst) (a : Src) (b : Src)
  /-- BFX (R112): Extracts a bit field of a, zero- or sign-extended. -/
  | bfx (d : Dst) (a : Src) (b : Src) (s : Bool)
  /-- BFI (R112): Inserts the low bits of a into a field of d. -/
  | bfi (d : Dst) (a : Src) (b : Src)
  /-- SEL (R113): Writes a or b to d according to a condition on the current d. -/
  | sel (d : Dst) (a : Src) (b : Src) (c : Cond)
  /-- CMP (R114): Writes −1, 0 or +1 from a signed or unsigned comparison of a and b. -/
  | cmp (d : Dst) (a : Src) (b : Src) (u : Bool)
  /-- ADDI (R109): Writes a plus a sign-extended 10-bit immediate. -/
  | addi (d : Dst) (a : Src) (i : BitVec 10)
  /-- MOVI (R109): Writes a sign-extended 16-bit immediate. -/
  | movi (d : Dst) (i : BitVec 16)
  /-- MADR (R109): Adds a × b to d. -/
  | madr (d : Dst) (a : Src) (b : Src)
  /-- ABS (R115): Writes the absolute value of a, wrapping or saturating. -/
  | abs (d : Dst) (a : Src) (s : Bool)
  /-- BCC (R116): Branches when the condition holds on a. -/
  | bcc (c : Cond) (a : Src) (o : BitVec 12)
  /-- BR (R117): Branches by a 22-bit word offset. -/
  | br (o : BitVec 22)
  /-- CALL (R117): Writes the return address to x47 and branches. -/
  | call (o : BitVec 22)
  /-- RET (R118): Jumps to the value of a, optionally exchanging the link in x47. -/
  | ret (a : Src) (l : Bool)
  /-- LOOP (R119): Decrements x[a] and branches when the condition holds. -/
  | loop (c : Cond) (a : Nat) (o : BitVec 12)
  /-- RDS (R120): Reads a special register into d. -/
  | rds (d : Dst) (n : BitVec 16)
  /-- WRS (R120): Writes the value of d to a special register. -/
  | wrs (d : Dst) (n : BitVec 16)
  /-- RDQ (R121): Samples a timing or placement source into a quarantined register. -/
  | rdq (d : Nat) (n : BitVec 16)
  /-- FADD (R123): Adds two FP32 values with the rounding code of f. -/
  | fadd (d : Dst) (a : Src) (b : Src) (n : Bool) (r : Rnd)
  /-- FMUL (R123): Multiplies two FP32 values with the rounding code of f. -/
  | fmul (d : Dst) (a : Src) (b : Src) (n : Bool) (r : Rnd)
  /-- FFMA (R123): Forms a × b + d in FP32 with one rounding. -/
  | ffma (d : Dst) (a : Src) (b : Src) (n : Bool) (r : Rnd)
  /-- FCMP (R124): Writes a one-bit mask of the FP32 comparison of a and b. -/
  | fcmp (d : Dst) (a : Src) (b : Src)
  /-- FCVT (R125): Converts a between the formats that the control word b names. -/
  | fcvt (d : Dst) (a : Src) (b : Src)
  /-- FMIN (R124): Writes the FP32 minimum of a and b. -/
  | fmin (d : Dst) (a : Src) (b : Src)
  /-- FMAX (R124): Writes the FP32 maximum of a and b. -/
  | fmax (d : Dst) (a : Src) (b : Src)
  /-- VLD (R262): Loads up to eight beats from a + b into a tile. -/
  | vld (d : Dst) (a : Src) (b : Src) (f : BitVec 3)
  /-- VLDX (R263): Gathers tile rows through a list of indices. -/
  | vldx (d : Dst) (a : Src) (b : Src) (f : BitVec 4)
  /-- VLDB (R262): Loads r bytes and replicates them across the tile. -/
  | vldb (d : Dst) (a : Src) (b : Src) (f : BitVec 3)
  /-- VLDS (R263): Loads strided rows under a geometry word into a tile. -/
  | vlds (d : Dst) (a : Src) (b : Src)
  /-- VLDA (R264): Reads accumulator rows of the running core, raw or narrowed. -/
  | vlda (d : Dst) (a : Src) (b : Src) (x : Bool) (s : Bool) (t : AccType)
  /-- VLDC (R265): Loads 512 narrow elements and widens them to 32 bits. -/
  | vldc (d : Dst) (a : Src) (b : Src) (f : WidenSrc)
  /-- VLDQ (R262): Loads eight beats as an acquire at the scope that f gives. -/
  | vldq (d : Dst) (a : Src) (b : Src) (s : Scope)
  /-- VST (R262): Stores up to eight beats of a tile to a + b. -/
  | vst (d : Dst) (a : Src) (b : Src) (f : BitVec 3)
  /-- VSTX (R263): Scatters tile rows through a list of indices. -/
  | vstx (d : Dst) (a : Src) (b : Src) (f : BitVec 4)
  /-- VSTM (R263): Stores the tile bytes that a predicate register selects. -/
  | vstm (d : Dst) (a : Src) (b : Src) (k : BitVec 3)
  /-- VSTC (R265): Converts 512 FP32 elements to a narrow format and stores them. -/
  | vstc (d : Dst) (a : Src) (b : Src) (p : Policy) (t : StoreFmt)
  /-- VSTR (R262): Stores eight beats as a release at the scope that f gives. -/
  | vstr (d : Dst) (a : Src) (b : Src) (s : Scope)
  /-- VSTA (R264): Writes 16 raw rows into the running core's accumulators. -/
  | vsta (d : Dst) (a : Src) (b : Src)
  /-- VADD (R146): Adds two tiles element by element. -/
  | vadd (d : Dst) (a : Src) (b : Src) (h : Bool) (g : Bool) (p : BitVec 2)
  /-- VSUB (R146): Subtracts two tiles element by element. -/
  | vsub (d : Dst) (a : Src) (b : Src) (h : Bool) (g : Bool) (p : BitVec 2)
  /-- VMUL (R146): Multiplies two tiles element by element. -/
  | vmul (d : Dst) (a : Src) (b : Src) (h : Bool) (g : Bool) (p : BitVec 2)
  /-- VFMA (R146): Forms a × b + d with one rounding. -/
  | vfma (d : Dst) (a : Src) (b : Src) (h : Bool) (g : Bool) (p : BitVec 2)
  /-- VFMS (R146): Forms a × b − d with one rounding. -/
  | vfms (d : Dst) (a : Src) (b : Src) (h : Bool) (g : Bool) (p : BitVec 2)
  /-- VFNMA (R146): Forms d − a × b with one rounding. -/
  | vfnma (d : Dst) (a : Src) (b : Src) (h : Bool) (g : Bool) (p : BitVec 2)
  /-- VMIN (R146): Writes the element-wise minimum. -/
  | vmin (d : Dst) (a : Src) (b : Src) (h : Bool) (g : Bool) (p : BitVec 2)
  /-- VMAX (R146): Writes the element-wise maximum. -/
  | vmax (d : Dst) (a : Src) (b : Src) (h : Bool) (g : Bool) (p : BitVec 2)
  /-- VABS (R146): Writes the element-wise absolute value. -/
  | vabs (d : Dst) (a : Src) (h : Bool) (p : BitVec 2)
  /-- VNEG (R146): Writes the element-wise negation. -/
  | vneg (d : Dst) (a : Src) (h : Bool) (p : BitVec 2)
  /-- VRCP (R147): Writes an approximate reciprocal of each element. -/
  | vrcp (d : Dst) (a : Src) (h : Bool) (p : BitVec 2)
  /-- VRSQ (R147): Writes an approximate reciprocal square root of each element. -/
  | vrsq (d : Dst) (a : Src) (h : Bool) (p : BitVec 2)
  /-- VSQRT (R147): Writes the correctly rounded square root of each element. -/
  | vsqrt (d : Dst) (a : Src) (h : Bool) (p : BitVec 2)
  /-- VDIV (R146): Divides two float tiles, correctly rounded. -/
  | vdiv (d : Dst) (a : Src) (b : Src) (h : Bool) (g : Bool) (p : BitVec 2)
  /-- VEXP (R147): Writes an approximate exponential of each element. -/
  | vexp (d : Dst) (a : Src) (h : Bool) (p : BitVec 2)
  /-- VLOG (R147): Writes an approximate natural logarithm of each element. -/
  | vlog (d : Dst) (a : Src) (h : Bool) (p : BitVec 2)
  /-- VTANH (R147): Writes an approximate tanh of each element. -/
  | vtanh (d : Dst) (a : Src) (h : Bool) (p : BitVec 2)
  /-- VSIGM (R147): Writes an approximate logistic sigmoid of each element. -/
  | vsigm (d : Dst) (a : Src) (h : Bool) (p : BitVec 2)
  /-- VSIN (R147): Writes an approximate sine of each element. -/
  | vsin (d : Dst) (a : Src) (h : Bool) (p : BitVec 2)
  /-- VCOS (R147): Writes an approximate cosine of each element. -/
  | vcos (d : Dst) (a : Src) (h : Bool) (p : BitVec 2)
  /-- VAND (R148): Writes the bitwise AND of two tiles. -/
  | vand (d : Dst) (a : Src) (b : Src) (h : Bool) (g : Bool) (p : BitVec 2)
  /-- VOR (R148): Writes the bitwise OR of two tiles. -/
  | vor (d : Dst) (a : Src) (b : Src) (h : Bool) (g : Bool) (p : BitVec 2)
  /-- VXOR (R148): Writes the bitwise XOR of two tiles. -/
  | vxor (d : Dst) (a : Src) (b : Src) (h : Bool) (g : Bool) (p : BitVec 2)
  /-- VNOT (R148): Writes the bitwise NOT of a tile. -/
  | vnot (d : Dst) (a : Src) (h : Bool) (p : BitVec 2)
  /-- VSHL (R149): Shifts each integer element left. -/
  | vshl (d : Dst) (a : Src) (b : Src) (h : Bool) (g : Bool) (p : BitVec 2)
  /-- VSHR (R149): Shifts each integer element right logically. -/
  | vshr (d : Dst) (a : Src) (b : Src) (h : Bool) (g : Bool) (p : BitVec 2)
  /-- VSAR (R149): Shifts each integer element right arithmetically. -/
  | vsar (d : Dst) (a : Src) (b : Src) (h : Bool) (g : Bool) (p : BitVec 2)
  /-- VCLZ (R150): Counts leading zeros per element. -/
  | vclz (d : Dst) (a : Src) (h : Bool) (p : BitVec 2)
  /-- VFFS (R150): Finds the lowest set bit per element. -/
  | vffs (d : Dst) (a : Src) (h : Bool) (p : BitVec 2)
  /-- VPOPC (R150): Counts set bits per element. -/
  | vpopc (d : Dst) (a : Src) (h : Bool) (p : BitVec 2)
  /-- VCMP (R151): Writes a predicate register from an element-wise comparison. -/
  | vcmp (c : VCond) (k : BitVec 3) (a : Src) (b : Src) (h : Bool) (g : Bool) (p : BitVec 2)
  /-- VSEL (R152): Selects elements of a or b under a predicate. -/
  | vsel (d : Dst) (a : Src) (b : Src) (h : Bool) (g : Bool) (p : BitVec 2)
  /-- VCVT (R155): Converts each element to the destination format under a policy. -/
  | vcvt (d : Dst) (a : Src) (y : Policy) (t : NumFmt) (h : Bool)
  /-- VWIDEN (R156): Widens one 512-element part of a tile exactly to 32 bits. -/
  | vwiden (d : Dst) (a : Src) (w : BitVec 3) (h : Bool)
  /-- VQNT (R158): Quantises blocks of 32 to E4M3 or INT8, or writes their scales. -/
  | vqnt (d : Dst) (a : Src) (s : Bool) (f : Bool) (h : Bool)
  /-- VDQNT (R159): Dequantises E4M3 or INT8 elements with UE8M8 block scales. -/
  | vdqnt (d : Dst) (a : Src) (b : Src) (h : Bool) (g : Bool)
  /-- VSPLIT (R157): Writes one term of the three-way BF16 split of FP32 elements. -/
  | vsplit (d : Dst) (a : Src) (t : BitVec 2) (h : Bool)
  /-- VRED (R160): Reduces a tile by the fixed pairwise tree. -/
  | vred (d : Dst) (a : Src) (y : Policy) (x : Axis) (o : RedOp) (h : Bool)
  /-- VSCAN (R161): Writes the running sums of a tile in index order. -/
  | vscan (d : Dst) (a : Src) (y : Policy) (x : Bool) (h : Bool)
  /-- VTRN (R163): Transposes a tile. -/
  | vtrn (d : Dst) (a : Src) (h : Bool)
  /-- VSHUF (R164): Permutes elements of a by 16-bit indices from b. -/
  | vshuf (d : Dst) (a : Src) (b : Src) (h : Bool) (g : Bool) (p : BitVec 2)
  /-- VIOTA (R165): Writes each element's index, column or row. -/
  | viota (d : Dst) (k : IotaKind) (p : BitVec 2)
  /-- VRNG (R167): Writes counter-based random bits from the key and global indices. -/
  | vrng (d : Dst) (p : BitVec 2)
  /-- VSHAPE (R168): Writes VSH, VKEY, VBASE or VGSTR. -/
  | vshape (a : Src) (r : ShapeReg) (h : Bool)
  /-- VMOV (R166): Copies a tile or broadcasts a literal. -/
  | vmov (d : Dst) (a : Src) (h : Bool) (p : BitVec 2)
  /-- VPSET (R154): Writes a predicate register from a count or from other predicates. -/
  | vpset (o : PsetOp) (k : BitVec 3) (a : Src) (t : BitVec 3) (s : BitVec 3) (h : Bool)
  /-- VCLASS (R153): Writes a predicate register from the float class of each element. -/
  | vclass (k : BitVec 3) (a : Src) (c : BitVec 6) (h : Bool) (p : BitVec 2)
  /-- VARGX (R162): Writes the index of the extreme element overall or per row. -/
  | vargx (d : Dst) (a : Src) (e : Bool) (x : Bool) (h : Bool)
  /-- MSTRM (R196): Loads and checks a stream register image. -/
  | mstrm (k : BitVec 4) (a : Src)
  /-- MNEST (R197): Loads the shadow loop-nest table. -/
  | mnest (a : Src)
  /-- MMA (R200): Performs one tile step into an accumulator tile. -/
  | mma (n : BitVec 2) (t : BitVec 4) (k : BitVec 4) (b : Src) (z : Bool) (m : AccMode)
  /-- MLDW (R201): Loads a B tile into a stationary bank. -/
  | mldw (j : BitVec 1) (k : BitVec 4) (b : Src)
  /-- MWSEL (R202): Makes a stationary bank current for later MMAs. -/
  | mwsel (j : BitVec 1)
  /-- MZERO (R203): Zeroes one accumulator tile or a whole bank. -/
  | mzero (n : BitVec 2) (t : BitVec 4) (f : Bool)
  /-- MSPEC (R204): Makes one accumulator bank the shadow of another. -/
  | mspec (s : BitVec 2) (c : BitVec 2)
  /-- MCOMMIT (R205): Copies touched shadow tiles to the base bank and ends the pairing. -/
  | mcommit (c : BitVec 2)
  /-- MDISC (R205): Ends a shadow pairing without copying. -/
  | mdisc (c : BitVec 2)
  /-- MBGJ (R206): Joins a broadcast group of the grove. -/
  | mbgj (g : BitVec 2)
  /-- MCBK (R398): Loads a 16-entry BF16 codebook. -/
  | mcbk (c : BitVec 4) (a : Src)
  /-- MSTAT (R208): Returns a matrix status word. -/
  | mstat (d : Dst) (f : MstatWord)
  /-- QCFG (R228): Configures the rotation array's width, augment count and pair. -/
  | qcfg (a : Src)
  /-- QCLR (R229): Clears a triangular and augment register pair. -/
  | qclr (k : BitVec 1)
  /-- QANN (R230): Reads a row and makes one pass through the triangle. -/
  | qann (a : Src) (f : Bool)
  /-- QAPL (R231): Turns a pair of rows by a given angle code. -/
  | qapl (a : Src) (b : Src) (f : Bool)
  /-- QVEC (R232): Vectors one scalar pair into an angle code. -/
  | qvec (d : Dst) (a : Src) (b : Src)
  /-- QROT (R233): Turns one scalar pair by an angle code. -/
  | qrot (d : Dst) (a : Src) (b : Src)
  /-- QANGF (R234): Converts an angle code to FP32 radians. -/
  | qangf (d : Dst) (a : Src)
  /-- QANGR (R234): Converts FP32 radians to an angle code. -/
  | qangr (d : Dst) (a : Src)
  /-- QRDT (R235): Stores a triangular row. -/
  | qrdt (a : Src) (b : Src) (f : Bool)
  /-- QWRT (R235): Writes a triangular row from memory. -/
  | qwrt (a : Src) (b : Src) (f : Bool)
  /-- QRDA (R236): Stores an output row or the angle buffer. -/
  | qrda (a : Src) (x : RowSel) (f : Bool)
  /-- QSTAT (R238): Returns the rotation status word. -/
  | qstat (d : Dst)
  /-- LD (R253): Loads 1 to 8 bytes from a + b. -/
  | ld (d : Dst) (a : Src) (b : Src) (s : Bool) (f : Wid)
  /-- ST (R253): Stores 1 to 8 bytes to a + b. -/
  | st (d : Dst) (a : Src) (b : Src) (f : Wid)
  /-- LDA (R254): Loads 8 bytes with an order and a scope. -/
  | lda (d : Dst) (a : Nat) (b : Nat) (o : Order) (s : Scope)
  /-- STR (R254): Stores 8 bytes with an order and a scope. -/
  | str (d : Dst) (a : Nat) (b : Nat) (o : Order) (s : Scope)
  /-- PREF (R256): Fills the translation cache for a virtual address. -/
  | pref (a : Src) (b : Src)
  /-- FENCE (R293): Orders the issuer's accesses before and after it at a scope. -/
  | fence (o : Order) (s : Scope)
  /-- WAITA (R257): Waits until a memory word satisfies a condition. -/
  | waita (d : Dst) (a : Src) (b : Src) (q : Bool) (c : WaitCond)
  /-- XFORM (R258): Sends in-bank transform commands for a run of lines. -/
  | xform (d : Dst) (a : Src) (b : Src) (f : XformOp)
  /-- XBOX (R269): Runs a transpose descriptor on the core's transpose unit. -/
  | xbox (d : Dst) (a : Src)
  /-- AMOADD (R422): Atomically adds to a 64-bit unit. -/
  | amoAdd (d : Dst) (a : Nat) (b : Nat) (o : Order) (s : Scope)
  /-- AMOAND (R422): Atomically ANDs a 64-bit unit. -/
  | amoAnd (d : Dst) (a : Nat) (b : Nat) (o : Order) (s : Scope)
  /-- AMOOR (R422): Atomically ORs a 64-bit unit. -/
  | amoOr (d : Dst) (a : Nat) (b : Nat) (o : Order) (s : Scope)
  /-- AMOXOR (R422): Atomically XORs a 64-bit unit. -/
  | amoXor (d : Dst) (a : Nat) (b : Nat) (o : Order) (s : Scope)
  /-- AMOMIN (R422): Atomic signed minimum on a 64-bit unit. -/
  | amoMin (d : Dst) (a : Nat) (b : Nat) (o : Order) (s : Scope)
  /-- AMOMAX (R422): Atomic signed maximum on a 64-bit unit. -/
  | amoMax (d : Dst) (a : Nat) (b : Nat) (o : Order) (s : Scope)
  /-- AMOMINU (R422): Atomic unsigned minimum on a 64-bit unit. -/
  | amoMinu (d : Dst) (a : Nat) (b : Nat) (o : Order) (s : Scope)
  /-- AMOMAXU (R422): Atomic unsigned maximum on a 64-bit unit. -/
  | amoMaxu (d : Dst) (a : Nat) (b : Nat) (o : Order) (s : Scope)
  /-- AMOSWP (R422): Atomically swaps a 64-bit unit. -/
  | amoSwp (d : Dst) (a : Nat) (b : Nat) (o : Order) (s : Scope)
  /-- AMOCAS (R422): Atomic compare-and-swap on a 64-bit unit. -/
  | amoCas (d : Dst) (a : Nat) (b : Nat) (o : Order) (s : Scope)
  /-- AMOFADD (R422): Atomically adds two FP32 lanes of a 64-bit unit. -/
  | amoFadd (d : Dst) (a : Nat) (b : Nat) (o : Order) (s : Scope)
  /-- AMOADD_W (R422): Atomically adds to a 32-bit unit. -/
  | amoAddW (d : Dst) (a : Nat) (b : Nat) (o : Order) (s : Scope)
  /-- AMOAND_W (R422): Atomically ANDs a 32-bit unit. -/
  | amoAndW (d : Dst) (a : Nat) (b : Nat) (o : Order) (s : Scope)
  /-- AMOOR_W (R422): Atomically ORs a 32-bit unit. -/
  | amoOrW (d : Dst) (a : Nat) (b : Nat) (o : Order) (s : Scope)
  /-- AMOXOR_W (R422): Atomically XORs a 32-bit unit. -/
  | amoXorW (d : Dst) (a : Nat) (b : Nat) (o : Order) (s : Scope)
  /-- AMOMIN_W (R422): Atomic signed minimum on a 32-bit unit. -/
  | amoMinW (d : Dst) (a : Nat) (b : Nat) (o : Order) (s : Scope)
  /-- AMOMAX_W (R422): Atomic signed maximum on a 32-bit unit. -/
  | amoMaxW (d : Dst) (a : Nat) (b : Nat) (o : Order) (s : Scope)
  /-- AMOMINU_W (R422): Atomic unsigned minimum on a 32-bit unit. -/
  | amoMinuW (d : Dst) (a : Nat) (b : Nat) (o : Order) (s : Scope)
  /-- AMOMAXU_W (R422): Atomic unsigned maximum on a 32-bit unit. -/
  | amoMaxuW (d : Dst) (a : Nat) (b : Nat) (o : Order) (s : Scope)
  /-- AMOSWP_W (R422): Atomically swaps a 32-bit unit. -/
  | amoSwpW (d : Dst) (a : Nat) (b : Nat) (o : Order) (s : Scope)
  /-- AMOCAS_W (R422): Atomic compare-and-swap on a 32-bit unit. -/
  | amoCasW (d : Dst) (a : Nat) (b : Nat) (o : Order) (s : Scope)
  /-- AMOFADD_W (R422): Atomically adds an FP32 value to a 32-bit unit. -/
  | amoFaddW (d : Dst) (a : Nat) (b : Nat) (o : Order) (s : Scope)
  /-- ACQ (R418): Acquires a sync object, exclusive or shared. -/
  | acq (d : Dst) (a : Nat) (b : Nat) (o : Order) (s : Scope)
  /-- REL (R419): Releases a sync object after its bound writes complete. -/
  | rel (d : Dst) (a : Nat) (b : Nat) (o : Order) (s : Scope)
  /-- BIND (R417): Binds or unbinds a region to a sync object. -/
  | bind (d : Dst) (a : Src) (b : Src) (f : Bool)
  /-- BARA (R413): Arrives at a barrier object and adds a byte count. -/
  | bara (d : Dst) (a : Nat) (b : Nat) (o : Order) (s : Scope)
  /-- BARW (R414): Waits until a barrier's phase differs from a given value. -/
  | barw (d : Dst) (a : Nat) (b : Nat) (o : Order) (s : Scope)
  /-- BARX (R415): Adds to a barrier's pending-byte counter. -/
  | barx (d : Dst) (a : Src) (b : Src)
  /-- HSET (R396): Sets the state of a buffer handle. -/
  | hset (d : Dst) (a : Src) (f : Bool) (s : BufState)
  /-- HACQ (R420): Takes a buffer handle for filling or draining. -/
  | hacq (d : Dst) (a : Src) (f : Bool)
  /-- HREL (R420): Hands a buffer handle on to full or free. -/
  | hrel (d : Dst) (a : Src) (f : Bool)
  /-- HWAIT (R420): Waits until a buffer handle reaches a state. -/
  | hwait (d : Dst) (a : Src) (q : Bool) (s : BufState)
  /-- RCLAIM (R350): Claims n ring slots for a producer. -/
  | rclaim (d : Dst) (a : Src) (b : Src) (n : Bool)
  /-- RPUB (R350): Publishes claimed ring slots, optionally with end of stream. -/
  | rpub (d : Dst) (a : Src) (b : Src) (r : Bool) (e : Bool)
  /-- WFILL (R350): Waits for a published ring slot. -/
  | wfill (d : Dst) (a : Src) (b : Src)
  /-- WFREE (R350): Waits until a ring has n free slots. -/
  | wfree (d : Dst) (a : Src) (b : Src)
  /-- RCONS (R350): Frees consumed ring slots. -/
  | rcons (d : Dst) (a : Src) (b : Src)
  /-- RERR (R350): Puts a ring in ERROR with a code and slot index. -/
  | rerr (d : Dst) (a : Src) (b : Src)
  /-- RFIX (R350): Repairs a ring in ERROR and returns it to RUN. -/
  | rfix (d : Dst) (a : Src) (b : Src)
  /-- RFIX_INIT (R351): Loads a whole ring entry from a checked image. -/
  | rfixInit (d : Dst) (a : Src) (b : Src)
  /-- RSTAT (R350): Returns a ring's indices or error state. -/
  | rstat (d : Dst) (a : Src) (f : RstatWord)
  /-- CHAIN (R359): Starts a copy channel's walk of transfer records. -/
  | chain (a : Src) (b : Src)
  /-- CWAIT (R360): Waits until a copy channel is idle and returns its status. -/
  | cwait (d : Dst) (a : Src)
  /-- CSTAT (R360): Returns a copy channel's status word or last cause. -/
  | cstat (d : Dst) (a : Src) (f : Bool)
  /-- NVSUB (R362): Submits an NVMe command and rings the submission doorbell. -/
  | nvsub (d : Dst) (a : Src) (b : Src) (n : Bool)
  /-- NVCPL (R362): Reaps an NVMe completion and rings the completion doorbell. -/
  | nvcpl (d : Dst) (a : Src) (b : Src) (c : Bool)
  /-- RSTF (R373): Stores to a remote device and raises a flag there. -/
  | rstf (a : Src) (b : Src) (f : Bool)
  /-- RCHAIN (R375): Sends data along a chain of up to eight peers. -/
  | rchain (a : Src)
  /-- RMCR (R376): Contributes to a multicast-reduce of a group. -/
  | rmcr (a : Src) (b : Src)
  /-- RLDF (R374): Reads from a remote device and raises a flag there. -/
  | rldf (a : Src) (b : Src) (f : Bool)
  /-- BSEND (R378): Posts a pull-class message to a receiver. -/
  | bsend (d : Dst) (a : Src) (b : Src) (n : Bool)
  /-- BRECV (R380): Posts a receive buffer for pull-class messages. -/
  | brecv (d : Dst) (a : Src) (n : Bool)
  /-- BSTAT (R390): Returns the state of a message, a receive or the scheduler. -/
  | bstat (d : Dst) (a : Src) (f : BstatWord)
  /-- REP (R82): Re-issues the next instruction up to 64 times, stepping its fields. -/
  | rep (c : BitVec 6) (m : BitVec 3) (s : BitVec 3)
  /-- POST (R336): Posts a task record into the issuer's window. -/
  | post (d : Dst) (a : Src) (n : Bool)
  /-- POSTR (R337): Sends a task record to a window of another device. -/
  | postr (d : Dst) (a : Src) (b : Src)
  /-- TWAIT (R338): Waits for a task of the window to retire. -/
  | twait (d : Dst) (a : Src) (n : Bool)
  /-- REGDEF (R342): Defines a region from a descriptor. -/
  | regdef (d : Dst) (a : Src)
  /-- REGDROP (R343): Drops a region once no live task binds it. -/
  | regdrop (a : Src)
  /-- TRAP (R440): Raises software cause 0x0C0 + n. -/
  | trap (n : BitVec 6)
  /-- ERET (R441): Returns from a trap handler, resuming or skipping the faulting word. -/
  | eret (s : Bool)
  /-- YIELD (R443): Stops at a pending pre-emption or waits a bounded time. -/
  | yield (a : Src)
  /-- QZST (R444): Stores a quarantined register to a PROF page. -/
  | qzst (d : Nat) (a : Src) (b : Src)
  /-- CTXSW (R445): Pre-empts another grove. -/
  | ctxsw (a : Src)
  /-- CTXSW_OUT (R445): Copies a grove's understories to memory. -/
  | ctxswOut (a : Src) (b : Src)
  /-- CTXSW_IN (R445): Copies memory into a grove's understories. -/
  | ctxswIn (a : Src) (b : Src)
  /-- RCBLD (R446): Loads a region control block into the active cache. -/
  | rcbld (d : Dst) (a : Src) (b : Src)
  /-- RCBLD_TERM (R446): Terminates a region control block and its descendants. -/
  | rcbldTerm (d : Dst) (b : Src)
  /-- RCBLD_UNF (R446): Clears a region control block's fence and restarts its halted sequencers. -/
  | rcbldUnf (d : Dst) (b : Src)
  /-- FETCH_FAULT (R69): A fetch fault on a base word or literal word is reported at the base word's address before any decode. -/
  | fetchFault (cause : Nat) (tval : Word)
  /-- DECODE_FAULT (R79): A fetched word with an unassigned opcode, or an assigned opcode with a nonzero reserved field, fails decode and traps. -/
  | decodeFault (cause : Nat) (word : Word)
  /-- TRAP_DELIVERY (R430): A trap is delivered to the trap vector at an instruction boundary. -/
  | trapDelivery (core seq : Nat)
  /-- SPLIT_WORD (R14): V's splitter places a word in its sub-queue, capturing scalar operands and popping token queues. -/
  | splitWord (core : Nat)
  /-- NEST_STEP (R185): An active nest issues its next tile step, loading a new B tile when needed. -/
  | nestStep (core : Nat)
  /-- BANK_LOAD (R179): The decompressor writes a B tile into a stationary bank. -/
  | bankLoad (core : Nat)
  /-- ACCUMULATOR_ROW_COMMIT (R182): The array commits one accumulator row of a step as a unit. -/
  | accumulatorRowCommit (core : Nat)
  /-- ARRAY_OPERATION_COMMIT (R221): A rotation pass, QAPL, QVEC or QROT commits its results. -/
  | arrayOperationCommit (core : Nat)
  /-- TRANSFORM_LINE (R252): A bank's transform unit executes one command on one line. -/
  | transformLine (core bank : Nat)
  /-- XFORM_COMPLETE (R260): The last line command of an XFORM completes and d is written. -/
  | xformComplete (core seq : Nat)
  /-- TRANSPOSE_TILE (R267): The transpose unit moves one tile of a box and subtracts its bytes from a barrier. -/
  | transposeTile (core : Nat)
  /-- COPY_RECORD (R355): A copy channel processes one transfer record, writes it back and follows next. -/
  | copyRecord (core channel : Nat)
  /-- POST_ACCEPT (R326): The canopy accepts a waiting local or remote post and assigns its post sequence. -/
  | postAccept (grove : Nat)
  /-- POST_CHECK_END (R333): The 8-cycle check of a post ends and the entry takes its state. -/
  | postCheckEnd (grove : Nat)
  /-- LOTTERY_DRAW (R332): An idle engine draws an eligible task from its grove's ready classes and releases it. -/
  | lotteryDraw (core engine : Nat)
  /-- TASK_STEAL (R32): An idle engine takes an affinity-0 HBM task from another grove or glade. -/
  | taskSteal (core engine : Nat)
  /-- TASK_RETIRE (R329): A RETIRING task retires once its accesses, predecessors and gang have finished. -/
  | taskRetire (grove slot : Nat)
  /-- EDGE_RESOLVE (R327): An edge resolves in the cycle after its predecessor retires or is removed. -/
  | edgeResolve (grove slot : Nat)
  /-- SUCCESSOR_REEXAMINE (R328): After HINTSUCC, successors are re-examined and may enter EARLY. -/
  | successorReexamine (grove slot : Nat)
  /-- HOST_POST (R453): A host command ring POST command is checked and posted. -/
  | hostPost (tenant ring : Nat)
  /-- HOST_FENCE (R453): A host FENCE command completes after earlier commands. -/
  | hostFence (tenant ring : Nat)
  /-- HOST_COMMAND_INVALID (R453): A host command with another opcode completes REJECTED. -/
  | hostCommandInvalid (tenant ring : Nat)
  /-- PREEMPT_HALT (R437): On a pre-emption request every sequencer of the grove stops at an instruction boundary. -/
  | preemptHalt (grove : Nat)
  /-- UNDERSTORY_EXCHANGE (R437): The grove's cores exchange contexts with their understories and the incoming context resumes. -/
  | understoryExchange (grove : Nat)
  /-- BROADCAST_DELIVERY (R193): A group's source delivers a B tile over the grove bus into every member's free bank. -/
  | broadcastDelivery (grove group : Nat)
  /-- WALK_COMPLETE (R279): A page walk completes and its result goes to every attached access. -/
  | walkComplete (glade : Nat)
  /-- RCHAIN_FORWARD (R375): A chain peer forwards data and the list to the next peer. -/
  | rchainForward (m : RemoteAccess)
  /-- KEY_SLOT_DRAINED (R368): A DRAINING key slot becomes EMPTY when its last flit is acknowledged. -/
  | keySlotDrained (link slot : Nat)
  /-- TOKEN_EXPIRY (R383): A token expires 8 µs after its grant and its range lapses. -/
  | tokenExpiry (device id offset : Nat)
  /-- ORPHANED (R383): A request without data for 256 µs is orphaned and its record written. -/
  | orphaned (device id : Nat)
  /-- POSTR_RESEND (R334): In deterministic mode a refused POSTR is re-sent every 1 µs. -/
  | postrResend (op : Nat)
  /-- BSEND_RESEND (R390): In deterministic mode a refused BSEND request is re-sent every 1 µs. -/
  | bsendResend (id : Nat)
  /-- MGO (R198): Checks the shadow nest and activates it. -/
  | mgo
  /-- MWAIT (R199): Blocks M until every earlier MX operation has retired and committed. -/
  | mwait
  /-- MBGL (R206): Leaves the core's broadcast group. -/
  | mbgl
  /-- QWAIT (R237): Blocks Q until every array operation and RT store has completed. -/
  | qwait
  /-- NOP (R85): Does nothing but advance the program counter. -/
  | nop
  /-- PREDWAIT (R339): In an early task, waits until every predecessor has retired. -/
  | predwait
  /-- HINTSUCC (R340): Sets the running task's hint flag for early successors. -/
  | hintsucc
  /-- TEND (R341): Waits for the sequencer's work, delivers pending traps and ends the task. -/
  | tend
  /-- HALT (R442): Stops the sequencer and writes a HALTED event. -/
  | halt
  /-- REGISTER_WRITE (R449): A write to a PF0 or tenant register that has no row of its own. -/
  | registerWrite (tenant : Option Nat) (offset : Nat) (value : BitVec 128)
  /-- CQTAIL (R452): The host rings a command ring's tail doorbell. -/
  | cqtail (tenant ring value : Nat)
  /-- REMOTE_POST_RECEIVE (R337): A receiver checks a remote post and accepts, refuses or rejects it. -/
  | remotePostReceive (m : RemotePost)
  /-- POSTR_ACK (R337): The sender receives a POSTR acknowledgement, writes the completion word and lowers its job count. -/
  | postrAck (op : Nat) (word : Word)
  /-- ROTATION_FAULT_PENDING (R223): An exponent overflow in the rotation array makes a fault pending and discards later work. -/
  | rotationFaultPending (core : Nat)
  /-- BANK_REQUEST (R248): A scratchpad bank serves one arriving request in order. -/
  | bankRequest (core offset rcb : Nat) (data : Option (List Byte)) (count : Nat)
  /-- SCRUB_REQUEST (R251): The scrubber reads and corrects words of an array every 4096 cycles. -/
  | scrubRequest (key : Nat)
  /-- SYNC_LINE_UPDATE (R411): The sync engine applies the cycle's updates to a barrier object together. -/
  | syncLineUpdate (glade line : Nat) (agents : List BarAgent)
  /-- BACKED_LINE_MOVE (R408): The sync engine moves a backed line between SRAM and the overflow area. -/
  | backedLineMove (glade line : Nat)
  /-- WAITA_REEVALUATE (R257): A blocked WAITA re-evaluates its condition at least every 1 µs. -/
  | waitaReevaluate (core seq : Nat)
  /-- YIELD_EXPIRE (R443): A YIELD's delay expires and the instruction completes. -/
  | yieldExpire (core seq : Nat)
  /-- BLOCKED_WAKE (R28): A blocked instruction is re-examined and proceeds once its condition holds. -/
  | blockedWake (core seq sub : Nat)
  /-- FLIT_RECEIVE (R366): A link receives a flit and accepts or discards it. -/
  | flitReceive (link : Nat) (flit : List Byte)
  /-- REPLAY_TIMEOUT (R366): A missing acknowledgement after 2 µs causes a go-back replay. -/
  | replayTimeout (link : Nat)
  /-- LINK_DOWN (R367): A link goes down and its waiting operations complete UNREACHABLE. -/
  | linkDown (link : Nat)
  /-- PREFIX_ADVERTISE (R379): A device advertises its four prefix sizes over its links. -/
  | prefixAdvertise (device : Option Nat) (sizes : List Nat)
  /-- REMOTE_ACCESS_RECEIVE (R370): A target checks and performs a remote-memory access and its flag operation. -/
  | remoteAccessReceive (m : RemoteAccess)
  /-- REMOTE_ACK (R371): A remote acknowledgement reaches the sender, which writes the completion record or pends a fault. -/
  | remoteAck (op status cause index : Nat) (data : List Byte)
  /-- RMCR_DELIVERY (R377): The combined value of a multicast-reduce is written at a member, then its flag and record. -/
  | rmcrDelivery (op status cause : Nat) (data : List Byte)
  /-- PULL_REQUEST_ARRIVE (R381): A pull request arrives and is matched, held or refused. -/
  | pullRequestArrive (m : PullRequest)
  /-- TOKEN_GRANT (R382): The grant scheduler issues a pull token for the top-ranked request. -/
  | tokenGrant
  /-- PULL_TOKEN_RECEIVE (R385): A sender receives a token and sends its bytes. -/
  | pullTokenReceive (t : Token)
  /-- PULL_DATA_ARRIVE (R382): Pull data arrives at the receiver and is counted or dropped. -/
  | pullDataArrive (t : Token) (start : Nat) (data : List Byte)
  /-- PULL_COMPLETE_NOTICE (R385): A sender receives a completion or error notice and writes its record. -/
  | pullCompleteNotice (id status cause : Nat)
  /-- PULL_SUSPEND_NOTICE (R388): A receiver takes a sender's suspension notice and holds the request SUSPENDED. -/
  | pullSuspendNotice (device id : Nat)
  /-- PULL_RESUME_REQUEST (R388): A receiver answers a sender's resume request and re-grants. -/
  | pullResumeRequest (device id offset : Nat)
  /-- CPLHEAD (R453): The host advances the completion head, letting the device read commands again. -/
  | cplhead (tenant ring value : Nat)
  /-- HOST_HBM_ACCESS (R448): A PCI Express request reaches HBM through a BAR2 aperture. -/
  | hostHbmAccess (tenant : Option Nat) (offset : Nat) (data : Option (List Byte)) (count : Nat)
  /-- COLD_RESET (R450): Cold reset of the whole device. -/
  | coldReset
  /-- TENANT_RESET (R450): Resets one tenant: terminates its RCBs, disables its queues and invalidates translations. -/
  | tenantReset (tenant : Nat)
  /-- TINV_GO (R280): Starts an invalidation of a tenant's translations. -/
  | tinvGo (value : Word)
  /-- INVALIDATION_COMPLETE (R280): An invalidation completes and TINV.busy clears. -/
  | invalidationComplete
  /-- GCTL_PRE (R437): The host pre-empts a grove. -/
  | gctlPre (grove : Nat)
  /-- GCTL_RESTART (R451): The host empties and restarts a stopped canopy. -/
  | gctlRestart (grove : Nat)
  /-- GCTL_RESUME (R442): The host restarts sequencers halted by HALT. -/
  | gctlResume (grove : Nat)
  /-- KSCTL_INSTALL (R451): Seals a written key and salt into an EMPTY key slot. -/
  | ksctlInstall (link slot : Nat)
  /-- KSCTL_CUR (R368): Makes a key slot CURRENT and the other DRAINING. -/
  | ksctlCur (link slot : Nat)
  /-- FSUSP_SUSPEND (R386): Suspends the pull state of an RCB subtree. -/
  | fsuspSuspend (rcb : Nat)
  /-- FSUSP_RESUME (R387): Resumes the pull state of an RCB subtree. -/
  | fsuspResume (rcb : Nat)
  /-- TIMER_WRITE (R425): System software writes the device timer. -/
  | timerWrite (value : Word)
  /-- LSEED_WRITE (R332): System software writes a grove's lottery state, 0 storing 1. -/
  | lseedWrite (grove : Nat) (value : Word)
  /-- EXTEND (R458): Extends a measurement register with a digest. -/
  | extend (index : Nat) (digest : Mail (List Byte))
  /-- READMR (R458): Returns a measurement register. -/
  | readmr (index : Mail Nat)
  /-- REPORT (R458): Returns a signed attestation report over a nonce. -/
  | report (nonce : Mail (List Byte))
  /-- I3C_PRIVATE_READ (R459): Returns boot state, power, temperature or management events over I3C. -/
  | i3cPrivateRead (command : I3cCall)
  /-- SETDASA (R459): Assigns the management core's I3C dynamic address from its static address. -/
  | setdasa (addr : I3cCall)
  /-- ENTDAA (R459): Assigns the management core's I3C dynamic address by arbitration. -/
  | entdaa (addr : Nat)
  /-- CLOCK_THROTTLE (R460): A power or temperature limit lowers the main clock in 50 MHz steps. -/
  | clockThrottle (steps : Nat)
  /-- JUNCTION_OVERTEMP (R460): A 105 °C junction raises MACHINE_CHECK, halts sequencers and stops canopies. -/
  | junctionOvertemp
  /-- LINK_TRAINING (R364): A link trains and comes up, and prefix sizes are advertised over it. -/
  | linkTraining (link : Nat)
  /-- DEVICE_TIMER_TICK (R425): The device timer increases by 1 every nanosecond and wraps modulo 2^64. -/
  | deviceTimerTick
deriving DecidableEq, Repr

end Sys2Proof
end

