-- ==== Sys2Proof/Machine/Num.lean ====
section
/-! DEFINITION. Number formats, exact arithmetic, rounding and conversion (02_values R41 to R58). A
float is computed exactly as sign, magnitude and exponent and is rounded once. Encodings are natural
numbers here; the instructions narrow them. -/

namespace Sys2Proof

/-- Element width in bits (R41, R45). -/
def NumFmt.width : NumFmt → Nat
  | .fp32 => 32 | .fp16 => 16 | .bf16 => 16 | .e4m3 => 8 | .e5m2 => 8
  | .int4 => 4 | .int8 => 8 | .int16 => 16 | .int32 => 32 | .int64 => 64

def NumFmt.isFloat : NumFmt → Bool
  | .fp32 | .fp16 | .bf16 | .e4m3 | .e5m2 => true
  | _ => false

/-- Fraction width of a float format (R41); 0 for integers. -/
def NumFmt.fbits : NumFmt → Nat
  | .fp32 => 23 | .fp16 => 10 | .bf16 => 7 | .e4m3 => 3 | .e5m2 => 2 | _ => 0

/-- Exponent width of a float format (R41); 0 for integers. -/
def NumFmt.ebits : NumFmt → Nat
  | .fp32 => 8 | .fp16 => 5 | .bf16 => 8 | .e4m3 => 4 | .e5m2 => 5 | _ => 0

/-- Exponent bias of a float format (R41). -/
def NumFmt.bias : NumFmt → Nat
  | .fp32 => 127 | .fp16 => 15 | .bf16 => 127 | .e4m3 => 7 | .e5m2 => 15 | _ => 0

/-- Magnitude code of the largest finite value (R42). -/
def NumFmt.maxFinite : NumFmt → Nat
  | .fp32 => 0x7F7FFFFF | .fp16 => 0x7BFF | .bf16 => 0x7F7F | .e4m3 => 0x7E | .e5m2 => 0x7B | _ => 0

/-- Code of plus infinity; E4M3 has none (R42). -/
def NumFmt.infCode : NumFmt → Option Nat
  | .fp32 => some 0x7F800000 | .fp16 => some 0x7C00 | .bf16 => some 0x7F80 | .e5m2 => some 0x7C
  | _ => none

/-- The canonical NaN (R42). -/
def NumFmt.nanCode : NumFmt → Nat
  | .fp32 => 0x7FC00000 | .fp16 => 0x7E00 | .bf16 => 0x7FC0 | .e4m3 => 0x7F | .e5m2 => 0x7E | _ => 0

/-- Weight of the sign bit. -/
def NumFmt.signBit (f : NumFmt) : Nat := 2 ^ (f.width - 1)

/-- An exact value: NaN, an infinity, or ±m·2^e with signed zeros (m = 0). -/
inductive FVal where
  | nan
  | inf (neg : Bool)
  | fin (neg : Bool) (m : Nat) (e : Int)
deriving DecidableEq, Repr

namespace FVal

def isNaN : FVal → Bool
  | .nan => true
  | _ => false

def isFinite : FVal → Bool
  | .fin _ _ _ => true
  | _ => false

def isZero : FVal → Bool
  | .fin _ m _ => m == 0
  | _ => false

def sign : FVal → Bool
  | .nan => false
  | .inf s => s
  | .fin s _ _ => s

def neg : FVal → FVal
  | .nan => .nan
  | .inf s => .inf (!s)
  | .fin s m e => .fin (!s) m e

def abs : FVal → FVal
  | .nan => .nan
  | .inf _ => .inf false
  | .fin _ m e => .fin false m e

/-- An integer as an exact value; zero is +0 (R52: −0 arises from floats only). -/
def ofInt (n : Int) : FVal := .fin (decide (n < 0)) n.natAbs 0

/-- The finite value as an integer multiple of 2^e0, for e0 not above its exponent. -/
def scaled (neg : Bool) (m : Nat) (e e0 : Int) : Int :=
  let k : Int := (m * 2 ^ (e - e0).toNat : Nat)
  if neg then -k else k

end FVal

/-- The two's-complement reading of the low `w` bits of `x` (R45). -/
def sextInt (w x : Nat) : Int :=
  let y := x % 2 ^ w
  if w = 0 then 0 else if y < 2 ^ (w - 1) then (y : Int) else (y : Int) - (2 ^ w : Nat)

/-- An integer modulo 2^w, as a code (R46 wrap). -/
def wrapInt (w : Nat) (n : Int) : Nat := (n % (2 ^ w : Nat)).toNat

/-- Least and greatest integer of width `w` (R45). -/
def intMin (w : Nat) : Int := -((2 ^ (w - 1) : Nat) : Int)
def intMax (w : Nat) : Int := ((2 ^ (w - 1) : Nat) : Int) - 1

/-- sat(x, lo, hi) of R8. -/
def satInt (x lo hi : Int) : Int := if x < lo then lo else if x > hi then hi else x

/-- An exact integer narrowed to width `w`: saturated or wrapped (R46). -/
def narrowInt (sat : Bool) (w : Nat) (n : Int) : Nat :=
  wrapInt w (if sat then satInt n (intMin w) (intMax w) else n)

/-- The value of a float encoding (R41, R42). -/
def NumFmt.decodeFloat (f : NumFmt) (x : Nat) : FVal :=
  let s := x / f.signBit % 2 == 1
  let mag := x % f.signBit
  let ex := mag / 2 ^ f.fbits
  let fr := mag % 2 ^ f.fbits
  if ex = 2 ^ f.ebits - 1 ∧ (f = .e4m3 → fr = 7) then
    if f ≠ .e4m3 ∧ fr = 0 then .inf s else .nan
  else if ex = 0 then .fin s fr (1 - (f.bias : Int) - f.fbits)
  else .fin s (2 ^ f.fbits + fr) ((ex : Int) - f.bias - f.fbits)

/-- The value of an element's bits in any format (R41, R45). -/
def NumFmt.decode (f : NumFmt) (x : Nat) : FVal :=
  if f.isFloat then f.decodeFloat x else .ofInt (sextInt f.width x)

/-- Whether the magnitude to be rounded goes up by one unit: `n` is the truncated integer, `rem` of
`2^s` was cut off, `sticky` says that something nonzero lies below `rem` (R50). -/
def roundsUp (rm : Rnd) (neg : Bool) (n rem s : Nat) (sticky : Bool) : Bool :=
  let inexact := rem != 0 || sticky
  match rm with
  | .rtz => false
  | .rdn => neg && inexact
  | .rup => !neg && inexact
  | .rne =>
    if s = 0 then false
    else rem > 2 ^ (s - 1) || (rem == 2 ^ (s - 1) && (sticky || n % 2 == 1))

/-- The magnitude m·2^e (a little more when `sticky`) rounded to format `f`, as a magnitude code with
the exponent range unbounded above (R50). -/
def NumFmt.roundMag (f : NumFmt) (rm : Rnd) (neg : Bool) (m : Nat) (e : Int) (sticky : Bool) : Nat :=
  let qmin : Int := 1 - (f.bias : Int) - f.fbits
  let q : Int := max ((Nat.log2 m : Int) + e - f.fbits) qmin
  if m = 0 then 0
  else if q ≤ e then (q - qmin).toNat * 2 ^ f.fbits + m * 2 ^ (e - q).toNat
  else
    let s := (q - e).toNat
    let n := m / 2 ^ s
    let n' := if roundsUp rm neg n (m % 2 ^ s) s sticky then n + 1 else n
    (q - qmin).toNat * 2 ^ f.fbits + n'

/-- Put the sign on a magnitude code. -/
def NumFmt.signed (f : NumFmt) (neg : Bool) (mag : Nat) : Nat := if neg then f.signBit + mag else mag

/-- The encoding of an infinity under R51: E4M3 gives the canonical NaN. -/
def NumFmt.infOrNaN (f : NumFmt) (neg : Bool) : Nat :=
  match f.infCode with
  | some c => f.signed neg c
  | none => f.nanCode

/-- The result of an arithmetic overflow for each rounding code (R51). -/
def NumFmt.overflow (f : NumFmt) (rm : Rnd) (neg : Bool) : Nat :=
  let big := f.signed neg f.maxFinite
  match rm with
  | .rne => f.infOrNaN neg
  | .rtz => big
  | .rdn => if neg then f.infOrNaN neg else big
  | .rup => if neg then big else f.infOrNaN neg

/-- An exact value rounded once to a float format as arithmetic does (R44, R51). -/
def NumFmt.roundSticky (f : NumFmt) (rm : Rnd) (v : FVal) (sticky : Bool) : Nat :=
  match v with
  | .nan => f.nanCode
  | .inf s => f.infOrNaN s
  | .fin s m e =>
    let c := f.roundMag rm s m e sticky
    if c > f.maxFinite then f.overflow rm s else f.signed s c

/-- An exact value rounded once to a float format (R44, R50, R51). -/
def NumFmt.round (f : NumFmt) (rm : Rnd) (v : FVal) : Nat := f.roundSticky rm v false

namespace FVal

/-- Exact sum; `rm` decides the sign of an exact zero (R44). -/
def add (rm : Rnd) (a b : FVal) : FVal :=
  match a, b with
  | .nan, _ => .nan
  | _, .nan => .nan
  | .inf s, .inf t => if s = t then .inf s else .nan
  | .inf s, .fin _ _ _ => .inf s
  | .fin _ _ _, .inf t => .inf t
  | .fin s m e, .fin t k g =>
    let e0 := min e g
    let n := scaled s m e e0 + scaled t k g e0
    if n = 0 then
      if m = 0 ∧ k = 0 ∧ s = t then .fin s 0 0 else .fin (rm == .rdn) 0 0
    else .fin (decide (n < 0)) n.natAbs e0

/-- Exact product (R44). -/
def mul (a b : FVal) : FVal :=
  match a, b with
  | .nan, _ => .nan
  | _, .nan => .nan
  | .inf s, .inf t => .inf (s != t)
  | .inf s, .fin t m _ => if m = 0 then .nan else .inf (s != t)
  | .fin s m _, .inf t => if m = 0 then .nan else .inf (s != t)
  | .fin s m e, .fin t k g => .fin (s != t) (m * k) (e + g)

/-- Whether `a < b` for numbers; false with a NaN. Zeros are equal. -/
def lt (a b : FVal) : Bool :=
  match a, b with
  | .nan, _ => false
  | _, .nan => false
  | .inf s, .inf t => s && !t
  | .inf s, .fin _ _ _ => s
  | .fin _ _ _, .inf t => !t
  | .fin s m e, .fin t k g =>
    let e0 := min e g
    decide (scaled s m e e0 < scaled t k g e0)

/-- Whether `a = b` for numbers; false with a NaN. Zeros are equal. -/
def eqv (a b : FVal) : Bool :=
  match a, b with
  | .nan, _ => false
  | _, .nan => false
  | .inf s, .inf t => s == t
  | .inf _, .fin _ _ _ => false
  | .fin _ _ _, .inf _ => false
  | .fin s m e, .fin t k g =>
    let e0 := min e g
    decide (scaled s m e e0 = scaled t k g e0)

/-- The smaller value: −0 is below +0, a NaN gives NaN (R44). -/
def min' (a b : FVal) : FVal :=
  if a.isNaN || b.isNaN then .nan
  else if a.isZero && b.isZero then .fin (a.sign || b.sign) 0 0
  else if lt b a then b else a

/-- The larger value: +0 is above −0, a NaN gives NaN (R44). -/
def max' (a b : FVal) : FVal :=
  if a.isNaN || b.isNaN then .nan
  else if a.isZero && b.isZero then .fin (a.sign && b.sign) 0 0
  else if lt a b then b else a

end FVal

/-- x / y rounded once (R44 division rows): the exact quotient is carried to 70 bits and a sticky bit. -/
def NumFmt.divRound (f : NumFmt) (rm : Rnd) (a b : FVal) : Nat :=
  match a, b with
  | .nan, _ => f.nanCode
  | _, .nan => f.nanCode
  | .inf _, .inf _ => f.nanCode
  | .inf s, .fin t _ _ => f.infOrNaN (s != t)
  | .fin s _ _, .inf t => f.round rm (.fin (s != t) 0 0)
  | .fin s m e, .fin t k g =>
    if k = 0 then if m = 0 then f.nanCode else f.infOrNaN (s != t)
    else if m = 0 then f.round rm (.fin (s != t) 0 0)
    else
      let sh := Nat.log2 k + 70 - Nat.log2 m
      let n := m * 2 ^ sh
      f.roundSticky rm (.fin (s != t) (n / k) (e - g - sh)) (n % k != 0)

/-- The integer square root by bits: the greatest r with r² ≤ m, for r below 2^b. -/
def isqrtBits (m : Nat) : Nat → Nat → Nat
  | 0, r => r
  | b + 1, r =>
    let r' := r + 2 ^ b
    isqrtBits m b (if r' * r' ≤ m then r' else r)

/-- √x rounded once (R44): a negative value gives NaN, −0 gives −0. -/
def NumFmt.sqrtRound (f : NumFmt) (rm : Rnd) (a : FVal) : Nat :=
  match a with
  | .nan => f.nanCode
  | .inf s => if s then f.nanCode else f.infOrNaN false
  | .fin s m e =>
    if m = 0 then f.round rm (.fin s 0 0)
    else if s then f.nanCode
    else
      let sh := 140 - Nat.log2 m + (if (e - (140 - Nat.log2 m : Nat)) % 2 = 0 then 0 else 1)
      let n := m * 2 ^ sh
      let r := isqrtBits n (Nat.log2 n / 2 + 1) 0
      f.roundSticky rm (.fin false r ((e - sh) / 2)) (r * r != n)

/-- The integer nearest to ±m·2^e under a rounding code (R52, float to integer). -/
def roundToInt (rm : Rnd) (neg : Bool) (m : Nat) (e : Int) : Int :=
  let k : Nat :=
    if 0 ≤ e then m * 2 ^ e.toNat
    else
      let s := (-e).toNat
      let n := m / 2 ^ s
      if roundsUp rm neg n (m % 2 ^ s) s false then n + 1 else n
  if neg then -(k : Int) else k

/-- A conversion of an exact value to any format under R50 to R52; `none` is the trap of policy 11. -/
def NumFmt.convert (f : NumFmt) (rm : Rnd) (pol : Policy) (v : FVal) : Option Nat :=
  if f.isFloat then
    match v with
    | .nan => some f.nanCode
    | .inf s =>
      match f.infCode with
      | some c => some (f.signed s c)
      | none =>
        match pol with
        | .saturate => some (f.signed s f.maxFinite)
        | .trap => none
        | _ => some f.nanCode
    | .fin s m e =>
      let c := f.roundMag rm s m e false
      if c ≤ f.maxFinite then some (f.signed s c)
      else
        match pol with
        | .saturate => some (f.signed s f.maxFinite)
        | .infinity => some (f.infOrNaN s)
        | .nan => some f.nanCode
        | .trap => none
  else
    match v with
    | .nan => if pol = .trap then none else some 0
    | .inf s => if pol = .trap then none else some (wrapInt f.width (if s then intMin f.width else intMax f.width))
    | .fin s m e =>
      let n := roundToInt rm s m e
      if intMin f.width ≤ n ∧ n ≤ intMax f.width then some (wrapInt f.width n)
      else if pol = .trap then none
      else some (wrapInt f.width (satInt n (intMin f.width) (intMax f.width)))

/-- The value of a UE8M8 scale (R48). -/
def ue8m8Value (x : Nat) : FVal :=
  let e := x / 256 % 256
  let m := x % 256
  if e = 0 then .fin false 0 0
  else if e = 255 then .nan
  else .fin false (256 + m) ((e : Int) - 135)

/-- The smallest UE8M8 value not below a/b, for b > 0 (R49, exact). -/
def ue8m8Ceil (a b : Nat) : Nat :=
  if a = 0 then 0
  else
    let k : Int :=
      if b ≤ a then (Nat.log2 (a / b) : Int)
      else
        let t := Nat.log2 b - Nat.log2 a
        if b ≤ a * 2 ^ t then -(t : Int) else -((t : Int) + 1)
    let n := if 0 ≤ k then a else a * 2 ^ (-k).toNat
    let d := if 0 ≤ k then b * 2 ^ k.toNat else b
    let m := ((n - d) * 256 + d - 1) / d
    let m' := if m = 256 then 0 else m
    let e : Int := (if m = 256 then k + 1 else k) + 127
    if e < 1 then 0x0100 else if e > 254 then 0xFF00 else e.toNat * 256 + m'

/-- ue8m8_ceil of a finite magnitude divided by a limit (R65, R158). -/
def ue8m8CeilQuot (v : FVal) (lim : Nat) : Nat :=
  match v with
  | .fin _ m e => if 0 ≤ e then ue8m8Ceil (m * 2 ^ e.toNat) lim else ue8m8Ceil m (lim * 2 ^ (-e).toNat)
  | _ => 0

/-- shr_rne of R55. -/
def shrRne (n : Int) (s : Nat) : Int :=
  if s = 0 then n
  else
    let q := n / (2 ^ s : Nat)
    let rem := n % (2 ^ s : Nat)
    let half : Int := (2 ^ (s - 1) : Nat)
    if rem > half ∨ (rem = half ∧ q % 2 = 1) then q + 1 else q

/-- A float add, multiply or fused multiply-add in one format, rounded once (R44). -/
def NumFmt.addCode (f : NumFmt) (rm : Rnd) (a b : Nat) : Nat :=
  f.round rm ((f.decode a).add rm (f.decode b))
def NumFmt.mulCode (f : NumFmt) (rm : Rnd) (a b : Nat) : Nat :=
  f.round rm ((f.decode a).mul (f.decode b))

end Sys2Proof
end

