-- ==== Sys2Proof/Machine/Quant.lean ====
section
/-! DEFINITION. Quantisation of blocks to E4M3 or INT8 with a UE8M8 scale: VQNT, XFORM and the copy path
(R49, R65, R158, R259). -/

namespace Sys2Proof

/-- a / b rounded to the nearest integer, ties to even. -/
def quotRne (a b : Nat) : Nat :=
  let q := a / b
  let r := a % b
  if b < 2 * r ∨ (b = 2 * r ∧ q % 2 = 1) then q + 1 else q

/-- The largest magnitude that an element format takes (R65). -/
def quantLim (i8 : Bool) : Nat := if i8 then 127 else 448

/-- The magnitude of a finite FP32 value in units of 2^−149; 0 for the others. -/
def magUnits : FVal → Nat
  | .fin _ m e => m * 2 ^ (e + 149).toNat
  | _ => 0

/-- The scale of a block: ue8m8_ceil of the largest finite magnitude over the limit. -/
def blockScale (i8 : Bool) (l : List FVal) : Nat :=
  ue8m8Ceil ((l.map magUnits).foldl Nat.max 0) (quantLim i8 * 2 ^ 149)

/-- A finite value divided by a scale, rounded once to the element format; +0 for the scale 0. -/
def quantFinite (i8 : Bool) (scale : Nat) (x : FVal) : Nat :=
  if scale = 0 then 0
  else if !i8 then NumFmt.e4m3.divRound .rne x (ue8m8Value scale)
  else
    match x, ue8m8Value scale with
    | .fin s m e, .fin _ k g =>
      let num := if g ≤ e then m * 2 ^ (e - g).toNat else m
      let den := if g ≤ e then k else k * 2 ^ (g - e).toNat
      wrapInt 8 (if s then -(quotRne num den : Int) else quotRne num den)
    | _, _ => 0

/-- An element quantised by VQNT (R158). -/
def quantElem (i8 : Bool) (scale : Nat) : FVal → Nat
  | .nan => if i8 then 0 else 0x7F
  | .inf false => if i8 then 0x7F else 0x7E
  | .inf true => if i8 then 0x81 else 0xFE
  | .fin s m e => quantFinite i8 scale (.fin s m e)

/-- Consecutive groups of `n` elements. -/
def chunks {α : Type} (n : Nat) : Nat → List α → List (List α)
  | 0, _ => []
  | k + 1, l => if l.isEmpty then [] else l.take n :: chunks n k (l.drop n)

/-- The blocks of 32 elements of a list. -/
def blocks32 {α : Type} (l : List α) : List (List α) := chunks 32 (l.length / 32 + 1) l

/-- Scales and quantised elements of a list of elements, by blocks of 32 (R158). -/
def quantAll (i8 : Bool) (l : List FVal) : List Nat × List Nat :=
  let bs := blocks32 l
  (bs.map (blockScale i8), bs.flatMap fun b => b.map (quantElem i8 (blockScale i8 b)))

end Sys2Proof
end

