-- ==== Sys2Proof/Config.lean ====
section
/-! DEFINITION. The fixed numbers of the spec (cause codes, sizes) and the free values: opaque constants
without a body, of which nothing can be proved (R429; log 3, log 8, log 10, log 11, log 13, log 14). -/

namespace Sys2Proof

namespace Cause
/-! Cause codes (R429). -/
abbrev illegalOpcode : Nat := 0x001
abbrev illegalOperand : Nat := 0x002
abbrev reservedField : Nat := 0x003
abbrev engineMismatch : Nat := 0x004
abbrev badPrefix : Nat := 0x005
abbrev literalPosition : Nat := 0x006
abbrev privileged : Nat := 0x007
abbrev convertOverflow : Nat := 0x010
abbrev shapeInvalid : Nat := 0x020
abbrev weightMalformed : Nat := 0x030
abbrev matrixState : Nat := 0x031
abbrev software : Nat := 0x0C0
abbrev notPresent : Nat := 0x100
abbrev writeProtect : Nat := 0x101
abbrev copyOnWrite : Nat := 0x102
abbrev misaligned : Nat := 0x103
abbrev windowViolation : Nat := 0x104
abbrev execProtect : Nat := 0x105
abbrev profRequired : Nat := 0x106
abbrev readProtect : Nat := 0x107
abbrev uncorrectable : Nat := 0x110
abbrev poisonConsumed : Nat := 0x111
abbrev taskMalformed : Nat := 0x200
abbrev boxMalformed : Nat := 0x201
abbrev regionUndefined : Nat := 0x202
abbrev aliasConflict : Nat := 0x203
abbrev detEscape : Nat := 0x204
abbrev predStale : Nat := 0x205
abbrev budgetExceeded : Nat := 0x206
abbrev gangMalformed : Nat := 0x207
abbrev rcbInvalid : Nat := 0x208
abbrev regionBusy : Nat := 0x209
abbrev twaitCycle : Nat := 0x20A
abbrev ringError : Nat := 0x300
abbrev ringMalformed : Nat := 0x301
abbrev handleState : Nat := 0x302
abbrev syncOverflow : Nat := 0x303
abbrev barrierUnderflow : Nat := 0x304
abbrev syncState : Nat := 0x305
abbrev chainRecord : Nat := 0x310
abbrev xboxMalformed : Nat := 0x311
abbrev sideOverflow : Nat := 0x312
abbrev decompressError : Nat := 0x313
abbrev checksumMismatch : Nat := 0x314
abbrev linkDown : Nat := 0x380
abbrev orphaned : Nat := 0x381
abbrev tokenStalled : Nat := 0x382
abbrev remoteFault : Nat := 0x383
abbrev messageSize : Nat := 0x384
abbrev routeInvalid : Nat := 0x385
abbrev rmcrMismatch : Nat := 0x386
abbrev nvmeError : Nat := 0x390
abbrev halted : Nat := 0x3F1
abbrev machineCheck : Nat := 0x3FF
end Cause

namespace Config

/-- The end of HBM in the device physical map: 384 GiB (R271). -/
abbrev hbmEnd : Nat := 0x6000000000
/-- The on-chip range and the sync space range (R240, R407). -/
abbrev chipBase : Nat := 0x800000000000
abbrev chipEnd : Nat := 0x810000000000
abbrev syncBase : Nat := 0x900000000000
abbrev syncEnd : Nat := 0x900800000000
abbrev cores : Nat := 1536
abbrev groves : Nat := 96

/-- Cycles that pass beyond the first in a step (log 11): a free value of the fresh counter. -/
opaque freeStall : Nat → Nat
/-- How far the cycle counter of a glade is ahead, below 5 (R104), and the device timer of a core, below 2
(R425): taken modulo the bound. -/
opaque cycleSkew : Nat → Nat
opaque timerSkew : Nat → Nat
/-- The device id and the revision word of PF0 (R1, R449; log 8). -/
opaque deviceId : BitVec 21
opaque revision : BitVec 32
opaque serial : BitVec 128
/-- The FP32 code that a special function of R147 returns for an FP32 argument (log 10), by function number
and argument code. The model takes it where it lies within the bound, else the rounded exact value. -/
opaque approx : Nat → Nat → Nat
/-- Whether a 32-byte sector compresses into 8 bytes, into 16 bytes (R282; log 15). -/
opaque fits8 : List Byte → Bool
opaque fits16 : List Byte → Bool
/-- Where the device begins to look for an unused message number or receive number (R378, R380; log 12). -/
opaque freeNumber : Nat → Nat

/-- Which of the walks of a glade ends first (R279; log 17), by `State.fresh`. -/
opaque walkEnds : Nat → Nat
/-- Which overflow the rotation array reaches first (R223; log 61), by `State.fresh`. -/
opaque overflowFirst : Nat → Nat
/-- Which metadata lines stay in a base die's cache when others are read (R283; log 58): a free value of the step and the
line. -/
opaque metaKeeps : Nat → Nat → Bool
/-- Whether the root complex completes an atomic to host memory successfully (R421; log 54), by `State.fresh`. -/
opaque hostCompletes : Nat → Bool

/-- The contents of the opaque blocks of a context image (R439; log 13), and the context that such an
image stands for. -/
opaque freeByte : Nat → Byte
/-- The ROM digest, the signatures and the checks of trusted start (R455 to R458; log 14). -/
opaque romDigest : BitVec 384
opaque keysFused : List Byte → Bool
opaque rsaValid : List Byte → Bool
opaque slhValid : List Byte → Bool
opaque versionOk : List Byte → Bool
/-- Where the configuration block lies in a firmware image, as offset and length (R456, R457). -/
opaque configBlock : List Byte → Nat × Nat
/-- Where the root image lies in the configuration block (R457). -/
opaque rootOffset : List Byte → Nat
opaque firmwareRevision : List Byte → BitVec 32
opaque debugDisabled : Bool
opaque rsaSign : List Byte → List Byte
opaque slhSign : List Byte → List Byte
/-- AES-256-GCM (R365, R366): key, salt, counter, additional data, payload; sealing gives ciphertext and
tag, opening gives the payload when the tag agrees. -/
opaque gcmSeal : BitVec 256 → BitVec 32 → BitVec 64 → List Byte → List Byte → List Byte
opaque gcmOpen : BitVec 256 → BitVec 32 → List Byte → List Byte → Option (List Byte)
/-- The payloads of the flits that carry a message, and the credits that a flit returns (R365; log 19). -/
opaque payloads : OutMsg → List (List Byte)
opaque freeCredits : Nat → Nat
/-- Which of a glade's two links the device chooses for a target (R365). -/
opaque linkHash : Nat → Nat
/-- Power and temperature of each glade as I3C returns them (R459). -/
opaque sensors : Nat → List Byte
end Config

end Sys2Proof
end

