-- ==== Sys2Proof/Machine/Tab.lean ====
section
/-! DEFINITION. Reading and writing tables: one set of operations for registers, memories and device
tables. `Tab.set` keeps the canonical form that `Tab.wf` states; `Tab.put` keeps the keys rising. -/

namespace Sys2Proof

/-- The value of key `k`: the first entry listed for it, or the default. -/
def Tab.get {α : Type} (dflt : α) : Tab α → Nat → α
  | [], _ => dflt
  | (j, v) :: t, k => if j = k then v else Tab.get dflt t k

/-- Whether key `k` is listed. -/
def Tab.has {α : Type} : Tab α → Nat → Bool
  | [], _ => false
  | (j, _) :: t, k => j == k || Tab.has t k

/-- The entry listed for key `k`, if any. -/
def Tab.find {α : Type} : Tab α → Nat → Option α
  | [], _ => none
  | (j, v) :: t, k => if j = k then some v else Tab.find t k

/-- The table without key `k`. -/
def Tab.del {α : Type} : Tab α → Nat → Tab α
  | [], _ => []
  | (j, v) :: t, k => if j = k then Tab.del t k else (j, v) :: Tab.del t k

/-- The table with key `k` listed at `v`, the keys kept rising. -/
def Tab.put {α : Type} : Tab α → Nat → α → Tab α
  | [], k, v => [(k, v)]
  | (j, w) :: t, k, v =>
    if k < j then (k, v) :: (j, w) :: t
    else if k = j then (k, v) :: t
    else (j, w) :: Tab.put t k v

/-- The table with `v` at key `k`; writing the default takes the entry out, so that equal contents
are equal lists. -/
def Tab.set {α : Type} [DecidableEq α] (dflt : α) (t : Tab α) (k : Nat) (v : α) : Tab α :=
  if v = dflt then Tab.del t k else Tab.put t k v

/-- The canonical form: keys strictly rising from `lo` on, and no entry equal to the default. -/
def Tab.wfFrom {α : Type} [DecidableEq α] (dflt : α) : Nat → Tab α → Bool
  | _, [] => true
  | lo, (k, v) :: t => decide (lo ≤ k) && decide (v ≠ dflt) && Tab.wfFrom dflt (k + 1) t

/-- The canonical form of a table (see `Tab.wfFrom`). -/
def Tab.wf {α : Type} [DecidableEq α] (dflt : α) (t : Tab α) : Bool := Tab.wfFrom dflt 0 t

/-- The keys of a table, rising. -/
def Tab.keys {α : Type} (t : Tab α) : List Nat := t.map (·.1)

/-- Keep the entries whose key satisfies `p`. -/
def Tab.keep {α : Type} (p : Nat → Bool) (t : Tab α) : Tab α := t.filter fun e => p e.1

/-- Put every entry at the key that `f` gives. -/
def Tab.rekey {α : Type} (f : Nat → Nat) (t : Tab α) : Tab α := t.foldl (fun u e => Tab.put u (f e.1) e.2) []

/-- Apply `f` to the value of each listed key. -/
def Tab.mapVals {α β : Type} (f : Nat → α → β) (t : Tab α) : Tab β := t.map fun e => (e.1, f e.1 e.2)

end Sys2Proof
end

