-- ==== Sys2Proof/Machine/CoreState.lean ====
section
/-! DEFINITION. The state of a core: sequencers, vector, matrix and rotation registers, token queues
and the private units (R9, R95, R127, R169, R210, R239, R345, R392). Plain data throughout. -/

namespace Sys2Proof.Machine

/-- An instruction stream: a sequencer of a core, and in V one of its pipes (R9, R13). `core` is
glade · 192 + grove · 16 + core. -/
structure Stream where
  core : Nat
  seq : SeqKind
  sub : Sub
deriving DecidableEq, Repr

/-- The window entry of the task that an engine runs (R33: its home grove). -/
structure TaskRef where
  grove : Nat
  slot : Nat
deriving DecidableEq, Repr

/-- A trap that is delivered at a later instruction boundary (R430): with the remaining count of a pair that its
instruction belonged to, and the place of that instruction in program order, as the step at which it issued (R341). -/
structure DefTrap where
  cause : Nat
  tpc : Word
  tval : Word
  sec : Nat
  src : Nat
  deferred : Bool
  trep : Nat
  order : Nat
deriving DecidableEq, Repr

/-- An XFORM whose line commands have not all completed (R260), or, with no command left, the result of a POST or an XBOX
that waits for room in a token queue (R101). -/
structure XformJob where
  id : Nat
  dst : Dst
  pc : Word
  order : Nat
  op : XformOp
  left : Nat
  crc : Word
  poison : Option Word
  /-- the token queues whose head entries it takes: they stay there until it can no longer trap (R102) -/
  pops : List Nat
deriving DecidableEq, Repr

/-- Where a multi-step instruction of a stream stands between its steps. -/
inductive Busy where
  /-- nothing in progress -/
  | none
  /-- a POST whose record waits for acceptance or for the end of its check (R326, R333) -/
  | post
  /-- an XBOX whose command is in the transpose unit (R269); the token queue whose head entry it takes when it ends without a
  trap (R102) -/
  | xbox (pop : Option Nat)
  /-- a POST or an XBOX whose result waits for room in token queue `n` (R101) -/
  | push (n : Nat)
  /-- a CTXSW that waits for the incoming context (R445) -/
  | ctxsw
deriving DecidableEq, Repr, Inhabited

/-- The state of one sequencer (R95, R98, R103, R428). -/
structure Seq where
  /-- x0 to x47 (R96) -/
  x : Tab Word
  pc : Word
  /-- z0 to z7 (R103) -/
  z : Tab Word
  targ : Word
  trcb : Nat
  tkind : Nat
  gangn : Nat
  slip : Nat
  detm : Bool
  tpc : Word
  tcause : Word
  tval : Word
  trep : Nat
  tscr : Word
  /-- remaining repeat count: repeats of the pair at pc still to run (R82, R84) -/
  rem : Nat
  /-- handler-active flag, with the hrcb and the cause kept with it (R428, R432) -/
  handler : Bool
  hrcb : Nat
  hcause : Nat
  /-- halted by HALT; stopped by a fence (R433, R442) -/
  halted : Bool
  fenced : Bool
  /-- the task held, and whether it has executed TEND and stays reserved to its gang (R20, R24) -/
  task : Option TaskRef
  ended : Bool
  deferred : List DefTrap
  /-- the post sequence that a blocked TWAIT waits for, its grove, and whether that task has been removed (R338) -/
  twait : Option (Nat × Nat × Bool)
  /-- the block that an RCBLD.term in issue terminates, and the window entries that it has removed (R446) -/
  terming : Option (Nat × Nat)
  /-- the grove and the region of a blocked REGDROP (R343) -/
  dropping : Option (Nat × Nat)
  /-- the last attempt of the instruction at pc blocked (R76) -/
  waiting : Bool
  /-- device timer when a YIELD began to wait, with the ns that it waits (R443), and when a blocked WAITA was evaluated last
  (R257) -/
  yieldAt : Option (Word × Nat)
  waitAt : Option Word
  busy : Busy
  /-- the address of a CTXSW whose exchange has been made, and which is still to complete (R445) -/
  switched : Option Word
  /-- the address of a BARX whose update has been made in a cycle with others, and the pending count after it (R415) -/
  barRead : Option (Word × Nat)
  /-- the model's own (log 37): the number of the fence for whose handling the sequencer runs a domain handler (R433) -/
  taker : Option Nat
  /-- where a YIELD has stopped the sequencer for a pre-emption request (R443) -/
  yieldedAt : Option Word
  xforms : List XformJob
deriving DecidableEq, Repr, Inhabited

/-- An idle sequencer (R12, R439). -/
def Seq.idle : Seq :=
  { x := [], pc := 0, z := [], targ := 0, trcb := 0, tkind := 0, gangn := 0, slip := 0, detm := false,
    tpc := 0, tcause := 0, tval := 0, trep := 0, tscr := 0, rem := 0, handler := false, hrcb := 0,
    hcause := 0, halted := false, fenced := false, task := none, ended := false, deferred := [],
    twait := none, terming := none, dropping := none, waiting := false, yieldAt := none, waitAt := none, busy := .none, switched := none, barRead := none, taker := none, yieldedAt := none, xforms := [] }

/-- A sequencer whose instruction no longer blocks: what blocking has kept is forgotten (R76, R257, R338, R343, R443). An
RCBLD.term in issue keeps its mark until it completes: its blocks are terminating (R446). -/
def Seq.unblock (q : Seq) : Seq :=
  { q with waiting := false, yieldAt := none, waitAt := none, twait := none, dropping := none }

/-- One word of a sub-queue, or one repeat of a pair: a decoded word with its captured operands, or
the decode check that it fails at the head (R14, R80). -/
inductive VItem where
  | word (i : Instr)
  | bad (cause : Nat) (tval : Word)
deriving DecidableEq, Repr

/-- A word (or a pair, as one word, R82) in a sub-queue: its address, its repeats, how many of them
are complete, and its position in program order (R431). -/
structure VEntry where
  pc : Word
  items : List VItem
  complete : Nat
  pair : Bool
  order : Nat
deriving DecidableEq, Repr

/-- A fault that has stopped a sub-queue and is not yet delivered (R18, R431). -/
structure VFault where
  cause : Nat
  tpc : Word
  tval : Word
  trep : Nat
  order : Nat
deriving DecidableEq, Repr

/-- A vector sub-queue (R13 to R18). -/
structure SubQ where
  words : List VEntry
  stopped : Bool
  fault : Option VFault
deriving DecidableEq, Repr, Inhabited

def SubQ.empty : SubQ := { words := [], stopped := false, fault := none }

/-- A stationary weight bank (R177). -/
structure WBank where
  data : Tile
  scales : BitVec 2048
  book : BitVec 256
  fmt : Nat
  scaled : Bool
  loaded : Bool
deriving DecidableEq, Repr, Inhabited

def WBank.empty : WBank := { data := 0, scales := 0, book := 0, fmt := 0, scaled := false, loaded := false }

/-- What M knows of a bank in program order (R183, R200). -/
structure WTag where
  fmt : Nat
  scaled : Bool
  loaded : Bool
deriving DecidableEq, Repr, Inhabited

def WTag.empty : WTag := { fmt := 0, scaled := false, loaded := false }

/-- A tile step in the array (R173, R181): its A tile with a scale code for each element, the weights that its
rows multiply by, and the next row to commit. -/
structure TileStep where
  aFmt : Nat
  aData : List Nat
  aScales : List Nat
  aScaled : Bool
  bank : WBank
  mode : AccMode
  zero : Bool
  /-- the bank that its tile is read from and the bank that it is written to (R191) -/
  rd : Nat
  wr : Nat
  /-- the named bank, and the tile -/
  acc : Nat
  tile : Nat
  row : Nat
  /-- the nest that it belongs to -/
  nest : Option Nat
deriving DecidableEq, Repr

/-- Where an operation that outlives its instruction comes from: its address, and its place in program order (R341). -/
structure Origin where
  pc : Word
  order : Nat
deriving DecidableEq, Repr, Inhabited

/-- An operation in the array's input queue (R183). `shadow` is the bank that its accumulator bank is
redirected to, by the pairing in place when it issued (R191). -/
inductive MxOp where
  /-- an MMA that has issued and has not entered -/
  | mma (stream : BitVec 512) (ti tj : Nat) (mode : AccMode) (zero : Bool) (acc : Nat) (shadow : Option Nat)
      (tile : Nat) (pc : Origin)
  /-- a tile step whose rows are being committed -/
  | step (t : TileStep)
  /-- a weight load -/
  | load (bank : Nat) (stream : BitVec 512) (ti tj : Nat) (pc : Origin)
  /-- a bank switch -/
  | sel (bank : Nat)
  /-- an MZERO: tiles from `tile` up to `last`, and the next row of the bank -/
  | zero (acc : Nat) (shadow : Option Nat) (tile last row : Nat)
deriving DecidableEq, Repr

/-- An active nest (R169, R185, R198). -/
structure Nest where
  table : BitVec 512
  sa : BitVec 512
  sb : BitVec 512
  step : Nat
  id : Nat
  pc : Origin
  /-- the shadow of its accumulator bank when MGO issued (R190, R191) -/
  shadow : Option Nat
  /-- a loaded or delivered B tile whose step has not entered (R185, R208) -/
  next : Option WBank
  /-- B tile of the previous step, once there was one -/
  last : Option (Int × Int)
  /-- a broadcast delivery that this nest has requested and not received (R193) -/
  wants : Bool
  /-- the cause of a fault of its next step, reported once every step before it is complete (R188) -/
  fault : Option Nat := none
deriving DecidableEq, Repr

/-- A shadow pairing (R191). -/
structure Pairing where
  shadow : Nat
  base : Nat
  touched : BitVec 16
deriving DecidableEq, Repr

/-- The matrix state of a core (R169). -/
structure Matrix where
  s : Tab (BitVec 512)
  table : BitVec 512
  nest : Option Nest
  w0 : WBank
  w1 : WBank
  cur : Nat
  /-- select and bank tags in M's program order (R183) -/
  selP : Nat
  tag0 : WTag
  tag1 : WTag
  queue : List MxOp
  /-- operations issued while a nest has steps left: they follow its last step (R202) -/
  behind : List MxOp
  /-- accumulator rows: row r of bank b is key 512b + r (R172) -/
  acc : Tab (BitVec 1024)
  pairs : List Pairing
  /-- broadcast group and its delivery count at the join (R193, R208) -/
  group : Option (Nat × Nat)
  /-- steps committed by the most recent nest, and its number -/
  steps : Word
  nestId : Nat
  /-- an MCOMMIT in progress: its base bank, and the next tile to copy (R205) -/
  commit : Option (Nat × Nat)
  /-- faults not yet delivered, in program order (R188, R201) -/
  fault : List DefTrap
deriving DecidableEq, Repr, Inhabited

def Matrix.init : Matrix :=
  { s := [], table := 0, nest := none, w0 := .empty, w1 := .empty, cur := 0, selP := 0, tag0 := .empty,
    tag1 := .empty, queue := [], behind := [], acc := [], pairs := [], group := none, steps := 0, nestId := 0, commit := none,
    fault := [] }

/-- A rotation row: mantissas of columns 0 to 23, unlisted ones 0, and an exponent (R56, R210). -/
structure RRow where
  m : Tab Int
  e : Int
deriving DecidableEq, Repr, Inhabited

/-- The zero row (R56). -/
def RRow.zero : RRow := { m := [], e := -32768 }

/-- An operation in the rotation array (R221). -/
inductive QOp where
  /-- a pass of a row through a pair, with n and m of its entry -/
  | pass (row : RRow) (t n m : Nat) (pc : Origin)
  | apl (upper lower : RRow) (code : Nat) (n m : Nat) (pc : Origin)
  /-- a QVEC or QROT with its result and destination -/
  | scalar (d : Dst) (v : Word)
deriving DecidableEq, Repr

/-- The rotation state of a core (R210). Row j of tri t and aug t is key 16t + j of `rows`. -/
structure Rot where
  rows : Tab RRow
  ang : Tab Nat
  o0 : RRow
  o1 : RRow
  qcf : BitVec 9
  passes : BitVec 32
  fault : Option DefTrap
  ops : List QOp
deriving DecidableEq, Repr, Inhabited

/-- The task-start rotation state (R211). -/
def Rot.init : Rot :=
  { rows := [], ang := [], o0 := .zero, o1 := .zero, qcf := 0x00F, passes := 0, fault := none, ops := [] }

/-- The register context that pre-emption exchanges with the understory (R438, R439). -/
structure Context where
  k : Seq
  vseq : Seq
  mseq : Seq
  qseq : Seq
  /-- token queues (R100) -/
  tq : Tab (List Word)
  v : Tab Tile
  p : Tab Pred
  vsh : BitVec 32
  vkey : Word
  vbase : Word
  vgstr : Word
  /-- vector queue registers (R137) -/
  vq : Tab (List Tile)
  /-- held registers and their remaining lives (R133) -/
  obuf : List (Nat × Nat)
  vl : SubQ
  va : SubQ
  vs : SubQ
  /-- words split since the task started, numbering program order (R431) -/
  splits : Nat
  split : Option Word
  /-- the scalar pipe's remaining count at the split point (R84) -/
  splitRem : Nat
  /-- repeats of a pair that the splitter has captured so far, by the pair's address (R72, R82) -/
  captured : Tab (List VItem)
  mx : Matrix
  rot : Rot
deriving DecidableEq, Repr, Inhabited

/-- The idle context (R439). -/
def Context.idle : Context :=
  { k := .idle, vseq := .idle, mseq := .idle, qseq := .idle, tq := [], v := [], p := [],
    vsh := 0x00007CF0, vkey := 0, vbase := 0, vgstr := 0, vq := [], obuf := [], vl := .empty, va := .empty,
    vs := .empty, splits := 0, split := none, splitRem := 0, captured := [], mx := .init, rot := .init }

/-- The context of an image whose opaque blocks no CTXSW.out of this device wrote: undefined (R439; log 13). -/
opaque Config.freeContext : Nat → Context

/-- A codebook (R397). -/
structure Codebook where
  vals : BitVec 256
  loaded : Bool
deriving DecidableEq, Repr

/-- A command of a transform unit on one line (R252, R258): the line by its device physical address and by
the program's address, and how many lines of the XFORM follow it. -/
structure LineCmd where
  by_ : Stream
  job : Nat
  op : XformOp
  etype : Nat
  const : Nat
  addr : Nat
  prog : Nat
  after : Nat
  rcb : Nat
deriving DecidableEq, Repr

/-- Who issued work to a unit: a stream, or a task of kind X or C (R34, R269, R360). -/
inductive Issuer where
  | stream (s : Stream)
  | task (t : TaskRef)
deriving DecidableEq, Repr

/-- A command of the transpose unit (R266, R267): its descriptor's address, the descriptor once it is read,
the next tile, the bytes so far; whose it is, and for an XBOX its destination, its address and the repeats of a
pair that were still to run. -/
structure XposeCmd where
  by_ : Issuer
  owner : Option TaskRef
  rcb : Nat
  det : Bool
  desc : Word
  image : Option (BitVec 1024)
  tile : Nat
  /-- the writes of the tile that is being moved: its reads are done (R267) -/
  left : Option (List (Word × List Byte))
  total : Nat
  dst : Dst
  pc : Word
  rem : Nat
deriving DecidableEq, Repr

end Sys2Proof.Machine
end

