-- ==== Sys2Proof/Machine/DeviceState.lean ====
section
/-! DEFINITION. The state outside the sequencers: the private units of a core, the canopy of a grove,
the tables of a glade and of the device (R270, R312, R345, R364, R392, R406, R428, R447). Plain data. -/

namespace Sys2Proof.Machine

/-- Where a channel stands in a transfer record (R355): it writes payload, writes back, changes the handle, subtracts from
the barrier, writes the flag, re-reads next; or it fails: the write-back, the flag, and the status after a rejected flag. -/
inductive RecStage where
  | payload | back | handle | barrier | flag | next | failBack | failFlag | flagBack
deriving DecidableEq, Repr

/-- A transfer record in progress (R355): the record, the pieces that are still to be written (address, bytes, and how
many bytes count one in the status), the count so far, the checksum of the output, and the cause of a failure. -/
structure RecWork where
  desc : BitVec 1024
  stage : RecStage
  pieces : List (Word × List Byte × Nat)
  count : Nat
  crc : Word
  cause : Nat
deriving DecidableEq, Repr

/-- A copy channel (R345, R360). -/
structure Channel where
  /-- the record that the channel is at work on (R355) -/
  work : Option RecWork
  busy : Bool
  err : Bool
  cause : Nat
  /-- the record in progress or the last one reached, and the record that the walk takes next -/
  recAddr : Word
  next : Word
  by_ : Option Issuer
  /-- the task whose work the walk is, for R329 -/
  owner : Option TaskRef
  rcb : Nat
  det : Bool
deriving DecidableEq, Repr

def Channel.idle : Channel :=
  { work := none, busy := false, err := false, cause := 0, recAddr := 0, next := 0, by_ := none, owner := none, rcb := 0, det := false }

/-- A core: the resident context, the understory, and what pre-emption leaves in place (R438). -/
structure Core where
  ctx : Context
  under : Context
  ring : Tab (BitVec 512)
  handles : Tab Word
  books : Tab Codebook
  chans : Tab Channel
  xpose : Option XposeCmd
  /-- line commands placed in the banks, oldest first (R248, R260) -/
  lines : List LineCmd
  /-- the pending remote fault of each sequencer, by its code, with the task whose operation failed (R364, R371) -/
  remote : Tab (TaskRef × DefTrap)
deriving DecidableEq, Repr

def Core.reset : Core :=
  { ctx := .idle, under := .idle, ring := [], handles := [], books := [], chans := [], xpose := none,
    lines := [], remote := [] }

/-- The states of a window entry (R327); `checking` is a live entry in the 8-cycle check (R333). -/
inductive EState where
  | checking | waiting | early | ready | issued | retiring
deriving DecidableEq, Repr

/-- Who posted an entry (R325, R336, R337, R453). -/
inductive Poster where
  /-- a POST: its stream and task, `.nb`, its operands, its address and length -/
  | stream (s : Stream) (task : Option TaskRef) (nb : Bool) (d : Dst) (a : Src) (pc : Word)
  | remote (device op : Nat)
  | host (tenant ring index : Nat)
deriving DecidableEq, Repr

/-- A post that waits for acceptance (R326). -/
structure PostReq where
  record : BitVec 2560
  addr : Word
  poster : Poster
deriving DecidableEq, Repr

/-- A window entry (R312, R327). -/
structure Entry where
  record : BitVec 2560
  addr : Word
  poster : Poster
  state : EState
  postSeq : Nat
  /-- the version each box is bound to (R323) -/
  binds : List Nat
  edges : BitVec 256
  anc : BitVec 256
  hint : Bool
  early : Bool
  /-- first member's slot of its gang, when it belongs to one (R21) -/
  gang : Option Nat
  /-- the engine that runs it: core, engine number (0 K, 1 V, 2 M, 3 Q, 4 transpose unit, 5 to 8 channels),
  and how it came there: 0 own grove, 1 other grove of the glade, 2 other glade (R104) -/
  engine : Option (Nat × Nat)
  stolen : Nat
  ended : Bool
deriving DecidableEq, Repr

/-- A gang that is still open: the task that posts it and its members' slots, oldest first (R21, R22). -/
structure OpenGang where
  by_ : TaskRef
  members : List Nat
deriving DecidableEq, Repr

/-- A region-table entry (R393). -/
structure Region where
  desc : BitVec 512
  tenant : Nat
  rcb : Nat
  current : Nat
deriving DecidableEq, Repr

/-- A translation-cache entry (R278): tenant, page base, page size as a power of two, page entry. -/
structure TlbEntry where
  tenant : Nat
  base : Nat
  lg : Nat
  pte : Word
deriving DecidableEq, Repr

/-- What waits for its turn on the context of a grove: a pre-emption by a CTXSW or by the host, and a CTXSW.out or
CTXSW.in (R437, R445, R451). -/
inductive PreBy where
  | ctxsw (s : Stream) (task : Option TaskRef)
  | copy (s : Stream)
  | host
deriving DecidableEq, Repr

/-- A grove: the canopy and what the grove shares (R312, R278, R193). -/
structure Grove where
  window : Tab Entry
  waiting : List PostReq
  /-- while local and remote posts wait together: whether the last one accepted was remote (R326) -/
  turn : Option Bool
  checks : List Nat
  gangs : List OpenGang
  postSeq : Nat
  regions : Tab Region
  lseed : BitVec 32
  drawSeed : BitVec 32
  drawClass : Nat
  stopped : Bool
  /-- edges to resolve: the slot that retired or was removed, and the entries that waited for it (R327) -/
  resolves : List (Nat × List Nat)
  /-- pre-emption requests in order of arrival, and whether the grove has halted (R437) -/
  pre : List PreBy
  preHalted : Bool
  groups : Tab Nat
  /-- those of the groups of the understory (R194) -/
  underGroups : Tab Nat
deriving DecidableEq, Repr

def Grove.reset : Grove :=
  { window := [], waiting := [], turn := none, checks := [], gangs := [], postSeq := 0, regions := [], lseed := 1,
    drawSeed := 0, drawClass := 0, stopped := false, resolves := [], pre := [],
    preHalted := false, groups := [], underGroups := [] }

/-- Whether a request is one for pre-emption. -/
def PreBy.preempts : PreBy → Bool
  | .copy _ => false
  | _ => true

/-- Whether the pre-emption of a grove has been requested (R437). -/
def Grove.preempting (g : Grove) : Bool := g.pre.any PreBy.preempts

/-- Who makes an access: a core, the source code of R434, and the stream, when it is one (R248). -/
structure Who where
  core : Nat
  source : Nat
  by_ : Option Stream
deriving DecidableEq, Repr

/-- A miss-table entry: tenant, page address, the groves that wait and the accesses that are attached, each with the 64 KiB
page of its own address (R278, R279). -/
structure Miss where
  tenant : Nat
  va : Nat
  groves : List Nat
  who : List (Who × Nat)
deriving DecidableEq, Repr

/-- The result of a walk: the cause of its fault, or the page size as a power of two and the page entry (R279). -/
inductive WalkResult where
  | fault (cause : Nat)
  | entry (lg : Nat) (pte : Word)
deriving DecidableEq, Repr

/-- The result that an access attached to a walk has received and not used (R279). -/
structure WalkAnswer where
  who : Who
  tenant : Nat
  va : Nat
  result : WalkResult
deriving DecidableEq, Repr

/-- What accesses leave behind also when their instruction traps or blocks: the translation caches by grove, the miss
tables by glade with the misses that wait for a place (R270, R278, R279), the metadata lines by glade (R283), and the
counters of misses, walks and DRAM bytes; and the counters of corrected errors, which a trap leaves too (R249, R426). -/
structure MemSys where
  tlbs : Tab (List TlbEntry)
  /-- at most 256 entries for a glade, of which the first 64 have walkers -/
  misses : Tab (List Miss)
  /-- misses that wait for a place in a full table, in order of arrival -/
  queued : Tab (List Miss)
  answers : List WalkAnswer
  /-- metadata lines of a glade's stack, by address / 4096, that the base die's cache holds -/
  metas : Tab (List Nat)
  counts : Tab Word
  /-- counter 0x10 by core: an instruction that blocks has not begun and counts nothing there (R76) -/
  fixed : Tab Word
deriving DecidableEq, Repr

def MemSys.reset : MemSys := { tlbs := [], misses := [], queued := [], answers := [], metas := [], counts := [], fixed := [] }

/-- A glade: the sync engine (R406, R408). -/
structure Glade where
  /-- bytes of sync space by offset (R407) -/
  sync : Tab Byte
  /-- barrier marks by line number (R483) -/
  marks : Tab Bool
  ovBase : Word
  ovSize : Word
  /-- backed lines held in SRAM (R408) -/
  cached : List Nat
deriving DecidableEq, Repr

def Glade.reset : Glade :=
  { sync := [], marks := [], ovBase := 0, ovSize := 0, cached := [] }

/-- An active-cache entry (R26, R400): the block, its effective values, its depth and its use. -/
structure Rcb where
  /-- the block as it was loaded (R399, R400) -/
  block : BitVec 512
  parent : Nat
  ovmask : BitVec 16
  tenant : Nat
  job : Bool
  fkey : BitVec 32
  depth : Nat
  /-- effective values -/
  window : Nat
  cores : Nat
  hbm : Nat
  fabric : Nat
  cls : Nat
  tickets : Nat
  fdomain : Bool
  vector : Word
  det : Bool
  terminating : Bool
  /-- window entries that its termination has removed (R446) -/
  removed : Nat
  fence : Bool
  /-- the model's own (log 37): the number of the fence that stopped it last (R433) -/
  fenceNo : Nat := 0
  /-- window entries used, per grove; HBM units; fabric operations outstanding (R28) -/
  useWindow : Tab Nat
  useHbm : Nat
  useFabric : Nat
  /-- job count word of a job-level block (R36) -/
  jobCount : BitVec 32
  jobFlag : Bool
deriving DecidableEq, Repr

/-- Registers of a tenant (R404, R408, R449, R450, R454). -/
structure Tenant where
  ptroot : Word
  ocwLo : Tab Word
  ocwHi : Tab Word
  hbwLo : Tab Word
  hbwHi : Tab Word
  /-- first and last line of the sync window, per glade -/
  syncLo : Tab Word
  syncHi : Tab Word
  vecBase : Word
  vecCount : Word
  busy : Bool
deriving DecidableEq, Repr

def Tenant.reset : Tenant :=
  { ptroot := 0, ocwLo := [], ocwHi := [], hbwLo := [], hbwHi := [], syncLo := [], syncHi := [],
    vecBase := 0, vecCount := 0, busy := false }

/-- A host command ring of a tenant page (R452). -/
structure CmdRing where
  cqbase : Word
  cqsize : Word
  cplbase : Word
  cqtail : Nat
  cqhead : Nat
  cplhead : Nat
  cpltail : Nat
deriving DecidableEq, Repr

def CmdRing.reset : CmdRing :=
  { cqbase := 0, cqsize := 0, cplbase := 0, cqtail := 0, cqhead := 0, cplhead := 0, cpltail := 0 }

/-- A tenant page (R452). -/
structure TenantPage where
  rings : Tab CmdRing
  /-- the ring served last (R453) -/
  lastRing : Nat
  eqbase : Word
  eqsize : Word
  eqhead : Nat
  eqtail : Nat
  eqlost : Nat
deriving DecidableEq, Repr

def TenantPage.reset : TenantPage :=
  { rings := [], lastRing := 3, eqbase := 0, eqsize := 0, eqhead := 0, eqtail := 0, eqlost := 0 }

/-- A payload that waits to be sealed: its class, its bytes, and the chain forward that it carries (R365, R375). -/
structure Payload where
  cls : Nat
  bytes : List Byte
  fwd : Option RemoteAccess
deriving DecidableEq, Repr

/-- A sealed flit in a replay buffer (R366). -/
structure Sealed where
  seq : Nat
  slot : Nat
  bytes : List Byte
  fwd : Option RemoteAccess
deriving DecidableEq, Repr

/-- A key slot (R368, R451); `key` and `salt` with `written` are what management last wrote. -/
structure KeySlot where
  key : BitVec 256
  salt : BitVec 32
  counter : BitVec 64
  state : Nat
  refused : Bool
  wKey : BitVec 256
  wSalt : BitVec 32
  /-- a key has been installed -/
  installed : Bool
deriving DecidableEq, Repr

def KeySlot.reset : KeySlot :=
  { key := 0, salt := 0, counter := 0, state := 0, refused := false, wKey := 0, wSalt := 0, installed := false }

/-- A link (R364 to R367). -/
structure Link where
  up : Bool
  replay : List Sealed
  /-- payloads that wait for a current key slot or for room in the replay buffer -/
  queue : List Payload
  nextSeq : Nat
  expect : Nat
  /-- consecutive replays without progress -/
  replays : Nat
  /-- device timer when the oldest unacknowledged flit was last sent, and at the last acknowledgement (R366, R367) -/
  sentAt : Word
  ackAt : Word
  slots : Tab KeySlot
deriving DecidableEq, Repr

def Link.reset : Link :=
  { up := false, replay := [], queue := [], nextSeq := 0, expect := 0, replays := 0, sentAt := 0, ackAt := 0,
    slots := [] }

/-- A posted receive (R380). -/
structure Recv where
  buf : Word
  cap : Nat
  tag : Nat
  tmask : Nat
  crec : Word
  rcb : Nat
  order : Nat
  core : Nat
  /-- the matched request, as device and message id -/
  req : Option (Nat × Nat)
deriving DecidableEq, Repr

/-- An outstanding token at its receiver: its range, its generation, bytes arrived (R382). -/
structure Granted where
  offset : Nat
  count : Nat
  gen : Nat
  got : Nat
  /-- device timer at the grant -/
  at_ : Word
deriving DecidableEq, Repr

/-- An incoming pull request (R384, R387). -/
structure Req where
  device : Nat
  id : Nat
  rcb : Nat
  length : Nat
  tag : Nat
  cls : Nat
  order : Nat
  /-- state code of R384 -/
  state : Nat
  recv : Option Nat
  pfx : Nat
  next : Nat
  received : Nat
  lapsed : List Nat
  tokens : List Granted
  gens : Tab Nat
  expiries : Nat
  /-- device timer at the last data; while suspended, the time since then -/
  lastData : Word
  /-- remaining lifetime, in ns, that a suspended token left to the range at an offset (R387) -/
  lives : Tab Nat
deriving DecidableEq, Repr

/-- What an operation keeps of its issuer: core, tenant, block, the levels it is charged to, its job, its stream
and task, the address of its instruction and the step at which it issued, deterministic mode, and the link it left by (none to the own device). -/
structure OpOwner where
  core : Nat
  tenant : Nat
  rcb : Nat
  levels : List Nat
  job : Option Nat
  by_ : Stream
  task : Option TaskRef
  pc : Word
  order : Nat
  det : Bool
  link : Option Nat
deriving DecidableEq, Repr

/-- An outgoing message (R385, R388). -/
structure Send where
  owner : OpOwner
  dest : Word
  laddr : Word
  length : Nat
  tag : Nat
  cls : Nat
  crec : Word
  /-- state code of R385 -/
  state : Nat
  sent : Nat
  pfxEnd : Nat
  /-- the request has been sent, and the device timer then -/
  asked : Bool
  sentAt : Word
  /-- refused in deterministic mode, to be sent again (R390) -/
  refused : Bool
  /-- tokens whose bytes have not been sent -/
  tokens : List Token
deriving DecidableEq, Repr

/-- A remote operation without an answer (R337, R371): whose it is, its target, its completion record (0 none). A
store lists its targets, with the address at each; a post keeps the device timer when it was last sent, a load
whether it has a flag operation. -/
inductive RemoteOp where
  | post (o : OpOwner) (target : Nat) (crec : Option Word) (req : RemotePost) (sentAt : Word) (refused : Bool)
  /-- the targets: device, address and flag -/
  | store (o : OpOwner) (targets : List (Nat × Word × Word)) (crec : Word) (length : Nat)
  | load (o : OpOwner) (target : Nat) (crec : Word) (raddr laddr : Word) (length : Nat) (flag : Word)
  | rmcr (o : OpOwner) (crec : Word) (daddr : Word) (length : Nat) (flag finc : Word)
deriving DecidableEq, Repr

/-- A storage queue pair (R361). -/
structure QPair where
  sqbase : Word
  cqbase : Word
  sqdb : Word
  cqdb : Word
  sqsize : Nat
  cqsize : Nat
  tenant : Nat
  enabled : Bool
  sqtail : Nat
  sqhead : Nat
  cqhead : Nat
  phase : Nat
deriving DecidableEq, Repr

def QPair.reset : QPair :=
  { sqbase := 0, cqbase := 0, sqdb := 0, cqdb := 0, sqsize := 0, cqsize := 0, tenant := 0, enabled := false,
    sqtail := 0, sqhead := 0, cqhead := 0, phase := 0 }

/-- What a slot of the fabric save area holds: an incoming request by device and id, or an outgoing message
(R386 to R388). -/
inductive Saved where
  | req (device id : Nat)
  | send (id : Nat)
deriving DecidableEq, Repr

/-- A message that the fabric port does not send before the operations `after` have been acknowledged (R300, R412). -/
structure Delayed where
  op : Nat
  after : List Nat
  link : Option Nat
  cls : Nat
  msg : OutMsg
deriving DecidableEq, Repr

/-- What has arrived from the fabric, or is to be read or written for it, and waits for an accumulator bank, a push
port or an earlier access (R189, R242, R307). -/
inductive Arrival where
  | access (m : RemoteAccess)
  | ack (op status cause index : Nat) (data : List Byte)
  | rmcr (op status cause : Nat) (data : List Byte)
  | data (t : Token) (start : Nat) (bytes : List Byte)
  /-- an incoming request whose prefix is to be written into the buffer of a receive (R379) -/
  | pfx (device id recv : Nat) (bytes : List Byte)
  /-- a completion record, and a completion word of a POSTR, that are to be written (R337, R371) -/
  | record (o : OpOwner) (crec : Word) (device tag bytes status cause index : Nat)
  | word (o : OpOwner) (crec word : Word)
  /-- the end of an outgoing message, and of an incoming request, whose records are to be written (R384, R385) -/
  | sendEnd (id bytes status cause : Nat)
  | recvEnd (device id : Nat)
  /-- a message whose prefix, and one whose tokens' bytes, are to be read (R385) -/
  | request (id : Nat)
  | tokens (id : Nat)
deriving DecidableEq, Repr

/-- A record of an event (R434). -/
structure Event where
  cause : Nat
  escalated : Bool
  rcb : Nat
  place : Nat
  source : Nat
  value : Word
  time : Word
deriving DecidableEq, Repr

end Sys2Proof.Machine
end

