-- ==== Sys2Proof/Machine/State.lean ====
section
/-! DEFINITION. The state of the whole device, as the spec gives it (INVENTORY.md lists every piece),
the state at reset, and the ways a step can stop. -/

namespace Sys2Proof.Machine

/-- What falls due in the machine itself besides an instruction: a message to the device itself arrives (R370), an
access of a cycle of a barrier object arrives, and the cycle ends (R411), a link's acknowledgement is overdue or the
link is lost (R366, R367), a time of a waiting sequencer is over (R257, R443), the rotation array reaches an overflow
(R223), and the host reads a register (R449, R452). -/
inductive Due where
  | arrive (m : OutMsg)
  | access (m : RemoteAccess)
  | cycleEnd (glade line : Nat)
  | replay (link : Nat)
  | linkDown (link : Nat)
  | waita (core seq : Nat)
  | yieldEnd (core seq : Nat)
  | overflow (core : Nat)
  | read (tenant : Option Nat) (offset : Nat)
  /-- system software reads an entry of a grove's region table (R393; log 60) -/
  | readRegion (grove id : Nat)
deriving DecidableEq, Repr

/-- What moves next besides the current stream: another stream, an event of the table, or what is due (log 2). -/
inductive Move where
  | run (s : Stream)
  | event (i : Instr)
  | due (d : Due)
deriving DecidableEq, Repr

/-- A cycle of a barrier object (R411; log 53): the object, whether an update asks for an advance, and the sequencers whose
BARX reads the pending count after the cycle's updates (R415). -/
structure BarCycle where
  addr : Nat
  advance : Bool
  readers : List Stream
deriving DecidableEq, Repr

/-- A blocked instruction, in order of arrival (R34, R347, R395, R408, R409). -/
structure Waiter where
  stream : Stream
  /-- 0 the free slots of a ring, for an RCLAIM; 1 a sync object; 3 a handle; 4 a channel; 5 a storage pair; 6 a transpose
  unit; 7 the free slots of a ring, for a WFREE; 8 the F of a ring, for an RPUB; 9 a slot of a ring, for a WFILL; 10 a line
  of sync space, for a BARW or a WAITA; 11 the pre-emption of a grove, for a CTXSW.out or a CTXSW.in;
  12 the miss table of a glade; 13 an entry of a token queue, for a pop; 14 room in a token queue, for a push (R101) -/
  kind : Nat
  key : Nat
  /-- what it waits for: a count of slots, an index, a state -/
  need : Nat
deriving DecidableEq, Repr

/-- The device. `cores`, `groves`, `glades` are keyed by global index (R9, R313). -/
structure State where
  cores : Tab Core
  groves : Tab Grove
  glades : Tab Glade
  /-- bytes by device physical address: HBM, scratchpads (kind 0), weight buffers (kind 3) (R241, R271) -/
  mem : Tab Byte
  /-- bytes of host memory by bus address (R273, R452) -/
  hostMem : Tab Byte
  /-- owner tags by 256-byte line of the on-chip map (R250) -/
  owner : Tab Nat
  /-- poisoned words and words with bits in error, by device physical address / 8 (R249) -/
  poison : Tab Bool
  biterr : Tab Nat
  /-- stored-size codes of 32-byte HBM sectors (R282) -/
  comp : Tab Nat
  /-- translation caches, miss tables, metadata caches and their counters (R270, R278, R283, R426) -/
  msys : MemSys
  /-- active RCB cache (R400): a listed entry is active -/
  rcbs : Tab Rcb
  tenants : Tab Tenant
  pages : Tab TenantPage
  route : Tab (BitVec 128)
  pairs : Tab QPair
  links : Tab Link
  /-- prefix size registers, and the sizes other devices have advertised: device · 4 + class (R364, R379) -/
  prefixes : Tab Nat
  advertised : Tab Nat
  reqs : List Req
  recvs : Tab Recv
  sends : Tab Send
  nextOrder : Nat
  saveBase : Word
  saveSize : Word
  saved : Tab Saved
  remote : Tab RemoteOp
  nextOp : Nat
  /-- arrivals that wait, oldest first, and chain messages that are to be forwarded (R375) -/
  held : List Arrival
  forwards : List RemoteAccess
  /-- messages that the port holds back (R300, R412) -/
  delayed : List Delayed
  out : List OutMsg
  mgmtEvents : List Event
  tinvTenant : Nat
  tinvAll : Bool
  /-- the invalidation that runs: tenant, all pages, range start and end (R280) -/
  tinvJob : Option (Nat × Bool × Word × Word)
  tinvStart : Word
  tinvEnd : Word
  fsusp : Nat
  timer : Word
  cycles : Word
  perf : Tab Word
  bootState : Nat
  mr : Tab (BitVec 384)
  flash : List Byte
  i3cAddr : Option Nat
  /-- the I3C buffer: the result of the last mailbox command that came over I3C (R458) -/
  i3cBuf : List Byte
  clockMHz : Nat
  overtemp : Bool
  /-- the model's own fields (log 2, log 3, log 4, log 53) -/
  agenda : List Move
  cur : Stream
  fresh : Nat
  waiters : List Waiter
  /-- the cycle of a barrier object whose updates are being applied (R411) -/
  barCycle : Option BarCycle
  /-- opaque blocks of context images that CTXSW.out has written, with their contexts and the delivery counts of the groups
  of their grove (log 13) -/
  images : List (List Byte × Context × Tab Nat)
deriving DecidableEq, Repr

/-- The machine right after reset, before the boot ROM has run (R450, R455): every table empty, every
register at its reset value, every sequencer idle. The values the spec does not give are those of log 5. -/
def State.reset : State :=
  { cores := [], groves := [], glades := [], mem := [], hostMem := [], owner := [], poison := [], biterr := [],
    comp := [], msys := .reset, rcbs := [], tenants := [], pages := [], route := [], pairs := [], links := [], prefixes := [],
    advertised := [], reqs := [], recvs := [], sends := [], nextOrder := 0,
    saveBase := 0, saveSize := 0, saved := [], remote := [], nextOp := 0, held := [], forwards := [], delayed := [], out := [], mgmtEvents := [],
    tinvTenant := 0, tinvAll := false, tinvJob := none, tinvStart := 0, tinvEnd := 0, fsusp := 0, timer := 0,
    cycles := 0, perf := [], bootState := 0, mr := [], flash := [], i3cAddr := none, i3cBuf := [], clockMHz := 1900,
    overtemp := false, agenda := [], cur := ⟨0, .K, .pipe⟩, fresh := 0, waiters := [], barCycle := none,
    images := [] }

/-- The ways a step can stop with a fault: none. The spec gives every trap, fault and event an effect,
and the model takes each as a next state; an idle sequencer only lets the cycle counter advance (R12). -/
inductive Fault where
deriving DecidableEq, Repr

/-- The ways an instruction can lack a meaning. -/
inductive Refusal where
  /-- raised by `exec` for an instruction whose meaning is not written. Safe: nothing is claimed of it. -/
  | notModelled (mnemonic : String)
deriving DecidableEq, Repr

end Sys2Proof.Machine
end

