-- ==== Sys2Proof/Machine/Ops.lean ====
section
/-! DEFINITION. The named operations over the state: reading and writing sequencers and tables, the monad
of the meanings, events, taking a trap with escalation and fencing, the return from a handler, and the
frame of an instruction (R76, R82, R428 to R434, R441). -/

namespace Sys2Proof.Machine

/-! ## Tables -/

def State.core (s : State) (c : Nat) : Core := Tab.get Core.reset s.cores c
def State.setCore (s : State) (c : Nat) (k : Core) : State := { s with cores := Tab.put s.cores c k }
def State.modCore (s : State) (c : Nat) (f : Core → Core) : State := s.setCore c (f (s.core c))
def State.ctx (s : State) (c : Nat) : Context := (s.core c).ctx
def State.setCtx (s : State) (c : Nat) (x : Context) : State := s.setCore c { s.core c with ctx := x }
def State.modCtx (s : State) (c : Nat) (f : Context → Context) : State := s.setCtx c (f (s.ctx c))
def State.grove (s : State) (g : Nat) : Grove := Tab.get Grove.reset s.groves g
def State.setGrove (s : State) (g : Nat) (k : Grove) : State := { s with groves := Tab.put s.groves g k }
def State.modGrove (s : State) (g : Nat) (f : Grove → Grove) : State := s.setGrove g (f (s.grove g))
def State.glade (s : State) (g : Nat) : Glade := Tab.get Glade.reset s.glades g
def State.setGlade (s : State) (g : Nat) (k : Glade) : State := { s with glades := Tab.put s.glades g k }
def State.modGlade (s : State) (g : Nat) (f : Glade → Glade) : State := s.setGlade g (f (s.glade g))
def State.tenant (s : State) (t : Nat) : Tenant := Tab.get Tenant.reset s.tenants t
def State.page (s : State) (t : Nat) : TenantPage := Tab.get TenantPage.reset s.pages t
def State.setPage (s : State) (t : Nat) (p : TenantPage) : State := { s with pages := Tab.put s.pages t p }
def State.rcb (s : State) (r : Nat) : Option Rcb := Tab.find s.rcbs r
def State.setRcb (s : State) (r : Nat) (k : Rcb) : State := { s with rcbs := Tab.put s.rcbs r k }
def State.modRcb (s : State) (r : Nat) (f : Rcb → Rcb) : State :=
  match s.rcb r with
  | some k => s.setRcb r (f k)
  | none => s
def State.link (s : State) (l : Nat) : Link := Tab.get Link.reset s.links l
def State.setLink (s : State) (l : Nat) (k : Link) : State := { s with links := Tab.put s.links l k }
def State.modLink (s : State) (l : Nat) (f : Link → Link) : State := s.setLink l (f (s.link l))
def Link.slot (l : Link) (n : Nat) : KeySlot := Tab.get KeySlot.reset l.slots n
def Link.setSlot (l : Link) (n : Nat) (k : KeySlot) : Link := { l with slots := Tab.put l.slots n k }
def Core.chan (k : Core) (n : Nat) : Channel := Tab.get Channel.idle k.chans n
def Core.setChan (k : Core) (n : Nat) (c : Channel) : Core := { k with chans := Tab.put k.chans n c }
def State.send (s : State) (m : OutMsg) : State := { s with out := s.out ++ [m] }

/-! ## Sequencers -/

def Context.seq (x : Context) : SeqKind → Seq
  | .K => x.k | .V => x.vseq | .M => x.mseq | .Q => x.qseq
def Context.setSeq (x : Context) (k : SeqKind) (q : Seq) : Context :=
  match k with
  | .K => { x with k := q }
  | .V => { x with vseq := q }
  | .M => { x with mseq := q }
  | .Q => { x with qseq := q }
def Context.sub (x : Context) : Sub → SubQ
  | .vl => x.vl | .va => x.va | .vs => x.vs | .pipe => .empty
def Context.setSub (x : Context) (k : Sub) (q : SubQ) : Context :=
  match k with
  | .vl => { x with vl := q }
  | .va => { x with va := q }
  | .vs => { x with vs := q }
  | .pipe => x

/-- The sequencer of a stream; V's sub-queues belong to V. -/
def State.seqOf (s : State) (st : Stream) : Seq := (s.ctx st.core).seq st.seq
def State.setSeq (s : State) (st : Stream) (q : Seq) : State :=
  s.setCtx st.core ((s.ctx st.core).setSeq st.seq q)
def State.modSeq (s : State) (st : Stream) (f : Seq → Seq) : State := s.setSeq st (f (s.seqOf st))
/-- The sequencer of the current stream. -/
def State.seq (s : State) : Seq := s.seqOf s.cur
def State.subOf (s : State) (st : Stream) : SubQ := (s.ctx st.core).sub st.sub
def State.setSub (s : State) (st : Stream) (q : SubQ) : State :=
  s.setCtx st.core ((s.ctx st.core).setSub st.sub q)

/-- The scalar pipe of a stream's sequencer. -/
def Stream.pipe (st : Stream) : Stream := { st with sub := .pipe }
/-- Grove and glade of a core (R9). -/
def groveOf (core : Nat) : Nat := core / 16
def gladeOf (core : Nat) : Nat := core / 192
/-- Index of a core within its grove. -/
def coreIn (core : Nat) : Nat := core % 16

/-- The entry with the lowest order, the first of equals. -/
def oldestBy {α : Type} (f : α → Nat) : List α → Option α
  | [] => none
  | a :: t => match oldestBy f t with
    | none => some a
    | some b => if f a ≤ f b then some a else some b

/-! ## Bytes -/

/-- The little-endian value of bytes (R4). -/
def ofBytes : List Byte → Nat
  | [] => 0
  | b :: t => b.toNat + 256 * ofBytes t

/-- `n` bytes of a value, lowest first (R4). -/
def toBytes : Nat → Nat → List Byte
  | 0, _ => []
  | n + 1, v => BitVec.ofNat 8 v :: toBytes n (v / 256)

/-- The word of 8 or fewer bytes. -/
def wordOf (l : List Byte) : Word := BitVec.ofNat 64 (ofBytes l)
/-- Bits [lo + n - 1 : lo] of a vector, as a number. -/
def fld {w : Nat} (x : BitVec w) (lo n : Nat) : Nat := x.toNat / 2 ^ lo % 2 ^ n
/-- One bit of a vector. -/
def bit {w : Nat} (x : BitVec w) (n : Nat) : Bool := fld x n 1 == 1
/-- Set bits [lo + n - 1 : lo] of a number. -/
def putBits (x lo n v : Nat) : Nat :=
  x / 2 ^ (lo + n) * 2 ^ (lo + n) + v % 2 ^ n * 2 ^ lo + x % 2 ^ lo

/-! ## The monad of the meanings -/

/-- Why the body of an instruction stops: a trap without effects, a trap with the effects that its entry
lists (a function of the state before it), or a block, which has not begun (R76), with what it waits for
where arrivals are ordered. -/
inductive Stop where
  | trap (cause : Nat) (tval : Word)
  | trapWith (f : State → State) (cause : Nat) (tval : Word)
  /-- a read met words in error: they are marked and reported, and the trap is taken (R249) -/
  | detect (words : List Nat) (cause : Nat) (tval : Word)
  | block (on : Option (Nat × Nat × Nat))
  /-- a block whose issue already shows outside (R343, R443, R483): `f` of the state before the instruction -/
  | blockWith (f : State → State) (on : Option (Nat × Nat × Nat))

/-- A meaning over the state that may stop; a stop keeps what its accesses have left in the memory system (R278, R279,
R282, R426). -/
abbrev M := StateT State (Except (Stop × MemSys))

def stop {α : Type} (e : Stop) : M α := fun s => .error (e, s.msys)
def trap {α : Type} (cause : Nat) (tval : Word) : M α := stop (.trap cause tval)
def block {α : Type} : M α := stop (.block none)
/-- Block, queued in order of arrival for resource `key` of kind `kind`, with what is needed of it (R34, R347, R409). -/
def blockOn {α : Type} (kind key : Nat) (need : Nat := 0) : M α := stop (.block (some (kind, key, need)))
/-- Trap with an effect that stays. -/
def trapWith {α : Type} (f : State → State) (cause : Nat) (tval : Word) : M α := stop (.trapWith f cause tval)
def trapIf (c : Bool) (cause : Nat) (tval : Word) : M Unit := if c then trap cause tval else pure ()
/-- Block with an effect that the issue has. -/
def blockWith {α : Type} (f : State → State) (on : Option (Nat × Nat × Nat) := none) : M α :=
  stop (.blockWith f on)
def blockIf (c : Bool) : M Unit := if c then block else pure ()
def modS (f : State → State) : M Unit := fun s => .ok ((), f s)
def gets' {α : Type} (f : State → α) : M α := fun s => .ok (f s, s)
/-- Run a check that gives a cause and a TVAL. -/
def ofExcept {α : Type} : Except (Nat × Word) α → M α
  | .ok a => pure a
  | .error (c, v) => trap c v

/-! ## Events (R434, R452 to R454) -/

/-- Signal vector `v` of a tenant: a vector beyond its count or beyond 2047 is dropped and counted (R454). -/
def signalVector (t v : Nat) (s : State) : State :=
  let n := s.tenant t
  let g := n.vecBase.toNat + v
  if v < n.vecCount.toNat ∧ g < 2048 then s.send (.vector g)
  else s.setPage t { s.page t with eqlost := (s.page t).eqlost + 1 }

/-- Write bytes of host memory. -/
def State.hostWrite (s : State) (a : Nat) : List Byte → State
  | [] => s
  | b :: t => State.hostWrite { s with hostMem := Tab.set 0 s.hostMem a b } (a + 1) t

/-- The 32 bytes of an event record (R434). -/
def Event.bytes (e : Event) : List Byte :=
  toBytes 2 e.cause ++ toBytes 2 e.rcb ++ toBytes 4 (e.place + e.source * 2 ^ 11) ++
    toBytes 8 e.value.toNat ++ toBytes 8 e.time.toNat ++ toBytes 8 0

/-- The place field of R434 for a core: glade, grove, core. -/
def placeOf (core : Nat) : Nat := gladeOf core + groveOf core % 12 * 8 + coreIn core * 128

/-- Write an event to the management core's queue (R434, R459). -/
def mgmtEvent (e : Event) (s : State) : State := { s with mgmtEvents := s.mgmtEvents ++ [e] }.send .i3cEvent

/-- Write an event: to the event ring of the tenant of its RCB, or to the management core's queue for the
root (R434). A full ring drops it and counts (R453). -/
def event (cause : Nat) (rcb core source : Nat) (value : Word) (s : State) : State :=
  let e : Event := { cause := cause, escalated := false, rcb := rcb, place := placeOf core, source := source,
                     value := value, time := s.timer }
  match s.rcb rcb with
  | none => mgmtEvent e s
  | some r =>
    if rcb = 0 then mgmtEvent e s
    else
      let p := s.page r.tenant
      let n := fld p.eqsize 0 16 + 1
      if !bit p.eqsize 16 || (p.eqtail + 1) % n == p.eqhead then
        s.setPage r.tenant { p with eqlost := p.eqlost + 1 }
      else
        let s1 := s.hostWrite (p.eqbase.toNat + 32 * p.eqtail) e.bytes
        signalVector r.tenant 0 (s1.setPage r.tenant { p with eqtail := (p.eqtail + 1) % n })

/-! ## The tree of region control blocks -/

/-- The chain of active entries from `r` up to the root, `r` first (R26, R27). -/
def ancestors (s : State) : Nat → Nat → List Nat
  | 0, _ => []
  | fuel + 1, r =>
    match s.rcb r with
    | none => []
    | some k => r :: if k.parent = r then [] else ancestors s fuel k.parent

/-- `r` and its ancestors. -/
def State.chain (s : State) (r : Nat) : List Nat := ancestors s 8 r
/-- Whether `r` lies in the subtree of `top`. -/
def State.under (s : State) (top r : Nat) : Bool := (s.chain r).contains top
/-- Effective trap vector (R26). -/
def State.vectorOf (s : State) (r : Nat) : Word := match s.rcb r with | some k => k.vector | none => 0
def State.tenantOf (s : State) (r : Nat) : Nat := match s.rcb r with | some k => k.tenant | none => 0
/-- Whether the tenant of a block is being reset, when posts to it are refused (R450). -/
def State.resetting (s : State) (r : Nat) : Bool := (s.rcb r).isSome && (s.tenant (s.tenantOf r)).busy
/-- The job-level block at or above `r` (R36). -/
def State.jobOf (s : State) (r : Nat) : Option Nat :=
  (s.chain r).find? fun a => match s.rcb a with | some k => k.job | none => false

/-- Stop one sequencer if its task's RCB lies in the subtree (R433). -/
def fenceSeq (s : State) (top : Nat) (but : Bool) (q : Seq) : Seq :=
  if q.task.isSome && s.under top q.trcb && !but then { q with fenced := true } else q

/-- Stop the sequencers of a context. -/
def fenceCtx (s : State) (top : Nat) (core : Nat) (taker : Option Stream) (x : Context) : Context :=
  let but (k : SeqKind) : Bool := taker == some ⟨core, k, .pipe⟩
  { x with k := fenceSeq s top (but .K) x.k, vseq := fenceSeq s top (but .V) x.vseq,
           mseq := fenceSeq s top (but .M) x.mseq, qseq := fenceSeq s top (but .Q) x.qseq }

/-- Fence the subtree of `top` (R433): its blocks take the fence flag and its running sequencers stop in
place, except the one that takes the trap. -/
def fence (top : Nat) (taker : Option Stream) (s : State) : State :=
  { s with
    rcbs := Tab.mapVals (fun r k => if s.under top r then { k with fence := true, fenceNo := s.fresh } else k) s.rcbs
    cores := Tab.mapVals (fun c k =>
      { k with ctx := fenceCtx s top c taker k.ctx, under := fenceCtx s top c none k.under }) s.cores }

/-- UNCORRECTABLE or another fence of one block alone (R435): the block but not its descendants. -/
def fenceOne (r : Nat) (s : State) : State :=
  if r = 0 then s
  else
    let stop (q : Seq) : Seq := if q.task.isSome && q.trcb == r then { q with fenced := true } else q
    let stopCtx (x : Context) : Context :=
      { x with k := stop x.k, vseq := stop x.vseq, mseq := stop x.mseq, qseq := stop x.qseq }
    let s1 := s.modRcb r fun k => { k with fence := true, fenceNo := s.fresh }
    { s1 with cores := Tab.mapVals (fun _ k => { k with ctx := stopCtx k.ctx, under := stopCtx k.under }) s1.cores }

/-! ## Taking a trap (R430 to R433) -/

/-- A trap to be delivered: cause, TVAL, the address it names, the remaining count of a pair, the source
and secondary fields of TCAUSE, and whether it is deferred. -/
structure TrapInfo where
  cause : Nat
  tval : Word
  tpc : Word
  trep : Nat
  src : Nat
  sec : Nat
  deferred : Bool
deriving DecidableEq, Repr

/-- TCAUSE of a trap (R430). -/
def causeWord (cause : Nat) (deferred escalated : Bool) (src sec trcb hrcb : Nat) : Word :=
  BitVec.ofNat 64 (cause % 1024 + deferred.toNat * 2 ^ 10 + escalated.toNat * 2 ^ 11 + src % 4 * 2 ^ 12
    + sec % 1024 * 2 ^ 16 + trcb % 1024 * 2 ^ 32 + hrcb % 1024 * 2 ^ 42)

/-- The fault domain that receives an escalated trap: the nearest proper ancestor of the starting block
whose flag is set and whose vector is not zero (R432). -/
def domainAbove (s : State) (start : Nat) : Option Nat :=
  ((s.chain start).drop 1).find? fun a =>
    match s.rcb a with
    | some k => k.fdomain && k.vector != 0
    | none => false

/-- The block below `d` on the way from `d` down to `r`. -/
def childTowards (s : State) (d r : Nat) : Option Nat :=
  (s.chain r).find? fun a => match s.rcb a with | some k => k.parent == d && a != d | none => false

/-- Enter a handler: the trap state, the flag with hrcb and cause, the split point in V, the vector (R430, R431). -/
def enterHandler (st : Stream) (t : TrapInfo) (esc : Bool) (sec h : Nat) (s : State) : State :=
  let q := s.seqOf st
  let s1 := if t.src = 0 then s else s.modCtx st.core fun x => { x with split := some q.pc, splitRem := q.rem }
  s1.setSeq st { q.unblock with
    tpc := t.tpc, tval := t.tval, trep := t.trep, tcause := causeWord t.cause t.deferred esc t.src sec q.trcb h,
    handler := true, hrcb := h, hcause := t.cause, pc := s.vectorOf h, rem := 0, taker := none }

/-- The sequencer that takes an escalated trap runs the domain handler, whatever the fence stops (R433). -/
def takesTrap (st : Stream) (s : State) : State :=
  s.modSeq st fun q => { q with fenced := false, taker := some s.fresh }

/-- Escalation (R432). -/
def escalate (st : Stream) (t : TrapInfo) (s : State) : State :=
  let q := s.seqOf st
  let start := if q.handler then q.hrcb else q.trcb
  let sec := if q.handler then q.hcause else t.sec
  match domainAbove s start with
  | some d =>
    let s1 := takesTrap st (enterHandler st t true sec d s)
    match childTowards s d q.trcb with
    | some c => fence c (some st.pipe) s1
    | none => s1
  | none =>
    let top := match s.jobOf q.trcb with
      | some j => some j
      | none => childTowards s 0 q.trcb
    let s1 := match top with | some c => fence c (some st.pipe) s | none => s
    let s2 := s1.modSeq st fun p => { p.unblock with
      tpc := t.tpc, tval := t.tval, trep := t.trep, tcause := causeWord t.cause t.deferred true t.src sec q.trcb 0,
      fenced := true }
    mgmtEvent { cause := t.cause, escalated := true, rcb := q.trcb, place := placeOf st.core,
                source := st.seq.code, value := t.tval, time := s.timer } s2

/-- Deliver a trap on a sequencer, always in its scalar pipe (R430, R431). -/
def takeTrap (st : Stream) (t : TrapInfo) (s : State) : State :=
  let q := s.seqOf st
  if q.handler || s.vectorOf q.trcb == 0 then escalate st.pipe t s
  else enterHandler st.pipe t false t.sec q.trcb s

/-- A synchronous trap of the instruction at the pc of a stream: TREP holds the repeats of a pair that are
still to run (R84, R430). -/
def takeSync (st : Stream) (cause : Nat) (tval : Word) (s : State) : State :=
  let q := s.seqOf st
  takeTrap st { cause := cause, tval := tval, tpc := q.pc, trep := q.rem, src := 0, sec := 0, deferred := false } s

/-- The trap that a pending record stands for. -/
def DefTrap.info (t : DefTrap) : TrapInfo :=
  { cause := t.cause, tval := t.tval, tpc := t.tpc, trep := t.trep, src := t.src, sec := t.sec, deferred := t.deferred }

/-- A fault of an operation that outlives its instruction; TREP is 0, also when that was a repeat of a pair (DESIGN CHOICE,
log 62). -/
def deferredFault (cause : Nat) (o : Origin) (tval : Word) : DefTrap :=
  { cause := cause, tpc := o.pc, tval := tval, sec := 0, src := 0, deferred := true, trep := 0, order := o.order }

/-! ## Counters and errors (R249, R426, R435) -/

/-- The place of a counter: its 8-byte register in the counter block of PF0 (R426, R449). -/
def perfKey (core n : Nat) : Nat :=
  if n < 0x40 then 32 * core + n
  else if n < 0x80 then 0x60000 + 64 * groveOf core + (n - 0x40)
  else if n < 0xC0 then 0x62000 + 32 * gladeOf core + (n - 0x80)
  else 0x64000 + (n - 0xC0)

/-- Whether a number names a counter (R426). -/
def isCounter (n : Nat) : Bool :=
  [0, 1, 2, 3, 4, 5, 6, 0x10, 0x11, 0x40, 0x41, 0x42, 0x43, 0x80, 0x81, 0x82, 0x83, 0x84, 0xC0, 0xC1, 0xC2,
   0xC3, 0xC4].contains n

/-- Whether a counter is one of the memory system: 0x42 and 0x80 to 0x82. -/
def isMemKey (k : Nat) : Bool :=
  (decide (0x60000 ≤ k) && decide (k < 0x62000) && k % 64 == 2) || (decide (0x62000 ≤ k) && decide (k < 0x64000) && decide (k % 32 < 3))

/-- Whether a counter is that of the corrected errors of a core: 0x10. -/
def isFixedKey (k : Nat) : Bool := decide (k < 0x60000) && k % 32 == 16

/-- A counter by its place, and the state with another value of it. -/
def State.perfAt (s : State) (k : Nat) : Word :=
  if isFixedKey k then Tab.get 0 s.msys.fixed k
  else if isMemKey k then Tab.get 0 s.msys.counts k else Tab.get 0 s.perf k
def State.setPerf (s : State) (k : Nat) (v : Word) : State :=
  if isFixedKey k then { s with msys := { s.msys with fixed := Tab.set 0 s.msys.fixed k v } }
  else if isMemKey k then { s with msys := { s.msys with counts := Tab.set 0 s.msys.counts k v } }
  else { s with perf := Tab.set 0 s.perf k v }

def State.counter (s : State) (core n : Nat) : Word := s.perfAt (perfKey core n)

/-- Add to a counter. -/
def count (core n by_ : Nat) (s : State) : State := s.setPerf (perfKey core n) (s.counter core n + BitVec.ofNat 64 by_)

/-- The core of an on-chip device physical address (R241). -/
def chipCore (pa : Nat) : Nat := pa / 2 ^ 36 % 8 * 192 + pa / 2 ^ 32 % 16 * 16 + pa / 2 ^ 28 % 16

/-- The device physical address of an offset in a window of a core (R241, R242). -/
def chipAddr (core kind off : Nat) : Nat :=
  Config.chipBase + gladeOf core * 2 ^ 36 + groveOf core % 12 * 2 ^ 32 + coreIn core * 2 ^ 28 + kind * 2 ^ 24 + off

/-- Where the marks of words with no device physical address stand (log 26, log 57): those of the understory at the
address of the resident word plus 2^48, those of device-owned tables from 2^52 on. -/
def underBase : Nat := 2 ^ 48
def ownedBase : Nat := 2 ^ 52

/-- Whether an address is on chip, in a resident window or in the understory. -/
def chipArray (pa : Nat) : Bool :=
  decide (pa < ownedBase) && decide (Config.chipBase ≤ pa % underBase) && decide (pa % underBase < Config.chipEnd)

/-- The groves whose canopies stop with an error in a device-owned structure (R436), by the address of its marks: the ring
and buffer tables of a core; then (log 57) the window and region table and the translation cache of a grove, the active
RCB cache, the miss table of a glade, and the grant scheduler's tables. -/
def ownedGroves (pa : Nat) : Option (List Nat) :=
  if chipArray pa then (if pa / 2 ^ 24 % 16 = 6 then some [groveOf (chipCore pa)] else none)
  else if pa < ownedBase then none
  else
    let i := pa / 2 ^ 28 % 2 ^ 10
    some (match pa / 2 ^ 40 % 8 with
      | 0 | 1 => [i % 96]
      | 3 => (List.range 12).map fun k => 12 * (i % 8) + k
      | _ => List.range 96)

/-- An uncorrectable word of device-owned state: MACHINE_CHECK, and canopies stop (R436); its event holds 0 (R481). -/
def machineCheckWord (source pa : Nat) (groves : List Nat) (s : State) : State :=
  mgmtEvent { cause := Cause.machineCheck, escalated := false, rcb := 0,
              place := placeOf (if chipArray pa then chipCore pa else 16 * groves.headD 0), source := source,
              value := 0, time := s.timer }
    { s with groves := groves.foldl (fun t g => Tab.put t g { Tab.get Grove.reset t g with stopped := true }) s.groves }

/-- The words of the HBM sector of a word, by address / 8, when the sector stands in a compressed form; else the word
alone. A stored form that fails its check fails as a whole (R283). -/
def State.sectorWords (s : State) (w : Nat) : List Nat :=
  let code := Tab.get 3 s.comp (w / 4)
  if 8 * w < Config.hbmEnd ∧ (code = 1 ∨ code = 2) then [w / 4 * 4, w / 4 * 4 + 1, w / 4 * 4 + 2, w / 4 * 4 + 3] else [w]

/-- Whether a word has two or more bits in error and is not yet poisoned. -/
def State.wordBad (s : State) (w : Nat) : Bool := decide (2 ≤ Tab.get 0 s.biterr w)

/-- Detection of an uncorrectable word, by address / 8, unless it has been detected with its sector: it is poisoned (with its sector, when that is compressed), the
error is reported once against the owner of its line, and that block is fenced (R249, R283, R435); in device-owned tables
it is a MACHINE_CHECK (R436). -/
def detectWord (core source : Nat) (s : State) (w : Nat) : State :=
  if !s.wordBad w then s else
  let pa := 8 * w
  let src := if chipArray pa ∨ ownedBase ≤ pa then source else if pa < Config.hbmEnd then 11 else 9
  let s1 := { s with poison := (s.sectorWords w).foldl (fun t k => Tab.put t k true) s.poison
                     biterr := (s.sectorWords w).foldl (fun t k => Tab.del t k) s.biterr }
  let s2 := if chipArray pa then count (chipCore pa) 0x11 1 s1 else s1
  match ownedGroves pa with
  | some l => machineCheckWord src pa l s2
  | none =>
    let owner := Tab.get 0 s.owner (pa / 256)
    fenceOne owner (event Cause.uncorrectable owner (if chipArray pa then chipCore pa else core) src
      (BitVec.ofNat 64 (pa % underBase)) s2)

/-- Count corrected errors of a core's arrays (R426, counter 0x10). -/
def countFixed (pa k : Nat) (s : State) : State := if chipArray pa ∧ k ≠ 0 then count (chipCore pa) 0x10 k s else s

/-! ## The frame of an instruction -/

/-- The cores of a grove. -/
def coresIn (g : Nat) : List Nat := (List.range 16).map (16 * g + ·)

/-- Whether the array of a core still commits rows of a step that it has started (R195). -/
def Matrix.committing (m : Matrix) : Bool := m.queue.any fun o => match o with | .step _ => true | _ => false

/-- Device time that a core reads: all cores within 2 ns of each other (R425). -/
def State.timeAt (s : State) (core : Nat) : Word := s.timer + BitVec.ofNat 64 (Config.timerSkew core % 2)

/-- Accesses that no longer wait leave the walks that they are attached to, and the results that they have received
(R279). -/
def MemSys.detach (p : Who → Bool) (m : MemSys) : MemSys :=
  let out (l : List Miss) : List Miss := l.map fun e => { e with who := e.who.filter fun w => !p w.1 }
  { m with
    misses := Tab.mapVals (fun _ l => out l) m.misses, queued := Tab.mapVals (fun _ l => out l) m.queued
    answers := m.answers.filter fun a => !p a.who }
def State.detach (p : Who → Bool) (s : State) : State := { s with msys := s.msys.detach p }

/-- Whether an access is one of a stream. -/
def Who.isOf (st : Stream) (w : Who) : Bool := w.by_ == some st

/-- Remove a stream from the waiting lists, and its accesses from the walks. -/
def State.unwait (s : State) (st : Stream) : State :=
  { s.detach (Who.isOf st) with waiters := s.waiters.filter fun w => w.stream != st }

/-- The state before an instruction with what its accesses have left in the memory system. -/
def State.keep (s : State) (m : MemSys) : State := { s with msys := m }

/-- The same where the instruction waits: it has not begun, and has corrected nothing (R76, R249). -/
def State.keepWait (s : State) (m : MemSys) : State := s.keep { m with fixed := s.msys.fixed }

/-- What a stop leaves of the memory system. -/
def State.stopped (s : State) (e : Stop) (m : MemSys) : State :=
  match e with
  | .block _ | .blockWith _ _ => s.keepWait m
  | _ => s.keep m

/-- Whether a block is fenced (R433). -/
def State.fencedRcb (s : State) (r : Nat) : Bool := match s.rcb r with | some k => k.fence | none => false

/-- Whether a fence of its block stops a sequencer: all but the one that handles the trap for which the block is fenced
(R433). -/
def State.fenceStops (s : State) (q : Seq) : Bool :=
  match s.rcb q.trcb with
  | some k => k.fence && !(q.handler && q.taker == some k.fenceNo)
  | none => false

/-- Whether a sequencer executes: it holds a task and nothing stops it: a HALT, a fence, a pre-emption, at which a YIELD
stops it before its grove has halted, or the temperature (R12, R24, R433, R437, R442, R443, R460). -/
def State.runs (s : State) (st : Stream) : Bool :=
  let q := s.seqOf st
  let g := s.grove (groveOf st.core)
  q.task.isSome && !q.halted && !q.fenced && !q.ended && q.busy == .none && !s.fenceStops q && !g.preHalted &&
    !(g.preempting && q.yieldedAt == some q.pc) && !s.overtemp

/-- Whether a request of a grove still asks: a CTXSW that waits for its turn does while its sequencer attempts it. -/
def State.asks (s : State) : PreBy → Bool
  | .copy st => (s.seqOf st).waiting && s.runs st
  | _ => true

/-- The requests of a grove that still ask, oldest first (R445, R451). -/
def State.preQueue (s : State) (g : Nat) : List PreBy := (s.grove g).pre.filter s.asks

/-- Whether the current stream may take resource `key` of kind `kind`: no other running stream came before
it (R34, R347, R418). -/
def State.firstFor (s : State) (kind key : Nat) : Bool :=
  match s.waiters.find? fun w => w.kind == kind && w.key == key && s.runs w.stream with
  | none => true
  | some w => w.stream == s.cur

/-! ## Token queues (R100 to R102) -/

/-- The number of a token queue among the resources that streams wait for. -/
def tokenKey (core n : Nat) : Nat := 8 * core + n

/-- The place of an agent in the order in which a token queue of a core is served: its sequencers K, V, M, Q, then all
others, which write its push port (R101; R242 gives those no place: DESIGN CHOICE, log 64). -/
def tokenRank (core : Nat) : Option Stream → Nat
  | some st => if st.core = core then st.seq.code else 4
  | none => 4

/-- Whether a result of a sequencer is ready and waits for room in token queue `n`. -/
def Seq.pushes (q : Seq) (n : Nat) : Bool := q.xforms.any fun j => j.left == 0 && j.poison.isNone && j.dst == .queue n

/-- Whether an operation that can still trap takes the head of token queue `n`: its entry stays, and no later pop passes it
(R102; that later pops wait for its end is a DESIGN CHOICE, log 64). -/
def Seq.holds (q : Seq) (n : Nat) : Bool :=
  q.busy == .xbox (some n) || q.xforms.any fun j => j.left != 0 && j.pops.contains n
def Context.holds (x : Context) (n : Nat) : Bool := x.k.holds n || x.vseq.holds n || x.mseq.holds n || x.qseq.holds n

/-- Whether a blocked instruction that comes before `rank` in the order of a queue waits for the same thing, and has what it
needs among `avail` entries: to pop (kind 13), or to push (kind 14) (R101). -/
def State.tokenBehind (s : State) (kind core rank n avail : Nat) : Bool :=
  s.waiters.any fun w => w.kind == kind && w.key == tokenKey core n && decide (tokenRank core (some w.stream) < rank) &&
    decide (w.need ≤ avail) && s.runs w.stream

/-- Whether no push that comes before `rank` in the order K, V, M, Q waits for room in a queue of a context: a blocked
instruction, in the resident context, or a result (R101). -/
def State.pushTurnIn (s : State) (x : Context) (resident : Bool) (core rank n : Nat) : Bool :=
  !(resident && s.tokenBehind 14 core rank n 0) &&
    [SeqKind.K, .V, .M, .Q].all fun k => !(decide (k.code < rank) && (x.seq k).pushes n)
def State.pushTurn (s : State) (core rank n : Nat) : Bool := s.pushTurnIn (s.ctx core) true core rank n

/-- The kind of wait for a walk of a glade (R278, R279). -/
def walkWait : Nat := 12

/-- Whether what a blocked instruction waits for is a walk. -/
def waitsWalk : Option (Nat × Nat × Nat) → Bool
  | some (k, _, _) => k == walkWait
  | none => false

/-- A stream that blocks on anything but a walk waits for none (R76, R279). -/
def State.detachBlocked (s : State) (st : Stream) (on : Option (Nat × Nat × Nat)) : State :=
  if waitsWalk on then s else s.detach (Who.isOf st)

/-- A blocked instruction has not begun: only the mark and the order of arrival are kept (R76). -/
def markBlocked (on : Option (Nat × Nat × Nat)) (s0 : State) : State :=
  let s := s0.detachBlocked s0.cur on
  let s1 := if s.cur.sub = .pipe then s.modSeq s.cur fun q => { q with waiting := true } else s
  match on with
  | none => s1
  | some (k, key, need) =>
    let l := s1.waiters.filter fun w => !(w.stream == s1.cur && decide (13 ≤ w.kind))
    if l.any fun w => w.stream == s1.cur && w.kind == k && w.key == key then { s1 with waiters := l }
    else { s1 with waiters := l ++ [⟨s1.cur, k, key, need⟩] }

/-- A shared object has changed: the blocked instructions that wait on it are attempted again next, in order of arrival, the
current stream's last (R347, R395, R409; DESIGN CHOICE, log 63). -/
def State.retry (s : State) (p : Waiter → Bool) : State :=
  let l := ((s.waiters.filter fun w => p w && s.runs w.stream && !s.agenda.contains (.run w.stream)).map (·.stream)).eraseDups
  { s with agenda := (l.filter (· != s.cur) ++ l.filter (· == s.cur)).map Move.run ++ s.agenda }

/-- Whether what blocks a stream is a token queue: it has not come to what else its instruction waits for (R76). -/
def State.atTokens (s : State) (st : Stream) : Bool := s.waiters.any fun w => w.stream == st && decide (13 ≤ w.kind)

/-- The running waiters on a resource that came before the current stream, in order of arrival. -/
def State.ahead (s : State) (key : Nat) : List Waiter :=
  (s.waiters.takeWhile fun w => !(w.stream == s.cur && w.key == key)).filter fun w =>
    w.key == key && s.runs w.stream && !s.atTokens w.stream

/-- The end of an instruction in a scalar pipe: the program counter advances by its length, or to its
target; in a pair, the repeat is counted and the pair is left after the last (R69, R82). -/
def advance (len : Nat) (target : Option Word) (q : Seq) : Seq :=
  let q1 := { q.unblock with terming := none }
  match target with
  | some t => { q1 with pc := t, rem := 0 }
  | none =>
    if q.rem = 0 then { q1 with pc := q.pc + BitVec.ofNat 64 len }
    else if q.rem = 1 then { q1 with rem := 0, pc := q.pc + BitVec.ofNat 64 (4 + len) }
    else { q1 with rem := q.rem - 1 }

/-- The end of an instruction of a scalar pipe that stops (R76, R249, R430). -/
def stopPipe (e : Stop) (s : State) : State :=
  match e with
  | .trap c v => (takeSync s.cur c v s).unwait s.cur
  | .trapWith f c v => (takeSync s.cur c v (f s)).unwait s.cur
  | .detect ws c v => (takeSync s.cur c v (ws.foldl (detectWord s.cur.core s.cur.seq.code) s)).unwait s.cur
  | .block on => markBlocked on s
  | .blockWith f on => markBlocked on (f s)

/-- Run the body of an instruction of `len` bytes in a scalar pipe. -/
def runPipe (len : Nat) (body : M (Option Word)) (s : State) : Host.Outcome State Fault Refusal :=
  match body s with
  | .ok (target, s') => .next ((s'.modSeq s.cur (advance len target)).unwait s.cur)
  | .error (e, m) => .next (stopPipe e (s.stopped e m))

/-- The pending remote fault of the sequencer of a stream, while the task whose operation failed runs there (R364,
R371; log 41). -/
def State.remoteFault (s : State) (st : Stream) : Option DefTrap :=
  match Tab.find (s.core st.core).remote st.seq.code with
  | some (t, f) => if (s.seqOf st).task = some t then some f else none
  | none => none

/-- The sequencer of a stream without a pending remote fault. -/
def dropRemote (st : Stream) (s : State) : State :=
  s.modCore st.core fun k => { k with remote := Tab.del k.remote st.seq.code }

/-- A pending remote fault is delivered in the place of an instruction, outside a handler (R371, R431). -/
def remoteFirst (run : State → Host.Outcome State Fault Refusal) (s : State) : Host.Outcome State Fault Refusal :=
  match s.remoteFault s.cur with
  | some t =>
    if s.seq.handler then run s
    else .next ((takeTrap s.cur.pipe t.info (dropRemote s.cur s)).unwait s.cur)
  | none => run s

/-- The fault of the matrix or rotation array that waits for the next word of its class, 4 or 5, and the state without it
(R188, R201, R223). -/
def State.arrayFault (s : State) (cls : Nat) : Option (DefTrap × State) :=
  let x := s.ctx s.cur.core
  match s.cur.seq, cls with
  | .M, 4 =>
    match x.mx.fault with
    | t :: rest => some (t, s.setCtx s.cur.core { x with mx := { x.mx with fault := rest } })
    | [] => none
  | .Q, 5 => x.rot.fault.map fun t => (t, s.setCtx s.cur.core { x with rot := { x.rot with fault := none } })
  | _, _ => none

/-- A fault of an array is delivered in the place of a word of its class, outside a handler (R188, R223, R431). -/
def arrayFirst (cls : Nat) (keep : Bool) (run : State → Host.Outcome State Fault Refusal) (s : State) :
    Host.Outcome State Fault Refusal :=
  match s.arrayFault cls with
  | some (t, s1) => if s.seq.handler || keep then run s else .next ((takeTrap s.cur t.info s1).unwait s.cur)
  | none => run s

/-- A write to a register acts, but for one after a failed boot, when only the first 4 KiB of PF0 BAR0 answer (R455). -/
def onRegister (f : State → State) (s : State) : Host.Outcome State Fault Refusal :=
  .next (if s.bootState = 2 then s else f s)

/-- Run the body of an event: it has no instruction to trap, so a body that stops changes nothing but what its accesses have
left in the memory system. -/
def runEvent (body : M Unit) (s : State) : Host.Outcome State Fault Refusal :=
  match body s with
  | .ok (_, s') => .next s'
  | .error (.trapWith f _ _, m) => .next (f (s.keep m))
  | .error (.detect ws _ _, m) => .next (ws.foldl (detectWord s.cur.core 15) (s.keep m))
  | .error (e, m) => .next (s.stopped e m)

end Sys2Proof.Machine
end

