-- ==== Sys2Proof/Machine/Flags.lean ====
section
/-! DEFINITION. Conditions and comparison results. The Chorik has no flag register: a condition is read
from a value (R75, R113), and a comparison writes its outcome to a register (R114, R124). -/

namespace Sys2Proof

/-- Whether a value satisfies a condition of R75 (and of R113). -/
def Cond.holds (c : Cond) (v : Word) : Bool :=
  match c with
  | .eqz => v == 0
  | .nez => v != 0
  | .ltz => v.toInt < 0
  | .gez => 0 ≤ v.toInt
  | .gtz => 0 < v.toInt
  | .lez => v.toInt ≤ 0
  | .odd => v.toNat % 2 == 1
  | .even => v.toNat % 2 == 0

/-- The conditions of VCMP on exact values (R151). -/
def VCond.holds (c : VCond) (a b : FVal) : Bool :=
  let un := a.isNaN || b.isNaN
  match c with
  | .eq => a.eqv b
  | .ne => un || !a.eqv b
  | .lt => a.lt b
  | .le => a.lt b || a.eqv b
  | .gt => b.lt a
  | .ge => b.lt a || a.eqv b
  | .un => un

/-- The conditions of WAITA (R257). -/
def WaitCond.holds (c : WaitCond) (v b : Word) : Bool :=
  match c with
  | .eq => v == b
  | .ne => v != b
  | .geu => b.toNat ≤ v.toNat
  | .bit => (v &&& b) != 0

end Sys2Proof

namespace Sys2Proof.Machine

/-- The result of CMP (R114). -/
def cmpWord (unsigned : Bool) (a b : Word) : Word :=
  if a = b then 0
  else if (if unsigned then a.toNat < b.toNat else a.toInt < b.toInt) then BitVec.ofInt 64 (-1) else 1

/-- The mask of FCMP (R124): 1 less, 2 equal, 4 greater, 8 unordered. -/
def fcmpMask (a b : FVal) : Word :=
  if a.isNaN || b.isNaN then 8 else if a.lt b then 1 else if a.eqv b then 2 else 4

end Sys2Proof.Machine
end

