-- ==== Sys2Proof/Machine/Marks.lean ====
section
/-! DEFINITION. The error marks and owner tags of the SRAM arrays and of HBM, and what reads and writes do to them
(R249, R250, R283). -/

namespace Sys2Proof.Machine

/-! ## Words in error (R249) -/

/-- The words, by device physical address / 8, that [a, a + n) touches. -/
def wordsOf (a n : Nat) : List Nat := if n = 0 then [] else (List.range ((a + n - 1) / 8 - a / 8 + 1)).map (a / 8 + ·)

/-- Words with two or more bits in error, not yet poisoned, that a read of a range meets; a compressed sector is
expanded as a whole (R283). -/
def State.badWords (s : State) (a n : Nat) : List Nat :=
  if s.biterr = [] then [] else (((wordsOf a n).flatMap s.sectorWords).eraseDups).filter s.wordBad

/-- The lowest word of a range that a read cannot return. -/
def State.firstPoison (s : State) (a n : Nat) : Option Nat :=
  if s.biterr = [] ∧ s.poison = [] then none
  else (wordsOf a n).find? fun w => Tab.get false s.poison w || (s.sectorWords w).any s.wordBad

/-- Single-bit errors of a range, which a read corrects and counts. -/
def State.corrected (s : State) (a n : Nat) : Nat :=
  if s.biterr = [] then 0 else ((wordsOf a n).filter fun w => Tab.get 0 s.biterr w == 1).length

/-- Words that a write of [a, a + n) covers as a whole. -/
def wholeWord (a n w : Nat) : Bool := decide (a ≤ 8 * w) && decide (8 * w + 8 ≤ a + n)

/-- The uncorrectable words that the merge of a write reads: a word that is written in part (R249), and those of a
compressed sector that is written in part (R282, R283). -/
def State.mergeBad (s : State) (a n : Nat) : List Nat :=
  (((wordsOf a n).flatMap fun w =>
    if (s.sectorWords w).all (wholeWord a n) then [] else s.sectorWords w).eraseDups).filter s.wordBad

/-- The error marks after a write of [a, a + n): a whole word is clean, a part of a word keeps poison, and a
merge read corrects one bit, which is counted, and detects more (R249). -/
def markWrite (core source a n : Nat) (s : State) : State :=
  if s.biterr = [] ∧ s.poison = [] then s
  else (wordsOf a n).foldl (fun s w =>
    if wholeWord a n w then { s with poison := Tab.del s.poison w, biterr := Tab.del s.biterr w }
    else if Tab.get 0 s.biterr w = 1 then countFixed (8 * w) 1 { s with biterr := Tab.del s.biterr w }
    else s) ((s.mergeBad a n).foldl (detectWord core source) s)

/-- The owner tags after a write of on-chip or sync lines (R250). -/
def markOwner (rcb a n : Nat) (s : State) : State :=
  if a < Config.hbmEnd ∨ n = 0 then s
  else
    let lines := List.range ((a + n - 1) / 256 - a / 256 + 1)
    { s with owner := lines.foldl (fun t j => Tab.set 0 t (a / 256 + j) rcb) s.owner }

/-! ## Registers read and written by their own unit (R249, R250) -/

/-- A unit reads bytes of its own arrays: a word in error traps with its address, a corrected one is counted. -/
def readOwn (core kind off n : Nat) : M Unit := fun s =>
  if s.biterr = [] ∧ s.poison = [] then .ok ((), s)
  else
    let a := chipAddr core kind off
    match s.firstPoison a n with
    | some w => stop (.detect (s.badWords a n) Cause.poisonConsumed (BitVec.ofNat 64 (0xFF00 * 2 ^ 48 + 8 * w))) s
    | none => .ok ((), countFixed a (s.corrected a n) s)

/-- The check of a read that takes place later: a word in error traps, and nothing is counted yet. -/
def checkOwn (core kind off n : Nat) : M Unit := fun s =>
  match readOwn core kind off n s with
  | .ok _ => .ok ((), s)
  | .error e => .error e

/-- Whether no word of a range of a core's arrays is marked. -/
def State.cleanOwn (s : State) (core kind off n : Nat) : Bool :=
  (s.biterr = [] ∧ s.poison = []) ||
    (wordsOf (chipAddr core kind off) n).all fun w => !Tab.get false s.poison w && Tab.get 0 s.biterr w == 0

/-- The words of a range are written whole, by no task. -/
def cleanWords (a n : Nat) (s : State) : State :=
  let out (w : Nat) : Bool := decide (w < a / 8) || decide ((a + n) / 8 ≤ w)
  if s.biterr = [] ∧ s.poison = [] then s
  else { s with poison := Tab.keep out s.poison, biterr := Tab.keep out s.biterr }

/-- The marks of words that the device copies from `a` to `b`: the words at `a` are read, and those at `b` are as they read
(R249). -/
def moveMarks (core source a b n : Nat) (s : State) : State :=
  if s.biterr = [] ∧ s.poison = [] then s
  else
    let s1 := countFixed a (s.corrected a n) ((s.badWords a n).foldl (detectWord core source) s)
    (List.range (n / 8)).foldl (fun t j => { t with
      biterr := Tab.del t.biterr (b / 8 + j)
      poison := Tab.set false t.poison (b / 8 + j) (Tab.get false t.poison (a / 8 + j)) }) s1

/-- A unit writes bytes of its own arrays: whole words are clean, and the lines take the tag of the task's block. -/
def markOwn (core kind off n rcb : Nat) (s : State) : State :=
  let a := chipAddr core kind off
  markOwner rcb a n (markWrite core s.cur.seq.code a n s)

/-- A unit writes those bits of a range of whole words, word by word, that `f` does not copy: `f 0` and `f ones` agree
there. A word of which a part is written is merged (R249). -/
def markBits (core kind off n rcb : Nat) (f : Nat → Nat) (s : State) : State :=
  let a := chipAddr core kind off
  let part (kept : Nat) (u : State) (j : Nat) : State :=
    let m := kept / 2 ^ (64 * j) % 2 ^ 64
    if m = 0 then markWrite core s.cur.seq.code (a + 8 * j) 8 u
    else if m = 2 ^ 64 - 1 then u
    else markWrite core s.cur.seq.code (a + 8 * j) 4 u
  markOwner rcb a n
    (if s.biterr = [] ∧ s.poison = [] then s
     else (List.range (n / 8)).foldl (part (f 0 ^^^ f (2 ^ (8 * n) - 1))) s)

end Sys2Proof.Machine
end

