-- ==== Sys2Proof/Machine/Operands.lean ====
section
/-! DEFINITION. The operand forms of scalar words (R76, R77, R100 to R102): registers, token queues, zero
and literals as sources; registers, token queues and nothing as destinations; the checks at issue. -/

namespace Sys2Proof

/-- The literal words an operand adds to its instruction (R68). -/
def Src.words : Src → Nat
  | .lit32 _ => 1
  | .lit64 _ => 2
  | _ => 0

/-- The value of a literal or zero operand (R76, R77). -/
def Src.const : Src → Word
  | .lit32 v => v.signExtend 64
  | .lit64 v => v
  | _ => 0

/-- The token queues that operands name, in order. -/
def Src.queues : List Src → List Nat
  | [] => []
  | .queue n :: t => n :: Src.queues t
  | _ :: t => Src.queues t

/-- A destination field that is a source, as a source operand. -/
def Dst.asSrc : Dst → Src
  | .reg n => .reg n
  | .queue n => .queue n
  | .discard => .zero

/-- A destination field that an instruction also reads (R106): a register, or zero. -/
def Dst.readBack : Dst → Src
  | .reg n => .reg n
  | _ => .zero

end Sys2Proof

namespace Sys2Proof.Machine

/-- The length in bytes of an instruction with these sources (R68). -/
def lenOf (srcs : List Src) : Nat := 4 + 4 * (srcs.map Src.words).sum

/-- Registers whose writer is still in progress: the destinations of XFORMs (R260), and of QVEC and QROT
in the rotation array (R221). A reader of one waits (R97). -/
def pendingDst (x : Context) (k : SeqKind) : List Dst :=
  (x.seq k).xforms.map (·.dst) ++
    if k = .Q then x.rot.ops.filterMap fun o => match o with | .scalar d _ => some d | _ => none else []

/-- Whether register `n` of the current sequencer waits for an earlier writer. -/
def State.regPending (s : State) (n : Nat) : Bool :=
  (pendingDst (s.ctx s.cur.core) s.cur.seq).contains (.reg n)

/-- Register x[n] of the current sequencer (R96). -/
def State.xreg (s : State) (n : Nat) : Word := Tab.get 0 s.seq.x n
/-- Write x[n] of a sequencer. -/
def Seq.setX (q : Seq) (n : Nat) (v : Word) : Seq := { q with x := Tab.set 0 q.x n v }
/-- A later instruction writes a register of a sequencer whose earlier writer is still in progress: the earlier result
no longer reaches it (R97, R260). -/
def Context.supersede (x : Context) (k : SeqKind) (n : Nat) : Context :=
  let y := x.setSeq k { x.seq k with
    xforms := (x.seq k).xforms.map fun j => if j.dst = .reg n then { j with dst := .discard } else j }
  if k = .Q then { y with rot := { y.rot with
    ops := y.rot.ops.map fun o => match o with
      | .scalar d v => if d = .reg n then .scalar .discard v else o
      | _ => o } }
  else y

/-- The offset of x[n] of a sequencer in the window of scalar registers (R242). -/
def xOffset (k : SeqKind) (n : Nat) : Nat := 512 * k.code + 8 * n

/-- Write x[n] of the current sequencer: no earlier result reaches it, its word is clean, and its line takes the tag of the
task's block (R97, R249, R250). -/
def State.setX (s : State) (n : Nat) (v : Word) : State :=
  let c := s.cur.core
  let k := s.cur.seq
  let s1 := if s.regPending n then s.modCtx c fun x => x.supersede k n else s
  markOwn c 4 (xOffset k n) 8 s.seq.trcb (s1.modSeq s.cur fun q => q.setX n v)

/-- The marks and the tag of a register that a unit writes for a stream, of the resident context or of the one in the
understory (R249, R250; log 26). -/
def markDst (core : Nat) (k : SeqKind) (resident : Bool) (d : Dst) (rcb : Nat) (s : State) : State :=
  match d with
  | .reg n =>
    let a := chipAddr core 4 (xOffset k n) + if resident then 0 else underBase
    markOwner rcb a 8 (markWrite core k.code a 8 s)
  | _ => s

/-- The entries of a token queue of the running core (R100). -/
def State.tokens (s : State) (k : Nat) : List Word := Tab.get [] (s.ctx s.cur.core).tq k
/-- Replace a token queue of a core. -/
def State.setTokens (s : State) (core k : Nat) (l : List Word) : State :=
  s.modCtx core fun x => { x with tq := Tab.set [] x.tq k l }

/-- The gang rule of R100: a scalar operand that names a token queue outside a gang traps with the code. -/
def gangCheck (code : Nat) : M Unit := fun s =>
  if s.seq.gangn ≤ 1 then trap Cause.illegalOperand (BitVec.ofNat 64 code) s else .ok ((), s)

/-- Checks of one source at issue: the gang rule, an earlier writer in progress, and the register's word (R249). -/
def issueSrc : Src → M Unit
  | .queue n => gangCheck (48 + n)
  | .reg n => fun s =>
    if s.regPending n then block s
    else readOwn s.cur.core 4 (xOffset s.cur.seq n) 8 s
  | _ => pure ()

/-- Whether it is the turn of the current sequencer to pop a queue: no operation holds its head, and no sequencer before this
one in the order K, V, M, Q waits to pop and finds what it needs there (R101, R102). -/
def State.popFirst (s : State) (n : Nat) : Bool :=
  !(s.ctx s.cur.core).holds n && !s.tokenBehind 13 s.cur.core s.cur.seq.code n (s.tokens n).length

/-- Checks of a destination at issue; it blocks while a queue is full, entries that the instruction itself
pops not counted (R76, R101). -/
def issueDst (pops : List Nat) : Dst → M Unit
  | .queue n => do
    gangCheck (48 + n)
    fun s => if (pendingDst (s.ctx s.cur.core) s.cur.seq).contains (.queue n) then block s else .ok ((), s)
    fun s =>
      if 16 ≤ (s.tokens n).length - (pops.filter (· == n)).length ∨ s.pushTurn s.cur.core s.cur.seq.code n = false then
        blockOn 14 (tokenKey s.cur.core n) 0 s
      else .ok ((), s)
  | _ => pure ()

/-- Whether every queue holds the entries that the sources pop from it (R76, R101). -/
def poppable (s : State) (pops : List Nat) : Bool :=
  pops.all fun n => decide ((pops.filter (· == n)).length ≤ (s.tokens n).length)

/-- Whether it is the turn of the instruction to pop each of the queues (R101). -/
def popTurn (s : State) (pops : List Nat) : Bool := pops.all s.popFirst

/-- The queue for whose entries an instruction waits. -/
def popWait (s : State) (pops : List Nat) : Option (Nat × Nat × Nat) :=
  (pops.find? fun n => !poppable s (pops.filter (· == n)) || !popTurn s [n]).map fun n =>
    (13, tokenKey s.cur.core n, (pops.filter (· == n)).length)

/-- An instruction blocks until it can pop every entry that its sources name. -/
def issuePops (pops : List Nat) : M Unit := fun s =>
  if poppable s pops && popTurn s pops then .ok ((), s) else stop (.block (popWait s pops)) s

/-- Check every operand of an instruction before it begins (R76, R100). -/
def issueSrcs : List Src → M Unit
  | [] => pure ()
  | a :: t => do issueSrc a; issueSrcs t

/-- Issue an instruction: its sources are checked in their order, then its destination. Of several queue codes outside a
gang the first of a, b, d is the one that TVAL holds, and this check comes before those of the instruction's own (R98,
R100; DESIGN CHOICE, log 62). -/
def issue (srcs : List Src) (d : Dst) : M Unit := do
  issueSrcs srcs
  issueDst (Src.queues srcs) d
  issuePops (Src.queues srcs)

/-- Read a scalar source; a queue is popped (R76). -/
def readSrc : Src → M Word
  | .reg n => fun s => .ok (s.xreg n, s)
  | .queue n => fun s =>
    match s.tokens n with
    | [] => block s
    | v :: t => .ok (v, s.setTokens s.cur.core n t)
  | a => pure a.const

/-- A later instruction is to write d: the results of the earlier writers of that register no longer reach it (R97). -/
def Context.claim (x : Context) (k : SeqKind) (d : Dst) : Context :=
  match d with
  | .reg n => x.supersede k n
  | _ => x
def claimDst (d : Dst) : M Unit := modS fun s => s.modCtx s.cur.core fun x => x.claim s.cur.seq d

/-- The entries that an instruction has popped stay in their queues until it can no longer trap (R102). -/
def keepTokens (x : Context) : M Unit := modS fun s => s.modCtx s.cur.core fun y => { y with tq := x.tq }

/-- Write a scalar destination; a queue is pushed, code 56 discards (R76). -/
def writeDst (d : Dst) (v : Word) : M Unit :=
  match d with
  | .reg n => modS fun s => s.setX n v
  | .queue n => modS fun s => s.setTokens s.cur.core n (s.tokens n ++ [v])
  | .discard => pure ()

/-- Read a destination field as a source (R106 for register or zero; ST, STR, WRS and POSTR pop a queue). -/
def readDst : Dst → M Word
  | .reg n => readSrc (.reg n)
  | .queue n => readSrc (.queue n)
  | .discard => pure 0

/-- An instruction whose body takes no target: check its operands, run the body, go on. -/
def scalarOp (srcs : List Src) (d : Dst) (body : M Unit) (s : State) : Host.Outcome State Fault Refusal :=
  runPipe (lenOf srcs) (do issue srcs d; body; pure none) s

/-- An instruction that computes d from two sources. -/
def binOp (d : Dst) (a b : Src) (f : Word → Word → Word) (s : State) : Host.Outcome State Fault Refusal :=
  scalarOp [a, b] d (do let x ← readSrc a; let y ← readSrc b; writeDst d (f x y)) s

/-- An instruction that computes d from one source. -/
def unOp (d : Dst) (a : Src) (f : Word → Word) (s : State) : Host.Outcome State Fault Refusal :=
  scalarOp [a] d (do let x ← readSrc a; writeDst d (f x)) s

/-- An instruction that computes d from two sources and d itself (R106). -/
def terOp (d : Dst) (a b : Src) (f : Word → Word → Word → Word) (s : State) : Host.Outcome State Fault Refusal :=
  scalarOp [a, b, d.readBack] d (do let x ← readSrc a; let y ← readSrc b; let z ← readDst d; writeDst d (f x y z)) s

end Sys2Proof.Machine
end

