-- ==== Sys2Proof/Machine/Records.lean ====
section
/-! DEFINITION. The fields of task records, boxes and regions, the geometry of a region, overlap, the
bytes that a box covers (R313 to R320, R335). -/

namespace Sys2Proof.Machine

/-! ## Task records (R316) -/

/-- The words of a record, as fields. -/
abbrev TaskRec := BitVec 2560

def recKind (r : TaskRec) : Nat := fld r 0 3
def recGang (r : TaskRec) : Bool := bit r 3
def recAff (r : TaskRec) : Nat := fld r 4 2
def recCore (r : TaskRec) : Nat := fld r 6 4
def recMig (r : TaskRec) : Bool := bit r 10
def recEarly (r : TaskRec) : Bool := bit r 11
def recSlip (r : TaskRec) : Nat := fld r 12 5
def recNbox (r : TaskRec) : Nat := fld r 17 3
def recNpred (r : TaskRec) : Nat := fld r 20 3
def recVbox (r : TaskRec) : Nat := fld r 23 3
def recRcb (r : TaskRec) : Nat := fld r 32 10
def recEntry (r : TaskRec) : Word := BitVec.ofNat 64 (fld r 64 64)
def recArg (r : TaskRec) : Word := BitVec.ofNat 64 (fld r 128 64)
def recPred (r : TaskRec) (i : Nat) : Nat := fld r (192 + 32 * i) 32
/-- Explicit predecessors in use. -/
def recPreds (r : TaskRec) : List Nat := (List.range (recNpred r)).map (recPred r)

/-! ## Boxes (R317) -/

/-- A box of a record with its slot number. -/
structure Box where
  slot : Nat
  region : Nat
  mode : Nat
  ren : Bool
  lo : List Nat
  hi : List Nat
  reserved : Bool
deriving DecidableEq, Repr

/-- The bit at which box `k` begins. -/
def boxAt (k : Nat) : Nat := 512 + 320 * k

/-- Box `k` of a record. -/
def recBox (r : TaskRec) (k : Nat) : Box :=
  { slot := k, region := fld r (boxAt k) 7, mode := fld r (boxAt k + 8) 2, ren := bit r (boxAt k + 10),
    lo := (List.range 4).map fun d => fld r (boxAt k + 64 + 64 * d) 32,
    hi := (List.range 4).map fun d => fld r (boxAt k + 96 + 64 * d) 32,
    reserved := bit r (boxAt k + 7) || fld r (boxAt k + 11) 5 != 0 || fld r (boxAt k + 16) 48 != 0 }

/-- The boxes of a record that are in use. -/
def recBoxes (r : TaskRec) : List Box := (List.range (recNbox r)).map (recBox r)

/-- R, RW and ACC boxes read; W, RW and ACC boxes write (R317). -/
def Box.reads (b : Box) : Bool := b.mode != 1
def Box.writes (b : Box) : Bool := b.mode != 0

/-- Entry `d` of a list of numbers. -/
def at' (l : List Nat) (d : Nat) : Nat := l.getD d 0
def atZ (l : List Int) (d : Nat) : Int := l.getD d 0

/-- Empty under rank `rank` (R317). -/
def Box.isEmpty (b : Box) (rank : Nat) : Bool := (List.range rank).any fun d => at' b.lo d == at' b.hi d

/-! ## Region descriptors (R313, R314) -/

abbrev RegDesc := BitVec 512

def rdBase (r : RegDesc) : Word := BitVec.ofNat 64 (fld r 0 64)
def rdId (r : RegDesc) : Nat := fld r 64 7
def rdSpace (r : RegDesc) : Nat := fld r 72 2
def rdRank (r : RegDesc) : Nat := fld r 80 8
def rdVer (r : RegDesc) : Nat := fld r 88 8
def rdEsize (r : RegDesc) : Nat := fld r 96 8
def rdCore (r : RegDesc) : Nat := fld r 104 8
def rdGrove (r : RegDesc) : Nat := fld r 112 8
def rdAlias (r : RegDesc) : Nat := fld r 120 8
def rdExt (r : RegDesc) (d : Nat) : Nat := fld r (128 + 32 * d) 32
def rdStride (r : RegDesc) (d : Nat) : Int := sextInt 32 (fld r (256 + 32 * d) 32)
def rdVstride (r : RegDesc) : Nat := fld r 384 64

/-- lo_off and hi_off of R314. -/
def rdLoOff (r : RegDesc) : Int :=
  ((List.range (rdRank r)).map fun d => min 0 (((rdExt r d : Int) - 1) * rdStride r d)).sum
def rdHiOff (r : RegDesc) : Int :=
  ((List.range (rdRank r)).map fun d => max 0 (((rdExt r d : Int) - 1) * rdStride r d)).sum + rdEsize r
/-- vsize of R314. -/
def rdVsize (r : RegDesc) : Nat :=
  if rdVstride r ≠ 0 then rdVstride r else ((rdHiOff r - rdLoOff r).toNat + 255) / 256 * 256
/-- span of R314, first byte and end. -/
def rdSpan (r : RegDesc) : Int × Int :=
  (rdBase r).toNat + rdLoOff r |> fun lo =>
    (lo, (rdBase r).toNat + ((rdVer r : Int) - 1) * rdVsize r + rdHiOff r)

/-- Whether a descriptor is malformed (R313, R314). -/
def rdMalformed (r : RegDesc) : Bool :=
  let rank := rdRank r
  let above := (List.range 4).filter fun d => decide (rank ≤ d)
  let below := List.range rank
  let chip := rdSpace r != 2
  let lim : Int := if rdSpace r = 1 then 0x40000 else 0x100000
  bit r 71 || fld r 74 6 != 0 || rdSpace r == 3 || rank == 0 || decide (4 < rank) ||
  rdVer r == 0 || decide (4 < rdVer r) || !([1, 2, 4, 8].contains (rdEsize r)) ||
  (rdSpace r == 1 && rdEsize r != 4) ||
  (chip && (decide (16 < rdCore r) || decide (96 < rdGrove r) || (rdCore r == 16 && rdGrove r != 0))) ||
  (!chip && (rdCore r != 0 || rdGrove r != 0)) ||
  (above.any fun d => rdExt r d != 0 || rdStride r d != 0) || (below.any fun d => rdExt r d == 0) ||
  fld r 448 64 != 0 ||
  (below.any fun d => rdStride r d % (rdEsize r : Int) != 0) || (rdBase r).toNat % rdEsize r != 0 ||
  (rdVstride r != 0 && decide ((rdVstride r : Int) < rdHiOff r - rdLoOff r)) ||
  (chip && (decide ((rdSpan r).1 < 0) || decide (lim < (rdSpan r).2)))

/-- The global core that holds an on-chip region of the table of grove `g` (R313); REGDEF has put the
defining core in place of `self`. -/
def Region.core (x : Region) (g : Nat) : Nat :=
  (if rdGrove x.desc = 0 then g else rdGrove x.desc - 1) * 16 + rdCore x.desc

/-- The address of element (0, …, 0) of version `v` (R314). -/
def rdBox (r : RegDesc) (v : Nat) : Int := (rdBase r).toNat + (v : Int) * rdVsize r

/-- The byte hull of a box bound to version `v` (R335); none for an empty box. -/
def Box.hull (b : Box) (r : RegDesc) (v : Nat) : Option (Int × Int) :=
  if b.isEmpty (rdRank r) then none
  else
    let term (f : Int → Int → Int) (d : Nat) : Int :=
      f ((at' b.lo d : Int) * rdStride r d) (((at' b.hi d : Int) - 1) * rdStride r d)
    let lo := ((List.range (rdRank r)).map (term min)).sum
    let hi := ((List.range (rdRank r)).map (term max)).sum
    some (rdBox r v + lo, rdBox r v + hi + rdEsize r)

/-! ## Regions, windows and boxes of a grove -/

def Grove.region (g : Grove) (n : Nat) : Option Region := Tab.find g.regions n
def Grove.entry (g : Grove) (n : Nat) : Option Entry := Tab.find g.window n
def Grove.setEntry (g : Grove) (n : Nat) (e : Entry) : Grove := { g with window := Tab.put g.window n e }
def Grove.modEntry (g : Grove) (n : Nat) (f : Entry → Entry) : Grove :=
  match g.entry n with
  | some e => g.setEntry n (f e)
  | none => g
/-- The window entry of a task. -/
def State.entryOf (s : State) (t : TaskRef) : Option Entry := (s.grove t.grove).entry t.slot
def State.modEntry (s : State) (t : TaskRef) (f : Entry → Entry) : State :=
  s.modGrove t.grove fun g => g.modEntry t.slot f

/-- The version that box `k` of an entry is bound to (R323). -/
def Entry.bind (e : Entry) (k : Nat) : Nat := at' e.binds k

/-- Malformed box for a region (R317), renamings of the record apart. -/
def Box.malformed (b : Box) (r : RegDesc) : Bool :=
  let rank := rdRank r
  b.reserved || (b.ren && b.mode != 1) ||
  ((List.range rank).any fun d => decide (at' b.hi d < at' b.lo d) || decide (rdExt r d < at' b.hi d)) ||
  ((List.range 4).any fun d => decide (rank ≤ d) && (at' b.lo d != 0 || at' b.hi d != 0))

/-- overlap(a, b) of R320, with the regions and the bound versions. -/
def overlap (g : Grove) (a : Box) (va : Nat) (b : Box) (vb : Nat) : Bool :=
  match g.region a.region, g.region b.region with
  | some ra, some rb =>
    if a.isEmpty (rdRank ra.desc) || b.isEmpty (rdRank rb.desc) then false
    else if a.region = b.region then
      va == vb && (List.range (rdRank ra.desc)).all fun d =>
        decide (at' a.lo d < at' b.hi d) && decide (at' b.lo d < at' a.hi d)
    else rdAlias ra.desc != 0 && rdAlias ra.desc == rdAlias rb.desc
  | _, _ => false

end Sys2Proof.Machine
end

