-- ==== Sys2Proof/Machine/Memory.lean ====
section
/-! DEFINITION. Memory: the address classes, the windows of the on-chip map, sync space, translation,
the checks of an access in their order, reading and writing with error marks, owner tags and stored-size
codes (R239 to R251, R271 to R283, R335, R401 to R409). -/

namespace Sys2Proof.Machine

/-! ## Who accesses, and how -/

/-- The agent of an access (R284): its core, block and tenant, and the task whose footprint is checked. -/
structure Agent where
  core : Nat
  rcb : Nat
  tenant : Nat
  det : Bool
  task : Option TaskRef
  /-- it arrives from another device (R243) -/
  remote : Bool
  /-- source code of R434 -/
  source : Nat
  /-- the stream, when the agent is one (R248) -/
  by_ : Option Stream
  /-- it is the matrix array, whose walks are not those of M's scalar pipe (R279) -/
  array : Bool := false
  /-- it reads a record for the device: no box covers that (R335) -/
  free : Bool := false
deriving DecidableEq, Repr

/-- What an access does (R275). `prof` is the store of QZST (R444). -/
inductive Rw where
  | fetch | read | write | atomic | prof
deriving DecidableEq, Repr

/-- The form of an access (R242). -/
inductive Via where
  /-- a scalar access of 1, 2, 4 or 8 bytes -/
  | scalar
  /-- WAITA (R257) -/
  | wait
  /-- VST and VSTR, which may push a vector port -/
  | tile
  /-- the other general vector forms, and images that instructions read -/
  | vector
  /-- VLDA and VSTA -/
  | accum
  /-- a piece of a copy channel or the transpose unit -/
  | engine
  /-- a piece of a remote-memory-class operation -/
  | remote
deriving DecidableEq, Repr

/-- An access that fails: cause, TVAL, and words whose error it detects (R249). -/
structure Fail where
  cause : Nat
  tval : Word
  words : List Nat
deriving DecidableEq, Repr

def Fail.of (cause : Nat) (a : Nat) : Fail := { cause := cause, tval := BitVec.ofNat 64 a, words := [] }

/-- A place that an access has been admitted to: an address on the host bus or in the device, the page
entry (0 for a physical address), and the program's address. -/
structure Place where
  host : Bool
  addr : Nat
  pte : Word
  prog : Nat
deriving DecidableEq, Repr

/-- The name of an agent among those that wait for walks. -/
def Agent.who (ag : Agent) : Who := { core := ag.core, source := ag.source, by_ := if ag.array then none else ag.by_ }

/-- Whether the accesses of an agent walk on their own: it is no engine of a grove (R278; log 17). -/
def Agent.ownWalk (ag : Agent) : Bool := ag.remote || decide (9 ≤ ag.source)

/-- The agent of a stream's accesses. -/
def State.agentOf (s : State) (st : Stream) : Agent :=
  let q := s.seqOf st
  { core := st.core, rcb := q.trcb, tenant := s.tenantOf q.trcb, det := q.detm, task := q.task,
    remote := false, source := st.seq.code, by_ := some st }

/-- The agent of work that a unit of a core does for a task or an instruction (R434). -/
def State.unitAgent (s : State) (core rcb source : Nat) (det : Bool) (task : Option TaskRef) : Agent :=
  { core := core, rcb := rcb, tenant := s.tenantOf rcb, det := det, task := task, remote := false,
    source := source, by_ := none }

/-! ## Ranges -/

/-- The lowest byte of [cur, stop) that no interval [lo, hi) of the list covers. -/
def gapFrom (iv : List (Nat × Nat)) : Nat → Nat → Nat → Option Nat
  | 0, cur, stop => if stop ≤ cur then none else some cur
  | fuel + 1, cur, stop =>
    if stop ≤ cur then none
    else match iv.find? fun w => decide (w.1 ≤ cur) && decide (cur < w.2) with
      | none => some cur
      | some w => gapFrom iv fuel w.2 stop

/-- The lowest byte of [lo, lo + n) outside every interval. -/
def gapIn (iv : List (Nat × Nat)) (lo n : Nat) : Option Nat := gapFrom iv (iv.length + 1) lo (lo + n)

/-- The enabled on-chip windows of a tenant as byte intervals (R404). -/
def Tenant.ocw (t : Tenant) : List (Nat × Nat) :=
  (List.range 8).filterMap fun k =>
    let lo := Tab.get 0 t.ocwLo k
    if bit lo 0 then some (fld lo 8 40 * 256, fld (Tab.get 0 t.ocwHi k) 8 40 * 256 + 256) else none

/-- The enabled HBM windows of a tenant as byte intervals (R404). -/
def Tenant.hbw (t : Tenant) : List (Nat × Nat) :=
  (List.range 8).filterMap fun k =>
    let lo := Tab.get 0 t.hbwLo k
    if bit lo 0 then some (fld lo 16 32 * 65536, fld (Tab.get 0 t.hbwHi k) 16 32 * 65536 + 65536) else none

/-- The sync window of a tenant in a glade, as byte offsets (R408). -/
def Tenant.syncWin (t : Tenant) (g : Nat) : List (Nat × Nat) :=
  [((Tab.get 0 t.syncLo g).toNat * 64, (Tab.get 0 t.syncHi g).toNat * 64 + 64)]

/-! ## Bytes of the device -/

/-- Byte `o` of a number. -/
def byteAt (x o : Nat) : Byte := BitVec.ofNat 8 (x / 2 ^ (8 * o))
/-- A number with byte `o` replaced. -/
def setByteAt (x o : Nat) (b : Byte) : Nat := putBits x (8 * o) 8 b.toNat

/-- A byte of the on-chip map (R242). -/
def chipByte (s : State) (pa : Nat) : Byte :=
  let k := s.core (chipCore pa)
  let off := pa % 2 ^ 24
  match pa / 2 ^ 24 % 16 with
  | 1 =>
    if off < 0x18000 then byteAt (Tab.get 0 k.ctx.v (off / 2048)).toNat (off % 2048)
    else byteAt (Tab.get 0 k.ctx.p ((off - 0x18000) / 256)).toNat (off % 256)
  | 2 => byteAt (Tab.get 0 k.ctx.mx.acc (off / 128)).toNat (off % 128)
  | 4 => byteAt (Tab.get 0 (k.ctx.seq (SeqKind.ofCode (off / 512))).x (off % 512 / 8)).toNat (off % 8)
  | 6 =>
    if off < 0x400 then byteAt (Tab.get 0 k.ring (off / 64)).toNat (off % 64)
    else byteAt (Tab.get 0 k.handles ((off - 0x400) / 8)).toNat (off % 8)
  | _ => Tab.get 0 s.mem pa

/-- A table of vectors with one byte of entry `k` replaced. -/
def setTabByte {w : Nat} (t : Tab (BitVec w)) (k o : Nat) (b : Byte) : Tab (BitVec w) :=
  Tab.set 0 t k (BitVec.ofNat w (setByteAt (Tab.get 0 t k).toNat o b))

/-- Write a byte of the on-chip map: kinds 0 to 4 (R242). -/
def setChipByte (s : State) (pa : Nat) (b : Byte) : State :=
  let c := chipCore pa
  let off := pa % 2 ^ 24
  match pa / 2 ^ 24 % 16 with
  | 1 =>
    if off < 0x18000 then s.modCtx c fun x => { x with v := setTabByte x.v (off / 2048) (off % 2048) b }
    else s.modCtx c fun x => { x with p := setTabByte x.p ((off - 0x18000) / 256) (off % 256) b }
  | 2 => s.modCtx c fun x => { x with mx := { x.mx with acc := setTabByte x.mx.acc (off / 128) (off % 128) b } }
  | 4 =>
    let q := SeqKind.ofCode (off / 512)
    s.modCtx c fun x => x.setSeq q { x.seq q with x := setTabByte (x.seq q).x (off % 512 / 8) (off % 8) b }
  | _ => { s with mem := Tab.set 0 s.mem pa b }

/-- Where the contents of a sync-space byte stand: `none` for the engine's SRAM, else the HBM address in
the overflow area, for a backed line that is not held in SRAM (R407, R408). -/
def syncHome (s : State) (g off : Nat) : Option Nat :=
  if off < 0x1000000 then none
  else if (s.glade g).cached.contains (off / 64) then none
  else some ((s.glade g).ovBase.toNat + (off - 0x1000000))

def syncByte (s : State) (g off : Nat) : Byte :=
  match syncHome s g off with
  | none => Tab.get 0 (s.glade g).sync off
  | some a => Tab.get 0 s.mem a

def setSyncByte (s : State) (g off : Nat) (b : Byte) : State :=
  match syncHome s g off with
  | none => s.modGlade g fun k => { k with sync := Tab.set 0 k.sync off b }
  | some a => { s with mem := Tab.set 0 s.mem a b }

/-- A byte at a device physical address. -/
def devByte (s : State) (pa : Nat) : Byte :=
  if pa < Config.hbmEnd then Tab.get 0 s.mem pa
  else if Config.syncBase ≤ pa then syncByte s (pa / 2 ^ 32 % 8) (pa % 2 ^ 32)
  else chipByte s pa

/-- Write a byte at a device physical address. -/
def setDevByte (s : State) (pa : Nat) (b : Byte) : State :=
  if pa < Config.hbmEnd then { s with mem := Tab.set 0 s.mem pa b }
  else if Config.syncBase ≤ pa then setSyncByte s (pa / 2 ^ 32 % 8) (pa % 2 ^ 32) b
  else setChipByte s pa b

/-- Read bytes at rising device physical addresses. -/
def devBytes (s : State) (pa n : Nat) : List Byte := (List.range n).map fun j => devByte s (pa + j)

/-- Write bytes at rising device physical addresses. -/
def setDevBytes (s : State) (pa : Nat) : List Byte → State
  | [] => s
  | b :: t => setDevBytes (setDevByte s pa b) (pa + 1) t

/-- Bytes of host memory. -/
def hostBytes (s : State) (a n : Nat) : List Byte := (List.range n).map fun j => Tab.get 0 s.hostMem (a + j)

/-! ## Writing with marks, tags and codes -/

/-- The stored-size code of a sector (R282). -/
def sectorCode (cmp : Bool) (bytes : List Byte) : Nat :=
  if !cmp then 3
  else if bytes.all (· == 0) then 0
  else if Config.fits8 bytes then 1
  else if Config.fits16 bytes then 2
  else 3

/-- The metadata lines of [a, a + n) that the base die's cache does not hold (R283). -/
def State.metaMisses (s : State) (a n : Nat) : List Nat :=
  ((List.range ((a + n - 1) / 4096 - a / 4096 + 1)).map (a / 4096 + ·)).filter fun l =>
    !(Tab.get [] s.msys.metas (a / 0xC00000000)).contains l

/-- A request reads the metadata lines that it misses, 32 bytes each; which lines leave the cache for them is open (R283;
log 58). -/
def touchMetas (a n : Nat) (s : State) : State :=
  let l := s.metaMisses a n
  let g := a / 0xC00000000
  let s1 := count (192 * g) 0x81 (32 * l.length) s
  let held := Tab.get [] s1.msys.metas g
  { s1 with msys := { s1.msys with
      metas := if l.isEmpty then s1.msys.metas
        else Tab.set [] s1.msys.metas g (held.filter (Config.metaKeeps s.fresh) ++ l) } }

/-- The bytes that DRAM moves for a sector of a stored-size code (R282). -/
def codeBytes (code : Nat) : Nat := match code with | 0 => 0 | 1 => 8 | 2 => 16 | _ => 32

/-- A write of part of a sector reads that sector first: the bytes that DRAM moves for it (R282, R426). -/
def State.mergeBytes (s : State) (a n : Nat) : Nat :=
  ((List.range ((a + n - 1) / 32 - a / 32 + 1)).map fun j =>
    let b := 32 * (a / 32 + j)
    if b < a ∨ a + n < b + 32 then codeBytes (Tab.get 3 s.comp (a / 32 + j)) else 0).sum

/-- The codes of the HBM sectors that a write of [a, a + n) touches (R282). -/
def markSectors (cmp : Bool) (a n : Nat) (s : State) : State :=
  if Config.hbmEnd ≤ a ∨ n = 0 then s
  else
    let code (j : Nat) : Nat := sectorCode cmp (devBytes s (32 * (a / 32 + j)) 32)
    let sectors := List.range ((a + n - 1) / 32 - a / 32 + 1)
    touchMetas a n { count (a / 0xC00000000 * 192) 0x81 (s.mergeBytes a n) s with
      comp := sectors.foldl (fun t j => Tab.set 3 t (a / 32 + j) (code j)) s.comp }

/-- Where the contents, the marks and the codes of a range stand: a line of sync space that is not in the engine's SRAM
stands in the overflow area (R408). -/
def State.standsAt (s : State) (pa : Nat) : Nat :=
  if Config.syncBase ≤ pa then (syncHome s (pa / 2 ^ 32 % 8) (pa % 2 ^ 32)).getD pa else pa

/-- A change of a line of sync space: the blocked instructions on its object (kind 1) or its words (kind 10) are attempted
again (R409, R414); of a barrier object in a cycle the change is what the cycle's end leaves (R411). -/
def wakeLine (pa : Nat) (s : State) : State :=
  if Config.syncBase ≤ pa ∧ (s.barCycle.any fun c => c.addr == pa / 64 * 64) = false then
    s.retry fun w => (w.kind == 1 || w.kind == 10) && w.key == pa / 64
  else s

/-- Write bytes in the device: the bytes, the error marks, the owner tags and the sector codes; what waits on a line of sync
space is examined again (R409, R414). -/
def devWrite (ag : Agent) (cmp : Bool) (pa : Nat) (bytes : List Byte) (s : State) : State :=
  let h := s.standsAt pa
  wakeLine pa (markSectors cmp h bytes.length
    (markOwner ag.rcb pa bytes.length (markWrite ag.core ag.source h bytes.length (setDevBytes s pa bytes))))

/-- A write by the device itself, which no task issues: the owner tags stay (R250). -/
def deviceWrite (core source pa : Nat) (bytes : List Byte) (s : State) : State :=
  let h := s.standsAt pa
  wakeLine pa (markSectors false h bytes.length (markWrite core source h bytes.length (setDevBytes s pa bytes)))

/-- The bytes that DRAM moves for a read of HBM, metadata included, and those that it delivers (R282, R283, R426). -/
def countHbm (a n : Nat) (s : State) : State :=
  if Config.hbmEnd ≤ a ∨ n = 0 then s
  else
    let moved := ((List.range ((a + n - 1) / 32 - a / 32 + 1)).map fun j =>
      codeBytes (Tab.get 3 s.comp (a / 32 + j))).sum
    let stack := a / 0xC00000000 * 192
    touchMetas a n (count stack 0x81 moved (count stack 0x82 n s))

/-! ## Translation (R273, R278, R401, R402) -/

/-- The levels of a tree: index shift, index bits, page size of a leaf, size of a table one level down (both
as powers of two; no leaf at level 0, no table below level 3). -/
def walkLevels : List (Nat × Nat × Option Nat × Option Nat) :=
  [(39, 18, none, some 12), (30, 9, some 30, some 12), (21, 9, some 21, some 8), (16, 5, some 16, none)]

/-- A walk from a table on: page size as a power of two and the leaf entry (R402). DESIGN CHOICE (log 64): a root or a table
pointer that names an address outside HBM is followed to whatever the device holds there; the spec does not say what such a
walk reads. -/
def walkFrom (s : State) (ten : Tenant) (va : Nat) :
    List (Nat × Nat × Option Nat × Option Nat) → Nat → Except Fail (Nat × Word)
  | [], _ => .error (.of Cause.notPresent va)
  | (sh, n, leaf, next) :: rest, table =>
    let ea := table + 8 * (va / 2 ^ sh % 2 ^ n)
    match s.firstPoison ea 8 with
    | some _ => .error { cause := Cause.poisonConsumed, tval := BitVec.ofNat 64 va, words := s.badWords ea 8 }
    | none =>
      let e := wordOf (devBytes s ea 8)
      let addr := fld e 8 48 * 256
      if !bit e 0 || fld e 58 6 != 0 then .error (.of Cause.notPresent va)
      else if bit e 1 then
        match leaf with
        | none => .error (.of Cause.notPresent va)
        | some lg =>
          if addr % 2 ^ lg ≠ 0 then .error (.of Cause.notPresent va)
          else if !bit e 57 && (decide (Config.hbmEnd < addr + 2 ^ lg) || (gapIn ten.hbw addr (2 ^ lg)).isSome) then
            .error (.of Cause.notPresent va)
          else .ok (lg, e)
      else
        match next with
        | none => .error (.of Cause.notPresent va)
        | some lg =>
          if bit e 57 || addr % 2 ^ lg != 0 then .error (.of Cause.notPresent va)
          else walkFrom s ten va rest addr

/-- A walk from the tenant's root register (R402, R404). -/
def walk (s : State) (tenant va : Nat) : Except Fail (Nat × Word) :=
  let t := s.tenant tenant
  if bit t.ptroot 0 then walkFrom s t va walkLevels (fld t.ptroot 21 35 * 2 ^ 21)
  else .error (.of Cause.notPresent va)

/-- The entry that a translation cache holds for an address (R278). -/
def tlbFind (l : List TlbEntry) (tenant va : Nat) : Option TlbEntry :=
  l.find? fun e => e.tenant == tenant && e.base == va / 2 ^ e.lg * 2 ^ e.lg

/-- The translation cache of a grove, and the miss table of a glade with what waits for a place in it. -/
def State.tlb (s : State) (g : Nat) : List TlbEntry := Tab.get [] s.msys.tlbs g
def State.missTable (s : State) (d : Nat) : List Miss := Tab.get [] s.msys.misses d
def State.missQueue (s : State) (d : Nat) : List Miss := Tab.get [] s.msys.queued d

/-- The address of the 64 KiB page of an address. -/
def pageOf (va : Nat) : Nat := va / 2 ^ 16 * 2 ^ 16

/-- The size of the page of an address, as a power of two. Where a walk faults there is no page, and each 64 KiB is taken for
itself (DESIGN CHOICE, log 17). -/
def State.pageSize (s : State) (tenant va : Nat) : Nat := match walk s tenant va with | .ok (lg, _) => lg | .error _ => 16

/-- Whether a result of a walk serves an address: a page entry serves its page, a fault the 64 KiB of the access that waited
for it (R279). -/
def WalkAnswer.serves (a : WalkAnswer) (va : Nat) : Bool :=
  match a.result with
  | .entry lg _ => a.va / 2 ^ lg == va / 2 ^ lg
  | .fault _ => a.va == pageOf va

/-- The result of a walk that an agent has received for a page (R279). -/
def State.answerFor (s : State) (ag : Agent) (va : Nat) : Option WalkResult :=
  (s.msys.answers.find? fun a => a.who == ag.who && a.tenant == ag.tenant && a.serves va).map (·.result)

/-- Translate: by the result of a walk that the access was attached to, through the grove's cache, or by a walk; what is no
engine of a grove always walks (R278, R279). -/
def translate (s : State) (ag : Agent) (va : Nat) : Except Fail (Nat × Word) :=
  if ag.ownWalk then walk s ag.tenant va
  else match s.answerFor ag va with
    | some (.entry lg pte) => .ok (lg, pte)
    | some (.fault c) => .error (.of c va)
    | none => match tlbFind (s.tlb (groveOf ag.core)) ag.tenant va with
      | some e => .ok (e.lg, e.pte)
      | none => walk s ag.tenant va

/-- The addresses of the entries that a walk reads, down to the one that ends it (R401, R402). -/
def walkReads (s : State) (va : Nat) : List (Nat × Nat × Option Nat × Option Nat) → Nat → List Nat
  | [], _ => []
  | (sh, n, _, next) :: rest, table =>
    let ea := table + 8 * (va / 2 ^ sh % 2 ^ n)
    let e := wordOf (devBytes s ea 8)
    let addr := fld e 8 48 * 256
    if (s.firstPoison ea 8).isSome || !bit e 0 || bit e 1 || fld e 58 6 != 0 then [ea]
    else match next with
      | none => [ea]
      | some lg => if bit e 57 || addr % 2 ^ lg != 0 then [ea] else ea :: walkReads s va rest addr

/-- A walk of a glade ends: it is counted, and so are the bytes that it has read (R279, R426). -/
def countWalk (glade tenant va : Nat) (s : State) : State :=
  let t := s.tenant tenant
  let l := if bit t.ptroot 0 then walkReads s va walkLevels (fld t.ptroot 21 35 * 2 ^ 21) else []
  count (192 * glade) 0x80 1 (l.foldl (fun u ea => countHbm ea 8 u) s)

/-- Install an entry: a full cache loses its oldest entry (R270; log 17). -/
def tlbInstall (g tenant va lg : Nat) (pte : Word) (s : State) : State :=
  let e : TlbEntry := { tenant := tenant, base := va / 2 ^ lg * 2 ^ lg, lg := lg, pte := pte }
  let l := s.tlb g
  { s with msys := { s.msys with tlbs := Tab.set [] s.msys.tlbs g ((l ++ [e]).drop (l.length + 1 - 2048)) } }

/-- Whether a miss table entry is that of a tenant and of the page of size 2 ^ `lg` at an address (R278). -/
def Miss.isFor (m : Miss) (tenant lg va : Nat) : Bool := m.tenant == tenant && m.va / 2 ^ lg == va / 2 ^ lg
/-- The miss table's entry of a page, and that of the misses that wait for a place in it, is found by `isFor` with the size of
the page. -/
def State.isMissOf (s : State) (tenant va : Nat) (m : Miss) : Bool := m.isFor tenant (s.pageSize tenant va) va

/-- The size of a miss table, and the number of walkers of a glade (R270, R279). -/
def missSlots : Nat := 256
def walkers : Nat := 64

/-- The entries of a page leave the miss table of a glade, and misses that wait enter it in order of arrival (R278). -/
def MemSys.leaveTable (d : Nat) (mine : Miss → Bool) (m : MemSys) : MemSys :=
  let l := (Tab.get [] m.misses d).filter fun e => !mine e
  let q := Tab.get [] m.queued d
  let k := missSlots - l.length
  { m with misses := Tab.set [] m.misses d (l ++ q.take k), queued := Tab.set [] m.queued d (q.drop k) }

/-- What a walk gives. -/
def walkResult (r : Except Fail (Nat × Word)) : WalkResult :=
  match r with
  | .ok (lg, pte) => .entry lg pte
  | .error f => .fault f.cause

/-- A walk of a glade ends: its entry leaves the miss table, every access attached to it but `self` receives the result, and
a valid result goes into the cache of every grove that waits on it; a fault result is not cached (R279). A walk that reads
a word in error detects it (R249). -/
def finishWalk (glade tenant va : Nat) (groves : List Nat) (self : Option Who) (s : State) : State :=
  let mine := (s.missTable glade).filter (s.isMissOf tenant va)
  let all := (mine.flatMap (·.groves) ++ groves).eraseDups
  let r := walk s tenant va
  let given : List WalkAnswer := ((mine.flatMap (·.who)).filter fun w => some w.1 != self).map fun w =>
    { who := w.1, tenant := tenant, va := w.2, result := walkResult r }
  let s1 := countWalk glade tenant va s
  let s2 : State := { s1 with msys := { s1.msys.leaveTable glade (s.isMissOf tenant va) with answers := s1.msys.answers ++ given } }
  match r with
  | .error f => f.words.foldl (detectWord (192 * glade) 11) s2
  | .ok (lg, pte) => all.foldl (fun t g => tlbInstall g tenant va lg pte t) s2

/-- Whether an access misses: it has no result of a walk, and the grove's cache no entry (R278). -/
def State.misses (s : State) (ag : Agent) (va : Nat) : Bool :=
  !ag.ownWalk && (s.answerFor ag va).isNone && (tlbFind (s.tlb (groveOf ag.core)) ag.tenant va).isNone

/-- What a translation leaves: an access that misses attaches to the walk of its page, or has a walk of its own, and the
walk ends with it (R278, R279; log 17). What is no engine of a grove always walks. -/
def tlbFill (ag : Agent) (va : Nat) (s : State) : State :=
  if ag.ownWalk then countWalk (gladeOf ag.core) ag.tenant va s
  else if s.misses ag va then
    let known := (s.missTable (gladeOf ag.core)).any fun m => s.isMissOf ag.tenant va m && m.groves.contains (groveOf ag.core)
    finishWalk (gladeOf ag.core) ag.tenant va [groveOf ag.core] (some ag.who)
      (if known then s else count ag.core 0x42 1 s)
  else s

/-- Whether a miss has no walker yet: 64 walks of the glade run, assigned in the order of the miss table, and the page's
own entry is not among them (R279). -/
def State.walkersBusy (s : State) (ag : Agent) (va : Nat) : Bool :=
  s.misses ag va &&
    let ms := s.missTable (gladeOf ag.core)
    decide (walkers ≤ ms.length) && !(ms.take walkers).any (s.isMissOf ag.tenant va)

/-- A miss of a grove, with the access that waits on it, joins an entry of its page. -/
def Miss.join (g : Nat) (w : List (Who × Nat)) (m : Miss) : Miss :=
  { m with groves := if m.groves.contains g then m.groves else m.groves ++ [g]
           who := m.who ++ w.filter fun x => !m.who.contains x }

/-- A miss enters the miss table of the glade, or attaches to the walk of the same tenant and page; while the table is full
it waits, and misses that wait enter in order of arrival (R278). `w` names the accesses that wait for the result. -/
def enterMiss (ag : Agent) (w : List Who) (va : Nat) (s : State) : State :=
  let g := groveOf ag.core
  let d := gladeOf ag.core
  let l := s.missTable d
  let q := s.missQueue d
  let mine := s.isMissOf ag.tenant va
  let own := w.map fun x => (x, pageOf va)
  let join (x : List Miss) : List Miss := x.map fun m => if mine m then m.join g own else m
  let m : Miss := { tenant := ag.tenant, va := pageOf va, groves := [g], who := own }
  let s1 := if (l ++ q).any fun m => mine m && m.groves.contains g then s else count ag.core 0x42 1 s
  let (l', q') := if (l ++ q).any mine then (join l, join q)
    else if l.length < missSlots ∧ q = [] then (l ++ [m], q) else (l, q ++ [m])
  { s1 with msys := { s1.msys with misses := Tab.set [] s1.msys.misses d l', queued := Tab.set [] s1.msys.queued d q' } }

/-- Whether the miss of a page waits for a place in the table (R278). -/
def State.missQueued (s : State) (ag : Agent) (va : Nat) : Bool :=
  !(s.missTable (gladeOf ag.core)).any (s.isMissOf ag.tenant va)

/-- The wait of a miss without a walker, in the table or for a place in it (R278, R279). -/
def waitWalker {α : Type} (ag : Agent) (va : Nat) : M α := fun s =>
  blockOn walkWait (gladeOf ag.core) 0 (enterMiss ag [ag.who] va s)

/-- The page entry of an address as an access of an agent finds it, none where the walk faults; a miss is any access's (R278,
R279). -/
def pageEntry (ag : Agent) (va : Nat) : M (Option Word) := fun s =>
  if s.walkersBusy ag va then waitWalker ag va s
  else .ok ((match translate s ag va with | .ok (_, pte) => some pte | .error _ => none), tlbFill ag va s)

/-! ## The checks of an access (R240 to R245, R275, R335, R407 to R409) -/

/-- Permission by a page entry (R275 step 4, R277, R444); in deterministic mode a read of a PROF page escapes. -/
def permit (ag : Agent) (rw : Rw) (pte : Word) (va : Nat) : Except Fail Unit :=
  let writes := rw == .write || rw == .atomic || rw == .prof
  let reads := rw == .read || rw == .atomic
  if rw == .fetch && !bit pte 4 then .error (.of Cause.execProtect va)
  else if rw == .read && !bit pte 2 then .error (.of Cause.readProtect va)
  else if writes && bit pte 6 then .error (.of Cause.copyOnWrite va)
  else if writes && !bit pte 3 then .error (.of Cause.writeProtect va)
  else if rw == .atomic && !bit pte 2 then .error (.of Cause.readProtect va)
  else if reads && bit pte 56 && ag.det then .error (.of Cause.detEscape va)
  else if rw == .prof && !bit pte 56 then .error (.of Cause.profRequired va)
  else .ok ()

/-- Bytes that a task's boxes cover in a window of a core (R335). -/
def hullsOf (s : State) (t : TaskRef) (core space : Nat) (writing : Bool) : List (Nat × Nat) :=
  match s.entryOf t with
  | none => []
  | some e =>
    (recBoxes e.record).filterMap fun b =>
      match (s.grove t.grove).region b.region with
      | none => none
      | some x =>
        if rdSpace x.desc == space && x.core t.grove == core && (!writing || b.writes) then
          (b.hull x.desc (e.bind b.slot)).map fun h => (h.1.toNat, h.2.toNat)
        else none

/-- The footprint check of deterministic mode (R335): the lowest byte outside the task's boxes. -/
def footprintGap (s : State) (ag : Agent) (core kind off n : Nat) (writing : Bool) : Option Nat :=
  if ag.det && !ag.free && (kind == 0 || kind == 2) then
    match ag.task with
    | some t => gapIn (hullsOf s t core (kind / 2) writing) off n
    | none => none
  else none

/-- Extents of the window kinds (R242). -/
def kindEnd (kind : Nat) : Nat :=
  match kind with
  | 0 => 0x100000 | 1 => 0x18800 | 2 => 0x40000 | 3 => 0x10000 | 4 => 0x800 | 5 => 0x2040 | 6 => 0x1000 | _ => 0

/-- Scalar sizes of the window kinds (R242). -/
def kindSizes (kind : Nat) : List Nat :=
  match kind with
  | 0 => [1, 2, 4, 8] | 1 => [8] | 2 => [4, 8] | 3 => [1, 2, 4, 8] | 4 => [8] | 5 => [8] | 6 => [8] | _ => []

/-- Whether a window admits an access form (R242, R257, R264, R421). -/
def kindAdmits (via : Via) (rw : Rw) (kind off n : Nat) (own : Bool) : Bool :=
  let writes := rw == .write || rw == .atomic
  let scalar := (kindSizes kind).contains n
  let hole := (kind == 4 && decide (0x180 ≤ off % 0x200)) || (kind == 6 && decide (0x600 ≤ off)) ||
    (kind == 5 && (!writes || (decide (off < 0x2000))))
  if rw == .atomic && kind != 0 then false
  else
    match via with
    | .scalar => scalar && !hole
    | .wait => (kind == 0 || kind == 3 || kind == 6) && scalar && !hole
    | .tile => kind == 0 || kind == 1 || kind == 3 ||
        (kind == 5 && writes && n == 2048 && decide (off < 0x2000) && off % 0x800 == 0)
    | .vector => kind == 0 || kind == 1 || kind == 3
    | .accum => kind == 2 && own
    | .engine | .remote => kind == 0 || kind == 1 || kind == 3 || (kind == 2 && off % 4 == 0 && n % 4 == 0) ||
        (kind == 4 && scalar && !hole && off % 8 == 0) ||
        (kind == 5 && writes && ((scalar && !hole && off % 8 == 0) ||
          (n == 2048 && decide (off < 0x2000) && off % 0x800 == 0)))

/-- Admission to the on-chip map. `a` is the program's address, `pa` its device physical address. -/
def locateChip (s : State) (ag : Agent) (via : Via) (rw : Rw) (a pa n : Nat) : Except Fail Place :=
  let self := pa / 2 ^ 39 % 2 == 1
  let named := pa / 2 ^ 28 % 2 ^ 11
  let kind := pa / 2 ^ 24 % 16
  let off := pa % 2 ^ 24
  if self && (ag.remote || named != 0) then .error (.of Cause.windowViolation a)
  else if !self && decide (12 ≤ pa / 2 ^ 32 % 16) then .error (.of Cause.windowViolation a)
  else
    let c := if self then ag.core else pa / 2 ^ 36 % 8 * 192 + pa / 2 ^ 32 % 16 * 16 + pa / 2 ^ 28 % 16
    let rp := Config.chipBase + gladeOf c * 2 ^ 36 + groveOf c % 12 * 2 ^ 32 + coreIn c * 2 ^ 28 + kind * 2 ^ 24 + off
    if kindEnd kind ≤ off then .error (.of Cause.windowViolation a)
    else if kindEnd kind < off + n then .error (.of Cause.windowViolation (a + (kindEnd kind - off)))
    else if kind == 6 && (rw == .write || rw == .atomic) then .error (.of Cause.writeProtect a)
    else if !kindAdmits via rw kind off n (c == ag.core) then .error (.of Cause.windowViolation a)
    else
      match gapIn (s.tenant ag.tenant).ocw rp n with
      | some g => .error (.of Cause.windowViolation (a + (g - rp)))
      | none =>
        match (if rw == .fetch then none else
            footprintGap s ag c kind off n (rw == .write || rw == .atomic)) with
        | some g => .error (.of Cause.detEscape (a + (g - off)))
        | none => .ok { host := false, addr := rp, pte := 0, prog := a }

/-- Admission to sync space (R407 to R409, R424). -/
def locateSync (s : State) (ag : Agent) (via : Via) (rw : Rw) (a pa n : Nat) : Except Fail Place :=
  let g := pa / 2 ^ 32 % 8
  let off := pa % 2 ^ 32
  let form := (via == .scalar || via == .wait || via == .remote) && rw != .fetch &&
    (n == 8 || (n == 4 && rw == .atomic))
  let job := decide (0x300000 ≤ off) && decide (off < 0x302000)
  if off < 0x300000 ∨ job ∨ (0x1000000 ≤ off ∧ off < 0x10000000) then
    match gapIn ((s.tenant ag.tenant).syncWin g) off n with
    | some w => .error (.of Cause.windowViolation (a + (w - off)))
    | none =>
      if job && (rw == .write || rw == .atomic) then .error (.of Cause.writeProtect a)
      else if !form || (job && via == .wait) then .error (.of Cause.windowViolation a)
      else if decide (0x1000000 ≤ off) && decide ((s.glade g).ovSize.toNat ≤ off - 0x1000000) then
        .error (.of Cause.syncOverflow a)
      else .ok { host := false, addr := pa, pte := 0, prog := a }
  else .error (.of Cause.windowViolation a)

/-- Every check of an access of `n` bytes at `a` before data poison, in the order of R275. -/
def locate (s : State) (ag : Agent) (via : Via) (rw : Rw) (a : Word) (n al : Nat) : Except Fail Place :=
  let x := a.toNat
  let phys := x / 2 ^ 48 == 0xFF00
  if !phys && x / 2 ^ 57 != 0 then .error (.of Cause.notPresent x)
  else if x % al ≠ 0 then .error (.of Cause.misaligned x)
  else if phys then
    let pa := x % 2 ^ 48
    if rw == .prof then .error (.of Cause.profRequired x)
    else if Config.chipBase ≤ pa ∧ pa < Config.chipEnd then locateChip s ag via rw x pa n
    else if Config.syncBase ≤ pa ∧ pa < Config.syncEnd then locateSync s ag via rw x pa n
    else .error (.of Cause.windowViolation x)
  else
    match translate s ag x with
    | .error f => .error f
    | .ok (lg, pte) =>
      if 2 ^ lg < x % 2 ^ lg + n then .error (.of Cause.windowViolation (x / 2 ^ lg * 2 ^ lg + 2 ^ lg))
      else
        match permit ag rw pte x with
        | .error f => .error f
        | .ok _ => .ok { host := bit pte 57, addr := fld pte 8 48 * 256 + x % 2 ^ lg, pte := pte, prog := x }

/-! ## Accesses as parts of instructions -/

/-- Fail as the access does. -/
def failM {α : Type} (f : Fail) : M α :=
  if f.words = [] then stop (.trap f.cause f.tval) else stop (.detect f.words f.cause f.tval)

/-- The result of work done for an instruction that has issued. -/
inductive Attempt (α : Type) where
  | done (a : α) (s : State)
  | fault (cause : Nat) (tval : Word) (s : State)
  /-- it waits: what its accesses have left in the memory system stays -/
  | wait (s : State)

/-- Do work on behalf of an agent, outside its instruction stream. -/
def attempt {α : Type} (ag : Agent) (body : M α) (s : State) : Attempt α :=
  let out (t : State) : State := t.detach (· == ag.who)
  match body s with
  | .ok (a, s') => .done a (out s')
  | .error (.trap c v, m) => .fault c v (out (s.keep m))
  | .error (.trapWith f c v, m) => .fault c v (out (f (s.keep m)))
  | .error (.detect ws c v, m) => .fault c v (out (ws.foldl (detectWord ag.core ag.source) (s.keep m)))
  | .error (.block on, m) => .wait (if waitsWalk on then s.keepWait m else out (s.keepWait m))
  | .error (.blockWith _ _, m) => .wait (out (s.keepWait m))

/-- Whether a word address is virtual (R240). -/
def isVirtual (a : Word) : Bool := a.toNat / 2 ^ 57 == 0

/-- Whether an access comes to be translated (R275, steps 1 to 3). -/
def translated (a : Word) (al : Nat) : Bool := isVirtual a && a.toNat % al == 0

/-- Admit an access. One that misses waits for a walker in the miss table (R278, R279); a walk leaves its traces also
when the access fails. -/
def access (ag : Agent) (via : Via) (rw : Rw) (a : Word) (n al : Nat) : M Place := fun s =>
  if translated a al && s.walkersBusy ag a.toNat then waitWalker ag a.toNat s
  else
    let t := if translated a al then tlbFill ag a.toNat s else s
    match locate s ag via rw a n al with
    | .error f => failM f t
    | .ok p => .ok (p, t)

/-- Data poison (R275 step 6): words in error are detected, and the reader traps with the word's address. -/
def poisonCheck (s : State) (p : Place) (n : Nat) : Except Fail Unit :=
  if p.host then .ok ()
  else
    let h := s.standsAt p.addr
    match s.firstPoison h n with
    | none => .ok ()
    | some w => .error { cause := Cause.poisonConsumed, words := s.badWords h n,
                         tval := BitVec.ofNat 64 (p.prog + 8 * w - h) }

/-- Whether an operation of the matrix array targets a bank, named or by redirection (R189, R191). -/
def MxOp.targets (bank : Nat) : MxOp → Bool
  | .mma _ _ _ _ _ acc sh _ _ => acc == bank || sh == some bank
  | .step t => t.acc == bank || t.rd == bank || t.wr == bank
  | .zero acc sh _ _ _ => acc == bank || sh == some bank
  | _ => false

/-- The accumulator bank that a loop-nest table names (R184). -/
def nestAcc (t : BitVec 512) : Nat := fld t 8 2

/-- The shadow of a bank (R191). -/
def Matrix.shadowOf (m : Matrix) (bank : Nat) : Option Nat := (m.pairs.find? fun p => p.base == bank).map (·.shadow)
def Matrix.isShadow (m : Matrix) (bank : Nat) : Bool := m.pairs.any fun p => p.shadow == bank

/-- Whether an accumulator bank is busy (R189). -/
def Matrix.busy (m : Matrix) (bank : Nat) : Bool :=
  (m.queue ++ m.behind).any (MxOp.targets bank) || (match m.commit with | some (b, _) => b == bank | none => false) ||
  match m.nest with
  | some n => nestAcc n.table == bank || n.shadow == some bank
  | none => false

/-- Whether [a, a + n) lies in the accumulator window, and meets a busy bank (R189). -/
def State.accBusy (s : State) (p : Place) (n : Nat) : Bool :=
  !p.host && decide (Config.chipBase ≤ p.addr) && decide (p.addr < Config.chipEnd) &&
    p.addr / 2 ^ 24 % 16 == 2 &&
    let m := (s.ctx (chipCore p.addr)).mx
    let off := p.addr % 2 ^ 24
    (List.range 4).any fun b =>
      decide (off < (b + 1) * 65536) && decide (b * 65536 < off + n) && m.busy b

/-- The count word of a job-level block (R36, R424). -/
def State.jobWord (s : State) (tenant i : Nat) : Word :=
  match s.rcb i with
  | some k => if k.job && k.tenant == tenant && !k.terminating then
      BitVec.ofNat 64 (k.jobCount.toNat + 2 ^ 32 * k.jobFlag.toNat) else 0
  | none => 0

/-- Whether an address is that of a job count word (R407). -/
def isJobWord (pa : Nat) : Bool :=
  decide (Config.syncBase ≤ pa) && decide (0x300000 ≤ pa % 2 ^ 32) && decide (pa % 2 ^ 32 < 0x302000)

/-- Count the corrected errors of a core's arrays and, in HBM, the bytes that a read moves and delivers (R249, R426). -/
def countRead (p : Place) (n : Nat) (s : State) : State :=
  if p.host then s
  else
    let h := s.standsAt p.addr
    countHbm h n (countFixed h (s.corrected h n) s)

/-- The bytes of an admitted read; a job count word's activity flag is cleared by it (R424). -/
def readPlace (ag : Agent) (p : Place) (n : Nat) : M (List Byte) := fun s =>
  if p.host then .ok (hostBytes s p.addr n, s)
  else if isJobWord p.addr then
    let i := p.addr % 2 ^ 32 % 0x2000 / 8
    let w := s.jobWord ag.tenant i
    let clear := match s.rcb i with | some k => k.job && k.tenant == ag.tenant && !k.terminating | none => false
    .ok (toBytes n w.toNat, if clear then s.modRcb i fun k => { k with jobFlag := false } else s)
  else
    match poisonCheck s p n with
    | .error f => failM f (countRead p n s)
    | .ok _ => .ok (devBytes s p.addr n, countRead p n s)

/-- An address range of `n` bytes cut where a virtual page of 64 KiB ends, for agents that move ranges. -/
def segments : Nat → Word → Nat → List (Word × Nat)
  | 0, _, _ => []
  | fuel + 1, a, n =>
    if n = 0 then []
    else if !isVirtual a then [(a, n)]
    else
      let k := min n (65536 - a.toNat % 65536)
      (a, k) :: segments fuel (a + BitVec.ofNat 64 k) (n - k)

/-- The bytes that a range names for an agent, where they lie: on the host bus or in the device, the address, the length. -/
def spansOf (s : State) (ag : Agent) (a : Word) (n : Nat) : List (Bool × Nat × Nat) :=
  (segments (n / 65536 + 2) a n).filterMap fun g =>
    if isVirtual g.1 then
      match translate s ag g.1.toNat with
      | .ok (lg, pte) => some (bit pte 57, fld pte 8 48 * 256 + g.1.toNat % 2 ^ lg, g.2)
      | .error _ => none
    else if Config.chipBase ≤ g.1.toNat % 2 ^ 48 ∧ g.1.toNat % 2 ^ 48 < Config.chipEnd ∧ g.1.toNat / 2 ^ 39 % 2 = 1 then
      some (false, chipAddr ag.core (g.1.toNat / 2 ^ 24 % 16) (g.1.toNat % 2 ^ 24), g.2)
    else some (false, g.1.toNat % 2 ^ 48, g.2)

/-- Whether two ranges of bytes meet. -/
def spansMeet (x y : Bool × Nat × Nat) : Bool :=
  x.1 == y.1 && decide (x.2.1 < y.2.1 + y.2.2) && decide (y.2.1 < x.2.1 + x.2.2)

/-- The device's own id (R1). -/
def ownDevice : Nat := Config.deviceId.toNat

/-- Whose a remote operation is. -/
def RemoteOp.owner : RemoteOp → OpOwner
  | .post o _ _ _ _ _ => o
  | .store o _ _ _ => o
  | .load o _ _ _ _ _ _ => o
  | .rmcr o _ _ _ _ _ => o

/-- The agent of the accesses that the fabric port makes for an operation. -/
def OpOwner.agent (o : OpOwner) : Agent :=
  { core := o.core, rcb := o.rcb, tenant := o.tenant, det := o.det, task := o.task, remote := false, source := 10,
    by_ := none }

/-- The bytes that an operation of this device's memory is still to read or write, its flag among them (R255, R307); the
bytes that a load brings are its own to write (R374). -/
def RemoteOp.spans (s : State) : RemoteOp → List (Bool × Nat × Nat)
  | .store o ts _ n => (ts.filter fun t => t.1 == ownDevice).flatMap fun t =>
      spansOf s o.agent t.2.1 n ++ if t.2.2 = 0 then [] else spansOf s o.agent t.2.2 8
  | .load o t _ raddr laddr n flag =>
      spansOf s o.agent laddr n ++
        if t = ownDevice then spansOf s o.agent raddr n ++ if flag = 0 then [] else spansOf s o.agent flag 8 else []
  | _ => []

/-- Whether an earlier remote operation of the same issuer is still to access bytes of an access (R255, R289; log 55). -/
def State.behindRemote (s : State) (ag : Agent) (p : Place) (n : Nat) : Bool :=
  s.remote.any fun e => ag.by_ == some e.2.owner.by_ && e.2.owner.task == ag.task &&
    (e.2.spans s).any fun x => spansMeet x (p.host, p.addr, n)

/-- Whether an earlier transform command of the same issuer stands before an access in a bank of the scratchpad, which
serves an issuer's requests in program order (R248, R260). -/
def State.behindXform (s : State) (ag : Agent) (p : Place) (n : Nat) : Bool :=
  !p.host && decide (Config.chipBase ≤ p.addr) && decide (p.addr < Config.chipEnd) && p.addr / 2 ^ 24 % 16 == 0 &&
    (s.core (chipCore p.addr)).lines.any fun l =>
      ag.by_ == some l.by_ &&
        (List.range ((p.addr + n - 1) / 256 - p.addr / 256 + 1)).any fun j => (p.addr / 256 + j) % 16 == l.addr / 256 % 16

/-- Whether an admitted access waits: a busy accumulator bank, its issuer's earlier commands in the bank, and its issuer's
earlier remote operations on its bytes. -/
def State.placeWaits (s : State) (ag : Agent) (p : Place) (n : Nat) : Bool :=
  s.accBusy p n || s.behindXform ag p n || s.behindRemote ag p n
def waitPlace (ag : Agent) (p : Place) (n : Nat) : M Unit := do
  blockIf ((← gets' fun s => s.placeWaits ag p n))

/-- A read as one access: the checks, the waits, the bytes. -/
def load (ag : Agent) (via : Via) (a : Word) (n al : Nat) : M (List Byte) := do
  let p ← access ag via .read a n al
  waitPlace ag p n
  readPlace ag p n

/-- Push an entry through a port (R242); a full queue makes the agent wait, and so does a push into a token queue that comes
before it (R101). -/
def pushPort (ag : Agent) (pa : Nat) (bytes : List Byte) : M Unit := fun s =>
  let c := chipCore pa
  let off := pa % 2 ^ 24
  let x := s.ctx c
  if off < 0x2000 then
    let k := off / 0x800
    let l := Tab.get [] x.vq k
    if 2 ≤ l.length then block s
    else .ok ((), s.setCtx c { x with vq := Tab.set [] x.vq k (l ++ [BitVec.ofNat 16384 (ofBytes bytes)]) })
  else
    let k := (off - 0x2000) / 8
    let l := Tab.get [] x.tq k
    if 16 ≤ l.length ∨ s.pushTurn c (tokenRank c ag.by_) k = false then blockOn 14 (tokenKey c k) 0 s
    else .ok ((), s.setCtx c { x with tq := Tab.set [] x.tq k (l ++ [wordOf bytes]) })

/-- Whether an address lies in a push port. -/
def isPort (pa : Nat) : Bool :=
  decide (Config.chipBase ≤ pa) && decide (pa < Config.chipEnd) && pa / 2 ^ 24 % 16 == 5

/-- The line, by glade and number, of a sync-space address. -/
def syncLine (pa : Nat) : Nat × Nat := (pa / 2 ^ 32 % 8, pa % 2 ^ 32 / 64)
def State.marked (s : State) (pa : Nat) : Bool := Tab.get false (s.glade (syncLine pa).1).marks (syncLine pa).2
/-- The arrival port of a barrier object (R483). -/
def State.isArrival (s : State) (pa : Nat) : Bool :=
  decide (Config.syncBase ≤ pa) && pa % 64 / 8 == 4 && s.marked pa

/-- Clear the barrier mark of a line (R483). -/
def clearMark (pa : Nat) (s : State) : State :=
  s.modGlade (syncLine pa).1 fun g => { g with marks := Tab.set false g.marks (syncLine pa).2 false }

/-- The bytes of an admitted write. An 8-byte store to word 0 of a sync line clears its mark; a store to an
arrival port is refused (R412, R483). -/
def writePlace (ag : Agent) (p : Place) (bytes : List Byte) : M Unit := fun s =>
  if p.host then .ok ((), s.hostWrite p.addr bytes)
  else if isPort p.addr then pushPort ag p.addr bytes s
  else if s.isArrival p.addr then trap Cause.illegalOperand 0 s
  else
    let s1 := if decide (Config.syncBase ≤ p.addr) && p.addr % 64 == 0 then clearMark p.addr s else s
    .ok ((), devWrite ag (bit p.pte 7) p.addr bytes s1)

/-- A write as one access. -/
def store (ag : Agent) (via : Via) (a : Word) (bytes : List Byte) (al : Nat) : M Unit := do
  let p ← access ag via .write a bytes.length al
  waitPlace ag p bytes.length
  writePlace ag p bytes

/-- Data poison as part of an instruction: a read that meets it has moved its bytes (R282, R283). -/
def poisonM (p : Place) (n : Nat) : M Unit := fun s =>
  match poisonCheck s p n with
  | .error f => failM f (countRead p n s)
  | .ok _ => .ok ((), s)

/-- Every check and wait of an access, data poison included for a read, without its effect. -/
def probe (ag : Agent) (via : Via) (rw : Rw) (a : Word) (n al : Nat) : M Place := do
  let p ← access ag via rw a n al
  waitPlace ag p n
  if rw = .read ∨ rw = .atomic then poisonM p n else pure ()
  pure p

/-- Read a range of any length, its pieces aligned to `al`. -/
def loadAligned (ag : Agent) (via : Via) (al : Nat) (a : Word) (n : Nat) : M (List Byte) :=
  (segments (n / 65536 + 2) a n).foldlM (fun acc g => do let l ← load ag via g.1 g.2 al; pure (acc ++ l)) []
def loadRange (ag : Agent) (via : Via) (a : Word) (n : Nat) : M (List Byte) := loadAligned ag via 1 a n

/-- Write a range of any length. -/
def storeRange (ag : Agent) (via : Via) (a : Word) (bytes : List Byte) : M Unit :=
  (segments (bytes.length / 65536 + 2) a bytes.length).foldlM (fun rest g => do
    store ag via g.1 (rest.take g.2) 1
    pure (rest.drop g.2)) bytes |> fun m => do let _ ← m; pure ()

/-- A 64-bit read by a scalar access. -/
def load64 (ag : Agent) (a : Word) : M Word := do
  let l ← load ag .scalar a 8 8
  pure (wordOf l)

end Sys2Proof.Machine
end

