-- ==== Sys2Proof/Machine/ScalarFloat.lean ====
section
/-! DEFINITION. The FP32 instructions of the K class and FCVT (R122 to R126). -/

namespace Sys2Proof.Machine

/-- The FP32 value in the low half of a scalar operand (R122). -/
def f32 (v : Word) : FVal := NumFmt.fp32.decode (v.toNat % 2 ^ 32)
/-- An exact value rounded to FP32 as a scalar result. -/
def f32Word (r : Rnd) (v : FVal) : Word := BitVec.ofNat 64 (NumFmt.fp32.round r v)
/-- Negation under the suffix .n (R123). -/
def negIf (n : Bool) (v : FVal) : FVal := if n then v.neg else v

def execFadd (d : Dst) (a b : Src) (n : Bool) (r : Rnd) (s : State) :=
  binOp d a b (fun x y => f32Word r ((f32 x).add r (negIf n (f32 y)))) s
def execFmul (d : Dst) (a b : Src) (n : Bool) (r : Rnd) (s : State) :=
  binOp d a b (fun x y => f32Word r (negIf n ((f32 x).mul (f32 y)))) s
def execFfma (d : Dst) (a b : Src) (n : Bool) (r : Rnd) (s : State) :=
  terOp d a b (fun x y z => f32Word r ((negIf n ((f32 x).mul (f32 y))).add r (f32 z))) s
def execFcmp (d : Dst) (a b : Src) (s : State) := binOp d a b (fun x y => fcmpMask (f32 x) (f32 y)) s
def execFmin (d : Dst) (a b : Src) (s : State) := binOp d a b (fun x y => f32Word .rne ((f32 x).min' (f32 y))) s
def execFmax (d : Dst) (a b : Src) (s : State) := binOp d a b (fun x y => f32Word .rne ((f32 x).max' (f32 y))) s

/-- A conversion between two formats of R125, to a 64-bit result; none is the trap of policy 11 (R126). -/
def convertWord (src dst : NumFmt) (r : Rnd) (p : Policy) (a : Word) : Option Word :=
  let x := a.toNat % 2 ^ src.width
  (dst.convert r p (src.decode x)).map fun y =>
    if dst.isFloat then BitVec.ofNat 64 y else BitVec.ofInt 64 (sextInt dst.width y)

def execFcvt (d : Dst) (a b : Src) (s : State) :=
  scalarOp [a, b] d (do
    let x ← readSrc a
    let c ← readSrc b
    match NumFmt.ofCode (fld c 0 4), NumFmt.ofCode (fld c 4 4) with
    | some f, some g =>
      trapIf (fld c 12 52 != 0) Cause.illegalOperand c
      match convertWord f g (Rnd.ofCode (fld c 8 2)) (Policy.ofCode (fld c 10 2)) x with
      | some v => writeDst d v
      | none => trap Cause.convertOverflow 0
    | _, _ => trap Cause.illegalOperand c) s

end Sys2Proof.Machine
end

