-- ==== Sys2Proof/Machine/LoadStore.lean ====
section
/-! DEFINITION. Scalar memory accesses, FENCE, WAITA, the store of quarantined registers and the atomics
(R253 to R257, R293 to R296, R421, R422, R444). Accesses take effect at the instruction's step, so the
orders of R284 to R292 hold of every run (log 9). -/

namespace Sys2Proof.Machine

/-- The agent of the current stream. -/
def thisAgent : M Agent := gets' fun s => s.agentOf s.cur

/-- An order that an instruction does not accept (R75). -/
def acceptOrder (ok : List Order) (o : Order) : M Unit :=
  trapIf (!ok.contains o) Cause.illegalOperand (BitVec.ofNat 64 o.code)

/-- Whether transform commands that the current stream placed are still in their banks (R260, R295). -/
def State.xformsOpen (s : State) : Bool := s.seq.xforms.any fun j => j.left != 0

/-- The devices in whose memory an operation writes: the targets of a store; for a load its own, which takes the bytes, and
with a flag operation its target (R296, R374). -/
def RemoteOp.writesAt : RemoteOp → List Nat
  | .store _ ts _ _ => ts.map (·.1)
  | .load _ t _ _ _ _ flag => ownDevice :: if flag = 0 then [] else [t]
  | _ => []

/-- The unacknowledged operations of the current sequencer's task that write in memory of a device, by their numbers
(R296, R300, R412). -/
def State.openWrites (s : State) (dv : Nat → Bool) : List Nat :=
  (s.remote.filter fun e => e.2.writesAt.any dv && e.2.owner.task == s.seq.task && e.2.owner.by_ == s.cur.pipe).map (·.1)

/-- Whether a remote write of the current sequencer's task has not been acknowledged, anywhere or at one device. -/
def State.remoteOpen (s : State) : Bool := !(s.openWrites fun _ => true).isEmpty
def State.remoteOpenTo (s : State) (device : Nat) : Bool := !(s.openWrites (· == device)).isEmpty

/-- Whether a scope reaches other devices (R296). -/
def Scope.isFar (sc : Scope) : Bool := sc == .panel || sc == .system

/-- Whether an order is release or stronger (R75). -/
def Order.releases (o : Order) : Bool := o == .release || o == .acqRel || o == .seqCst

/-- The remote writes that a release or a fence of a scope waits for: at panel and system scope all, else those in the
device's own memory (R290, R294 to R296). -/
def State.remoteHeld (s : State) (sc : Scope) : Bool := if Scope.isFar sc then s.remoteOpen else s.remoteOpenTo ownDevice

/-- A release waits for its issuer's earlier accesses: its transform commands and its remote writes (R290, R296). -/
def State.releaseHeld (s : State) (o : Order) (sc : Scope) : Bool := Order.releases o && (s.xformsOpen || s.remoteHeld sc)
def releaseWait (o : Order) (sc : Scope) : M Unit := do blockIf ((← gets' fun s => s.releaseHeld o sc))

/-! ## LD, ST, LDA, STR, PREF (R253, R254, R256) -/

/-- The register value of loaded bytes, zero- or sign-extended (R253). -/
def extendLoad (sg : Bool) (n v : Nat) : Word :=
  if sg then BitVec.ofInt 64 (sextInt (8 * n) v) else BitVec.ofNat 64 v

def execLd (d : Dst) (a b : Src) (sg : Bool) (f : Wid) (s : State) :=
  scalarOp [a, b] d (do
    let x ← readSrc a
    let y ← readSrc b
    let l ← load (← thisAgent) .scalar (x + y) f.bytes f.bytes
    writeDst d (extendLoad sg f.bytes (ofBytes l))) s

def execSt (d : Dst) (a b : Src) (f : Wid) (s : State) :=
  scalarOp [a, b, d.asSrc] .discard (do
    let x ← readSrc a
    let y ← readSrc b
    let v ← readSrc d.asSrc
    store (← thisAgent) .scalar (x + y) (toBytes f.bytes v.toNat) f.bytes) s

def execLda (d : Dst) (a b : Nat) (o : Order) (_sc : Scope) (s : State) :=
  scalarOp [.reg a, .reg b] d (do
    acceptOrder [.relaxed, .acquire, .seqCst] o
    let x ← readSrc (.reg a)
    let y ← readSrc (.reg b)
    let v ← load64 (← thisAgent) (x + y)
    writeDst d v) s

def execStr (d : Dst) (a b : Nat) (o : Order) (sc : Scope) (s : State) :=
  scalarOp [.reg a, .reg b, d.asSrc] .discard (do
    acceptOrder [.relaxed, .release, .seqCst] o
    releaseWait o sc
    let x ← readSrc (.reg a)
    let y ← readSrc (.reg b)
    let v ← readSrc d.asSrc
    store (← thisAgent) .scalar (x + y) (toBytes 8 v.toNat) 8) s

/-- PREF: the grove's translation cache is to hold the page's entry (R256); it waits while its miss waits for a place in the
miss table (R278). -/
def execPref (a b : Src) (s : State) :=
  scalarOp [a, b] .discard (do
    let x ← readSrc a
    let y ← readSrc b
    let ag ← thisAgent
    let t ← gets' id
    if isVirtual (x + y) && t.misses ag (x + y).toNat then do
      modS (enterMiss ag [] (x + y).toNat)
      if (← gets' fun u => u.missQueued ag (x + y).toNat) then blockOn walkWait (gladeOf ag.core) else pure ()
    else pure ()) s

/-! ## FENCE (R17, R293 to R296) -/

/-- Whether a sub-queue that no fault has stopped still holds words (R17). -/
def Context.splitOpen (x : Context) : Bool :=
  [x.vl, x.va, x.vs].any fun q => !q.stopped && !q.words.isEmpty

def execFence (o : Order) (sc : Scope) (s : State) :=
  (if Scope.isFar sc then remoteFirst else id) (fun s => scalarOp [] .discard (do
    acceptOrder [.acquire, .release, .acqRel, .seqCst] o
    blockIf ((← gets' fun t => t.xformsOpen))
    blockIf ((← gets' fun t => t.cur.seq == .V && (t.ctx t.cur.core).splitOpen))
    blockIf ((← gets' fun t => o != .acquire && t.remoteHeld sc))) s) s

/-! ## WAITA (R257) and QZST (R444) -/

/-- A wait on a line of sync space keeps the line in the engine's SRAM (R408). -/
def onLine (p : Place) : Option (Nat × Nat × Nat) :=
  if !p.host && decide (Config.syncBase ≤ p.addr) then some (10, p.addr / 64, 0) else none

/-- WAITA (R257): it is evaluated when it issues, and again at each turn of its sequencer and at the latest 1 µs later. -/
def execWaita (d : Dst) (a b : Src) (_q : Bool) (c : WaitCond) (s : State) :=
  scalarOp [a, b] d (do
    let x ← readSrc a
    let y ← readSrc b
    let ag ← thisAgent
    let p ← access ag .wait .read x 8 8
    waitPlace ag p 8
    let l ← readPlace ag p 8
    if c.holds (wordOf l) y then writeDst d (wordOf l)
    else blockWith (fun t => t.modSeq t.cur fun q => { q with waitAt := some (t.timeAt t.cur.core) }) (onLine p)) s

def execQzst (d : Nat) (a b : Src) (s : State) :=
  scalarOp [a, b] .discard (do
    let x ← readSrc a
    let y ← readSrc b
    let ag ← thisAgent
    let p ← access ag .scalar .prof (x + y) 8 8
    waitPlace ag p 8
    writePlace ag p (toBytes 8 (Tab.get 0 s.seq.z d).toNat)) s

/-! ## Atomics (R421, R422) -/

/-- An update of barrier fields: expected, remaining, pending, phase (R410). -/
structure BarFields where
  expected : Nat
  remaining : Nat
  pending : Nat
  phase : Nat
deriving DecidableEq, Repr

/-- The fields of the object in a line (R410). -/
def barFields (s : State) (pa : Nat) : BarFields :=
  let g := (syncLine pa).1
  let o := (syncLine pa).2 * 64
  let w (k : Nat) : Nat := ofBytes ((List.range 4).map fun j => syncByte s g (o + 4 * k + j))
  { expected := w 0, remaining := w 1, pending := w 2, phase := w 3 }

/-- The sync engine writes bytes of sync space by glade and offset. -/
def setSyncBytes (g o : Nat) (l : List Byte) (s : State) : State :=
  deviceWrite (192 * g) 9 (Config.syncBase + g * 2 ^ 32 + o) l s

/-- A line with new remaining, pending and phase (R410). -/
def setBarFields (ag : Agent) (pa : Nat) (f : BarFields) (s : State) : State :=
  let a := pa / 64 * 64
  devWrite ag false (a + 4) (toBytes 4 f.remaining ++ toBytes 4 f.pending ++ toBytes 4 f.phase) s

/-- The mark of a barrier operation that reaches a line: bytes 32 to 39 become zero (R483). -/
def setMark (pa : Nat) (s : State) : State :=
  if s.marked pa then s
  else
    let g := (syncLine pa).1
    let l := (syncLine pa).2
    setSyncBytes g (64 * l + 32) (toBytes 8 0) (s.modGlade g fun k => { k with marks := Tab.set false k.marks l true })

/-- One update of a cycle on the fields, or the cause that rejects it, with whether it asks for an advance (R411). -/
def barUpdate (f : BarFields) (u : BarUpdate) : Except Nat (BarFields × Bool) :=
  match u with
  | .arrive k n =>
    if f.remaining < k then .error Cause.barrierUnderflow
    else if 2 ^ 32 ≤ f.pending + n then .error Cause.syncOverflow
    else .ok ({ f with remaining := f.remaining - k, pending := f.pending + n }, true)
  | .add n =>
    if 2 ^ 32 ≤ f.pending + n then .error Cause.syncOverflow
    else .ok ({ f with pending := f.pending + n }, false)
  | .sub n =>
    if f.pending < n then .error Cause.barrierUnderflow
    else .ok ({ f with pending := f.pending - n }, true)

/-- The advance at the end of a cycle (R411). -/
def barAdvance (adv : Bool) (f : BarFields) : BarFields :=
  if adv && f.remaining == 0 && f.pending == 0 then
    { f with phase := (f.phase + 1) % 2 ^ 32, remaining := f.expected }
  else f

/-- The cycle whose updates are being applied to the object at an address (R411). -/
def State.inCycle (s : State) (pa : Nat) : Option BarCycle := s.barCycle.filter fun c => c.addr == pa / 64 * 64

/-- One update that reaches a barrier object: the line is marked, and the fields after it, or the cause that rejects it.
An update alone in its cycle advances the phase at once; one of several leaves that to the end of the cycle. -/
def applyBar (ag : Agent) (pa : Nat) (u : BarUpdate) (s : State) : State × Option Nat :=
  let s1 := setMark pa s
  match barUpdate (barFields s1 pa) u, s.inCycle pa with
  | .error c, _ => (s1, some c)
  | .ok (f, adv), none => (setBarFields ag pa (barAdvance adv f) s1, none)
  | .ok (f, adv), some c =>
    ({ setBarFields ag pa f s1 with barCycle := some { c with advance := c.advance || adv } }, none)

/-- An update of an object reads its fields: words in error anywhere in its line are detected (R249, R410). -/
def readLine (ag : Agent) (p : Place) : M Unit := do
  let _ ← readPlace ag { p with addr := p.addr / 64 * 64, prog := p.prog - p.addr % 64 } 64

/-- Read the unit, apply `f` to the old value and write what it gives; the old value is the result. `hostOk`
says whether host memory accepts the operation, `isAdd` whether an arrival port does (R412, R421). -/
def atomic (n : Nat) (a : Word) (hostOk isAdd : Bool) (k : Nat) (f : Nat → Option Nat) : M Nat := do
  let ag ← thisAgent
  let p ← probe ag .scalar .atomic a n n
  trapIf (p.host && (!hostOk || !Config.hostCompletes (← gets' fun s => s.fresh))) Cause.windowViolation a
  let port ← gets' fun s => !p.host && s.isArrival p.addr
  if port then
    trapIf (!isAdd) Cause.illegalOperand 0
    if k = 0 then pure 0
    else do
      readLine ag p
      fun s =>
        match applyBar ag p.addr (.arrive k 0) s with
        | (s', none) => .ok (0, s')
        | (_, some c) => trap c a s
  else
    let l ← readPlace ag p n
    match f (ofBytes l) with
    | some v => do writePlaceWord ag p (toBytes n v); pure (ofBytes l)
    | none => pure (ofBytes l)
where
  /-- The write half; on a sync line it is one update of the line and leaves the mark (R483). -/
  writePlaceWord (ag : Agent) (p : Place) (bytes : List Byte) : M Unit := modS fun s =>
    if p.host then s.hostWrite p.addr bytes else devWrite ag (bit p.pte 7) p.addr bytes s

/-- The value of d: zero-extended for 64 bits, sign-extended for 32 (R421). -/
def atomicResult (n v : Nat) : Word := extendLoad (n == 4) n v

/-- An atomic of width `n` bytes with operand x[b] (R421). -/
def amo (n : Nat) (hostOk isAdd : Bool) (d : Dst) (a b : Nat) (o : Order) (sc : Scope) (f : Nat → Nat → Nat) (s : State) :=
  scalarOp [.reg a, .reg b] d (do
    releaseWait o sc
    let x ← readSrc (.reg a)
    let y ← readSrc (.reg b)
    let v := y.toNat % 2 ^ (8 * n)
    let old ← atomic n x hostOk isAdd v (fun m => some (f m v % 2 ^ (8 * n)))
    writeDst d (atomicResult n old)) s

/-- Compare and swap (R422): x[b] is compared, x[b + 1] is written. -/
def amoCompare (n : Nat) (d : Dst) (a b : Nat) (o : Order) (sc : Scope) (s : State) :=
  scalarOp [.reg a, .reg b, .reg (b + 1)] d (do
    releaseWait o sc
    let x ← readSrc (.reg a)
    let y ← readSrc (.reg b)
    let z ← readSrc (.reg (b + 1))
    let v := y.toNat % 2 ^ (8 * n)
    let old ← atomic n x true false 0 (fun m => if m = v then some (z.toNat % 2 ^ (8 * n)) else none)
    writeDst d (atomicResult n old)) s

/-- The signed order of codes of width `w`. -/
def sless (w x y : Nat) : Bool := decide (sextInt w x < sextInt w y)

/-- AMOFADD on one FP32 lane (R422). -/
def faddLane (m v : Nat) : Nat := NumFmt.fp32.addCode .rne (m % 2 ^ 32) (v % 2 ^ 32)

def execAmoAdd (d : Dst) (a b : Nat) (o : Order) (sc : Scope) (s : State) := amo 8 true true d a b o sc (fun m v => m + v) s
def execAmoAnd (d : Dst) (a b : Nat) (o : Order) (sc : Scope) (s : State) := amo 8 false false d a b o sc (fun m v => m &&& v) s
def execAmoOr (d : Dst) (a b : Nat) (o : Order) (sc : Scope) (s : State) := amo 8 false false d a b o sc (fun m v => m ||| v) s
def execAmoXor (d : Dst) (a b : Nat) (o : Order) (sc : Scope) (s : State) := amo 8 false false d a b o sc (fun m v => m ^^^ v) s
def execAmoMin (d : Dst) (a b : Nat) (o : Order) (sc : Scope) (s : State) :=
  amo 8 false false d a b o sc (fun m v => if sless 64 v m then v else m) s
def execAmoMax (d : Dst) (a b : Nat) (o : Order) (sc : Scope) (s : State) :=
  amo 8 false false d a b o sc (fun m v => if sless 64 m v then v else m) s
def execAmoMinu (d : Dst) (a b : Nat) (o : Order) (sc : Scope) (s : State) := amo 8 false false d a b o sc Nat.min s
def execAmoMaxu (d : Dst) (a b : Nat) (o : Order) (sc : Scope) (s : State) := amo 8 false false d a b o sc Nat.max s
def execAmoSwp (d : Dst) (a b : Nat) (o : Order) (sc : Scope) (s : State) := amo 8 true false d a b o sc (fun _ v => v) s
def execAmoCas (d : Dst) (a b : Nat) (o : Order) (sc : Scope) (s : State) := amoCompare 8 d a b o sc s
def execAmoFadd (d : Dst) (a b : Nat) (o : Order) (sc : Scope) (s : State) :=
  amo 8 false false d a b o sc (fun m v => faddLane m v + 2 ^ 32 * faddLane (m / 2 ^ 32) (v / 2 ^ 32)) s
def execAmoAddW (d : Dst) (a b : Nat) (o : Order) (sc : Scope) (s : State) := amo 4 true true d a b o sc (fun m v => m + v) s
def execAmoAndW (d : Dst) (a b : Nat) (o : Order) (sc : Scope) (s : State) := amo 4 false false d a b o sc (fun m v => m &&& v) s
def execAmoOrW (d : Dst) (a b : Nat) (o : Order) (sc : Scope) (s : State) := amo 4 false false d a b o sc (fun m v => m ||| v) s
def execAmoXorW (d : Dst) (a b : Nat) (o : Order) (sc : Scope) (s : State) := amo 4 false false d a b o sc (fun m v => m ^^^ v) s
def execAmoMinW (d : Dst) (a b : Nat) (o : Order) (sc : Scope) (s : State) :=
  amo 4 false false d a b o sc (fun m v => if sless 32 v m then v else m) s
def execAmoMaxW (d : Dst) (a b : Nat) (o : Order) (sc : Scope) (s : State) :=
  amo 4 false false d a b o sc (fun m v => if sless 32 m v then v else m) s
def execAmoMinuW (d : Dst) (a b : Nat) (o : Order) (sc : Scope) (s : State) := amo 4 false false d a b o sc Nat.min s
def execAmoMaxuW (d : Dst) (a b : Nat) (o : Order) (sc : Scope) (s : State) := amo 4 false false d a b o sc Nat.max s
def execAmoSwpW (d : Dst) (a b : Nat) (o : Order) (sc : Scope) (s : State) := amo 4 true false d a b o sc (fun _ v => v) s
def execAmoCasW (d : Dst) (a b : Nat) (o : Order) (sc : Scope) (s : State) := amoCompare 4 d a b o sc s
def execAmoFaddW (d : Dst) (a b : Nat) (o : Order) (sc : Scope) (s : State) := amo 4 false false d a b o sc faddLane s

end Sys2Proof.Machine
end

