-- ==== Sys2Proof/Machine/Sync.lean ====
section
/-! DEFINITION. Sync objects, barriers and buffer handles (R394 to R396, R409 to R420, R483). -/

namespace Sys2Proof.Machine

/-! ## Addresses of objects -/

/-- Whether an address is one of the device's sync space (R240). -/
def inSyncSpace (a : Word) : Bool :=
  let x := a.toNat
  x / 2 ^ 48 == 0xFF00 && decide (Config.syncBase ≤ x % 2 ^ 48) && decide (x % 2 ^ 48 < Config.syncEnd)

/-- An object's line in the sync space of the device: aligned to 64, in sync space, within the tenant's window. It is read
behind its issuer's earlier remote operations on it (R289). -/
def objectPlaceFor (ag : Agent) (a : Word) : M Place := do
  let x := a.toNat
  trapIf (x / 2 ^ 48 != 0xFF00 && x / 2 ^ 57 != 0) Cause.notPresent a
  trapIf (x % 64 != 0) Cause.misaligned a
  trapIf (!inSyncSpace a) Cause.windowViolation a
  let p ← access ag .wait .read a 8 64
  waitPlace ag p 64
  let _ ← readPlace ag p 64
  pure p

def objectPlace (a : Word) : M Place := do objectPlaceFor (← thisAgent) a

/-- A word of an object: 8 bytes at an offset of its line. -/
def objWord (s : State) (pa o : Nat) : Nat := ofBytes (devBytes s (pa + o) 8)

/-- The address of a table entry of kind 6: a multiple of `al` at an offset from `lo` up to below `hi` (R347, R396). An
address of no class is NOT_PRESENT for a ring (R348) and no class of its own for a handle (R396). -/
def tablePlace (a : Word) (al lo hi : Nat) : M (Nat × Nat) := do
  let ag ← thisAgent
  let x := a.toNat
  trapIf (lo == 0 && x / 2 ^ 48 != 0xFF00 && x / 2 ^ 57 != 0) Cause.notPresent a
  trapIf (x % al != 0) Cause.misaligned a
  let pa := x % 2 ^ 48
  let off := pa % 2 ^ 24
  trapIf (!(x / 2 ^ 48 == 0xFF00 && decide (Config.chipBase ≤ pa) && decide (pa < Config.chipEnd) &&
    pa / 2 ^ 24 % 16 == 6 && decide (lo ≤ off) && decide (off < hi))) Cause.windowViolation a
  let p ← access ag .scalar .read a 8 8
  pure (chipCore p.addr, p.addr % 2 ^ 24)

/-! ## ACQ, REL, BIND (R416 to R419) -/

def execAcq (d : Dst) (a b : Nat) (o : Order) (sc : Scope) (s : State) :=
  scalarOp [.reg a, .reg b] d (do
    acceptOrder [.relaxed, .acquire, .seqCst] o
    releaseWait o sc
    let x ← readSrc (.reg a)
    let m ← readSrc (.reg b)
    let p ← objectPlace x
    trapIf (decide (1 < m.toNat)) Cause.illegalOperand m
    let ag ← thisAgent
    let t ← gets' id
    let shared := objWord t p.addr 8 % 2 ^ 32
    let excl := objWord t p.addr 8 / 2 ^ 32 % 2
    if !t.firstFor 1 (p.addr / 64) || excl == 1 || (m == 0 && shared != 0) then blockOn 1 (p.addr / 64)
    else
      trapIf (m == 1 && shared == 2 ^ 32 - 1) Cause.syncOverflow 0
      if m = 0 then
        modS (devWrite ag false (p.addr + 12) [BitVec.ofNat 8 (objWord t p.addr 8 / 2 ^ 32 % 256 + 1)])
      else modS (devWrite ag false (p.addr + 8) (toBytes 4 (shared + 1)))
      writeDst d (BitVec.ofNat 64 (objWord t p.addr 0))) s

/-- REL (R298, R419): it waits for the issuer's earlier writes to memory of the own device, which may lie in the spans of
the bound regions, and with order release or stronger as a release does. -/
def execRel (d : Dst) (a b : Nat) (o : Order) (sc : Scope) (s : State) :=
  scalarOp [.reg a, .reg b] d (do
    acceptOrder [.relaxed, .release, .seqCst] o
    blockIf ((← gets' fun t => t.xformsOpen || t.remoteOpenTo ownDevice))
    releaseWait o sc
    let x ← readSrc (.reg a)
    let m ← readSrc (.reg b)
    let p ← objectPlace x
    trapIf (decide (1 < m.toNat)) Cause.illegalOperand m
    let ag ← thisAgent
    let t ← gets' id
    let shared := objWord t p.addr 8 % 2 ^ 32
    let excl := objWord t p.addr 8 / 2 ^ 32 % 2
    let seq := objWord t p.addr 0
    if m = 0 then
      trapIf (excl != 1) Cause.syncState x
      modS (devWrite ag false (p.addr + 12) [BitVec.ofNat 8 (objWord t p.addr 8 / 2 ^ 32 % 256 - 1)])
      modS (devWrite ag false p.addr (toBytes 8 (seq + 1)))
      writeDst d (BitVec.ofNat 64 (seq + 1))
    else
      trapIf (shared == 0) Cause.syncState x
      modS (devWrite ag false (p.addr + 8) (toBytes 4 (shared - 1)))
      writeDst d (BitVec.ofNat 64 seq)) s

/-- The grove whose region table and window an issuer's instructions act on: a stolen task's home (R33). -/
def State.homeGrove (s : State) : Nat :=
  match s.seq.task with
  | some t => t.grove
  | none => groveOf s.cur.core

/-- The binding slots of an object, lowest first. -/
def bindings (s : State) (pa : Nat) : List Nat := (List.range 4).map fun k => objWord s pa (32 + 8 * k)

def execBind (d : Dst) (a b : Src) (un : Bool) (s : State) :=
  scalarOp [a, b] d (do
    let x ← readSrc a
    let y ← readSrc b
    trapIf (x.toNat % 64 != 0) Cause.misaligned x
    trapIf (!inSyncSpace x) Cause.windowViolation x
    let p ← objectPlace x
    let ag ← thisAgent
    let g := if fld y 7 8 = 0 then s.homeGrove else fld y 7 8 - 1
    trapIf (fld y 15 49 != 0 || decide (96 < fld y 7 8)) Cause.illegalOperand 0
    let t ← gets' id
    trapIf (match (t.grove g).region (fld y 0 7) with
      | some r => r.tenant != ag.tenant
      | none => true) Cause.regionUndefined y
    trapIf (t.marked p.addr) Cause.syncState x
    let v := fld y 0 7 + g * 2 ^ 7 + 2 ^ 14
    let l := bindings t p.addr
    let valid (w : Nat) : Bool := w / 2 ^ 14 % 2 == 1
    let same := l.findIdx? fun w => w % 2 ^ 15 == v
    let free := l.findIdx? fun w => !valid w
    let n := (l.filter valid).length
    match un, same, free with
    | true, some k, _ => do
      modS (devWrite ag false (p.addr + 32 + 8 * k) (toBytes 8 0))
      writeDst d (BitVec.ofNat 64 (n - 1))
    | true, none, _ => writeDst d (BitVec.ofNat 64 n)
    | false, some _, _ => writeDst d (BitVec.ofNat 64 n)
    | false, none, some k => do
      modS (devWrite ag false (p.addr + 32 + 8 * k) (toBytes 8 v))
      writeDst d (BitVec.ofNat 64 (n + 1))
    | false, none, none => trap Cause.syncOverflow 0) s

/-! ## Barriers (R411 to R415) -/

/-- Apply one update of an agent; a rejection traps, and the line keeps its mark (R411, R483). -/
def barMFor (ag : Agent) (p : Place) (u : BarUpdate) (tval : Word) : M Unit := fun s =>
  match applyBar ag p.addr u s with
  | (s', none) => .ok ((), s')
  | (_, some c) => trapWith (setMark p.addr) c tval s

def barM (p : Place) (u : BarUpdate) (tval : Word) : M Unit := do barMFor (← thisAgent) p u tval

/-- Subtract bytes from the barrier that a descriptor names; 0 names none (R176, R267, R356). No rule names a TVAL for an
underflow: it is 0 (R481). -/
def postBytes (ag : Agent) (bar : Word) (n : Nat) : M Unit :=
  if bar = 0 then pure ()
  else do
    let p ← objectPlaceFor ag bar
    barMFor ag p (.sub n) 0

def execBara (d : Dst) (a b : Nat) (o : Order) (sc : Scope) (s : State) :=
  scalarOp [.reg a, .reg b] d (do
    acceptOrder [.relaxed, .release, .acqRel, .seqCst] o
    releaseWait o sc
    let x ← readSrc (.reg a)
    let n ← readSrc (.reg b)
    let p ← objectPlace x
    trapIf (fld n 32 32 != 0) Cause.illegalOperand n
    let phase ← gets' fun t => (barFields t p.addr).phase
    barM p (.arrive 1 n.toNat) x
    writeDst d (BitVec.ofNat 64 phase)) s

def execBarw (d : Dst) (a b : Nat) (o : Order) (_sc : Scope) (s : State) :=
  scalarOp [.reg a, .reg b] d (do
    acceptOrder [.relaxed, .acquire, .seqCst] o
    let x ← readSrc (.reg a)
    let v ← readSrc (.reg b)
    let p ← objectPlace x
    let phase ← gets' fun t => (barFields t p.addr).phase
    if phase = fld v 0 32 then blockWith (setMark p.addr) (onLine p)
    else
      modS (setMark p.addr)
      writeDst d (BitVec.ofNat 64 phase)) s

/-- The sequencer of a BARX reads the pending count at the end of the cycle. -/
def State.readAtEnd (s : State) : State :=
  { s with barCycle := s.barCycle.map fun c => { c with readers := c.readers ++ [s.cur] } }

/-- BARX (R415): it adds, and d is the pending count after the cycle's updates: in a cycle with other agents its update is
made in its turn, with what it pops, and d is written once the cycle has ended (log 53). -/
def execBarx (d : Dst) (a b : Src) (s : State) : Host.Outcome State Fault Refusal :=
  match s.seq.barRead.filter fun r => r.1 == s.seq.pc with
  | some r =>
    runPipe (lenOf [a, b]) (do
      issue [] d
      modS fun t => t.modSeq t.cur fun q => { q with barRead := none }
      writeDst d (BitVec.ofNat 64 r.2)
      pure none) s
  | none =>
    scalarOp [a, b] d (do
      blockIf (s.barCycle.any fun c => c.readers.contains s.cur)
      let x ← readSrc a
      let n ← readSrc b
      let p ← objectPlace x
      trapIf (fld n 32 32 != 0) Cause.illegalOperand n
      barM p (.add n.toNat) x
      let t ← gets' id
      if (t.inCycle p.addr).isSome then blockWith fun _ => t.readAtEnd
      else writeDst d (BitVec.ofNat 64 (barFields t p.addr).pending)) s

/-! ## Buffer handles (R394 to R396, R420) -/

/-- A handle word after a change of state (R394): the count of changes goes up. -/
def handleNext (w : Word) (st : BufState) : Word :=
  BitVec.ofNat 64 (st.code + (fld w 32 32 + 1) % 2 ^ 32 * 2 ^ 32)

def State.handle (s : State) (c h : Nat) : Word := Tab.get 0 (s.core c).handles h
def State.setHandle (s : State) (c h : Nat) (w : Word) : State :=
  s.modCore c fun k => { k with handles := Tab.set 0 k.handles h w }

/-- The number of a handle among those of the device, for the order of its waiters. -/
def handleKey (c h : Nat) : Nat := 64 * c + h

/-- A change of a handle: every blocked instruction on it is attempted again next (R395). -/
def State.changeHandle (s : State) (c h : Nat) (w : Word) : State :=
  (s.setHandle c h w).retry fun v => v.kind == 3 && v.key == handleKey c h

/-- The state field of a handle word. -/
def handleState (w : Word) : BufState := BufState.ofCode (fld w 0 2)

/-- Whether a handle instruction that blocked earlier waits for the state that the handle is in: it goes first (R347,
R395). -/
def State.handleTaken (s : State) (c h : Nat) : Bool :=
  (s.ahead (handleKey c h)).any fun w => w.kind == 3 && w.need == (handleState (s.handle c h)).code

/-- An operation on a handle: it blocks until the handle is in state `need` (if it waits at all), in the order of
arrival, then changes the state. -/
def handleOp (d : Dst) (a : Src) (need : Option BufState) (next : Option BufState) (s : State) :=
  scalarOp [a] d (do
    let x ← readSrc a
    let (c, off) ← tablePlace x 8 0x400 0x600
    let h := (off - 0x400) / 8
    let w ← gets' fun t => t.handle c h
    match need with
    | some st =>
      if handleState w ≠ st ∨ (← gets' fun t => t.handleTaken c h) = true then blockOn 3 (handleKey c h) st.code else pure ()
    | none => pure ()
    match next with
    | some st => modS fun t => t.changeHandle c h (handleNext w st)
    | none => pure ()
    writeDst d w) s

def execHset (d : Dst) (a : Src) (f : Bool) (st : BufState) (s : State) :=
  handleOp d a (if f then none else some .free) (some st) s

def execHacq (d : Dst) (a : Src) (f : Bool) (s : State) :=
  handleOp d a (some (if f then .full else .free)) (some (if f then .drain else .fill)) s

def execHrel (d : Dst) (a : Src) (f : Bool) (s : State) :=
  scalarOp [a] d (do
    releaseWait .release .device
    let x ← readSrc a
    let (c, off) ← tablePlace x 8 0x400 0x600
    let h := (off - 0x400) / 8
    let w ← gets' fun t => t.handle c h
    trapIf (handleState w != if f then .drain else .fill) Cause.handleState x
    modS fun t => t.changeHandle c h (handleNext w (if f then .free else .full))
    writeDst d w) s

def execHwait (d : Dst) (a : Src) (_q : Bool) (st : BufState) (s : State) :=
  handleOp d a (some st) none s

/-! ## Events of the sync engine -/

/-- What an agent of a cycle does: its stream moves, its unit takes its step, or its access arrives. -/
def BarAgent.move : BarAgent → Move
  | .stream c k => .run ⟨c, k, .pipe⟩
  | .array c => .event (.bankLoad c)
  | .nest c => .event (.nestStep c)
  | .commit c => .event (.accumulatorRowCommit c)
  | .broadcast g n => .event (.broadcastDelivery g n)
  | .xpose c => .event (.transposeTile c)
  | .channel c n => .event (.copyRecord c n)
  | .remote m => .due (.access m)

/-- The members of a broadcast group, lowest core first (R193). -/
def groupCores (s : State) (grove g : Nat) : List Nat :=
  ((List.range 16).map fun c => grove * 16 + c).filter fun c =>
    match (s.ctx c).mx.group with | some (k, _) => k == g | none => false

/-- The place of an agent in the order of R409, by core and unit, when it belongs to the glade. -/
def BarAgent.rank (s : State) (g : Nat) (a : BarAgent) : Option Nat :=
  let at_ (c unit : Nat) : Option Nat := if gladeOf c = g then some (9 * c + unit) else none
  match a with
  | .stream c k => at_ c k.code
  | .array c | .nest c | .commit c => at_ c 2
  | .broadcast h n => at_ ((groupCores s h n).headD (16 * h)) 2
  | .xpose c => at_ c 4
  | .channel c n => at_ c (5 + n)
  | .remote _ => none

/-- Insert by rank, behind those of lower or equal rank. -/
def insertRanked (p : Nat × BarAgent) : List (Nat × BarAgent) → List (Nat × BarAgent)
  | [] => [p]
  | q :: t => if p.1 < q.1 then p :: q :: t else q :: insertRanked p t

/-- The agents of a cycle in the order of R409: those of the glade by core and unit, then the others by arrival. -/
def agentOrder (s : State) (g : Nat) (l : List BarAgent) : List BarAgent :=
  let near := l.filterMap fun a => (BarAgent.rank s g a).map fun r => (r, a)
  (near.foldl (fun acc p => insertRanked p acc) []).map (·.2) ++ l.filter fun a => (BarAgent.rank s g a).isNone

/-- The end of a cycle (R411, R415): the phase advances once, if an update asks for it, every BARX of the cycle goes on
next with the pending count, and what waits on the line is examined again (R414). -/
def endCycle (ag : Agent) (c : BarCycle) (s : State) : State :=
  let s1 := { s with barCycle := none }
  let s2 := if c.advance then setBarFields ag c.addr (barAdvance true (barFields s1 c.addr)) s1 else s1
  let n := (barFields s2 c.addr).pending
  let s3 := wakeLine c.addr (c.readers.foldl (fun t st => t.modSeq st fun q => { q with barRead := some (q.pc, n) }) s2)
  { s3 with agenda := c.readers.map Move.run ++ s3.agenda }

/-- SYNC_LINE_UPDATE (R411): with agents, a cycle of a barrier object begins: the agents move next, in the order of R409,
each reporting a rejected update by its own rule, and the cycle ends behind them. Without agents it ends (log 53). -/
def execSyncLineUpdate (glade line : Nat) (agents : List BarAgent) (s : State) : Host.Outcome State Fault Refusal :=
  let g := glade % 8
  let pa := Config.syncBase + g * 2 ^ 32 + line % 2 ^ 26 * 64
  match agents, s.barCycle with
  | [], some c =>
    let ag : Agent :=
      { core := 192 * g, rcb := Tab.get 0 s.owner (pa / 256), tenant := 0, det := false, task := none, remote := true,
        source := 9, by_ := none }
    .next (if c.addr = pa then endCycle ag c s else s)
  | _ :: _, none =>
    .next { s with
      barCycle := some { addr := pa, advance := false, readers := [] }
      agenda := (agentOrder s g agents).map BarAgent.move ++ .due (.cycleEnd glade line) :: s.agenda }
  | _, _ => .next s

/-- BACKED_LINE_MOVE (R408): a backed line moves between the engine's SRAM and the overflow area, with its marks (R249,
R282); it moves in while one of the 16,384 lines of SRAM that hold backed lines is free (R407). -/
def execBackedLineMove (glade line : Nat) (s : State) :=
  runEvent (modS fun t =>
    let g := glade % 8
    let off := line * 64
    let area := (t.glade g).ovBase.toNat + (off - 0x1000000)
    let inside := decide (0x1000000 ≤ off) && decide (off + 64 ≤ 0x1000000 + (t.glade g).ovSize.toNat) &&
      decide (area + 64 ≤ Config.hbmEnd)
    let waits := t.waiters.any fun w => (w.kind == 1 || w.kind == 10) && w.key == (Config.syncBase + g * 2 ^ 32 + off) / 64
    if !inside then t
    else if (t.glade g).cached.contains line then
      if waits then t
      else
        let bytes := (List.range 64).map fun j => Tab.get 0 (t.glade g).sync (off + j)
        let t1 := markSectors false area 64 (moveMarks (192 * g) 9 (Config.syncBase + g * 2 ^ 32 + off) area 64
          (setDevBytes t area bytes))
        let t2 := t1.modGlade g fun k =>
          { k with cached := k.cached.filter (· != line), sync := Tab.keep (fun a => a / 64 != line) k.sync }
        count (192 * g) 0x84 1 t2
    else if decide (16384 ≤ (t.glade g).cached.length) then t
    else
      let bytes := devBytes t area 64
      let t1 := t.modGlade g fun k => { k with cached := k.cached ++ [line] }
      let pa := Config.syncBase + g * 2 ^ 32 + off
      count (192 * g) 0x84 1 (moveMarks (192 * g) 9 area pa 64 (setDevBytes (countHbm area 64 t1) pa bytes))) s

end Sys2Proof.Machine
end

