-- ==== Sys2Proof/WellFormed.lean ====
section
/-! DEFINITION. Which instructions are well formed: those that pass the decode checks of R79. -/

namespace Sys2Proof

/-- A scalar source: x0 to x47, q0 to q7, zero or a literal (R76). -/
def Src.okScalar : Src → Bool
  | .reg n => decide (n < 48)
  | .queue n => decide (n < 8)
  | _ => true

/-- A tile source of a VA word: v0 to v47, q0 to q3, zero or a literal (R16, R76). -/
def Src.okTileRead : Src → Bool
  | .reg n => decide (n < 48)
  | .queue n => decide (n < 4)
  | _ => true

def Src.isReg : Src → Bool
  | .reg _ => true
  | _ => false

def Src.isLit : Src → Bool
  | .lit32 _ => true
  | .lit64 _ => true
  | _ => false

/-- At most one of two fields is a literal (R77). -/
def Src.oneLit (a b : Src) : Bool := !(a.isLit && b.isLit)

/-- A scalar destination: x0 to x47, q0 to q7, or none (R76). -/
def Dst.okScalar : Dst → Bool
  | .reg n => decide (n < 48)
  | .queue n => decide (n < 8)
  | .discard => true

/-- A destination that is also a source: a register or code 56 (R106, R146). -/
def Dst.okRegZero : Dst → Bool
  | .reg n => decide (n < 48)
  | .queue _ => false
  | .discard => true

/-- A tile destination of a VA word, and the source of a VS word: v0 to v47, q4 to q7, or code 56 (R16, R261). -/
def Dst.okTileWrite : Dst → Bool
  | .reg n => decide (n < 48)
  | .queue n => decide (4 ≤ n) && decide (n < 8)
  | .discard => true
def Dst.okTileStore : Dst → Bool := Dst.okTileWrite

/-- A tile destination of a VL word: v0 to v47, q0 to q3, or code 56 (R16, R261). -/
def Dst.okTileLoad : Dst → Bool
  | .reg n => decide (n < 48)
  | .queue n => decide (n < 4)
  | .discard => true


/-- Whether an instruction is one that decode can give: every check of R79 that reads the base word
alone (a REP pairing is checked with its target, R83). An event is well formed by its form. -/
def Instr.wf : Instr → Bool
  | .add d a b => d.okScalar && a.okScalar && b.okScalar && Src.oneLit a b
  | .sub d a b => d.okScalar && a.okScalar && b.okScalar && Src.oneLit a b
  | .mul d a b => d.okScalar && a.okScalar && b.okScalar && Src.oneLit a b
  | .mulh d a b => d.okScalar && a.okScalar && b.okScalar && Src.oneLit a b
  | .mulhu d a b => d.okScalar && a.okScalar && b.okScalar && Src.oneLit a b
  | .div d a b => d.okScalar && a.okScalar && b.okScalar && Src.oneLit a b
  | .divu d a b => d.okScalar && a.okScalar && b.okScalar && Src.oneLit a b
  | .rem d a b => d.okScalar && a.okScalar && b.okScalar && Src.oneLit a b
  | .remu d a b => d.okScalar && a.okScalar && b.okScalar && Src.oneLit a b
  | .and d a b => d.okScalar && a.okScalar && b.okScalar && Src.oneLit a b
  | .or d a b => d.okScalar && a.okScalar && b.okScalar && Src.oneLit a b
  | .xor d a b => d.okScalar && a.okScalar && b.okScalar && Src.oneLit a b
  | .andn d a b => d.okScalar && a.okScalar && b.okScalar && Src.oneLit a b
  | .shl d a b => d.okScalar && a.okScalar && b.okScalar && Src.oneLit a b
  | .shr d a b => d.okScalar && a.okScalar && b.okScalar && Src.oneLit a b
  | .sar d a b => d.okScalar && a.okScalar && b.okScalar && Src.oneLit a b
  | .rol d a b => d.okScalar && a.okScalar && b.okScalar && Src.oneLit a b
  | .min d a b => d.okScalar && a.okScalar && b.okScalar && Src.oneLit a b
  | .max d a b => d.okScalar && a.okScalar && b.okScalar && Src.oneLit a b
  | .minu d a b => d.okScalar && a.okScalar && b.okScalar && Src.oneLit a b
  | .maxu d a b => d.okScalar && a.okScalar && b.okScalar && Src.oneLit a b
  | .clz d a _ => d.okScalar && a.okScalar
  | .ffs d a _ => d.okScalar && a.okScalar
  | .popc d a _ => d.okScalar && a.okScalar
  | .sext d a b => d.okScalar && a.okScalar && b.okScalar && Src.oneLit a b
  | .zext d a b => d.okScalar && a.okScalar && b.okScalar && Src.oneLit a b
  | .bfx d a b _ => d.okScalar && a.okScalar && b.okScalar && Src.oneLit a b
  | .bfi d a b => d.okRegZero && a.okScalar && b.okScalar && Src.oneLit a b
  | .sel d a b _ => d.okRegZero && a.okScalar && b.okScalar && Src.oneLit a b
  | .cmp d a b _ => d.okScalar && a.okScalar && b.okScalar && Src.oneLit a b
  | .addi d a _ => d.okScalar && a.okScalar
  | .movi d _ => d.okScalar
  | .madr d a b => d.okRegZero && a.okScalar && b.okScalar && Src.oneLit a b
  | .abs d a _ => d.okScalar && a.okScalar
  | .bcc _ a _ => a.okScalar
  | .br _ => true
  | .call _ => true
  | .ret a _ => a.okScalar
  | .loop _ a _ => decide (a < 48)
  | .rds d _ => d.okScalar
  | .wrs d _ => d.okScalar
  | .rdq d _ => decide (d < 8)
  | .fadd d a b _ _ => d.okScalar && a.okScalar && b.okScalar && Src.oneLit a b
  | .fmul d a b _ _ => d.okScalar && a.okScalar && b.okScalar && Src.oneLit a b
  | .ffma d a b _ _ => d.okRegZero && a.okScalar && b.okScalar && Src.oneLit a b
  | .fcmp d a b => d.okScalar && a.okScalar && b.okScalar && Src.oneLit a b
  | .fcvt d a b => d.okScalar && a.okScalar && b.okScalar && Src.oneLit a b
  | .fmin d a b => d.okScalar && a.okScalar && b.okScalar && Src.oneLit a b
  | .fmax d a b => d.okScalar && a.okScalar && b.okScalar && Src.oneLit a b
  | .vld d a b _ => d.okTileLoad && a.okScalar && b.okScalar && Src.oneLit a b
  | .vldx d a b _ => d.okTileLoad && a.okScalar && b.okScalar && Src.oneLit a b
  | .vldb d a b f => d.okTileLoad && a.okScalar && b.okScalar && decide (f ≠ 7) && Src.oneLit a b
  | .vlds d a b => d.okTileLoad && a.okScalar && b.okScalar && Src.oneLit a b
  | .vlda d a b x _ t => d.okTileLoad && a.okScalar && b.okScalar && Src.oneLit a b && !(x && t == .raw)
  | .vldc d a b _ => d.okTileLoad && a.okScalar && b.okScalar && Src.oneLit a b
  | .vldq d a b _ => d.okTileLoad && a.okScalar && b.okScalar && Src.oneLit a b
  | .vst d a b _ => d.okTileStore && a.okScalar && b.okScalar && Src.oneLit a b
  | .vstx d a b _ => d.okTileStore && a.okScalar && b.okScalar && Src.oneLit a b
  | .vstm d a b _ => d.okTileStore && a.okScalar && b.okScalar && Src.oneLit a b
  | .vstc d a b _ _ => d.okTileStore && a.okScalar && b.okScalar && Src.oneLit a b
  | .vstr d a b _ => d.okTileStore && a.okScalar && b.okScalar && Src.oneLit a b
  | .vsta d a b => d.okTileStore && a.okScalar && b.okScalar && Src.oneLit a b
  | .vadd d a b h g _ => d.okTileWrite && a.okTileRead && b.okTileRead && Src.oneLit a b && (!h || a.isReg) && (!g || b.isReg)
  | .vsub d a b h g _ => d.okTileWrite && a.okTileRead && b.okTileRead && Src.oneLit a b && (!h || a.isReg) && (!g || b.isReg)
  | .vmul d a b h g _ => d.okTileWrite && a.okTileRead && b.okTileRead && Src.oneLit a b && (!h || a.isReg) && (!g || b.isReg)
  | .vfma d a b h g _ => d.okRegZero && a.okTileRead && b.okTileRead && Src.oneLit a b && (!h || a.isReg) && (!g || b.isReg)
  | .vfms d a b h g _ => d.okRegZero && a.okTileRead && b.okTileRead && Src.oneLit a b && (!h || a.isReg) && (!g || b.isReg)
  | .vfnma d a b h g _ => d.okRegZero && a.okTileRead && b.okTileRead && Src.oneLit a b && (!h || a.isReg) && (!g || b.isReg)
  | .vmin d a b h g _ => d.okTileWrite && a.okTileRead && b.okTileRead && Src.oneLit a b && (!h || a.isReg) && (!g || b.isReg)
  | .vmax d a b h g _ => d.okTileWrite && a.okTileRead && b.okTileRead && Src.oneLit a b && (!h || a.isReg) && (!g || b.isReg)
  | .vabs d a h _ => d.okTileWrite && a.okTileRead && (!h || a.isReg)
  | .vneg d a h _ => d.okTileWrite && a.okTileRead && (!h || a.isReg)
  | .vrcp d a h _ => d.okTileWrite && a.okTileRead && (!h || a.isReg)
  | .vrsq d a h _ => d.okTileWrite && a.okTileRead && (!h || a.isReg)
  | .vsqrt d a h _ => d.okTileWrite && a.okTileRead && (!h || a.isReg)
  | .vdiv d a b h g _ => d.okTileWrite && a.okTileRead && b.okTileRead && Src.oneLit a b && (!h || a.isReg) && (!g || b.isReg)
  | .vexp d a h _ => d.okTileWrite && a.okTileRead && (!h || a.isReg)
  | .vlog d a h _ => d.okTileWrite && a.okTileRead && (!h || a.isReg)
  | .vtanh d a h _ => d.okTileWrite && a.okTileRead && (!h || a.isReg)
  | .vsigm d a h _ => d.okTileWrite && a.okTileRead && (!h || a.isReg)
  | .vsin d a h _ => d.okTileWrite && a.okTileRead && (!h || a.isReg)
  | .vcos d a h _ => d.okTileWrite && a.okTileRead && (!h || a.isReg)
  | .vand d a b h g _ => d.okTileWrite && a.okTileRead && b.okTileRead && Src.oneLit a b && (!h || a.isReg) && (!g || b.isReg)
  | .vor d a b h g _ => d.okTileWrite && a.okTileRead && b.okTileRead && Src.oneLit a b && (!h || a.isReg) && (!g || b.isReg)
  | .vxor d a b h g _ => d.okTileWrite && a.okTileRead && b.okTileRead && Src.oneLit a b && (!h || a.isReg) && (!g || b.isReg)
  | .vnot d a h _ => d.okTileWrite && a.okTileRead && (!h || a.isReg)
  | .vshl d a b h g _ => d.okTileWrite && a.okTileRead && b.okTileRead && Src.oneLit a b && (!h || a.isReg) && (!g || b.isReg)
  | .vshr d a b h g _ => d.okTileWrite && a.okTileRead && b.okTileRead && Src.oneLit a b && (!h || a.isReg) && (!g || b.isReg)
  | .vsar d a b h g _ => d.okTileWrite && a.okTileRead && b.okTileRead && Src.oneLit a b && (!h || a.isReg) && (!g || b.isReg)
  | .vclz d a h _ => d.okTileWrite && a.okTileRead && (!h || a.isReg)
  | .vffs d a h _ => d.okTileWrite && a.okTileRead && (!h || a.isReg)
  | .vpopc d a h _ => d.okTileWrite && a.okTileRead && (!h || a.isReg)
  | .vcmp _ _ a b h g _ => a.okTileRead && b.okTileRead && Src.oneLit a b && (!h || a.isReg) && (!g || b.isReg)
  | .vsel d a b h g p => d.okTileWrite && a.okTileRead && b.okTileRead && Src.oneLit a b && (!h || a.isReg) && (!g || b.isReg) && decide (p ≠ 0)
  | .vcvt d a _ _ h => d.okTileWrite && a.okTileRead && (!h || a.isReg)
  | .vwiden d a _ h => d.okTileWrite && a.okTileRead && (!h || a.isReg)
  | .vqnt d a _ _ h => d.okTileWrite && a.okTileRead && (!h || a.isReg)
  | .vdqnt d a b h g => d.okTileWrite && a.okTileRead && b.okTileRead && Src.oneLit a b && (!h || a.isReg) && (!g || b.isReg)
  | .vsplit d a t h => d.okTileWrite && a.okTileRead && decide (t ≠ 3) && (!h || a.isReg)
  | .vred d a _ _ _ h => d.okTileWrite && a.okTileRead && (!h || a.isReg)
  | .vscan d a _ _ h => d.okTileWrite && a.okTileRead && (!h || a.isReg)
  | .vtrn d a h => d.okTileWrite && a.okTileRead && (!h || a.isReg)
  | .vshuf d a b h g _ => d.okTileWrite && a.okTileRead && b.okTileRead && Src.oneLit a b && (!h || a.isReg) && (!g || b.isReg)
  | .viota d _ _ => d.okTileWrite
  | .vrng d _ => d.okTileWrite
  | .vshape a _ h => a.okTileRead && (!h || a.isReg)
  | .vmov d a h _ => d.okTileWrite && a.okTileRead && (!h || a.isReg)
  | .vpset o _ a t s h => a.okTileRead && (!h || a.isReg) && (o == .first || (a == .reg 0 && !h)) && (o != .all && o != .none && o != .first || (s == 0 && t == 0)) && (o != .not || t == 0)
  | .vclass _ a _ h _ => a.okTileRead && (!h || a.isReg)
  | .vargx d a _ _ h => d.okTileWrite && a.okTileRead && (!h || a.isReg)
  | .mstrm _ a => a.okScalar
  | .mnest a => a.okScalar
  | .mgo => true
  | .mwait => true
  | .mma _ _ _ b _ _ => b.okScalar
  | .mldw _ _ b => b.okScalar
  | .mwsel _ => true
  | .mzero _ t f => (!f || t == 0)
  | .mspec _ _ => true
  | .mcommit _ => true
  | .mdisc _ => true
  | .mbgj _ => true
  | .mbgl => true
  | .mcbk _ a => a.okScalar
  | .mstat d _ => d.okScalar
  | .qcfg a => a.okScalar
  | .qclr _ => true
  | .qann a _ => a.okScalar
  | .qapl a b _ => a.okScalar && b.okScalar && Src.oneLit a b
  | .qvec d a b => d.okScalar && a.okScalar && b.okScalar && Src.oneLit a b
  | .qrot d a b => d.okScalar && a.okScalar && b.okScalar && Src.oneLit a b
  | .qangf d a => d.okScalar && a.okScalar
  | .qangr d a => d.okScalar && a.okScalar
  | .qrdt a b _ => a.okScalar && b.okScalar && Src.oneLit a b
  | .qwrt a b _ => a.okScalar && b.okScalar && Src.oneLit a b
  | .qrda a x f => a.okScalar && !(f && x == .ang)
  | .qwait => true
  | .qstat d => d.okScalar
  | .ld d a b s f => d.okScalar && a.okScalar && b.okScalar && Src.oneLit a b && !(s && f == .d)
  | .st d a b _ => d.okScalar && a.okScalar && b.okScalar && Src.oneLit a b
  | .lda d a b _ _ => d.okScalar && decide (a < 32) && decide (b < 32)
  | .str d a b _ _ => d.okScalar && decide (a < 32) && decide (b < 32)
  | .pref a b => a.okScalar && b.okScalar && Src.oneLit a b
  | .fence _ _ => true
  | .waita d a b _ _ => d.okScalar && a.okScalar && b.okScalar && Src.oneLit a b
  | .xform d a b _ => d.okScalar && a.okScalar && b.okScalar && Src.oneLit a b
  | .xbox d a => d.okScalar && a.okScalar
  | .amoAdd d a b _ _ => d.okScalar && decide (a < 32) && decide (b < 32)
  | .amoAnd d a b _ _ => d.okScalar && decide (a < 32) && decide (b < 32)
  | .amoOr d a b _ _ => d.okScalar && decide (a < 32) && decide (b < 32)
  | .amoXor d a b _ _ => d.okScalar && decide (a < 32) && decide (b < 32)
  | .amoMin d a b _ _ => d.okScalar && decide (a < 32) && decide (b < 32)
  | .amoMax d a b _ _ => d.okScalar && decide (a < 32) && decide (b < 32)
  | .amoMinu d a b _ _ => d.okScalar && decide (a < 32) && decide (b < 32)
  | .amoMaxu d a b _ _ => d.okScalar && decide (a < 32) && decide (b < 32)
  | .amoSwp d a b _ _ => d.okScalar && decide (a < 32) && decide (b < 32)
  | .amoCas d a b _ _ => d.okScalar && decide (a < 32) && decide (b < 32)
  | .amoFadd d a b _ _ => d.okScalar && decide (a < 32) && decide (b < 32)
  | .amoAddW d a b _ _ => d.okScalar && decide (a < 32) && decide (b < 32)
  | .amoAndW d a b _ _ => d.okScalar && decide (a < 32) && decide (b < 32)
  | .amoOrW d a b _ _ => d.okScalar && decide (a < 32) && decide (b < 32)
  | .amoXorW d a b _ _ => d.okScalar && decide (a < 32) && decide (b < 32)
  | .amoMinW d a b _ _ => d.okScalar && decide (a < 32) && decide (b < 32)
  | .amoMaxW d a b _ _ => d.okScalar && decide (a < 32) && decide (b < 32)
  | .amoMinuW d a b _ _ => d.okScalar && decide (a < 32) && decide (b < 32)
  | .amoMaxuW d a b _ _ => d.okScalar && decide (a < 32) && decide (b < 32)
  | .amoSwpW d a b _ _ => d.okScalar && decide (a < 32) && decide (b < 32)
  | .amoCasW d a b _ _ => d.okScalar && decide (a < 32) && decide (b < 32)
  | .amoFaddW d a b _ _ => d.okScalar && decide (a < 32) && decide (b < 32)
  | .acq d a b _ _ => d.okScalar && decide (a < 32) && decide (b < 32)
  | .rel d a b _ _ => d.okScalar && decide (a < 32) && decide (b < 32)
  | .bind d a b _ => d.okScalar && a.okScalar && b.okScalar && Src.oneLit a b
  | .bara d a b _ _ => d.okScalar && decide (a < 32) && decide (b < 32)
  | .barw d a b _ _ => d.okScalar && decide (a < 32) && decide (b < 32)
  | .barx d a b => d.okScalar && a.okScalar && b.okScalar && Src.oneLit a b
  | .hset d a _ _ => d.okScalar && a.okScalar
  | .hacq d a _ => d.okScalar && a.okScalar
  | .hrel d a _ => d.okScalar && a.okScalar
  | .hwait d a _ _ => d.okScalar && a.okScalar
  | .rclaim d a b _ => d.okScalar && a.okScalar && b.okScalar && Src.oneLit a b
  | .rpub d a b _ _ => d.okScalar && a.okScalar && b.okScalar && Src.oneLit a b
  | .wfill d a b => d.okScalar && a.okScalar && b.okScalar && Src.oneLit a b
  | .wfree d a b => d.okScalar && a.okScalar && b.okScalar && Src.oneLit a b
  | .rcons d a b => d.okScalar && a.okScalar && b.okScalar && Src.oneLit a b
  | .rerr d a b => d.okScalar && a.okScalar && b.okScalar && Src.oneLit a b
  | .rfix d a b => d.okScalar && a.okScalar && b.okScalar && Src.oneLit a b
  | .rfixInit d a b => d.okScalar && a.okScalar && b.okScalar && Src.oneLit a b
  | .rstat d a _ => d.okScalar && a.okScalar
  | .chain a b => a.okScalar && b.okScalar && Src.oneLit a b
  | .cwait d a => d.okScalar && a.okScalar
  | .cstat d a _ => d.okScalar && a.okScalar
  | .nvsub d a b _ => d.okScalar && a.okScalar && b.okScalar && Src.oneLit a b
  | .nvcpl d a b _ => d.okScalar && a.okScalar && b.okScalar && Src.oneLit a b
  | .rstf a b _ => a.okScalar && b.okScalar && Src.oneLit a b
  | .rchain a => a.okScalar
  | .rmcr a b => a.okScalar && b.okScalar && Src.oneLit a b
  | .rldf a b _ => a.okScalar && b.okScalar && Src.oneLit a b
  | .bsend d a b _ => d.okScalar && a.okScalar && b.okScalar && Src.oneLit a b
  | .brecv d a _ => d.okScalar && a.okScalar
  | .bstat d a _ => d.okScalar && a.okScalar
  | .rep _ _ _ => true
  | .nop => true
  | .post d a _ => d.okScalar && a.okScalar
  | .postr d a b => d.okScalar && a.okScalar && b.okScalar && Src.oneLit a b
  | .twait d a _ => d.okScalar && a.okScalar
  | .predwait => true
  | .hintsucc => true
  | .tend => true
  | .regdef d a => d.okScalar && a.okScalar
  | .regdrop a => a.okScalar
  | .trap _ => true
  | .eret _ => true
  | .halt => true
  | .yield a => a.okScalar
  | .qzst d a b => decide (d < 8) && a.okScalar && b.okScalar && Src.oneLit a b
  | .ctxsw a => a.okScalar
  | .ctxswOut a b => a.okScalar && b.okScalar && Src.oneLit a b
  | .ctxswIn a b => a.okScalar && b.okScalar && Src.oneLit a b
  | .rcbld d a b => d.okScalar && a.okScalar && b.okScalar && Src.oneLit a b
  | .rcbldTerm d b => d.okScalar && b.okScalar
  | .rcbldUnf d b => d.okScalar && b.okScalar
  | .fetchFault _ _ => true
  | .decodeFault _ _ => true
  | .trapDelivery _ _ => true
  | .splitWord _ => true
  | .nestStep _ => true
  | .bankLoad _ => true
  | .accumulatorRowCommit _ => true
  | .arrayOperationCommit _ => true
  | .transformLine _ _ => true
  | .xformComplete _ _ => true
  | .transposeTile _ => true
  | .copyRecord _ _ => true
  | .postAccept _ => true
  | .postCheckEnd _ => true
  | .lotteryDraw _ _ => true
  | .taskRetire _ _ => true
  | .edgeResolve _ _ => true
  | .hostPost _ _ => true
  | .preemptHalt _ => true
  | .understoryExchange _ => true
  | .registerWrite _ _ _ => true
  | .cqtail _ _ _ => true
  | .taskSteal _ _ => true
  | .successorReexamine _ _ => true
  | .remotePostReceive _ => true
  | .postrAck _ _ => true
  | .postrResend _ => true
  | .broadcastDelivery _ _ => true
  | .rotationFaultPending _ => true
  | .bankRequest _ _ _ _ _ => true
  | .walkComplete _ => true
  | .scrubRequest _ => true
  | .syncLineUpdate _ _ _ => true
  | .backedLineMove _ _ => true
  | .waitaReevaluate _ _ => true
  | .yieldExpire _ _ => true
  | .blockedWake _ _ _ => true
  | .flitReceive _ _ => true
  | .replayTimeout _ => true
  | .linkDown _ => true
  | .keySlotDrained _ _ => true
  | .prefixAdvertise _ _ => true
  | .remoteAccessReceive _ => true
  | .remoteAck _ _ _ _ _ => true
  | .rchainForward _ => true
  | .rmcrDelivery _ _ _ _ => true
  | .pullRequestArrive _ => true
  | .tokenGrant => true
  | .pullTokenReceive _ => true
  | .pullDataArrive _ _ _ => true
  | .pullCompleteNotice _ _ _ => true
  | .tokenExpiry _ _ _ => true
  | .orphaned _ _ => true
  | .bsendResend _ => true
  | .pullSuspendNotice _ _ => true
  | .pullResumeRequest _ _ _ => true
  | .hostFence _ _ => true
  | .hostCommandInvalid _ _ => true
  | .cplhead _ _ _ => true
  | .hostHbmAccess _ _ _ _ => true
  | .coldReset => true
  | .tenantReset _ => true
  | .tinvGo _ => true
  | .invalidationComplete => true
  | .gctlPre _ => true
  | .gctlRestart _ => true
  | .gctlResume _ => true
  | .ksctlInstall _ _ => true
  | .ksctlCur _ _ => true
  | .fsuspSuspend _ => true
  | .fsuspResume _ => true
  | .timerWrite _ => true
  | .lseedWrite _ _ => true
  | .extend _ _ => true
  | .readmr _ => true
  | .report _ => true
  | .i3cPrivateRead _ => true
  | .setdasa _ => true
  | .entdaa _ => true
  | .clockThrottle _ => true
  | .junctionOvertemp => true
  | .linkTraining _ => true
  | .deviceTimerTick => true

end Sys2Proof
end

