-- ==== Sys2Proof/Decode.lean ====
section
/-! DEFINITION. Decoding and encoding (03_encoding R67 to R86). A word is a natural number; its fields
are taken out by division. `rowOf` is the opcode map, `checkWord` the checks of R79 on a base word,
`checkPair` those of a REP pair, `encodeBase` the encoder. -/

namespace Sys2Proof

/-- Bits [lo + n - 1 : lo] of a word. -/
def bits (w lo n : Nat) : Nat := w / 2 ^ lo % 2 ^ n

/-- The two words after a base word. -/
structure Lits where
  lo : Nat
  hi : Nat
deriving DecidableEq, Repr

/-- A source operand code (R76). -/
def Src.ofCode (l : Lits) (c : Nat) : Src :=
  if c < 48 then .reg c
  else if c < 56 then .queue (c - 48)
  else if c = 62 then .lit32 (BitVec.ofNat 32 l.lo)
  else if c = 63 then .lit64 (BitVec.ofNat 64 (l.lo % 2 ^ 32 + 2 ^ 32 * l.hi))
  else .zero

/-- A destination operand code (R76). -/
def Dst.ofCode (c : Nat) : Dst :=
  if c < 48 then .reg c else if c < 56 then .queue (c - 48) else .discard

def Src.code : Src → Nat
  | .reg n => n
  | .queue n => 48 + n
  | .zero => 56
  | .lit32 _ => 62
  | .lit64 _ => 63

def Dst.code : Dst → Nat
  | .reg n => n
  | .queue n => 48 + n
  | .discard => 56

/-- The literal words of an operand (R68). -/
def Src.lits : Src → List Nat
  | .lit32 v => [v.toNat]
  | .lit64 v => [v.toNat % 2 ^ 32, v.toNat / 2 ^ 32]
  | _ => []

/-- The formats of R73. -/
inductive Fmt where
  | A | I | W | B | J | M | V | P
deriving DecidableEq, Repr

/-- What a field d, a or b of a word holds. -/
inductive FKind where
  /-- must be zero -/
  | unused
  /-- an immediate, a plain index or a control field (R72, R78) -/
  | plain
  /-- a scalar source, a scalar destination (R76) -/
  | src | dst
  /-- 0–47 or 56 (R106); 0–47 (R119); z0–z7 (R121, R444); x0–x31 of format M (R74) -/
  | rz | r | z | r5
  /-- a tile: written, read, both, loaded, stored (R16, R261) -/
  | vdst | vsrc | vrz | ldst | stsrc
deriving DecidableEq, Repr

/-- Which predicate select a VA word takes (R135, R152). -/
inductive PredUse where
  | never | may | must
deriving DecidableEq, Repr

/-- An entry of the opcode map: the layout of the word, the bits that must be zero, the control values
that are assigned (`ok`), and the instruction it stands for. -/
structure Row where
  fmt : Fmt
  d : FKind
  a : FKind
  b : FKind
  pred : PredUse
  zeros : List (Nat × Nat)
  ok : Nat → Bool
  build : Nat → Lits → Instr


def row_add : Row :=
  { fmt := .A, d := .dst, a := .src, b := .src, pred := .never, zeros := [(0, 4)],
    ok := fun _ => true,
    build := fun w l => .add (Dst.ofCode (bits w 16 6)) (Src.ofCode l (bits w 10 6)) (Src.ofCode l (bits w 4 6)) }
def row_sub : Row :=
  { fmt := .A, d := .dst, a := .src, b := .src, pred := .never, zeros := [(0, 4)],
    ok := fun _ => true,
    build := fun w l => .sub (Dst.ofCode (bits w 16 6)) (Src.ofCode l (bits w 10 6)) (Src.ofCode l (bits w 4 6)) }
def row_mul : Row :=
  { fmt := .A, d := .dst, a := .src, b := .src, pred := .never, zeros := [(0, 4)],
    ok := fun _ => true,
    build := fun w l => .mul (Dst.ofCode (bits w 16 6)) (Src.ofCode l (bits w 10 6)) (Src.ofCode l (bits w 4 6)) }
def row_mulh : Row :=
  { fmt := .A, d := .dst, a := .src, b := .src, pred := .never, zeros := [(0, 4)],
    ok := fun _ => true,
    build := fun w l => .mulh (Dst.ofCode (bits w 16 6)) (Src.ofCode l (bits w 10 6)) (Src.ofCode l (bits w 4 6)) }
def row_mulhu : Row :=
  { fmt := .A, d := .dst, a := .src, b := .src, pred := .never, zeros := [(0, 4)],
    ok := fun _ => true,
    build := fun w l => .mulhu (Dst.ofCode (bits w 16 6)) (Src.ofCode l (bits w 10 6)) (Src.ofCode l (bits w 4 6)) }
def row_div : Row :=
  { fmt := .A, d := .dst, a := .src, b := .src, pred := .never, zeros := [(0, 4)],
    ok := fun _ => true,
    build := fun w l => .div (Dst.ofCode (bits w 16 6)) (Src.ofCode l (bits w 10 6)) (Src.ofCode l (bits w 4 6)) }
def row_divu : Row :=
  { fmt := .A, d := .dst, a := .src, b := .src, pred := .never, zeros := [(0, 4)],
    ok := fun _ => true,
    build := fun w l => .divu (Dst.ofCode (bits w 16 6)) (Src.ofCode l (bits w 10 6)) (Src.ofCode l (bits w 4 6)) }
def row_rem : Row :=
  { fmt := .A, d := .dst, a := .src, b := .src, pred := .never, zeros := [(0, 4)],
    ok := fun _ => true,
    build := fun w l => .rem (Dst.ofCode (bits w 16 6)) (Src.ofCode l (bits w 10 6)) (Src.ofCode l (bits w 4 6)) }
def row_remu : Row :=
  { fmt := .A, d := .dst, a := .src, b := .src, pred := .never, zeros := [(0, 4)],
    ok := fun _ => true,
    build := fun w l => .remu (Dst.ofCode (bits w 16 6)) (Src.ofCode l (bits w 10 6)) (Src.ofCode l (bits w 4 6)) }
def row_and : Row :=
  { fmt := .A, d := .dst, a := .src, b := .src, pred := .never, zeros := [(0, 4)],
    ok := fun _ => true,
    build := fun w l => .and (Dst.ofCode (bits w 16 6)) (Src.ofCode l (bits w 10 6)) (Src.ofCode l (bits w 4 6)) }
def row_or : Row :=
  { fmt := .A, d := .dst, a := .src, b := .src, pred := .never, zeros := [(0, 4)],
    ok := fun _ => true,
    build := fun w l => .or (Dst.ofCode (bits w 16 6)) (Src.ofCode l (bits w 10 6)) (Src.ofCode l (bits w 4 6)) }
def row_xor : Row :=
  { fmt := .A, d := .dst, a := .src, b := .src, pred := .never, zeros := [(0, 4)],
    ok := fun _ => true,
    build := fun w l => .xor (Dst.ofCode (bits w 16 6)) (Src.ofCode l (bits w 10 6)) (Src.ofCode l (bits w 4 6)) }
def row_andn : Row :=
  { fmt := .A, d := .dst, a := .src, b := .src, pred := .never, zeros := [(0, 4)],
    ok := fun _ => true,
    build := fun w l => .andn (Dst.ofCode (bits w 16 6)) (Src.ofCode l (bits w 10 6)) (Src.ofCode l (bits w 4 6)) }
def row_shl : Row :=
  { fmt := .A, d := .dst, a := .src, b := .src, pred := .never, zeros := [(0, 4)],
    ok := fun _ => true,
    build := fun w l => .shl (Dst.ofCode (bits w 16 6)) (Src.ofCode l (bits w 10 6)) (Src.ofCode l (bits w 4 6)) }
def row_shr : Row :=
  { fmt := .A, d := .dst, a := .src, b := .src, pred := .never, zeros := [(0, 4)],
    ok := fun _ => true,
    build := fun w l => .shr (Dst.ofCode (bits w 16 6)) (Src.ofCode l (bits w 10 6)) (Src.ofCode l (bits w 4 6)) }
def row_sar : Row :=
  { fmt := .A, d := .dst, a := .src, b := .src, pred := .never, zeros := [(0, 4)],
    ok := fun _ => true,
    build := fun w l => .sar (Dst.ofCode (bits w 16 6)) (Src.ofCode l (bits w 10 6)) (Src.ofCode l (bits w 4 6)) }
def row_rol : Row :=
  { fmt := .A, d := .dst, a := .src, b := .src, pred := .never, zeros := [(0, 4)],
    ok := fun _ => true,
    build := fun w l => .rol (Dst.ofCode (bits w 16 6)) (Src.ofCode l (bits w 10 6)) (Src.ofCode l (bits w 4 6)) }
def row_min : Row :=
  { fmt := .A, d := .dst, a := .src, b := .src, pred := .never, zeros := [(0, 4)],
    ok := fun _ => true,
    build := fun w l => .min (Dst.ofCode (bits w 16 6)) (Src.ofCode l (bits w 10 6)) (Src.ofCode l (bits w 4 6)) }
def row_max : Row :=
  { fmt := .A, d := .dst, a := .src, b := .src, pred := .never, zeros := [(0, 4)],
    ok := fun _ => true,
    build := fun w l => .max (Dst.ofCode (bits w 16 6)) (Src.ofCode l (bits w 10 6)) (Src.ofCode l (bits w 4 6)) }
def row_minu : Row :=
  { fmt := .A, d := .dst, a := .src, b := .src, pred := .never, zeros := [(0, 4)],
    ok := fun _ => true,
    build := fun w l => .minu (Dst.ofCode (bits w 16 6)) (Src.ofCode l (bits w 10 6)) (Src.ofCode l (bits w 4 6)) }
def row_maxu : Row :=
  { fmt := .A, d := .dst, a := .src, b := .src, pred := .never, zeros := [(0, 4)],
    ok := fun _ => true,
    build := fun w l => .maxu (Dst.ofCode (bits w 16 6)) (Src.ofCode l (bits w 10 6)) (Src.ofCode l (bits w 4 6)) }
def row_clz : Row :=
  { fmt := .A, d := .dst, a := .src, b := .unused, pred := .never, zeros := [(4, 6)],
    ok := fun w => decide (bits w 0 4 < 4),
    build := fun w l => .clz (Dst.ofCode (bits w 16 6)) (Src.ofCode l (bits w 10 6)) (Wid.ofCode (bits w 0 4)) }
def row_ffs : Row :=
  { fmt := .A, d := .dst, a := .src, b := .unused, pred := .never, zeros := [(4, 6)],
    ok := fun w => decide (bits w 0 4 < 4),
    build := fun w l => .ffs (Dst.ofCode (bits w 16 6)) (Src.ofCode l (bits w 10 6)) (Wid.ofCode (bits w 0 4)) }
def row_popc : Row :=
  { fmt := .A, d := .dst, a := .src, b := .unused, pred := .never, zeros := [(4, 6)],
    ok := fun w => decide (bits w 0 4 < 4),
    build := fun w l => .popc (Dst.ofCode (bits w 16 6)) (Src.ofCode l (bits w 10 6)) (Wid.ofCode (bits w 0 4)) }
def row_sext : Row :=
  { fmt := .A, d := .dst, a := .src, b := .src, pred := .never, zeros := [(0, 4)],
    ok := fun _ => true,
    build := fun w l => .sext (Dst.ofCode (bits w 16 6)) (Src.ofCode l (bits w 10 6)) (Src.ofCode l (bits w 4 6)) }
def row_zext : Row :=
  { fmt := .A, d := .dst, a := .src, b := .src, pred := .never, zeros := [(0, 4)],
    ok := fun _ => true,
    build := fun w l => .zext (Dst.ofCode (bits w 16 6)) (Src.ofCode l (bits w 10 6)) (Src.ofCode l (bits w 4 6)) }
def row_bfx : Row :=
  { fmt := .A, d := .dst, a := .src, b := .src, pred := .never, zeros := [(1, 3)],
    ok := fun _ => true,
    build := fun w l => .bfx (Dst.ofCode (bits w 16 6)) (Src.ofCode l (bits w 10 6)) (Src.ofCode l (bits w 4 6)) (bits w 0 1 == 1) }
def row_bfi : Row :=
  { fmt := .A, d := .rz, a := .src, b := .src, pred := .never, zeros := [(0, 4)],
    ok := fun _ => true,
    build := fun w l => .bfi (Dst.ofCode (bits w 16 6)) (Src.ofCode l (bits w 10 6)) (Src.ofCode l (bits w 4 6)) }
def row_sel : Row :=
  { fmt := .A, d := .rz, a := .src, b := .src, pred := .never, zeros := [],
    ok := fun w => decide (bits w 0 4 < 8),
    build := fun w l => .sel (Dst.ofCode (bits w 16 6)) (Src.ofCode l (bits w 10 6)) (Src.ofCode l (bits w 4 6)) (Cond.ofSelCode (bits w 0 4)) }
def row_cmp : Row :=
  { fmt := .A, d := .dst, a := .src, b := .src, pred := .never, zeros := [(1, 3)],
    ok := fun _ => true,
    build := fun w l => .cmp (Dst.ofCode (bits w 16 6)) (Src.ofCode l (bits w 10 6)) (Src.ofCode l (bits w 4 6)) (bits w 0 1 == 1) }
def row_addi : Row :=
  { fmt := .I, d := .dst, a := .src, b := .plain, pred := .never, zeros := [],
    ok := fun _ => true,
    build := fun w l => .addi (Dst.ofCode (bits w 16 6)) (Src.ofCode l (bits w 10 6)) (BitVec.ofNat 10 (bits w 0 10)) }
def row_movi : Row :=
  { fmt := .W, d := .dst, a := .plain, b := .plain, pred := .never, zeros := [],
    ok := fun _ => true,
    build := fun w _ => .movi (Dst.ofCode (bits w 16 6)) (BitVec.ofNat 16 (bits w 0 16)) }
def row_madr : Row :=
  { fmt := .A, d := .rz, a := .src, b := .src, pred := .never, zeros := [(0, 4)],
    ok := fun _ => true,
    build := fun w l => .madr (Dst.ofCode (bits w 16 6)) (Src.ofCode l (bits w 10 6)) (Src.ofCode l (bits w 4 6)) }
def row_abs : Row :=
  { fmt := .A, d := .dst, a := .src, b := .unused, pred := .never, zeros := [(1, 9)],
    ok := fun _ => true,
    build := fun w l => .abs (Dst.ofCode (bits w 16 6)) (Src.ofCode l (bits w 10 6)) (bits w 0 1 == 1) }
def row_bcc : Row :=
  { fmt := .B, d := .plain, a := .src, b := .plain, pred := .never, zeros := [],
    ok := fun w => decide (bits w 18 4 < 8),
    build := fun w l => .bcc (Cond.ofCode (bits w 18 4)) (Src.ofCode l (bits w 12 6)) (BitVec.ofNat 12 (bits w 0 12)) }
def row_br : Row :=
  { fmt := .J, d := .plain, a := .plain, b := .plain, pred := .never, zeros := [],
    ok := fun _ => true,
    build := fun w _ => .br (BitVec.ofNat 22 (bits w 0 22)) }
def row_call : Row :=
  { fmt := .J, d := .plain, a := .plain, b := .plain, pred := .never, zeros := [],
    ok := fun _ => true,
    build := fun w _ => .call (BitVec.ofNat 22 (bits w 0 22)) }
def row_ret : Row :=
  { fmt := .A, d := .unused, a := .src, b := .unused, pred := .never, zeros := [(1, 9), (16, 6)],
    ok := fun _ => true,
    build := fun w l => .ret (Src.ofCode l (bits w 10 6)) (bits w 0 1 == 1) }
def row_loop : Row :=
  { fmt := .B, d := .plain, a := .r, b := .plain, pred := .never, zeros := [],
    ok := fun w => decide (bits w 18 4 < 8),
    build := fun w _ => .loop (Cond.ofCode (bits w 18 4)) (bits w 12 6) (BitVec.ofNat 12 (bits w 0 12)) }
def row_rds : Row :=
  { fmt := .W, d := .dst, a := .plain, b := .plain, pred := .never, zeros := [],
    ok := fun _ => true,
    build := fun w _ => .rds (Dst.ofCode (bits w 16 6)) (BitVec.ofNat 16 (bits w 0 16)) }
def row_wrs : Row :=
  { fmt := .W, d := .dst, a := .plain, b := .plain, pred := .never, zeros := [],
    ok := fun _ => true,
    build := fun w _ => .wrs (Dst.ofCode (bits w 16 6)) (BitVec.ofNat 16 (bits w 0 16)) }
def row_rdq : Row :=
  { fmt := .W, d := .z, a := .plain, b := .plain, pred := .never, zeros := [],
    ok := fun _ => true,
    build := fun w _ => .rdq (bits w 16 6) (BitVec.ofNat 16 (bits w 0 16)) }
def row_fadd : Row :=
  { fmt := .A, d := .dst, a := .src, b := .src, pred := .never, zeros := [(3, 1)],
    ok := fun _ => true,
    build := fun w l => .fadd (Dst.ofCode (bits w 16 6)) (Src.ofCode l (bits w 10 6)) (Src.ofCode l (bits w 4 6)) (bits w 2 1 == 1) (Rnd.ofCode (bits w 0 2)) }
def row_fmul : Row :=
  { fmt := .A, d := .dst, a := .src, b := .src, pred := .never, zeros := [(3, 1)],
    ok := fun _ => true,
    build := fun w l => .fmul (Dst.ofCode (bits w 16 6)) (Src.ofCode l (bits w 10 6)) (Src.ofCode l (bits w 4 6)) (bits w 2 1 == 1) (Rnd.ofCode (bits w 0 2)) }
def row_ffma : Row :=
  { fmt := .A, d := .rz, a := .src, b := .src, pred := .never, zeros := [(3, 1)],
    ok := fun _ => true,
    build := fun w l => .ffma (Dst.ofCode (bits w 16 6)) (Src.ofCode l (bits w 10 6)) (Src.ofCode l (bits w 4 6)) (bits w 2 1 == 1) (Rnd.ofCode (bits w 0 2)) }
def row_fcmp : Row :=
  { fmt := .A, d := .dst, a := .src, b := .src, pred := .never, zeros := [(0, 4)],
    ok := fun _ => true,
    build := fun w l => .fcmp (Dst.ofCode (bits w 16 6)) (Src.ofCode l (bits w 10 6)) (Src.ofCode l (bits w 4 6)) }
def row_fcvt : Row :=
  { fmt := .A, d := .dst, a := .src, b := .src, pred := .never, zeros := [(0, 4)],
    ok := fun _ => true,
    build := fun w l => .fcvt (Dst.ofCode (bits w 16 6)) (Src.ofCode l (bits w 10 6)) (Src.ofCode l (bits w 4 6)) }
def row_fmin : Row :=
  { fmt := .A, d := .dst, a := .src, b := .src, pred := .never, zeros := [(0, 4)],
    ok := fun _ => true,
    build := fun w l => .fmin (Dst.ofCode (bits w 16 6)) (Src.ofCode l (bits w 10 6)) (Src.ofCode l (bits w 4 6)) }
def row_fmax : Row :=
  { fmt := .A, d := .dst, a := .src, b := .src, pred := .never, zeros := [(0, 4)],
    ok := fun _ => true,
    build := fun w l => .fmax (Dst.ofCode (bits w 16 6)) (Src.ofCode l (bits w 10 6)) (Src.ofCode l (bits w 4 6)) }
def row_vld : Row :=
  { fmt := .A, d := .ldst, a := .src, b := .src, pred := .never, zeros := [(3, 1)],
    ok := fun _ => true,
    build := fun w l => .vld (Dst.ofCode (bits w 16 6)) (Src.ofCode l (bits w 10 6)) (Src.ofCode l (bits w 4 6)) (BitVec.ofNat 3 (bits w 0 3)) }
def row_vldx : Row :=
  { fmt := .A, d := .ldst, a := .src, b := .src, pred := .never, zeros := [],
    ok := fun _ => true,
    build := fun w l => .vldx (Dst.ofCode (bits w 16 6)) (Src.ofCode l (bits w 10 6)) (Src.ofCode l (bits w 4 6)) (BitVec.ofNat 4 (bits w 0 4)) }
def row_vldb : Row :=
  { fmt := .A, d := .ldst, a := .src, b := .src, pred := .never, zeros := [(3, 1)],
    ok := fun w => bits w 0 3 != 7,
    build := fun w l => .vldb (Dst.ofCode (bits w 16 6)) (Src.ofCode l (bits w 10 6)) (Src.ofCode l (bits w 4 6)) (BitVec.ofNat 3 (bits w 0 3)) }
def row_vlds : Row :=
  { fmt := .A, d := .ldst, a := .src, b := .src, pred := .never, zeros := [(0, 4)],
    ok := fun _ => true,
    build := fun w l => .vlds (Dst.ofCode (bits w 16 6)) (Src.ofCode l (bits w 10 6)) (Src.ofCode l (bits w 4 6)) }
def row_vlda : Row :=
  { fmt := .A, d := .ldst, a := .src, b := .src, pred := .never, zeros := [],
    ok := fun w => decide (bits w 0 2 < 3) && (!(bits w 3 1 == 1 && bits w 0 2 == 0)),
    build := fun w l => .vlda (Dst.ofCode (bits w 16 6)) (Src.ofCode l (bits w 10 6)) (Src.ofCode l (bits w 4 6)) (bits w 3 1 == 1) (bits w 2 1 == 1) (AccType.ofCode (bits w 0 2)) }
def row_vldc : Row :=
  { fmt := .A, d := .ldst, a := .src, b := .src, pred := .never, zeros := [],
    ok := fun w => decide (bits w 0 4 < 7),
    build := fun w l => .vldc (Dst.ofCode (bits w 16 6)) (Src.ofCode l (bits w 10 6)) (Src.ofCode l (bits w 4 6)) (WidenSrc.ofCode (bits w 0 4)) }
def row_vldq : Row :=
  { fmt := .A, d := .ldst, a := .src, b := .src, pred := .never, zeros := [(3, 1)],
    ok := fun w => decide (bits w 0 3 < 6),
    build := fun w l => .vldq (Dst.ofCode (bits w 16 6)) (Src.ofCode l (bits w 10 6)) (Src.ofCode l (bits w 4 6)) (Scope.ofCode (bits w 0 3)) }
def row_vst : Row :=
  { fmt := .A, d := .stsrc, a := .src, b := .src, pred := .never, zeros := [(3, 1)],
    ok := fun _ => true,
    build := fun w l => .vst (Dst.ofCode (bits w 16 6)) (Src.ofCode l (bits w 10 6)) (Src.ofCode l (bits w 4 6)) (BitVec.ofNat 3 (bits w 0 3)) }
def row_vstx : Row :=
  { fmt := .A, d := .stsrc, a := .src, b := .src, pred := .never, zeros := [],
    ok := fun _ => true,
    build := fun w l => .vstx (Dst.ofCode (bits w 16 6)) (Src.ofCode l (bits w 10 6)) (Src.ofCode l (bits w 4 6)) (BitVec.ofNat 4 (bits w 0 4)) }
def row_vstm : Row :=
  { fmt := .A, d := .stsrc, a := .src, b := .src, pred := .never, zeros := [(3, 1)],
    ok := fun _ => true,
    build := fun w l => .vstm (Dst.ofCode (bits w 16 6)) (Src.ofCode l (bits w 10 6)) (Src.ofCode l (bits w 4 6)) (BitVec.ofNat 3 (bits w 0 3)) }
def row_vstc : Row :=
  { fmt := .A, d := .stsrc, a := .src, b := .src, pred := .never, zeros := [],
    ok := fun _ => true,
    build := fun w l => .vstc (Dst.ofCode (bits w 16 6)) (Src.ofCode l (bits w 10 6)) (Src.ofCode l (bits w 4 6)) (Policy.ofCode (bits w 2 2)) (StoreFmt.ofCode (bits w 0 2)) }
def row_vstr : Row :=
  { fmt := .A, d := .stsrc, a := .src, b := .src, pred := .never, zeros := [(3, 1)],
    ok := fun w => decide (bits w 0 3 < 6),
    build := fun w l => .vstr (Dst.ofCode (bits w 16 6)) (Src.ofCode l (bits w 10 6)) (Src.ofCode l (bits w 4 6)) (Scope.ofCode (bits w 0 3)) }
def row_vsta : Row :=
  { fmt := .A, d := .stsrc, a := .src, b := .src, pred := .never, zeros := [(0, 4)],
    ok := fun _ => true,
    build := fun w l => .vsta (Dst.ofCode (bits w 16 6)) (Src.ofCode l (bits w 10 6)) (Src.ofCode l (bits w 4 6)) }
def row_vadd : Row :=
  { fmt := .V, d := .vdst, a := .vsrc, b := .vsrc, pred := .may, zeros := [],
    ok := fun _ => true,
    build := fun w l => .vadd (Dst.ofCode (bits w 16 6)) (Src.ofCode l (bits w 10 6)) (Src.ofCode l (bits w 4 6)) (bits w 3 1 == 1) (bits w 2 1 == 1) (BitVec.ofNat 2 (bits w 0 2)) }
def row_vsub : Row :=
  { fmt := .V, d := .vdst, a := .vsrc, b := .vsrc, pred := .may, zeros := [],
    ok := fun _ => true,
    build := fun w l => .vsub (Dst.ofCode (bits w 16 6)) (Src.ofCode l (bits w 10 6)) (Src.ofCode l (bits w 4 6)) (bits w 3 1 == 1) (bits w 2 1 == 1) (BitVec.ofNat 2 (bits w 0 2)) }
def row_vmul : Row :=
  { fmt := .V, d := .vdst, a := .vsrc, b := .vsrc, pred := .may, zeros := [],
    ok := fun _ => true,
    build := fun w l => .vmul (Dst.ofCode (bits w 16 6)) (Src.ofCode l (bits w 10 6)) (Src.ofCode l (bits w 4 6)) (bits w 3 1 == 1) (bits w 2 1 == 1) (BitVec.ofNat 2 (bits w 0 2)) }
def row_vfma : Row :=
  { fmt := .V, d := .vrz, a := .vsrc, b := .vsrc, pred := .may, zeros := [],
    ok := fun _ => true,
    build := fun w l => .vfma (Dst.ofCode (bits w 16 6)) (Src.ofCode l (bits w 10 6)) (Src.ofCode l (bits w 4 6)) (bits w 3 1 == 1) (bits w 2 1 == 1) (BitVec.ofNat 2 (bits w 0 2)) }
def row_vfms : Row :=
  { fmt := .V, d := .vrz, a := .vsrc, b := .vsrc, pred := .may, zeros := [],
    ok := fun _ => true,
    build := fun w l => .vfms (Dst.ofCode (bits w 16 6)) (Src.ofCode l (bits w 10 6)) (Src.ofCode l (bits w 4 6)) (bits w 3 1 == 1) (bits w 2 1 == 1) (BitVec.ofNat 2 (bits w 0 2)) }
def row_vfnma : Row :=
  { fmt := .V, d := .vrz, a := .vsrc, b := .vsrc, pred := .may, zeros := [],
    ok := fun _ => true,
    build := fun w l => .vfnma (Dst.ofCode (bits w 16 6)) (Src.ofCode l (bits w 10 6)) (Src.ofCode l (bits w 4 6)) (bits w 3 1 == 1) (bits w 2 1 == 1) (BitVec.ofNat 2 (bits w 0 2)) }
def row_vmin : Row :=
  { fmt := .V, d := .vdst, a := .vsrc, b := .vsrc, pred := .may, zeros := [],
    ok := fun _ => true,
    build := fun w l => .vmin (Dst.ofCode (bits w 16 6)) (Src.ofCode l (bits w 10 6)) (Src.ofCode l (bits w 4 6)) (bits w 3 1 == 1) (bits w 2 1 == 1) (BitVec.ofNat 2 (bits w 0 2)) }
def row_vmax : Row :=
  { fmt := .V, d := .vdst, a := .vsrc, b := .vsrc, pred := .may, zeros := [],
    ok := fun _ => true,
    build := fun w l => .vmax (Dst.ofCode (bits w 16 6)) (Src.ofCode l (bits w 10 6)) (Src.ofCode l (bits w 4 6)) (bits w 3 1 == 1) (bits w 2 1 == 1) (BitVec.ofNat 2 (bits w 0 2)) }
def row_vabs : Row :=
  { fmt := .V, d := .vdst, a := .vsrc, b := .unused, pred := .may, zeros := [(2, 1), (4, 6)],
    ok := fun _ => true,
    build := fun w l => .vabs (Dst.ofCode (bits w 16 6)) (Src.ofCode l (bits w 10 6)) (bits w 3 1 == 1) (BitVec.ofNat 2 (bits w 0 2)) }
def row_vneg : Row :=
  { fmt := .V, d := .vdst, a := .vsrc, b := .unused, pred := .may, zeros := [(2, 1), (4, 6)],
    ok := fun _ => true,
    build := fun w l => .vneg (Dst.ofCode (bits w 16 6)) (Src.ofCode l (bits w 10 6)) (bits w 3 1 == 1) (BitVec.ofNat 2 (bits w 0 2)) }
def row_vrcp : Row :=
  { fmt := .V, d := .vdst, a := .vsrc, b := .unused, pred := .may, zeros := [(2, 1), (4, 6)],
    ok := fun _ => true,
    build := fun w l => .vrcp (Dst.ofCode (bits w 16 6)) (Src.ofCode l (bits w 10 6)) (bits w 3 1 == 1) (BitVec.ofNat 2 (bits w 0 2)) }
def row_vrsq : Row :=
  { fmt := .V, d := .vdst, a := .vsrc, b := .unused, pred := .may, zeros := [(2, 1), (4, 6)],
    ok := fun _ => true,
    build := fun w l => .vrsq (Dst.ofCode (bits w 16 6)) (Src.ofCode l (bits w 10 6)) (bits w 3 1 == 1) (BitVec.ofNat 2 (bits w 0 2)) }
def row_vsqrt : Row :=
  { fmt := .V, d := .vdst, a := .vsrc, b := .unused, pred := .may, zeros := [(2, 1), (4, 6)],
    ok := fun _ => true,
    build := fun w l => .vsqrt (Dst.ofCode (bits w 16 6)) (Src.ofCode l (bits w 10 6)) (bits w 3 1 == 1) (BitVec.ofNat 2 (bits w 0 2)) }
def row_vdiv : Row :=
  { fmt := .V, d := .vdst, a := .vsrc, b := .vsrc, pred := .may, zeros := [],
    ok := fun _ => true,
    build := fun w l => .vdiv (Dst.ofCode (bits w 16 6)) (Src.ofCode l (bits w 10 6)) (Src.ofCode l (bits w 4 6)) (bits w 3 1 == 1) (bits w 2 1 == 1) (BitVec.ofNat 2 (bits w 0 2)) }
def row_vexp : Row :=
  { fmt := .V, d := .vdst, a := .vsrc, b := .unused, pred := .may, zeros := [(2, 1), (4, 6)],
    ok := fun _ => true,
    build := fun w l => .vexp (Dst.ofCode (bits w 16 6)) (Src.ofCode l (bits w 10 6)) (bits w 3 1 == 1) (BitVec.ofNat 2 (bits w 0 2)) }
def row_vlog : Row :=
  { fmt := .V, d := .vdst, a := .vsrc, b := .unused, pred := .may, zeros := [(2, 1), (4, 6)],
    ok := fun _ => true,
    build := fun w l => .vlog (Dst.ofCode (bits w 16 6)) (Src.ofCode l (bits w 10 6)) (bits w 3 1 == 1) (BitVec.ofNat 2 (bits w 0 2)) }
def row_vtanh : Row :=
  { fmt := .V, d := .vdst, a := .vsrc, b := .unused, pred := .may, zeros := [(2, 1), (4, 6)],
    ok := fun _ => true,
    build := fun w l => .vtanh (Dst.ofCode (bits w 16 6)) (Src.ofCode l (bits w 10 6)) (bits w 3 1 == 1) (BitVec.ofNat 2 (bits w 0 2)) }
def row_vsigm : Row :=
  { fmt := .V, d := .vdst, a := .vsrc, b := .unused, pred := .may, zeros := [(2, 1), (4, 6)],
    ok := fun _ => true,
    build := fun w l => .vsigm (Dst.ofCode (bits w 16 6)) (Src.ofCode l (bits w 10 6)) (bits w 3 1 == 1) (BitVec.ofNat 2 (bits w 0 2)) }
def row_vsin : Row :=
  { fmt := .V, d := .vdst, a := .vsrc, b := .unused, pred := .may, zeros := [(2, 1), (4, 6)],
    ok := fun _ => true,
    build := fun w l => .vsin (Dst.ofCode (bits w 16 6)) (Src.ofCode l (bits w 10 6)) (bits w 3 1 == 1) (BitVec.ofNat 2 (bits w 0 2)) }
def row_vcos : Row :=
  { fmt := .V, d := .vdst, a := .vsrc, b := .unused, pred := .may, zeros := [(2, 1), (4, 6)],
    ok := fun _ => true,
    build := fun w l => .vcos (Dst.ofCode (bits w 16 6)) (Src.ofCode l (bits w 10 6)) (bits w 3 1 == 1) (BitVec.ofNat 2 (bits w 0 2)) }
def row_vand : Row :=
  { fmt := .V, d := .vdst, a := .vsrc, b := .vsrc, pred := .may, zeros := [],
    ok := fun _ => true,
    build := fun w l => .vand (Dst.ofCode (bits w 16 6)) (Src.ofCode l (bits w 10 6)) (Src.ofCode l (bits w 4 6)) (bits w 3 1 == 1) (bits w 2 1 == 1) (BitVec.ofNat 2 (bits w 0 2)) }
def row_vor : Row :=
  { fmt := .V, d := .vdst, a := .vsrc, b := .vsrc, pred := .may, zeros := [],
    ok := fun _ => true,
    build := fun w l => .vor (Dst.ofCode (bits w 16 6)) (Src.ofCode l (bits w 10 6)) (Src.ofCode l (bits w 4 6)) (bits w 3 1 == 1) (bits w 2 1 == 1) (BitVec.ofNat 2 (bits w 0 2)) }
def row_vxor : Row :=
  { fmt := .V, d := .vdst, a := .vsrc, b := .vsrc, pred := .may, zeros := [],
    ok := fun _ => true,
    build := fun w l => .vxor (Dst.ofCode (bits w 16 6)) (Src.ofCode l (bits w 10 6)) (Src.ofCode l (bits w 4 6)) (bits w 3 1 == 1) (bits w 2 1 == 1) (BitVec.ofNat 2 (bits w 0 2)) }
def row_vnot : Row :=
  { fmt := .V, d := .vdst, a := .vsrc, b := .unused, pred := .may, zeros := [(2, 1), (4, 6)],
    ok := fun _ => true,
    build := fun w l => .vnot (Dst.ofCode (bits w 16 6)) (Src.ofCode l (bits w 10 6)) (bits w 3 1 == 1) (BitVec.ofNat 2 (bits w 0 2)) }
def row_vshl : Row :=
  { fmt := .V, d := .vdst, a := .vsrc, b := .vsrc, pred := .may, zeros := [],
    ok := fun _ => true,
    build := fun w l => .vshl (Dst.ofCode (bits w 16 6)) (Src.ofCode l (bits w 10 6)) (Src.ofCode l (bits w 4 6)) (bits w 3 1 == 1) (bits w 2 1 == 1) (BitVec.ofNat 2 (bits w 0 2)) }
def row_vshr : Row :=
  { fmt := .V, d := .vdst, a := .vsrc, b := .vsrc, pred := .may, zeros := [],
    ok := fun _ => true,
    build := fun w l => .vshr (Dst.ofCode (bits w 16 6)) (Src.ofCode l (bits w 10 6)) (Src.ofCode l (bits w 4 6)) (bits w 3 1 == 1) (bits w 2 1 == 1) (BitVec.ofNat 2 (bits w 0 2)) }
def row_vsar : Row :=
  { fmt := .V, d := .vdst, a := .vsrc, b := .vsrc, pred := .may, zeros := [],
    ok := fun _ => true,
    build := fun w l => .vsar (Dst.ofCode (bits w 16 6)) (Src.ofCode l (bits w 10 6)) (Src.ofCode l (bits w 4 6)) (bits w 3 1 == 1) (bits w 2 1 == 1) (BitVec.ofNat 2 (bits w 0 2)) }
def row_vclz : Row :=
  { fmt := .V, d := .vdst, a := .vsrc, b := .unused, pred := .may, zeros := [(2, 1), (4, 6)],
    ok := fun _ => true,
    build := fun w l => .vclz (Dst.ofCode (bits w 16 6)) (Src.ofCode l (bits w 10 6)) (bits w 3 1 == 1) (BitVec.ofNat 2 (bits w 0 2)) }
def row_vffs : Row :=
  { fmt := .V, d := .vdst, a := .vsrc, b := .unused, pred := .may, zeros := [(2, 1), (4, 6)],
    ok := fun _ => true,
    build := fun w l => .vffs (Dst.ofCode (bits w 16 6)) (Src.ofCode l (bits w 10 6)) (bits w 3 1 == 1) (BitVec.ofNat 2 (bits w 0 2)) }
def row_vpopc : Row :=
  { fmt := .V, d := .vdst, a := .vsrc, b := .unused, pred := .may, zeros := [(2, 1), (4, 6)],
    ok := fun _ => true,
    build := fun w l => .vpopc (Dst.ofCode (bits w 16 6)) (Src.ofCode l (bits w 10 6)) (bits w 3 1 == 1) (BitVec.ofNat 2 (bits w 0 2)) }
def row_vcmp : Row :=
  { fmt := .V, d := .plain, a := .vsrc, b := .vsrc, pred := .may, zeros := [],
    ok := fun w => decide (bits w 19 3 < 7),
    build := fun w l => .vcmp (VCond.ofCode (bits w 19 3)) (BitVec.ofNat 3 (bits w 16 3)) (Src.ofCode l (bits w 10 6)) (Src.ofCode l (bits w 4 6)) (bits w 3 1 == 1) (bits w 2 1 == 1) (BitVec.ofNat 2 (bits w 0 2)) }
def row_vsel : Row :=
  { fmt := .V, d := .vdst, a := .vsrc, b := .vsrc, pred := .must, zeros := [],
    ok := fun _ => true,
    build := fun w l => .vsel (Dst.ofCode (bits w 16 6)) (Src.ofCode l (bits w 10 6)) (Src.ofCode l (bits w 4 6)) (bits w 3 1 == 1) (bits w 2 1 == 1) (BitVec.ofNat 2 (bits w 0 2)) }
def row_vcvt : Row :=
  { fmt := .V, d := .vdst, a := .vsrc, b := .plain, pred := .never, zeros := [(2, 1)],
    ok := fun w => decide (bits w 4 4 < 10),
    build := fun w l => .vcvt (Dst.ofCode (bits w 16 6)) (Src.ofCode l (bits w 10 6)) (Policy.ofCode (bits w 8 2)) (NumFmt.ofCodeD (bits w 4 4)) (bits w 3 1 == 1) }
def row_vwiden : Row :=
  { fmt := .V, d := .vdst, a := .vsrc, b := .plain, pred := .never, zeros := [(2, 1), (7, 3)],
    ok := fun _ => true,
    build := fun w l => .vwiden (Dst.ofCode (bits w 16 6)) (Src.ofCode l (bits w 10 6)) (BitVec.ofNat 3 (bits w 4 3)) (bits w 3 1 == 1) }
def row_vqnt : Row :=
  { fmt := .V, d := .vdst, a := .vsrc, b := .plain, pred := .never, zeros := [(2, 1), (6, 4)],
    ok := fun _ => true,
    build := fun w l => .vqnt (Dst.ofCode (bits w 16 6)) (Src.ofCode l (bits w 10 6)) (bits w 5 1 == 1) (bits w 4 1 == 1) (bits w 3 1 == 1) }
def row_vdqnt : Row :=
  { fmt := .V, d := .vdst, a := .vsrc, b := .vsrc, pred := .never, zeros := [],
    ok := fun _ => true,
    build := fun w l => .vdqnt (Dst.ofCode (bits w 16 6)) (Src.ofCode l (bits w 10 6)) (Src.ofCode l (bits w 4 6)) (bits w 3 1 == 1) (bits w 2 1 == 1) }
def row_vsplit : Row :=
  { fmt := .V, d := .vdst, a := .vsrc, b := .plain, pred := .never, zeros := [(2, 1), (6, 4)],
    ok := fun w => bits w 4 2 != 3,
    build := fun w l => .vsplit (Dst.ofCode (bits w 16 6)) (Src.ofCode l (bits w 10 6)) (BitVec.ofNat 2 (bits w 4 2)) (bits w 3 1 == 1) }
def row_vred : Row :=
  { fmt := .V, d := .vdst, a := .vsrc, b := .plain, pred := .never, zeros := [(2, 1)],
    ok := fun w => decide (bits w 6 2 < 3) && decide (bits w 4 2 < 3),
    build := fun w l => .vred (Dst.ofCode (bits w 16 6)) (Src.ofCode l (bits w 10 6)) (Policy.ofCode (bits w 8 2)) (Axis.ofCode (bits w 6 2)) (RedOp.ofCode (bits w 4 2)) (bits w 3 1 == 1) }
def row_vscan : Row :=
  { fmt := .V, d := .vdst, a := .vsrc, b := .plain, pred := .never, zeros := [(2, 1), (5, 3)],
    ok := fun _ => true,
    build := fun w l => .vscan (Dst.ofCode (bits w 16 6)) (Src.ofCode l (bits w 10 6)) (Policy.ofCode (bits w 8 2)) (bits w 4 1 == 1) (bits w 3 1 == 1) }
def row_vtrn : Row :=
  { fmt := .V, d := .vdst, a := .vsrc, b := .unused, pred := .never, zeros := [(2, 1), (4, 6)],
    ok := fun _ => true,
    build := fun w l => .vtrn (Dst.ofCode (bits w 16 6)) (Src.ofCode l (bits w 10 6)) (bits w 3 1 == 1) }
def row_vshuf : Row :=
  { fmt := .V, d := .vdst, a := .vsrc, b := .vsrc, pred := .may, zeros := [],
    ok := fun _ => true,
    build := fun w l => .vshuf (Dst.ofCode (bits w 16 6)) (Src.ofCode l (bits w 10 6)) (Src.ofCode l (bits w 4 6)) (bits w 3 1 == 1) (bits w 2 1 == 1) (BitVec.ofNat 2 (bits w 0 2)) }
def row_viota : Row :=
  { fmt := .V, d := .vdst, a := .unused, b := .plain, pred := .may, zeros := [(2, 2), (6, 10)],
    ok := fun w => decide (bits w 4 2 < 3),
    build := fun w _ => .viota (Dst.ofCode (bits w 16 6)) (IotaKind.ofCode (bits w 4 2)) (BitVec.ofNat 2 (bits w 0 2)) }
def row_vrng : Row :=
  { fmt := .V, d := .vdst, a := .unused, b := .unused, pred := .may, zeros := [(2, 14)],
    ok := fun _ => true,
    build := fun w _ => .vrng (Dst.ofCode (bits w 16 6)) (BitVec.ofNat 2 (bits w 0 2)) }
def row_vshape : Row :=
  { fmt := .V, d := .unused, a := .vsrc, b := .plain, pred := .never, zeros := [(2, 1), (6, 4), (16, 6)],
    ok := fun _ => true,
    build := fun w l => .vshape (Src.ofCode l (bits w 10 6)) (ShapeReg.ofCode (bits w 4 2)) (bits w 3 1 == 1) }
def row_vmov : Row :=
  { fmt := .V, d := .vdst, a := .vsrc, b := .unused, pred := .may, zeros := [(2, 1), (4, 6)],
    ok := fun _ => true,
    build := fun w l => .vmov (Dst.ofCode (bits w 16 6)) (Src.ofCode l (bits w 10 6)) (bits w 3 1 == 1) (BitVec.ofNat 2 (bits w 0 2)) }
def row_vpset : Row :=
  { fmt := .V, d := .plain, a := .vsrc, b := .plain, pred := .never, zeros := [(2, 1)],
    ok := fun w => ((bits w 19 3 == 2 || (bits w 10 6 == 0 && bits w 3 1 == 0)) && (decide (2 < bits w 19 3) || bits w 4 6 == 0) && (bits w 19 3 != 3 || bits w 7 3 == 0)),
    build := fun w l => .vpset (PsetOp.ofCode (bits w 19 3)) (BitVec.ofNat 3 (bits w 16 3)) (Src.ofCode l (bits w 10 6)) (BitVec.ofNat 3 (bits w 7 3)) (BitVec.ofNat 3 (bits w 4 3)) (bits w 3 1 == 1) }
/-- VCLASS. DESIGN CHOICE (log 64): a word whose b[4:0] selects no class decodes and gives zero bits; R153 asks for at least one
class suffix and does not say that such a word is reserved. -/
def row_vclass : Row :=
  { fmt := .V, d := .plain, a := .vsrc, b := .plain, pred := .may, zeros := [(2, 1), (19, 3)],
    ok := fun _ => true,
    build := fun w l => .vclass (BitVec.ofNat 3 (bits w 16 3)) (Src.ofCode l (bits w 10 6)) (BitVec.ofNat 6 (bits w 4 6)) (bits w 3 1 == 1) (BitVec.ofNat 2 (bits w 0 2)) }
def row_vargx : Row :=
  { fmt := .V, d := .vdst, a := .vsrc, b := .plain, pred := .never, zeros := [(2, 1), (6, 4)],
    ok := fun _ => true,
    build := fun w l => .vargx (Dst.ofCode (bits w 16 6)) (Src.ofCode l (bits w 10 6)) (bits w 5 1 == 1) (bits w 4 1 == 1) (bits w 3 1 == 1) }
def row_mstrm : Row :=
  { fmt := .A, d := .plain, a := .src, b := .unused, pred := .never, zeros := [(0, 10), (20, 2)],
    ok := fun _ => true,
    build := fun w l => .mstrm (BitVec.ofNat 4 (bits w 16 4)) (Src.ofCode l (bits w 10 6)) }
def row_mnest : Row :=
  { fmt := .A, d := .unused, a := .src, b := .unused, pred := .never, zeros := [(0, 10), (16, 6)],
    ok := fun _ => true,
    build := fun w l => .mnest (Src.ofCode l (bits w 10 6)) }
def row_mgo : Row :=
  { fmt := .A, d := .unused, a := .unused, b := .unused, pred := .never, zeros := [(0, 22)],
    ok := fun _ => true,
    build := fun _ _ => .mgo }
def row_mwait : Row :=
  { fmt := .A, d := .unused, a := .unused, b := .unused, pred := .never, zeros := [(0, 22)],
    ok := fun _ => true,
    build := fun _ _ => .mwait }
def row_mma : Row :=
  { fmt := .A, d := .plain, a := .plain, b := .src, pred := .never, zeros := [(3, 1), (14, 2)],
    ok := fun w => decide (bits w 0 2 < 3),
    build := fun w l => .mma (BitVec.ofNat 2 (bits w 20 2)) (BitVec.ofNat 4 (bits w 16 4)) (BitVec.ofNat 4 (bits w 10 4)) (Src.ofCode l (bits w 4 6)) (bits w 2 1 == 1) (AccMode.ofCode (bits w 0 2)) }
def row_mldw : Row :=
  { fmt := .A, d := .plain, a := .plain, b := .src, pred := .never, zeros := [(0, 4), (14, 2), (17, 5)],
    ok := fun _ => true,
    build := fun w l => .mldw (BitVec.ofNat 1 (bits w 16 1)) (BitVec.ofNat 4 (bits w 10 4)) (Src.ofCode l (bits w 4 6)) }
def row_mwsel : Row :=
  { fmt := .A, d := .plain, a := .unused, b := .unused, pred := .never, zeros := [(0, 16), (17, 5)],
    ok := fun _ => true,
    build := fun w _ => .mwsel (BitVec.ofNat 1 (bits w 16 1)) }
def row_mzero : Row :=
  { fmt := .A, d := .plain, a := .unused, b := .unused, pred := .never, zeros := [(1, 15)],
    ok := fun w => (bits w 0 1 == 0 || bits w 16 4 == 0),
    build := fun w _ => .mzero (BitVec.ofNat 2 (bits w 20 2)) (BitVec.ofNat 4 (bits w 16 4)) (bits w 0 1 == 1) }
def row_mspec : Row :=
  { fmt := .A, d := .plain, a := .plain, b := .unused, pred := .never, zeros := [(0, 10), (12, 4), (18, 4)],
    ok := fun _ => true,
    build := fun w _ => .mspec (BitVec.ofNat 2 (bits w 16 2)) (BitVec.ofNat 2 (bits w 10 2)) }
def row_mcommit : Row :=
  { fmt := .A, d := .plain, a := .unused, b := .unused, pred := .never, zeros := [(0, 16), (18, 4)],
    ok := fun _ => true,
    build := fun w _ => .mcommit (BitVec.ofNat 2 (bits w 16 2)) }
def row_mdisc : Row :=
  { fmt := .A, d := .plain, a := .unused, b := .unused, pred := .never, zeros := [(0, 16), (18, 4)],
    ok := fun _ => true,
    build := fun w _ => .mdisc (BitVec.ofNat 2 (bits w 16 2)) }
def row_mbgj : Row :=
  { fmt := .A, d := .plain, a := .unused, b := .unused, pred := .never, zeros := [(0, 16), (18, 4)],
    ok := fun _ => true,
    build := fun w _ => .mbgj (BitVec.ofNat 2 (bits w 16 2)) }
def row_mbgl : Row :=
  { fmt := .A, d := .unused, a := .unused, b := .unused, pred := .never, zeros := [(0, 22)],
    ok := fun _ => true,
    build := fun _ _ => .mbgl }
def row_mcbk : Row :=
  { fmt := .A, d := .plain, a := .src, b := .unused, pred := .never, zeros := [(0, 10), (20, 2)],
    ok := fun _ => true,
    build := fun w l => .mcbk (BitVec.ofNat 4 (bits w 16 4)) (Src.ofCode l (bits w 10 6)) }
def row_mstat : Row :=
  { fmt := .A, d := .dst, a := .unused, b := .unused, pred := .never, zeros := [(4, 12)],
    ok := fun w => decide (bits w 0 4 < 3),
    build := fun w _ => .mstat (Dst.ofCode (bits w 16 6)) (MstatWord.ofCode (bits w 0 4)) }
def row_qcfg : Row :=
  { fmt := .A, d := .unused, a := .src, b := .unused, pred := .never, zeros := [(0, 10), (16, 6)],
    ok := fun _ => true,
    build := fun w l => .qcfg (Src.ofCode l (bits w 10 6)) }
def row_qclr : Row :=
  { fmt := .A, d := .plain, a := .unused, b := .unused, pred := .never, zeros := [(0, 16), (17, 5)],
    ok := fun _ => true,
    build := fun w _ => .qclr (BitVec.ofNat 1 (bits w 16 1)) }
def row_qann : Row :=
  { fmt := .A, d := .unused, a := .src, b := .unused, pred := .never, zeros := [(1, 9), (16, 6)],
    ok := fun _ => true,
    build := fun w l => .qann (Src.ofCode l (bits w 10 6)) (bits w 0 1 == 1) }
def row_qapl : Row :=
  { fmt := .A, d := .unused, a := .src, b := .src, pred := .never, zeros := [(1, 3), (16, 6)],
    ok := fun _ => true,
    build := fun w l => .qapl (Src.ofCode l (bits w 10 6)) (Src.ofCode l (bits w 4 6)) (bits w 0 1 == 1) }
def row_qvec : Row :=
  { fmt := .A, d := .dst, a := .src, b := .src, pred := .never, zeros := [(0, 4)],
    ok := fun _ => true,
    build := fun w l => .qvec (Dst.ofCode (bits w 16 6)) (Src.ofCode l (bits w 10 6)) (Src.ofCode l (bits w 4 6)) }
def row_qrot : Row :=
  { fmt := .A, d := .dst, a := .src, b := .src, pred := .never, zeros := [(0, 4)],
    ok := fun _ => true,
    build := fun w l => .qrot (Dst.ofCode (bits w 16 6)) (Src.ofCode l (bits w 10 6)) (Src.ofCode l (bits w 4 6)) }
def row_qangf : Row :=
  { fmt := .A, d := .dst, a := .src, b := .unused, pred := .never, zeros := [(0, 10)],
    ok := fun _ => true,
    build := fun w l => .qangf (Dst.ofCode (bits w 16 6)) (Src.ofCode l (bits w 10 6)) }
def row_qangr : Row :=
  { fmt := .A, d := .dst, a := .src, b := .unused, pred := .never, zeros := [(0, 10)],
    ok := fun _ => true,
    build := fun w l => .qangr (Dst.ofCode (bits w 16 6)) (Src.ofCode l (bits w 10 6)) }
def row_qrdt : Row :=
  { fmt := .A, d := .unused, a := .src, b := .src, pred := .never, zeros := [(1, 3), (16, 6)],
    ok := fun _ => true,
    build := fun w l => .qrdt (Src.ofCode l (bits w 10 6)) (Src.ofCode l (bits w 4 6)) (bits w 0 1 == 1) }
def row_qwrt : Row :=
  { fmt := .A, d := .unused, a := .src, b := .src, pred := .never, zeros := [(1, 3), (16, 6)],
    ok := fun _ => true,
    build := fun w l => .qwrt (Src.ofCode l (bits w 10 6)) (Src.ofCode l (bits w 4 6)) (bits w 0 1 == 1) }
def row_qrda : Row :=
  { fmt := .A, d := .unused, a := .src, b := .unused, pred := .never, zeros := [(3, 7), (16, 6)],
    ok := fun w => decide (bits w 0 2 < 3) && (bits w 0 3 != 6),
    build := fun w l => .qrda (Src.ofCode l (bits w 10 6)) (RowSel.ofCode (bits w 0 2)) (bits w 2 1 == 1) }
def row_qwait : Row :=
  { fmt := .A, d := .unused, a := .unused, b := .unused, pred := .never, zeros := [(0, 22)],
    ok := fun _ => true,
    build := fun _ _ => .qwait }
def row_qstat : Row :=
  { fmt := .A, d := .dst, a := .unused, b := .unused, pred := .never, zeros := [(0, 16)],
    ok := fun _ => true,
    build := fun w _ => .qstat (Dst.ofCode (bits w 16 6)) }
def row_ld : Row :=
  { fmt := .A, d := .dst, a := .src, b := .src, pred := .never, zeros := [(3, 1)],
    ok := fun w => (!(bits w 2 1 == 1 && bits w 0 2 == 0)),
    build := fun w l => .ld (Dst.ofCode (bits w 16 6)) (Src.ofCode l (bits w 10 6)) (Src.ofCode l (bits w 4 6)) (bits w 2 1 == 1) (Wid.ofCode (bits w 0 2)) }
def row_st : Row :=
  { fmt := .A, d := .dst, a := .src, b := .src, pred := .never, zeros := [(2, 2)],
    ok := fun _ => true,
    build := fun w l => .st (Dst.ofCode (bits w 16 6)) (Src.ofCode l (bits w 10 6)) (Src.ofCode l (bits w 4 6)) (Wid.ofCode (bits w 0 2)) }
def row_lda : Row :=
  { fmt := .M, d := .dst, a := .r5, b := .r5, pred := .never, zeros := [],
    ok := fun w => decide (bits w 3 3 < 5) && decide (bits w 0 3 < 6),
    build := fun w _ => .lda (Dst.ofCode (bits w 16 6)) (bits w 11 5) (bits w 6 5) (Order.ofCode (bits w 3 3)) (Scope.ofCode (bits w 0 3)) }
def row_str : Row :=
  { fmt := .M, d := .dst, a := .r5, b := .r5, pred := .never, zeros := [],
    ok := fun w => decide (bits w 3 3 < 5) && decide (bits w 0 3 < 6),
    build := fun w _ => .str (Dst.ofCode (bits w 16 6)) (bits w 11 5) (bits w 6 5) (Order.ofCode (bits w 3 3)) (Scope.ofCode (bits w 0 3)) }
def row_pref : Row :=
  { fmt := .A, d := .unused, a := .src, b := .src, pred := .never, zeros := [(0, 4), (16, 6)],
    ok := fun _ => true,
    build := fun w l => .pref (Src.ofCode l (bits w 10 6)) (Src.ofCode l (bits w 4 6)) }
def row_fence : Row :=
  { fmt := .M, d := .unused, a := .unused, b := .unused, pred := .never, zeros := [(6, 16)],
    ok := fun w => decide (bits w 3 3 < 5) && decide (bits w 0 3 < 6),
    build := fun w _ => .fence (Order.ofCode (bits w 3 3)) (Scope.ofCode (bits w 0 3)) }
def row_waita : Row :=
  { fmt := .A, d := .dst, a := .src, b := .src, pred := .never, zeros := [(3, 1)],
    ok := fun _ => true,
    build := fun w l => .waita (Dst.ofCode (bits w 16 6)) (Src.ofCode l (bits w 10 6)) (Src.ofCode l (bits w 4 6)) (bits w 2 1 == 1) (WaitCond.ofCode (bits w 0 2)) }
def row_xform : Row :=
  { fmt := .A, d := .dst, a := .src, b := .src, pred := .never, zeros := [],
    ok := fun w => decide (bits w 0 4 < 7),
    build := fun w l => .xform (Dst.ofCode (bits w 16 6)) (Src.ofCode l (bits w 10 6)) (Src.ofCode l (bits w 4 6)) (XformOp.ofCode (bits w 0 4)) }
def row_xbox : Row :=
  { fmt := .A, d := .dst, a := .src, b := .unused, pred := .never, zeros := [(0, 10)],
    ok := fun _ => true,
    build := fun w l => .xbox (Dst.ofCode (bits w 16 6)) (Src.ofCode l (bits w 10 6)) }
def row_amoadd : Row :=
  { fmt := .M, d := .dst, a := .r5, b := .r5, pred := .never, zeros := [],
    ok := fun w => decide (bits w 3 3 < 5) && decide (bits w 0 3 < 6),
    build := fun w _ => .amoAdd (Dst.ofCode (bits w 16 6)) (bits w 11 5) (bits w 6 5) (Order.ofCode (bits w 3 3)) (Scope.ofCode (bits w 0 3)) }
def row_amoand : Row :=
  { fmt := .M, d := .dst, a := .r5, b := .r5, pred := .never, zeros := [],
    ok := fun w => decide (bits w 3 3 < 5) && decide (bits w 0 3 < 6),
    build := fun w _ => .amoAnd (Dst.ofCode (bits w 16 6)) (bits w 11 5) (bits w 6 5) (Order.ofCode (bits w 3 3)) (Scope.ofCode (bits w 0 3)) }
def row_amoor : Row :=
  { fmt := .M, d := .dst, a := .r5, b := .r5, pred := .never, zeros := [],
    ok := fun w => decide (bits w 3 3 < 5) && decide (bits w 0 3 < 6),
    build := fun w _ => .amoOr (Dst.ofCode (bits w 16 6)) (bits w 11 5) (bits w 6 5) (Order.ofCode (bits w 3 3)) (Scope.ofCode (bits w 0 3)) }
def row_amoxor : Row :=
  { fmt := .M, d := .dst, a := .r5, b := .r5, pred := .never, zeros := [],
    ok := fun w => decide (bits w 3 3 < 5) && decide (bits w 0 3 < 6),
    build := fun w _ => .amoXor (Dst.ofCode (bits w 16 6)) (bits w 11 5) (bits w 6 5) (Order.ofCode (bits w 3 3)) (Scope.ofCode (bits w 0 3)) }
def row_amomin : Row :=
  { fmt := .M, d := .dst, a := .r5, b := .r5, pred := .never, zeros := [],
    ok := fun w => decide (bits w 3 3 < 5) && decide (bits w 0 3 < 6),
    build := fun w _ => .amoMin (Dst.ofCode (bits w 16 6)) (bits w 11 5) (bits w 6 5) (Order.ofCode (bits w 3 3)) (Scope.ofCode (bits w 0 3)) }
def row_amomax : Row :=
  { fmt := .M, d := .dst, a := .r5, b := .r5, pred := .never, zeros := [],
    ok := fun w => decide (bits w 3 3 < 5) && decide (bits w 0 3 < 6),
    build := fun w _ => .amoMax (Dst.ofCode (bits w 16 6)) (bits w 11 5) (bits w 6 5) (Order.ofCode (bits w 3 3)) (Scope.ofCode (bits w 0 3)) }
def row_amominu : Row :=
  { fmt := .M, d := .dst, a := .r5, b := .r5, pred := .never, zeros := [],
    ok := fun w => decide (bits w 3 3 < 5) && decide (bits w 0 3 < 6),
    build := fun w _ => .amoMinu (Dst.ofCode (bits w 16 6)) (bits w 11 5) (bits w 6 5) (Order.ofCode (bits w 3 3)) (Scope.ofCode (bits w 0 3)) }
def row_amomaxu : Row :=
  { fmt := .M, d := .dst, a := .r5, b := .r5, pred := .never, zeros := [],
    ok := fun w => decide (bits w 3 3 < 5) && decide (bits w 0 3 < 6),
    build := fun w _ => .amoMaxu (Dst.ofCode (bits w 16 6)) (bits w 11 5) (bits w 6 5) (Order.ofCode (bits w 3 3)) (Scope.ofCode (bits w 0 3)) }
def row_amoswp : Row :=
  { fmt := .M, d := .dst, a := .r5, b := .r5, pred := .never, zeros := [],
    ok := fun w => decide (bits w 3 3 < 5) && decide (bits w 0 3 < 6),
    build := fun w _ => .amoSwp (Dst.ofCode (bits w 16 6)) (bits w 11 5) (bits w 6 5) (Order.ofCode (bits w 3 3)) (Scope.ofCode (bits w 0 3)) }
def row_amocas : Row :=
  { fmt := .M, d := .dst, a := .r5, b := .r5, pred := .never, zeros := [],
    ok := fun w => decide (bits w 3 3 < 5) && decide (bits w 0 3 < 6),
    build := fun w _ => .amoCas (Dst.ofCode (bits w 16 6)) (bits w 11 5) (bits w 6 5) (Order.ofCode (bits w 3 3)) (Scope.ofCode (bits w 0 3)) }
def row_amofadd : Row :=
  { fmt := .M, d := .dst, a := .r5, b := .r5, pred := .never, zeros := [],
    ok := fun w => decide (bits w 3 3 < 5) && decide (bits w 0 3 < 6),
    build := fun w _ => .amoFadd (Dst.ofCode (bits w 16 6)) (bits w 11 5) (bits w 6 5) (Order.ofCode (bits w 3 3)) (Scope.ofCode (bits w 0 3)) }
def row_amoadd_w : Row :=
  { fmt := .M, d := .dst, a := .r5, b := .r5, pred := .never, zeros := [],
    ok := fun w => decide (bits w 3 3 < 5) && decide (bits w 0 3 < 6),
    build := fun w _ => .amoAddW (Dst.ofCode (bits w 16 6)) (bits w 11 5) (bits w 6 5) (Order.ofCode (bits w 3 3)) (Scope.ofCode (bits w 0 3)) }
def row_amoand_w : Row :=
  { fmt := .M, d := .dst, a := .r5, b := .r5, pred := .never, zeros := [],
    ok := fun w => decide (bits w 3 3 < 5) && decide (bits w 0 3 < 6),
    build := fun w _ => .amoAndW (Dst.ofCode (bits w 16 6)) (bits w 11 5) (bits w 6 5) (Order.ofCode (bits w 3 3)) (Scope.ofCode (bits w 0 3)) }
def row_amoor_w : Row :=
  { fmt := .M, d := .dst, a := .r5, b := .r5, pred := .never, zeros := [],
    ok := fun w => decide (bits w 3 3 < 5) && decide (bits w 0 3 < 6),
    build := fun w _ => .amoOrW (Dst.ofCode (bits w 16 6)) (bits w 11 5) (bits w 6 5) (Order.ofCode (bits w 3 3)) (Scope.ofCode (bits w 0 3)) }
def row_amoxor_w : Row :=
  { fmt := .M, d := .dst, a := .r5, b := .r5, pred := .never, zeros := [],
    ok := fun w => decide (bits w 3 3 < 5) && decide (bits w 0 3 < 6),
    build := fun w _ => .amoXorW (Dst.ofCode (bits w 16 6)) (bits w 11 5) (bits w 6 5) (Order.ofCode (bits w 3 3)) (Scope.ofCode (bits w 0 3)) }
def row_amomin_w : Row :=
  { fmt := .M, d := .dst, a := .r5, b := .r5, pred := .never, zeros := [],
    ok := fun w => decide (bits w 3 3 < 5) && decide (bits w 0 3 < 6),
    build := fun w _ => .amoMinW (Dst.ofCode (bits w 16 6)) (bits w 11 5) (bits w 6 5) (Order.ofCode (bits w 3 3)) (Scope.ofCode (bits w 0 3)) }
def row_amomax_w : Row :=
  { fmt := .M, d := .dst, a := .r5, b := .r5, pred := .never, zeros := [],
    ok := fun w => decide (bits w 3 3 < 5) && decide (bits w 0 3 < 6),
    build := fun w _ => .amoMaxW (Dst.ofCode (bits w 16 6)) (bits w 11 5) (bits w 6 5) (Order.ofCode (bits w 3 3)) (Scope.ofCode (bits w 0 3)) }
def row_amominu_w : Row :=
  { fmt := .M, d := .dst, a := .r5, b := .r5, pred := .never, zeros := [],
    ok := fun w => decide (bits w 3 3 < 5) && decide (bits w 0 3 < 6),
    build := fun w _ => .amoMinuW (Dst.ofCode (bits w 16 6)) (bits w 11 5) (bits w 6 5) (Order.ofCode (bits w 3 3)) (Scope.ofCode (bits w 0 3)) }
def row_amomaxu_w : Row :=
  { fmt := .M, d := .dst, a := .r5, b := .r5, pred := .never, zeros := [],
    ok := fun w => decide (bits w 3 3 < 5) && decide (bits w 0 3 < 6),
    build := fun w _ => .amoMaxuW (Dst.ofCode (bits w 16 6)) (bits w 11 5) (bits w 6 5) (Order.ofCode (bits w 3 3)) (Scope.ofCode (bits w 0 3)) }
def row_amoswp_w : Row :=
  { fmt := .M, d := .dst, a := .r5, b := .r5, pred := .never, zeros := [],
    ok := fun w => decide (bits w 3 3 < 5) && decide (bits w 0 3 < 6),
    build := fun w _ => .amoSwpW (Dst.ofCode (bits w 16 6)) (bits w 11 5) (bits w 6 5) (Order.ofCode (bits w 3 3)) (Scope.ofCode (bits w 0 3)) }
def row_amocas_w : Row :=
  { fmt := .M, d := .dst, a := .r5, b := .r5, pred := .never, zeros := [],
    ok := fun w => decide (bits w 3 3 < 5) && decide (bits w 0 3 < 6),
    build := fun w _ => .amoCasW (Dst.ofCode (bits w 16 6)) (bits w 11 5) (bits w 6 5) (Order.ofCode (bits w 3 3)) (Scope.ofCode (bits w 0 3)) }
def row_amofadd_w : Row :=
  { fmt := .M, d := .dst, a := .r5, b := .r5, pred := .never, zeros := [],
    ok := fun w => decide (bits w 3 3 < 5) && decide (bits w 0 3 < 6),
    build := fun w _ => .amoFaddW (Dst.ofCode (bits w 16 6)) (bits w 11 5) (bits w 6 5) (Order.ofCode (bits w 3 3)) (Scope.ofCode (bits w 0 3)) }
def row_acq : Row :=
  { fmt := .M, d := .dst, a := .r5, b := .r5, pred := .never, zeros := [],
    ok := fun w => decide (bits w 3 3 < 5) && decide (bits w 0 3 < 6),
    build := fun w _ => .acq (Dst.ofCode (bits w 16 6)) (bits w 11 5) (bits w 6 5) (Order.ofCode (bits w 3 3)) (Scope.ofCode (bits w 0 3)) }
def row_rel : Row :=
  { fmt := .M, d := .dst, a := .r5, b := .r5, pred := .never, zeros := [],
    ok := fun w => decide (bits w 3 3 < 5) && decide (bits w 0 3 < 6),
    build := fun w _ => .rel (Dst.ofCode (bits w 16 6)) (bits w 11 5) (bits w 6 5) (Order.ofCode (bits w 3 3)) (Scope.ofCode (bits w 0 3)) }
def row_bind : Row :=
  { fmt := .A, d := .dst, a := .src, b := .src, pred := .never, zeros := [(1, 3)],
    ok := fun _ => true,
    build := fun w l => .bind (Dst.ofCode (bits w 16 6)) (Src.ofCode l (bits w 10 6)) (Src.ofCode l (bits w 4 6)) (bits w 0 1 == 1) }
def row_bara : Row :=
  { fmt := .M, d := .dst, a := .r5, b := .r5, pred := .never, zeros := [],
    ok := fun w => decide (bits w 3 3 < 5) && decide (bits w 0 3 < 6),
    build := fun w _ => .bara (Dst.ofCode (bits w 16 6)) (bits w 11 5) (bits w 6 5) (Order.ofCode (bits w 3 3)) (Scope.ofCode (bits w 0 3)) }
def row_barw : Row :=
  { fmt := .M, d := .dst, a := .r5, b := .r5, pred := .never, zeros := [],
    ok := fun w => decide (bits w 3 3 < 5) && decide (bits w 0 3 < 6),
    build := fun w _ => .barw (Dst.ofCode (bits w 16 6)) (bits w 11 5) (bits w 6 5) (Order.ofCode (bits w 3 3)) (Scope.ofCode (bits w 0 3)) }
def row_barx : Row :=
  { fmt := .A, d := .dst, a := .src, b := .src, pred := .never, zeros := [(0, 4)],
    ok := fun _ => true,
    build := fun w l => .barx (Dst.ofCode (bits w 16 6)) (Src.ofCode l (bits w 10 6)) (Src.ofCode l (bits w 4 6)) }
def row_hset : Row :=
  { fmt := .A, d := .dst, a := .src, b := .unused, pred := .never, zeros := [(3, 7)],
    ok := fun _ => true,
    build := fun w l => .hset (Dst.ofCode (bits w 16 6)) (Src.ofCode l (bits w 10 6)) (bits w 2 1 == 1) (BufState.ofCode (bits w 0 2)) }
def row_hacq : Row :=
  { fmt := .A, d := .dst, a := .src, b := .unused, pred := .never, zeros := [(1, 9)],
    ok := fun _ => true,
    build := fun w l => .hacq (Dst.ofCode (bits w 16 6)) (Src.ofCode l (bits w 10 6)) (bits w 0 1 == 1) }
def row_hrel : Row :=
  { fmt := .A, d := .dst, a := .src, b := .unused, pred := .never, zeros := [(1, 9)],
    ok := fun _ => true,
    build := fun w l => .hrel (Dst.ofCode (bits w 16 6)) (Src.ofCode l (bits w 10 6)) (bits w 0 1 == 1) }
def row_hwait : Row :=
  { fmt := .A, d := .dst, a := .src, b := .unused, pred := .never, zeros := [(3, 7)],
    ok := fun _ => true,
    build := fun w l => .hwait (Dst.ofCode (bits w 16 6)) (Src.ofCode l (bits w 10 6)) (bits w 2 1 == 1) (BufState.ofCode (bits w 0 2)) }
def row_rclaim : Row :=
  { fmt := .A, d := .dst, a := .src, b := .src, pred := .never, zeros := [(1, 3)],
    ok := fun _ => true,
    build := fun w l => .rclaim (Dst.ofCode (bits w 16 6)) (Src.ofCode l (bits w 10 6)) (Src.ofCode l (bits w 4 6)) (bits w 0 1 == 1) }
def row_rpub : Row :=
  { fmt := .A, d := .dst, a := .src, b := .src, pred := .never, zeros := [(2, 2)],
    ok := fun _ => true,
    build := fun w l => .rpub (Dst.ofCode (bits w 16 6)) (Src.ofCode l (bits w 10 6)) (Src.ofCode l (bits w 4 6)) (bits w 1 1 == 1) (bits w 0 1 == 1) }
def row_wfill : Row :=
  { fmt := .A, d := .dst, a := .src, b := .src, pred := .never, zeros := [(0, 4)],
    ok := fun _ => true,
    build := fun w l => .wfill (Dst.ofCode (bits w 16 6)) (Src.ofCode l (bits w 10 6)) (Src.ofCode l (bits w 4 6)) }
def row_wfree : Row :=
  { fmt := .A, d := .dst, a := .src, b := .src, pred := .never, zeros := [(0, 4)],
    ok := fun _ => true,
    build := fun w l => .wfree (Dst.ofCode (bits w 16 6)) (Src.ofCode l (bits w 10 6)) (Src.ofCode l (bits w 4 6)) }
def row_rcons : Row :=
  { fmt := .A, d := .dst, a := .src, b := .src, pred := .never, zeros := [(0, 4)],
    ok := fun _ => true,
    build := fun w l => .rcons (Dst.ofCode (bits w 16 6)) (Src.ofCode l (bits w 10 6)) (Src.ofCode l (bits w 4 6)) }
def row_rerr : Row :=
  { fmt := .A, d := .dst, a := .src, b := .src, pred := .never, zeros := [(0, 4)],
    ok := fun _ => true,
    build := fun w l => .rerr (Dst.ofCode (bits w 16 6)) (Src.ofCode l (bits w 10 6)) (Src.ofCode l (bits w 4 6)) }
def row_rfix : Row :=
  { fmt := .A, d := .dst, a := .src, b := .src, pred := .never, zeros := [(1, 3)],
    ok := fun _ => true,
    build := fun w l => if bits w 0 1 == 0 then .rfix (Dst.ofCode (bits w 16 6)) (Src.ofCode l (bits w 10 6)) (Src.ofCode l (bits w 4 6)) else .rfixInit (Dst.ofCode (bits w 16 6)) (Src.ofCode l (bits w 10 6)) (Src.ofCode l (bits w 4 6)) }
def row_rstat : Row :=
  { fmt := .A, d := .dst, a := .src, b := .unused, pred := .never, zeros := [(2, 8)],
    ok := fun w => decide (bits w 0 2 < 3),
    build := fun w l => .rstat (Dst.ofCode (bits w 16 6)) (Src.ofCode l (bits w 10 6)) (RstatWord.ofCode (bits w 0 2)) }
def row_chain : Row :=
  { fmt := .A, d := .unused, a := .src, b := .src, pred := .never, zeros := [(0, 4), (16, 6)],
    ok := fun _ => true,
    build := fun w l => .chain (Src.ofCode l (bits w 10 6)) (Src.ofCode l (bits w 4 6)) }
def row_cwait : Row :=
  { fmt := .A, d := .dst, a := .src, b := .unused, pred := .never, zeros := [(0, 10)],
    ok := fun _ => true,
    build := fun w l => .cwait (Dst.ofCode (bits w 16 6)) (Src.ofCode l (bits w 10 6)) }
def row_cstat : Row :=
  { fmt := .A, d := .dst, a := .src, b := .unused, pred := .never, zeros := [(1, 9)],
    ok := fun _ => true,
    build := fun w l => .cstat (Dst.ofCode (bits w 16 6)) (Src.ofCode l (bits w 10 6)) (bits w 0 1 == 1) }
def row_nvsub : Row :=
  { fmt := .A, d := .dst, a := .src, b := .src, pred := .never, zeros := [(1, 3)],
    ok := fun _ => true,
    build := fun w l => .nvsub (Dst.ofCode (bits w 16 6)) (Src.ofCode l (bits w 10 6)) (Src.ofCode l (bits w 4 6)) (bits w 0 1 == 1) }
def row_nvcpl : Row :=
  { fmt := .A, d := .dst, a := .src, b := .src, pred := .never, zeros := [(1, 3)],
    ok := fun _ => true,
    build := fun w l => .nvcpl (Dst.ofCode (bits w 16 6)) (Src.ofCode l (bits w 10 6)) (Src.ofCode l (bits w 4 6)) (bits w 0 1 == 1) }
def row_rstf : Row :=
  { fmt := .A, d := .unused, a := .src, b := .src, pred := .never, zeros := [(1, 3), (16, 6)],
    ok := fun _ => true,
    build := fun w l => .rstf (Src.ofCode l (bits w 10 6)) (Src.ofCode l (bits w 4 6)) (bits w 0 1 == 1) }
def row_rchain : Row :=
  { fmt := .A, d := .unused, a := .src, b := .unused, pred := .never, zeros := [(0, 10), (16, 6)],
    ok := fun _ => true,
    build := fun w l => .rchain (Src.ofCode l (bits w 10 6)) }
def row_rmcr : Row :=
  { fmt := .A, d := .unused, a := .src, b := .src, pred := .never, zeros := [(0, 4), (16, 6)],
    ok := fun _ => true,
    build := fun w l => .rmcr (Src.ofCode l (bits w 10 6)) (Src.ofCode l (bits w 4 6)) }
def row_rldf : Row :=
  { fmt := .A, d := .unused, a := .src, b := .src, pred := .never, zeros := [(1, 3), (16, 6)],
    ok := fun _ => true,
    build := fun w l => .rldf (Src.ofCode l (bits w 10 6)) (Src.ofCode l (bits w 4 6)) (bits w 0 1 == 1) }
def row_bsend : Row :=
  { fmt := .A, d := .dst, a := .src, b := .src, pred := .never, zeros := [(1, 3)],
    ok := fun _ => true,
    build := fun w l => .bsend (Dst.ofCode (bits w 16 6)) (Src.ofCode l (bits w 10 6)) (Src.ofCode l (bits w 4 6)) (bits w 0 1 == 1) }
def row_brecv : Row :=
  { fmt := .A, d := .dst, a := .src, b := .unused, pred := .never, zeros := [(1, 9)],
    ok := fun _ => true,
    build := fun w l => .brecv (Dst.ofCode (bits w 16 6)) (Src.ofCode l (bits w 10 6)) (bits w 0 1 == 1) }
def row_bstat : Row :=
  { fmt := .A, d := .dst, a := .src, b := .unused, pred := .never, zeros := [(2, 8)],
    ok := fun w => decide (bits w 0 2 < 3),
    build := fun w l => .bstat (Dst.ofCode (bits w 16 6)) (Src.ofCode l (bits w 10 6)) (BstatWord.ofCode (bits w 0 2)) }
def row_rep : Row :=
  { fmt := .P, d := .plain, a := .plain, b := .plain, pred := .never, zeros := [(0, 10)],
    ok := fun _ => true,
    build := fun w _ => .rep (BitVec.ofNat 6 (bits w 16 6)) (BitVec.ofNat 3 (bits w 13 3)) (BitVec.ofNat 3 (bits w 10 3)) }
def row_nop : Row :=
  { fmt := .A, d := .unused, a := .unused, b := .unused, pred := .never, zeros := [(0, 22)],
    ok := fun _ => true,
    build := fun _ _ => .nop }
def row_post : Row :=
  { fmt := .A, d := .dst, a := .src, b := .unused, pred := .never, zeros := [(1, 9)],
    ok := fun _ => true,
    build := fun w l => .post (Dst.ofCode (bits w 16 6)) (Src.ofCode l (bits w 10 6)) (bits w 0 1 == 1) }
def row_postr : Row :=
  { fmt := .A, d := .dst, a := .src, b := .src, pred := .never, zeros := [(0, 4)],
    ok := fun _ => true,
    build := fun w l => .postr (Dst.ofCode (bits w 16 6)) (Src.ofCode l (bits w 10 6)) (Src.ofCode l (bits w 4 6)) }
def row_twait : Row :=
  { fmt := .A, d := .dst, a := .src, b := .unused, pred := .never, zeros := [(1, 9)],
    ok := fun _ => true,
    build := fun w l => .twait (Dst.ofCode (bits w 16 6)) (Src.ofCode l (bits w 10 6)) (bits w 0 1 == 1) }
def row_predwait : Row :=
  { fmt := .A, d := .unused, a := .unused, b := .unused, pred := .never, zeros := [(0, 22)],
    ok := fun _ => true,
    build := fun _ _ => .predwait }
def row_hintsucc : Row :=
  { fmt := .A, d := .unused, a := .unused, b := .unused, pred := .never, zeros := [(0, 22)],
    ok := fun _ => true,
    build := fun _ _ => .hintsucc }
def row_tend : Row :=
  { fmt := .A, d := .unused, a := .unused, b := .unused, pred := .never, zeros := [(0, 22)],
    ok := fun _ => true,
    build := fun _ _ => .tend }
def row_regdef : Row :=
  { fmt := .A, d := .dst, a := .src, b := .unused, pred := .never, zeros := [(0, 10)],
    ok := fun _ => true,
    build := fun w l => .regdef (Dst.ofCode (bits w 16 6)) (Src.ofCode l (bits w 10 6)) }
def row_regdrop : Row :=
  { fmt := .A, d := .unused, a := .src, b := .unused, pred := .never, zeros := [(0, 10), (16, 6)],
    ok := fun _ => true,
    build := fun w l => .regdrop (Src.ofCode l (bits w 10 6)) }
def row_trap : Row :=
  { fmt := .W, d := .plain, a := .plain, b := .plain, pred := .never, zeros := [(6, 16)],
    ok := fun _ => true,
    build := fun w _ => .trap (BitVec.ofNat 6 (bits w 0 6)) }
def row_eret : Row :=
  { fmt := .A, d := .unused, a := .unused, b := .unused, pred := .never, zeros := [(1, 21)],
    ok := fun _ => true,
    build := fun w _ => .eret (bits w 0 1 == 1) }
def row_halt : Row :=
  { fmt := .A, d := .unused, a := .unused, b := .unused, pred := .never, zeros := [(0, 22)],
    ok := fun _ => true,
    build := fun _ _ => .halt }
def row_yield : Row :=
  { fmt := .A, d := .unused, a := .src, b := .unused, pred := .never, zeros := [(0, 10), (16, 6)],
    ok := fun _ => true,
    build := fun w l => .yield (Src.ofCode l (bits w 10 6)) }
def row_qzst : Row :=
  { fmt := .A, d := .z, a := .src, b := .src, pred := .never, zeros := [(0, 4)],
    ok := fun _ => true,
    build := fun w l => .qzst (bits w 16 6) (Src.ofCode l (bits w 10 6)) (Src.ofCode l (bits w 4 6)) }
def row_ctxsw : Row :=
  { fmt := .A, d := .unused, a := .src, b := .src, pred := .never, zeros := [(2, 2), (16, 6)],
    ok := fun w => decide (bits w 0 2 < 3) && (bits w 0 2 != 0 || bits w 4 6 == 56),
    build := fun w l => if bits w 0 2 == 0 then .ctxsw (Src.ofCode l (bits w 10 6)) else if bits w 0 2 == 1 then .ctxswOut (Src.ofCode l (bits w 10 6)) (Src.ofCode l (bits w 4 6)) else .ctxswIn (Src.ofCode l (bits w 10 6)) (Src.ofCode l (bits w 4 6)) }
def row_rcbld : Row :=
  { fmt := .A, d := .dst, a := .src, b := .src, pred := .never, zeros := [(2, 2)],
    ok := fun w => decide (bits w 0 2 < 3) && (bits w 0 2 == 0 || bits w 10 6 == 56),
    build := fun w l => if bits w 0 2 == 0 then .rcbld (Dst.ofCode (bits w 16 6)) (Src.ofCode l (bits w 10 6)) (Src.ofCode l (bits w 4 6)) else if bits w 0 2 == 1 then .rcbldTerm (Dst.ofCode (bits w 16 6)) (Src.ofCode l (bits w 4 6)) else .rcbldUnf (Dst.ofCode (bits w 16 6)) (Src.ofCode l (bits w 4 6)) }

/-- K opcodes 0x00 on (R86). -/
def rowsK_0 : List (Option Row) :=
  [some row_add, some row_sub, some row_mul, some row_mulh, some row_mulhu, some row_div, some row_divu, some row_rem, some row_remu, some row_and, some row_or, some row_xor, some row_andn, some row_shl, some row_shr, some row_sar]
/-- K opcodes 0x10 on (R86). -/
def rowsK_1 : List (Option Row) :=
  [some row_rol, some row_min, some row_max, some row_minu, some row_maxu, some row_clz, some row_ffs, some row_popc, some row_sext, some row_zext, some row_bfx, some row_bfi, some row_sel, some row_cmp, some row_addi, some row_movi]
/-- K opcodes 0x20 on (R86). -/
def rowsK_2 : List (Option Row) :=
  [some row_madr, some row_abs, some row_bcc, some row_br, some row_call, some row_ret, some row_loop, some row_rds, some row_wrs, some row_rdq, some row_fadd, some row_fmul, some row_ffma, some row_fcmp, some row_fcvt, some row_fmin]
/-- K opcodes 0x30 on (R86). -/
def rowsK_3 : List (Option Row) :=
  [some row_fmax]
/-- VL opcodes 0x00 on (R86). -/
def rowsVL_0 : List (Option Row) :=
  [some row_vld, some row_vldx, some row_vldb, some row_vlds, some row_vlda, some row_vldc, some row_vldq]
/-- VA opcodes 0x00 on (R86). -/
def rowsVA_0 : List (Option Row) :=
  [some row_vadd, some row_vsub, some row_vmul, some row_vfma, some row_vfms, some row_vfnma, some row_vmin, some row_vmax, some row_vabs, some row_vneg, some row_vrcp, some row_vrsq, some row_vsqrt, some row_vdiv, some row_vexp, some row_vlog]
/-- VA opcodes 0x10 on (R86). -/
def rowsVA_1 : List (Option Row) :=
  [some row_vtanh, some row_vsigm, some row_vsin, some row_vcos, some row_vand, some row_vor, some row_vxor, some row_vnot, some row_vshl, some row_vshr, some row_vsar, some row_vclz, some row_vffs, some row_vpopc, some row_vcmp, some row_vsel]
/-- VA opcodes 0x20 on (R86). -/
def rowsVA_2 : List (Option Row) :=
  [some row_vcvt, some row_vwiden, some row_vqnt, some row_vdqnt, some row_vsplit, some row_vred, some row_vscan, some row_vtrn, some row_vshuf, some row_viota, some row_vrng, some row_vshape, some row_vmov, some row_vpset, some row_vclass, some row_vargx]
/-- VS opcodes 0x00 on (R86). -/
def rowsVS_0 : List (Option Row) :=
  [some row_vst, some row_vstx, some row_vstm, some row_vstc, some row_vstr, some row_vsta]
/-- MX opcodes 0x00 on (R86). -/
def rowsMX_0 : List (Option Row) :=
  [some row_mstrm, some row_mnest, some row_mgo, some row_mwait, some row_mma, some row_mldw, some row_mwsel, some row_mzero, some row_mspec, some row_mcommit, some row_mdisc, some row_mbgj, some row_mbgl, some row_mcbk, some row_mstat]
/-- RT opcodes 0x00 on (R86). -/
def rowsRT_0 : List (Option Row) :=
  [some row_qcfg, some row_qclr, some row_qann, some row_qapl, some row_qvec, some row_qrot, some row_qangf, some row_qangr, some row_qrdt, some row_qwrt, some row_qrda, some row_qwait, some row_qstat]
/-- SM opcodes 0x00 on (R86). -/
def rowsSM_0 : List (Option Row) :=
  [some row_ld, some row_st, some row_lda, some row_str, some row_pref, some row_fence, some row_waita, some row_xform, some row_xbox]
/-- SM opcodes 0x10 on (R86). -/
def rowsSM_1 : List (Option Row) :=
  [some row_amoadd, some row_amoand, some row_amoor, some row_amoxor, some row_amomin, some row_amomax, some row_amominu, some row_amomaxu, some row_amoswp, some row_amocas, some row_amofadd]
/-- SM opcodes 0x20 on (R86). -/
def rowsSM_2 : List (Option Row) :=
  [some row_amoadd_w, some row_amoand_w, some row_amoor_w, some row_amoxor_w, some row_amomin_w, some row_amomax_w, some row_amominu_w, some row_amomaxu_w, some row_amoswp_w, some row_amocas_w, some row_amofadd_w]
/-- SM opcodes 0x30 on (R86). -/
def rowsSM_3 : List (Option Row) :=
  [some row_acq, some row_rel, some row_bind, some row_bara, some row_barw, some row_barx, some row_hset, some row_hacq, some row_hrel, some row_hwait]
/-- SM opcodes 0x40 on (R86). -/
def rowsSM_4 : List (Option Row) :=
  [some row_rclaim, some row_rpub, some row_wfill, some row_wfree, some row_rcons, some row_rerr, some row_rfix, some row_rstat]
/-- SM opcodes 0x50 on (R86). -/
def rowsSM_5 : List (Option Row) :=
  [some row_chain, some row_cwait, some row_cstat, some row_nvsub, some row_nvcpl]
/-- SM opcodes 0x60 on (R86). -/
def rowsSM_6 : List (Option Row) :=
  [some row_rstf, some row_rchain, some row_rmcr, some row_rldf, some row_bsend, some row_brecv, some row_bstat]
/-- SY opcodes 0x00 on (R86). -/
def rowsSY_0 : List (Option Row) :=
  [some row_rep, some row_nop, some row_post, some row_postr, some row_twait, some row_predwait, some row_hintsucc, some row_tend, some row_regdef, some row_regdrop, some row_trap, some row_eret, some row_halt, some row_yield, some row_qzst]
/-- SY opcodes 0x10 on (R86). -/
def rowsSY_1 : List (Option Row) :=
  [some row_ctxsw, some row_rcbld]

/-- The row of the opcode map for a class and an opcode (R86); none is an unassigned opcode. -/
def rowOf (cls op : Nat) : Option Row :=
  let pick (l : List (Option Row)) : Option Row := (l[op % 16]?).join
  match cls, op / 16 with
  | 0, 0 => pick rowsK_0
  | 0, 1 => pick rowsK_1
  | 0, 2 => pick rowsK_2
  | 0, 3 => pick rowsK_3
  | 1, 0 => pick rowsVL_0
  | 2, 0 => pick rowsVA_0
  | 2, 1 => pick rowsVA_1
  | 2, 2 => pick rowsVA_2
  | 3, 0 => pick rowsVS_0
  | 4, 0 => pick rowsMX_0
  | 5, 0 => pick rowsRT_0
  | 6, 0 => pick rowsSM_0
  | 6, 1 => pick rowsSM_1
  | 6, 2 => pick rowsSM_2
  | 6, 3 => pick rowsSM_3
  | 6, 4 => pick rowsSM_4
  | 6, 5 => pick rowsSM_5
  | 6, 6 => pick rowsSM_6
  | 7, 0 => pick rowsSY_0
  | 7, 1 => pick rowsSY_1
  | _, _ => none

/-- The class and the opcode of a base word (R67). -/
def wordClass (w : Nat) : Nat := bits w 29 3
def wordOp (w : Nat) : Nat := bits w 22 7

/-- Which sequencers accept a class (R11). -/
def SeqKind.accepts (k : SeqKind) (cls : Nat) : Bool :=
  match cls with
  | 0 | 6 | 7 => true
  | 1 | 2 | 3 => k == .V
  | 4 => k == .M
  | 5 => k == .Q
  | _ => false

/-- The fields d, a and b of a word in a format (R73); 0 where the format has none. -/
def Fmt.dOf (f : Fmt) (w : Nat) : Nat :=
  match f with
  | .A | .I | .W | .M | .V => bits w 16 6
  | _ => 0
def Fmt.aOf (f : Fmt) (w : Nat) : Nat :=
  match f with
  | .A | .I | .V => bits w 10 6
  | .B => bits w 12 6
  | .M => bits w 11 5
  | _ => 0
def Fmt.bOf (f : Fmt) (w : Nat) : Nat :=
  match f with
  | .A | .V => bits w 4 6
  | .M => bits w 6 5
  | _ => 0

/-- Whether a field of this kind may hold a literal code as far as the length goes (R68, R74). A plain index or a control
field that stands in the place of a or b never does, whatever its value (DESIGN CHOICE, log 61). -/
def FKind.litField (k : FKind) : Bool :=
  match k with
  | .src | .vsrc | .r | .unused => true
  | _ => false

/-- The literal words a field adds to the length (R68). -/
def FKind.litWords (k : FKind) (c : Nat) : Nat :=
  if k.litField then if c = 62 then 1 else if c = 63 then 2 else 0 else 0

/-- The literal words of a word of a row: at most two (R68). -/
def Row.litCount (r : Row) (w : Nat) : Nat :=
  min 2 (let a := r.a.litWords (r.fmt.aOf w)
         let b := r.b.litWords (r.fmt.bOf w)
         if 0 < a ∧ 0 < b then 2 else a + b)

/-- The codes of a kind that check 6 of R79 lets through. -/
def FKind.okCode (k : FKind) (c : Nat) : Bool :=
  match k with
  | .unused | .plain | .r5 => true
  | .src => decide (c ≤ 56) || decide (62 ≤ c)
  | .dst => decide (c ≤ 56)
  | .rz | .vrz => decide (c < 48) || c == 56
  | .r => decide (c < 48)
  | .z => decide (c < 8)
  | .vdst | .stsrc => decide (c < 48) || (decide (52 ≤ c) && decide (c ≤ 56))
  | .vsrc => decide (c < 52) || c == 56 || decide (62 ≤ c)
  | .ldst => decide (c < 52) || c == 56

/-- Whether a destination field of this kind traps a literal code by its position (R76). -/
def FKind.litTraps (k : FKind) (c : Nat) : Bool :=
  match k with
  | .dst | .rz | .z | .vdst | .vrz | .ldst | .stsrc => decide (62 ≤ c)
  | _ => false

/-- Checks 4, 5 and 6 of R79 for a word of a row; each is the cause code it fails with. -/
def Row.reserved (r : Row) (w : Nat) : Bool := !(r.zeros.all fun z => bits w z.1 z.2 == 0) || !r.ok w
def Row.litPos (r : Row) (w : Nat) : Bool :=
  r.d.litTraps (r.fmt.dOf w) ||
    (decide (0 < r.a.litWords (r.fmt.aOf w)) && decide (0 < r.b.litWords (r.fmt.bOf w)))
def Row.badHold (r : Row) (w : Nat) : Bool :=
  r.fmt == .V &&
    ((bits w 3 1 == 1 && !(r.a == .vsrc && decide (bits w 10 6 < 48))) ||
     (bits w 2 1 == 1 && !(r.b == .vsrc && decide (bits w 4 6 < 48))) ||
     (match r.pred with
      | .never => bits w 0 2 != 0
      | .may => false
      | .must => bits w 0 2 == 0))
def Row.illegal (r : Row) (w : Nat) : Bool :=
  !r.d.okCode (r.fmt.dOf w) || !r.a.okCode (r.fmt.aOf w) || !r.b.okCode (r.fmt.bOf w) || r.badHold w

/-- The cause of the first check of R79 that a base word fails on a sequencer, if any. -/
def checkWord (k : SeqKind) (w : Nat) : Option Nat :=
  if !k.accepts (wordClass w) then some 0x004
  else
    match rowOf (wordClass w) (wordOp w) with
    | none => some 0x001
    | some r =>
      if r.reserved w then some 0x003
      else if r.litPos w then some 0x006
      else if r.illegal w then some 0x002
      else none

/-- The length in bytes of an instruction from its base word (R68). -/
def wordLength (k : SeqKind) (w : Nat) : Nat :=
  if !k.accepts (wordClass w) then 4
  else
    match rowOf (wordClass w) (wordOp w) with
    | none => 4
    | some r => 4 + 4 * r.litCount w

/-- The instruction of a base word and the words after it, or the cause it fails with (R79). -/
def decode (k : SeqKind) (w : Nat) (l : Lits) : Except Nat Instr :=
  match checkWord k w with
  | some c => .error c
  | none =>
    match rowOf (wordClass w) (wordOp w) with
    | none => .error 0x001
    | some r => .ok (r.build w l)

/-- Whether a word is a REP (R81). -/
def isRep (w : Nat) : Bool := wordClass w == 7 && wordOp w == 0

/-- The targets a REP may not have besides REP itself (R83): BCC, BR, CALL, RET, LOOP of K; TEND, TRAP,
ERET, HALT, YIELD and CTXSW of SY. -/
def noRep (cls op : Nat) : Bool :=
  (cls == 0 && decide (0x22 ≤ op) && decide (op ≤ 0x26)) ||
  (cls == 7 && [0x00, 0x07, 0x0A, 0x0B, 0x0C, 0x0D, 0x10].contains op)

/-- Whether a format holds the fields d, a and b as operand codes or register numbers (R74). -/
def Fmt.hasD (f : Fmt) : Bool := f != .B && f != .J && f != .P
def Fmt.hasA (f : Fmt) : Bool := f != .W && f != .J && f != .P
def Fmt.hasB (f : Fmt) : Bool := f == .A || f == .M || f == .V

/-- Whether a field that starts at `c` stays in the range of its first value for `n` repeats of step `st` (R83). -/
def FKind.inRange (k : FKind) (c n st : Nat) : Bool :=
  let last := c + (n - 1) * st
  match k with
  | .r5 => decide (last < 32)
  | .z => decide (last < 8)
  | .unused => true
  | _ => if c < 48 then decide (last < 48) else decide (c < 56) && decide (last < 56)

/-- The count, the mask bits d, a, b and the step of a REP word (R81). -/
def repCount (w : Nat) : Nat := bits w 16 6 + 1
def repStep (w : Nat) : Nat := bits w 10 3 + 1
def repD (w : Nat) : Bool := bits w 15 1 == 1
def repA (w : Nat) : Bool := bits w 14 1 == 1
def repB (w : Nat) : Bool := bits w 13 1 == 1

/-- The target word of repeat `i` of a pair (R82). -/
def steppedWord (w t i : Nat) : Nat :=
  match rowOf (wordClass t) (wordOp t) with
  | none => t
  | some r =>
    let n := i * repStep w
    let aLo := if r.fmt = .M then 11 else 10
    let bLo := if r.fmt = .M then 6 else 4
    t + (if repD w then n * 2 ^ 16 else 0) + (if repA w then n * 2 ^ aLo else 0)
      + (if repB w then n * 2 ^ bLo else 0)

/-- The illegal pairings of R83. A field that the format holds and the instruction does not use may be
named; a step that makes it nonzero is a reserved field, as R293 says of FENCE (log 18). -/
def badPair (w : Nat) (r : Row) (t : Nat) : Bool :=
  noRep (wordClass t) (wordOp t) || decide (0 < r.litCount t) ||
    (repD w && (!r.fmt.hasD || r.d == .plain)) || (repA w && (!r.fmt.hasA || r.a == .plain)) ||
    (repB w && (!r.fmt.hasB || r.b == .plain))

/-- A stepped field that leaves its range, or holds code 56 (R83). -/
def badStep (w : Nat) (r : Row) (t : Nat) : Bool :=
  (repD w && !r.d.inRange (r.fmt.dOf t) (repCount w) (repStep w)) ||
  (repA w && !r.a.inRange (r.fmt.aOf t) (repCount w) (repStep w)) ||
  (repB w && !r.b.inRange (r.fmt.bOf t) (repCount w) (repStep w))

/-- A step that makes an unused field nonzero in a later repeat (R75, R293). -/
def stepsUnused (w : Nat) (r : Row) : Bool :=
  decide (1 < repCount w) &&
    ((repD w && r.d == .unused) || (repA w && r.a == .unused) || (repB w && r.b == .unused))

/-- Whether some repeat's word fails a check. -/
def anyRepeat (w t : Nat) (p : Nat → Bool) : Bool := (List.range (repCount w)).any fun i => p (steppedWord w t i)

/-- The first failing check of a pair, with the word that TVAL holds (R79, R83): each check looks at the
REP word and then at the target, whose repeats must all pass it. -/
def checkPair (k : SeqKind) (w t : Nat) : Option (Nat × Nat) :=
  if !k.accepts (wordClass t) then some (0x004, t)
  else
    match rowOf (wordClass t) (wordOp t) with
    | none => some (0x001, t)
    | some r =>
      if badPair w r t then some (0x005, t)
      else if bits w 0 10 != 0 then some (0x003, w)
      else if r.reserved t || stepsUnused w r then some (0x003, t)
      else if r.litPos t then some (0x006, t)
      else if r.illegal t then some (0x002, t)
      else if badStep w r t || anyRepeat w t r.illegal then some (0x002, t)
      else none

/-- The base word of an instruction, from the encodings of the spec (R71 to R76 and each entry); an
event has none. -/
def encodeBase : Instr → Option Nat
  | .add d a b => some (0x00000000 + d.code * 65536 + a.code * 1024 + b.code * 16)
  | .sub d a b => some (0x00400000 + d.code * 65536 + a.code * 1024 + b.code * 16)
  | .mul d a b => some (0x00800000 + d.code * 65536 + a.code * 1024 + b.code * 16)
  | .mulh d a b => some (0x00C00000 + d.code * 65536 + a.code * 1024 + b.code * 16)
  | .mulhu d a b => some (0x01000000 + d.code * 65536 + a.code * 1024 + b.code * 16)
  | .div d a b => some (0x01400000 + d.code * 65536 + a.code * 1024 + b.code * 16)
  | .divu d a b => some (0x01800000 + d.code * 65536 + a.code * 1024 + b.code * 16)
  | .rem d a b => some (0x01C00000 + d.code * 65536 + a.code * 1024 + b.code * 16)
  | .remu d a b => some (0x02000000 + d.code * 65536 + a.code * 1024 + b.code * 16)
  | .and d a b => some (0x02400000 + d.code * 65536 + a.code * 1024 + b.code * 16)
  | .or d a b => some (0x02800000 + d.code * 65536 + a.code * 1024 + b.code * 16)
  | .xor d a b => some (0x02C00000 + d.code * 65536 + a.code * 1024 + b.code * 16)
  | .andn d a b => some (0x03000000 + d.code * 65536 + a.code * 1024 + b.code * 16)
  | .shl d a b => some (0x03400000 + d.code * 65536 + a.code * 1024 + b.code * 16)
  | .shr d a b => some (0x03800000 + d.code * 65536 + a.code * 1024 + b.code * 16)
  | .sar d a b => some (0x03C00000 + d.code * 65536 + a.code * 1024 + b.code * 16)
  | .rol d a b => some (0x04000000 + d.code * 65536 + a.code * 1024 + b.code * 16)
  | .min d a b => some (0x04400000 + d.code * 65536 + a.code * 1024 + b.code * 16)
  | .max d a b => some (0x04800000 + d.code * 65536 + a.code * 1024 + b.code * 16)
  | .minu d a b => some (0x04C00000 + d.code * 65536 + a.code * 1024 + b.code * 16)
  | .maxu d a b => some (0x05000000 + d.code * 65536 + a.code * 1024 + b.code * 16)
  | .clz d a f => some (0x05400000 + d.code * 65536 + a.code * 1024 + Wid.code f)
  | .ffs d a f => some (0x05800000 + d.code * 65536 + a.code * 1024 + Wid.code f)
  | .popc d a f => some (0x05C00000 + d.code * 65536 + a.code * 1024 + Wid.code f)
  | .sext d a b => some (0x06000000 + d.code * 65536 + a.code * 1024 + b.code * 16)
  | .zext d a b => some (0x06400000 + d.code * 65536 + a.code * 1024 + b.code * 16)
  | .bfx d a b s => some (0x06800000 + d.code * 65536 + a.code * 1024 + b.code * 16 + s.toNat)
  | .bfi d a b => some (0x06C00000 + d.code * 65536 + a.code * 1024 + b.code * 16)
  | .sel d a b c => some (0x07000000 + d.code * 65536 + a.code * 1024 + b.code * 16 + Cond.selCode c)
  | .cmp d a b u => some (0x07400000 + d.code * 65536 + a.code * 1024 + b.code * 16 + u.toNat)
  | .addi d a i => some (0x07800000 + d.code * 65536 + a.code * 1024 + i.toNat)
  | .movi d i => some (0x07C00000 + d.code * 65536 + i.toNat)
  | .madr d a b => some (0x08000000 + d.code * 65536 + a.code * 1024 + b.code * 16)
  | .abs d a s => some (0x08400000 + d.code * 65536 + a.code * 1024 + s.toNat)
  | .bcc c a o => some (0x08800000 + Cond.code c * 262144 + a.code * 4096 + o.toNat)
  | .br o => some (0x08C00000 + o.toNat)
  | .call o => some (0x09000000 + o.toNat)
  | .ret a l => some (0x09400000 + a.code * 1024 + l.toNat)
  | .loop c a o => some (0x09800000 + Cond.code c * 262144 + a * 4096 + o.toNat)
  | .rds d n => some (0x09C00000 + d.code * 65536 + n.toNat)
  | .wrs d n => some (0x0A000000 + d.code * 65536 + n.toNat)
  | .rdq d n => some (0x0A400000 + d * 65536 + n.toNat)
  | .fadd d a b n r => some (0x0A800000 + d.code * 65536 + a.code * 1024 + b.code * 16 + n.toNat * 4 + Rnd.code r)
  | .fmul d a b n r => some (0x0AC00000 + d.code * 65536 + a.code * 1024 + b.code * 16 + n.toNat * 4 + Rnd.code r)
  | .ffma d a b n r => some (0x0B000000 + d.code * 65536 + a.code * 1024 + b.code * 16 + n.toNat * 4 + Rnd.code r)
  | .fcmp d a b => some (0x0B400000 + d.code * 65536 + a.code * 1024 + b.code * 16)
  | .fcvt d a b => some (0x0B800000 + d.code * 65536 + a.code * 1024 + b.code * 16)
  | .fmin d a b => some (0x0BC00000 + d.code * 65536 + a.code * 1024 + b.code * 16)
  | .fmax d a b => some (0x0C000000 + d.code * 65536 + a.code * 1024 + b.code * 16)
  | .vld d a b f => some (0x20000000 + d.code * 65536 + a.code * 1024 + b.code * 16 + f.toNat)
  | .vldx d a b f => some (0x20400000 + d.code * 65536 + a.code * 1024 + b.code * 16 + f.toNat)
  | .vldb d a b f => some (0x20800000 + d.code * 65536 + a.code * 1024 + b.code * 16 + f.toNat)
  | .vlds d a b => some (0x20C00000 + d.code * 65536 + a.code * 1024 + b.code * 16)
  | .vlda d a b x s t => some (0x21000000 + d.code * 65536 + a.code * 1024 + b.code * 16 + x.toNat * 8 + s.toNat * 4 + AccType.code t)
  | .vldc d a b f => some (0x21400000 + d.code * 65536 + a.code * 1024 + b.code * 16 + WidenSrc.code f)
  | .vldq d a b s => some (0x21800000 + d.code * 65536 + a.code * 1024 + b.code * 16 + Scope.code s)
  | .vst d a b f => some (0x60000000 + d.code * 65536 + a.code * 1024 + b.code * 16 + f.toNat)
  | .vstx d a b f => some (0x60400000 + d.code * 65536 + a.code * 1024 + b.code * 16 + f.toNat)
  | .vstm d a b k => some (0x60800000 + d.code * 65536 + a.code * 1024 + b.code * 16 + k.toNat)
  | .vstc d a b p t => some (0x60C00000 + d.code * 65536 + a.code * 1024 + b.code * 16 + Policy.code p * 4 + StoreFmt.code t)
  | .vstr d a b s => some (0x61000000 + d.code * 65536 + a.code * 1024 + b.code * 16 + Scope.code s)
  | .vsta d a b => some (0x61400000 + d.code * 65536 + a.code * 1024 + b.code * 16)
  | .vadd d a b h g p => some (0x40000000 + d.code * 65536 + a.code * 1024 + b.code * 16 + h.toNat * 8 + g.toNat * 4 + p.toNat)
  | .vsub d a b h g p => some (0x40400000 + d.code * 65536 + a.code * 1024 + b.code * 16 + h.toNat * 8 + g.toNat * 4 + p.toNat)
  | .vmul d a b h g p => some (0x40800000 + d.code * 65536 + a.code * 1024 + b.code * 16 + h.toNat * 8 + g.toNat * 4 + p.toNat)
  | .vfma d a b h g p => some (0x40C00000 + d.code * 65536 + a.code * 1024 + b.code * 16 + h.toNat * 8 + g.toNat * 4 + p.toNat)
  | .vfms d a b h g p => some (0x41000000 + d.code * 65536 + a.code * 1024 + b.code * 16 + h.toNat * 8 + g.toNat * 4 + p.toNat)
  | .vfnma d a b h g p => some (0x41400000 + d.code * 65536 + a.code * 1024 + b.code * 16 + h.toNat * 8 + g.toNat * 4 + p.toNat)
  | .vmin d a b h g p => some (0x41800000 + d.code * 65536 + a.code * 1024 + b.code * 16 + h.toNat * 8 + g.toNat * 4 + p.toNat)
  | .vmax d a b h g p => some (0x41C00000 + d.code * 65536 + a.code * 1024 + b.code * 16 + h.toNat * 8 + g.toNat * 4 + p.toNat)
  | .vabs d a h p => some (0x42000000 + d.code * 65536 + a.code * 1024 + h.toNat * 8 + p.toNat)
  | .vneg d a h p => some (0x42400000 + d.code * 65536 + a.code * 1024 + h.toNat * 8 + p.toNat)
  | .vrcp d a h p => some (0x42800000 + d.code * 65536 + a.code * 1024 + h.toNat * 8 + p.toNat)
  | .vrsq d a h p => some (0x42C00000 + d.code * 65536 + a.code * 1024 + h.toNat * 8 + p.toNat)
  | .vsqrt d a h p => some (0x43000000 + d.code * 65536 + a.code * 1024 + h.toNat * 8 + p.toNat)
  | .vdiv d a b h g p => some (0x43400000 + d.code * 65536 + a.code * 1024 + b.code * 16 + h.toNat * 8 + g.toNat * 4 + p.toNat)
  | .vexp d a h p => some (0x43800000 + d.code * 65536 + a.code * 1024 + h.toNat * 8 + p.toNat)
  | .vlog d a h p => some (0x43C00000 + d.code * 65536 + a.code * 1024 + h.toNat * 8 + p.toNat)
  | .vtanh d a h p => some (0x44000000 + d.code * 65536 + a.code * 1024 + h.toNat * 8 + p.toNat)
  | .vsigm d a h p => some (0x44400000 + d.code * 65536 + a.code * 1024 + h.toNat * 8 + p.toNat)
  | .vsin d a h p => some (0x44800000 + d.code * 65536 + a.code * 1024 + h.toNat * 8 + p.toNat)
  | .vcos d a h p => some (0x44C00000 + d.code * 65536 + a.code * 1024 + h.toNat * 8 + p.toNat)
  | .vand d a b h g p => some (0x45000000 + d.code * 65536 + a.code * 1024 + b.code * 16 + h.toNat * 8 + g.toNat * 4 + p.toNat)
  | .vor d a b h g p => some (0x45400000 + d.code * 65536 + a.code * 1024 + b.code * 16 + h.toNat * 8 + g.toNat * 4 + p.toNat)
  | .vxor d a b h g p => some (0x45800000 + d.code * 65536 + a.code * 1024 + b.code * 16 + h.toNat * 8 + g.toNat * 4 + p.toNat)
  | .vnot d a h p => some (0x45C00000 + d.code * 65536 + a.code * 1024 + h.toNat * 8 + p.toNat)
  | .vshl d a b h g p => some (0x46000000 + d.code * 65536 + a.code * 1024 + b.code * 16 + h.toNat * 8 + g.toNat * 4 + p.toNat)
  | .vshr d a b h g p => some (0x46400000 + d.code * 65536 + a.code * 1024 + b.code * 16 + h.toNat * 8 + g.toNat * 4 + p.toNat)
  | .vsar d a b h g p => some (0x46800000 + d.code * 65536 + a.code * 1024 + b.code * 16 + h.toNat * 8 + g.toNat * 4 + p.toNat)
  | .vclz d a h p => some (0x46C00000 + d.code * 65536 + a.code * 1024 + h.toNat * 8 + p.toNat)
  | .vffs d a h p => some (0x47000000 + d.code * 65536 + a.code * 1024 + h.toNat * 8 + p.toNat)
  | .vpopc d a h p => some (0x47400000 + d.code * 65536 + a.code * 1024 + h.toNat * 8 + p.toNat)
  | .vcmp c k a b h g p => some (0x47800000 + VCond.code c * 524288 + k.toNat * 65536 + a.code * 1024 + b.code * 16 + h.toNat * 8 + g.toNat * 4 + p.toNat)
  | .vsel d a b h g p => some (0x47C00000 + d.code * 65536 + a.code * 1024 + b.code * 16 + h.toNat * 8 + g.toNat * 4 + p.toNat)
  | .vcvt d a y t h => some (0x48000000 + d.code * 65536 + a.code * 1024 + Policy.code y * 256 + NumFmt.code t * 16 + h.toNat * 8)
  | .vwiden d a w h => some (0x48400000 + d.code * 65536 + a.code * 1024 + w.toNat * 16 + h.toNat * 8)
  | .vqnt d a s f h => some (0x48800000 + d.code * 65536 + a.code * 1024 + s.toNat * 32 + f.toNat * 16 + h.toNat * 8)
  | .vdqnt d a b h g => some (0x48C00000 + d.code * 65536 + a.code * 1024 + b.code * 16 + h.toNat * 8 + g.toNat * 4)
  | .vsplit d a t h => some (0x49000000 + d.code * 65536 + a.code * 1024 + t.toNat * 16 + h.toNat * 8)
  | .vred d a y x o h => some (0x49400000 + d.code * 65536 + a.code * 1024 + Policy.code y * 256 + Axis.code x * 64 + RedOp.code o * 16 + h.toNat * 8)
  | .vscan d a y x h => some (0x49800000 + d.code * 65536 + a.code * 1024 + Policy.code y * 256 + x.toNat * 16 + h.toNat * 8)
  | .vtrn d a h => some (0x49C00000 + d.code * 65536 + a.code * 1024 + h.toNat * 8)
  | .vshuf d a b h g p => some (0x4A000000 + d.code * 65536 + a.code * 1024 + b.code * 16 + h.toNat * 8 + g.toNat * 4 + p.toNat)
  | .viota d k p => some (0x4A400000 + d.code * 65536 + IotaKind.code k * 16 + p.toNat)
  | .vrng d p => some (0x4A800000 + d.code * 65536 + p.toNat)
  | .vshape a r h => some (0x4AC00000 + a.code * 1024 + ShapeReg.code r * 16 + h.toNat * 8)
  | .vmov d a h p => some (0x4B000000 + d.code * 65536 + a.code * 1024 + h.toNat * 8 + p.toNat)
  | .vpset o k a t s h => some (0x4B400000 + PsetOp.code o * 524288 + k.toNat * 65536 + a.code * 1024 + t.toNat * 128 + s.toNat * 16 + h.toNat * 8)
  | .vclass k a c h p => some (0x4B800000 + k.toNat * 65536 + a.code * 1024 + c.toNat * 16 + h.toNat * 8 + p.toNat)
  | .vargx d a e x h => some (0x4BC00000 + d.code * 65536 + a.code * 1024 + e.toNat * 32 + x.toNat * 16 + h.toNat * 8)
  | .mstrm k a => some (0x80000000 + k.toNat * 65536 + a.code * 1024)
  | .mnest a => some (0x80400000 + a.code * 1024)
  | .mgo => some (0x80800000)
  | .mwait => some (0x80C00000)
  | .mma n t k b z m => some (0x81000000 + n.toNat * 1048576 + t.toNat * 65536 + k.toNat * 1024 + b.code * 16 + z.toNat * 4 + AccMode.code m)
  | .mldw j k b => some (0x81400000 + j.toNat * 65536 + k.toNat * 1024 + b.code * 16)
  | .mwsel j => some (0x81800000 + j.toNat * 65536)
  | .mzero n t f => some (0x81C00000 + n.toNat * 1048576 + t.toNat * 65536 + f.toNat)
  | .mspec s c => some (0x82000000 + s.toNat * 65536 + c.toNat * 1024)
  | .mcommit c => some (0x82400000 + c.toNat * 65536)
  | .mdisc c => some (0x82800000 + c.toNat * 65536)
  | .mbgj g => some (0x82C00000 + g.toNat * 65536)
  | .mbgl => some (0x83000000)
  | .mcbk c a => some (0x83400000 + c.toNat * 65536 + a.code * 1024)
  | .mstat d f => some (0x83800000 + d.code * 65536 + MstatWord.code f)
  | .qcfg a => some (0xA0000000 + a.code * 1024)
  | .qclr k => some (0xA0400000 + k.toNat * 65536)
  | .qann a f => some (0xA0800000 + a.code * 1024 + f.toNat)
  | .qapl a b f => some (0xA0C00000 + a.code * 1024 + b.code * 16 + f.toNat)
  | .qvec d a b => some (0xA1000000 + d.code * 65536 + a.code * 1024 + b.code * 16)
  | .qrot d a b => some (0xA1400000 + d.code * 65536 + a.code * 1024 + b.code * 16)
  | .qangf d a => some (0xA1800000 + d.code * 65536 + a.code * 1024)
  | .qangr d a => some (0xA1C00000 + d.code * 65536 + a.code * 1024)
  | .qrdt a b f => some (0xA2000000 + a.code * 1024 + b.code * 16 + f.toNat)
  | .qwrt a b f => some (0xA2400000 + a.code * 1024 + b.code * 16 + f.toNat)
  | .qrda a x f => some (0xA2800000 + a.code * 1024 + RowSel.code x + f.toNat * 4)
  | .qwait => some (0xA2C00000)
  | .qstat d => some (0xA3000000 + d.code * 65536)
  | .ld d a b s f => some (0xC0000000 + d.code * 65536 + a.code * 1024 + b.code * 16 + s.toNat * 4 + Wid.code f)
  | .st d a b f => some (0xC0400000 + d.code * 65536 + a.code * 1024 + b.code * 16 + Wid.code f)
  | .lda d a b o s => some (0xC0800000 + d.code * 65536 + a * 2048 + b * 64 + Order.code o * 8 + Scope.code s)
  | .str d a b o s => some (0xC0C00000 + d.code * 65536 + a * 2048 + b * 64 + Order.code o * 8 + Scope.code s)
  | .pref a b => some (0xC1000000 + a.code * 1024 + b.code * 16)
  | .fence o s => some (0xC1400000 + Order.code o * 8 + Scope.code s)
  | .waita d a b q c => some (0xC1800000 + d.code * 65536 + a.code * 1024 + b.code * 16 + q.toNat * 4 + WaitCond.code c)
  | .xform d a b f => some (0xC1C00000 + d.code * 65536 + a.code * 1024 + b.code * 16 + XformOp.code f)
  | .xbox d a => some (0xC2000000 + d.code * 65536 + a.code * 1024)
  | .amoAdd d a b o s => some (0xC4000000 + d.code * 65536 + a * 2048 + b * 64 + Order.code o * 8 + Scope.code s)
  | .amoAnd d a b o s => some (0xC4400000 + d.code * 65536 + a * 2048 + b * 64 + Order.code o * 8 + Scope.code s)
  | .amoOr d a b o s => some (0xC4800000 + d.code * 65536 + a * 2048 + b * 64 + Order.code o * 8 + Scope.code s)
  | .amoXor d a b o s => some (0xC4C00000 + d.code * 65536 + a * 2048 + b * 64 + Order.code o * 8 + Scope.code s)
  | .amoMin d a b o s => some (0xC5000000 + d.code * 65536 + a * 2048 + b * 64 + Order.code o * 8 + Scope.code s)
  | .amoMax d a b o s => some (0xC5400000 + d.code * 65536 + a * 2048 + b * 64 + Order.code o * 8 + Scope.code s)
  | .amoMinu d a b o s => some (0xC5800000 + d.code * 65536 + a * 2048 + b * 64 + Order.code o * 8 + Scope.code s)
  | .amoMaxu d a b o s => some (0xC5C00000 + d.code * 65536 + a * 2048 + b * 64 + Order.code o * 8 + Scope.code s)
  | .amoSwp d a b o s => some (0xC6000000 + d.code * 65536 + a * 2048 + b * 64 + Order.code o * 8 + Scope.code s)
  | .amoCas d a b o s => some (0xC6400000 + d.code * 65536 + a * 2048 + b * 64 + Order.code o * 8 + Scope.code s)
  | .amoFadd d a b o s => some (0xC6800000 + d.code * 65536 + a * 2048 + b * 64 + Order.code o * 8 + Scope.code s)
  | .amoAddW d a b o s => some (0xC8000000 + d.code * 65536 + a * 2048 + b * 64 + Order.code o * 8 + Scope.code s)
  | .amoAndW d a b o s => some (0xC8400000 + d.code * 65536 + a * 2048 + b * 64 + Order.code o * 8 + Scope.code s)
  | .amoOrW d a b o s => some (0xC8800000 + d.code * 65536 + a * 2048 + b * 64 + Order.code o * 8 + Scope.code s)
  | .amoXorW d a b o s => some (0xC8C00000 + d.code * 65536 + a * 2048 + b * 64 + Order.code o * 8 + Scope.code s)
  | .amoMinW d a b o s => some (0xC9000000 + d.code * 65536 + a * 2048 + b * 64 + Order.code o * 8 + Scope.code s)
  | .amoMaxW d a b o s => some (0xC9400000 + d.code * 65536 + a * 2048 + b * 64 + Order.code o * 8 + Scope.code s)
  | .amoMinuW d a b o s => some (0xC9800000 + d.code * 65536 + a * 2048 + b * 64 + Order.code o * 8 + Scope.code s)
  | .amoMaxuW d a b o s => some (0xC9C00000 + d.code * 65536 + a * 2048 + b * 64 + Order.code o * 8 + Scope.code s)
  | .amoSwpW d a b o s => some (0xCA000000 + d.code * 65536 + a * 2048 + b * 64 + Order.code o * 8 + Scope.code s)
  | .amoCasW d a b o s => some (0xCA400000 + d.code * 65536 + a * 2048 + b * 64 + Order.code o * 8 + Scope.code s)
  | .amoFaddW d a b o s => some (0xCA800000 + d.code * 65536 + a * 2048 + b * 64 + Order.code o * 8 + Scope.code s)
  | .acq d a b o s => some (0xCC000000 + d.code * 65536 + a * 2048 + b * 64 + Order.code o * 8 + Scope.code s)
  | .rel d a b o s => some (0xCC400000 + d.code * 65536 + a * 2048 + b * 64 + Order.code o * 8 + Scope.code s)
  | .bind d a b f => some (0xCC800000 + d.code * 65536 + a.code * 1024 + b.code * 16 + f.toNat)
  | .bara d a b o s => some (0xCCC00000 + d.code * 65536 + a * 2048 + b * 64 + Order.code o * 8 + Scope.code s)
  | .barw d a b o s => some (0xCD000000 + d.code * 65536 + a * 2048 + b * 64 + Order.code o * 8 + Scope.code s)
  | .barx d a b => some (0xCD400000 + d.code * 65536 + a.code * 1024 + b.code * 16)
  | .hset d a f s => some (0xCD800000 + d.code * 65536 + a.code * 1024 + f.toNat * 4 + BufState.code s)
  | .hacq d a f => some (0xCDC00000 + d.code * 65536 + a.code * 1024 + f.toNat)
  | .hrel d a f => some (0xCE000000 + d.code * 65536 + a.code * 1024 + f.toNat)
  | .hwait d a q s => some (0xCE400000 + d.code * 65536 + a.code * 1024 + q.toNat * 4 + BufState.code s)
  | .rclaim d a b n => some (0xD0000000 + d.code * 65536 + a.code * 1024 + b.code * 16 + n.toNat)
  | .rpub d a b r e => some (0xD0400000 + d.code * 65536 + a.code * 1024 + b.code * 16 + r.toNat * 2 + e.toNat)
  | .wfill d a b => some (0xD0800000 + d.code * 65536 + a.code * 1024 + b.code * 16)
  | .wfree d a b => some (0xD0C00000 + d.code * 65536 + a.code * 1024 + b.code * 16)
  | .rcons d a b => some (0xD1000000 + d.code * 65536 + a.code * 1024 + b.code * 16)
  | .rerr d a b => some (0xD1400000 + d.code * 65536 + a.code * 1024 + b.code * 16)
  | .rfix d a b => some (0xD1800000 + d.code * 65536 + a.code * 1024 + b.code * 16)
  | .rfixInit d a b => some (0xD1800001 + d.code * 65536 + a.code * 1024 + b.code * 16)
  | .rstat d a f => some (0xD1C00000 + d.code * 65536 + a.code * 1024 + RstatWord.code f)
  | .chain a b => some (0xD4000000 + a.code * 1024 + b.code * 16)
  | .cwait d a => some (0xD4400000 + d.code * 65536 + a.code * 1024)
  | .cstat d a f => some (0xD4800000 + d.code * 65536 + a.code * 1024 + f.toNat)
  | .nvsub d a b n => some (0xD4C00000 + d.code * 65536 + a.code * 1024 + b.code * 16 + n.toNat)
  | .nvcpl d a b c => some (0xD5000000 + d.code * 65536 + a.code * 1024 + b.code * 16 + c.toNat)
  | .rstf a b f => some (0xD8000000 + a.code * 1024 + b.code * 16 + f.toNat)
  | .rchain a => some (0xD8400000 + a.code * 1024)
  | .rmcr a b => some (0xD8800000 + a.code * 1024 + b.code * 16)
  | .rldf a b f => some (0xD8C00000 + a.code * 1024 + b.code * 16 + f.toNat)
  | .bsend d a b n => some (0xD9000000 + d.code * 65536 + a.code * 1024 + b.code * 16 + n.toNat)
  | .brecv d a n => some (0xD9400000 + d.code * 65536 + a.code * 1024 + n.toNat)
  | .bstat d a f => some (0xD9800000 + d.code * 65536 + a.code * 1024 + BstatWord.code f)
  | .rep c m s => some (0xE0000000 + c.toNat * 65536 + m.toNat * 8192 + s.toNat * 1024)
  | .nop => some (0xE0400000)
  | .post d a n => some (0xE0800000 + d.code * 65536 + a.code * 1024 + n.toNat)
  | .postr d a b => some (0xE0C00000 + d.code * 65536 + a.code * 1024 + b.code * 16)
  | .twait d a n => some (0xE1000000 + d.code * 65536 + a.code * 1024 + n.toNat)
  | .predwait => some (0xE1400000)
  | .hintsucc => some (0xE1800000)
  | .tend => some (0xE1C00000)
  | .regdef d a => some (0xE2000000 + d.code * 65536 + a.code * 1024)
  | .regdrop a => some (0xE2400000 + a.code * 1024)
  | .trap n => some (0xE2800000 + n.toNat)
  | .eret s => some (0xE2C00000 + s.toNat)
  | .halt => some (0xE3000000)
  | .yield a => some (0xE3400000 + a.code * 1024)
  | .qzst d a b => some (0xE3800000 + d * 65536 + a.code * 1024 + b.code * 16)
  | .ctxsw a => some (0xE4000380 + a.code * 1024)
  | .ctxswOut a b => some (0xE4000001 + a.code * 1024 + b.code * 16)
  | .ctxswIn a b => some (0xE4000002 + a.code * 1024 + b.code * 16)
  | .rcbld d a b => some (0xE4400000 + d.code * 65536 + a.code * 1024 + b.code * 16)
  | .rcbldTerm d b => some (0xE440E001 + d.code * 65536 + b.code * 16)
  | .rcbldUnf d b => some (0xE440E002 + d.code * 65536 + b.code * 16)
  | .fetchFault _ _ => none
  | .decodeFault _ _ => none
  | .trapDelivery _ _ => none
  | .splitWord _ => none
  | .nestStep _ => none
  | .bankLoad _ => none
  | .accumulatorRowCommit _ => none
  | .arrayOperationCommit _ => none
  | .transformLine _ _ => none
  | .xformComplete _ _ => none
  | .transposeTile _ => none
  | .copyRecord _ _ => none
  | .postAccept _ => none
  | .postCheckEnd _ => none
  | .lotteryDraw _ _ => none
  | .taskRetire _ _ => none
  | .edgeResolve _ _ => none
  | .hostPost _ _ => none
  | .preemptHalt _ => none
  | .understoryExchange _ => none
  | .registerWrite _ _ _ => none
  | .cqtail _ _ _ => none
  | .taskSteal _ _ => none
  | .successorReexamine _ _ => none
  | .remotePostReceive _ => none
  | .postrAck _ _ => none
  | .postrResend _ => none
  | .broadcastDelivery _ _ => none
  | .rotationFaultPending _ => none
  | .bankRequest _ _ _ _ _ => none
  | .walkComplete _ => none
  | .scrubRequest _ => none
  | .syncLineUpdate _ _ _ => none
  | .backedLineMove _ _ => none
  | .waitaReevaluate _ _ => none
  | .yieldExpire _ _ => none
  | .blockedWake _ _ _ => none
  | .flitReceive _ _ => none
  | .replayTimeout _ => none
  | .linkDown _ => none
  | .keySlotDrained _ _ => none
  | .prefixAdvertise _ _ => none
  | .remoteAccessReceive _ => none
  | .remoteAck _ _ _ _ _ => none
  | .rchainForward _ => none
  | .rmcrDelivery _ _ _ _ => none
  | .pullRequestArrive _ => none
  | .tokenGrant => none
  | .pullTokenReceive _ => none
  | .pullDataArrive _ _ _ => none
  | .pullCompleteNotice _ _ _ => none
  | .tokenExpiry _ _ _ => none
  | .orphaned _ _ => none
  | .bsendResend _ => none
  | .pullSuspendNotice _ _ => none
  | .pullResumeRequest _ _ _ => none
  | .hostFence _ _ => none
  | .hostCommandInvalid _ _ => none
  | .cplhead _ _ _ => none
  | .hostHbmAccess _ _ _ _ => none
  | .coldReset => none
  | .tenantReset _ => none
  | .tinvGo _ => none
  | .invalidationComplete => none
  | .gctlPre _ => none
  | .gctlRestart _ => none
  | .gctlResume _ => none
  | .ksctlInstall _ _ => none
  | .ksctlCur _ _ => none
  | .fsuspSuspend _ => none
  | .fsuspResume _ => none
  | .timerWrite _ => none
  | .lseedWrite _ _ => none
  | .extend _ _ => none
  | .readmr _ => none
  | .report _ => none
  | .i3cPrivateRead _ => none
  | .setdasa _ => none
  | .entdaa _ => none
  | .clockThrottle _ => none
  | .junctionOvertemp => none
  | .linkTraining _ => none
  | .deviceTimerTick => none

/-- The literal words of an instruction, low word first (R68, R77). -/
def encodeLits : Instr → List Nat
  | .add _ a b => a.lits ++ b.lits
  | .sub _ a b => a.lits ++ b.lits
  | .mul _ a b => a.lits ++ b.lits
  | .mulh _ a b => a.lits ++ b.lits
  | .mulhu _ a b => a.lits ++ b.lits
  | .div _ a b => a.lits ++ b.lits
  | .divu _ a b => a.lits ++ b.lits
  | .rem _ a b => a.lits ++ b.lits
  | .remu _ a b => a.lits ++ b.lits
  | .and _ a b => a.lits ++ b.lits
  | .or _ a b => a.lits ++ b.lits
  | .xor _ a b => a.lits ++ b.lits
  | .andn _ a b => a.lits ++ b.lits
  | .shl _ a b => a.lits ++ b.lits
  | .shr _ a b => a.lits ++ b.lits
  | .sar _ a b => a.lits ++ b.lits
  | .rol _ a b => a.lits ++ b.lits
  | .min _ a b => a.lits ++ b.lits
  | .max _ a b => a.lits ++ b.lits
  | .minu _ a b => a.lits ++ b.lits
  | .maxu _ a b => a.lits ++ b.lits
  | .clz _ a _ => a.lits
  | .ffs _ a _ => a.lits
  | .popc _ a _ => a.lits
  | .sext _ a b => a.lits ++ b.lits
  | .zext _ a b => a.lits ++ b.lits
  | .bfx _ a b _ => a.lits ++ b.lits
  | .bfi _ a b => a.lits ++ b.lits
  | .sel _ a b _ => a.lits ++ b.lits
  | .cmp _ a b _ => a.lits ++ b.lits
  | .addi _ a _ => a.lits
  | .madr _ a b => a.lits ++ b.lits
  | .abs _ a _ => a.lits
  | .bcc _ a _ => a.lits
  | .ret a _ => a.lits
  | .fadd _ a b _ _ => a.lits ++ b.lits
  | .fmul _ a b _ _ => a.lits ++ b.lits
  | .ffma _ a b _ _ => a.lits ++ b.lits
  | .fcmp _ a b => a.lits ++ b.lits
  | .fcvt _ a b => a.lits ++ b.lits
  | .fmin _ a b => a.lits ++ b.lits
  | .fmax _ a b => a.lits ++ b.lits
  | .vld _ a b _ => a.lits ++ b.lits
  | .vldx _ a b _ => a.lits ++ b.lits
  | .vldb _ a b _ => a.lits ++ b.lits
  | .vlds _ a b => a.lits ++ b.lits
  | .vlda _ a b _ _ _ => a.lits ++ b.lits
  | .vldc _ a b _ => a.lits ++ b.lits
  | .vldq _ a b _ => a.lits ++ b.lits
  | .vst _ a b _ => a.lits ++ b.lits
  | .vstx _ a b _ => a.lits ++ b.lits
  | .vstm _ a b _ => a.lits ++ b.lits
  | .vstc _ a b _ _ => a.lits ++ b.lits
  | .vstr _ a b _ => a.lits ++ b.lits
  | .vsta _ a b => a.lits ++ b.lits
  | .vadd _ a b _ _ _ => a.lits ++ b.lits
  | .vsub _ a b _ _ _ => a.lits ++ b.lits
  | .vmul _ a b _ _ _ => a.lits ++ b.lits
  | .vfma _ a b _ _ _ => a.lits ++ b.lits
  | .vfms _ a b _ _ _ => a.lits ++ b.lits
  | .vfnma _ a b _ _ _ => a.lits ++ b.lits
  | .vmin _ a b _ _ _ => a.lits ++ b.lits
  | .vmax _ a b _ _ _ => a.lits ++ b.lits
  | .vabs _ a _ _ => a.lits
  | .vneg _ a _ _ => a.lits
  | .vrcp _ a _ _ => a.lits
  | .vrsq _ a _ _ => a.lits
  | .vsqrt _ a _ _ => a.lits
  | .vdiv _ a b _ _ _ => a.lits ++ b.lits
  | .vexp _ a _ _ => a.lits
  | .vlog _ a _ _ => a.lits
  | .vtanh _ a _ _ => a.lits
  | .vsigm _ a _ _ => a.lits
  | .vsin _ a _ _ => a.lits
  | .vcos _ a _ _ => a.lits
  | .vand _ a b _ _ _ => a.lits ++ b.lits
  | .vor _ a b _ _ _ => a.lits ++ b.lits
  | .vxor _ a b _ _ _ => a.lits ++ b.lits
  | .vnot _ a _ _ => a.lits
  | .vshl _ a b _ _ _ => a.lits ++ b.lits
  | .vshr _ a b _ _ _ => a.lits ++ b.lits
  | .vsar _ a b _ _ _ => a.lits ++ b.lits
  | .vclz _ a _ _ => a.lits
  | .vffs _ a _ _ => a.lits
  | .vpopc _ a _ _ => a.lits
  | .vcmp _ _ a b _ _ _ => a.lits ++ b.lits
  | .vsel _ a b _ _ _ => a.lits ++ b.lits
  | .vcvt _ a _ _ _ => a.lits
  | .vwiden _ a _ _ => a.lits
  | .vqnt _ a _ _ _ => a.lits
  | .vdqnt _ a b _ _ => a.lits ++ b.lits
  | .vsplit _ a _ _ => a.lits
  | .vred _ a _ _ _ _ => a.lits
  | .vscan _ a _ _ _ => a.lits
  | .vtrn _ a _ => a.lits
  | .vshuf _ a b _ _ _ => a.lits ++ b.lits
  | .vshape a _ _ => a.lits
  | .vmov _ a _ _ => a.lits
  | .vpset _ _ a _ _ _ => a.lits
  | .vclass _ a _ _ _ => a.lits
  | .vargx _ a _ _ _ => a.lits
  | .mstrm _ a => a.lits
  | .mnest a => a.lits
  | .mma _ _ _ b _ _ => b.lits
  | .mldw _ _ b => b.lits
  | .mcbk _ a => a.lits
  | .qcfg a => a.lits
  | .qann a _ => a.lits
  | .qapl a b _ => a.lits ++ b.lits
  | .qvec _ a b => a.lits ++ b.lits
  | .qrot _ a b => a.lits ++ b.lits
  | .qangf _ a => a.lits
  | .qangr _ a => a.lits
  | .qrdt a b _ => a.lits ++ b.lits
  | .qwrt a b _ => a.lits ++ b.lits
  | .qrda a _ _ => a.lits
  | .ld _ a b _ _ => a.lits ++ b.lits
  | .st _ a b _ => a.lits ++ b.lits
  | .pref a b => a.lits ++ b.lits
  | .waita _ a b _ _ => a.lits ++ b.lits
  | .xform _ a b _ => a.lits ++ b.lits
  | .xbox _ a => a.lits
  | .bind _ a b _ => a.lits ++ b.lits
  | .barx _ a b => a.lits ++ b.lits
  | .hset _ a _ _ => a.lits
  | .hacq _ a _ => a.lits
  | .hrel _ a _ => a.lits
  | .hwait _ a _ _ => a.lits
  | .rclaim _ a b _ => a.lits ++ b.lits
  | .rpub _ a b _ _ => a.lits ++ b.lits
  | .wfill _ a b => a.lits ++ b.lits
  | .wfree _ a b => a.lits ++ b.lits
  | .rcons _ a b => a.lits ++ b.lits
  | .rerr _ a b => a.lits ++ b.lits
  | .rfix _ a b => a.lits ++ b.lits
  | .rfixInit _ a b => a.lits ++ b.lits
  | .rstat _ a _ => a.lits
  | .chain a b => a.lits ++ b.lits
  | .cwait _ a => a.lits
  | .cstat _ a _ => a.lits
  | .nvsub _ a b _ => a.lits ++ b.lits
  | .nvcpl _ a b _ => a.lits ++ b.lits
  | .rstf a b _ => a.lits ++ b.lits
  | .rchain a => a.lits
  | .rmcr a b => a.lits ++ b.lits
  | .rldf a b _ => a.lits ++ b.lits
  | .bsend _ a b _ => a.lits ++ b.lits
  | .brecv _ a _ => a.lits
  | .bstat _ a _ => a.lits
  | .post _ a _ => a.lits
  | .postr _ a b => a.lits ++ b.lits
  | .twait _ a _ => a.lits
  | .regdef _ a => a.lits
  | .regdrop a => a.lits
  | .yield a => a.lits
  | .qzst _ a b => a.lits ++ b.lits
  | .ctxsw a => a.lits
  | .ctxswOut a b => a.lits ++ b.lits
  | .ctxswIn a b => a.lits ++ b.lits
  | .rcbld _ a b => a.lits ++ b.lits
  | .rcbldTerm _ b => b.lits
  | .rcbldUnf _ b => b.lits
  | _ => []

/-- The words of an instruction, the base word first (R68). -/
def encode (i : Instr) : Option (List Nat) := (encodeBase i).map fun w => w :: encodeLits i

/-- The sequencer of which a class is native (R11): K for the classes every sequencer accepts. -/
def SeqKind.forClass (cls : Nat) : SeqKind :=
  match cls with
  | 1 | 2 | 3 => .V
  | 4 => .M
  | 5 => .Q
  | _ => .K

/-- The instruction that the decoder reads from the bits of a row of spec/opcode_table.json, every
literal word being zero. -/
def decodeTableWord (nbits w : Nat) : Option Instr :=
  let v := w % 2 ^ nbits
  let base := v % 2 ^ 32
  match decode (SeqKind.forClass (wordClass base)) base ⟨v / 2 ^ 32 % 2 ^ 32, v / 2 ^ 64 % 2 ^ 32⟩ with
  | .ok i => some i
  | .error _ => none

/-- The four bytes of a word, lowest address first (R4). -/
def wordBytes (w : Nat) : List Byte :=
  [BitVec.ofNat 8 w, BitVec.ofNat 8 (w / 2 ^ 8), BitVec.ofNat 8 (w / 2 ^ 16), BitVec.ofNat 8 (w / 2 ^ 24)]

end Sys2Proof
end

