-- ==== Sys2Proof/Machine/Fetch.lean ====
section
/-! DEFINITION. Time, the streams that can run, fetching and decoding the next instruction of a stream, and the
placing of an instruction (R69, R79, R80, R82, R97, R431). -/

namespace Sys2Proof.Machine

/-! ## Time (R104, R426; log 11) -/

/-- Whether the cores of a grove exchange their contexts: from the last halt on (R437). -/
def State.exchanging (s : State) (g : Nat) : Bool :=
  (s.grove g).preHalted && !(coresIn g).any fun c => (s.ctx c).mx.committing

/-- The counter of the sequencer that holds the task of a window entry, in the resident context, while its grove does not
exchange (R426, counters 0 to 3). -/
def Entry.holds (s : State) (g slot : Nat) (x : Entry) : Option Nat :=
  match x.engine with
  | some (c, e) =>
    let has (y : Context) : Bool := (y.seq (SeqKind.ofCode e)).task == some ⟨g, slot⟩
    if e < 4 && ((x.state == .retiring && !has (s.core c).under) || (x.state == .issued && has (s.ctx c))) &&
      !s.exchanging (groveOf c) then some (perfKey c e) else none
  | none => none

/-- The counters of sequencers that hold a task (R426). -/
def heldCounters (s : State) : List Nat :=
  s.groves.flatMap fun g => g.2.window.filterMap fun e => Entry.holds s g.1 e.1 e.2

/-- A step takes some cycles: one and a free number more (log 11). -/
def tick (s : State) : State :=
  let n : Word := 1 + BitVec.ofNat 64 (Config.freeStall s.fresh)
  { s with
    cycles := s.cycles + n
    fresh := s.fresh + 1
    perf := (heldCounters s).eraseDups.foldl (fun t k => Tab.set 0 t k (Tab.get 0 t k + n)) s.perf }

/-! ## Streams that can run -/

/-- The undelivered sub-queue fault that is earliest in program order (R431). -/
def Context.subFault (x : Context) : Option (Sub × VFault) :=
  let l := [(Sub.vl, x.vl.fault), (Sub.va, x.va.fault), (Sub.vs, x.vs.fault)].filterMap fun p => p.2.map fun f => (p.1, f)
  l.foldl (fun best p => match best with
    | none => some p
    | some b => if p.2.order < b.2.order then some p else best) none

/-- The bank of an MCOMMIT of a stream that has copied a tile and not the last (R205). -/
def State.midCommit (s : State) (st : Stream) : Option Nat :=
  if st.seq == .M then (s.ctx st.core).mx.commit.map (·.1) else none

/-- Whether an MCOMMIT goes on with its next tile: only a pre-emption stops it, or the temperature (R205, R460). -/
def State.commits (s : State) (st : Stream) : Option Nat :=
  if (s.seqOf st).task.isSome && !(s.grove (groveOf st.core)).preHalted && !s.overtemp then s.midCommit st else none

/-- Whether a trap waits for the instruction boundary of a sequencer (R430, R431). -/
def State.trapDue (s : State) (st : Stream) : Bool :=
  let q := s.seqOf st
  !q.handler && (s.midCommit st).isNone && (!q.deferred.isEmpty || (st.seq == .V && (s.ctx st.core).subFault.isSome))

/-! ## Fetching -/

/-- The result of a fetch of one word: the word, or the cause and TVAL of R69 and R481. A fetch sees what stands in memory: of
a running task's own stores into its code, which R70 lets it see or not, it sees all (DESIGN CHOICE, log 64). -/
def fetchWord (s : State) (st : Stream) (a : Word) : Except Fail Nat :=
  let ag := s.agentOf st
  match locate s ag .scalar .fetch a 4 4 with
  | .error f => .error f
  | .ok p =>
    match poisonCheck s p 4 with
    | .error f => .error f
    | .ok _ => .ok (ofBytes (if p.host then hostBytes s p.addr 4 else devBytes s p.addr 4))

/-- The state after the fetch of a word: the translation cache holds the page's entry (R278), the read is counted (R426),
and words in error that it meets are detected (R249). -/
def afterWord (st : Stream) (s : State) (a : Word) : State :=
  let s1 := if translated a 4 then tlbFill (s.agentOf st) a.toNat s else s
  match locate s (s.agentOf st) .scalar .fetch a 4 4 with
  | .ok p =>
    let s2 := countRead p 4 s1
    match poisonCheck s p 4 with
    | .ok _ => s2
    | .error f => f.words.foldl (detectWord st.core (s.agentOf st).source) s2
  | .error _ => s1

/-- The words that are fetched at a program counter: a REP's target, and literal words, come with the base word. -/
def fetchedAt (s : State) (st : Stream) (pc : Word) : List Word :=
  match fetchWord s st pc with
  | .error _ => [pc]
  | .ok w =>
    let n := if isRep w then 8 else if (checkWord st.seq w).isSome then 4 else wordLength st.seq w
    if n ≤ 4 then [pc] else if n ≤ 8 then [pc, pc + 4] else [pc, pc + 4, pc + 8]

/-- The state after the fetch of an instruction. -/
def afterFetch (s : State) (st : Stream) (pc : Word) : State := (fetchedAt s st pc).foldl (afterWord st) s

/-- Whether the fetch of a word waits for a walker (R278, R279). -/
def State.lacksWalker (s : State) (st : Stream) (a : Word) : Bool :=
  translated a 4 && s.walkersBusy (s.agentOf st) a.toNat

/-- The word for which the fetch of the next instruction waits for a walker. -/
def State.fetchMiss (s : State) (st : Stream) : Option Word := (fetchedAt s st (s.seqOf st).pc).find? (s.lacksWalker st)
def State.fetchWaits (s : State) (st : Stream) : Bool := (s.fetchMiss st).isSome

/-- The literal words after a base word of `len` bytes; the first of them that cannot be fetched faults. -/
def fetchLits (s : State) (st : Stream) (pc : Word) (len : Nat) : Except Fail Lits :=
  if len ≤ 4 then .ok ⟨0, 0⟩
  else
    match fetchWord s st (pc + 4) with
    | .error f => .error f
    | .ok lo =>
      if len ≤ 8 then .ok ⟨lo, 0⟩
      else match fetchWord s st (pc + 8) with
        | .error f => .error f
        | .ok hi => .ok ⟨lo, hi⟩

/-- Whether a class runs in V's sub-queues (R13). -/
def isVectorClass (cls : Nat) : Bool := cls == 1 || cls == 2 || cls == 3

/-- The event that a fetch fault or a decode fault raises. -/
def faultInstr (f : Fail) : Instr := .fetchFault f.cause f.tval
def badInstr (cause word : Nat) : Instr := .decodeFault cause (BitVec.ofNat 64 word)

/-- The instruction of a REP pair with its target word: the checks of the pair, then the REP, or the repeat
that comes next (R79, R82, R84). The splitter takes a pair with a vector target, or what is left of it. -/
def pairInstr (k : SeqKind) (q : Seq) (core w t : Nat) : Instr :=
  if k == .V && isVectorClass (wordClass t) then .splitWord core
  else
    match checkPair k w t with
    | some (c, x) => badInstr c x
    | none =>
      if q.rem = 0 then
        .rep (BitVec.ofNat 6 (bits w 16 6)) (BitVec.ofNat 3 (bits w 13 3)) (BitVec.ofNat 3 (bits w 10 3))
      else match decode k (steppedWord w t (repCount w - q.rem)) ⟨0, 0⟩ with
      | .ok i => i
      | .error c => badInstr c t

/-- The next instruction of a scalar pipe, fetched at its program counter. DESIGN CHOICE (log 64): both words of a pair are
fetched anew at each repeat; R82 does not say whether a store into them in mid-pair shows. -/
def nextOfPipe (s : State) (st : Stream) : Instr :=
  let q := s.seqOf st
  match fetchWord s st q.pc with
  | .error f => faultInstr f
  | .ok w =>
    if isRep w then
      match fetchWord s st (q.pc + 4) with
      | .error f => faultInstr f
      | .ok t => pairInstr st.seq q st.core w t
    else
      match checkWord st.seq w with
      | some c => if st.seq == .V && isVectorClass (wordClass w) then .splitWord st.core else badInstr c w
      | none =>
        match fetchLits s st q.pc (wordLength st.seq w) with
        | .error f => faultInstr f
        | .ok l =>
          match decode st.seq w l with
          | .ok i => i
          | .error c => badInstr c w

/-- The next item of a sub-queue's head word, unless the sub-queue has stopped (R18). -/
def nextOfSub (s : State) (st : Stream) : Option VItem :=
  let sq := s.subOf st
  if sq.stopped then none
  else match sq.words with
    | [] => none
    | e :: _ => e.items[e.complete]?

/-- Whether the slip depth holds the splitter and the scalar pipe of V: a sub-queue holds D words (R15); a handler goes on
past a sub-queue that a fault has stopped (R431; log 30). -/
def State.slipFull (s : State) (st : Stream) : Bool :=
  st.seq == .V && [Sub.vl, .va, .vs].any fun b =>
    let q := s.subOf { st with sub := b }
    !(q.stopped && (s.seqOf st).handler) && decide (Nat.max 1 (s.seqOf st).slip ≤ q.words.length)

/-- The next instruction of the current stream, with the state after its fetch; none when it cannot move. -/
def nextOfStream (s : State) : Option (Instr × State) :=
  let st := s.cur
  match if st.sub = .pipe then s.commits st else none with
  | some b => some (.mcommit (BitVec.ofNat 2 b), s)
  | none =>
  if !s.runs st then none
  else if st.sub = .pipe then
    if s.trapDue st then some (.trapDelivery st.core st.seq.code, s)
    else if s.slipFull st || s.fetchWaits st then none
    else some (nextOfPipe s st, afterFetch s st (s.seqOf st).pc)
  else
    match nextOfSub s st with
    | none => none
    | some (.word i) => some (i, s)
    | some (.bad c v) => some (.decodeFault c v, s)

/-! ## Placing an instruction for the next step -/

/-- The block of the root that stands in when no RCB is active. -/
def rootRcb : Rcb :=
  { block := 0, parent := 0, ovmask := 0xFFFF, tenant := 0, job := false, fkey := 0, depth := 1, window := 0, cores := 0,
    hbm := 0, fabric := 0, cls := 0, tickets := 0, fdomain := true, vector := 0, det := false,
    terminating := false, removed := 0, fence := false, useWindow := [], useHbm := 0, useFabric := 0, jobCount := 0,
    jobFlag := false }

/-- A window entry of a released task without boxes (R327). -/
def placedEntry (core engine : Nat) : Entry :=
  { record := 0, addr := 0, poster := .host 0 0 0, state := .issued, postSeq := 0, binds := [], edges := 0,
    anc := 0, hint := false, early := false, gang := none, engine := some (core, engine), stolen := 0,
    ended := false }

/-- A state in which sequencer `k` of core 0 runs a task of the root at address 0, the tenant's first gigabyte
maps HBM from 0x40000000 on, and the bytes stand there. -/
def State.placeProgram (s : State) (k : SeqKind) (bytes : List Byte) : State :=
  let st : Stream := ⟨0, k, .pipe⟩
  let ten := { s.tenant 0 with
    ptroot := 0x200001
    hbwLo := Tab.set 0 (s.tenant 0).hbwLo 0 1
    hbwHi := Tab.set 0 (s.tenant 0).hbwHi 0 0x5FFFFF0000 }
  let s1 := { s with
    agenda := [.run st], cur := st, overtemp := false, rcbs := Tab.put s.rcbs 0 rootRcb, tenants := Tab.put s.tenants 0 ten,
    poison := [], biterr := [] }
  let s2 := { s1 with msys := { s1.msys with misses := [], queued := [], answers := [], tlbs := [] } }.modGrove 0 fun g =>
    { g with window := Tab.put g.window 0 (placedEntry 0 k.code), preHalted := false, pre := [] }
  let s3 := setDevBytes s2 0x200000 (toBytes 8 0x400001)
  let s4 := setDevBytes s3 0x400000 (toBytes 8 0x4000001F)
  let s5 := (setDevBytes s4 0x40000000 bytes).modCtx 0 fun x => { x with mx := { x.mx with commit := none } }
  s5.modSeq st fun q => { q.unblock with
    pc := 0, task := some ⟨0, 0⟩, trcb := 0, tkind := k.code, rem := 0, handler := false, halted := false
    fenced := false, ended := false, deferred := [], busy := .none }

/-- The bytes of the words of an instruction whose bits are `w`: its base word and two words after it. -/
def tableBytes (nbits w : Nat) : List Byte :=
  let v := w % 2 ^ nbits
  wordBytes (v % 2 ^ 32) ++ wordBytes (v / 2 ^ 32 % 2 ^ 32) ++ wordBytes (v / 2 ^ 64 % 2 ^ 32)

end Sys2Proof.Machine
end

