-- ==== Sys2Proof/Machine/VecUnit.lean ====
section
/-! DEFINITION. The vector unit: elements of tiles, shapes, queue registers, predicates, the splitter and the
sub-queues of V (R13 to R18, R40, R76 to R80, R82, R128 to R143, R431). -/

namespace Sys2Proof.Machine

/-! ## Elements (R40, R129) -/

/-- The first `n` elements of width `w` of a tile. -/
def elemsOf (w : Nat) : Nat → Nat → List Nat
  | 0, _ => []
  | n + 1, t => t % 2 ^ w :: elemsOf w n (t / 2 ^ w)

/-- Elements packed from bit 0 on. -/
def packElems (w : Nat) : List Nat → Nat
  | [] => 0
  | x :: t => x % 2 ^ w + 2 ^ w * packElems w t

/-- The elements of `l` put over those of `old`; `none` keeps the old element (R131). -/
def mergeElems (w : Nat) : List (Option Nat) → Nat → Nat
  | [], old => old
  | x :: t, old => (x.getD (old % 2 ^ w)) % 2 ^ w + 2 ^ w * mergeElems w t (old / 2 ^ w)

/-! ## The shape (R128, R129) -/

/-- The shape register's fields. -/
structure Shape where
  fmt : NumFmt
  rows : Nat
  cols : Nat
  rnd : Rnd
  sat : Bool
deriving DecidableEq, Repr

def Shape.of (v : Nat) : Shape :=
  { fmt := NumFmt.ofCodeD (bits v 0 4), rows := bits v 4 6 + 1, cols := bits v 10 13 + 1,
    rnd := Rnd.ofCode (bits v 23 2), sat := bits v 25 1 == 1 }
/-- The element count N. -/
def Shape.n (sh : Shape) : Nat := sh.rows * sh.cols
def Shape.w (sh : Shape) : Nat := sh.fmt.width
/-- A valid value of VSH (R129, R168). -/
def validShape (v : Nat) : Bool :=
  decide (v < 2 ^ 26) && decide (bits v 0 4 < 10) && decide ((Shape.of v).n * (Shape.of v).w ≤ 16384)

/-- The context of the running core. -/
def State.here (s : State) : Context := s.ctx s.cur.core
def State.modHere (s : State) (f : Context → Context) : State := s.modCtx s.cur.core f
def thisCtx : M Context := gets' fun s => s.here
def modHere (f : Context → Context) : M Unit := modS fun s => s.modHere f

/-- The trap of R143. -/
def shapeTrap {α : Type} : M α := fun s => trap Cause.shapeInvalid (s.here.vsh.setWidth 64) s

/-- The shape check of a VA word: an accepted type, and at most 2048 elements where a predicate takes part
(R135, R143, R144). -/
def shapeM (ok : NumFmt → Bool) (pred : Bool) : M Shape := do
  let x ← thisCtx
  let v := x.vsh.toNat
  let sh := Shape.of v
  if !validShape v || !ok sh.fmt || (pred && decide (2048 < sh.n)) then shapeTrap else pure sh

/-! ## Operands (R131, R137, R142) -/

/-- The entries of a vector queue register of the running core. -/
def State.vqueue (s : State) (k : Nat) : List Tile := Tab.get [] s.here.vq k

/-- Whether the queue registers hold what the sources pop and have room for the destination (R16, R137). -/
def vecReady (x : Context) (srcs : List Src) (d : Dst) : Bool :=
  let pops := Src.queues srcs
  let len (k : Nat) : Nat := (Tab.get [] x.vq k).length
  pops.all (fun k => decide ((pops.filter (· == k)).length ≤ len k)) &&
    match d with
    | .queue k => decide (len k < 2)
    | _ => true

/-- A word that pops an empty queue register or pushes a full one blocks its sub-queue. -/
def issueV (srcs : List Src) (d : Dst) : M Unit := do
  let x ← thisCtx
  blockIf (!vecReady x srcs d)

/-- A source as a tile of which the first `bytes` bytes are read: a register, a popped entry, or zero bytes. A word in error
traps where it is read (R249). -/
def readHead (bytes : Nat) : Src → M Nat
  | .reg n => do
    readOwn (← gets' fun s => s.cur.core) 1 (2048 * n) bytes
    return (Tab.get 0 (← thisCtx).v n).toNat
  | .queue k => fun s =>
    match s.vqueue k with
    | [] => block s
    | t :: rest => .ok (t.toNat, s.modHere fun x => { x with vq := Tab.set [] x.vq k rest })
  | _ => pure 0

/-- A source as 2048 bytes. -/
def readTile (a : Src) : M Nat := readHead 2048 a

/-- A source as elements of width `w`; a literal is broadcast (R77). -/
def readElems (w n : Nat) : Src → M (List Nat)
  | .lit32 v => pure (List.replicate n ((Src.lit32 v).const.toNat % 2 ^ w))
  | .lit64 v => pure (List.replicate n (v.toNat % 2 ^ w))
  | a => do return elemsOf w n (← readHead ((n * w + 7) / 8) a)

/-- A source as 16-bit values at bytes 0, 2, 4, …; a literal is broadcast at the element width `w` of VSH first (R77,
R159, R164), and goes on beyond the N elements where 2N bytes are read (DESIGN CHOICE, log 62). -/
def readHalves (w n : Nat) : Src → M (List Nat)
  | .lit32 v => pure (broadcast (Src.lit32 v).const)
  | .lit64 v => pure (broadcast v)
  | a => readElems 16 n a
where
  broadcast (v : Word) : List Nat := elemsOf 16 n (packElems w (List.replicate (16 * n / w + 1) (v.toNat % 2 ^ w)))

/-- The value of a control source: a literal, or bytes 0 to 7 of a register or popped entry (R154, R168). -/
def readControl : Src → M Word
  | .lit32 v => pure (v.signExtend 64)
  | .lit64 v => pure v
  | a => do return BitVec.ofNat 64 (← readHead 8 a)

/-- Write a destination tile: `f` gives its bits from those it replaces, zero for a queue entry (R131). -/
def writeTile (d : Dst) (f : Nat → Nat) : M Unit :=
  match d with
  | .reg n => modS fun s =>
    markBits s.cur.core 1 (2048 * n) 2048 s.seq.trcb f
      (s.modHere fun x => { x with v := Tab.set 0 x.v n (BitVec.ofNat 16384 (f (Tab.get 0 x.v n).toNat)) })
  | .queue k => modHere fun x =>
    { x with vq := Tab.set [] x.vq k (Tab.get [] x.vq k ++ [BitVec.ofNat 16384 (f 0)]) }
  | .discard => pure ()

/-- Write result elements; `none` is an element whose predicate bit is clear. -/
def writeElems (d : Dst) (w : Nat) (l : List (Option Nat)) : M Unit := writeTile d (mergeElems w l)

/-- Write bytes from byte `o` of a tile on (R261). -/
def writeBytes (d : Dst) (o : Nat) (bytes : List Byte) : M Unit :=
  writeTile d fun old => putBits old (8 * o) (8 * bytes.length) (ofBytes bytes)

/-- Whether predicate select `p` governs element `i` so that the operation is performed (R135). -/
def governs (x : Context) (p : Nat) (i : Nat) : Bool := p == 0 || bit (Tab.get 0 x.p p) i

/-- The offset of predicate register `k` in the window of vector registers (R242). -/
def predOffset (k : Nat) : Nat := 0x18000 + 256 * k

/-- Bits 0 to n − 1 of a predicate register (R249). -/
def readPred (k n : Nat) : M Pred := do
  readOwn (← gets' fun s => s.cur.core) 1 (predOffset k) ((n + 7) / 8)
  return Tab.get 0 (← thisCtx).p k

/-- The elements that predicate select `p` governs among the first n. -/
def governed (p n : Nat) : M (Nat → Bool) := do
  if p = 0 then pure fun _ => true
  else do
    let _ ← readPred p n
    let x ← thisCtx
    pure (governs x p)

/-- Write bits 0 to N − 1 of a predicate register; `none` keeps a bit, and bits from N on are zero (R135). -/
def writePred (k : Nat) (l : List (Option Bool)) : M Unit := modS fun s =>
  let f (old : Nat) : Nat := mergeElems 1 (l.map fun b => b.map fun c => c.toNat) (old % 2 ^ l.length)
  markBits s.cur.core 1 (predOffset k) 256 s.seq.trcb f
    (s.modHere fun x => { x with p := Tab.set 0 x.p k (BitVec.ofNat 2048 (f (Tab.get 0 x.p k).toNat)) })

/-- The operand buffer after a VA word: older entries age, the marked sources enter, a written register
leaves (R133). It holds no value; it decides only when a bank is fetched. -/
def holdAfter (holds : List Src) (d : Dst) (l : List (Nat × Nat)) : List (Nat × Nat) :=
  let without (n : Nat) (acc : List (Nat × Nat)) : List (Nat × Nat) := acc.filter fun e => e.1 != n
  let aged := (l.filter fun e => decide (1 < e.2)).map fun e => (e.1, e.2 - 1)
  let add (acc : List (Nat × Nat)) (a : Src) : List (Nat × Nat) :=
    match a with
    | .reg n => let l2 := without n acc ++ [(n, 2)]; l2.drop (l2.length - 2)
    | _ => acc
  let l1 := holds.foldl add aged
  match d with
  | .reg n => without n l1
  | _ => l1

/-! ## Running a word at the head of a sub-queue (R18, R82, R431) -/

/-- One item of the head word is complete; the word leaves after its last. -/
def popItem (st : Stream) (s : State) : State :=
  let q := s.subOf st
  match q.words with
  | [] => s
  | e :: t =>
    let e' := { e with complete := e.complete + 1 }
    s.setSub st { q with words := if e'.complete < e.items.length then e' :: t else t }

/-- A fault stops the sub-queue and waits to be delivered in the scalar pipe (R18, R431). -/
def subFault (st : Stream) (cause : Nat) (tval : Word) (s : State) : State :=
  let q := s.subOf st
  match q.words with
  | [] => s
  | e :: _ =>
    let trep := if e.pair then e.items.length - e.complete else 0
    s.setSub st { q with
      stopped := true
      fault := some { cause := cause, tpc := e.pc, tval := tval, trep := trep, order := e.order } }

/-- The end of a vector word that stops at the head of its sub-queue. -/
def stopSub (e : Stop) (s : State) : State :=
  match e with
  | .trap c v => subFault s.cur c v (s.detach (Who.isOf s.cur))
  | .trapWith f c v => subFault s.cur c v ((f s).detach (Who.isOf s.cur))
  | .detect ws c v =>
    subFault s.cur c v ((ws.foldl (detectWord s.cur.core s.cur.seq.code) s).detach (Who.isOf s.cur))
  | .block on => s.detachBlocked s.cur on
  | .blockWith f on => f (s.detachBlocked s.cur on)

/-- Run the body of a vector word in its sub-queue; a blocked word has not begun. A word reads and writes its tiles in one
step (DESIGN CHOICE, log 61): beats of which some hold old and some new bytes, which R139 leaves open, are not shown. -/
def runSub (body : M Unit) (s : State) : Host.Outcome State Fault Refusal :=
  match body s with
  | .ok (_, s') => .next (popItem s.cur s')
  | .error (e, m) => .next (stopSub e (s.stopped e m))

/-! ## The splitter (R13 to R16, R80, R431) -/

/-- Place a word or pair in its sub-queue. In a handler a stopped sub-queue takes none (R431). -/
def placeEntry (sub : Sub) (items : List VItem) (pair : Bool) : M Unit := fun s =>
  let st : Stream := { s.cur with sub := sub }
  let q := s.subOf st
  let e : VEntry := { pc := s.seq.pc, items := items, complete := 0, pair := pair, order := s.here.splits }
  .ok ((), (s.setSub st { q with words := q.words ++ [e] }).modHere fun x => { x with splits := x.splits + 1 })

/-- The check of R431 before a word is placed. -/
def openSub (sub : Sub) : M Unit := fun s =>
  if s.seq.handler && (s.subOf { s.cur with sub := sub }).stopped then trap Cause.illegalOperand 0 s
  else .ok ((), s)

/-- A word of a sub-queue with its scalar operands, and how it looks with their values captured. -/
structure VWord where
  sub : Sub
  addr : List Src
  capture : List Word → Instr

/-- A captured operand: its value in place of the operand (R14). -/
def capt (l : List Word) (k : Nat) : Src := .lit64 (l.getD k 0)

/-- A VL or VS word with address fields `a` and `b`. -/
def addrWord (sub : Sub) (a b : Src) (f : Src → Src → Instr) : VWord :=
  { sub := sub, addr := [a, b], capture := fun l => f (capt l 0) (capt l 1) }

/-- The word of a VL or VS instruction, and of any other (VA), which captures nothing. -/
def vwordOf (i : Instr) : VWord :=
  match i with
  | .vld d a b f => addrWord .vl a b fun a b => .vld d a b f
  | .vldx d a b f => addrWord .vl a b fun a b => .vldx d a b f
  | .vldb d a b f => addrWord .vl a b fun a b => .vldb d a b f
  | .vlds d a b => addrWord .vl a b fun a b => .vlds d a b
  | .vlda d a b x y t => addrWord .vl a b fun a b => .vlda d a b x y t
  | .vldc d a b f => addrWord .vl a b fun a b => .vldc d a b f
  | .vldq d a b f => addrWord .vl a b fun a b => .vldq d a b f
  | .vst d a b f => addrWord .vs a b fun a b => .vst d a b f
  | .vstx d a b f => addrWord .vs a b fun a b => .vstx d a b f
  | .vstm d a b k => addrWord .vs a b fun a b => .vstm d a b k
  | .vstc d a b p t => addrWord .vs a b fun a b => .vstc d a b p t
  | .vstr d a b f => addrWord .vs a b fun a b => .vstr d a b f
  | .vsta d a b => addrWord .vs a b fun a b => .vsta d a b
  | i => { sub := .va, addr := [], capture := fun _ => i }

/-- Capture the operands of the words of an entry, in order: checks and pops as one instruction (R14, R72). -/
def captureAll : List VWord → M (List VItem)
  | [] => pure []
  | v :: t => do
    let l ← v.addr.mapM readSrc
    let rest ← captureAll t
    pure (.word (v.capture l) :: rest)

/-- The operands of the words of an entry. -/
def operandsOf (vs : List VWord) : List Src := vs.flatMap fun v => v.addr

/-- Whether an entry pops one queue more often than a queue holds entries. -/
def popsMuch (vs : List VWord) : Bool :=
  let q := Src.queues (operandsOf vs)
  q.any fun n => decide (16 < (q.filter (· == n)).length)

/-- Keep the repeats of the pair at the program counter that have been captured; none forgets them. -/
def State.keepCaptured (s : State) (l : List VItem) : State :=
  s.modHere fun x => { x with captured := Tab.set [] x.captured s.seq.pc.toNat l }

/-- Capture the repeats of a pair one after another, as entries arrive: those before `done` have been captured. -/
def captureEach : List VWord → List VItem → M (List VItem)
  | [], done, s => .ok (done, s.keepCaptured [])
  | v :: t, done, s =>
    match issuePops (Src.queues v.addr) s with
    | .ok _ =>
      match captureAll [v] s with
      | .ok (l, s') => captureEach t (done ++ l) s'
      | .error e => .error e
    | .error _ => blockWith (fun _ => s.keepCaptured done) (popWait s (Src.queues v.addr)) s

/-- Check and capture the operands of an entry's words: all entries of the queues are popped at once; those of a pair that
pops one queue more often than it can hold entries repeat by repeat (R72, R82, R100; DESIGN CHOICE, log 61). -/
def captureM (vs : List VWord) : M (List VItem) := do
  issueSrcs (operandsOf vs)
  if popsMuch vs then
    fun s =>
      let done := Tab.get [] s.here.captured s.seq.pc.toNat
      captureEach (vs.drop done.length) done s
  else do
    issuePops (Src.queues (operandsOf vs))
    captureAll vs

/-- A VL or VS word: split from the scalar pipe with its operands captured, or executed at the head. -/
def memWord (v : VWord) (body : M Unit) (s : State) : Host.Outcome State Fault Refusal :=
  if s.cur.sub = .pipe then
    runPipe (lenOf v.addr) (do
      openSub v.sub
      let l ← captureM [v]
      placeEntry v.sub l false
      pure none) s
  else runSub (do body; modS fun t => t.detach (Who.isOf t.cur)) s

/-- A VA word: split from the scalar pipe, or executed at the head of its sub-queue (R142). -/
def vaWord (i : Instr) (srcs : List Src) (d : Dst) (holds : List Src) (body : M Unit) (s : State) :
    Host.Outcome State Fault Refusal :=
  if s.cur.sub = .pipe then
    runPipe (lenOf srcs) (do
      openSub .va
      placeEntry .va [.word i] false
      pure none) s
  else
    runSub (do
      body
      modHere fun x => { x with obuf := holdAfter holds d x.obuf }) s

end Sys2Proof.Machine
end

