-- ==== Sys2Proof/Machine/Units.lean ====
section
/-! DEFINITION. The transform units and the transpose unit: XFORM, XBOX, and the events of their commands
(R252, R258 to R260, R266 to R269). -/

namespace Sys2Proof.Machine

/-! ## Work that outlives its instruction -/

/-- The context of a core that satisfies a test: the resident one, or the one in the understory; whether it is
the resident one. -/
def State.findCtx (s : State) (core : Nat) (p : Context → Bool) : Option (Bool × Context) :=
  if p (s.core core).ctx then some (true, (s.core core).ctx)
  else if p (s.core core).under then some (false, (s.core core).under)
  else none

/-- Replace the resident context, or the one in the understory. -/
def State.putCtx (s : State) (core : Nat) (resident : Bool) (x : Context) : State :=
  s.modCore core fun k => if resident then { k with ctx := x } else { k with under := x }

/-- Whether a destination of a sequencer can take a result now: a token queue has room, and no push waits that comes before
it (R101). -/
def State.takes (s : State) (core : Nat) (resident : Bool) (x : Context) (k : SeqKind) (d : Dst) : Bool :=
  match d with
  | .queue n => decide ((Tab.get [] x.tq n).length < 16) && s.pushTurnIn x resident core k.code n
  | _ => true

/-- Write a destination of a sequencer of a context. -/
def Context.writeDst (x : Context) (k : SeqKind) (d : Dst) (v : Word) : Context :=
  match d with
  | .reg n => x.setSeq k ((x.seq k).setX n v)
  | .queue n => { x with tq := Tab.set [] x.tq n (Tab.get [] x.tq n ++ [v]) }
  | .discard => x

/-- The entries at the heads of token queues are taken. -/
def Context.takeHeads (x : Context) (pops : List Nat) : Context :=
  { x with tq := pops.foldl (fun t n => Tab.set [] t n (Tab.get [] t n).tail) x.tq }

/-- The result of a POST or an XBOX: it is written, after what is left of the results of earlier instructions for d (R97), and
the sequencer goes on; or it waits for its turn and room in a token queue, and its sequencer with it (R76, R101). -/
def State.deliver (s : State) (st : Stream) (resident : Bool) (x : Context) (d : Dst) (v : Word) : State :=
  let q := x.seq st.seq
  match s.takes st.core resident x st.seq d, d with
  | false, .queue n =>
    let j : XformJob :=
      { id := s.fresh, dst := d, pc := q.pc, order := s.fresh, op := .crc, left := 0, crc := v, poison := none, pops := [] }
    s.putCtx st.core resident (x.setSeq st.seq { q with busy := .push n, xforms := q.xforms ++ [j] })
  | _, _ =>
    markDst st.core st.seq resident d q.trcb
      (s.putCtx st.core resident (((x.setSeq st.seq { q with busy := .none }).claim st.seq d).writeDst st.seq d v))

/-- A task of kind X or C ends with its command or its chain; a fault is written as an event (R341, R434). -/
def endUnitTask (t : TaskRef) (core source rcb cause : Nat) (value : Word) (s : State) : State :=
  let s1 := s.modEntry t fun e => { e with state := .retiring, ended := true }
  if cause = 0 then s1 else event cause rcb core source value s1

/-! ## XFORM (R258 to R260) -/

/-- Element bytes of an etype (R258). -/
def etypeBytes (n : Nat) : Nat := match n with | 0 => 1 | 1 => 2 | 2 => 4 | 3 => 8 | 4 => 4 | 5 => 2 | _ => 16

/-- The etypes that an operation accepts (R259). -/
def etypeOk (op : XformOp) (n : Nat) : Bool :=
  match op with
  | .fill => [0, 1, 2, 3].contains n
  | .bswap => [1, 2, 3, 6].contains n
  | .tr4 => [0, 1, 2, 3, 6].contains n
  | .addc => [0, 1, 2, 3, 4, 5].contains n
  | .qe4 | .qi8 => [4, 5].contains n
  | .crc => n == 0

/-- One bit of the checksum. -/
def crcBit (c : Word) : Word := if c.msb then (c <<< 1) ^^^ 0x42F0E1EBA9EA3693 else c <<< 1
def crcByte (c : Word) (b : Byte) : Word :=
  (List.range 8).foldl (fun x _ => crcBit x) (c ^^^ (BitVec.ofNat 64 b.toNat <<< 56))
/-- The CRC-64 of bytes, from a starting value (R259). -/
def crc64 (c : Word) (l : List Byte) : Word := l.foldl crcByte c

/-- The 4 × 4 transpose of each group of 16 elements (R259). -/
def tr4 (l : List (List Byte)) : List (List Byte) :=
  (List.range l.length).map fun i =>
    let g := i / 16 * 16
    let r := i % 16
    l.getD (g + r % 4 * 4 + r / 4) []

/-- The constant of an element (R259). -/
def xformConst (etype const : Nat) : Nat :=
  if etype = 3 then wrapInt 64 (sextInt 32 const) else const % 2 ^ (8 * etypeBytes etype)

/-- One element plus the constant (R259). -/
def addConst (etype const : Nat) (x : Nat) : Nat :=
  match etype with
  | 4 => NumFmt.fp32.addCode .rne x (const % 2 ^ 32)
  | 5 => NumFmt.bf16.addCode .rne x (const % 2 ^ 16)
  | _ => (x + xformConst etype const) % 2 ^ (8 * etypeBytes etype)

/-- A line quantised in place: the elements, the scales, zeros (R259). -/
def quantLine (i8 : Bool) (etype : Nat) (bytes : List Byte) : List Byte :=
  let f : NumFmt := if etype = 4 then .fp32 else .bf16
  let e := etypeBytes etype
  let q := quantAll i8 ((elemsOf (8 * e) (256 / e) (ofBytes bytes)).map f.decodeFloat)
  let l := q.2.map (BitVec.ofNat 8) ++ q.1.flatMap (toBytes 2)
  l ++ List.replicate (256 - l.length) 0

/-- The effect of a command on the 256 bytes of a line (R259). -/
def transformBytes (op : XformOp) (etype const : Nat) (bytes : List Byte) : List Byte :=
  let e := etypeBytes etype
  let groups := chunks e (256 / e) bytes
  match op with
  | .fill => (List.replicate (256 / e) (toBytes e (xformConst etype const))).flatten
  | .bswap => (groups.map List.reverse).flatten
  | .tr4 => (tr4 groups).flatten
  | .addc => groups.flatMap fun g => toBytes e (addConst etype const (ofBytes g))
  | .qe4 => quantLine false etype bytes
  | .qi8 => quantLine true etype bytes
  | .crc => bytes

/-- The line commands of an XFORM (R260). -/
def lineCmds (st : Stream) (id rcb : Nat) (op : XformOp) (ctl : Word) (prog pa : Nat) : List LineCmd :=
  let n := fld ctl 0 8 + 1
  (List.range n).map fun k =>
    { by_ := st, job := id, op := op, etype := fld ctl 8 3, const := fld ctl 32 32, addr := pa + 256 * k,
      prog := prog + 256 * k, after := n - 1 - k, rcb := rcb }

def execXform (d : Dst) (a b : Src) (f : XformOp) (s : State) :=
  scalarOp [a, b] d (do
    let x ← readSrc a
    let c ← readSrc b
    let n := fld c 0 8 + 1
    let pa := x.toNat % 2 ^ 48
    trapIf (x.toNat / 2 ^ 48 != 0xFF00 && x.toNat / 2 ^ 57 != 0) Cause.notPresent x
    trapIf (x.toNat % 256 != 0) Cause.misaligned x
    trapIf (fld c 11 21 != 0 || !etypeOk f (fld c 8 3) || (f == .crc && fld c 32 32 != 0)) Cause.illegalOperand c
    trapIf (!(x.toNat / 2 ^ 48 == 0xFF00 && decide (Config.chipBase ≤ pa) && decide (pa < Config.chipEnd) &&
      pa / 2 ^ 24 % 16 == 0)) Cause.windowViolation x
    let ag ← thisAgent
    let p ← access ag .vector (if f = .crc then .read else .write) x (256 * n) 256
    blockIf ((← gets' fun t => t.behindRemote ag p (256 * n)))
    keepTokens s.here
    modS fun t =>
      let id := t.fresh
      let t1 := t.modSeq t.cur fun q =>
        { q with xforms := q.xforms ++
            [{ id := id, dst := d, pc := s.seq.pc, order := id, op := f, left := n, crc := 0, poison := none,
               pops := Src.queues [a, b] }] }
      t1.modCore (chipCore p.addr) fun k =>
        { k with lines := k.lines ++ lineCmds t.cur id ag.rcb f c x.toNat p.addr }) s

/-- A command of an XFORM ends: its record, wherever its context stands, takes what the command gives. With the last one and
no line in error the XFORM can no longer trap, and the entries that it names leave their queues (R102). -/
def State.endLine (s : State) (st : Stream) (id : Nat) (f : XformJob → XformJob) : State :=
  match s.findCtx st.core fun x => (x.seq st.seq).xforms.any fun j => j.id == id with
  | none => s
  | some (r, x) =>
    let q := x.seq st.seq
    let jobs := q.xforms.map fun j => if j.id = id then f { j with left := j.left - 1 } else j
    let pops := (jobs.filter fun j => j.id == id && j.left == 0 && j.poison.isNone).flatMap (·.pops)
    s.putCtx st.core r ((x.setSeq st.seq { q with xforms := jobs }).takeHeads pops)

/-- A command of a transform unit executes on its line as one request (R252, R259, R260). -/
def runLine (l : LineCmd) (s : State) : State :=
  let ag := s.unitAgent l.by_.core l.rcb l.by_.seq.code false none
  match if l.op = .fill then none else s.firstPoison l.addr 256 with
  | some w =>
    let s1 := (s.badWords l.addr 256).foldl (detectWord ag.core ag.source) s
    let at_ : Word := BitVec.ofNat 64 (l.prog + 8 * w - l.addr)
    s1.endLine l.by_ l.job fun j =>
      { j with poison := some (match j.poison with
                 | none => at_
                 | some v => if v.toNat ≤ at_.toNat then v else at_) }
  | none =>
    let bytes := devBytes s l.addr 256
    let s1 := if l.op = .fill then s else countFixed l.addr (s.corrected l.addr 256) s
    let s2 := if l.op = .crc then s1
              else devWrite ag false l.addr (transformBytes l.op l.etype l.const bytes) s1
    let part := if l.op = .crc then crc64 (crc64 0 bytes) (List.replicate (256 * l.after) 0) else 0
    s2.endLine l.by_ l.job fun j => { j with crc := j.crc ^^^ part }

/-- TRANSFORM_LINE: the oldest command of a bank executes (R248, R252). -/
def execTransformLine (core bank : Nat) (s : State) :=
  runEvent (modS fun t =>
    let inBank (l : LineCmd) : Bool := l.addr / 256 % 16 == bank
    match (t.core core).lines.find? inBank with
    | none => t
    | some l => runLine l (t.modCore core fun k => { k with lines := k.lines.erase l })) s

/-- Whether the result of an XFORM waits for that of an earlier instruction of its sequencer that writes the same register:
an XFORM, or a QVEC or QROT (R97). -/
def Context.earlierWriter (x : Context) (k : SeqKind) (j : XformJob) : Bool :=
  match j.dst with
  | .reg _ => (x.seq k).xforms.any (fun i => decide (i.order < j.order) && i.dst == j.dst) ||
      (k == .Q && x.rot.ops.any fun o => match o with | .scalar d _ => d == j.dst | _ => false)
  | _ => false

/-- Whether an XFORM of a sequencer has ended and can be finished: it traps, or its result is the next for d (R97, R260). -/
def Context.jobDone (x : Context) (k : SeqKind) (j : XformJob) : Bool :=
  j.left == 0 && (j.poison.isSome || !x.earlierWriter k j)

/-- The end of an XFORM in a context: d is written, or the poison fault becomes pending (R260). A POST or an XBOX whose
result it is ends with it. -/
def finishXform (x : Context) (k : SeqKind) (j : XformJob) : Context :=
  let q := x.seq k
  let wait : Bool := match j.dst with | .queue n => q.busy == .push n | _ => false
  let q1 := { q with xforms := q.xforms.filter fun i => i.id != j.id, busy := if wait then .none else q.busy }
  match j.poison with
  | some a =>
    let f : DefTrap :=
      { cause := Cause.poisonConsumed, tpc := j.pc, tval := a, sec := 0, src := 0, deferred := true, trep := 0, order := j.order }
    x.setSeq k { q1 with deferred := q1.deferred ++ [f] }
  | none => (x.setSeq k q1).writeDst k j.dst (if j.op = .crc then j.crc else 0)

/-- XFORM_COMPLETE: the oldest XFORM of a sequencer whose last line command has completed (R260). -/
def execXformComplete (core seq : Nat) (s : State) :=
  runEvent (modS fun t =>
    let k := SeqKind.ofCode seq
    match t.findCtx core fun x => (x.seq k).xforms.any (x.jobDone k) with
    | none => t
    | some (r, x) =>
      match (x.seq k).xforms.find? (x.jobDone k) with
      | none => t
      | some j =>
        if j.poison.isSome then t.putCtx core r (finishXform x k j)
        else if t.takes core r x k j.dst then markDst core k r j.dst (x.seq k).trcb (t.putCtx core r (finishXform x k j))
        else t) s

/-! ## XBOX (R266 to R269) -/

/-- The fields of an XBOX descriptor (R266). -/
abbrev BoxDesc := BitVec 1024

def bxSrc (b : BoxDesc) : Nat := fld b 0 64
def bxDst (b : BoxDesc) : Nat := fld b 64 64
def bxS (b : BoxDesc) (d : Nat) : Int := sextInt 32 (fld b (128 + 32 * d) 32)
def bxT (b : BoxDesc) (d : Nat) : Int := sextInt 32 (fld b (256 + 32 * d) 32)
def bxLo (b : BoxDesc) (d : Nat) : Int := sextInt 32 (fld b (384 + 32 * d) 32)
def bxN (b : BoxDesc) (d : Nat) : Nat := fld b (512 + 16 * d) 16 + 1
def bxBound (b : BoxDesc) (d : Nat) : Nat := fld b (576 + 32 * d) 32
def bxBar (b : BoxDesc) : Word := BitVec.ofNat 64 (fld b 704 64)
def bxEs (b : BoxDesc) : Nat := 2 ^ fld b 768 2
def bxRank (b : BoxDesc) : Nat := fld b 770 2 + 1
def bxI (b : BoxDesc) : Nat := fld b 772 2
def bxJ (b : BoxDesc) : Nat := fld b 774 2
def bxFill (b : BoxDesc) : Nat := fld b 784 16

/-- The dimensions in use. -/
def bxDims (b : BoxDesc) : List Nat := List.range (bxRank b)

/-- The sum of index times stride over the dimensions in use. -/
def bxDot (b : BoxDesc) (c : Nat → Int) (s : Nat → Int) : Int := ((bxDims b).map fun d => c d * s d).sum

/-- k with k[i] and k[j] exchanged. -/
def bxSwap {α : Type} (b : BoxDesc) (k : Nat → α) (d : Nat) : α :=
  if d = bxI b then k (bxJ b) else if d = bxJ b then k (bxI b) else k d

/-- First byte and end of the elements whose index d runs over [lo d, hi d]. -/
def bxHull (b : BoxDesc) (base : Nat) (lo hi s : Nat → Int) : Int × Int :=
  (base + ((bxDims b).map fun d => min (lo d * s d) (hi d * s d)).sum,
   base + ((bxDims b).map fun d => max (lo d * s d) (hi d * s d)).sum + bxEs b)

/-- First and last coordinate in bounds. -/
def bxFirst (b : BoxDesc) (d : Nat) : Int := max 0 (bxLo b d)
def bxLast (b : BoxDesc) (d : Nat) : Int := min (bxLo b d + bxN b d) (bxBound b d) - 1

/-- Whether the hull of the in-bounds source elements meets the hull of the destination (R268). -/
def bxOverlap (b : BoxDesc) : Bool :=
  if (bxDims b).any fun d => decide (bxLast b d < bxFirst b d) then false
  else
    let x := bxHull b (bxSrc b) (bxFirst b) (bxLast b) (bxS b)
    let y := bxHull b (bxDst b) (fun _ => 0) (bxSwap b fun d => (bxN b d : Int) - 1) (bxT b)
    decide (x.1 < y.2) && decide (y.1 < x.2)

/-- Whether a descriptor is malformed (R268, step 1). -/
def bxMalformed (b : BoxDesc) : Bool :=
  let above := (List.range 4).filter fun d => decide (bxRank b ≤ d)
  fld b 776 8 != 0 || fld b 800 224 != 0 || bxRank b == 1 || decide (bxJ b ≤ bxI b) || decide (bxRank b ≤ bxJ b) ||
  (above.any fun d => bxLo b d != 0 || bxN b d != 1 || bxS b d != 0 || bxT b d != 0) || bxOverlap b

/-- Whether an address or a stride is not a multiple of the element size (R268, step 2). -/
def bxMisaligned (b : BoxDesc) : Bool :=
  bxSrc b % bxEs b != 0 || bxDst b % bxEs b != 0 ||
  (List.range 4).any fun d => bxS b d % (bxEs b : Int) != 0 || bxT b d % (bxEs b : Int) != 0

/-- Tiles along a dimension of the exchange. -/
def bxTilesOn (b : BoxDesc) (d : Nat) : Nat := (bxN b d + 31) / 32
/-- The dimensions that are not exchanged, ascending. -/
def bxOthers (b : BoxDesc) : List Nat := (bxDims b).filter fun d => d != bxI b && d != bxJ b
/-- The number of tiles of a command (R267). -/
def bxTiles (b : BoxDesc) : Nat :=
  (bxOthers b).foldl (fun n d => n * bxN b d) (bxTilesOn b (bxI b) * bxTilesOn b (bxJ b))

/-- The index in a dimension that is not exchanged, from the number of a tile. -/
def bxOther (b : BoxDesc) (d : Nat) : List Nat → Nat → Nat
  | [], _ => 0
  | e :: t, n => if e = d then n % bxN b e else bxOther b d t (n / bxN b e)

/-- The box indices of a tile, dimension i fastest (R267). -/
def bxTile (b : BoxDesc) (tile : Nat) : List (Nat → Nat) :=
  let ni := bxTilesOn b (bxI b)
  let nj := bxTilesOn b (bxJ b)
  let i0 := 32 * (tile % ni)
  let j0 := 32 * (tile / ni % nj)
  let rest := tile / (ni * nj)
  let wi := min 32 (bxN b (bxI b) - i0)
  let wj := min 32 (bxN b (bxJ b) - j0)
  (List.range (wi * wj)).map fun e d =>
    if d = bxI b then i0 + e % wi
    else if d = bxJ b then j0 + e / wi
    else bxOther b d (bxOthers b) rest

/-- The fill value of an element (R266). -/
def bxFillBytes (b : BoxDesc) : List Byte :=
  if bxEs b = 1 then toBytes 1 (bxFill b % 256)
  else (List.replicate (bxEs b / 2) (toBytes 2 (bxFill b))).flatten

/-- Read one element of a tile, or its fill (R267). -/
def bxRead (ag : Agent) (b : BoxDesc) (k : Nat → Nat) : M (List Byte) := do
  let c (d : Nat) : Int := bxLo b d + k d
  if (bxDims b).all fun d => decide (0 ≤ c d) && decide (c d < bxBound b d) then
    load ag .engine (BitVec.ofInt 64 (bxSrc b + bxDot b c (bxS b))) (bxEs b) (bxEs b)
  else pure (bxFillBytes b)

/-- The reads of a tile, and the writes that they give, in order (R267). -/
def bxReads (ag : Agent) (b : BoxDesc) (ks : List (Nat → Nat)) : M (List (Word × List Byte)) := do
  let vs ← ks.mapM (bxRead ag b)
  return (ks.zip vs).map fun p => (BitVec.ofInt 64 (bxDst b + bxDot b (bxSwap b fun d => (p.1 d : Int)) (bxT b)), p.2)

/-- What the writes of a tile come to: all done, a write that waits with those after it, or a fault with a part of the tile
written (R242, R268). -/
inductive TileWrites where
  | done (s : State)
  | wait (left : List (Word × List Byte)) (s : State)
  | fault (cause : Nat) (tval : Word) (s : State)

/-- The writes of a tile one after the other, as far as they go. -/
def bxWrites (ag : Agent) (es : Nat) : List (Word × List Byte) → State → TileWrites
  | [], s => .done s
  | p :: t, s =>
    match attempt ag (store ag .engine p.1 p.2 es) s with
    | .wait s' => .wait (p :: t) s'
    | .fault c v s' => .fault c v s'
    | .done _ s' => bxWrites ag es t s'

/-- The alignment of a descriptor address. -/
def bxAlign (a : Word) : M Unit := do
  trapIf (a.toNat / 2 ^ 48 != 0xFF00 && a.toNat / 2 ^ 57 != 0) Cause.notPresent a
  trapIf (a.toNat % 128 != 0) Cause.misaligned a

/-- Read and check a descriptor (R268). -/
def bxFetch (ag : Agent) (a : Word) : M BoxDesc := do
  bxAlign a
  let l ← load ag .engine a 128 128
  let b : BoxDesc := BitVec.ofNat 1024 (ofBytes l)
  trapIf (bxMalformed b) Cause.xboxMalformed a
  trapIf (bxMisaligned b) Cause.misaligned a
  pure b

/-- XBOX: the command is placed in the transpose unit of the core, and the stream waits for its end (R269). -/
def execXbox (d : Dst) (a : Src) (s : State) :=
  scalarOp [a] d (do
    let x ← readSrc a
    trapIf (x.toNat % 128 != 0) Cause.misaligned x
    blockIf ((← gets' fun t => t.xformsOpen || t.remoteOpenTo ownDevice))
    let t ← gets' id
    if (t.core t.cur.core).xpose.isSome || !t.firstFor 6 t.cur.core then blockOn 6 t.cur.core
    else
      let q := s.seq
      let c : XposeCmd :=
        { by_ := .stream t.cur, owner := q.task, rcb := q.trcb, det := q.detm, desc := x, image := none, tile := 0,
          left := none, total := 0, dst := d, pc := q.pc, rem := q.rem }
      keepTokens s.here
      modS fun u => (u.modCore u.cur.core fun k => { k with xpose := some c }).modSeq u.cur fun p =>
        { p with busy := .xbox (Src.queues [a]).head? }) s

/-- Whether a sequencer waits for its XBOX. -/
def Seq.inXbox (q : Seq) : Bool := match q.busy with | .xbox _ => true | _ => false
/-- The token queue whose head entry its XBOX takes. -/
def Seq.xboxPops (q : Seq) : List Nat := match q.busy with | .xbox (some n) => [n] | _ => []

/-- The result of a command: its byte count, or its fault. -/
inductive XposeEnd where
  | bytes
  | fault (cause : Nat) (tval : Word)

/-- The end of an XBOX in the context of its stream: its entry of a token queue is taken and d written, or its trap is taken,
with the queue as it was (R102); in a pre-empted context the fault is deferred (R269). -/
def endXbox (core : Nat) (st : Stream) (c : XposeCmd) (e : XposeEnd) (s : State) : State :=
  let s1 := s.modCore core fun k => { k with xpose := none }
  match s.findCtx st.core fun x => (x.seq st.seq).task == c.owner && (x.seq st.seq).inXbox with
  | none => s1
  | some (r, x) =>
    let q := { x.seq st.seq with busy := .none }
    match e with
    | .bytes => s1.deliver st r (x.takeHeads (x.seq st.seq).xboxPops) c.dst (BitVec.ofNat 64 c.total)
    | .fault cause tval =>
      if r && !(s.grove (groveOf st.core)).preHalted then
        takeTrap st { cause := cause, tval := tval, tpc := c.pc, trep := c.rem, src := 0, sec := 0, deferred := false }
          (s1.putCtx st.core r (x.setSeq st.seq q))
      else
        let f : DefTrap :=
          { cause := cause, tpc := c.pc, tval := tval, sec := 0, src := 0, deferred := true, trep := c.rem, order := s.fresh }
        s1.putCtx st.core r (x.setSeq st.seq { q with deferred := q.deferred ++ [f] })

/-- The end of a command of the transpose unit. -/
def endXpose (core : Nat) (c : XposeCmd) (e : XposeEnd) (s : State) : State :=
  match c.by_ with
  | .stream st => endXbox core st c e s
  | .task t =>
    let s1 := s.modCore core fun k => { k with xpose := none }
    match e with
    | .bytes => endUnitTask t core 4 c.rcb 0 0 s1
    | .fault cause tval => endUnitTask t core 4 c.rcb cause tval s1

/-- The writes of a tile, as far as they go, then its bytes from the barrier (R267). -/
def xposeWrites (core : Nat) (c : XposeCmd) (ag : Agent) (b : BoxDesc) (l : List (Word × List Byte)) (s : State) : State :=
  let keep (left : List (Word × List Byte)) (t : State) : State :=
    t.modCore core fun k => { k with xpose := some { c with image := some b, left := some left } }
  let bytes := (bxTile b c.tile).length * bxEs b
  match bxWrites ag (bxEs b) l s with
  | .wait left s' => keep left s'
  | .fault cause tval s' => endXpose core c (.fault cause tval) s'
  | .done s1 =>
    match attempt ag (postBytes ag (bxBar b) bytes) s1 with
    | .wait s' => keep [] s'
    | .fault cause tval s' => endXpose core c (.fault cause tval) s'
    | .done _ s2 =>
      let c2 := { c with image := some b, tile := c.tile + 1, left := none, total := c.total + bytes }
      let s3 := s2.modCore core fun k => { k with xpose := some c2 }
      if c2.tile = bxTiles b then endXpose core c2 .bytes s3 else s3

/-- A tile begins: its reads, and its writes as far as they go (R267). -/
def xposeTile (core : Nat) (c : XposeCmd) (ag : Agent) (b : BoxDesc) (s : State) : State :=
  match attempt ag (bxReads ag b (bxTile b c.tile)) s with
  | .wait s' => s'
  | .fault cause tval s' => endXpose core c (.fault cause tval) s'
  | .done l s1 => xposeWrites core c ag b l s1

/-- TRANSPOSE_TILE: the transpose unit reads and checks its descriptor, and moves the next tile; a fence ends
the command between tiles (R267, R268, R433). -/
def execTransposeTile (core : Nat) (s : State) :=
  runEvent (modS fun t =>
    match (t.core core).xpose with
    | none => t
    | some c =>
      let ag := t.unitAgent core c.rcb 4 c.det c.owner
      if t.fencedRcb c.rcb && c.left.isNone then endXpose core c (.fault Cause.halted c.desc) t
      else
        match c.image, c.left with
        | some b, some l => xposeWrites core c ag b l t
        | some b, none => if bxTiles b ≤ c.tile then endXpose core c .bytes t else xposeTile core c ag b t
        | none, _ =>
          match attempt ag (bxFetch ag c.desc) t with
          | .wait t' => t'
          | .fault cause tval t' => endXpose core c (.fault cause tval) t'
          | .done b t' => xposeTile core c ag b t') s

end Sys2Proof.Machine
end

