-- ==== Sys2Proof/Machine/Links.lean ====
section
/-! DEFINITION. The links of the fabric port: choice of a link, sealing, receiving and replaying flits, key slots,
training and the advertisement of prefix sizes (R364 to R369, R379, R451). -/

namespace Sys2Proof.Machine

/-! ## Choosing a link (R365, R367) -/

/-- The link by which a core's traffic to a target leaves: the one of its glade that the hash names, or the other
one while that is down; none to the device itself. No answer when the target cannot be reached. -/
def State.linkFor (s : State) (core target : Nat) : Option (Option Nat) :=
  if target = ownDevice then some none
  else
    let l := 2 * gladeOf core + Config.linkHash target % 2
    let o := 2 * gladeOf core + (Config.linkHash target + 1) % 2
    if (s.link l).up then some (some l) else if (s.link o).up then some (some o) else none

/-! ## Sealing (R365, R366) -/

/-- Cut or fill a list to a length. -/
def fitTo (n : Nat) (l : List Byte) : List Byte := (l ++ List.replicate n 0).take n

/-- The slot that is current (R368). -/
def Link.current (l : Link) : Option Nat := [0, 1].find? fun n => (l.slot n).state == 1

/-- Bytes 0 to 7 of a flit (R365). -/
def flitHead (seq slot cls ack credits : Nat) : List Byte :=
  toBytes 2 (seq % 4096 + slot % 2 * 2 ^ 12 + cls % 8 * 2 ^ 13) ++ toBytes 2 (ack % 4096 + credits % 16 * 2 ^ 12) ++ toBytes 4 0

/-- Seal one payload under a slot (R366). The limits of R366 and R367 are counted from the first flit of an empty
replay buffer on. -/
def Link.sealOne (l : Link) (slot fresh : Nat) (now : Word) (p : Payload) : Link :=
  let k := l.slot slot
  let head := flitHead l.nextSeq slot p.cls (l.expect + 4095) (Config.freeCredits fresh)
  let body := head ++ fitTo 240 (Config.gcmSeal k.key k.salt k.counter head (fitTo 224 p.bytes))
  let f : Sealed := { seq := l.nextSeq, slot := slot, bytes := body ++ toBytes 8 (crc64 0 body).toNat, fwd := p.fwd }
  { l.setSlot slot { k with counter := k.counter + 1 } with
    replay := l.replay ++ [f]
    nextSeq := (l.nextSeq + 1) % 4096
    sentAt := if l.replay.isEmpty then now else l.sentAt
    ackAt := if l.replay.isEmpty then now else l.ackAt }

/-- Seal what waits, while a slot is current and the replay buffer has room; the flits that go out. -/
def Link.drain (fresh : Nat) (now : Word) (l : Link) : List Payload → Link × List (List Byte)
  | [] => ({ l with queue := [] }, [])
  | p :: t =>
    match l.current with
    | some n =>
      if l.up && decide (l.replay.length < 512) then
        let l1 := l.sealOne n fresh now p
        let r := l1.drain fresh now t
        (r.1, (l1.replay.getLast?.map (·.bytes)).toList ++ r.2)
      else ({ l with queue := p :: t }, [])
    | none => ({ l with queue := p :: t }, [])

/-- Let a link seal what waits on it. -/
def drainLink (n : Nat) (s : State) : State :=
  let r := (s.link n).drain s.fresh s.timer (s.link n).queue
  let s1 := s.setLink n r.1
  if r.2.isEmpty then s1 else s1.send (.flits n r.2)

/-- A forward that a message carries: a chain access of another device's operation (R375). -/
def OutMsg.forward : OutMsg → Option RemoteAccess
  | .access _ m => if m.kind = .chain ∧ 0 < m.index then some m else none
  | _ => none

/-- Send a message by a link; one to the device itself arrives as the next event (R370). -/
def transmit (link : Option Nat) (cls : Nat) (m : OutMsg) (s : State) : State :=
  match link with
  | none => { s.send m with agenda := s.agenda ++ [.due (.arrive m)] }
  | some n =>
    drainLink n ((s.send m).modLink n fun l =>
      { l with queue := l.queue ++ (Config.payloads m).map fun p => { cls := cls, bytes := p, fwd := OutMsg.forward m } })

/-- Send an answer to a device, from a core's glade; one that cannot be reached gets none. -/
def answer (core device cls : Nat) (m : OutMsg) (s : State) : State :=
  match s.linkFor core device with
  | some l => transmit l cls m s
  | none => s

/-! ## Receiving and replaying (R366, R367) -/

/-- Take the acknowledgement of a flit that has been accepted: what it covers is forgotten, and is progress (R366,
R367). -/
def Link.acked (ack : Nat) (now : Word) (l : Link) : Link :=
  match l.replay.findIdx? fun f => f.seq == ack with
  | some i => { l with replay := l.replay.drop (i + 1), replays := 0, sentAt := now, ackAt := now }
  | none => { l with ackAt := now }

/-- FLIT_RECEIVE (R366): the checks in order; a flit that fails one is discarded and counted. -/
def execFlitReceive (link : Nat) (flit : List Byte) (s : State) : Host.Outcome State Fault Refusal :=
  let l := s.link link
  let head := ofBytes (flit.take 4)
  let body := flit.take 248
  let k := l.slot (head / 2 ^ 12 % 2)
  let ok := l.up && flit.length == 256 && ofBytes (flit.drop 248) == (crc64 0 body).toNat &&
    (Config.gcmOpen k.key k.salt (flit.take 8) ((flit.drop 8).take 240)).isSome && head % 4096 == l.expect
  if ok then
    .next (drainLink link (s.setLink link { l.acked (head / 2 ^ 16 % 4096) s.timer with expect := (l.expect + 1) % 4096 }))
  else .next (count 0 0xC1 1 s)

/-- Whether a link has reached a limit of R367: 16 replays without progress and another 2 µs, or 20 µs without an
acknowledgement. -/
def Link.lost (l : Link) (now : Word) : Bool :=
  l.up && !l.replay.isEmpty &&
    ((decide (16 ≤ l.replays) && decide (2000 ≤ (now - l.sentAt).toNat)) || decide (20000 ≤ (now - l.ackAt).toNat))

/-- Whether the acknowledgement of a link's oldest flit has been missing for 2 µs (R366, R461). -/
def Link.replayDue (l : Link) (now : Word) : Bool :=
  l.up && !l.replay.isEmpty && !l.lost now && decide (2000 ≤ (now - l.sentAt).toNat)

/-- REPLAY_TIMEOUT (R366): after 2 µs the stored flits are sent again as they were sealed. -/
def execReplayTimeout (link : Nat) (s : State) : Host.Outcome State Fault Refusal :=
  let l := s.link link
  if l.replayDue s.timer then
    .next ((count 0 0xC0 l.replay.length (s.setLink link { l with replays := l.replays + 1, sentAt := s.timer })).send
      (.flits link (l.replay.map (·.bytes))))
  else .next s

/-! ## Key slots (R368, R369, R451) -/

/-- KEY_SLOT_DRAINED (R368): a draining slot without flits becomes empty, and its key is erased. -/
def execKeySlotDrained (link slot : Nat) (s : State) : Host.Outcome State Fault Refusal :=
  let l := s.link link
  let k := l.slot slot
  if k.state = 2 ∧ (l.replay.all fun f => f.slot != slot) = true then
    .next (s.setLink link (l.setSlot slot { k with key := 0, salt := 0, counter := 0, state := 0, installed := false }))
  else .next s

/-- The install bit of KSCTL: refused unless the slot is empty. -/
def ksctlInstall (link slot : Nat) (s : State) : State :=
  let l := s.link link
  let k := l.slot slot
  s.setLink link (l.setSlot slot
    (if k.state = 0 then { k with key := k.wKey, salt := k.wSalt, counter := 0, installed := true }
     else { k with refused := true }))

/-- KSCTL_INSTALL (R451). -/
def execKsctlInstall (link slot : Nat) (s : State) : Host.Outcome State Fault Refusal := onRegister (ksctlInstall link slot) s

/-- The cur bit of KSCTL (R368): an installed slot, whatever its state, becomes current, and the slot that was current
drains; a slot without a key refuses. -/
def ksctlCur (link slot : Nat) (s : State) : State :=
  let l := s.link link
  let k := l.slot slot
  if k.installed then
    let o := l.slot (1 - slot)
    let l1 := l.setSlot (1 - slot) (if o.state = 1 then { o with state := 2 } else o)
    drainLink link (s.setLink link (l1.setSlot slot { k with state := 1 }))
  else s.setLink link (l.setSlot slot { k with refused := true })

/-- KSCTL_CUR (R368, R451). -/
def execKsctlCur (link slot : Nat) (s : State) : Host.Outcome State Fault Refusal := onRegister (ksctlCur link slot) s

/-! ## Training and prefix sizes (R364, R379) -/

/-- Prefix size of a class at this device, in bytes. -/
def State.prefixOf (s : State) (cls : Nat) : Nat := 256 * Tab.get 16 s.prefixes cls
/-- The size last advertised by a device for a class. -/
def State.advertisedOf (s : State) (device cls : Nat) : Nat := 256 * Tab.get 16 s.advertised (4 * device + cls)

/-- Advertise the four sizes over one link, as link control (R365, R379). -/
def advertiseOn (s : State) (n : Nat) : State :=
  transmit (some n) 0 (.prefixes n ((List.range 4).map fun c => Tab.get 16 s.prefixes c)) s

/-- Advertise the four sizes over every link that is up (R379). -/
def advertise (s : State) : State := (Tab.keys (s.links.filter fun e => e.2.up)).foldl advertiseOn s

/-- LINK_TRAINING (R364): the link comes up with new sequence numbers, and the sizes are advertised over it. -/
def execLinkTraining (link : Nat) (s : State) : Host.Outcome State Fault Refusal :=
  .next (advertiseOn (s.modLink link fun l =>
    { l with up := true, replay := [], queue := [], nextSeq := 0, expect := 0, replays := 0 }) link)

/-- PREFIX_ADVERTISE (R379): the sizes of another device arrive, or the device advertises its own. -/
def execPrefixAdvertise (device : Option Nat) (sizes : List Nat) (s : State) : Host.Outcome State Fault Refusal :=
  match device with
  | none => .next (advertise s)
  | some d =>
    .next { s with advertised := (List.range 4).foldl (fun t c => Tab.set 16 t (4 * d + c) (sizes.getD c 16)) s.advertised }

end Sys2Proof.Machine
end

