-- ==== Sys2Proof/Machine/Chains.lean ====
section
/-! DEFINITION. Copy channels and their transfer records, CHAIN, CWAIT and CSTAT, and the storage queue pairs
(R65, R66, R277, R353 to R362). -/

namespace Sys2Proof.Machine

/-! ## Transfer records (R353) -/

abbrev CopyRec := BitVec 1024

def crNext (r : CopyRec) : Word := BitVec.ofNat 64 (fld r 0 64)
def crOwn (r : CopyRec) : Bool := bit r 64
def crDcmp (r : CopyRec) : Bool := bit r 65
def crCsum (r : CopyRec) : Bool := bit r 66
def crCchk (r : CopyRec) : Bool := bit r 67
def crQnt (r : CopyRec) : Bool := bit r 68
def crInt8 (r : CopyRec) : Bool := bit r 69
def crBf16 (r : CopyRec) : Bool := bit r 70
def crScope (r : CopyRec) : Nat := fld r 71 3
def crLength (r : CopyRec) : Nat := fld r 96 32
def crSrc (r : CopyRec) : Word := BitVec.ofNat 64 (fld r 128 64)
def crDst (r : CopyRec) : Word := BitVec.ofNat 64 (fld r 192 64)
def crFlag (r : CopyRec) : Word := BitVec.ofNat 64 (fld r 256 64)
def crFval (r : CopyRec) : Word := BitVec.ofNat 64 (fld r 320 64)
def crBar (r : CopyRec) : Word := BitVec.ofNat 64 (fld r 384 64)
def crBcount (r : CopyRec) : Nat := fld r 448 32
def crHandle (r : CopyRec) : Nat := fld r 480 6
def crHandleValid (r : CopyRec) : Bool := bit r 487
def crCrc (r : CopyRec) : Word := BitVec.ofNat 64 (fld r 512 64)
def crDlen (r : CopyRec) : Nat := fld r 640 32
def crThr (r : CopyRec) : Nat := fld r 672 16
def crScap (r : CopyRec) : Nat := fld r 688 16
def crSide (r : CopyRec) : Word := BitVec.ofNat 64 (fld r 704 64)
def crScales (r : CopyRec) : Word := BitVec.ofNat 64 (fld r 768 64)
def crCmask (r : CopyRec) : Nat := fld r 832 16
def crGmask (r : CopyRec) : Nat := fld r 848 8

/-- The length of the stream after decompression, as the record states it. -/
def crStream (r : CopyRec) : Nat := if crDcmp r then crDlen r else crLength r
/-- Bytes of a source element of the quantiser. -/
def crElem (r : CopyRec) : Nat := if crBf16 r then 2 else 4
/-- The bytes written at the destination. -/
def crOut (r : CopyRec) : Nat := if crQnt r then crStream r / crElem r else crStream r

/-- Whether an address is an on-chip physical address (R240). -/
def onChip (a : Word) : Bool :=
  a.toNat / 2 ^ 48 == 0xFF00 && decide (Config.chipBase ≤ a.toNat % 2 ^ 48) && decide (a.toNat % 2 ^ 48 < Config.chipEnd)

/-- Whether a write of `n` bytes would break the rule of the kind 5 ports (R354). -/
def badPort (a : Word) (n : Nat) : Bool :=
  let off := a.toNat % 2 ^ 24
  n != 0 && onChip a && a.toNat / 2 ^ 24 % 16 == 5 &&
    !((n == 8 && decide (0x2000 ≤ off) && off % 8 == 0) || (n == 2048 && decide (off < 0x2000) && off % 0x800 == 0))

/-- Whether [a, a + n) touches a PROF page of the tenant; pages that do not translate are left to the access. -/
def touchesProf (ag : Agent) (a : Word) (n : Nat) : M Bool :=
  if isVirtual a then (segments (n / 65536 + 2) a n).anyM fun g => do
    match ← pageEntry ag g.1.toNat with
    | some pte => pure (bit pte 56)
    | none => pure false
  else pure false

/-- Whether a record is malformed in itself (R66, R354). -/
def crBad (r : CopyRec) : Bool :=
  fld r 74 22 != 0 || bit r 486 || fld r 488 24 != 0 || fld r 856 168 != 0 || bit r 383 || decide (5 < crScope r) ||
  (crCchk r && !crCsum r) ||
  (crQnt r && (crStream r % crElem r != 0 || decide (65536 < crStream r / crElem r))) ||
  ((crCmask r != 0 || crGmask r != 0) && !onChip (crDst r)) ||
  badPort (crDst r) (crOut r) || (crFlag r != 0 && badPort (crFlag r) 8) ||
  (crQnt r && badPort (crScales r) (2 * ((crStream r / crElem r + 31) / 32))) || (crNext r).toNat % 128 != 0

/-- Whether a record is malformed, in itself or since a checksum covers PROF pages (R66, R277, R354). -/
def crMalformed (ag : Agent) (at_ : Word) (r : CopyRec) : M Bool :=
  if crBad r then pure true
  else if crCsum r then
    [(crSrc r, crLength r), (crDst r, crOut r), (at_, 128)].anyM fun p => touchesProf ag p.1 p.2
  else pure false

/-! ## Decompression (R356) -/

/-- An extended length: a nibble of 15 goes on with bytes up to the first below 255. -/
def lzLength (n : Nat) : List Byte → Option (Nat × List Byte)
  | [] => if n = 15 then none else some (n, [])
  | b :: t => if n ≠ 15 then some (n, b :: t) else more 15 (b :: t)
where
  more (acc : Nat) : List Byte → Option (Nat × List Byte)
    | [] => none
    | b :: t => if b = 255 then more (acc + 255) t else some (acc + b.toNat, t)

/-- Copy `n` bytes from `off` bytes back; the output is held last byte first. -/
def lzMatch (off : Nat) : Nat → List Byte → List Byte
  | 0, out => out
  | n + 1, out => lzMatch off n (out.getD (off - 1) 0 :: out)

/-- The sequences of a block; the output is held last byte first. -/
def lzSequences (dlen : Nat) : Nat → List Byte → List Byte → Option (List Byte)
  | 0, _, _ => none
  | _ + 1, [], out => some out
  | fuel + 1, tok :: t, out =>
    match lzLength (tok.toNat / 16) t with
    | none => none
    | some (n, t1) =>
      if t1.length < n ∨ dlen < out.length + n then none
      else
        let out1 := (t1.take n).reverse ++ out
        match t1.drop n with
        | [] => some out1
        | [_] => none
        | lo :: hi :: t2 =>
          let off := lo.toNat + 256 * hi.toNat
          match lzLength (tok.toNat % 16) t2 with
          | none => none
          | some (m, t3) =>
            if off = 0 ∨ out1.length < off ∨ dlen < out1.length + m + 4 then none
            else lzSequences dlen fuel t3 (lzMatch off (m + 4) out1)

/-- The decompressed bytes of a block, when it is valid and has length `dlen`. -/
def lzDecode (dlen : Nat) (l : List Byte) : Option (List Byte) :=
  match lzSequences dlen (l.length + 1) l [] with
  | some out => if out.length = dlen then some out.reverse else none
  | none => none

/-! ## Quantisation with an outlier list (R65, R66) -/

/-- The scale, the elements and the outliers of one block of FP32 codes, its padding included. Where the threshold's value is
0 and the sum of the block overflows, t is NaN as the pseudocode of R65 computes it, and no finite element is an outlier
(DESIGN CHOICE, log 61). -/
def splitBlock (i8 : Bool) (thr : Nat) (l : List Nat) : Nat × List (Nat × Bool) :=
  let f := NumFmt.fp32
  let mag (x : Nat) : Nat := x % 2 ^ 31
  let s := l.foldl (fun acc x => if (f.decodeFloat x).isFinite then f.addCode .rne acc (mag x) else acc) 0
  let m := f.divRound .rne (f.decodeFloat s) (FVal.ofInt 32)
  let t := f.decodeFloat (f.round .rne ((ue8m8Value thr).mul (f.decodeFloat m)))
  let out (x : Nat) : Bool := !(f.decodeFloat x).isFinite || t.lt (f.decodeFloat (mag x))
  let scale := blockScale i8 ((l.filter fun x => !out x).map f.decodeFloat)
  (scale, l.map fun x => if out x then (0, true) else (quantFinite i8 scale (f.decodeFloat x), false))

/-- Scales, elements and side entries (index, BF16 code) of a stream of FP32 codes. -/
def splitQuant (i8 : Bool) (thr : Nat) (l : List Nat) : List Nat × List Nat × List (Nat × Nat) :=
  let bs := (chunks 32 (l.length / 32 + 1) l).map fun b => splitBlock i8 thr (b ++ List.replicate (32 - b.length) 0)
  let es := bs.flatMap fun b => b.2
  let marked := (l.zip es).zipIdx.filter fun p => p.1.2.2
  (bs.map (·.1), (es.take l.length).map (·.1),
    marked.map fun p => (p.2, NumFmt.bf16.round .rne (NumFmt.fp32.decodeFloat p.1.1)))

/-! ## Destinations (R357) -/

/-- The destinations of a record: dst itself, then the same kind and offset in each other core that the masks name. DESIGN
CHOICE (log 64): no record names another device; R357 names such destinations as chapter 13 does, which gives a record no form
for them. -/
def crDests (r : CopyRec) (core : Nat) : List Word :=
  let d := crDst r
  let pa := d.toNat % 2 ^ 48
  if crCmask r = 0 ∧ crGmask r = 0 then [d]
  else
    let c := if pa / 2 ^ 39 % 2 = 1 then core else chipCore pa
    let cores := (List.range 16).filter fun k => bit (BitVec.ofNat 16 (crCmask r)) k
    let glades := (List.range 8).filter fun g => bit (BitVec.ofNat 8 (crGmask r)) g || g == gladeOf c
    let place (g k : Nat) : Nat := g * 192 + groveOf c % 12 * 16 + k
    let addr (x : Nat) : Word := BitVec.ofNat 64 (0xFF00 * 2 ^ 48 + Config.chipBase + gladeOf x * 2 ^ 36
      + groveOf x % 12 * 2 ^ 32 + coreIn x * 2 ^ 28 + pa % 2 ^ 28)
    d :: ((glades.flatMap fun g => cores.map (place g)).filter (· != c)).map addr

/-! ## Processing a record (R355) -/

/-- A piece of a payload write: address, bytes, and how many bytes count one in the status (0: it does not count). -/
abbrev Piece := Word × List Byte × Nat

/-- The pieces of a write of bytes at an address. -/
def piecesOf (per : Nat) (a : Word) (bytes : List Byte) : List Piece :=
  (segments (bytes.length / 65536 + 2) a bytes.length).foldl
    (fun acc g => (acc.1 ++ [(g.1, acc.2.take g.2, per)], acc.2.drop g.2)) (([] : List Piece), bytes) |> (·.1)

/-- What a record writes once its source is read: the pieces, the destination bytes, and the cause of a failure that
comes after the pieces (R355, R357). -/
def payloadOf (ag : Agent) (r : CopyRec) (bytes : List Byte) : List Piece × List Byte × Nat :=
  match if crDcmp r then lzDecode (crDlen r) bytes else some bytes with
  | none => ([], [], Cause.decompressError)
  | some l =>
    if crQnt r then
      let w := 8 * crElem r
      let codes := (elemsOf w (l.length / crElem r) (ofBytes l)).map fun x => if crBf16 r then x * 2 ^ 16 else x
      let q := splitQuant (crInt8 r) (crThr r) codes
      let out := q.2.1.map (BitVec.ofNat 8)
      let side := (q.2.2.take (crScap r)).flatMap fun e => toBytes 2 e.1 ++ toBytes 2 e.2
      (((crDests r ag.core).flatMap fun d => piecesOf 0 d out) ++ piecesOf 0 (crScales r) (q.1.flatMap (toBytes 2)) ++
        piecesOf 4 (crSide r) side, out, if crScap r < q.2.2.length then Cause.sideOverflow else 0)
    else
      (piecesOf 1 (crDst r) l ++ ((crDests r ag.core).drop 1).flatMap fun d => piecesOf 0 d l, l, 0)

/-- The write-back of a record: the checksum, the status, the own bit (R355). -/
def writeBack (ag : Agent) (at_ : Word) (r : CopyRec) (crc : Option Word) (cause count : Nat) : M Unit := do
  let control := fld r 64 64 / 2 * 2
  match crc with
  | some c => store ag .engine (at_ + 64) (toBytes 8 c.toNat) 8
  | none => pure ()
  store ag .engine (at_ + 72) (toBytes 8 (cause + count * 2 ^ 32)) 8
  store ag .engine (at_ + 8) (toBytes 1 (control % 256)) 1

/-- How a step of a record ends: the record goes on or waits, the walk goes on with another record, or it ends. -/
inductive RecEnd where
  | more (w : RecWork) (s : State)
  | wait (s : State)
  | next (a : Word) (s : State)
  | stop (cause : Nat) (s : State)

/-- A failure: fail(c) of R355. -/
def RecWork.fail (w : RecWork) (cause : Nat) : RecWork := { w with stage := .failBack, pieces := [], cause := cause }

/-- The payload of a record has been written: its late failures, or its write-back (R355). -/
def RecWork.written (w : RecWork) : RecWork :=
  if w.cause ≠ 0 then w.fail w.cause
  else if crCchk w.desc && w.crc != crCrc w.desc then w.fail Cause.checksumMismatch
  else { w with stage := .back }

/-- One step of a record (R355): every step ends at once, waits without effect, or fails. -/
def recStep (ag : Agent) (at_ : Word) (w : RecWork) (s : State) : RecEnd :=
  let r : CopyRec := w.desc
  match w.stage with
  | .payload =>
    match w.pieces with
    | [] => .more w.written s
    | (a, l, per) :: t =>
      match attempt ag (store ag .engine a l 1) s with
      | .wait u => .wait u
      | .fault c _ s' => .more (w.fail c) s'
      | .done _ s' =>
        .more { w with pieces := t, count := if per = 0 then w.count else w.count + l.length / per }
          (count ag.core 0x06 l.length s')
  | .back =>
    match attempt ag (writeBack ag at_ r (if crCsum r && !crCchk r then some w.crc else none) 0 w.count) s with
    | .wait u => .wait u
    | .fault c _ s' => .more { w with stage := .failFlag, cause := c } s'
    | .done _ s' => .more { w with stage := .handle } s'
  | .handle =>
    .more { w with stage := .barrier } (if crHandleValid r then
      s.changeHandle ag.core (crHandle r) (handleNext (s.handle ag.core (crHandle r)) .full) else s)
  | .barrier =>
    match attempt ag (postBytes ag (crBar r) (crBcount r)) s with
    | .wait u => .wait u
    | .fault c _ s' => .more (w.fail c) s'
    | .done _ s' => .more { w with stage := .flag } s'
  | .flag =>
    if crFlag r = 0 then .more { w with stage := .next } s
    else match attempt ag (store ag .scalar (crFlag r) (toBytes 8 (crFval r).toNat) 8) s with
      | .wait u => .wait u
      | .fault c _ s' => .more { w with stage := .flagBack, cause := c } s'
      | .done _ s' => .more { w with stage := .next } s'
  | .next =>
    match attempt ag (load ag .engine at_ 8 8) s with
    | .wait u => .wait u
    | .fault c _ s' => .stop c s'
    | .done l s' => if ofBytes l = 0 then .stop 0 s' else .next (wordOf l) s'
  | .failBack =>
    match attempt ag (writeBack ag at_ r none w.cause w.count) s with
    | .wait u => .wait u
    | .fault c _ s' => .more { w with stage := .failFlag, cause := c } s'
    | .done _ s' => .more { w with stage := .failFlag } s'
  | .failFlag =>
    if crFlag r = 0 then .stop w.cause s
    else match attempt ag (store ag .scalar (crFlag r) (toBytes 8 (crFval r + 2 ^ 63).toNat) 8) s with
      | .wait u => .wait u
      | .fault _ _ s' => .stop w.cause s'
      | .done _ s' => .stop w.cause s'
  | .flagBack =>
    match attempt ag (writeBack ag at_ r none w.cause w.count) s with
    | .wait u => .wait u
    | .fault _ _ s' => .stop w.cause s'
    | .done _ s' => .stop w.cause s'

/-- How far a record comes: it waits with its work kept, or it ends. -/
inductive RecRun where
  | waits (w : RecWork) (s : State)
  | next (a : Word) (s : State)
  | stop (cause : Nat) (s : State)

/-- The steps of a record, as far as they go. -/
def recRun (ag : Agent) (at_ : Word) : Nat → RecWork → State → RecRun
  | 0, w, s => .waits w s
  | fuel + 1, w, s =>
    match recStep ag at_ w s with
    | .more w' s' => recRun ag at_ fuel w' s'
    | .wait u => .waits w u
    | .next a s' => .next a s'
    | .stop c s' => .stop c s'

/-- Enough steps for a record: its pieces, and the stages after them. -/
def RecWork.fuel (w : RecWork) : Nat := w.pieces.length + 10

/-- The work of an owned record, once its checks are made and its source is read (R354, R355). -/
def recBegin (ag : Agent) (at_ : Word) (r : CopyRec) (s : State) : Attempt RecWork :=
  let w : RecWork := { desc := r, stage := .payload, pieces := [], count := 0, crc := 0, cause := 0 }
  match attempt ag (crMalformed ag at_ r) s with
  | .wait u => .wait u
  | .fault c _ s' => .done (w.fail c) s'
  | .done true s' => .done (w.fail Cause.chainRecord) s'
  | .done false t =>
  if crHandleValid r && handleState (t.handle ag.core (crHandle r)) != .fill then .done (w.fail Cause.handleState) t
  else
    match attempt ag (loadRange ag .engine (crSrc r) (crLength r)) t with
    | .wait u => .wait u
    | .fault c _ s' => .done (w.fail c) s'
    | .done bytes s' =>
      let p := payloadOf ag r bytes
      if p.1.any fun x => badPort x.1 x.2.1.length then .done (w.fail Cause.chainRecord) s'
      else if p.2.2 = Cause.decompressError then .done (w.fail Cause.decompressError) s'
      else .done { w with pieces := p.1, crc := crc64 0 p.2.1, cause := p.2.2 } s'

/-! ## Channels (R359, R360) -/

def State.modChan (s : State) (core n : Nat) (f : Channel → Channel) : State :=
  s.modCore core fun k => k.setChan n (f (k.chan n))

/-- The end of a walk (R360); a task of kind C ends with it. -/
def endWalk (core n cause : Nat) (s : State) : State :=
  let c := (s.core core).chan n
  let s1 := s.modChan core n fun c =>
    { c with work := none, busy := false, err := cause != 0, cause := if cause = 0 then c.cause else cause, by_ := none,
             owner := none }
  match c.by_ with
  | some (.task t) => endUnitTask t core (5 + n) c.rcb cause c.recAddr s1
  | _ => s1

/-- The steps of a record of a channel, and what they come to. -/
def workOn (core n : Nat) (ag : Agent) (at_ : Word) (w : RecWork) (s : State) : State :=
  match recRun ag at_ w.fuel w s with
  | .waits w' s' => s'.modChan core n fun k => { k with work := some w' }
  | .next a s' => s'.modChan core n fun k => { k with work := none, next := a }
  | .stop cause s' => endWalk core n cause s'

/-- COPY_RECORD: a channel goes on with its record, or takes the next one; a fence ends the walk between records (R355,
R433). -/
def execCopyRecord (core channel : Nat) (s : State) :=
  runEvent (modS fun t =>
    let n := channel % 4
    let c := (t.core core).chan n
    let ag := t.unitAgent core c.rcb (5 + n) c.det c.owner
    if !c.busy then t
    else match c.work with
    | some w => workOn core n ag c.recAddr w t
    | none =>
      if t.fencedRcb c.rcb then endWalk core n 0 t
      else
        let t1 := t.modChan core n fun k => { k with recAddr := k.next }
        match attempt ag (load ag .engine c.next 128 128) t1 with
        | .wait u => t.keep u.msys
        | .fault cause _ t2 => endWalk core n cause t2
        | .done l t2 =>
          let r : CopyRec := BitVec.ofNat 1024 (ofBytes l)
          if !crOwn r then endWalk core n 0 t2
          else match recBegin ag c.next r t2 with
            | .wait u => t.keep u.msys
            | .fault cause _ t3 => endWalk core n cause t3
            | .done w t3 => workOn core n ag c.next w t3) s

/-- The check of a channel number. -/
def channelOf (v : Word) : M Nat := do
  trapIf (decide (3 < v.toNat)) Cause.illegalOperand v
  pure v.toNat

/-- The channel status word (R360). -/
def Channel.status (c : Channel) : Word :=
  BitVec.ofNat 64 (c.busy.toNat + c.err.toNat * 2 + c.recAddr.toNat / 128 * 128)

def thisChan (n : Nat) : M Channel := gets' fun s => (s.core s.cur.core).chan n

def execChain (a b : Src) (s : State) :=
  scalarOp [a, b] .discard (do
    let x ← readSrc a
    let y ← readSrc b
    let n ← channelOf y
    trapIf (x.toNat % 128 != 0) Cause.misaligned x
    blockIf ((← gets' fun t => t.xformsOpen || t.remoteOpenTo ownDevice))
    let c ← thisChan n
    let key := 4 * s.cur.core + n
    if c.busy || !(← gets' fun t => t.firstFor 4 key) then blockOn 4 key
    else
      let q := s.seq
      modS fun t => t.modChan t.cur.core n fun c =>
        { c with work := none, busy := true, err := false, recAddr := x, next := x, by_ := some (.stream t.cur), owner := q.task,
                 rcb := q.trcb, det := q.detm }) s

def execCwait (d : Dst) (a : Src) (s : State) :=
  scalarOp [a] d (do
    let x ← readSrc a
    let c ← thisChan (← channelOf x)
    blockIf c.busy
    writeDst d c.status) s

def execCstat (d : Dst) (a : Src) (f : Bool) (s : State) :=
  scalarOp [a] d (do
    let x ← readSrc a
    let c ← thisChan (← channelOf x)
    blockIf (c.busy && (← gets' fun t => t.seq.detm))
    writeDst d (if f then BitVec.ofNat 64 c.cause else c.status)) s

/-! ## Storage queue pairs (R361, R362) -/

def State.pair (s : State) (n : Nat) : QPair := Tab.get QPair.reset s.pairs n
def State.setPair (s : State) (n : Nat) (p : QPair) : State := { s with pairs := Tab.put s.pairs n p }
/-- Entries of the queues: the descriptor holds one less. -/
def QPair.sqEntries (p : QPair) : Nat := p.sqsize + 1
def QPair.cqEntries (p : QPair) : Nat := p.cqsize + 1

/-- The pair that an instruction names. -/
def pairOf (v : Word) : M QPair := do
  trapIf (decide (63 < v.toNat)) Cause.illegalOperand 0
  let p ← gets' fun s => s.pair v.toNat
  let ag ← thisAgent
  trapIf (!p.enabled || p.tenant != ag.tenant) Cause.nvmeError v
  pure p

def execNvsub (d : Dst) (a b : Src) (nb : Bool) (s : State) :=
  scalarOp [a, b] d (do
    let x ← readSrc a
    let y ← readSrc b
    let p ← pairOf y
    let next := (p.sqtail + 1) % p.sqEntries
    let key := 2 * y.toNat
    let mayGo ← gets' fun t => t.firstFor 5 key
    if next = p.sqhead ∨ mayGo = false then
      if nb && next == p.sqhead && !(← gets' fun t => t.seq.detm) then writeDst d (2 ^ 32) else blockOn 5 key
    else do
      let ag ← thisAgent
      releaseWait .release .system
      let l ← load ag .vector x 64 64
      store ag .vector (p.sqbase + BitVec.ofNat 64 (64 * p.sqtail)) l 64
      modS fun t => (t.setPair y.toNat { p with sqtail := next }).send (.pcieWrite p.sqdb.toNat (toBytes 4 next))
      writeDst d (BitVec.ofNat 64 p.sqtail)) s

/-- The effects of reaping a completion entry (R362). -/
def reap (ag : Agent) (n : Nat) (p : QPair) (dest : Word) (e : List Byte) : M Unit := do
  if dest = 0 then pure () else store ag .vector dest e 16
  let wrap := p.cqhead + 1 == p.cqEntries
  let head := if wrap then 0 else p.cqhead + 1
  let p1 := { p with sqhead := ofBytes (e.drop 8) % 2 ^ 16, cqhead := head,
                     phase := if wrap then 1 - p.phase else p.phase }
  modS fun t => (t.setPair n p1).send (.pcieWrite p.cqdb.toNat (toBytes 4 head))

def execNvcpl (d : Dst) (a b : Src) (chk : Bool) (s : State) :=
  scalarOp [a, b] d (do
    let x ← readSrc a
    let y ← readSrc b
    let p ← pairOf y
    let key := 2 * y.toNat + 1
    let ag ← thisAgent
    let e ← load ag .vector (p.cqbase + BitVec.ofNat 64 (16 * p.cqhead)) 16 16
    let dw (k : Nat) : Nat := ofBytes (e.drop (4 * k)) % 2 ^ 32
    if dw 3 / 2 ^ 16 % 2 ≠ p.phase ∨ (← gets' fun t => t.firstFor 5 key) = false then blockOn 5 key
    else do
      let work := reap ag y.toNat p x e
      work
      if chk && dw 3 / 2 ^ 17 != 0 then
        trapWith (fun t => match work t with | .ok (_, u) => u | .error _ => t) Cause.nvmeError (BitVec.ofNat 64 (dw 3))
      else writeDst d (BitVec.ofNat 64 (dw 0 + dw 3 * 2 ^ 32))) s

end Sys2Proof.Machine
end

