-- ==== Sys2Proof/Machine/Matrix.lean ====
section
/-! DEFINITION. The matrix array: streams, tile reads, weight images, tile steps, and the MX instructions
with the events that carry their work out (R61, R169 to R209, R398). -/

namespace Sys2Proof.Machine

/-! ## Stream registers and tables (R174, R184) -/

abbrev StreamReg := BitVec 512

def stBase (x : StreamReg) : Nat := fld x 0 64
def stFmt (x : StreamReg) : Nat := fld x 64 4
def stRole (x : StreamReg) : Bool := bit x 68
def stCmp (x : StreamReg) : Bool := bit x 69
def stScl (x : StreamReg) : Bool := bit x 70
def stCbk (x : StreamReg) : Nat := fld x 72 4
def stFill (x : StreamReg) : Nat := fld x 80 16
def stRstride (x : StreamReg) : Nat := fld x 128 32
def stCstride (x : StreamReg) : Nat := fld x 160 32
def stExt0 (x : StreamReg) : Nat := fld x 192 32
def stExt1 (x : StreamReg) : Nat := fld x 224 32
def stSbase (x : StreamReg) : Nat := fld x 256 64
def stSstride (x : StreamReg) : Nat := fld x 320 32
def stBar (x : StreamReg) : Word := BitVec.ofNat 64 (fld x 384 64)

/-- The format of a stream's code; CB4 (10) has none of its own. -/
def mxFmt (c : Nat) : NumFmt := match c with | 2 => .bf16 | 3 => .e4m3 | 4 => .e5m2 | _ => .int8
/-- Element width in bits of a stream's format. -/
def mxWidth (c : Nat) : Nat := match c with | 2 => 16 | 10 => 4 | _ => 8
/-- The k-group size g of a B format, and the depth of a step (R171). -/
def mxGroup (c : Nat) : Nat := match c with | 2 => 1 | 10 => 4 | _ => 2
def mxDepth (c : Nat) : Nat := 32 * mxGroup c
/-- The fill pattern at the element width. -/
def stFillCode (x : StreamReg) : Nat := stFill x % 2 ^ mxWidth (stFmt x)

/-- Whether an image breaks the map of R174 (R196). -/
def streamMalformed (x : StreamReg) : Bool :=
  let b := stRole x
  bit x 71 || fld x 76 4 != 0 || fld x 96 32 != 0 || fld x 352 32 != 0 || fld x 448 64 != 0 ||
  !((if b then [2, 3, 4, 6, 10] else [2, 3, 4, 6]).contains (stFmt x)) ||
  (stCmp x && (!b || stFmt x == 10)) || stSstride x % 2 != 0 ||
  (if b then stBase x % 64 != 0 || stRstride x % 64 != 0 || stCstride x % 64 != 0 || decide (65536 ≤ stBase x)
   else stRstride x % (mxWidth (stFmt x) / 8) != 0 || stCstride x != 0)

/-- Whether formats, mode and scales form a row of R171. -/
def mxRow (bFmt aFmt : Nat) (mode : AccMode) (scaled : Bool) : Bool :=
  match mode with
  | .fp32 => (bFmt == 2 && aFmt == 2) || ((bFmt == 3 || bFmt == 4) && (aFmt == 3 || aFmt == 4)) ||
      (bFmt == 10 && (aFmt == 3 || aFmt == 4 || aFmt == 6))
  | _ => bFmt == 6 && aFmt == 6 && !scaled

/-- Fields of a loop-nest table (R184). -/
def ntSa (t : BitVec 512) : Nat := fld t 0 4
def ntSb (t : BitVec 512) : Nat := fld t 4 4
def ntTile0 (t : BitVec 512) : Nat := fld t 10 4
def ntZmask (t : BitVec 512) (l : Nat) : Bool := bit t (14 + l)
def ntMode (t : BitVec 512) : AccMode := AccMode.ofCode (fld t 20 2)
def ntBc (t : BitVec 512) : Bool := bit t 22
def ntOrigin (t : BitVec 512) (k : Nat) : Nat := fld t (64 + 16 * k) 16
def ntCount (t : BitVec 512) (l : Nat) : Nat := fld t (128 + 64 * l) 16 + 1
/-- The signed step `k` of level `l`: A row, A column, B k-tile, B n-tile, accumulator tile. -/
def ntStep (t : BitVec 512) (l k : Nat) : Int := sextInt 8 (fld t (128 + 64 * l + 16 + 8 * k) 8)

/-- The index of level `l` at step `j`. -/
def ntIndex (t : BitVec 512) (l j : Nat) : Nat :=
  j / ((List.range l).map (ntCount t)).foldl (· * ·) 1 % ntCount t l
/-- The number of steps. -/
def ntTotal (t : BitVec 512) : Nat := ((List.range 6).map (ntCount t)).foldl (· * ·) 1
/-- A coordinate at step `j`: its origin and the steps of every level (R185). -/
def ntCoord (t : BitVec 512) (o : Nat) (k j : Nat) : Int :=
  (o : Int) + ((List.range 6).map fun l => (ntIndex t l j : Int) * ntStep t l k).sum
/-- Whether step `j` zeroes first. -/
def ntZero (t : BitVec 512) (j : Nat) : Bool := (List.range 6).all fun l => !ntZmask t l || ntIndex t l j == 0
/-- Least and greatest tile of a nest (R187). -/
def ntTiles (t : BitVec 512) : Int × Int :=
  let ends := (List.range 6).map fun l => ((ntCount t l : Int) - 1) * ntStep t l 4
  ((ntTile0 t : Int) + (ends.map (min 0)).sum, (ntTile0 t : Int) + (ends.map (max 0)).sum)
/-- Whether a table breaks the map of R184 (R197). -/
def tableMalformed (t : BitVec 512) : Bool :=
  fld t 20 2 == 3 || fld t 23 41 != 0 || (List.range 6).any fun l => fld t (128 + 64 * l + 56) 8 != 0

/-! ## Reading tiles (R175, R176, R178) -/

/-- The matrix state of a core. -/
def State.mx (s : State) (core : Nat) : Matrix := (s.ctx core).mx
def State.modMx (s : State) (core : Nat) (f : Matrix → Matrix) : State :=
  s.modCtx core fun x => { x with mx := f x.mx }
/-- The agent of the matrix array, which works for M's task. -/
def State.mxAgent (s : State) (core : Nat) : Agent := { s.agentOf ⟨core, .M, .pipe⟩ with array := true }

/-- A contiguous read of elements of `es` bytes. -/
def readSpan (ag : Agent) (a : Nat) (n es : Nat) : M (List Byte) := do
  let r ← (segments (n / 65536 + 2) (BitVec.ofNat 64 a) n).mapM fun p => load ag .vector p.1 p.2 es
  pure r.flatten

/-- The scale one. -/
abbrev scaleOne : Nat := 0x7F00

/-- Row `m` of an A tile: element codes and a scale code for each. -/
def readARow (ag : Agent) (x : StreamReg) (kt : Nat) (ti tj : Int) (m : Nat) : M (List Nat × List Nat) := do
  let w := mxWidth (stFmt x)
  let r := 32 * ti + m
  let c0 := (kt : Int) * tj
  let k0 := (max 0 (-c0)).toNat
  let k1 := (min (kt : Int) ((stExt1 x : Int) - c0)).toNat
  if r < 0 ∨ (stExt0 x : Int) ≤ r ∨ k1 ≤ k0 then
    pure (List.replicate kt (stFillCode x), List.replicate kt scaleOne)
  else do
    let first := (c0 + k0).toNat
    let l ← readSpan ag (stBase x + r.toNat * stRstride x + first * (w / 8)) ((k1 - k0) * (w / 8)) (w / 8)
    let b0 := first / 32
    let nb := (first + (k1 - k0) - 1) / 32 - b0 + 1
    let sc ← if stScl x then readSpan ag (stSbase x + r.toNat * stSstride x + 2 * b0) (2 * nb) 2 else pure []
    let scales := elemsOf 16 nb (ofBytes sc)
    let scale (k : Nat) : Nat := if stScl x then scales.getD ((first + k) / 32 - b0) scaleOne else scaleOne
    pure (List.replicate k0 (stFillCode x) ++ elemsOf w (k1 - k0) (ofBytes l) ++ List.replicate (kt - k1) (stFillCode x),
      List.replicate k0 scaleOne ++ (List.range (k1 - k0)).map scale ++ List.replicate (kt - k1) scaleOne)

/-- An A tile, and the update of its stream's barrier (R176). -/
def readATile (ag : Agent) (x : StreamReg) (kt : Nat) (ti tj : Int) : M (List Nat × List Nat) := do
  let rows ← (List.range 32).mapM (readARow ag x kt ti tj)
  postBytes ag (stBar x) (32 * kt * (mxWidth (stFmt x) / 8))
  pure (rows.flatMap (·.1), rows.flatMap (·.2))

/-- The image size of a B stream (R178). -/
def imageBytes (x : StreamReg) : Nat := if stCmp x then if stFmt x = 2 then 1280 else 1536 else 2048

/-- The running core's weight buffer at an offset. -/
def weightAddr (off : Nat) : Word := 0xFF00808003000000 + BitVec.ofNat 64 off

/-- An image is aligned to 64 and lies within the weight buffer (R179). -/
def weightCheck (off n : Nat) : M Unit := do
  trapIf (off % 64 != 0) Cause.misaligned (weightAddr off)
  trapIf (decide (65536 < off + n)) Cause.windowViolation (weightAddr (Nat.max off 65536))

/-- A metadata byte of a 2:4 image that is malformed (R178). -/
def metaBad (b : Nat) : Bool := decide (b / 4 % 4 ≤ b % 4) || b / 16 != 0

/-- Element (k, n) of a 2:4 image. -/
def sparseElem (vals metas : List Nat) (k n : Nat) : Nat :=
  let j := k / 4
  let m := metas.getD (32 * j + n) 0
  if k % 4 = m % 4 then vals.getD (2 * j * 32 + n) 0
  else if k % 4 = m / 4 % 4 then vals.getD ((2 * j + 1) * 32 + n) 0
  else 0

/-- The data bytes of a B tile: dense from its image, or expanded (R178). -/
def expandImage (x : StreamReg) (off : Nat) (l : List Byte) : M Tile :=
  if !stCmp x then pure (BitVec.ofNat 16384 (ofBytes l))
  else
    let w := mxWidth (stFmt x)
    let kt := mxDepth (stFmt x)
    let vals := elemsOf w (kt / 2 * 32) (ofBytes l)
    let metas := (l.drop 1024).map (·.toNat)
    match metas.findIdx? metaBad with
    | some i => trap Cause.weightMalformed (BitVec.ofNat 64 (off + 1024 + i))
    | none => pure (BitVec.ofNat 16384 (packElems w
        ((List.range kt).flatMap fun k => (List.range 32).map fun n => sparseElem vals metas k n)))

/-- Load tile (ti, tj) of a B stream: the bank that it gives, and the update of its barrier. -/
def readBTile (ag : Agent) (books : Tab Codebook) (x : StreamReg) (ti tj : Int) : M WBank := do
  let inb := decide (0 ≤ ti) && decide (ti < stExt0 x) && decide (0 ≤ tj) && decide (tj < stExt1 x)
  let w := mxWidth (stFmt x)
  let kt := mxDepth (stFmt x)
  let g := mxGroup (stFmt x)
  let off := stBase x + ti.toNat * stRstride x + tj.toNat * stCstride x
  let data ← if inb then do
      weightCheck off (imageBytes x)
      let l ← load ag .vector (weightAddr off) (imageBytes x) 64
      expandImage x off l
    else pure (BitVec.ofNat 16384 (packElems w (List.replicate (kt * 32) (stFillCode x))))
  let rows ← if inb && stScl x then
      (List.range g).mapM fun j => readSpan ag (stSbase x + (ti.toNat * g + j) * stSstride x + 64 * tj.toNat) 64 2
    else pure (List.replicate g (toBytes 64 (packElems 16 (List.replicate 32 scaleOne))))
  postBytes ag (stBar x) (imageBytes x)
  let cb := Tab.find books (stCbk x)
  let book : BitVec 256 := match cb with
    | some b => if stFmt x = 10 ∧ b.loaded then b.vals else 0
    | none => 0
  pure { data := data, scales := BitVec.ofNat 2048 (ofBytes rows.flatten), book := book, fmt := stFmt x,
         scaled := stScl x, loaded := true }

/-! ## The multiply-accumulate of a row (R61, R173) -/

/-- Values of the weights of a bank, row k by row k. -/
def bankRows (b : WBank) : List (List FVal) :=
  let kt := mxDepth b.fmt
  let codes := elemsOf (mxWidth b.fmt) (kt * 32) b.data.toNat
  let book := elemsOf 16 16 b.book.toNat
  let val (c : Nat) : FVal := if b.fmt = 10 then NumFmt.bf16.decode (book.getD c 0) else (mxFmt b.fmt).decode c
  let scales := elemsOf 16 (32 * mxGroup b.fmt) b.scales.toNat
  (List.range kt).map fun k =>
    let row := (codes.drop (32 * k)).take 32
    if b.scaled then
      (row.zip ((scales.drop (32 * (k / 32))).take 32)).map fun p => (val p.1).mul (ue8m8Value p.2)
    else row.map val

/-- A group sum added to an accumulator element under the mode (R61). -/
def accAdd (mode : AccMode) (acc : Nat) (grp : FVal) : Nat :=
  match mode with
  | .fp32 => NumFmt.fp32.round .rne ((NumFmt.fp32.decode acc).add .rne grp)
  | m =>
    let n := match grp with | .fin s k e => FVal.scaled s k e 0 | _ => 0
    narrowInt (m == .sat) 32 (sextInt 32 acc + n)

/-- One row: the values a(m, k) and the rows of B in ascending k, by groups of g. DESIGN CHOICE (log 62): a group's sum
begins at +0, so a group of products that are all -0 adds +0. -/
def macRow (mode : AccMode) (g : Nat) : Nat → List FVal → List (List FVal) → List Nat → List Nat
  | 0, _, _, acc => acc
  | n + 1, a, b, acc =>
    if a.isEmpty then acc
    else
      let zero : List FVal := List.replicate 32 (.fin false 0 0)
      let grp := ((a.take g).zip (b.take g)).foldl (fun sum p =>
        (sum.zip p.2).map fun q => q.1.add .rne (p.1.mul q.2)) zero
      macRow mode g n (a.drop g) (b.drop g) ((acc.zip grp).map fun p => accAdd mode p.1 p.2)

/-- The accumulator row that a step gives from the old one. -/
def TileStep.rowValue (t : TileStep) (old : BitVec 1024) : BitVec 1024 :=
  let kt := mxDepth t.bank.fmt
  let g := mxGroup t.bank.fmt
  let codes := (t.aData.drop (kt * t.row)).take kt
  let scales := (t.aScales.drop (kt * t.row)).take kt
  let vals := (codes.zip scales).map fun p =>
    let v := (mxFmt t.aFmt).decode p.1
    if t.aScaled then v.mul (ue8m8Value p.2) else v
  let acc0 := if t.zero then List.replicate 32 0 else elemsOf 32 32 old.toNat
  BitVec.ofNat 1024 (packElems 32 (macRow t.mode g kt vals (bankRows t.bank) acc0))

/-! ## Work of the array -/

/-- The accumulator bytes of a step in deterministic mode (R188, R335). -/
def accFootprint (ag : Agent) (bank row n : Nat) (writing : Bool) : M Unit := fun s =>
  let off := bank * 65536 + row * 128
  match footprintGap s ag ag.core 2 off (128 * n) writing with
  | some g => trap Cause.detEscape (0xFF00808002000000 + BitVec.ofNat 64 g) s
  | none => .ok ((), s)

/-- A fault of array work, delivered later on M. -/
def mxFault (cause : Nat) (pc : Origin) (tval : Word) : DefTrap := deferredFault cause pc tval

def MxOp.isStep : MxOp → Bool
  | .step _ => true
  | _ => false

/-- The steps at the head of the queue, and what stands behind them. -/
def Matrix.steps' (m : Matrix) : List MxOp := m.queue.takeWhile MxOp.isStep
def Matrix.rest (m : Matrix) : List MxOp := m.queue.dropWhile MxOp.isStep

/-- Pairings after tile `t` of a shadow has been written (R191). -/
def touch (pairs : List Pairing) (shadow t : Nat) : List Pairing :=
  pairs.map fun p => if p.shadow = shadow then { p with touched := p.touched ||| (1 <<< t) } else p
def touched (pairs : List Pairing) (shadow t : Nat) : Bool :=
  pairs.any fun p => p.shadow == shadow && bit p.touched t

/-- Whether an operation in the array still writes a tile of a bank: its words are rewritten before a later step reads them
(R190). -/
def MxOp.writes (bank tile : Nat) : MxOp → Bool
  | .step t => t.wr == bank && t.tile == tile
  | .zero acc sh first last _ => sh.getD acc == bank && decide (first ≤ tile) && decide (tile ≤ last)
  | _ => false

/-- The accumulator tile that a step reads holds no word in error (R249). -/
def accReadable (ag : Agent) (bank tile : Nat) : M Unit := fun s =>
  if (s.mx ag.core).queue.any (MxOp.writes bank tile) then .ok ((), s)
  else readOwn ag.core 2 (bank * 65536 + tile * 4096) 4096 s

/-- A tile step enters the array: the footprint, its A tile, its weights (R173, R176, R181, R191). DESIGN CHOICE (log 64): of
several accesses of a step that fail, the cause is that of the first in this order: the B image, its scales and its barrier,
where the step loads a bank; the accumulator footprint and words; then each row of A, its elements before its scales, and the
barrier of A. The spec gives none. -/
def enterStep (ag : Agent) (x : StreamReg) (ti tj : Int) (mode : AccMode) (zero : Bool) (acc : Nat)
    (shadow : Option Nat) (tile : Nat) (nest : Option Nat) : M TileStep := do
  let s ← gets' id
  let m := s.mx ag.core
  let bank := if m.cur = 0 then m.w0 else m.w1
  let wr := shadow.getD acc
  let rd := match shadow with
    | some b => if touched m.pairs b tile then b else acc
    | none => acc
  accFootprint ag wr (32 * tile) 32 true
  if zero then pure () else do
    accFootprint ag rd (32 * tile) 32 false
    accReadable ag rd tile
  let (data, scales) ← readATile ag x (mxDepth bank.fmt) ti tj
  pure { aFmt := stFmt x, aData := data, aScales := scales, aScaled := stScl x, bank := bank, mode := mode,
         zero := zero, rd := rd, wr := wr, acc := acc, tile := tile, row := 0, nest := nest }

/-- The matrix state after a step has entered. -/
def Matrix.addStep (m : Matrix) (shadow : Option Nat) (t : TileStep) (rest : List MxOp) : Matrix :=
  { m with
    queue := m.steps' ++ .step t :: rest
    pairs := match shadow with | some b => touch m.pairs b t.tile | none => m.pairs }

/-- MMAs behind a failed load of a bank that select it are discarded (R183). -/
def discardFor (bank : Nat) : Nat → List MxOp → List MxOp
  | _, [] => []
  | _, .sel b :: t => .sel b :: discardFor bank b t
  | cur, .load b x ti tj pc :: t =>
    if b = bank then .load b x ti tj pc :: t else .load b x ti tj pc :: discardFor bank cur t
  | cur, .mma x ti tj m z a sh k pc :: t =>
    if cur = bank then discardFor bank cur t else .mma x ti tj m z a sh k pc :: discardFor bank cur t
  | cur, o :: t => o :: discardFor bank cur t

/-- The operations that need no cycle of their own take effect: bank switches, and the entry of MMAs while fewer
than four steps are in the array (R183, R186). -/
def settle (core : Nat) : Nat → State → State
  | 0, s => s
  | fuel + 1, s =>
    let m := s.mx core
    match m.rest with
    | .sel b :: t => settle core fuel (s.modMx core fun m => { m with cur := b, queue := m.steps' ++ t })
    | .mma x ti tj mode z acc sh tile pc :: t =>
      if 4 ≤ m.steps'.length ∨ (s.grove (groveOf core)).preempting = true then s
      else
        let ag := s.mxAgent core
        match attempt ag (enterStep ag x ti tj mode z acc sh tile none) s with
        | .wait s' => s'
        | .fault c _ s' => settle core fuel (s'.modMx core fun m =>
            { m with queue := m.steps' ++ t, fault := m.fault ++ [mxFault c pc 0] })
        | .done st s' => settle core fuel (s'.modMx core fun m => m.addStep sh st t)
    | _ => s

/-- The tag of a bank in program order: that of the latest load queued for it, else its own (R183). -/
def Matrix.tagOf (m : Matrix) (bank : Nat) : WTag :=
  let own := if bank = 0 then m.w0 else m.w1
  m.queue.foldl (fun t o => match o with
    | .load b x _ _ _ => if b = bank then { fmt := stFmt x, scaled := stScl x, loaded := true } else t
    | _ => t) { fmt := own.fmt, scaled := own.scaled, loaded := own.loaded }

/-- A bank receives its tile. -/
def Matrix.setBank (m : Matrix) (bank : Nat) (b : WBank) : Matrix :=
  if bank = 0 then { m with w0 := b } else { m with w1 := b }
def Matrix.setTag (m : Matrix) (bank : Nat) (t : WTag) : Matrix :=
  if bank = 0 then { m with tag0 := t } else { m with tag1 := t }
def Matrix.tag (m : Matrix) (bank : Nat) : WTag := if bank = 0 then m.tag0 else m.tag1

/-- BANK_LOAD (R179, R201): the next weight load of the queue. -/
def execBankLoad (core : Nat) (s : State) : Host.Outcome State Fault Refusal :=
  let s1 := settle core 16 s
  let m := s1.mx core
  .next (match m.rest with
  | .load b x ti tj pc :: t =>
    let ag := s1.mxAgent core
    match attempt ag (readBTile ag (s1.core core).books x ti tj) s1 with
    | .wait s' => s'
    | .done w s' => s'.modMx core fun m => { m.setBank b w with queue := m.steps' ++ t }
    | .fault c v s' => s'.modMx core fun m =>
        let m1 := { m with queue := m.steps' ++ discardFor b m.cur t, fault := m.fault ++ [mxFault c pc v] }
        m1.setTag b (m1.tagOf b)
  | _ => s1)

/-- What was issued behind a nest follows it: its bank switches and loads take their place in program order. -/
def Matrix.endNest (m : Matrix) : Matrix :=
  let m1 := m.behind.foldl (fun k o => match o with
    | .sel b => { k with selP := b }
    | .load b x _ _ _ => k.setTag b { fmt := stFmt x, scaled := stScl x, loaded := true }
    | _ => k) m
  { m1 with nest := none, queue := m.queue ++ m.behind, behind := [] }

/-- A nest fault: once every step before it is complete, the nest ends; until then it is kept, and no step is tried (R188). -/
def nestFault (core : Nat) (n : Nest) (cause : Nat) (s : State) : State :=
  s.modMx core fun m =>
    if m.queue.isEmpty then { m.endNest with fault := m.fault ++ [mxFault cause n.pc (BitVec.ofNat 64 n.step)] }
    else { m with nest := m.nest.map fun k => { k with fault := some cause, wants := false } }

/-- The B tile of the nest's next step. -/
def Nest.bTile (n : Nest) : Int × Int :=
  (ntCoord n.table (ntOrigin n.table 2) 2 n.step, ntCoord n.table (ntOrigin n.table 3) 3 n.step)

/-- A B tile for the nest's next step arrives: until that step issues it changes neither bank (R185, R188, R208). -/
def Matrix.nestLoaded (m : Matrix) (w : WBank) : Matrix :=
  { m with nest := m.nest.map fun n => { n with next := some w, wants := false } }

/-- The nest's next step takes the tile that has arrived: the bank that is not current is written and made current (R185). -/
def Matrix.takeNext (m : Matrix) (n : Nest) : Matrix :=
  match n.next with
  | none => m
  | some w =>
    let b := 1 - m.cur
    let m1 := (m.setBank b w).setTag b { fmt := w.fmt, scaled := w.scaled, loaded := w.loaded }
    { m1 with cur := b, selP := b, nest := m.nest.map fun k => { k with last := some n.bTile, next := none } }

/-- The nest's next step enters the array; after its last the nest has no steps left. A step that faults has changed
nothing (R188). -/
def nestEnter (core : Nat) (n : Nest) (s : State) : State :=
  let t := n.table
  let ag := s.mxAgent core
  let tile := (ntCoord t (ntTile0 t) 4 n.step).toNat
  match attempt ag (enterStep ag n.sa (ntCoord t (ntOrigin t 0) 0 n.step) (ntCoord t (ntOrigin t 1) 1 n.step)
      (ntMode t) (ntZero t n.step) (nestAcc t) n.shadow tile (some n.id)) (s.modMx core fun m => m.takeNext n) with
  | .wait s' => s.keep s'.msys
  | .fault c _ s' => nestFault core n c (s'.modMx core fun _ => s.mx core)
  | .done st s' => s'.modMx core fun m =>
      let m1 := m.addStep n.shadow st m.rest
      if n.step + 1 = ntTotal t then m1.endNest
      else { m1 with nest := m1.nest.map fun k => { k with step := n.step + 1 } }

/-- NEST_STEP (R185, R193, R195). -/
def execNestStep (core : Nat) (s : State) : Host.Outcome State Fault Refusal :=
  let s1 := settle core 16 s
  let m := s1.mx core
  .next (match m.nest with
  | none => s1
  | some n =>
    match n.fault with
    | some c => nestFault core n c s1
    | none =>
    if !m.rest.isEmpty || decide (4 ≤ m.steps'.length) || (s1.grove (groveOf core)).preempting then s1
    else if n.last = some n.bTile ∨ n.next.isSome then nestEnter core n s1
    else if ntBc n.table then s1.modMx core fun m => { m with nest := m.nest.map fun k => { k with wants := true } }
    else
      let ag := s1.mxAgent core
      match attempt ag (readBTile ag (s1.core core).books n.sb n.bTile.1 n.bTile.2) s1 with
      | .wait s' => s'
      | .fault c _ s' => nestFault core n c s'
      | .done w s' => nestEnter core { n with next := some w } (s'.modMx core fun m => m.nestLoaded w))

/-- BROADCAST_DELIVERY (R193): once every member waits for the delivery, the source's B tile reaches them all. DESIGN CHOICE
(log 59): a fault of the fetch ends the source's nest only, and a member computes with the format of the bank that is
delivered, whatever rows of R171 its own stream B would allow. -/
def execBroadcastDelivery (grove group : Nat) (s : State) : Host.Outcome State Fault Refusal :=
  let cores := groupCores s grove group
  let ready := cores.all fun c => match (s.mx c).nest with | some n => n.wants | none => false
  .next (match cores with
  | [] => s
  | src :: _ =>
    match (s.mx src).nest with
    | none => s
    | some n =>
      if !ready then s
      else
        let ag := s.mxAgent src
        match attempt ag (readBTile ag (s.core src).books n.sb n.bTile.1 n.bTile.2) s with
        | .wait s' => s'
        | .fault c _ s' => nestFault src n c s'
        | .done w s' =>
          let s2 := cores.foldl (fun t c => t.modMx c fun m =>
            { m.nestLoaded w with group := m.group.map fun p => (p.1, p.2 + 1) }) s'
          s2.modGrove grove fun k => { k with groups := Tab.put k.groups group (Tab.get 0 k.groups group + 1) })

/-- An accumulator row, and its write by the array. -/
def State.accRow (s : State) (core bank row : Nat) : BitVec 1024 := Tab.get 0 (s.mx core).acc (512 * bank + row)
def writeAccRow (core bank row : Nat) (v : BitVec 1024) (s : State) : State :=
  devWrite (s.mxAgent core) false (chipAddr core 2 (bank * 65536 + row * 128)) (toBytes 128 v.toNat) s

/-- ACCUMULATOR_ROW_COMMIT (R182, R203): the oldest step commits its next row, or an MZERO four rows. -/
def execAccumulatorRowCommit (core : Nat) (s : State) : Host.Outcome State Fault Refusal :=
  let s1 := settle core 16 s
  let m := s1.mx core
  .next (match m.queue with
  | .step t :: rest =>
    let row := 32 * t.tile + t.row
    let s2 := writeAccRow core t.wr row (t.rowValue (s1.accRow core t.rd row)) s1
    if t.row = 31 then
      settle core 16 ((count core 0x04 1 s2).modMx core fun m =>
        { m with queue := rest, steps := if t.nest = some m.nestId then m.steps + 1 else m.steps })
    else s2.modMx core fun m => { m with queue := .step { t with row := t.row + 1 } :: rest }
  | .zero acc sh tile last row :: rest =>
    let wr := sh.getD acc
    let s2 := (List.range 4).foldl (fun u k => writeAccRow core wr (row + k) 0 u) s1
    if row + 4 = 32 * (last + 1) then
      s2.modMx core fun m =>
        { m with
          queue := rest
          pairs := match sh with
            | some b => (List.range 16).foldl (fun p k => if tile ≤ k ∧ k ≤ last then touch p b k else p) m.pairs
            | none => m.pairs }
    else s2.modMx core fun m => { m with queue := .zero acc sh tile last (row + 4) :: rest }
  | _ => s1)

/-! ## MX instructions (R196 to R208) -/

/-- The address of the instruction, and its place in program order. -/
def thisOrigin : M Origin := gets' fun s => { pc := s.seq.pc, order := s.fresh }

/-- The matrix state of the running core. -/
def thisMx : M Matrix := gets' fun s => s.here.mx
def modMx (f : Matrix → Matrix) : M Unit := modHere fun x => { x with mx := f x.mx }

/-- An MX instruction: a fault that waits for M's next MX instruction is delivered in its place, outside a
handler (R188, R201, R431). -/
def mxWord (srcs : List Src) (d : Dst) (body : M Unit) (s : State) : Host.Outcome State Fault Refusal :=
  arrayFirst 4 false (scalarOp srcs d body) s

/-- The queue's entries that have not entered the array; four fill it (R183). -/
def Matrix.waitingOps (m : Matrix) : Nat := (m.rest ++ m.behind).length

/-- Place an operation in the input queue, or behind the nest that still issues steps. -/
def queueOp (o : MxOp) : M Unit := do
  blockIf (decide (4 ≤ (← thisMx).waitingOps))
  modMx fun m => if m.nest.isSome then { m with behind := m.behind ++ [o] } else { m with queue := m.queue ++ [o] }

/-- The value of a 64-byte image. -/
def loadImage (a : Word) : M (BitVec 512) := do
  let l ← load (← thisAgent) .vector a 64 64
  pure (BitVec.ofNat 512 (ofBytes l))

def execMstrm (k : BitVec 4) (a : Src) (s : State) :=
  mxWord [a] .discard (do
    let x ← readSrc a
    let v ← loadImage x
    trapIf (streamMalformed v) Cause.shapeInvalid x
    modMx fun m => { m with s := Tab.set 0 m.s k.toNat v }) s

def execMnest (a : Src) (s : State) :=
  mxWord [a] .discard (do
    let x ← readSrc a
    let v ← loadImage x
    trapIf (tableMalformed v) Cause.shapeInvalid x
    modMx fun m => { m with table := v }) s

/-- How many earlier nests have steps in the array (R198). -/
def Matrix.draining (m : Matrix) : Nat :=
  ((m.queue.filterMap fun o => match o with | .step t => t.nest | _ => none).eraseDups).length

/-- The checks of MGO, in order: the cause of the first that fails (R187). DESIGN CHOICE (log 59): the role and the format of
stream sb are checked on every member of a group, also where R193 ignores the field. -/
def mgoCheck (m : Matrix) : Option Nat :=
  let t := m.table
  let sa := Tab.get 0 m.s (ntSa t)
  let sb := Tab.get 0 m.s (ntSb t)
  if stRole sa || !stRole sb then some Cause.shapeInvalid
  else if !mxRow (stFmt sb) (stFmt sa) (ntMode t) (stScl sa || stScl sb) then some Cause.shapeInvalid
  else if (ntTiles t).1 < 0 ∨ 15 < (ntTiles t).2 then some Cause.shapeInvalid
  else if ntBc t && m.group.isNone then some Cause.matrixState
  else if m.isShadow (nestAcc t) then some Cause.matrixState
  else none

def execMgo (s : State) :=
  mxWord [] .discard (do
    let m ← thisMx
    blockIf (m.nest.isSome || decide (2 ≤ m.draining))
    let pc ← thisOrigin
    match mgoCheck m with
    | some c => trap c pc.pc
    | none => modMx fun m =>
        let n : Nest := { table := m.table, sa := Tab.get 0 m.s (ntSa m.table), sb := Tab.get 0 m.s (ntSb m.table),
                          step := 0, id := m.nestId + 1, pc := pc, shadow := m.shadowOf (nestAcc m.table), next := none,
                          last := none, wants := false }
        { m with nest := some n, nestId := m.nestId + 1, steps := 0 }) s

/-- Whether every earlier MX operation has retired. -/
def Matrix.idle (m : Matrix) : Bool := m.nest.isNone && m.queue.isEmpty && m.behind.isEmpty

def execMwait (s : State) :=
  mxWord [] .discard (do
    let m ← thisMx
    blockIf (!m.idle)) s

def execMma (n : BitVec 2) (t : BitVec 4) (k : BitVec 4) (b : Src) (z : Bool) (mode : AccMode) (s : State) :=
  mxWord [b] .discard (do
    let m ← thisMx
    blockIf m.nest.isSome
    let v ← readSrc b
    let x := Tab.get 0 m.s k.toNat
    let tag := m.tag m.selP
    trapIf (stRole x) Cause.shapeInvalid 1
    trapIf (m.isShadow n.toNat) Cause.matrixState 2
    trapIf (!tag.loaded) Cause.matrixState 3
    trapIf (!mxRow tag.fmt (stFmt x) mode (stScl x || tag.scaled)) Cause.shapeInvalid 4
    let pc ← thisOrigin
    queueOp (.mma x (fld v 0 16) (fld v 16 16) mode z n.toNat (m.shadowOf n.toNat) t.toNat pc)) s

def execMldw (j : BitVec 1) (k : BitVec 4) (b : Src) (s : State) :=
  mxWord [b] .discard (do
    let m ← thisMx
    let v ← readSrc b
    let x := Tab.get 0 m.s k.toNat
    trapIf (!stRole x) Cause.shapeInvalid 0
    let pc ← thisOrigin
    queueOp (.load j.toNat x (fld v 0 16) (fld v 16 16) pc)
    modMx fun m => if m.nest.isSome then m
      else m.setTag j.toNat { fmt := stFmt x, scaled := stScl x, loaded := true }) s

def execMwsel (j : BitVec 1) (s : State) :=
  mxWord [] .discard (do
    queueOp (.sel j.toNat)
    modMx fun m => if m.nest.isSome then m else { m with selP := j.toNat }) s

def execMzero (n : BitVec 2) (t : BitVec 4) (f : Bool) (s : State) :=
  mxWord [] .discard (do
    let m ← thisMx
    trapIf (m.isShadow n.toNat) Cause.matrixState 0
    let first := if f then 0 else t.toNat
    let last := if f then 15 else t.toNat
    let sh := m.shadowOf n.toNat
    accFootprint (← thisAgent) (sh.getD n.toNat) (32 * first) (32 * (last + 1 - first)) true
    queueOp (.zero n.toNat sh first last (32 * first))) s

def execMspec (sel c : BitVec 2) (s : State) :=
  mxWord [] .discard (do
    let m ← thisMx
    let takes (b : Nat) : Bool := m.pairs.any fun p => p.shadow == b || p.base == b
    let v : Word := BitVec.ofNat 64 (sel.toNat + 4 * c.toNat)
    trapIf (sel == c || takes sel.toNat || takes c.toNat || m.busy sel.toNat) Cause.matrixState v
    modMx fun m => { m with pairs := m.pairs ++ [{ shadow := sel.toNat, base := c.toNat, touched := 0 }] }) s

/-- The tiles that MCOMMIT copies, from tile `k` on. -/
def Pairing.tilesFrom (p : Pairing) (k : Nat) : List Nat := (List.range 16).filter fun t => bit p.touched t && decide (k ≤ t)

/-- The checks of every tile that MCOMMIT copies: its footprint, and the words that it reads (R188, R249). -/
def commitChecks (ag : Agent) (p : Pairing) : M Unit :=
  (p.tilesFrom 0).forM fun t => do
    accFootprint ag p.base (32 * t) 32 true
    checkOwn ag.core 2 (p.shadow * 65536 + t * 4096) 4096

/-- One tile is copied, row by row; the errors that its words show are corrected and counted (R205, R249). -/
def commitTile (core : Nat) (p : Pairing) (t : Nat) (s : State) : State :=
  let a := chipAddr core 2 (p.shadow * 65536 + t * 4096)
  (List.range 32).foldl (fun u r =>
    writeAccRow core p.base (32 * t + r) (u.accRow core p.shadow (32 * t + r)) u) (countFixed a (s.corrected a 4096) s)

/-- The pairing of a base bank, once earlier operations on its banks have retired. -/
def pairingOf (b : Nat) : M Pairing := do
  let m := { (← thisMx) with commit := none }
  match m.pairs.find? fun p => p.base == b with
  | none => trap Cause.matrixState (BitVec.ofNat 64 b)
  | some p => do
    blockIf (m.busy p.base || m.busy p.shadow)
    pure p

/-- A pairing ends. -/
def endPairing (b : Nat) : M Unit := modMx fun m =>
  { m with pairs := m.pairs.filter fun p => p.base != b, commit := none }

/-- The next tile of an MCOMMIT of a bank, once its first tile has been copied. -/
def Matrix.commitFrom (m : Matrix) (b : Nat) : Option Nat :=
  match m.commit with
  | some (c, k) => if c = b then some k else none
  | none => none

/-- MCOMMIT (R205): a tile at each attempt; until the last it counts as not begun, and its bank is busy. It is checked before
the first, and nothing but a pre-emption comes between its tiles. -/
def execMcommit (c : BitVec 2) (s : State) :=
  let on := (s.mx s.cur.core).commitFrom c.toNat
  (if on.isSome then id else arrayFirst 4 false) (scalarOp [] .discard (do
    let p ← pairingOf c.toNat
    let ag ← thisAgent
    if on.isNone then commitChecks ag p else pure ()
    match p.tilesFrom (on.getD 0) with
    | [] => endPairing c.toNat
    | [t] => do
      modS (commitTile ag.core p t)
      endPairing c.toNat
    | t :: _ => blockWith fun u =>
        (commitTile ag.core p t u).modMx ag.core fun m => { m with commit := some (c.toNat, t + 1) })) s

def execMdisc (c : BitVec 2) (s : State) :=
  mxWord [] .discard (do
    let _ ← pairingOf c.toNat
    endPairing c.toNat) s

/-- Whether a member of a group runs a nest whose B tiles are broadcast (R194). DESIGN CHOICE (log 59): a nest that has
issued its last step and drains counts no more. -/
def groupBusy (s : State) (grove g : Nat) : Bool :=
  (groupCores s grove g).any fun c => match (s.mx c).nest with | some n => ntBc n.table | none => false

def execMbgj (g : BitVec 2) (s : State) :=
  mxWord [] .discard (do
    let m ← thisMx
    trapIf m.group.isSome Cause.matrixState 0
    blockIf ((← gets' fun t => groupBusy t (groveOf t.cur.core) g.toNat))
    modMx fun m => { m with group := some (g.toNat, 0) }) s

def execMbgl (s : State) :=
  mxWord [] .discard (do
    let m ← thisMx
    match m.group with
    | none => pure ()
    | some (g, _) => do
      blockIf ((← gets' fun t => groupBusy t (groveOf t.cur.core) g))
      modMx fun m => { m with group := none }) s

/-- Whether a weight load has not completed (R398). -/
def Matrix.loading (m : Matrix) : Bool :=
  m.nest.isSome || (m.queue ++ m.behind).any fun o => match o with | .load _ _ _ _ _ => true | _ => false

def execMcbk (c : BitVec 4) (a : Src) (s : State) :=
  mxWord [a] .discard (do
    blockIf (← thisMx).loading
    let x ← readSrc a
    let l ← load (← thisAgent) .vector x 32 32
    modS fun t => t.modCore t.cur.core fun k =>
      { k with books := Tab.put k.books c.toNat { vals := BitVec.ofNat 256 (ofBytes l), loaded := true } }) s

/-- The status word of MSTAT (R208). -/
def mstatWord (m : Matrix) : Nat :=
  let mask (f : Pairing → Nat) : Nat := (m.pairs.map fun p => 2 ^ f p).foldl (· + ·) 0
  m.nest.isSome.toNat + 2 * (!m.idle).toNat + 4 * m.selP + 8 * m.tag0.loaded.toNat + 16 * m.tag1.loaded.toNat +
    2 ^ 8 * mask (·.shadow) + 2 ^ 12 * mask (·.base) +
    match m.group with | some (g, _) => 2 ^ 16 * g + 2 ^ 18 | none => 0

def execMstat (d : Dst) (f : MstatWord) (s : State) :=
  mxWord [] d (do
    let m ← thisMx
    blockIf ((← gets' fun t => t.seq.detm) && !m.idle)
    writeDst d (match f with
      | .word => BitVec.ofNat 64 (mstatWord m)
      | .steps => m.steps
      | .bcast => match m.group with | some (_, n) => BitVec.ofNat 64 n | none => 0)) s

end Sys2Proof.Machine
end

