-- ==== Sys2Proof/Machine/Canopy.lean ====
section
/-! DEFINITION. The canopy: the checks of a post, acceptance, binding, edges, release by lottery, stealing,
retirement and removal, and its events (R19 to R36, R312 to R334, R338). -/

namespace Sys2Proof.Machine

/-! ## Budgets and job counts (R28, R36) -/

/-- Whether an active-cache entry is active (R400). -/
def State.active (s : State) (r : Nat) : Bool := match s.rcb r with | some k => !k.terminating | none => false

/-- Change a block and all its ancestors. -/
def State.modChain (s : State) (r : Nat) (f : Rcb → Rcb) : State := (s.chain r).foldl (fun t a => t.modRcb a f) s

/-- The nearest level at or above `r` that a test picks. -/
def State.levelOf (s : State) (r : Nat) (p : Rcb → Bool) : Option Nat :=
  (s.chain r).find? fun a => match s.rcb a with | some k => p k | none => false

/-- Whether another window entry in a grove would exceed a window budget (R28). -/
def State.windowFull (s : State) (g r : Nat) : Bool :=
  (s.levelOf r fun k => k.window != 0 && decide (k.window ≤ Tab.get 0 k.useWindow g)).isSome

/-- A window entry is charged, or its charge returned. -/
def chargeWindow (g r : Nat) (up : Bool) (s : State) : State :=
  s.modChain r fun k =>
    let n := Tab.get 0 k.useWindow g
    { k with useWindow := Tab.set 0 k.useWindow g (if up then n + 1 else n - 1) }

/-- Whether another fabric operation would exceed a fabric budget (R28). -/
def State.fabricFull (s : State) (r : Nat) : Bool :=
  (s.levelOf r fun k => k.fabric != 0 && decide (k.fabric ≤ k.useFabric)).isSome

def chargeFabric (r : Nat) (up : Bool) (s : State) : State :=
  s.modChain r fun k => { k with useFabric := if up then k.useFabric + 1 else k.useFabric - 1 }

/-- The job count of the job-level block at or above `r` (R36). -/
def jobCountBy (r : Nat) (up : Bool) (s : State) : State :=
  match s.jobOf r with
  | none => s
  | some j => s.modRcb j fun k =>
    if up then { k with jobCount := k.jobCount + 1, jobFlag := k.jobFlag || k.jobCount == 0 }
    else { k with jobCount := k.jobCount - 1 }

/-! ## The checks of a post (R318) -/

/-- Step 2 of R318: a malformed record. -/
def recMalformed (r : TaskRec) : Bool :=
  fld r 26 6 != 0 || fld r 42 22 != 0 || fld r 320 192 != 0 || fld r 2432 128 != 0 ||
  decide (6 ≤ recKind r) || recAff r == 3 || (recCore r != 0 && recAff r != 1) || (recSlip r != 0 && recKind r != 1) ||
  decide (6 < recNbox r) || decide (4 < recNpred r) || decide (recNbox r < recVbox r) ||
  ((List.range 4).any fun i => decide (recNpred r ≤ i) && recPred r i != 0) ||
  ((List.range 6).any fun k => decide (recNbox r ≤ k) && fld r (boxAt k) 320 != 0)

/-- The gang that a task has open in a window. -/
def Grove.openGang (g : Grove) (t : TaskRef) : Option OpenGang := g.gangs.find? fun o => o.by_ == t

/-- Step 4 of R318: the gang rules of R21, for a record that joins the gang a task has open. -/
def gangMalformed (g : Grove) (o : Option OpenGang) (r : TaskRec) : Bool :=
  match o with
  | none => recGang r && decide (4 ≤ recKind r)
  | some o =>
    let ms := o.members.filterMap fun m => (g.entry m).map (·.record)
    decide (4 ≤ ms.length) || decide (4 ≤ recKind r) ||
    ms.any fun m => recKind m == recKind r || recRcb m != recRcb r || recAff m != recAff r || recCore m != recCore r

/-- Whether a REGDROP of a region of a grove blocks: it refuses posts that name the region (R343). -/
def State.dropsRegion (s : State) (g id : Nat) : Bool :=
  s.cores.any fun c => [SeqKind.K, .V, .M, .Q].any fun k =>
    (c.2.ctx.seq k).dropping == some (g, id) && s.runs ⟨c.1, k, .pipe⟩

/-- Step 5 of R318, for one box: the cause that it gives; `dropped` says of which regions a REGDROP blocks. -/
def boxCause (g : Grove) (dropped : Nat → Bool) (tenant : Nat) (r : TaskRec) (b : Box) : Option Nat :=
  match g.region b.region with
  | none => some Cause.regionUndefined
  | some x =>
    if dropped b.region || x.tenant != tenant then some Cause.regionUndefined
    else
      let earlier := (recBoxes r).filter fun c => decide (c.slot < b.slot)
      let twice := b.ren && earlier.any fun c => c.ren && c.region == b.region
      let fifth := b.writes && decide (4 ≤ (earlier.filter Box.writes).length)
      if b.malformed x.desc || twice || fifth then some Cause.boxMalformed else none

/-- The age class of a post sequence that no live task holds (R321): satisfied, stale, or not yet assigned. -/
inductive SeqAge where
  | done | stale | future
deriving DecidableEq, Repr

def Grove.ageOf (g : Grove) (p : Nat) : SeqAge :=
  let a := (g.postSeq + 2 ^ 32 - p % 2 ^ 32) % 2 ^ 32
  if 1 ≤ a ∧ a ≤ 65536 then .done else if 65537 ≤ a ∧ a ≤ 2 ^ 31 then .stale else .future

/-- The slot of the live task with a post sequence. -/
def Grove.liveSeq (g : Grove) (p : Nat) : Option Nat := (g.window.find? fun e => e.2.postSeq == p).map (·.1)

/-- Step 6 of R318, for one explicit predecessor. -/
def predCause (g : Grove) (p : Nat) : Option Nat :=
  match g.liveSeq p with
  | some _ => none
  | none => match g.ageOf p with | .done => none | .stale => some Cause.predStale | .future => some Cause.taskMalformed

/-- The first failure of a list of checks. -/
def firstSome {α β : Type} (f : α → Option β) : List α → Option β
  | [] => none
  | a :: t => match f a with | some b => some b | none => firstSome f t

/-- Steps 3 to 6 of R318: the cause and the address it names. -/
def postFailure (s : State) (g : Nat) (o : Option OpenGang) (r : TaskRec) (addr : Word) : Option (Nat × Word) :=
  let k := s.grove g
  if !s.active (recRcb r) then some (Cause.rcbInvalid, addr)
  else if gangMalformed k o r then some (Cause.gangMalformed, addr)
  else
    match firstSome (fun b => (boxCause k (s.dropsRegion g) (s.tenantOf (recRcb r)) r b).map fun c =>
        (c, addr + BitVec.ofNat 64 (64 + 40 * b.slot))) (recBoxes r) with
    | some f => some f
    | none => firstSome (fun p => (predCause k p).map fun c => (c, addr)) (recPreds r)

/-! ## Acceptance (R321 to R326) -/

/-- Slots of a pool: 224 local ones and 32 remote ones (R325). -/
def poolSlots (remote : Bool) : List Nat := if remote then (List.range 32).map (224 + ·) else List.range 224

/-- The lowest free slot of a pool. -/
def Grove.freeSlot (g : Grove) (remote : Bool) : Option Nat := (poolSlots remote).find? fun n => !Tab.has g.window n

/-- The live boxes of a window with their bound versions. -/
def Grove.liveBoxes (g : Grove) : List (Box × Nat) :=
  g.window.flatMap fun e => (recBoxes e.2.record).map fun b => (b, e.2.bind b.slot)

/-- The entries whose boxes are bound: those whose checks have ended. -/
def Grove.bound (g : Grove) : Tab Entry := g.window.filter fun e => e.2.state != .checking

/-- The live boxes that are bound, with their versions (R323). -/
def Grove.boundBoxes (g : Grove) : List (Box × Nat) :=
  g.bound.flatMap fun e => (recBoxes e.2.record).map fun b => (b, e.2.bind b.slot)

/-- Whether a version of a region is free (R324). -/
def Grove.versionFree (g : Grove) (region : Nat) (current v : Nat) : Bool :=
  v != current && !(g.boundBoxes.any fun p => p.1.region == region && p.2 == v)

/-- The binding of one box: its version and whether it is renamed (R323). -/
def Grove.bindBox (g : Grove) (b : Box) : Nat × Bool :=
  match g.region b.region with
  | none => (0, false)
  | some x =>
    let rank := rdRank x.desc
    let whole := (List.range rank).all fun d => at' b.lo d == 0 && at' b.hi d == rdExt x.desc d
    let read := g.boundBoxes.any fun p =>
      p.1.region == b.region && p.2 == x.current && (p.1.mode == 0 || p.1.mode == 2) && overlap g p.1 p.2 b x.current
    let n := rdVer x.desc
    let next := ((List.range n).map fun i => (x.current + 1 + i) % n).find? fun v => g.versionFree b.region x.current v
    match b.ren && b.mode == 1 && whole && read, next with
    | true, some v => (v, true)
    | _, _ => (x.current, false)

/-- Whether boxes of two tasks give an edge (R321, R334). -/
def boxEdge (g : Grove) (det : Bool) (c : Box × Nat) (b : Box × Nat) : Bool :=
  overlap g c.1 c.2 b.1 b.2 && !(c.1.mode == 0 && b.1.mode == 0) && !(c.1.mode == 3 && b.1.mode == 3 && !det)

/-- A bit of a window mask. -/
def slotBit (n : Nat) : BitVec 256 := 1#256 <<< n

/-- Whether a task's block is in deterministic mode. -/
def State.detOf (s : State) (r : Nat) : Bool := match s.rcb r with | some k => k.det | none => false

/-- The slots that a new task takes an edge from (R321). -/
def predSlots (s : State) (g : Grove) (r : TaskRec) (binds : List Nat) : List Nat :=
  let mine := (recBoxes r).map fun b => (b, at' binds b.slot)
  (g.bound.filter fun e =>
    let det := s.detOf (recRcb r) || s.detOf (recRcb e.2.record)
    let theirs := (recBoxes e.2.record).map fun b => (b, e.2.bind b.slot)
    (recPreds r).contains e.2.postSeq || theirs.any fun c => mine.any fun b => boxEdge g det c b).map (·.1)

/-- Record a new member of a task's gang; the post without the gang bit closes it (R21, R22). -/
def Grove.joinGang (g : Grove) (t : Option TaskRef) (slot : Nat) (more : Bool) : Grove :=
  match t with
  | none => g
  | some t =>
    match g.openGang t, more with
    | none, false => g
    | none, true => { g with gangs := g.gangs ++ [{ by_ := t, members := [slot] }] }
    | some _, false => { g with gangs := g.gangs.filter fun o => o.by_ != t }
    | some _, true =>
      { g with gangs := g.gangs.map fun o => if o.by_ = t then { o with members := o.members ++ [slot] } else o }

/-- An entry is bound and linked at the end of its check (R321 to R324, R464; log 63): the versions of its boxes, its edges
and its ancestors; a version to which a box is renamed becomes current. -/
def Grove.bindEntry (s : State) (slot : Nat) (e : Entry) (k : Grove) : Grove :=
  let r := e.record
  let bound := (recBoxes r).map k.bindBox
  let binds := bound.map (·.1)
  let ps := predSlots s k r binds
  let edges := ps.foldl (fun m p => m ||| slotBit p) 0
  let anc := ps.foldl (fun m p => m ||| slotBit p ||| (match k.entry p with | some e => e.anc | none => 0)) 0
  let regions := ((recBoxes r).zip bound).foldl (fun t p =>
    if p.2.2 then
      match Tab.find t p.1.region with
      | some x => Tab.put t p.1.region { x with current := p.2.1 }
      | none => t
    else t) k.regions
  { k with regions := regions }.setEntry slot { e with binds := binds, edges := edges, anc := anc }

/-- The acceptance of a post into a free slot (R325, R326): its sequence, its charges, and its place in the check. `by_` is
the task that posts it, for a gang. -/
def acceptPost (g slot : Nat) (by_ : Option TaskRef) (q : PostReq) (s : State) : State :=
  let k := s.grove g
  let r := q.record
  let first := match by_ with
    | some t => match k.openGang t with
      | some o => o.members.head?
      | none => if recGang r then some slot else none
    | none => none
  let e : Entry :=
    { record := r, addr := q.addr, poster := q.poster, state := .checking, postSeq := k.postSeq, binds := [],
      edges := 0, anc := 0, hint := false, early := false, gang := first, engine := none, stolen := 0,
      ended := false }
  let k1 := { k with window := Tab.put k.window slot e, postSeq := (k.postSeq + 1) % 2 ^ 32,
                     checks := k.checks ++ [slot] }
  jobCountBy (recRcb r) true (chargeWindow g (recRcb r) true (s.setGrove g (k1.joinGang by_ slot (recGang r))))

/-! ## States (R327, R328) -/

/-- Members of the gang of an entry: itself alone, outside a gang. -/
def Grove.members (g : Grove) (slot : Nat) : List (Nat × Entry) :=
  match g.entry slot with
  | none => []
  | some e =>
    match e.gang with
    | none => [(slot, e)]
    | some f => g.window.filter fun x => x.2.gang == some f

/-- Whether the gang of an entry is still open (R22). -/
def Grove.gangOpen (g : Grove) (slot : Nat) : Bool := g.gangs.any fun o => o.members.contains slot

/-- Whether a predecessor in a slot has hinted: the task, or of its gang every member has hinted or ended (R328); the hint of a
task in deterministic mode makes no task EARLY (R340). -/
def Grove.hinted (s : State) (g : Grove) (slot : Nat) : Bool :=
  (g.members slot).all fun m => (m.2.hint && !s.detOf (recRcb m.2.record)) || (m.2.gang.isSome && m.2.ended)

/-- The slots of a mask. -/
def slotsOf (m : BitVec 256) : List Nat := (List.range 256).filter fun n => bit m n

/-- The early-start condition of one entry, its gang apart (R328). -/
def Grove.mayEarly (s : State) (g : Grove) (e : Entry) : Bool :=
  recEarly e.record && (slotsOf e.edges).all (g.hinted s) && !s.detOf (recRcb e.record)

/-- The early-start condition; a member of an open gang waits (R22, R328). -/
def Grove.earlyNow (s : State) (g : Grove) (slot : Nat) (e : Entry) : Bool :=
  g.mayEarly s e && !g.gangOpen slot && (g.members slot).all fun m => g.mayEarly s m.2

/-- The state of an entry that has not been released, from its edges and the hints (R327, R328). -/
def Grove.stateNow (s : State) (g : Grove) (slot : Nat) (e : Entry) : EState :=
  if e.edges = 0 then .ready else if g.earlyNow s slot e then .early else .waiting

/-- Examine an entry again: WAITING may become EARLY or READY, EARLY may become READY. -/
def reexamine (g slot : Nat) (s : State) : State :=
  s.modGrove g fun k => k.modEntry slot fun e =>
    if e.state = .waiting ∨ e.state = .early then { e with state := k.stateNow s slot e } else e

/-! ## The end of a post's check (R333, R337, R453) -/

/-- The completion word of R337. -/
def postWord (seq status cause : Nat) : Word :=
  BitVec.ofNat 64 (seq % 2 ^ 32 + status * 2 ^ 32 + cause * 2 ^ 40 + 2 ^ 63)

/-- Write a completion entry of a host command ring, advance its tail and signal its vector (R453). -/
def hostComplete (tenant ring index : Nat) (word : Word) (s : State) : State :=
  let p := s.page tenant
  let r := Tab.get CmdRing.reset p.rings ring
  let n := fld r.cqsize 0 16 + 1
  let bytes := toBytes 8 word.toNat ++ toBytes 4 index ++ toBytes 4 0
  let s1 := s.hostWrite (r.cplbase.toNat + 16 * r.cpltail) bytes
  let r1 := { r with cpltail := (r.cpltail + 1) % n }
  signalVector tenant (1 + ring) (s1.setPage tenant { p with rings := Tab.put p.rings ring r1 })

/-- Tell a poster that its post has been accepted: d of a POST, the acknowledgement of a POSTR, the completion of
a host command. -/
def tellPoster (g : Nat) (p : Poster) (seq : Nat) (s : State) : State :=
  match p with
  | .stream st task _ d _ _ =>
    match s.findCtx st.core fun x => (x.seq st.seq).task == task && (x.seq st.seq).busy == .post with
    | none => s
    | some (r, x) => s.deliver st r x d (BitVec.ofNat 64 seq)
  | .remote device op => answer (16 * g) device 5 (.postAck device op (postWord seq 0 0)) s
  | .host t k i => hostComplete t k i (postWord seq 0 0) s

/-- POST_CHECK_END (R333): the oldest check of a grove ends; its poster is told, and the entry is bound and takes its
state. -/
def execPostCheckEnd (grove : Nat) (s : State) :=
  runEvent (modS fun t =>
    let g := t.grove grove
    match g.checks with
    | [] => t
    | slot :: rest =>
      match g.entry slot with
      | none => t.setGrove grove { g with checks := rest }
      | some e =>
        let t1 := tellPoster grove e.poster e.postSeq t
        let g1 := Grove.bindEntry t slot e { t1.grove grove with checks := rest }
        let t2 := t1.setGrove grove (g1.modEntry slot fun x => { x with state := g1.stateNow t slot x })
        (g1.members slot).foldl (fun u m => reexamine grove m.1 u) t2) s

/-! ## Leaving the window (R329, R330, R338) -/

/-- Mark the sequencers whose TWAIT is blocked on a task that is removed (R338). -/
def markTwait (g seq : Nat) (s : State) : State :=
  let mark (q : Seq) : Seq :=
    match q.twait with
    | some (h, p, b) => { q with twait := some (h, p, b || (h == g && p == seq)) }
    | none => q
  let ctx (x : Context) : Context :=
    { x with k := mark x.k, vseq := mark x.vseq, mseq := mark x.mseq, qseq := mark x.qseq }
  { s with cores := Tab.mapVals (fun _ c => { c with ctx := ctx c.ctx, under := ctx c.under }) s.cores }

/-- An entry becomes FREE: its charges return, its job count falls, its ancestor bit is cleared, and its edges are
to resolve in the next cycle (R327, R329, R330). DESIGN CHOICE (log 52): R22 ends an open gang when the poster's block is
terminated and says nothing of the members' block; a gang whose members have all been removed ends. DESIGN CHOICE (log 64): a
version that a box of a removed task has made current stays current; R22 does not say that removal takes it back. -/
def freeEntry (g slot : Nat) (s : State) : State :=
  let k := s.grove g
  match k.entry slot with
  | none => s
  | some e =>
    let rest := Tab.del k.window slot
    let waiting := (rest.filter fun x => bit x.2.edges slot).map (·.1)
    let k1 := { k with
      window := Tab.mapVals (fun _ x => { x with anc := x.anc &&& ~~~(slotBit slot) }) rest
      resolves := if waiting.isEmpty then k.resolves else k.resolves ++ [(slot, waiting)]
      checks := k.checks.filter (· != slot)
      gangs := (k.gangs.map fun o => { o with members := o.members.filter (· != slot) }).filter fun o =>
        !o.members.isEmpty }
    jobCountBy (recRcb e.record) false (chargeWindow g (recRcb e.record) false (s.setGrove g k1))

/-- Remove an entry without retiring it (R21, R22, R330): a POST whose check it ends is told first. -/
def removeEntry (g slot : Nat) (s : State) : State :=
  match (s.grove g).entry slot with
  | none => s
  | some e =>
    let s1 := if e.state = .checking then tellPoster g e.poster e.postSeq s else s
    markTwait g e.postSeq (freeEntry g slot s1)

/-- Remove the members of the gang that a task has open (R21, R22). -/
def dropGang (t : TaskRef) (s : State) : State :=
  match (s.grove t.grove).openGang t with
  | none => s
  | some o =>
    let s1 := o.members.foldl (fun u m => removeEntry t.grove m u) s
    s1.modGrove t.grove fun k => { k with gangs := k.gangs.filter fun x => x.by_ != t }

/-- A sequencer that holds no task. -/
def Seq.release (q : Seq) : Seq :=
  { q.unblock with task := none, terming := none, ended := false, handler := false, hrcb := 0, hcause := 0, halted := false, fenced := false,
                   deferred := [], busy := .none, switched := none, rem := 0, xforms := [] }

/-- Whether a remote-memory operation is a task's (R329). -/
def RemoteOp.ofTask (t : TaskRef) : RemoteOp → Bool
  | .post _ _ _ _ _ _ => false
  | o => o.owner.task == some t

/-- Whether work that a task issued is still in progress in a core: an XBOX, a chain, a line command (R329). -/
def Core.worksFor (k : Core) (t : TaskRef) : Bool :=
  (match k.xpose with | some c => c.owner == some t | none => false) ||
  (List.range 4).any fun n => (k.chan n).busy && (k.chan n).owner == some t

/-- Whether a RETIRING task's accesses have completed (R329). -/
def State.workDone (s : State) (t : TaskRef) : Bool :=
  !(s.remote.any fun e => e.2.ofTask t) && !(s.cores.any fun c => c.2.worksFor t)

/-- Make idle the sequencer that a gang member's TEND has kept reserved, and empty the token queues (R24). -/
def freeReserved (t : TaskRef) (e : Entry) (s : State) : State :=
  match e.engine with
  | none => s
  | some (c, n) =>
    let k := SeqKind.ofCode n
    match if n < 4 then s.findCtx c fun x => (x.seq k).task == some t else none with
    | none => s
    | some (r, x) => s.putCtx c r { x.setSeq k (x.seq k).release with tq := [] }

/-- TASK_RETIRE (R24, R329): the task, with its gang, retires once its accesses, its predecessors and every member
have finished. -/
def execTaskRetire (grove slot : Nat) (s : State) :=
  runEvent (modS fun t =>
    let ms := (t.grove grove).members slot
    let ok (m : Nat × Entry) : Bool := m.2.state == .retiring && m.2.edges == 0 && t.workDone ⟨grove, m.1⟩
    if ms.isEmpty || !ms.all ok then t
    else ms.foldl (fun u m => freeEntry grove m.1 (if m.2.gang.isSome then freeReserved ⟨grove, m.1⟩ m.2 u else u)) t) s

/-- EDGE_RESOLVE (R327): the edges from a slot that was freed resolve. -/
def execEdgeResolve (grove slot : Nat) (s : State) :=
  runEvent (modS fun t =>
    let g := t.grove grove
    match g.resolves.find? fun r => r.1 == slot with
    | none => t
    | some r =>
      let t1 := t.setGrove grove { g with resolves := g.resolves.erase r }
      r.2.foldl (fun u n => reexamine grove n (u.modGrove grove fun k =>
        k.modEntry n fun e => { e with edges := e.edges &&& ~~~(slotBit slot) })) t1) s

/-- SUCCESSOR_REEXAMINE (R328, R340): the successors of a task that has hinted are examined again. -/
def execSuccessorReexamine (grove slot : Nat) (s : State) :=
  runEvent (modS fun t =>
    let later := ((t.grove grove).window.filter fun e => bit e.2.edges slot).map (·.1)
    later.foldl (fun u n => ((u.grove grove).members n).foldl (fun v m => reexamine grove m.1 v) u) t) s

/-! ## Release (R23, R29 to R33, R331, R332) -/

/-- Whether a kind runs on an engine of a core: 0 to 3 the sequencers, 4 the transpose unit, 5 to 8 the channels. -/
def kindOn (kind engine : Nat) : Bool := if kind = 5 then decide (5 ≤ engine) && decide (engine ≤ 8) else kind == engine

/-- Whether an engine is idle; a grove with a pre-emption request releases nothing to its sequencers (R331, R437). -/
def State.engineIdle (s : State) (core engine : Nat) : Bool :=
  let k := s.core core
  let g := s.grove (groveOf core)
  if engine < 4 then
    (k.ctx.seq (SeqKind.ofCode engine)).task.isNone && !g.preempting && !g.preHalted &&
      (engine != 2 || k.ctx.mx.idle) && (engine != 3 || k.ctx.rot.ops.isEmpty)
  else if engine = 4 then
    k.xpose.isNone && !(s.waiters.any fun w => w.kind == 6 && w.key == core && s.runs w.stream)
  else !(k.chan (engine - 5)).busy

/-- The core of a task's first read box, when it lies on chip (R31). -/
def Grove.boxCore (g : Grove) (home : Nat) (r : TaskRec) : Option Nat :=
  match (recBoxes r).find? Box.reads with
  | none => none
  | some b =>
    match g.region b.region with
    | none => none
    | some x => if rdSpace x.desc = 2 then none else some (x.core home)

/-- Whether a task's affinity admits a core of its grove (R31). DESIGN CHOICE (log 52): with affinity 2 and a first read
box on chip on a core of another grove, R31 does not say where the task runs; no core of the grove is admitted, and the
task stays in the window. -/
def Grove.admits (g : Grove) (home core : Nat) (r : TaskRec) : Bool :=
  match recAff r with
  | 1 => recCore r == coreIn core
  | 2 => match g.boxCore home r with | none => true | some c => c == core
  | _ => true

/-- The cores that run tasks of the subtree of a block, from release to retirement (R28). -/
def State.coresOf (s : State) (top : Nat) : List Nat :=
  (s.groves.flatMap fun g => g.2.window.filterMap fun e =>
    match e.2.engine with
    | some (c, _) => if s.under top (recRcb e.2.record) then some c else none
    | none => none).eraseDups

/-- Whether a release to a core stays within every core budget (R28). -/
def State.coreBudget (s : State) (r core : Nat) : Bool :=
  (s.chain r).all fun a =>
    match s.rcb a with
    | none => true
    | some k => k.cores == 0 || (s.coresOf a).contains core || decide ((s.coresOf a).length < k.cores)

/-- Whether the state and the block of a task let it be released (R331). -/
def State.releasable (s : State) (e : Entry) (core : Nat) : Bool :=
  s.active (recRcb e.record) && !s.fencedRcb (recRcb e.record) && s.coreBudget (recRcb e.record) core

/-- Whether every box of a task lies in HBM (R32). -/
def Grove.allHbm (g : Grove) (r : TaskRec) : Bool :=
  (recBoxes r).all fun b => match g.region b.region with | some x => rdSpace x.desc == 2 | none => false

/-- Whether an entry is eligible for an idle engine of its own grove; a gang is, by its first member, when one of
its members has the engine's kind and the core has every sequencer that it needs idle (R23, R331). -/
def State.eligible (s : State) (home core engine slot : Nat) (e : Entry) : Bool :=
  let g := s.grove home
  match e.gang with
  | none =>
    (e.state == .ready || e.state == .early) && kindOn (recKind e.record) engine && g.admits home core e.record &&
      s.releasable e core
  | some f =>
    f == slot && !g.gangOpen slot &&
    let ms := g.members slot
    (ms.any fun m => kindOn (recKind m.2.record) engine) &&
    ms.all fun m => (m.2.state == .ready || m.2.state == .early) && s.engineIdle core (recKind m.2.record) &&
      g.admits home core m.2.record && s.releasable m.2 core

/-- Whether an entry may be taken by an engine of another grove, or of another glade (R32). -/
def State.stealable (s : State) (home core engine : Nat) (far : Bool) (e : Entry) : Bool :=
  e.gang.isNone && e.state == .ready && kindOn (recKind e.record) engine && recAff e.record == 0 &&
    (s.grove home).allHbm e.record && (!far || recMig e.record) && s.releasable e core

/-- The class of a task (R26). -/
def State.classOf (s : State) (e : Entry) : Nat := match s.rcb (recRcb e.record) with | some k => k.cls | none => 0
def State.ticketsOf (s : State) (r : Nat) : Nat := match s.rcb r with | some k => k.tickets | none => 0

/-- The weight of a class over the eligible entries (R29). -/
def State.weight (s : State) (l : List (Nat × Entry)) (c : Nat) : Nat :=
  ((((l.filter fun e => s.classOf e.2 == c).map fun e => recRcb e.2.record).eraseDups).map s.ticketsOf).sum

/-- One step of the lottery's generator (R332). -/
def lotteryStep (x : BitVec 32) : BitVec 32 :=
  let x1 := x ^^^ (x <<< 13)
  let x2 := x1 ^^^ (x1 >>> 17)
  x2 ^^^ (x2 <<< 5)

/-- The first class whose running sum of weights exceeds r (R332). -/
def chooseClass (r : Nat) : Nat → List (Nat × Nat) → Nat
  | _, [] => 0
  | acc, (c, w) :: t => if r < acc + w then c else chooseClass r (acc + w) t

/-- How many posts ago a sequence was given, seen from the next one. -/
def Grove.age (g : Grove) (p : Nat) : Nat := (g.postSeq + 2 ^ 32 - p) % 2 ^ 32

/-- The entry with the oldest post sequence. -/
def Grove.oldest (g : Grove) : List (Nat × Entry) → Option (Nat × Entry)
  | [] => none
  | a :: t =>
    match g.oldest t with
    | none => some a
    | some b => if g.age b.2.postSeq ≤ g.age a.2.postSeq then some a else some b

/-- A draw among the eligible entries of a grove: the entry, and the grove's lottery state after it (R332). -/
def drawEntry (s : State) (home : Nat) (l : List (Nat × Entry)) : Option ((Nat × Entry) × State) :=
  let g := s.grove home
  let classes := (List.range 8).filter fun c => l.any fun e => s.classOf e.2 == c
  let weights := classes.map fun c => (c, s.weight l c)
  let total := (weights.map (·.2)).sum
  if total = 0 then (g.oldest l).map fun e => (e, s)
  else
    let seed := lotteryStep g.lseed
    let c := chooseClass (seed.toNat % total) 0 weights
    let s1 := count (16 * home) 0x41 1 (s.setGrove home { g with lseed := seed, drawSeed := seed, drawClass := c })
    (g.oldest (l.filter fun e => s.classOf e.2 == c)).map fun e => (e, s1)

/-- The offset that the bound version of the record's vbox adds (R319). -/
def Grove.versionOffset (g : Grove) (e : Entry) : Word :=
  if recVbox e.record = 0 then 0
  else
    let b := recBox e.record (recVbox e.record - 1)
    match g.region b.region with
    | some x => BitVec.ofNat 64 (e.bind b.slot * rdVsize x.desc)
    | none => 0

/-- The sequencer at the start of a task (R96, R98, R103). -/
def startSeq (t : TaskRef) (e : Entry) (arg : Word) (n : Nat) (det : Bool) : Seq :=
  { Seq.idle with
    x := Tab.set 0 [] 0 arg, pc := recEntry e.record, targ := arg, trcb := recRcb e.record, tkind := recKind e.record,
    gangn := n, slip := if recKind e.record = 1 then recSlip e.record + 1 else 0, detm := det, task := some t }

/-- The registers that the start of a task sets in the units of its sequencer (R141, R170, R211). DESIGN CHOICE (log 64): the
count of MSTAT.steps starts at 0; R170 does not list it and R208 gives it only once a nest has been activated. -/
def startUnits (k : SeqKind) (x : Context) : Context :=
  match k with
  | .K => x
  | .V => { x with v := [], p := [], vsh := 0x00007CF0, vkey := 0, vbase := 0, vgstr := 0, vq := [], obuf := [],
                   vl := .empty, va := .empty, vs := .empty, splits := 0, split := none, splitRem := 0, captured := [] }
  | .M => { x with mx := { Matrix.init with acc := x.mx.acc, nestId := x.mx.nestId } }
  | .Q => { x with rot := Rot.init }

/-- The registers that take their task-start values are written whole: their words are clean (R96, R141, R249). -/
def startWords (core : Nat) (k : SeqKind) (s : State) : State :=
  let s1 := cleanWords (chipAddr core 4 (xOffset k 0)) 384 s
  if k = .V then cleanWords (chipAddr core 1 0) 0x18800 s1 else s1

/-- Start a task on an engine of a core. -/
def startOn (t : TaskRef) (e : Entry) (core engine n : Nat) (s : State) : State :=
  let g := s.grove t.grove
  let r := recRcb e.record
  let off := g.versionOffset e
  if engine < 4 then
    let k := SeqKind.ofCode engine
    (startWords core k s).modCtx core fun x => (startUnits k x).setSeq k (startSeq t e (recArg e.record + off) n (s.detOf r))
  else if engine = 4 then
    let c : XposeCmd :=
      { by_ := .task t, owner := some t, rcb := r, det := s.detOf r, desc := recEntry e.record + off, image := none,
        tile := 0, left := none, total := 0, dst := .discard, pc := 0, rem := 0 }
    s.modCore core fun k => { k with xpose := some c }
  else
    let a := recEntry e.record + off
    s.modChan core (engine - 5) fun c =>
      { c with work := none, busy := true, err := false, recAddr := a, next := a, by_ := some (.task t), owner := some t, rcb := r,
               det := s.detOf r }

/-- Release an entry, with its gang, to an engine of a core; `how` says where it was taken from (R20, R23, R33). -/
def releaseEntry (home slot core engine how : Nat) (s : State) : State :=
  let ms := (s.grove home).members slot
  let gang := ms.any fun m => m.2.gang.isSome
  let s0 := if gang then s.modCtx core fun x => { x with tq := [] } else s
  ms.foldl (fun u m =>
    let n := if gang then recKind m.2.record else engine
    let u1 := u.modEntry ⟨home, m.1⟩ fun e =>
      { e with state := .issued, early := e.state == .early, engine := some (core, n), stolen := how }
    let u2 := startOn ⟨home, m.1⟩ m.2 core n (if gang then ms.length else 1) (count (16 * home) 0x40 1 u1)
    if how = 0 then u2 else count (16 * home) 0x43 1 u2) s0

/-- Draw in a grove for an engine and release what is drawn. -/
def drawIn (home core engine how : Nat) (l : List (Nat × Entry)) (s : State) : Option State :=
  if (s.grove home).stopped || s.overtemp || l.isEmpty then none
  else (drawEntry s home l).map fun r => releaseEntry home r.1.1 core engine how r.2

/-- The eligible entries of the engine's own grove. -/
def State.ownEligible (s : State) (core engine : Nat) : List (Nat × Entry) :=
  let g := groveOf core
  (s.grove g).window.filter fun e => s.eligible g core engine e.1 e.2

/-- The idle engines of a grove that may draw, in the order in which engines that are idle together draw: ascending
core, and within it K, V, M, Q, transpose unit, channels (R331; log 39). -/
def State.drawers (s : State) (g : Nat) : List (Nat × Nat) :=
  ((List.range 16).flatMap fun i => (List.range 9).map fun e => (16 * g + i, e)).filter fun p =>
    s.engineIdle p.1 p.2 && !(s.ownEligible p.1 p.2).isEmpty

/-- LOTTERY_DRAW (R331, R332): an idle engine whose turn it is draws in its own grove. -/
def execLotteryDraw (core engine : Nat) (s : State) :=
  runEvent (modS fun t =>
    if (t.drawers (groveOf core)).head? = some (core, engine) then
      (drawIn (groveOf core) core engine 0 (t.ownEligible core engine) t).getD t
    else t) s

/-- The groves that an idle engine probes, in order, with their level (R32). -/
def probes (core : Nat) : List (Nat × Nat) :=
  let d := gladeOf core
  let g := groveOf core % 12
  let near := (List.range 11).map fun i => (1, d * 12 + (g + 1 + i) % 12)
  let far := (List.range 7).flatMap fun j => (List.range 12).map fun i => (2, (d + 1 + j) % 8 * 12 + (g + i) % 12)
  near ++ far

/-- The first probed grove that yields a task. -/
def stealFrom (core engine : Nat) (s : State) : List (Nat × Nat) → Option State
  | [] => none
  | (how, g) :: t =>
    match drawIn g core engine how ((s.grove g).window.filter fun e => s.stealable g core engine (how == 2) e.2) s with
    | some s' => some s'
    | none => stealFrom core engine s t

/-- TASK_STEAL (R32): an idle engine that its own grove gives nothing takes a task from another grove. -/
def execTaskSteal (core engine : Nat) (s : State) :=
  runEvent (modS fun t =>
    if t.engineIdle core engine && ((t.grove (groveOf core)).stopped || (t.ownEligible core engine).isEmpty) then
      (stealFrom core engine t (probes core)).getD t
    else t) s

end Sys2Proof.Machine
end

