-- ==== Sys2Proof/Machine/Tasks.lean ====
section
/-! DEFINITION. The instructions of the task window: POST, TWAIT, PREDWAIT, HINTSUCC, TEND, REGDEF and REGDROP,
and the acceptance of waiting posts (R21, R22, R313 to R315, R325, R326, R336 to R343). -/

namespace Sys2Proof.Machine

/-! ## Posts (R318, R325, R326, R336) -/

/-- Run a body; when it traps, an effect stays. -/
def onTrap {α : Type} (f : State → State) (core source : Nat) (m : M α) : M α := fun s =>
  match m s with
  | .error (.trap c v, k) => .error (.trapWith f c v, k)
  | .error (.trapWith h c v, k) => .error (.trapWith (fun t => f (h t)) c v, k)
  | .error (.detect ws c v, k) => .error (.trapWith (fun t => f (ws.foldl (detectWord core source) t)) c v, k)
  | r => r

/-- Read a record: the address, then 320 bytes, which may go on in the next page (R318, step 1); the footprint check does
not apply to it (R335). -/
def readRecord (ag : Agent) (a : Word) : M TaskRec := do
  let l ← loadAligned { ag with free := true } .vector 64 a 320
  pure (BitVec.ofNat 2560 (ofBytes l))

/-- Whether a waiting local POST is still attempted by its stream. -/
def State.stillPosts (s : State) : Poster → Bool
  | .stream st task _ _ _ pc =>
    s.runs st && (s.seqOf st).waiting && (s.seqOf st).pc == pc && (s.seqOf st).task == task
  | _ => true

/-- Whether a poster is a program of the device. -/
def Poster.isLocal : Poster → Bool
  | .stream _ _ _ _ _ _ => true
  | _ => false

/-- Whether a waiting post can be served: a remote one always, a local one when there is room for it (R325). -/
def State.servable (s : State) (g : Nat) (q : PostReq) : Bool :=
  if q.poster.isLocal then
    s.stillPosts q.poster && ((s.grove g).freeSlot false).isSome && !s.windowFull g (recRcb q.record)
  else true

/-- The waiting post that is served next: the one that has waited longest, local and remote ones in turn while both
wait (R326). -/
def State.nextPost (s : State) (g : Nat) : Option PostReq :=
  let l := (s.grove g).waiting.filter (s.servable g)
  let near := l.find? fun q => q.poster.isLocal
  let far := l.find? fun q => !q.poster.isLocal
  match (s.grove g).turn, near, far with
  | some true, some q, _ => some q
  | some false, _, some q => some q
  | _, _, _ => l.head?

/-- A post leaves the list of those that wait; while the other kind waits too, the turn is kept (R326). -/
def leaveWaiting (g : Nat) (q : PostReq) (s : State) : State :=
  s.modGrove g fun k =>
    let rest := k.waiting.filter fun p => p.poster != q.poster
    let other := rest.any fun p => p.poster.isLocal != q.poster.isLocal
    { k with waiting := rest, turn := if other then some (!q.poster.isLocal) else none }

/-- A POST that cannot be accepted yet waits in the order of arrival. -/
def joinWaiting (g : Nat) (q : PostReq) (s : State) : State :=
  s.modGrove g fun k => if k.waiting.any fun p => p.poster == q.poster then k else { k with waiting := k.waiting ++ [q] }

/-- The body of POST (R336); `granted` when POST_ACCEPT has given it the acceptance slot. It waits for the issuer's
earlier transform commands and remote writes to the own device, which the child is to see (R300). -/
def postBody (d : Dst) (a : Src) (nb granted : Bool) : M Unit := do
  let s ← gets' id
  let q := s.seq
  let home := s.homeGrove
  let t : TaskRef := q.task.getD ⟨home, 0⟩
  let x ← readSrc a
  let r ← onTrap (dropGang t) s.cur.core s.cur.seq.code (do
    let r ← readRecord (← thisAgent) x
    trapIf (recMalformed r) Cause.taskMalformed x
    let u ← gets' id
    match postFailure u home ((u.grove home).openGang t) r x with
    | some (c, v) => trap c v
    | none => pure r)
  blockIf ((← gets' fun u => u.xformsOpen || u.remoteOpenTo ownDevice))
  let req : PostReq := { record := r, addr := x, poster := .stream s.cur q.task nb d a q.pc }
  let u ← gets' id
  match if u.windowFull home (recRcb r) then none else (u.grove home).freeSlot false with
  | none => if nb && !q.detm then writeDst d (2 ^ 32) else blockWith (joinWaiting home req)
  | some slot =>
    let mine := match u.nextPost home with
      | none => true
      | some p => p.poster == req.poster
    if !granted && !mine then blockWith (joinWaiting home req)
    else modS fun v =>
      (acceptPost home slot (some t) req (leaveWaiting home req v)).modSeq s.cur fun p => { p with busy := .post }

/-- POST and its acceptance. -/
def runPost (d : Dst) (a : Src) (nb granted : Bool) (s : State) : Host.Outcome State Fault Refusal :=
  scalarOp [a] d (postBody d a nb granted) s

def execPost (d : Dst) (a : Src) (nb : Bool) (s : State) : Host.Outcome State Fault Refusal := runPost d a nb false s

/-! ## Remote and host posts at the window (R337, R453) -/

/-- The answer to a post that is not accepted: status 2 REFUSED, or 3 REJECTED with a cause. -/
def answerPost (g : Nat) (p : Poster) (status cause : Nat) (s : State) : State :=
  match p with
  | .stream _ _ _ _ _ _ => s
  | .remote device op => answer (16 * g) device 5 (.postAck device op (postWord 0 status cause)) s
  | .host t k i => hostComplete t k i (postWord 0 status cause) s

/-- Whether the tenant that a waiting post names is being reset: that of its block, or of the host ring it came by (R450). -/
def State.refuses (s : State) (q : PostReq) : Bool :=
  s.resetting (recRcb q.record) || match q.poster with | .host t _ _ => (s.tenant t).busy | _ => false

/-- Acceptance of a remote post: R318 from step 4, then its pool and its budgets (R325, R337). -/
def acceptRemote (g : Nat) (q : PostReq) (s : State) : State :=
  let r := recRcb q.record
  if s.refuses q then answerPost g q.poster 2 0 s
  else if !s.active r then
    answerPost g q.poster 3 (match q.poster with | .host _ _ _ => Cause.rcbInvalid | _ => Cause.windowViolation) s
  else
    match postFailure s g none q.record q.addr with
    | some (c, _) => answerPost g q.poster 3 c s
    | none =>
      match if s.windowFull g r then none else (s.grove g).freeSlot true with
      | none => answerPost g q.poster 2 0 s
      | some slot => acceptPost g slot none q s

/-- POST_ACCEPT (R326): the waiting post whose turn it is is served. -/
def execPostAccept (grove : Nat) (s : State) : Host.Outcome State Fault Refusal :=
  match s.nextPost grove with
  | none => .next (s.modGrove grove fun k => { k with waiting := k.waiting.filter fun q => s.stillPosts q.poster })
  | some q =>
    match q.poster with
    | .stream st _ nb d a _ => runPost d a nb true { s with cur := st }
    | _ => .next (acceptRemote grove q (leaveWaiting grove q s))

/-! ## TWAIT, PREDWAIT, HINTSUCC (R338 to R340) -/

def execTwait (d : Dst) (a : Src) (nb : Bool) (s : State) :=
  scalarOp [a] d (do
    let x ← readSrc a
    let q := s.seq
    let home := s.homeGrove
    let g := s.grove home
    let p := x.toNat % 2 ^ 32
    let own := match q.task with | some t => t.slot | none => 256
    match q.twait, g.liveSeq p with
    | some (h, n, removed), none =>
      if h = home ∧ n = p then writeDst d (if removed then 2 else 0) else settled d g p
    | none, none => settled d g p
    | _, some slot =>
      let anc := match g.entry slot with | some e => bit e.anc own | none => false
      trapIf (slot == own || anc) Cause.twaitCycle 0
      if nb && !q.detm then writeDst d 1
      else blockWith fun t => t.modSeq t.cur fun r => { r with twait := some (home, p, false) }) s
where
  /-- The result for a sequence that no live task holds. -/
  settled (d : Dst) (g : Grove) (p : Nat) : M Unit :=
    match g.ageOf p with
    | .done => writeDst d 0
    | .stale => trap Cause.predStale (BitVec.ofNat 64 p)
    | .future => trap Cause.illegalOperand (BitVec.ofNat 64 p)

/-- The window entry of the current task. -/
def State.ownEntry (s : State) : Option Entry :=
  match s.seq.task with
  | some t => s.entryOf t
  | none => none

def execPredwait (s : State) :=
  scalarOp [] .discard (do
    match s.ownEntry with
    | some e => blockIf (e.early && e.edges != 0)
    | none => pure ()) s

def execHintsucc (s : State) :=
  scalarOp [] .discard (modS fun t =>
    match t.seq.task with
    | some r => t.modEntry r fun e => { e with hint := true }
    | none => t) s

/-! ## TEND (R17, R24, R194, R341) -/

/-- Whether work of the sequencer still holds TEND back (R341, steps 1 and 2). -/
def State.tendWaits (s : State) : Bool :=
  let x := s.ctx s.cur.core
  let q := s.seq
  let k := s.cur.seq
  (k == .V && x.splitOpen) || (k == .M && !x.mx.idle) || (k == .Q && !x.rot.ops.isEmpty) || !q.xforms.isEmpty ||
  (k == .M && match x.mx.group with | some (g, _) => groupBusy s (groveOf s.cur.core) g | none => false) ||
  s.remote.any fun e => e.2.owner.task == q.task && e.2.owner.by_ == s.cur &&
    match e.2 with
    | .store _ _ c _ => c == 0
    | .load _ _ c _ _ _ _ => c == 0
    | .rmcr _ c _ _ _ _ => c == 0
    | .post _ _ _ _ _ _ => false

/-- The traps that the sequencer's work has left pending, each with the state without it: of XFORMs, of the matrix
array, of the rotation array, of remote operations (R188, R201, R223, R260, R371). -/
def State.pendingTraps (s : State) : List (DefTrap × State) :=
  let x := s.ctx s.cur.core
  (s.seq.deferred.map fun t => (t, s.modSeq s.cur fun p => { p with deferred := p.deferred.erase t })) ++
  ((if s.cur.seq = .M then x.mx.fault else []).map fun t =>
    (t, s.modCtx s.cur.core fun y => { y with mx := { y.mx with fault := y.mx.fault.erase t } })) ++
  ((if s.cur.seq = .Q then x.rot.fault else none).toList.map fun t =>
    (t, s.modCtx s.cur.core fun y => { y with rot := { y.rot with fault := none } })) ++
  ((s.remoteFault s.cur).toList.map fun t => (t, dropRemote s.cur s))

/-- The pending trap of the earliest instruction in program order, and the state without it (R341, step 3). -/
def State.tendTrap (s : State) : Option (DefTrap × State) := oldestBy (fun p => p.1.order) s.pendingTraps

/-- What the end of a task takes from the units of its sequencer (R17, R192, R194). -/
def endUnits (k : SeqKind) (x : Context) : Context :=
  match k with
  | .V => { x with vl := .empty, va := .empty, vs := .empty, split := none, splitRem := 0, captured := [], obuf := [] }
  | .M => { x with mx := { x.mx with pairs := [], group := none, fault := [], commit := none } }
  | _ => x

/-- The task ends: it is RETIRING, and its engine is idle; a gang member stays reserved, and its gang is RETIRING
with its last member (R24, R341). -/
def endTask (s : State) : State :=
  let st := s.cur.pipe
  let s1 := s.modCtx st.core (endUnits st.seq)
  match (s1.seqOf st).task with
  | none => s1
  | some t =>
    let s2 := dropGang t s1
    match s2.entryOf t with
    | none => s2.modSeq st Seq.release
    | some e =>
      match e.gang with
      | none => (s2.modEntry t fun e => { e with state := .retiring, ended := true }).modSeq st Seq.release
      | some _ =>
        let s3 := s2.modEntry t fun e => { e with ended := true }
        let ms := (s3.grove t.grove).members t.slot
        let s4 := if ms.all fun m => m.2.ended then
            ms.foldl (fun u m => u.modEntry ⟨t.grove, m.1⟩ fun e => { e with state := .retiring }) s3 else s3
        s4.modSeq st fun q => { q.release with task := some t, ended := true }

def execTend (s : State) : Host.Outcome State Fault Refusal :=
  if s.tendWaits then .next (markBlocked none s)
  else
    match s.tendTrap with
    | some (t, s') => .next ((takeTrap s.cur.pipe t.info s').unwait s.cur)
    | none => .next ((endTask s).unwait s.cur)

/-! ## REGDEF and REGDROP (R313 to R315, R342, R343) -/

/-- A descriptor with the defining core in the place of `self` (R313). -/
def resolveSelf (core : Nat) (r : RegDesc) : RegDesc :=
  if rdSpace r ≠ 2 ∧ rdCore r = 16 then BitVec.ofNat 512 (putBits r.toNat 104 8 (coreIn core)) else r

/-- The on-chip address of byte 0 of a region's window: kind 0 for space scr, kind 2 for space acc (R242, R313). -/
def regionWindow (x : Region) (g : Nat) : Nat :=
  let c := x.core g
  Config.chipBase + gladeOf c * 2 ^ 36 + groveOf c % 12 * 2 ^ 32 + coreIn c * 2 ^ 28 + rdSpace x.desc * 2 * 2 ^ 24

/-- Whether two regions of a table conflict (R315). -/
def regionsConflict (g : Nat) (a b : Region) : Bool :=
  let x := rdSpan a.desc
  let y := rdSpan b.desc
  rdSpace a.desc == rdSpace b.desc &&
  (if rdSpace a.desc = 2 then a.tenant == b.tenant else a.core g == b.core g) &&
  decide (x.1 < y.2) && decide (y.1 < x.2) &&
  (rdAlias a.desc != rdAlias b.desc || rdAlias a.desc == 0)

/-- The HBM units of a region (R342, step 6). -/
def regionUnits (r : RegDesc) : Nat :=
  if rdSpace r = 2 then rdVer r * (((rdHiOff r - rdLoOff r).toNat + 65535) / 65536) else 0

def execRegdef (d : Dst) (a : Src) (s : State) :=
  scalarOp [a] d (do
    let x ← readSrc a
    let ag ← thisAgent
    let l ← load ag .vector x 64 64
    let raw : RegDesc := BitVec.ofNat 512 (ofBytes l)
    let home := s.homeGrove
    let stolenSelf := rdSpace raw != 2 && rdCore raw == 16 && home != groveOf s.cur.core
    trapIf (rdMalformed raw || stolenSelf) Cause.boxMalformed x
    let r := resolveSelf s.cur.core raw
    let id := rdId r
    let new : Region := { desc := r, tenant := ag.tenant, rcb := ag.rcb, current := 0 }
    let t ← gets' id'
    let g := t.grove home
    trapIf (g.region id).isSome Cause.regionBusy (BitVec.ofNat 64 id)
    if rdSpace r ≠ 2 then do
      let w := regionWindow new home
      let span := rdSpan r
      match gapIn (t.tenant ag.tenant).ocw (w + span.1.toNat) (span.2 - span.1).toNat with
      | some b => trap Cause.windowViolation (BitVec.ofNat 64 (0xFF00 * 2 ^ 48 + b))
      | none => pure ()
    else pure ()
    -- of several conflicting regions the first of the table is named (DESIGN CHOICE, log 64)
    match g.regions.find? fun e => regionsConflict home new e.2 with
    | some e => trap Cause.aliasConflict (BitVec.ofNat 64 e.1)
    | none => pure ()
    let units := regionUnits r
    match t.levelOf ag.rcb fun k => k.hbm != 0 && decide (k.hbm < k.useHbm + units) with
    | some lv => trap Cause.budgetExceeded (BitVec.ofNat 64 lv)
    | none => pure ()
    modS fun u =>
      let u1 := u.modGrove home fun k => { k with regions := Tab.put k.regions id new }
      u1.modChain ag.rcb fun k => { k with useHbm := k.useHbm + units }
    writeDst d (BitVec.ofNat 64 (rdVsize r))) s
where
  id' (t : State) : State := t

/-- The bindings of a region in the sync objects of the device end (R417): binding words of lines that are no
barrier objects become 0. -/
def dropBindings (g id : Nat) (s : State) : State :=
  let v := id + g * 2 ^ 7 + 2 ^ 14
  let lines (d : Nat) : List Nat :=
    let k := s.glade d
    let far := s.mem.filterMap fun e =>
      if k.ovBase.toNat ≤ e.1 ∧ e.1 < k.ovBase.toNat + k.ovSize.toNat then some (0x1000000 + (e.1 - k.ovBase.toNat)) else none
    ((k.sync.map (·.1) ++ far).map (· / 64)).eraseDups
  let word (d n k : Nat) : Nat := Config.syncBase + d * 2 ^ 32 + 64 * n + 32 + 8 * k
  let places := (List.range 8).flatMap fun d => (lines d).flatMap fun n => (List.range 4).map fun k => word d n k
  (places.filter fun a => !s.marked a && ofBytes (devBytes s a 8) == v).foldl
    (fun t a => deviceWrite (192 * (a / 2 ^ 32 % 8)) 9 a (toBytes 8 0) t) s

def execRegdrop (a : Src) (s : State) :=
  scalarOp [a] .discard (do
    let x ← readSrc a
    let id := x.toNat
    trapIf (decide (127 < id)) Cause.illegalOperand x
    let home := s.homeGrove
    let ag ← thisAgent
    let g := s.grove home
    match g.region id with
    | none => trap Cause.regionUndefined x
    | some r =>
      trapIf (r.tenant != ag.tenant) Cause.regionUndefined x
      trapIf (match s.ownEntry with
        | some e => (recBoxes e.record).any fun b => b.region == id
        | none => false) Cause.regionBusy x
      let bound := g.liveBoxes.any fun p => p.1.region == id
      if bound then
        blockWith fun t => t.modSeq t.cur fun q => { q with dropping := some (home, id) }
      else modS fun t =>
        let t1 := t.modGrove home fun k => { k with regions := Tab.del k.regions id }
        dropBindings home id (t1.modChain r.rcb fun k => { k with useHbm := k.useHbm - regionUnits r.desc })) s

end Sys2Proof.Machine
end

