-- ==== Sys2Proof/Machine/Remote.lean ====
section
/-! DEFINITION. Remote work: POSTR, RSTF, RLDF, RCHAIN and RMCR, their arrival at a target, their answers, completion
records and pending remote faults (R296, R307 to R309, R334, R337, R370 to R377, R412). -/

namespace Sys2Proof.Machine

/-! ## Owners and completion (R371) -/

/-- What an operation of the current stream keeps of it, with the link it leaves by. -/
def State.opOwner (s : State) (link : Option Nat) : OpOwner :=
  let q := s.seq
  { core := s.cur.core, tenant := s.tenantOf q.trcb, rcb := q.trcb, levels := s.chain q.trcb, job := s.jobOf q.trcb,
    by_ := s.cur.pipe, task := q.task, pc := q.pc, order := s.fresh, det := q.detm, link := link }

/-- The agent of an access that arrives from another device: the block that it names (R370). -/
def State.remoteAgent (s : State) (rcb : Nat) : Agent :=
  { core := 0, rcb := rcb, tenant := s.tenantOf rcb, det := false, task := none, remote := true, source := 10, by_ := none }

/-- Destination words (R370). -/
def dwDevice (w : Word) : Nat := fld w 0 21
def dwRcb (w : Word) : Nat := fld w 21 10
def dwKey (w : Word) : Nat := fld w 31 32
def dwRoute (w : Word) : Bool := bit w 63

/-- The check of a named block and key at the target (R370). -/
def State.keyOk (s : State) (rcb key : Nat) : Bool :=
  s.active rcb && match s.rcb rcb with | some k => k.fkey.toNat == key | none => false

/-- The words of a completion record (R371). -/
def crecWord0 (bytes status cause index : Nat) : Word :=
  BitVec.ofNat 64 (bytes % 2 ^ 40 + status % 256 * 2 ^ 40 + cause % 1024 * 2 ^ 48 + index % 8 * 2 ^ 58 + 2 ^ 62 +
    (if status = 0 then 0 else 2 ^ 63))
def crecWord1 (device tag : Nat) : Word := BitVec.ofNat 64 (device % 2 ^ 21 + tag % 2 ^ 32 * 2 ^ 32)

/-- Write a completion record: word 1, then word 0; one that fails its checks is left out (log 20). None while the write
waits for a bank or a port. -/
def tryCrec (ag : Agent) (crec : Word) (device tag bytes status cause index : Nat) (s : State) : Option State :=
  if crec = 0 then some s
  else
    match attempt ag (do
      store ag .remote (crec + 8) (toBytes 8 (crecWord1 device tag).toNat) 8
      store ag .remote crec (toBytes 8 (crecWord0 bytes status cause index).toNat) 8) s with
    | .done _ t => some t
    | .fault _ _ t => some t
    | .wait _ => none

/-- Take an arrival, or hold it while it waits. -/
def serveArrival (f : State → Option State) (a : Arrival) (s : State) : State :=
  match f s with
  | some t => t
  | none => { s with held := s.held ++ [a] }

/-- Write the completion record of an operation, now or when what it waits for is over. -/
def writeCrec (o : OpOwner) (crec : Word) (device tag bytes status cause index : Nat) (s : State) : State :=
  serveArrival (tryCrec o.agent crec device tag bytes status cause index)
    (.record o crec device tag bytes status cause index) s

/-- A failure without a record: the pending remote fault of the sequencer that issued the operation, if its task has not
ended; a second one is counted and dropped (R371). -/
def pendRemote (o : OpOwner) (cause : Nat) (tval : Word) (s : State) : State :=
  let f : DefTrap :=
    { cause := Cause.remoteFault, tpc := o.pc, tval := tval, sec := cause, src := 0, deferred := true, trep := 0, order := o.order }
  let runs := (s.findCtx o.core fun x => (x.seq o.by_.seq).task == o.task && !(x.seq o.by_.seq).ended).isSome
  match o.task, Tab.find (s.core o.core).remote o.by_.seq.code with
  | none, _ => s
  | some _, some _ => if runs then count 0 0xC3 1 s else s
  | some t, none => if runs then s.modCore o.core fun k => { k with remote := Tab.put k.remote o.by_.seq.code (t, f) } else s

/-- The end of an operation at its sender: its record, or its pending fault. -/
def reportOp (o : OpOwner) (crec : Word) (device : Nat) (tval : Word) (tag bytes status cause index : Nat) (s : State) :
    State :=
  if crec = 0 then (if status = 0 then s else pendRemote o cause tval s)
  else writeCrec o crec device tag bytes status cause (if status = 0 then 0 else index) s

/-! ## Moving data (R242, R372) -/

/-- The pieces of a range: one entry of a vector push port, else aligned 8-byte units. -/
def remotePieces (a : Word) (n : Nat) : List (Word × Nat) :=
  if n = 2048 ∧ onChip a = true ∧ a.toNat / 2 ^ 24 % 16 = 5 then [(a, n)]
  else (List.range (n / 8)).map fun k => (a + BitVec.ofNat 64 (8 * k), 8)

/-- Whether an address is that of a job count word; of remote accesses only an 8-byte load from another device may name one
(R424). -/
def isJobAddr (a : Word) : Bool := a.toNat / 2 ^ 48 == 0xFF00 && isJobWord (a.toNat % 2 ^ 48)

def remoteRead (ag : Agent) (a : Word) (n : Nat) : M (List Byte) := do
  match if n = 8 ∧ ag.remote = true then none else (remotePieces a n).find? fun p => isJobAddr p.1 with
  | some p => trap Cause.windowViolation p.1
  | none => pure ()
  (remotePieces a n).foldlM (fun acc p => do let l ← load ag .remote p.1 p.2 8; pure (acc ++ l)) []

def remoteWrite (ag : Agent) (a : Word) (bytes : List Byte) : M Unit :=
  (remotePieces a bytes.length).foldlM (fun rest p => do
    store ag .remote p.1 (rest.take p.2) 8
    pure (rest.drop p.2)) bytes |> fun m => do let _ ← m; pure ()

/-- Every check and wait of a write of a range, without its effect. -/
def remoteProbe (ag : Agent) (a : Word) (n : Nat) : M Unit :=
  (remotePieces a n).forM fun p => do let _ ← probe ag .remote .write p.1 p.2 8; pure ()

/-- A flag operation: an add with wrap, or a store; an add to an arrival port is an arrival when the operation may
make one (R373, R412). -/
def flagOp (ag : Agent) (mayArrive : Bool) (flag finc : Word) (set : Bool) : M Unit := do
  if flag = 0 then pure ()
  else if set then store ag .remote flag (toBytes 8 finc.toNat) 8
  else do
    let p ← probe ag .remote .atomic flag 8 8
    let s ← gets' id
    if !p.host && s.isArrival p.addr then do
      trapIf (!mayArrive) Cause.illegalOperand flag
      if finc = 0 then pure ()
      else do
       readLine ag p
       fun s =>
        match applyBar ag p.addr (.arrive finc.toNat 0) s with
        | (s', none) => .ok ((), s')
        | (_, some c) => trap c flag s
    else do
      let l ← readPlace ag p 8
      let v := toBytes 8 (wordOf l + finc).toNat
      modS fun t => if p.host then t.hostWrite p.addr v else devWrite ag (bit p.pte 7) p.addr v t

/-! ## Issue -/

/-- Whether a destination word is one of another instruction than BSEND (R370). -/
def checkDest (w : Word) : M Unit := trapIf (dwRoute w) Cause.illegalOperand w

/-- An aligned address. -/
def checkAligned (a : Word) (n : Nat) : M Unit := trapIf (a.toNat % n != 0) Cause.misaligned a

/-- Send a message, or hold it back until the operations `after` have been acknowledged (R300, R412). -/
def sendAfter (op : Nat) (after : List Nat) (link : Option Nat) (cls : Nat) (m : OutMsg) (s : State) : State :=
  if after.isEmpty then transmit link cls m s
  else { s with delayed := s.delayed ++ [{ op := op, after := after, link := link, cls := cls, msg := m }] }

/-- Send an operation, behind the operations `after`, or end it at once when its target cannot be reached (R367). -/
def issueOp (target : Nat) (after : List Nat) (mk : OpOwner → RemoteOp) (cls : Nat) (msg : Nat → OutMsg)
    (unreachable : OpOwner → State → State) (s : State) : State :=
  match s.linkFor s.cur.core target with
  | some l =>
    sendAfter s.nextOp after l cls (msg s.nextOp)
      { s with remote := Tab.put s.remote s.nextOp (mk (s.opOwner l)), nextOp := s.nextOp + 1 }
  | none => unreachable (s.opOwner none) s

/-- Whether a flag operation may be an arrival at a barrier: an add to bytes 32 to 39 of a line of sync space. The
sender cannot see the mark of the line, so it takes every such add for one (R412; log 55). -/
def mayArrive (flag : Word) (set : Bool) : Bool :=
  let pa := flag.toNat % 2 ^ 48
  !set && flag.toNat / 2 ^ 48 == 0xFF00 && decide (Config.syncBase ≤ pa) && decide (pa < Config.syncEnd) && pa % 64 / 8 == 4

/-- The issuer's earlier writes at the devices to which an operation sends arrivals: it is sent when they have been
acknowledged (R306, R412). -/
def State.arrivalAfter (s : State) (flags : List (Nat × Word)) (set : Bool) : List Nat :=
  let ds := (flags.filter fun p => mayArrive p.2 set).map (·.1)
  if ds.isEmpty then [] else s.openWrites ds.contains

/-- The devices at which an operation accesses memory. -/
def RemoteOp.devices : RemoteOp → List Nat
  | .store _ ts _ _ => ts.map (·.1)
  | .load _ t _ _ _ _ _ => [t]
  | _ => []

/-- The issuer's earlier operations that a new one could overtake on the way to a device that both access, and which it
therefore waits for: those held back here, chains, and for a chain all (R307; log 55). -/
def State.parkedBefore (s : State) (targets : List Nat) : List Nat :=
  (s.remote.filter fun e =>
    e.2.owner.task == s.seq.task && e.2.owner.by_ == s.cur.pipe && e.2.devices.any targets.contains &&
      (decide (2 ≤ targets.length) || decide (2 ≤ e.2.devices.length) || s.delayed.any fun d => d.op == e.1)).map (·.1)

/-- What an access waits for before it is sent: the writes that its arrivals carry, and what it could overtake. -/
def State.sendBehind (s : State) (targets : List Nat) (flags : List (Nat × Word)) (set : Bool) : List Nat :=
  (s.arrivalAfter flags set ++ s.parkedBefore targets).eraseDups

/-- The fields of a descriptor of RSTF and RLDF (R372). -/
abbrev MemDesc := BitVec 512
def mdRaddr (m : MemDesc) : Word := BitVec.ofNat 64 (fld m 0 64)
def mdLaddr (m : MemDesc) : Word := BitVec.ofNat 64 (fld m 64 64)
def mdLength (m : MemDesc) : Nat := fld m 128 32
def mdFlag (m : MemDesc) : Word := BitVec.ofNat 64 (fld m 192 64)
def mdFinc (m : MemDesc) : Word := BitVec.ofNat 64 (fld m 256 64)
def mdCrec (m : MemDesc) : Word := BitVec.ofNat 64 (fld m 320 64)

/-- Whether a length lies within its limits: 8 to 4096, a multiple of 8. -/
def lengthOk (n : Nat) : Bool := decide (8 ≤ n) && decide (n ≤ 4096) && n % 8 == 0

/-- Read and check a descriptor of RSTF or RLDF. -/
def fetchMemDesc (ag : Agent) (a : Word) : M MemDesc := do
  let l ← load ag .vector a 64 64
  let m : MemDesc := BitVec.ofNat 512 (ofBytes l)
  checkAligned (mdLaddr m) 8
  trapIf (fld m 160 32 != 0 || fld m 384 128 != 0 || !lengthOk (mdLength m) || (mdRaddr m).toNat % 8 != 0)
    Cause.illegalOperand a
  checkAligned (mdCrec m) 16
  pure m

/-- RSTF: the local bytes are read, and the store with its flag is sent (R372, R373). -/
def execRstf (a b : Src) (set : Bool) (s : State) :=
  remoteFirst (fun s => scalarOp [a, b] .discard (do
    let x ← readSrc a
    let w ← readSrc b
    blockIf ((← gets' fun t => t.xformsOpen))
    checkDest w
    let ag ← thisAgent
    let m ← fetchMemDesc ag x
    let data ← remoteRead ag (mdLaddr m) (mdLength m)
    let after ← gets' fun t => t.sendBehind [dwDevice w] [(dwDevice w, mdFlag m)] set
    modS (issueOp (dwDevice w) after
      (fun o => .store o [(dwDevice w, mdRaddr m, mdFlag m)] (mdCrec m) (mdLength m)) 1
      (fun n => .access (dwDevice w)
        { device := ownDevice, op := n, kind := .store, dest := w, raddr := mdRaddr m, data := data, length := mdLength m,
          rflag := mdFlag m, finc := mdFinc m, set := set, peers := [], index := 0 })
      (fun o => reportOp o (mdCrec m) (dwDevice w) (mdRaddr m) 0 0 4 Cause.linkDown 0))) s) s

/-- RLDF: the local bytes are checked for writing, and the load with its flag is sent (R374). -/
def execRldf (a b : Src) (set : Bool) (s : State) :=
  remoteFirst (fun s => scalarOp [a, b] .discard (do
    let x ← readSrc a
    let w ← readSrc b
    blockIf ((← gets' fun t => t.xformsOpen))
    checkDest w
    let ag ← thisAgent
    let m ← fetchMemDesc ag x
    remoteProbe ag (mdLaddr m) (mdLength m)
    let after ← gets' fun t => t.sendBehind [dwDevice w] [(dwDevice w, mdFlag m)] set
    modS (issueOp (dwDevice w) after
      (fun o => .load o (dwDevice w) (mdCrec m) (mdRaddr m) (mdLaddr m) (mdLength m) (mdFlag m)) 1
      (fun n => .access (dwDevice w)
        { device := ownDevice, op := n, kind := .load, dest := w, raddr := mdRaddr m, data := [], length := mdLength m,
          rflag := mdFlag m, finc := mdFinc m, set := set, peers := [], index := 0 })
      (fun o => reportOp o (mdCrec m) (dwDevice w) (mdRaddr m) 0 0 4 Cause.linkDown 0))) s) s

/-- The fields of an RCHAIN descriptor (R375). -/
abbrev ChainDesc := BitVec 2048
def cdLaddr (m : ChainDesc) : Word := BitVec.ofNat 64 (fld m 0 64)
def cdLength (m : ChainDesc) : Nat := fld m 64 32
def cdN (m : ChainDesc) : Nat := fld m 96 8
def cdFinc (m : ChainDesc) : Word := BitVec.ofNat 64 (fld m 128 64)
def cdCrec (m : ChainDesc) : Word := BitVec.ofNat 64 (fld m 192 64)
def cdPeer (m : ChainDesc) (k : Nat) : Word × Word × Word :=
  (BitVec.ofNat 64 (fld m (512 + 192 * k) 64), BitVec.ofNat 64 (fld m (576 + 192 * k) 64),
   BitVec.ofNat 64 (fld m (640 + 192 * k) 64))
def cdPeers (m : ChainDesc) : List (Word × Word × Word) := (List.range (cdN m)).map (cdPeer m)

/-- Whether a descriptor of RCHAIN breaks its limits. -/
def cdMalformed (m : ChainDesc) : Bool :=
  fld m 104 24 != 0 || fld m 256 256 != 0 || cdN m == 0 || decide (8 < cdN m) || !lengthOk (cdLength m) ||
  ((List.range 8).any fun k => decide (cdN m ≤ k) && fld m (512 + 192 * k) 192 != 0) ||
  (cdPeers m).any fun p => p.2.1.toNat % 8 != 0

def execRchain (a : Src) (s : State) :=
  remoteFirst (fun s => scalarOp [a] .discard (do
    let x ← readSrc a
    blockIf ((← gets' fun t => t.xformsOpen))
    let ag ← thisAgent
    let l ← load ag .vector x 256 256
    let m : ChainDesc := BitVec.ofNat 2048 (ofBytes l)
    checkAligned (cdLaddr m) 8
    trapIf (cdMalformed m) Cause.illegalOperand 0
    (cdPeers m).forM fun p => checkDest p.1
    checkAligned (cdCrec m) 16
    let data ← remoteRead ag (cdLaddr m) (cdLength m)
    let p := cdPeer m 0
    let targets := (cdPeers m).map fun p => (dwDevice p.1, p.2.1, p.2.2)
    let after ← gets' fun t => t.sendBehind (targets.map (·.1)) ((cdPeers m).map fun p => (dwDevice p.1, p.2.2)) false
    modS (issueOp (dwDevice p.1) after (fun o => .store o targets (cdCrec m) (cdLength m)) 1
      (fun n => .access (dwDevice p.1)
        { device := ownDevice, op := n, kind := .chain, dest := p.1, raddr := p.2.1, data := data, length := cdLength m,
          rflag := p.2.2, finc := cdFinc m, set := false, peers := (cdPeers m).drop 1, index := 0 })
      (fun o => reportOp o (cdCrec m) (dwDevice p.1) p.2.1 0 0 4 Cause.linkDown 0))) s) s

/-- The target by which the panel switch of a reduce group is reached. -/
def switchOf (group : Nat) : Nat := 2 ^ 21 + group

/-- RMCR: the contribution is read and sent to the panel switch (R376, R377). -/
def execRmcr (a b : Src) (s : State) :=
  remoteFirst (fun s => scalarOp [a, b] .discard (do
    let x ← readSrc a
    let g ← readSrc b
    blockIf ((← gets' fun t => t.xformsOpen))
    trapIf (fld g 12 52 != 0) Cause.illegalOperand 0
    let ag ← thisAgent
    let l ← load ag .vector x 64 64
    let m : MemDesc := BitVec.ofNat 512 (ofBytes l)
    let laddr : Word := BitVec.ofNat 64 (fld m 0 64)
    let daddr : Word := BitVec.ofNat 64 (fld m 64 64)
    checkAligned laddr 8
    trapIf (fld m 162 30 != 0 || fld m 160 2 == 3 || fld m 384 128 != 0 || !lengthOk (mdLength m) ||
      daddr.toNat % 8 != 0) Cause.illegalOperand 0
    checkAligned (mdFlag m) 8
    checkAligned (mdCrec m) 16
    let data ← remoteRead ag laddr (mdLength m)
    remoteProbe ag daddr (mdLength m)
    modS (issueOp (switchOf g.toNat) [] (fun o => .rmcr o (mdCrec m) daddr (mdLength m) (mdFlag m) (mdFinc m)) 1
      (fun n => .rmcr { op := n, group := g.toNat, fmt := fld m 160 2, data := data })
      (fun o => reportOp o (mdCrec m) 0 daddr 0 0 4 Cause.linkDown 0))) s) s

/-! ## Arrival at a target (R370, R373 to R375, R412) -/

/-- The answer to an access. An answer and the forward of a chain come from the device, not from an agent of a glade: they
leave by the links of glade 0 (DESIGN CHOICE, log 62). -/
def answerAccess (m : RemoteAccess) (status cause : Nat) (data : List Byte) (s : State) : State :=
  answer 0 m.device 2 (.accessAck m.device m.op status cause m.index data) s

/-- A chain peer that has taken the data passes it on (R375). -/
def nextPeer (m : RemoteAccess) : Option RemoteAccess :=
  match m.peers with
  | [] => none
  | p :: t => some { m with dest := p.1, raddr := p.2.1, rflag := p.2.2, peers := t, index := m.index + 1 }

/-- What follows the data of an access: its flag, then its answer or the next peer. -/
def finishAccess (ag : Agent) (m : RemoteAccess) (data : List Byte) (s : State) : Option State :=
  match attempt ag (flagOp ag true m.rflag m.finc m.set) s with
  | .wait _ => none
  | .fault c _ t => some (answerAccess m 3 c [] t)
  | .done _ t =>
    match m.kind, nextPeer m with
    | .chain, some n => some { t with forwards := t.forwards ++ [n] }
    | _, _ => some (answerAccess m 0 0 data t)

/-- An access at its target; none while it waits. -/
def arriveAccess (m : RemoteAccess) (s : State) : Option State :=
  if !s.keyOk (dwRcb m.dest) (dwKey m.dest) then some (answerAccess m 3 Cause.windowViolation [] s)
  else
    let ag := s.remoteAgent (dwRcb m.dest)
    match m.kind with
    | .load =>
      match attempt ag (remoteRead ag m.raddr m.length) s with
      | .wait _ => none
      | .fault c _ t => some (answerAccess m 3 c [] t)
      | .done l t => finishAccess ag m l t
    | _ =>
      match attempt ag (remoteWrite ag m.raddr m.data) s with
      | .wait _ => none
      | .fault c _ t => some (answerAccess m 3 c [] t)
      | .done _ t => finishAccess ag m [] t

/-- RCHAIN_FORWARD (R375): the data and the list go to the next peer, by a link of glade 0 (DESIGN CHOICE, log 62); a hop that cannot be reached ends the chain. -/
def execRchainForward (m : RemoteAccess) (s : State) : Host.Outcome State Fault Refusal :=
  if s.forwards.contains m then
    let s1 := { s with forwards := s.forwards.erase m }
    match s1.linkFor 0 (dwDevice m.dest) with
    | some l => .next (transmit l 1 (.access (dwDevice m.dest) m) s1)
    | none => .next (answerAccess m 4 Cause.linkDown [] s1)
  else .next s

/-! ## Answers at the sender (R371, R374, R377) -/

/-- A message that waits for an operation that has ended goes out when that was the last one. -/
def releaseDelayed (op : Nat) (s : State) : State :=
  s.delayed.foldl (fun t d => sendAfter d.op (d.after.filter (· != op)) d.link d.cls d.msg t) { s with delayed := [] }

/-- End an operation: its entry is freed, and what waited for it goes on. -/
def dropOp (op : Nat) (s : State) : State :=
  releaseDelayed op { s with remote := Tab.del s.remote op, delayed := s.delayed.filter fun d => d.op != op }

/-- The answer to a remote store, chain or load; none while its local write waits. -/
def arriveAck (op status cause index : Nat) (data : List Byte) (s : State) : Option State :=
  match Tab.find s.remote op with
  | some (.store o ts crec length) =>
    let t := ts.getD index (0, 0, 0)
    some (reportOp o crec t.1 t.2.1 0 (if status = 0 then length else 0) status cause index (dropOp op s))
  | some (.load o target crec raddr laddr length _) =>
    if status ≠ 0 then some (reportOp o crec target raddr 0 0 status cause 0 (dropOp op s))
    else
      match attempt o.agent (remoteWrite o.agent laddr (fitTo length data)) s with
      | .wait _ => none
      | .fault c _ t => some (reportOp o crec target raddr 0 0 3 c 0 (dropOp op t))
      | .done _ t => some (reportOp o crec target raddr 0 length 0 0 0 (dropOp op t))
  | _ => some s

/-- The delivery of a multicast-reduce at a member: the value, the flag, the record (R377). -/
def arriveRmcr (op status cause : Nat) (data : List Byte) (s : State) : Option State :=
  match Tab.find s.remote op with
  | some (.rmcr o crec daddr length flag finc) =>
    if status ≠ 0 then some (reportOp o crec 0 daddr 0 0 status cause 0 (dropOp op s))
    else
      match attempt o.agent (do
        remoteWrite o.agent daddr (fitTo length data)
        flagOp o.agent false flag finc false) s with
      | .wait _ => none
      | .fault c _ t => some (reportOp o crec 0 daddr 0 0 3 c 0 (dropOp op t))
      | .done _ t => some (reportOp o crec 0 daddr 0 length 0 0 0 (dropOp op t))
  | _ => some s

/-- The bytes that an access reads or writes at its target, its flag among them. -/
def RemoteAccess.spans (s : State) (m : RemoteAccess) : List (Bool × Nat × Nat) :=
  let ag := s.remoteAgent (dwRcb m.dest)
  spansOf s ag m.raddr m.length ++ if m.rflag = 0 then [] else spansOf s ag m.rflag 8

/-- Whether two accesses of one device meet in a byte: they are performed in the order in which they came (R255, R307;
log 55). -/
def RemoteAccess.meets (s : State) (m n : RemoteAccess) : Bool :=
  m.device == n.device && (RemoteAccess.spans s m).any fun x => (RemoteAccess.spans s n).any fun y =>
    spansMeet x y

/-- Whether an earlier access that waits holds an access back. -/
def State.behindHeld (s : State) (m : RemoteAccess) : Bool :=
  s.held.any fun a => match a with | .access n => RemoteAccess.meets s m n | _ => false

/-- An access that has arrived is performed behind the earlier ones that it meets; none while it waits. -/
def accessInOrder (m : RemoteAccess) (s : State) : Option State :=
  if s.behindHeld m then none else arriveAccess m s

/-- REMOTE_ACCESS_RECEIVE (R370). -/
def execRemoteAccessReceive (m : RemoteAccess) (s : State) : Host.Outcome State Fault Refusal :=
  .next (serveArrival (accessInOrder m) (.access m) s)

/-- REMOTE_ACK (R371). -/
def execRemoteAck (op status cause index : Nat) (data : List Byte) (s : State) : Host.Outcome State Fault Refusal :=
  .next (serveArrival (arriveAck op status cause index data) (.ack op status cause index data) s)

/-- RMCR_DELIVERY (R377). -/
def execRmcrDelivery (op status cause : Nat) (data : List Byte) (s : State) : Host.Outcome State Fault Refusal :=
  .next (serveArrival (arriveRmcr op status cause data) (.rmcr op status cause data) s)

/-! ## Remote posts (R334, R337) -/

/-- Write the completion word of a POSTR; one that fails its checks is left out (log 20). None while the write waits. -/
def tryPostWord (o : OpOwner) (crec word : Word) (s : State) : Option State :=
  let ag := { o.agent with det := false, task := none }
  match attempt ag (store ag .remote crec (toBytes 8 word.toNat) 8) s with
  | .done _ t => some t
  | .fault _ _ t => some t
  | .wait _ => none

/-- Write the completion word of a POSTR, if it names one. -/
def writePostWord (o : OpOwner) (crec : Option Word) (word : Word) (s : State) : State :=
  match crec with
  | none => s
  | some a => serveArrival (tryPostWord o a word) (.word o a word) s

/-- Return the fabric charge of an operation at every level it was charged to. -/
def dischargeOp (o : OpOwner) (s : State) : State :=
  o.levels.foldl (fun t a => t.modRcb a fun k => { k with useFabric := k.useFabric - 1 }) s

/-- The acknowledgement of a POSTR: the completion word is written, and the job count falls. -/
def endPost (o : OpOwner) (crec : Option Word) (word : Word) (s : State) : State :=
  let s1 := dischargeOp o (writePostWord o crec word s)
  match o.job with
  | some j => s1.modRcb j fun k => { k with jobCount := k.jobCount - 1 }
  | none => s1

/-- POSTR (R300, R337): the local checks, the fabric budget, and the record is sent, behind the issuer's earlier writes at
the target, its transform commands among them when that is the own device; d of code 56 names no completion word. -/
def execPostr (d : Dst) (a b : Src) (s : State) :=
  scalarOp [a, b, d.asSrc] .discard (do
    let x ← readSrc a
    let w ← readSrc b
    let v ← readSrc d.asSrc
    let crec : Option Word := if d = .discard then none else some v
    let ag ← thisAgent
    trapIf (decide (95 < fld w 21 7) || fld w 60 4 != 0) Cause.illegalOperand w
    checkAligned v 8
    let r ← readRecord ag x
    trapIf (recMalformed r || recGang r) Cause.taskMalformed x
    blockIf ((← gets' fun t => t.xformsOpen && fld w 0 21 == ownDevice))
    blockIf ((← gets' fun t => t.fabricFull t.seq.trcb))
    modS fun t =>
      let t1 := jobCountBy t.seq.trcb true (chargeFabric t.seq.trcb true t)
      let m (n : Nat) : RemotePost :=
        { device := ownDevice, op := n, grove := fld w 21 7, fkey := fld w 28 32, record := r }
      issueOp (fld w 0 21) (t.openWrites (· == fld w 0 21))
        (fun o => .post o (fld w 0 21) crec (m t.nextOp) t.timer false) 5 (fun n => .post (fld w 0 21) (m n))
        (fun o => endPost o crec (postWord 0 4 Cause.linkDown)) t1) s

/-- REMOTE_POST_RECEIVE (R337): a post to a tenant that is being reset is refused (R450); the check of R370, then the post waits for its acceptance slot. -/
def execRemotePostReceive (m : RemotePost) (s : State) : Host.Outcome State Fault Refusal :=
  let r := recRcb m.record
  if s.resetting r then
    .next (answer 0 m.device 5 (.postAck m.device m.op (postWord 0 2 0)) s)
  else if !s.keyOk r m.fkey || decide (95 < m.grove) then
    .next (answer 0 m.device 5 (.postAck m.device m.op (postWord 0 3 Cause.windowViolation)) s)
  else
    .next (s.modGrove m.grove fun g =>
      { g with waiting := g.waiting ++ [{ record := m.record, addr := 0, poster := .remote m.device m.op }] })

/-- POSTR_ACK (R334, R337): in deterministic mode a refused post stays, to be sent again. -/
def execPostrAck (op : Nat) (word : Word) (s : State) : Host.Outcome State Fault Refusal :=
  match Tab.find s.remote op with
  | some (.post o target crec m at_ _) =>
    if o.det = true ∧ fld word 32 8 = 2 then
      .next { s with remote := Tab.put s.remote op (.post o target crec m at_ true) }
    else .next (endPost o crec word (dropOp op s))
  | _ => .next s

/-- Whether a microsecond of device time has passed since an operation was last sent (R334, R390, R461). -/
def State.resendDue (s : State) (at_ : Word) : Bool := decide (1000 ≤ (s.timer - at_).toNat)

/-- POSTR_RESEND (R334): the refused post is sent again, 1 µs after it was last sent. -/
def execPostrResend (op : Nat) (s : State) : Host.Outcome State Fault Refusal :=
  match Tab.find s.remote op with
  | some (.post o target crec m at_ true) =>
    if !s.resendDue at_ then .next s
    else match s.linkFor o.core target with
    | some l =>
      .next (transmit l 5 (.post target m)
        { s with remote := Tab.put s.remote op (.post { o with link := l } target crec m s.timer false) })
    | none => .next (endPost o crec (postWord 0 4 Cause.linkDown) (dropOp op s))
  | _ => .next s

end Sys2Proof.Machine
end

