-- ==== Sys2Proof/Machine/Pull.lean ====
section
/-! DEFINITION. The pull class: BSEND, BRECV, BSTAT, matching, the grant scheduler, tokens and data, expiry and
orphaning, suspension and resumption, and the loss of a link (R367, R378 to R391). -/

namespace Sys2Proof.Machine

/-! ## Tables -/

def Req.isFor (device id : Nat) (r : Req) : Bool := r.device == device && r.id == id
def State.req (s : State) (device id : Nat) : Option Req := s.reqs.find? (Req.isFor device id)
def State.modReq (s : State) (device id : Nat) (f : Req → Req) : State :=
  { s with reqs := s.reqs.map fun r => if r.isFor device id then f r else r }
def State.dropReq (s : State) (device id : Nat) : State := { s with reqs := s.reqs.filter fun r => !r.isFor device id }
def State.sendOf (s : State) (id : Nat) : Option Send := Tab.find s.sends id
def State.setSend (s : State) (id : Nat) (x : Send) : State := { s with sends := Tab.put s.sends id x }

/-- The agent of the accesses that the device makes for a posted receive. -/
def State.recvAgent (s : State) (r : Recv) : Agent := s.unitAgent r.core r.rcb 10 false none

/-- Whose the record of a posted receive is: its block, at the core that posted it. -/
def State.recvOwner (s : State) (r : Recv) : OpOwner :=
  { core := r.core, tenant := s.tenantOf r.rcb, rcb := r.rcb, levels := [], job := none, by_ := ⟨r.core, .K, .pipe⟩,
    task := none, pc := 0, order := 0, det := false, link := none }

/-- Tell a message's sender (R382, R385). -/
def noticeTo (core device id status cause : Nat) (s : State) : State :=
  answer core device 3 (.notice device id status cause) s

/-- A receive that its request cannot use is released at once, and its record written (R381). -/
def endRecv (n : Nat) (r : Recv) (device tag bytes status cause : Nat) (s : State) : State :=
  { writeCrec (s.recvOwner r) r.crec device tag bytes status cause 0 s with recvs := Tab.del s.recvs n }

/-- A request that is DONE (6) or ORPHANED (7) becomes FREE with its receive when the record of the receive has been
written; after DONE the sender is told then (R382 to R384). None while the record waits. -/
def arriveRecvEnd (device id : Nat) (s : State) : Option State :=
  match s.req device id with
  | none => some s
  | some r =>
    match r.recv with
    | none => some s
    | some n =>
      match Tab.find s.recvs n with
      | none => some s
      | some v =>
        let status := if r.state = 7 then 5 else 0
        (tryCrec (s.recvAgent v) v.crec device r.tag r.received status 0 0 s).map fun t =>
          let t1 := { t.dropReq device id with recvs := Tab.del t.recvs n }
          if status = 0 then noticeTo v.core device id 0 0 t1 else t1

/-- A request becomes DONE or ORPHANED: nothing more of it is granted or taken, and its record is written. -/
def closeReq (device id state : Nat) (s : State) : State :=
  serveArrival (arriveRecvEnd device id) (.recvEnd device id)
    (s.modReq device id fun r => { r with state := state, tokens := [], lapsed := [] })

/-- An outgoing message that has ENDED (6) becomes FREE when its record has been written, and its fabric charge returns
(R385). None while the record waits. -/
def arriveSendEnd (id bytes status cause : Nat) (s : State) : Option State :=
  match s.sendOf id with
  | none => some s
  | some x =>
    let free (t : State) : State := dischargeOp x.owner { t with sends := Tab.del t.sends id }
    if x.crec = 0 then some (free (if status = 0 then s else pendRemote x.owner cause 0 s))
    else (tryCrec x.owner.agent x.crec (dwDevice x.dest) x.tag bytes status cause 0 s).map free

/-- The end of an outgoing message (R385). -/
def endSend (id : Nat) (x : Send) (bytes status cause : Nat) (s : State) : State :=
  serveArrival (arriveSendEnd id bytes status cause) (.sendEnd id bytes status cause)
    (s.setSend id { x with state := 6, tokens := [] })

/-! ## BSEND (R378, R379, R389) -/

/-- The request of a message with its prefix (R379). -/
def requestOf (id : Nat) (x : Send) (pfx : List Byte) : PullRequest :=
  { device := ownDevice, id := id, rcb := dwRcb x.dest, fkey := dwKey x.dest, length := x.length, tag := x.tag,
    cls := x.cls, pfx := pfx }

/-- The request of a message in PREFIX (1) goes out with the prefix, which is read now; a message whose bytes cannot be
read ends (log 21). None while the read waits. -/
def arriveRequest (id : Nat) (s : State) : Option State :=
  match s.sendOf id with
  | none => some s
  | some x =>
    if x.state ≠ 1 then some s
    else
      let p := min x.length (s.advertisedOf (dwDevice x.dest) x.cls)
      match attempt x.owner.agent (loadRange x.owner.agent .engine x.laddr p) s with
      | .done l t =>
        some (transmit x.owner.link 3 (.request (dwDevice x.dest) (requestOf id x l))
          (t.setSend id { x with state := 2, sent := p, pfxEnd := p, asked := true, sentAt := t.timer, refused := false }))
      | .fault c _ t => some (endSend id x 0 3 c t)
      | .wait _ => none

/-- Send the request of a message (R378, R379). -/
def sendRequest (id : Nat) (x : Send) (s : State) : State :=
  serveArrival (arriveRequest id) (.request id) (s.setSend id { x with state := 1 })

/-- The fields of a message or receive descriptor (R378, R380). -/
abbrev MsgDesc := BitVec 512
def bdAddr (m : MsgDesc) : Word := BitVec.ofNat 64 (fld m 0 64)
def bdLength (m : MsgDesc) : Nat := fld m 64 40
def bdTag (m : MsgDesc) : Nat := fld m 128 32
def bdCls (m : MsgDesc) : Nat := fld m 160 2
def bdMask (m : MsgDesc) : Nat := fld m 160 32
def bdCrec (m : MsgDesc) : Word := BitVec.ofNat 64 (fld m 192 64)

/-- The destination word and the tag base of a message (R370, R389, R403). -/
def resolveRoute (w : Word) : M (Word × Nat) :=
  if dwRoute w then do
    trapIf (fld w 12 51 != 0) Cause.illegalOperand w
    let e ← gets' fun t => Tab.get 0 t.route (fld w 0 12)
    trapIf (!bit e 96) Cause.routeInvalid (BitVec.ofNat 64 (fld w 0 12))
    pure (BitVec.ofNat 64 (fld e 0 64), fld e 64 32)
  else pure (w, 0)

/-- A number that no live message has: which one is the device's choice (R378; log 12). -/
def State.freeMsg (s : State) : Nat :=
  (((List.range 1025).map fun k => (Config.freeNumber s.fresh + k) % 2 ^ 32).find? fun n => !Tab.has s.sends n).getD 0

def execBsend (d : Dst) (a b : Src) (nb : Bool) (s : State) :=
  remoteFirst (fun s => scalarOp [a, b] d (do
    let x ← readSrc a
    let w ← readSrc b
    let ag ← thisAgent
    let l ← load ag .vector x 64 64
    let m : MsgDesc := BitVec.ofNat 512 (ofBytes l)
    trapIf (fld m 104 24 != 0 || fld m 162 30 != 0 || fld m 256 256 != 0) Cause.illegalOperand 0
    checkAligned (bdCrec m) 16
    let r ← resolveRoute w
    blockIf ((← gets' fun t => t.fabricFull t.seq.trcb))
    if (← gets' fun t => decide (1024 ≤ t.sends.length)) then
      (if nb && !s.seq.detm then writeDst d (2 ^ 32) else block)
    else do
      let id ← gets' fun t => t.freeMsg
      modS fun t =>
        let o := t.opOwner none
        let msg (o : OpOwner) : Send :=
          { owner := o, dest := r.1, laddr := bdAddr m, length := bdLength m, tag := (r.2 + bdTag m) % 2 ^ 32,
            cls := bdCls m, crec := bdCrec m, state := 1, sent := 0, pfxEnd := 0
            asked := false, sentAt := t.timer, refused := false, tokens := [] }
        let t1 := chargeFabric t.seq.trcb true t
        match t1.linkFor t1.cur.core (dwDevice r.1) with
        | some lk => sendRequest id (msg { o with link := lk }) t1
        | none => endSend id (msg o) 0 4 Cause.linkDown t1
      writeDst d (BitVec.ofNat 64 id)) s) s

/-! ## Matching (R380, R381) -/

/-- Whether a request and a posted receive match. -/
def matchesRecv (rcb tag : Nat) (v : Recv) : Bool :=
  v.req.isNone && v.rcb == rcb && (tag &&& v.tmask) == (v.tag &&& v.tmask)

/-- A matched request without bytes to come is done at both ends (R379, R382). -/
def finishIfDone (device id : Nat) (s : State) : State :=
  match s.req device id with
  | none => s
  | some r =>
    if r.recv.isNone || decide (r.received < r.length) then s else closeReq device id 6 s

/-- A request that its receive cannot take, or whose buffer cannot be written, is rejected at both ends. -/
def rejectMatch (n : Nat) (v : Recv) (device id tag bytes cause : Nat) (s : State) : State :=
  noticeTo v.core device id 3 cause (endRecv n v device tag bytes 3 cause (s.dropReq device id))

/-- The prefix bytes of a matched request land in the buffer and count as received (R379). None while the write waits:
nothing of the request is granted before. -/
def arrivePrefix (device id n : Nat) (p : List Byte) (s : State) : Option State :=
  match s.req device id, Tab.find s.recvs n with
  | some r, some v =>
    if r.state ≠ 2 ∨ r.recv ≠ some n then some s
    else
      match attempt (s.recvAgent v) (storeRange (s.recvAgent v) .engine v.buf p) s with
      | .fault c _ t => some (rejectMatch n v device id r.tag 0 c t)
      | .wait _ => none
      | .done _ t =>
        some (finishIfDone device id (t.modReq device id fun r =>
          { r with pfx := p.length, next := p.length, received := p.length, lastData := t.timer }))
  | _, _ => some s

/-- Match a request in the table with receive `n`, with the prefix bytes that came with it. -/
def matchReq (device id n : Nat) (pfx : List Byte) (s : State) : State :=
  match s.req device id, Tab.find s.recvs n with
  | some r, some v =>
    if v.cap < r.length then rejectMatch n v device id r.tag 0 Cause.messageSize s
    else
      let p := pfx.take (min r.length (s.prefixOf r.cls))
      let s1 := { s with recvs := Tab.put s.recvs n { v with req := some (device, id) } }
      serveArrival (arrivePrefix device id n p) (.pfx device id n p)
        (s1.modReq device id fun r => { r with state := 2, recv := some n, lastData := s1.timer })
  | _, _ => s

/-- PULL_REQUEST_ARRIVE (R370, R381): a request is matched, held or refused. -/
def execPullRequestArrive (m : PullRequest) (s : State) : Host.Outcome State Fault Refusal :=
  if !s.keyOk m.rcb m.fkey then .next (noticeTo 0 m.device m.id 3 Cause.windowViolation s)
  else if 4096 ≤ s.reqs.length then .next (noticeTo 0 m.device m.id 2 0 s)
  else
    let r : Req :=
      { device := m.device, id := m.id, rcb := m.rcb, length := m.length, tag := m.tag, cls := m.cls,
        order := s.nextOrder, state := 1, recv := none, pfx := 0, next := 0, received := 0, lapsed := [], tokens := [],
        gens := [], expiries := 0, lastData := s.timer, lives := [] }
    let s1 := { s with reqs := s.reqs ++ [r], nextOrder := s.nextOrder + 1 }
    match oldestBy (fun e => e.2.order) (s1.recvs.filter fun e => matchesRecv m.rcb m.tag e.2) with
    | some e => .next (matchReq m.device m.id e.1 m.pfx s1)
    | none => .next s1

/-- The lowest free receive id (R380; log 12). -/
def State.freeRecv (s : State) : Option Nat :=
  ((List.range 1024).map fun k => (Config.freeNumber s.fresh + k) % 1024).find? fun n => !Tab.has s.recvs n

def execBrecv (d : Dst) (a : Src) (nb : Bool) (s : State) :=
  remoteFirst (fun s => scalarOp [a] d (do
    let x ← readSrc a
    let ag ← thisAgent
    let l ← load ag .vector x 64 64
    let m : MsgDesc := BitVec.ofNat 512 (ofBytes l)
    trapIf (fld m 104 24 != 0 || fld m 256 256 != 0 || bdCrec m == 0) Cause.illegalOperand 0
    checkAligned (bdCrec m) 16
    match (← gets' fun t => t.freeRecv) with
    | none => if nb && !s.seq.detm then writeDst d (2 ^ 32) else block
    | some n => do
      modS fun t =>
        let v : Recv :=
          { buf := bdAddr m, cap := bdLength m, tag := bdTag m, tmask := bdMask m, crec := bdCrec m, rcb := ag.rcb,
            order := t.nextOrder, core := ag.core, req := none }
        let t1 := { t with recvs := Tab.put t.recvs n v, nextOrder := t.nextOrder + 1 }
        match oldestBy Req.order (t1.reqs.filter fun r => r.state == 1 && matchesRecv r.rcb r.tag v) with
        | some r => matchReq r.device r.id n [] t1
        | none => t1
      writeDst d (BitVec.ofNat 64 n)) s) s

/-! ## The grant scheduler (R382) -/

/-- Bytes of a request that no token has been granted for. -/
def Req.rangeAt (r : Req) (offset : Nat) : Nat := min 8192 (r.length - offset)
def Req.ungranted (r : Req) : Nat := (r.length - r.next) + (r.lapsed.map r.rangeAt).sum

/-- Whether a request takes part in a grant. -/
def Req.candidate (r : Req) : Bool :=
  (r.state == 2 || r.state == 3 || r.state == 4) && r.recv.isSome && decide (0 < r.ungranted) &&
    decide (r.tokens.length < 4)

/-- Whether the prefix of a request still waits to be written. -/
def State.prefixHeld (s : State) (r : Req) : Bool :=
  s.held.any fun a => match a with | .pfx d i _ _ => r.isFor d i | _ => false

/-- The order of candidates: class, ungranted bytes, arrival. -/
def Req.before (a b : Req) : Bool :=
  if a.cls ≠ b.cls then decide (a.cls < b.cls)
  else if a.ungranted ≠ b.ungranted then decide (a.ungranted < b.ungranted)
  else decide (a.order ≤ b.order)

/-- The candidate that ranks first. -/
def firstReq : List Req → Option Req
  | [] => none
  | a :: t => match firstReq t with
    | none => some a
    | some b => if a.before b then some a else some b

/-- Devices that hold tokens, and tokens outstanding. -/
def State.holders (s : State) : List Nat := ((s.reqs.filter fun r => !r.tokens.isEmpty).map (·.device)).eraseDups
def State.tokensOut (s : State) : Nat := (s.reqs.map fun r => r.tokens.length).sum

/-- The offset that a request is granted next: its lowest lapsed range, else the next one. -/
def Req.grantAt (r : Req) : Nat := match oldestBy (fun o => o) r.lapsed with | some o => o | none => r.next

/-- The device timer from which the 8 µs of a token are counted: now, or earlier when a suspension has left the range a
shorter lifetime (R383, R387). -/
def Req.startAt (r : Req) (offset : Nat) (now : Word) : Word := now - BitVec.ofNat 64 (8000 - Tab.get 8000 r.lives offset)

/-- TOKEN_GRANT (R382): the scheduler grants the next range of the candidate that ranks first. -/
def execTokenGrant (s : State) : Host.Outcome State Fault Refusal :=
  let hs := s.holders
  let ok (r : Req) : Bool := r.candidate && !s.prefixHeld r && (hs.contains r.device || decide (hs.length < 16))
  match if s.tokensOut < 64 then firstReq (s.reqs.filter ok) else none with
  | none => .next s
  | some r =>
    let o := r.grantAt
    let n := r.rangeAt o
    let g := Tab.get 0 r.gens o
    let tok : Token := { device := r.device, id := r.id, offset := o, count := n, gen := g }
    let fresh := r.received == 0 && r.tokens.isEmpty && r.lapsed.isEmpty
    let r1 : Req :=
      { r with
        tokens := r.tokens ++ [{ offset := o, count := n, gen := g, got := 0, at_ := r.startAt o s.timer }]
        lives := Tab.set 8000 r.lives o 8000
        lapsed := r.lapsed.erase o
        next := if r.lapsed.isEmpty then o + n else r.next
        state := if r.state = 4 then 4 else 3
        lastData := if fresh then s.timer else r.lastData }
    let core := match r.recv with
      | some k => match Tab.find s.recvs k with | some v => v.core | none => 0
      | none => 0
    .next (answer core r.device 3 (.token r.device tok) (s.modReq r.device r.id fun _ => r1))

/-- The bytes of the tokens that a message in SENDING (3) holds are read and sent, oldest token first; behind the last one
the message is in WAIT (2) again (R385). None while a read waits. -/
def serveTokens (id : Nat) : Nat → State → Option State
  | 0, s => some s
  | fuel + 1, s =>
    match s.sendOf id with
    | none => some s
    | some x =>
      match if x.state = 3 then x.tokens else [] with
      | [] => some s
      | t :: rest =>
        match attempt x.owner.agent (loadRange x.owner.agent .engine (x.laddr + BitVec.ofNat 64 t.offset) t.count) s with
        | .done l u =>
          let y := { x with state := if rest.isEmpty then 2 else 3, sent := x.sent + t.count, tokens := rest }
          serveTokens id fuel (transmit x.owner.link 4 (.data (dwDevice x.dest) t l) (u.setSend id y))
        | .fault c _ u => some (endSend id x x.sent 3 c u)
        | .wait _ => none

/-- Serve every token that a message holds. -/
def arriveTokens (id : Nat) (s : State) : Option State :=
  serveTokens id (match s.sendOf id with | some x => x.tokens.length | none => 0) s

/-- PULL_TOKEN_RECEIVE (R385): the sender takes a token, reads the bytes that it names and sends them. -/
def execPullTokenReceive (t : Token) (s : State) : Host.Outcome State Fault Refusal :=
  match s.sendOf t.id with
  | none => .next s
  | some x =>
    if (x.state ≠ 2 ∧ x.state ≠ 3) ∨ x.length < t.offset + t.count then .next s
    else
      let s1 := s.setSend t.id { x with state := 3, tokens := x.tokens ++ [t] }
      let waits := s.held.any fun a => match a with | .tokens i => i == t.id | _ => false
      .next (if waits then s1 else serveArrival (arriveTokens t.id) (.tokens t.id) s1)

/-! ## Data, expiry, orphaning (R382, R383) -/

/-- The token of a request that data or an expiry names. -/
def Req.token (r : Req) (offset gen : Nat) : Option Granted := r.tokens.find? fun g => g.offset == offset && g.gen == gen

/-- A request after `n` bytes of a token have arrived. -/
def Req.took (r : Req) (g : Granted) (n : Nat) (now : Word) : Req :=
  let g1 := { g with got := g.got + n }
  { r with
    tokens := if g.count ≤ g1.got then r.tokens.erase g else r.tokens.map fun h => if h = g then g1 else h
    received := r.received + n, expiries := 0, lastData := now
    state := if r.state = 4 then 3 else r.state }

/-- Data at the receiver; none while it waits. Data of no outstanding token is dropped and counted. -/
def arriveData (t : Token) (start : Nat) (bytes : List Byte) (s : State) : Option State :=
  match s.req t.device t.id with
  | none => some (count 0 0xC2 1 s)
  | some r =>
    match r.token t.offset t.gen, r.recv with
    | some g, some n =>
      match Tab.find s.recvs n with
      | none => some (count 0 0xC2 1 s)
      | some v =>
        if g.got ≠ start ∨ g.count < start + bytes.length then some (count 0 0xC2 1 s)
        else
          let ag := s.recvAgent v
          match attempt ag (storeRange ag .engine (v.buf + BitVec.ofNat 64 (t.offset + start)) bytes) s with
          | .wait _ => none
          | .fault c _ u => some (rejectMatch n v t.device t.id r.tag r.received c u)
          | .done _ u =>
            some (finishIfDone t.device t.id (u.modReq t.device t.id fun r => r.took g bytes.length u.timer))
    | _, _ => some (count 0 0xC2 1 s)

/-- PULL_DATA_ARRIVE (R382). -/
def execPullDataArrive (t : Token) (start : Nat) (data : List Byte) (s : State) : Host.Outcome State Fault Refusal :=
  .next (serveArrival (arriveData t start data) (.data t start data) s)

/-- A token's range lapses: the next generation, and the range is to be granted again (R383). -/
def Req.lapse (r : Req) (g : Granted) : Req :=
  { r with
    tokens := r.tokens.erase g
    lapsed := if r.lapsed.contains g.offset then r.lapsed else r.lapsed ++ [g.offset]
    received := r.received - g.got
    gens := Tab.set 0 r.gens g.offset ((g.gen + 1) % 2 ^ 16) }

/-- TOKEN_EXPIRY (R383): a token without data for 8 µs expires; at three expiries the request is stalled, with the message's
id as the value of the event (R434). -/
def execTokenExpiry (device id offset : Nat) (s : State) : Host.Outcome State Fault Refusal :=
  match s.req device id with
  | none => .next s
  | some r =>
    match r.tokens.find? fun g => g.offset == offset && g.got == 0 && decide (8000 ≤ (s.timer - g.at_).toNat) with
    | none => .next s
    | some g =>
      let n := min 3 (r.expiries + 1)
      let stalls := n == 3 && r.state != 4
      let r1 := { r.lapse g with expiries := n, state := if n = 3 then 4 else r.state }
      let s1 := count 0 0xC4 1 (s.modReq device id fun _ => r1)
      .next (if stalls then event Cause.tokenStalled r.rcb 0 10 (BitVec.ofNat 64 id) s1 else s1)

/-- ORPHANED (R383): a request without data for 256 µs is given up; the event's value is the message's id (R434). -/
def execOrphaned (device id : Nat) (s : State) : Host.Outcome State Fault Refusal :=
  match s.req device id with
  | none => .next s
  | some r =>
    match r.recv with
    | none => .next s
    | some n =>
      match Tab.find s.recvs n with
      | none => .next s
      | some v =>
        if (r.state = 3 ∨ r.state = 4) ∧ (!r.tokens.isEmpty || !r.lapsed.isEmpty) = true ∧
            256000 ≤ (s.timer - r.lastData).toNat then
          .next (noticeTo v.core device id 5 0
            (event Cause.orphaned r.rcb v.core 10 (BitVec.ofNat 64 id) (closeReq device id 7 s)))
        else .next s

/-! ## The sender's side (R385, R390) -/

/-- PULL_COMPLETE_NOTICE (R385): the sender writes its record; in deterministic mode a refused request stays. -/
def execPullCompleteNotice (id status cause : Nat) (s : State) : Host.Outcome State Fault Refusal :=
  match s.sendOf id with
  | none => .next s
  | some x =>
    if x.owner.det = true ∧ status = 2 then .next (s.setSend id { x with refused := true })
    else .next (endSend id x (if status = 0 then x.length else x.sent) status cause s)

/-- Whether the refused request of a message that WAITs (2) is to be sent again, 1 µs after it was last sent (R385, R390). -/
def State.resends (s : State) (x : Send) : Bool := x.refused && x.state == 2 && s.resendDue x.sentAt

/-- BSEND_RESEND (R390): a refused request is sent again. -/
def execBsendResend (id : Nat) (s : State) : Host.Outcome State Fault Refusal :=
  match s.sendOf id with
  | some x => .next (if s.resends x then sendRequest id { x with refused := false } s else s)
  | none => .next s

/-- BSTAT (R390): the state of a message or a receive, or of the scheduler. -/
def execBstat (d : Dst) (a : Src) (f : BstatWord) (s : State) :=
  remoteFirst (fun s => scalarOp [a] d (do
    let x ← readSrc a
    trapIf s.seq.detm Cause.detEscape 0
    trapIf (fld x 32 32 != 0 || (f == .sched && x != 0)) Cause.illegalOperand 0
    let v : Nat := match f with
      | .send => match s.sendOf x.toNat with
        | some m => m.state + m.sent % 2 ^ 40 * 2 ^ 8
        | none => 0
      | .recv =>
        match (match Tab.find s.recvs x.toNat with | some v => v.req | none => none) with
        | some (dv, id) => match s.req dv id with
          | some r => r.state + r.expiries * 2 ^ 4 + r.received % 2 ^ 40 * 2 ^ 8
          | none => 0
        | none => 0
      | .sched => s.reqs.length + s.holders.length * 2 ^ 13 + s.tokensOut * 2 ^ 18
    writeDst d (BitVec.ofNat 64 v)) s) s

/-! ## Suspension and resumption (R386 to R388) -/

/-- A range as a 160-bit list with valid bits (R387): up to four offsets of 40 bits, then a bit for each. -/
def lapsedBits (l : List Nat) : Nat :=
  ((List.range 4).map fun k => l.getD k 0 % 2 ^ 40 * 2 ^ (41 * k) + (if k < l.length then 2 ^ (41 * k + 40) else 0)).sum

/-- Pack fields from bit 0 on, each at its width. -/
def packFields : List (Nat × Nat) → Nat
  | [] => 0
  | (w, v) :: t => v % 2 ^ w + 2 ^ w * packFields t

/-- Bytes that tokens have been granted for: the prefix and the ranges that have lapsed do not count (R387; log 43). -/
def Req.grantedBytes (r : Req) : Nat := r.next - r.pfx - (r.lapsed.map r.rangeAt).sum

/-- What is left of a time limit, in ns. -/
def lifeLeft (total : Nat) (now since : Word) : Nat := total - (now - since).toNat

/-- The 128-byte record of a suspended request (R387); `now` is the device timer. -/
def Req.image (r : Req) (now : Word) : List Byte :=
  toBytes 128 (packFields
    [(32, r.id), (21, r.device), (2, r.cls), (32, r.tag), (10, r.recv.getD 0), (40, r.grantedBytes), (40, r.received),
     (40, r.next), (164, lapsedBits (r.lapsed ++ r.tokens.map (·.offset))), (2, r.expiries),
     (32, lifeLeft 256000 now r.lastData), (128, packFields (r.tokens.map fun g => (32, lifeLeft 8000 now g.at_)))])

/-- The 128-byte record of a suspended message (R388). -/
def Send.image (id : Nat) (x : Send) : List Byte :=
  toBytes 128 (packFields
    [(32, id), (64, x.dest.toNat), (64, x.laddr.toNat), (40, x.length), (32, x.tag), (2, x.cls), (64, x.crec.toNat),
     (40, x.pfxEnd)])

/-- Save a record in the lowest free slot of the save area (R386); with no free slot the table entry alone holds it
(log 22). -/
def saveRecord (v : Saved) (bytes : List Byte) (s : State) : State :=
  match (List.range (min 8192 (s.saveSize.toNat / 128))).find? fun k => !Tab.has s.saved k with
  | none => s
  | some k => { deviceWrite 0 10 (s.saveBase.toNat + 128 * k) bytes s with saved := Tab.put s.saved k v }

/-- Free the slot of a record. -/
def dropSaved (v : Saved) (s : State) : State := { s with saved := s.saved.filter fun e => e.2 != v }

/-- A suspended request: its tokens end, their ranges lapse, and what is left of the lifetimes is kept (R387). -/
def Req.suspended (r : Req) (now : Word) : Req :=
  { r.tokens.foldl Req.lapse r with
    state := 5
    lastData := now - r.lastData
    lives := r.tokens.foldl (fun t g => Tab.set 8000 t g.offset (lifeLeft 8000 now g.at_)) r.lives }

/-- Suspend one request. -/
def suspendReq (r : Req) (s : State) : State :=
  saveRecord (.req r.device r.id) (r.image s.timer) (s.modReq r.device r.id fun r => r.suspended s.timer)

/-- Suspend one message, and tell its receiver (R388). -/
def suspendSend (id : Nat) (x : Send) (s : State) : State :=
  transmit x.owner.link 3 (.suspend (dwDevice x.dest) id)
    (saveRecord (.send id) (x.image id) (s.setSend id { x with state := 5, tokens := [] }))

/-- Suspend the requests and messages that tests pick (R386). -/
def suspendPull (reqs : Req → Bool) (sends : Send → Bool) (s : State) : State :=
  let live (r : Req) : Bool := r.state == 2 || r.state == 3 || r.state == 4
  let s1 := (s.reqs.filter fun r => live r && reqs r).foldl (fun t r => suspendReq r t) s
  (s1.sends.filter fun e => decide (e.2.state < 5) && sends e.2).foldl (fun t e => suspendSend e.1 e.2 t) s1

/-- A request goes on: it is matched, and its timers restart from what was left (R387). One that a sender suspended before
it was matched is unmatched again, and takes the oldest receive that it matches (log 56). -/
def resumeReq (device id : Nat) (s : State) : State :=
  match s.req device id with
  | none => s
  | some r =>
    if r.state ≠ 5 then s
    else
      let s1 := dropSaved (.req device id) (s.modReq device id fun r =>
        { r with state := if r.recv.isSome then 2 else 1, lastData := s.timer - r.lastData })
      if r.recv.isSome then s1
      else match oldestBy (fun e => e.2.order) (s1.recvs.filter fun e => matchesRecv r.rcb r.tag e.2) with
        | some e => matchReq device id e.1 [] s1
        | none => s1

/-- A message goes on: the sender asks its receiver to resume (R388); one whose request has not been sent sends it
(log 56). -/
def resumeSend (id : Nat) (x : Send) (s : State) : State :=
  let s1 := dropSaved (.send id) s
  if x.asked then transmit x.owner.link 3 (.resume (dwDevice x.dest) id x.pfxEnd) (s1.setSend id { x with state := 2 })
  else sendRequest id x s1

/-- The suspend bit of FSUSP. -/
def fsuspSuspend (rcb : Nat) (s : State) : State :=
  suspendPull (fun r => s.under rcb r.rcb) (fun x => s.under rcb x.owner.rcb) { s with fsusp := rcb }

/-- FSUSP_SUSPEND (R386, R451). -/
def execFsuspSuspend (rcb : Nat) (s : State) : Host.Outcome State Fault Refusal := onRegister (fsuspSuspend rcb) s

/-- The resume bit of FSUSP. -/
def fsuspResume (rcb : Nat) (s : State) : State :=
  let rs := s.reqs.filter fun r => r.state == 5 && s.under rcb r.rcb
  let ms := s.sends.filter fun e => e.2.state == 5 && s.under rcb e.2.owner.rcb
  let s1 := rs.foldl (fun t r => resumeReq r.device r.id t) { s with fsusp := rcb }
  ms.foldl (fun t e => resumeSend e.1 e.2 t) s1

/-- FSUSP_RESUME (R387, R388, R451). -/
def execFsuspResume (rcb : Nat) (s : State) : Host.Outcome State Fault Refusal := onRegister (fsuspResume rcb) s

/-- PULL_SUSPEND_NOTICE (R388): the receiver holds the request. -/
def execPullSuspendNotice (device id : Nat) (s : State) : Host.Outcome State Fault Refusal :=
  .next (s.modReq device id fun r =>
    if 1 ≤ r.state ∧ r.state ≤ 4 then r.suspended s.timer else r)

/-- PULL_RESUME_REQUEST (R388): the receiver goes on; prefix bytes beyond what arrived are pulled with tokens. -/
def execPullResumeRequest (device id _offset : Nat) (s : State) : Host.Outcome State Fault Refusal :=
  .next (resumeReq device id s)

/-! ## The loss of a link (R367) -/

/-- End a remote operation as unreachable. -/
def unreachableOp (n : Nat) (op : RemoteOp) (s : State) : State :=
  let s1 := dropOp n s
  match op with
  | .post o _ crec _ _ _ => endPost o crec (postWord 0 4 Cause.linkDown) s1
  | .store o ts crec _ =>
    let t := ts.getD 0 (0, 0, 0)
    reportOp o crec t.1 t.2.1 0 0 4 Cause.linkDown 0 s1
  | .load o target crec raddr _ _ _ => reportOp o crec target raddr 0 0 4 Cause.linkDown 0 s1
  | .rmcr o crec daddr _ _ _ => reportOp o crec 0 daddr 0 0 4 Cause.linkDown 0 s1

/-- The chain forwards of other devices that a link has not delivered (R375). -/
def Link.forwards (l : Link) : List RemoteAccess := (l.replay.filterMap (·.fwd) ++ l.queue.filterMap (·.fwd)).eraseDups

/-- LINK_DOWN (R367): a link that has reached a limit goes down: the event, and what waits on the link ends unreachable at
its sender; the sender of a chain whose forward is lost is told (R375). -/
def execLinkDown (link : Nat) (s : State) : Host.Outcome State Fault Refusal :=
  if !(s.link link).lost s.timer then .next s
  else
    let s1 := s.modLink link fun l => { l with up := false, replay := [], queue := [], replays := 0 }
    let s2 := event Cause.linkDown 0 (192 * (link / 2)) 10 0 s1
    let s3 := (s2.remote.filter fun e => e.2.owner.link == some link).foldl (fun t e => unreachableOp e.1 e.2 t) s2
    let s4 := (s3.sends.filter fun e => e.2.owner.link == some link && e.2.state != 6).foldl
      (fun t e => endSend e.1 e.2 e.2.sent 4 Cause.linkDown t) s3
    .next ((s.link link).forwards.foldl (fun t m => answerAccess m 4 Cause.linkDown [] t) s4)

/-! ## Arrivals that wait -/

/-- Try an arrival again. -/
def retryArrival (a : Arrival) (s : State) : State :=
  match a with
  | .access m => serveArrival (accessInOrder m) a s
  | .ack op st c i d => serveArrival (arriveAck op st c i d) a s
  | .rmcr op st c d => serveArrival (arriveRmcr op st c d) a s
  | .data t n d => serveArrival (arriveData t n d) a s
  | .pfx d i n l => serveArrival (arrivePrefix d i n l) a s
  | .record o crec d tag n st c i => serveArrival (tryCrec o.agent crec d tag n st c i) a s
  | .word o crec w => serveArrival (tryPostWord o crec w) a s
  | .sendEnd id n st c => serveArrival (arriveSendEnd id n st c) a s
  | .recvEnd d i => serveArrival (arriveRecvEnd d i) a s
  | .request id => serveArrival (arriveRequest id) a s
  | .tokens id => serveArrival (arriveTokens id) a s

/-- Try every arrival that waits again, oldest first. -/
def retryHeld (s : State) : State := s.held.foldl (fun t a => retryArrival a t) { s with held := [] }

end Sys2Proof.Machine
end

