-- ==== Sys2Proof/Machine/Wake.lean ====
section
/-! DEFINITION. The waking of what waits: blocked instructions, and arrivals from the fabric (R28, R76, R189, R242,
R257, R443). -/

namespace Sys2Proof.Machine

/-- A blocked instruction is attempted again next, and what has arrived and waits is tried again (R28, R76). -/
def wake (st : Stream) (s : State) : State :=
  let t := retryHeld s
  { t with agenda := .run st :: t.agenda }

def execBlockedWake (core seq sub : Nat) (s : State) : Host.Outcome State Fault Refusal :=
  .next (wake ⟨core, SeqKind.ofCode seq, Sub.ofCode sub⟩ s)
def execWaitaReevaluate (core seq : Nat) (s : State) : Host.Outcome State Fault Refusal :=
  .next (wake ⟨core, SeqKind.ofCode seq, .pipe⟩ s)
def execYieldExpire (core seq : Nat) (s : State) : Host.Outcome State Fault Refusal :=
  .next (wake ⟨core, SeqKind.ofCode seq, .pipe⟩ s)

end Sys2Proof.Machine
end

