-- ==== Sys2Proof/Machine/Preempt.lean ====
section
/-! DEFINITION. Pre-emption: CTXSW in its three forms, the halt of a grove, the exchange with the understories, the
images of contexts, and the grove controls of the host (R386, R437 to R439, R442, R445, R451). -/

namespace Sys2Proof.Machine

/-! ## Requests (R437, R445, R451) -/

/-- The checks of CTXSW: privilege, then the grove. -/
def ctxswGrove (a : Src) : M Nat := do
  let s ← gets' id
  trapIf (s.seq.trcb != 0) Cause.privileged 0
  let x ← readSrc a
  trapIf (decide (95 < x.toNat) || x.toNat == groveOf s.cur.core) Cause.illegalOperand x
  pure x.toNat

/-- A CTXSW that cannot act yet takes its place in the order of arrival of the grove's requests (R445). -/
def joinTurn (g : Nat) (s : State) : State :=
  s.modGrove g fun k => if k.pre.contains (.copy s.cur) then k else { k with pre := k.pre ++ [.copy s.cur] }

/-- The requests of every grove without the waiting CTXSW of a stream. -/
def leftTurn (st : Stream) (s : State) : State :=
  { s with groves := Tab.mapVals (fun _ (k : Grove) => { k with pre := k.pre.filter (· != .copy st) }) s.groves }

/-- A CTXSW that no longer waits leaves the order. -/
def leaveTurn (o : Host.Outcome State Fault Refusal) (st : Stream) : Host.Outcome State Fault Refusal :=
  match o with
  | .next t => .next (if (t.seqOf st).waiting then t else leftTurn st t)
  | o => o

/-- The request of a CTXSW stands in its place among those of the grove, and its stream waits for the exchange. -/
def requestSwitch (g : Nat) (s : State) : State :=
  let t := (joinTurn g s).modGrove g fun k =>
    { k with pre := k.pre.map fun p => if p = .copy s.cur then .ctxsw s.cur s.seq.task else p }
  t.modSeq t.cur fun q => { q with busy := .ctxsw }

/-- CTXSW (R445): it completes once the exchange that it asks for has been made; until then it has not begun (R437). -/
def execCtxsw (a : Src) (s : State) : Host.Outcome State Fault Refusal :=
  leaveTurn (scalarOp [a] .discard (do
    let g ← ctxswGrove a
    let t ← gets' id
    if t.seq.switched = some s.seq.pc then modS fun t => t.modSeq t.cur fun q => { q with switched := none }
    else blockWith (if t.xformsOpen then joinTurn g else requestSwitch g)) s) s.cur

/-- The pre bit of GCTL: a request of the host joins those of the grove. -/
def gctlPre (grove : Nat) (s : State) : State := s.modGrove grove fun g => { g with pre := g.pre ++ [.host] }

/-- GCTL_PRE (R437, R451). -/
def execGctlPre (grove : Nat) (s : State) : Host.Outcome State Fault Refusal := onRegister (gctlPre grove) s

/-! ## The halt (R437) -/

/-- Whether a sequencer of a grove still waits in a YIELD, which a request lets complete first (R443). -/
def State.yielding (s : State) (g : Nat) : Bool :=
  (coresIn g).any fun c => [SeqKind.K, .V, .M, .Q].any fun k =>
    (s.seqOf ⟨c, k, .pipe⟩).yieldAt.isSome && s.runs ⟨c, k, .pipe⟩

/-- Whether an address lies in the scratchpad of a core of a grove, for an agent of core `self`. -/
def inScratch (g self : Nat) (a : Word) : Bool :=
  onChip a && a.toNat / 2 ^ 24 % 16 == 0 &&
    groveOf (if bit a 39 then self else chipCore (a.toNat % 2 ^ 48)) == g

/-- PREEMPT_HALT (R386, R437): every sequencer of the grove stops, and the pull state in its scratchpads is
suspended. -/
def execPreemptHalt (grove : Nat) (s : State) : Host.Outcome State Fault Refusal :=
  let g := s.grove grove
  if !((s.preQueue grove).take 1).any PreBy.preempts || g.preHalted || s.yielding grove then .next s
  else
    let inBuf (r : Req) : Bool := match r.recv with
      | some n => match Tab.find s.recvs n with | some v => inScratch grove v.core v.buf | none => false
      | none => false
    .next (suspendPull inBuf (fun x => inScratch grove x.owner.core x.laddr)
      (s.setGrove grove { g with preHalted := true }))

/-! ## The exchange (R437, R438) -/

/-- What a sequencer forgets when its context leaves: instructions that block have not begun, a CTXSW that waits among
them. -/
def Seq.leave (q : Seq) : Seq :=
  { q.unblock with busy := if q.busy = .ctxsw then .none else q.busy, yieldedAt := none }

/-- A context that leaves: the operand buffer is emptied (R141), and an MCOMMIT has not begun (R205). -/
def Context.leave (x : Context) : Context :=
  { x with
    k := x.k.leave, vseq := x.vseq.leave, mseq := x.mseq.leave, qseq := x.qseq.leave, obuf := []
    mx := { x.mx with commit := none } }

/-- Whether an address lies in a window of a grove that pre-emption exchanges: registers, accumulators, queues, and the
other words of a context, whose marks stand at kind 7 (R438; log 26). -/
def exchanged (g a : Nat) : Bool :=
  decide (Config.chipBase ≤ a) && decide (a < Config.chipEnd) && groveOf (chipCore a) == g &&
    [1, 2, 4, 5, 7].contains (a / 2 ^ 24 % 16)

/-- Where the marks of a unit of `w` bytes stand after an exchange (log 26). -/
def swapUnit (g w k : Nat) : Nat :=
  if exchanged g (w * k) then k + underBase / w
  else if underBase ≤ w * k ∧ exchanged g (w * k - underBase) = true then k - underBase / w
  else k

/-- The marks and tags of the words that move move with them (R249, R250). -/
def exchangeMarks (g : Nat) (s : State) : State :=
  { s with
    poison := Tab.rekey (swapUnit g 8) s.poison, biterr := Tab.rekey (swapUnit g 8) s.biterr
    owner := Tab.rekey (swapUnit g 256) s.owner }

/-- The cores of a grove exchange their contexts, and the grove the delivery counts of its groups (R194). -/
def exchangeCores (g : Nat) (s : State) : State :=
  exchangeMarks g (((coresIn g).foldl (fun t c => t.modCore c fun k => { k with ctx := k.under, under := k.ctx.leave }) s).modGrove g
    fun k => { k with groups := k.underGroups, underGroups := k.groups })

/-- A request that waits without the streams of a grove: those of a CTXSW have not begun (R437). -/
def PreBy.notFrom (g : Nat) (p : PreBy) : Bool :=
  match p with
  | .ctxsw st _ => groveOf st.core != g
  | .copy st => groveOf st.core != g
  | .host => true

/-- The requests of grove `n` without those of the streams of another; a halt whose request goes is undone. -/
def withdraw (s : State) (g n : Nat) (k : Grove) : Grove :=
  { k with pre := k.pre.filter (PreBy.notFrom g), preHalted := k.preHalted && ((s.preQueue n).take 1).all (PreBy.notFrom g) }

/-- Blocked instructions of a grove leave the lists of those that wait. -/
def forgetWaiters (g : Nat) (s : State) : State :=
  let mine (p : Poster) : Bool := match p with | .stream st _ _ _ _ _ => groveOf st.core == g | _ => false
  { s with
    waiters := s.waiters.filter fun w => groveOf w.stream.core != g
    groves := Tab.mapVals (fun n (k : Grove) =>
      { withdraw s g n k with waiting := k.waiting.filter fun q => !mine q.poster }) s.groves }

/-- The exchange that a CTXSW asked for has been made: the CTXSW goes on (R445). -/
def completeCtxsw (p : PreBy) (s : State) : State :=
  match p with
  | .ctxsw st task =>
    match s.findCtx st.core fun x => (x.seq st.seq).busy == .ctxsw && (x.seq st.seq).task == task with
    | none => s
    | some (r, x) =>
      let q := x.seq st.seq
      s.putCtx st.core r (x.setSeq st.seq { q with busy := .none, switched := some q.pc })
  | _ => s

/-- UNDERSTORY_EXCHANGE (R437): once the grove has halted, its cores exchange, and the oldest request is served. -/
def execUnderstoryExchange (grove : Nat) (s : State) : Host.Outcome State Fault Refusal :=
  let g := s.grove grove
  match s.preQueue grove with
  | [] => .next s
  | p :: _ =>
    if !p.preempts || !g.preHalted || (coresIn grove).any fun c => (s.ctx c).mx.committing then .next s
    else
      let s1 := exchangeCores grove (forgetWaiters grove s)
      .next (completeCtxsw p (s1.modGrove grove fun k =>
        { k with pre := k.pre.erase p, preHalted := false }))

/-! ## Images of contexts (R439, R445) -/

/-- Bytes of an image of one core. -/
def ctxBytes : Nat := 393216

/-- `n` rows of a table, each of `w` bytes. -/
def rowBytes {v : Nat} (w n : Nat) (t : Tab (BitVec v)) : List Byte :=
  (List.range n).flatMap fun k => toBytes w (Tab.get 0 t k).toNat

/-- Rows read back. -/
def rowsOf (v w n : Nat) (l : List Byte) : Tab (BitVec v) :=
  (List.range n).foldr (fun k t => Tab.set 0 t k (BitVec.ofNat v (ofBytes ((l.drop (w * k)).take w)))) []

/-- A part of an image. -/
def slice (l : List Byte) (o n : Nat) : List Byte := (l.drop o).take n

/-- The architectural part of a sequencer: x0 to x47 and the program counter. -/
def seqBytes (q : Seq) : List Byte := rowBytes 8 48 q.x ++ toBytes 8 q.pc.toNat

/-- The opaque bytes of one block of an image: the model's free values. -/
def opaqueBlock (seed n : Nat) : List Byte := (List.range n).map fun k => Config.freeByte (seed * 2 ^ 24 + k)

/-- The image of a context; its opaque blocks are free bytes, those that the model numbers from `seed` on (log 13). -/
def contextImage (x : Context) (seed : Nat) : List Byte :=
  rowBytes 128 2048 x.mx.acc ++ rowBytes 2048 48 x.v ++
  fitTo 2048 (rowBytes 256 8 x.p) ++
  toBytes 8 x.vsh.toNat ++ toBytes 8 x.vkey.toNat ++ toBytes 8 x.vbase.toNat ++ toBytes 8 x.vgstr.toNat ++
  List.replicate 2016 0 ++ opaqueBlock (seed * 8) 18432 ++
  ([SeqKind.K, .V, .M, .Q].flatMap fun k =>
    seqBytes (x.seq k) ++ opaqueBlock (seed * 8 + 1 + k.code) 632) ++
  List.replicate 6144 0

/-- The opaque bytes of an image, by which the model knows the context again: the one that was written last with them
(log 13). -/
def opaqueOf (l : List Byte) : List Byte :=
  slice l 0x59000 18432 ++ (List.range 4).flatMap fun k => slice l (0x5D800 + 1024 * k + 0x188) 632

/-- A sequencer with the architectural part of an image. -/
def loadSeq (l : List Byte) (k : Nat) (q : Seq) : Seq :=
  { q with x := rowsOf 64 8 48 (slice l (0x5D800 + 1024 * k) 384)
           pc := wordOf (slice l (0x5D800 + 1024 * k + 0x180) 8) }

/-- A context with the architectural part of an image; its queues stay those of the understory (R438), and the reserved bits
of VSH are zero (R5). -/
def loadContext (l : List Byte) (base old : Context) : Context :=
  { base with
    k := loadSeq l 0 base.k, vseq := loadSeq l 1 base.vseq, mseq := loadSeq l 2 base.mseq, qseq := loadSeq l 3 base.qseq
    v := rowsOf 16384 2048 48 (slice l 0x40000 98304)
    p := rowsOf 2048 256 8 (slice l 0x58000 2048)
    vsh := BitVec.ofNat 32 (ofBytes (slice l 0x58800 4) % 2 ^ 26)
    vkey := wordOf (slice l 0x58808 8), vbase := wordOf (slice l 0x58810 8), vgstr := wordOf (slice l 0x58818 8)
    mx := { base.mx with acc := rowsOf 1024 128 2048 (slice l 0 262144) }
    tq := old.tq, vq := old.vq }

/-- CTXSW.out and CTXSW.in act in their turn on a grove; whatever holds one back, it keeps its place in the order of arrival,
and it waits for the transform commands before it (R260, R445). -/
def inTurn (g : Nat) (body : M Unit) : M Unit := fun s =>
  let first := match s.preQueue g with | [] => true | p :: _ => p == .copy s.cur
  match (do blockIf (!first || s.xformsOpen); body) s with
  | .error (.block on, m) => .error (.blockWith (joinTurn g) on, m)
  | .error (.blockWith f on, m) => .error (.blockWith (fun t => joinTurn g (f t)) on, m)
  | r => r

/-- The words of an understory by the places of their marks, each part a kind, an offset and a length: accumulators, vector
and scalar registers, and every other word at its offset in kind 7 (R439; log 26). -/
def imageWindows : List (Nat × Nat × Nat) :=
  [(2, 0, 0x40000), (1, 0, 0x18800), (7, 0x58800, 0x5000)] ++
  ((List.range 4).flatMap fun k => [(4, 512 * k, 0x180), (7, 0x5D980 + 1024 * k, 0x280)]) ++ [(7, 0x5E800, 0x1800)]

/-- CTXSW.out reads the understory of a core: a word in error traps (R249; log 26). -/
def checkUnder (core : Nat) : M Unit := fun s =>
  if s.biterr = [] ∧ s.poison = [] then .ok ((), s)
  else
    let at_ (w : Nat × Nat × Nat) : Nat := chipAddr core w.1 w.2.1 + underBase
    match imageWindows.find? fun w => (s.firstPoison (at_ w) w.2.2).isSome with
    | none => .ok ((), imageWindows.foldl (fun t w => countFixed (at_ w) (s.corrected (at_ w) w.2.2) t) s)
    | some w =>
      stop (.detect (s.badWords (at_ w) w.2.2) Cause.poisonConsumed
        (BitVec.ofNat 64 (0xFF00 * 2 ^ 48 + 8 * (s.firstPoison (at_ w) w.2.2).getD 0 % 2 ^ 48))) s

/-- CTXSW.in writes the understory of a core: its words are clean, and take the tag of the task (R249, R250). -/
def markUnder (rcb core : Nat) (s : State) : State :=
  imageWindows.foldl (fun t w =>
    let a := chipAddr core w.1 w.2.1 + underBase
    markOwner rcb a w.2.2 (cleanWords a w.2.2 t)) s

/-- The image of a core's context goes into its understory: its opaque blocks are those of the context that CTXSW.out wrote
with them, with the delivery counts of the grove's groups, or a free context (log 13). -/
def enterImage (g k : Nat) (l : List Byte) (s : State) : State :=
  let c := 16 * g + k
  markUnder s.seq.trcb c (match s.images.find? fun e => e.1 == opaqueOf l with
    | some e => (s.modCore c fun x => { x with under := loadContext l e.2.1 x.under }).modGrove g fun x =>
        { x with underGroups := e.2.2 }
    | none => s.modCore c fun x => { x with under := loadContext l (Config.freeContext (16 * s.fresh + k)) x.under })

/-- The address of the image of core `k` of a grove. -/
def imageAt (b : Word) (k : Nat) : Word := b + BitVec.ofNat 64 (ctxBytes * k)

/-- CTXSW.out: the understories of a grove are copied to memory (R445). -/
def execCtxswOut (a b : Src) (s : State) :=
  leaveTurn (scalarOp [a, b] .discard (do
    let g ← ctxswGrove a
    let y ← readSrc b
    checkAligned y 256
    let ag ← thisAgent
    inTurn g ((List.range 16).forM fun k => do
      checkUnder (16 * g + k)
      let t ← gets' id
      let x := (t.core (16 * g + k)).under
      let img := contextImage x (16 * t.fresh + k)
      storeRange ag .engine (imageAt y k) img
      modS fun u => { u with
        images := (opaqueOf img, x, (u.grove g).underGroups) :: u.images.filter fun e => e.1 != opaqueOf img })) s) s.cur

/-- CTXSW.in: memory is copied into the understories of a grove; every image is read first (R445). -/
def execCtxswIn (a b : Src) (s : State) :=
  leaveTurn (scalarOp [a, b] .discard (do
    let g ← ctxswGrove a
    let y ← readSrc b
    checkAligned y 256
    let ag ← thisAgent
    inTurn g (do
      let imgs ← (List.range 16).mapM fun k => loadRange ag .engine (imageAt y k) ctxBytes
      modS fun t => imgs.zipIdx.foldl (fun u p => enterImage g p.2 p.1 u) t)) s) s.cur

/-! ## Grove controls (R442, R451) -/

/-- The restart bit of GCTL: a stopped canopy goes on with an empty window and region table. -/
def gctlRestart (grove : Nat) (s : State) : State :=
  let g := s.grove grove
  if !g.stopped || s.overtemp then s
  else
    let s1 := (g.window.map (·.1)).foldl (fun t n => removeEntry grove n t) s
    let s2 := g.regions.foldl (fun t e => t.modChain e.2.rcb fun k =>
      { k with useHbm := k.useHbm - regionUnits e.2.desc }) s1
    s2.modGrove grove fun k =>
      { k with window := [], regions := [], checks := [], gangs := [], resolves := [], stopped := false }

/-- GCTL_RESTART (R436, R451). -/
def execGctlRestart (grove : Nat) (s : State) : Host.Outcome State Fault Refusal := onRegister (gctlRestart grove) s

/-- The resume bit of GCTL: the sequencers that HALT has stopped go on. -/
def gctlResume (grove : Nat) (s : State) : State :=
  let go (q : Seq) : Seq := { q with halted := false }
  (coresIn grove).foldl (fun t c => t.modCtx c fun x =>
    { x with k := go x.k, vseq := go x.vseq, mseq := go x.mseq, qseq := go x.qseq }) s

/-- GCTL_RESUME (R442, R451). -/
def execGctlResume (grove : Nat) (s : State) : Host.Outcome State Fault Refusal := onRegister (gctlResume grove) s

end Sys2Proof.Machine
end

