-- ==== Sys2Proof/Machine/Tables.lean ====
section
/-! DEFINITION. RCBLD and the termination of a subtree, the reset of a tenant, walks and invalidation, requests of banks
and of the scrubber (R25, R27, R248 to R251, R278 to R280, R330, R399, R400, R446, R450). -/

namespace Sys2Proof.Machine

/-! ## Region control blocks (R26, R27, R399, R400) -/

abbrev RcbImage := BitVec 512

/-- A reserved bit of an image that is set (R399). -/
def rcbReserved (m : RcbImage) : Bool :=
  fld m 10 6 != 0 || fld m 25 7 != 0 || fld m 37 27 != 0 || fld m 92 4 != 0 || fld m 117 11 != 0 || fld m 288 224 != 0

/-- The entry that an image loads, with its effective values from the parent's entry where it does not override them. -/
def rcbOf (m : RcbImage) (p : Rcb) (depth : Nat) : Rcb :=
  let own (k : Nat) : Bool := bit m (16 + k)
  { block := m, parent := fld m 0 10, ovmask := BitVec.ofNat 16 (fld m 16 16), tenant := fld m 32 4, job := bit m 36
    fkey := BitVec.ofNat 32 (fld m 256 32), depth := depth
    window := if own 0 then fld m 64 16 else p.window
    cores := if own 1 then fld m 80 12 else p.cores
    hbm := if own 2 then fld m 144 48 else p.hbm
    fabric := if own 3 then fld m 96 16 else p.fabric
    cls := if own 4 then fld m 112 3 else p.cls
    tickets := if own 5 then fld m 128 16 else p.tickets
    fdomain := if own 6 then bit m 115 else p.fdomain
    vector := if own 7 then BitVec.ofNat 64 (fld m 192 64) else p.vector
    det := if own 8 then bit m 116 else p.det
    terminating := false, removed := 0, fence := false, useWindow := [], useHbm := 0, useFabric := 0, jobCount := 0,
    jobFlag := false }

/-- The block that an image loads into entry `b`; none when R27, R399 or R400 forbids it. -/
def rcbLoad (s : State) (b : Nat) (m : RcbImage) : Option Rcb :=
  let parent := fld m 0 10
  match s.rcb parent with
  | none => none
  | some p =>
    if (s.rcb b).isSome || p.terminating || decide (8 < p.depth + 1) || decide (1024 ≤ s.rcbs.length) ||
        (parent != 0 && p.tenant != fld m 32 4) || rcbReserved m then none
    else some (rcbOf m p (p.depth + 1))

/-- The checks of RCBLD on its task and on b (R446). -/
def rcbIndex (b : Src) : M Nat := do
  trapIf ((← gets' fun t => t.seq.trcb) != 0) Cause.privileged 0
  let y ← readSrc b
  trapIf (y == 0 || decide (1023 < y.toNat)) Cause.illegalOperand y
  pure y.toNat

/-- RCBLD (R446). -/
def execRcbld (d : Dst) (a b : Src) (s : State) :=
  scalarOp [a, b] d (do
    trapIf ((← gets' fun t => t.seq.trcb) != 0) Cause.privileged 0
    let x ← readSrc a
    let n ← rcbIndex b
    let l ← load (← thisAgent) .vector x 64 64
    match (← gets' fun t => rcbLoad t n (BitVec.ofNat 512 (ofBytes l))) with
    | none => trap Cause.rcbInvalid (BitVec.ofNat 64 n)
    | some k => do
      modS fun t => t.setRcb n k
      writeDst d (BitVec.ofNat 64 k.depth)) s

/-! ## Termination (R25, R330, R446) -/

/-- The matrix state of a terminated task: the steps that have started commit, nothing else takes effect. -/
def Matrix.stopAll (m : Matrix) : Matrix :=
  { m with
    nest := none, behind := [], pairs := [], group := none, fault := [], commit := none
    queue := m.queue.filter fun o => match o with | .step _ => true | _ => false }

/-- A context whose tasks of a subtree have ended; rotation operations of a context in the understory end too. -/
def Context.terminate (gone : Nat → Bool) (resident : Bool) (x : Context) : Context :=
  let hit (q : Seq) : Bool := q.task.isSome && gone q.trcb
  let stop (q : Seq) : Seq := if hit q then q.release else q
  let x1 := if hit x.vseq then { x with vl := .empty, va := .empty, vs := .empty, obuf := [], split := none, splitRem := 0, captured := [] } else x
  let x2 := if hit x.mseq then { x1 with mx := if resident then x1.mx.stopAll else { x1.mx.stopAll with queue := [] } } else x1
  let x3 := if hit x.qseq then { x2 with rot := { x2.rot with fault := none, ops := if resident then x2.rot.ops else [] } } else x2
  { x3 with k := stop x.k, vseq := stop x.vseq, mseq := stop x.mseq, qseq := stop x.qseq }

/-- The units of a core that work for a subtree end; commands in its banks go on. -/
def Core.terminate (gone : Nat → Bool) (k : Core) : Core :=
  { k with
    ctx := k.ctx.terminate gone true
    under := k.under.terminate gone false
    chans := Tab.mapVals (fun _ c =>
      if c.busy && gone c.rcb then { c with work := none, busy := false, by_ := none, owner := none } else c) k.chans
    xpose := match k.xpose with | some c => if gone c.rcb then none else some c | none => none }

/-- The window entries of a subtree, by grove and slot. -/
def State.entriesOf (s : State) (gone : Nat → Bool) : List TaskRef :=
  s.groves.flatMap fun g => (g.2.window.filter fun e => gone (recRcb e.2.record)).map fun e => ⟨g.1, e.1⟩

/-- Posted receives of a subtree go without records; the requests that they matched, and those that name the
subtree, are rejected (R446). -/
def endReceives (gone : Nat → Bool) (s : State) : State :=
  let s1 := { s with recvs := s.recvs.filter fun e => !gone e.2.rcb }
  (s1.reqs.filter fun r => gone r.rcb).foldl
    (fun t r => noticeTo 0 r.device r.id 3 Cause.rcbInvalid (t.dropReq r.device r.id)) s1

/-- Messages of a subtree end. -/
def endSends (gone : Nat → Bool) (s : State) : State :=
  (s.sends.filter fun e => gone e.2.owner.rcb).foldl
    (fun t e => endSend e.1 e.2 e.2.sent 3 Cause.rcbInvalid t) s

/-- An owner without the levels of a subtree. -/
def OpOwner.without (gone : Nat → Bool) (o : OpOwner) : OpOwner :=
  { o with levels := o.levels.filter fun a => !gone a
           job := match o.job with | some j => if gone j then none else some j | none => none }

def RemoteOp.mapOwner (f : OpOwner → OpOwner) : RemoteOp → RemoteOp
  | .post o t c m at_ r => .post (f o) t c m at_ r
  | .store o t c n => .store (f o) t c n
  | .load o t c r l n k => .load (f o) t c r l n k
  | .rmcr o c d n g i => .rmcr (f o) c d n g i

/-- Terminate the blocks that `gone` names, below and with `top`: their window entries leave, their tasks end, and the
blocks become terminating. -/
def terminate (top : Nat) (gone : Nat → Bool) (s : State) : State :=
  let ts := s.entriesOf gone
  let parent := match s.rcb top with | some k => k.parent | none => 0
  let s1 := ts.foldl (fun t r => removeEntry r.grove r.slot (dropGang r t)) s
  let s2 := { s1 with cores := Tab.mapVals (fun _ (k : Core) => k.terminate gone) s1.cores }
  let idle (st : Stream) : Bool := (s2.seqOf st).task.isNone
  let s3 := { s2 with waiters := s2.waiters.filter fun w => !idle w.stream }
  let s4 := { s3 with
    groves := Tab.mapVals (fun _ (g : Grove) => { g with
      waiting := g.waiting.filter fun q => match q.poster with | .stream st _ _ _ _ _ => !idle st | _ => true
      regions := Tab.mapVals (fun _ (r : Region) => if gone r.rcb then { r with rcb := parent } else r) g.regions }) s3.groves
    remote := Tab.mapVals (fun _ (o : RemoteOp) => o.mapOwner (OpOwner.without gone)) s3.remote
    sends := Tab.mapVals (fun _ (x : Send) => { x with owner := x.owner.without gone }) s3.sends }
  let s5 := endSends gone (endReceives gone s4)
  { s5 with rcbs := Tab.mapVals (fun r (k : Rcb) =>
      if gone r then { k with terminating := true, removed := if r = top && !k.terminating then ts.length else k.removed }
      else k) s5.rcbs }

/-- Whether the work of terminated blocks has completed: the arrays of idle sequencers, the commands in banks, and the
remote-memory operations. -/
def drained (gone : Nat → Bool) (s : State) : Bool :=
  let busyCore (k : Core) : Bool :=
    (k.ctx.mseq.task.isNone && k.ctx.mx.committing) || (k.ctx.qseq.task.isNone && !k.ctx.rot.ops.isEmpty) ||
    k.lines.any fun l => gone l.rcb
  !(s.cores.any fun c => busyCore c.2) &&
  !(s.remote.any fun e => match e.2 with | .post _ _ _ _ _ _ => false | o => gone o.owner.rcb)

/-- The terminated blocks leave the cache. -/
def dropRcbs (gone : Nat → Bool) (s : State) : State := { s with rcbs := s.rcbs.filter fun e => !gone e.1 }

/-- The window entries that the termination of a block has removed. -/
def State.removedBy (s : State) (n : Nat) : Nat := match s.rcb n with | some k => k.removed | none => 0

/-- RCBLD.term begins: the subtree is terminated, unless it is so already, and the instruction keeps its count. -/
def beginTerm (n : Nat) (s : State) : State :=
  let t := match s.rcb n with
    | some k => if k.terminating then s else terminate n (s.under n) s
    | none => s
  t.modSeq t.cur fun q => { q with terming := some (n, t.removedBy n) }

/-- Whether the block that an RCBLD.term terminates still stands. -/
def State.stillEnding (s : State) (n : Nat) : Bool := match s.rcb n with | some k => k.terminating | none => false

/-- RCBLD.term (R446): the subtree is terminated at once; the instruction completes when its accesses have, also where the
end of another termination has taken the block out of the cache. -/
def execRcbldTerm (d : Dst) (b : Src) (s : State) :=
  scalarOp [b] d (do
    let n ← rcbIndex b
    let t ← gets' id
    trapIf ((t.chain t.seq.trcb).contains n) Cause.illegalOperand 0
    let mine := match t.seq.terming with | some (m, _) => m == n | none => false
    trapIf (!mine && (t.rcb n).isNone) Cause.rcbInvalid (BitVec.ofNat 64 n)
    let t1 := if mine then t else beginTerm n t
    let count := match t1.seq.terming with | some (_, c) => c | none => 0
    if !t1.stillEnding n then writeDst d (BitVec.ofNat 64 count)
    else if drained (t1.under n) t1 then do
      modS fun _ => dropRcbs (t1.under n) t1
      writeDst d (BitVec.ofNat 64 count)
    else if mine then block
    else blockWith fun u => beginTerm n u) s

/-- Restart the sequencers of a block that a fence or HALT has stopped (R446). -/
def unfence (n : Nat) (s : State) : State :=
  let go (q : Seq) : Seq := if q.task.isSome && q.trcb == n then { q with fenced := false, halted := false } else q
  let ctx (x : Context) : Context := { x with k := go x.k, vseq := go x.vseq, mseq := go x.mseq, qseq := go x.qseq }
  let s1 := s.modRcb n fun k => { k with fence := false }
  { s1 with cores := Tab.mapVals (fun _ (k : Core) => { k with ctx := ctx k.ctx, under := ctx k.under }) s1.cores }

/-- RCBLD.unf (R446). -/
def execRcbldUnf (d : Dst) (b : Src) (s : State) :=
  scalarOp [b] d (do
    let n ← rcbIndex b
    trapIf (!(← gets' fun t => t.active n)) Cause.rcbInvalid (BitVec.ofNat 64 n)
    modS (unfence n)
    writeDst d 0) s

/-! ## Reset of a tenant (R450) -/

/-- The blocks that a tenant reset ends: those of the tenant and their descendants, the root apart. -/
def State.tenantBlocks (s : State) (t r : Nat) : Bool :=
  (s.chain r).any fun a => a != 0 && match s.rcb a with | some k => k.tenant == t | none => false

/-- Entries of the translation caches that a test picks go. -/
def dropTlb (p : TlbEntry → Bool) (s : State) : State :=
  { s with msys := { s.msys with
      tlbs := (Tab.mapVals (fun _ (l : List TlbEntry) => l.filter fun e => !p e) s.msys.tlbs).filter fun t => !t.2.isEmpty } }

/-- The entry that the result of a walk is, if it is no fault. -/
def WalkAnswer.tlbEntry (a : WalkAnswer) : Option TlbEntry :=
  match a.result with
  | .entry lg pte => some { tenant := a.tenant, base := a.va / 2 ^ lg * 2 ^ lg, lg := lg, pte := pte }
  | .fault _ => none

/-- The entries, of whatever page size, that a walk could install stand in the largest page of its address (R401). -/
def Miss.widest (m : Miss) : TlbEntry := { tenant := m.tenant, base := m.va / 2 ^ 30 * 2 ^ 30, lg := 30, pte := 0 }

/-- Whether an access goes on that has received the result of a walk: its stream runs, or its unit has work. -/
def State.accessing (s : State) (w : Who) : Bool :=
  match w.by_ with
  | some st => s.runs st
  | none =>
    let k := s.core w.core
    if w.source = 4 then k.xpose.isSome
    else if 5 ≤ w.source ∧ w.source < 9 then (k.chan (w.source - 5)).busy
    else k.ctx.mx.nest.isSome || !k.ctx.mx.queue.isEmpty

/-- Whether a walk that could install an entry runs, or an access that uses one has not completed (R280). -/
def State.usesOld (s : State) (p : TlbEntry → Bool) : Bool :=
  (s.msys.misses.any fun d => (d.2.take walkers).any fun m => p m.widest) ||
    s.msys.answers.any fun a => (a.tlbEntry.any p) && s.accessing a.who

/-- The matching entries leave every translation cache, and with them the results that no access goes on to use (R280). -/
def invalidate (p : TlbEntry → Bool) (s : State) : State :=
  let s1 := dropTlb p s
  { s1 with msys := { s1.msys with
      answers := s1.msys.answers.filter fun a => !(a.tlbEntry.any p && !s.accessing a.who) } }

/-- The first step of a tenant reset: its blocks are terminated (R450). -/
def tenantReset (tenant : Nat) (s : State) : State :=
  terminate 0 (s.tenantBlocks tenant)
    { s with tenants := Tab.put s.tenants tenant { s.tenant tenant with busy := true } }

/-- The second step: the storage queue pairs and the command queues of the tenant are disabled. -/
def disableQueues (tenant : Nat) (s : State) : State :=
  let s1 := { s with
    pairs := Tab.mapVals (fun _ (p : QPair) => if p.tenant = tenant then { p with enabled := false } else p) s.pairs }
  let p := s1.page tenant
  s1.setPage tenant { p with
    rings := Tab.mapVals (fun _ (r : CmdRing) => { r with cqsize := r.cqsize &&& ~~~0x10000#64 }) p.rings }

/-- TENANT_RESET (R450). -/
def execTenantReset (tenant : Nat) (s : State) : Host.Outcome State Fault Refusal := onRegister (tenantReset tenant) s

/-- Whether a block waits for the end of a tenant reset. -/
def State.endingFor (s : State) (t r : Nat) : Bool :=
  s.tenantBlocks t r && match s.rcb r with | some k => k.terminating | none => false

/-- The last step: the tenant's event queue is emptied, and tbusy clears. -/
def emptyEvents (tenant : Nat) (s : State) : State :=
  let p := s.page tenant
  let s1 := s.setPage tenant { p with eqhead := p.eqtail }
  { s1 with tenants := Tab.put s1.tenants tenant { s1.tenant tenant with busy := false } }

/-- Posts from other devices and from the host that wait for acceptance and name a block that a tenant reset removes are
refused (R450). -/
def refuseWaiting (gone : Nat → Bool) (s : State) : State :=
  let hit (q : PostReq) : Bool := !q.poster.isLocal && gone (recRcb q.record)
  s.groves.foldl (fun t g => (g.2.waiting.filter hit).foldl (fun u q => answerPost g.1 q.poster 2 0 u)
    (t.modGrove g.1 fun k => { k with waiting := k.waiting.filter fun q => !hit q })) s

/-- A tenant reset goes on once its blocks have drained: the queues are disabled, the translations invalidated under R280,
and when that completes the event queue is emptied (R450). -/
def endReset (tenant : Nat) (s : State) : State :=
  let gone := s.endingFor tenant
  if drained gone s then
    let mine (e : TlbEntry) : Bool := e.tenant == tenant
    let s1 := invalidate mine (disableQueues tenant (dropRcbs gone (refuseWaiting gone s)))
    if s1.usesOld mine then s1 else emptyEvents tenant s1
  else s
def endResets (s : State) : State := (s.tenants.filter fun e => e.2.busy).foldl (fun t e => endReset e.1 t) s

/-! ## Walks and invalidation (R278 to R280) -/

/-- WALK_COMPLETE (R279): one of the walks of a glade ends, at most 64 of which run; which one is open (log 17). -/
def execWalkComplete (glade : Nat) (s : State) : Host.Outcome State Fault Refusal :=
  let done (m : Miss) : State := finishWalk glade m.tenant m.va m.groves none s
  match (s.missTable glade).take walkers with
  | [] => .next s
  | [m] => .next (done m)
  | m :: l => .next (done ((m :: l).getD (Config.walkEnds s.fresh % (l.length + 1)) m))

/-- A write of TINV (R451): tenant and all are stored; go starts the invalidation that they and the range name, and is
ignored while one runs (log 60). -/
def tinvWrite (value : Word) (s : State) : State :=
  { s with
    tinvTenant := fld value 0 4, tinvAll := bit value 4
    tinvJob := if bit value 5 && s.tinvJob.isNone then some (fld value 0 4, bit value 4, s.tinvStart, s.tinvEnd)
               else s.tinvJob }

/-- TINV_GO (R280, R451): a write of TINV with go set. -/
def execTinvGo (value : Word) (s : State) : Host.Outcome State Fault Refusal := onRegister (tinvWrite (value ||| 0x20)) s

/-- Whether an entry is one that the invalidation names. -/
def State.invalidates (s : State) (e : TlbEntry) : Bool :=
  match s.tinvJob with
  | some (t, all, lo, hi) =>
    e.tenant == t && (all || (decide (e.base < hi.toNat) && decide (lo.toNat < e.base + 2 ^ e.lg)))
  | none => false

/-- INVALIDATION_COMPLETE (R280): the matching entries leave every cache; the invalidation completes once no walk runs that
could install one, and no access goes on that uses one. Resets of tenants end with it. -/
def execInvalidationComplete (s : State) : Host.Outcome State Fault Refusal :=
  let t := invalidate s.invalidates s
  .next (endResets (if t.usesOld s.invalidates then t else { t with tinvJob := none }))

/-! ## Banks and the scrubber (R248 to R251) -/

/-- BANK_REQUEST (R248): a bank of a scratchpad serves a request of an issuer with block `rcb` within one line: a write
of bytes, or a read of `count` bytes. -/
def execBankRequest (core offset rcb : Nat) (data : Option (List Byte)) (count : Nat) (s : State) :
    Host.Outcome State Fault Refusal :=
  let pa := Config.chipBase + gladeOf core * 2 ^ 36 + groveOf core % 12 * 2 ^ 32 + coreIn core * 2 ^ 28 + offset
  let n := match data with | some l => l.length | none => count
  if Config.cores ≤ core ∨ 0x100000 < offset + n ∨ offset % 256 + n > 256 then .next s
  else
    let ag := { s.unitAgent core rcb 15 false none with rcb := rcb }
    match data with
    | some l => .next (devWrite ag false pa l s)
    | none =>
      let s1 := countRead { host := false, addr := pa, pte := 0, prog := pa } n s
      .next ((s.badWords pa n).foldl (detectWord core 15) s1)

/-- SCRUB_REQUEST (R251): the scrubber reads a word, by address / 8, of the arrays of R249, the understory among them (log
26), and of device-owned tables (log 57); one bit in error is corrected and counted, an uncorrectable word is detected. A
correction counts in 0x83 alone, also in an array of a core (DESIGN CHOICE, log 62). -/
def execScrubRequest (key : Nat) (s : State) : Host.Outcome State Fault Refusal :=
  let pa := 8 * key
  let core := if chipArray pa then chipCore pa
              else if ownedBase ≤ pa then 0
              else if Config.syncBase ≤ pa then 192 * (pa / 2 ^ 32 % 8) else 192 * (pa / 0xC00000000)
  match Tab.get 0 s.biterr key with
  | 0 => .next s
  | 1 => .next (Machine.count core 0x83 1 { s with biterr := Tab.del s.biterr key })
  | _ => .next (detectWord core 12 s key)

end Sys2Proof.Machine
end

