-- ==== Sys2Proof/Machine/Host.lean ====
section
/-! DEFINITION. The host: blocks of registers, tenant pages, command rings, the HBM aperture (R361, R403, R404, R426,
R447 to R454). -/

namespace Sys2Proof.Machine

/-! ## Registers (R449 to R452) -/

/-- The fields of a register that hold what is written. -/
def mask (bits : Nat) (v : Word) : Word := v &&& BitVec.ofNat 64 bits

/-- A number in [0, n) of a register block with entries `w` bytes apart, and the offset in the entry. -/
def inBlock (base w n o : Nat) : Option (Nat × Nat) :=
  if base ≤ o ∧ o < base + w * n then some ((o - base) / w, (o - base) % w) else none

/-- A word of a storage queue pair (R361); the phase is 1 at enable. -/
def writePair (n o : Nat) (v : Word) (s : State) : State :=
  let p := s.pair n
  let q : QPair := match o with
    | 0x00 => { p with sqbase := v }
    | 0x08 => { p with cqbase := v }
    | 0x10 => { p with sqdb := v }
    | 0x18 => { p with cqdb := v }
    | 0x20 =>
      let on := bit v 39
      { p with sqsize := fld v 0 16, cqsize := fld v 16 16, tenant := fld v 32 4, enabled := on
               phase := if on && !p.enabled then 1 else p.phase }
    | 0x28 => { p with sqtail := fld v 0 16, sqhead := fld v 16 16, cqhead := fld v 32 16, phase := fld v 48 1 }
    | _ => p
  s.setPair n q

/-- An expert route entry, replaced as a unit; one written with route or a reserved bit set is not valid, and reserved bits
hold nothing (R5, R403). -/
def routeEntry (v : BitVec 128) : BitVec 128 :=
  let k := fld v 0 97
  BitVec.ofNat 128 (if bit v 63 || fld v 97 31 != 0 then putBits k 96 1 0 else k)

/-- A word of a key slot: key, salt, and KSCTL, where refused is cleared before install and cur act (R451). -/
def writeSlot (link slot o : Nat) (v : Word) (s : State) : State :=
  let s1 := s.modLink link fun l =>
    let k := l.slot slot
    l.setSlot slot
      (if o < 0x20 then { k with wKey := BitVec.ofNat 256 (putBits k.wKey.toNat (8 * o) 64 v.toNat) }
       else if o = 0x20 then { k with wSalt := BitVec.ofNat 32 v.toNat }
       else if o = 0x28 then { k with refused := k.refused && !bit v 4 }
       else k)
  if o = 0x28 then
    let s2 := if bit v 2 then ksctlInstall link slot s1 else s1
    if bit v 3 then ksctlCur link slot s2 else s2
  else s1

/-- A register of a tenant (R404, R454); the places of PTROOT and of the windows are those of log 23. -/
def writeTenant (t o : Nat) (v : Word) (s : State) : State :=
  let r := s.tenant t
  let lo := mask 0xFFFFFFFFFF01 v
  let n : Tenant :=
    if o = 0 then { r with ptroot := mask 0xFFFFFFFFE00001 v }
    else if 0x40 ≤ o ∧ o < 0xC0 then
      if o % 16 = 0 then { r with ocwLo := Tab.set 0 r.ocwLo ((o - 0x40) / 16) lo }
      else { r with ocwHi := Tab.set 0 r.ocwHi ((o - 0x40) / 16) (mask 0xFFFFFFFFFF00 v) }
    else if 0xC0 ≤ o ∧ o < 0x140 then
      if o % 16 = 0 then { r with hbwLo := Tab.set 0 r.hbwLo ((o - 0xC0) / 16) (mask 0xFFFFFFFF0001 v) }
      else { r with hbwHi := Tab.set 0 r.hbwHi ((o - 0xC0) / 16) (mask 0xFFFFFFFF0000 v) }
    else if o = 0x200 then { r with vecBase := v }
    else if o = 0x208 then { r with vecCount := v }
    else r
  { s with tenants := Tab.put s.tenants t n }

/-- A register of a tenant page (R452); read-only registers are not written. -/
def writePage (t o : Nat) (v : Word) (s : State) : State :=
  let p := s.page t
  if o < 0x100 then
    let k := o / 0x40
    let r := Tab.get CmdRing.reset p.rings k
    let q : CmdRing := match o % 0x40 with
      | 0x00 => { r with cqbase := v }
      | 0x08 => { r with cqsize := mask 0x1FFFF v }
      | 0x10 => { r with cplbase := v }
      | 0x18 => { r with cqtail := v.toNat % 65536 }
      | 0x28 => { r with cplhead := v.toNat % 65536 }
      | _ => r
    s.setPage t { p with rings := Tab.put p.rings k q }
  else
    s.setPage t (match o with
      | 0x100 => { p with eqbase := v }
      | 0x108 => { p with eqsize := mask 0x1FFFF v }
      | 0x110 => { p with eqhead := v.toNat % 65536 }
      | 0x120 => { p with eqlost := (BitVec.ofNat 64 p.eqlost &&& ~~~v).toNat }
      | _ => p)

/-- Whether a register of the counter block is a counter (R426, R449). -/
def isCounterKey (k : Nat) : Bool :=
  if k < 0x60000 then decide (k / 32 < 1536) && isCounter (k % 32)
  else if k < 0x62000 then decide ((k - 0x60000) / 64 < 96) && isCounter (0x40 + (k - 0x60000) % 64)
  else if k < 0x64000 then decide ((k - 0x62000) / 32 < 8) && isCounter (0x80 + (k - 0x62000) % 32)
  else isCounter (0xC0 + (k - 0x64000))

/-! ## Command rings (R452, R453) -/

/-- Ring `k` of a tenant page. -/
def TenantPage.ring (p : TenantPage) (k : Nat) : CmdRing := Tab.get CmdRing.reset p.rings k

/-- Whether an enabled tenant stands behind its function: its page table is valid (log 60). -/
def State.enabled (s : State) (t : Nat) : Bool := decide (t < 16) && bit (s.tenant t).ptroot 0

/-- A write through the function of a tenant: refused where no enabled tenant stands behind it (R447). -/
def throughVf (tenant : Nat) (f : State → State) : State → Host.Outcome State Fault Refusal :=
  onRegister fun s => if s.enabled tenant then f s else s.send .unsupported

/-- CQTAIL (R452): the host's tail index. -/
def execCqtail (tenant ring value : Nat) (s : State) : Host.Outcome State Fault Refusal :=
  throughVf tenant (writePage tenant (0x40 * (ring % 4) + 0x18) (BitVec.ofNat 64 value)) s

/-- CPLHEAD (R453): the host has read completion entries. -/
def execCplhead (tenant ring value : Nat) (s : State) : Host.Outcome State Fault Refusal :=
  throughVf tenant (writePage tenant (0x40 * (ring % 4) + 0x28) (BitVec.ofNat 64 value)) s

/-- Whether a command of a ring has been read and has not completed. -/
def State.commandOpen (s : State) (t k : Nat) : Bool :=
  let mine (p : Poster) : Bool := match p with | .host a b _ => a == t && b == k | _ => false
  s.groves.any fun g => (g.2.waiting.any fun q => mine q.poster) ||
    g.2.window.any fun e => e.2.state == .checking && mine e.2.poster

/-- Whether the device may read a command of a ring: it is enabled and not empty, its completion ring has a free
entry, and its last command has completed. -/
def State.ringReady (s : State) (t k : Nat) : Bool :=
  let r := (s.page t).ring k
  let n := fld r.cqsize 0 16 + 1
  bit r.cqsize 16 && r.cqhead % n != r.cqtail % n && (r.cpltail + 1) % n != r.cplhead % n && !s.commandOpen t k

/-- Whether ring `k` is the one that the tenant's round serves next. -/
def State.ringTurn (s : State) (t k : Nat) : Bool :=
  ((List.range 4).map fun i => ((s.page t).lastRing + 1 + i) % 4).find? (s.ringReady t) == some k

/-- The 64 bytes of the next command of a ring. -/
def State.command (s : State) (t k : Nat) : List Byte :=
  let r := (s.page t).ring k
  hostBytes s (r.cqbase.toNat + 64 * r.cqhead) 64

/-- The kind of a command: 1 POST, 2 FENCE, 0 anything else (R453). -/
def commandKind (l : List Byte) : Nat :=
  let zero (o : Nat) : Bool := (l.drop o).all (· == 0)
  match ofBytes (l.take 8) with
  | 1 => if zero 20 then 1 else 0
  | 2 => if zero 8 then 2 else 0
  | _ => 0

/-- Read the next command of a ring when it is of a kind: its index, its bytes, and the state after the read. -/
def takeCommand (t k kind : Nat) (s : State) : Option (Nat × List Byte × State) :=
  if s.bootState = 1 ∧ s.ringTurn t k = true ∧ commandKind (s.command t k) = kind then
    let p := s.page t
    let r := p.ring k
    let r1 := { r with cqhead := (r.cqhead + 1) % (fld r.cqsize 0 16 + 1) }
    some (r.cqhead, s.command t k, s.setPage t { p with rings := Tab.put p.rings k r1, lastRing := k })
  else none

/-- The agent that reads a tenant's records for the host. -/
def hostAgent (t : Nat) : Agent :=
  { core := 0, rcb := 0, tenant := t, det := false, task := none, remote := true, source := 15, by_ := none }

/-- Steps 1 to 4 of a host POST (R453): the record, or the cause that rejects the command, with the state after the read. -/
def hostRecord (s : State) (t : Nat) (l : List Byte) : Except (Nat × State) (TaskRec × State) :=
  let a := wordOf ((l.drop 8).take 8)
  if 95 < ofBytes ((l.drop 16).take 4) then .error (Cause.illegalOperand, s)
  else
    match attempt (hostAgent t) (do
        trapIf (!isVirtual a) Cause.notPresent a
        readRecord (hostAgent t) a) s with
    | .wait _ => .error (Cause.notPresent, s)
    | .fault c _ u => .error (c, u)
    | .done r u =>
      if recMalformed r || recGang r then .error (Cause.taskMalformed, u)
      else if !u.active (recRcb r) || u.tenantOf (recRcb r) != t then .error (Cause.rcbInvalid, u)
      else .ok (r, u)

/-- A command has its effect, or is refused while its tenant is being reset (R450). -/
def unlessBusy (t k i : Nat) (f : State → State) (s : State) : State :=
  if (s.tenant t).busy then hostComplete t k i (postWord 0 2 0) s else f s

/-- HOST_POST (R453): a POST command is read and checked, and its post waits for acceptance. -/
def execHostPost (tenant ring : Nat) (s : State) : Host.Outcome State Fault Refusal :=
  match takeCommand tenant ring 1 s with
  | none => .next s
  | some (i, l, s1) =>
    .next (unlessBusy tenant ring i (fun s1 =>
      match hostRecord s1 tenant l with
      | .error (c, u) => hostComplete tenant ring i (postWord 0 3 c) u
      | .ok (r, u) =>
        u.modGrove (ofBytes ((l.drop 16).take 4)) fun g =>
          { g with waiting := g.waiting ++
              [{ record := r, addr := wordOf ((l.drop 8).take 8), poster := .host tenant ring i }] }) s1)

/-- HOST_FENCE (R453): it completes after every earlier command of its ring. -/
def execHostFence (tenant ring : Nat) (s : State) : Host.Outcome State Fault Refusal :=
  match takeCommand tenant ring 2 s with
  | none => .next s
  | some (i, _, s1) => .next (unlessBusy tenant ring i (hostComplete tenant ring i (postWord 0 0 0)) s1)

/-- HOST_COMMAND_INVALID (R453): any other command is rejected. -/
def execHostCommandInvalid (tenant ring : Nat) (s : State) : Host.Outcome State Fault Refusal :=
  match takeCommand tenant ring 0 s with
  | none => .next s
  | some (i, _, s1) => .next (unlessBusy tenant ring i (hostComplete tenant ring i (postWord 0 3 Cause.taskMalformed)) s1)

/-! ## The HBM aperture (R310, R448) -/

/-- HOST_HBM_ACCESS (R448): a write of bytes, or a read of `count` bytes, at an offset of PF0's or a tenant's BAR2. -/
def execHostHbmAccess (tenant : Option Nat) (offset : Nat) (data : Option (List Byte)) (count : Nat) (s : State) :
    Host.Outcome State Fault Refusal :=
  let n := match data with | some l => l.length | none => count
  let ok := decide (offset + n ≤ Config.hbmEnd) && match tenant with
    | none => true
    | some t => s.enabled t && (gapIn (s.tenant t).hbw offset n).isNone
  if s.bootState = 2 then .next s
  else if !ok then .next (s.send .unsupported)
  else
    match data with
    | some l => .next (devWrite (hostAgent (tenant.getD 0)) false offset l s)
    | none =>
      match s.firstPoison offset n with
      | none => .next ((countRead { host := false, addr := offset, pte := 0, prog := offset } n s).send
          (.reply (devBytes s offset n)))
      | some _ =>
        let s1 := (s.badWords offset n).foldl (detectWord 0 15) (countRead { host := false, addr := offset, pte := 0, prog := offset } n s)
        .next (s1.send (.reply ((List.range n).map fun k => Config.freeByte (s.fresh * 2 ^ 24 + k))))

end Sys2Proof.Machine
end

