-- ==== Sys2Proof/Machine/Boot.lean ====
section
/-! DEFINITION. Cold reset and trusted start, the mailbox, I3C, power and temperature (R2, R436, R450, R455 to R461). -/

namespace Sys2Proof.Machine

/-! ## Trusted start (R455 to R457) -/

/-- Whether the checks of the boot ROM on an image hold. -/
def imageOk (img : List Byte) : Bool :=
  Config.keysFused img && Config.rsaValid img && Config.slhValid img && Config.versionOk img

/-- The configuration block of an image, and the root image in it. -/
def configBytes (img : List Byte) : List Byte := (img.drop (Config.configBlock img).1).take (Config.configBlock img).2
def rootImage (img : List Byte) : RcbImage :=
  BitVec.ofNat 512 (ofBytes (((configBytes img).drop (Config.rootOffset img)).take 64))

/-- The constraints of a root image (R399, R457). -/
def rootOk (m : RcbImage) : Bool :=
  !rcbReserved m && fld m 0 10 == 0 && fld m 16 9 == 0x1FF && bit m 115 && !bit m 36

/-- The measurement registers after the image has been measured (R456). -/
def measured (img : List Byte) : Tab (BitVec 384) :=
  [(0, Config.romDigest), (1, sha384 img), (2, sha384 (configBytes img))]

/-- The boot ROM's steps and the load of the root (R455, R457). -/
def boot (s : State) : State :=
  if imageOk s.flash then
    let s1 := { s with mr := measured s.flash }
    if rootOk (rootImage s.flash) then
      { s1 with rcbs := Tab.put s1.rcbs 0 (rcbOf (rootImage s.flash) rootRcb 1), bootState := 1 }
    else { s1 with bootState := 2 }
  else { s with bootState := 2 }

/-- What a cold reset does not reach: the flash, the host's memory, and the model's own fields. -/
def coldState (s : State) : State :=
  { State.reset with
    flash := s.flash, hostMem := s.hostMem, agenda := s.agenda, fresh := s.fresh, out := s.out, images := s.images }

/-- COLD_RESET (R450, R455): the whole device is reset, and the boot ROM runs. -/
def execColdReset (s : State) : Host.Outcome State Fault Refusal := .next (boot (coldState s))

/-! ## The mailbox (R456, R458) -/

/-- The bytes of a measurement register. -/
def State.mrBytes (s : State) (n : Nat) : List Byte := toBytes 48 (Tab.get 0 s.mr n).toNat

/-- Whether an I3C transfer names the management core: by its dynamic address (R459; log 60). -/
def State.i3cNamed (s : State) (address : Nat) : Bool := s.i3cAddr == some address

/-- A mailbox command: its result goes to the buffer that it names; one over I3C for another target does nothing. -/
def mailbox (m : Mailbox) (f : State → State × List Byte) (s : State) : Host.Outcome State Fault Refusal :=
  let r := f s
  match m with
  | .host b => .next (r.1.hostWrite b r.2)
  | .i3c a => .next (if s.i3cNamed a then { r.1 with i3cBuf := r.2 } else s)

/-- EXTEND (R456, R458): MR := SHA-384 (MR ‖ D) for registers 3 to 7; any other index gives status 2. -/
def execExtend (index : Nat) (digest : Mail (List Byte)) (s : State) : Host.Outcome State Fault Refusal :=
  mailbox digest.by_ (fun s =>
    if 3 ≤ index ∧ index ≤ 7 then
      ({ s with mr := Tab.put s.mr index (sha384 (s.mrBytes index ++ fitTo 48 digest.arg)) }, [0])
    else (s, [2])) s

/-- READMR (R458). -/
def execReadmr (index : Mail Nat) (s : State) : Host.Outcome State Fault Refusal :=
  mailbox index.by_ (fun s => (s, if index.arg ≤ 7 then s.mrBytes index.arg else [2])) s

/-- Bytes 0 to 511 of a report (R458). -/
def reportBody (s : State) (nonce : List Byte) : List Byte :=
  toBytes 4 1 ++ toBytes 4 (Config.firmwareRevision s.flash).toNat ++ toBytes 16 Config.serial.toNat ++
  toBytes 8 s.timer.toNat ++ fitTo 32 nonce ++ ((List.range 8).flatMap s.mrBytes) ++
  toBytes 8 ((if s.bootState = 1 then 1 else 0) + (if Config.debugDisabled then 2 else 0)) ++ toBytes 56 0

/-- REPORT (R458): the report and its two signatures over the same bytes. -/
def execReport (nonce : Mail (List Byte)) (s : State) : Host.Outcome State Fault Refusal :=
  mailbox nonce.by_ (fun s =>
    let b := reportBody s nonce.arg
    (s, b ++ fitTo 384 (Config.rsaSign b) ++ fitTo 16224 (Config.slhSign b))) s

/-! ## I3C (R459) -/

/-- I3C_PRIVATE_READ (R459): 0 BOOTSTATE, 1 power and temperature of each glade, 2 the oldest management event; a read that
names another target is not answered. -/
def execI3cPrivateRead (command : I3cCall) (s : State) : Host.Outcome State Fault Refusal :=
  if !s.i3cNamed command.address then .next s
  else
    match command.arg with
    | 0 => .next (s.send (.reply [BitVec.ofNat 8 s.bootState]))
    | 1 => .next (s.send (.reply ((List.range 8).flatMap fun g => Config.sensors (8 * s.fresh + g))))
    | 2 =>
      match s.mgmtEvents with
      | [] => .next (s.send (.reply []))
      | e :: t => .next ({ s with mgmtEvents := t }.send (.reply e.bytes))
    | _ => .next s

/-- The static I3C address (R459). -/
abbrev i3cStatic : Nat := 0x5A

/-- SETDASA (R459): the dynamic address is assigned through the static one. -/
def execSetdasa (addr : I3cCall) (s : State) : Host.Outcome State Fault Refusal :=
  .next (if addr.address = i3cStatic then { s with i3cAddr := some (addr.arg % 128) } else s)

/-- ENTDAA (R459): a target without a dynamic address takes one. -/
def execEntdaa (addr : Nat) (s : State) : Host.Outcome State Fault Refusal :=
  .next (match s.i3cAddr with | none => { s with i3cAddr := some (addr % 128) } | some _ => s)

/-! ## Power and temperature (R460) -/

/-- CLOCK_THROTTLE (R460): the clock falls in steps of 50 MHz, down to 1.0 GHz. -/
def execClockThrottle (steps : Nat) (s : State) : Host.Outcome State Fault Refusal :=
  .next { s with clockMHz := max 1000 (s.clockMHz - 50 * steps) }

/-- JUNCTION_OVERTEMP (R436, R460): MACHINE_CHECK; every sequencer halts and every canopy stops until cold reset. -/
def execJunctionOvertemp (s : State) : Host.Outcome State Fault Refusal :=
  let s1 := mgmtEvent { cause := Cause.machineCheck, escalated := false, rcb := 0, place := 0, source := 15, value := 0,
                        time := s.timer } { s with overtemp := true }
  .next ((List.range 96).foldl (fun t g => t.modGrove g fun k => { k with stopped := true }) s1)

end Sys2Proof.Machine
end

