-- ==== Sys2Proof/Machine/Registers.lean ====
section
/-! DEFINITION. The register map of PF0 and the tenant pages: writes and reads (R332, R361, R379, R386, R403, R404,
R408, R425, R426, R447 to R452). Log 60 says where the registers stand to which the spec gives no offset. -/

namespace Sys2Proof.Machine

/-! ## Writes (R449 to R452) -/

/-- A write of RSTCTL (R450): cold, else the tenants that trst names. -/
def writeRstctl (v : Word) (s : State) : State :=
  if bit v 0 then boot (coldState s)
  else ((List.range 16).filter fun t => bit v (16 + t)).foldl (fun u t => tenantReset t u) s

/-- A write to the lottery state of a grove: 0 stores 1 (R332). -/
def writeLseed (grove : Nat) (value : Word) (s : State) : State :=
  let v := BitVec.ofNat 32 value.toNat
  s.modGrove grove fun g => { g with lseed := if v = 0 then 1 else v }

/-- A write of GCTL (R451): pre, restart, resume. -/
def writeGctl (grove : Nat) (v : Word) (s : State) : State :=
  let s1 := if bit v 0 then gctlPre grove s else s
  let s2 := if bit v 3 then gctlRestart grove s1 else s1
  if bit v 4 then gctlResume grove s2 else s2

/-- A write of FSUSP (R451): the root, then suspend, then resume. -/
def writeFsusp (v : Word) (s : State) : State :=
  let r := fld v 0 10
  let s1 := if bit v 10 then fsuspSuspend r s else { s with fsusp := r }
  if bit v 11 then fsuspResume r s1 else s1

/-- Groves and the rest of the first two MiB of PF0 BAR0. -/
def writeLower (o : Nat) (w : Word) (s : State) : State :=
  if o = 0x1000 then writeRstctl w s
  else if o = 0x1008 then { s with timer := w }
  else if o = 0x2000 then tinvWrite w s
  else if o = 0x2008 then { s with tinvStart := w }
  else if o = 0x2010 then { s with tinvEnd := w }
  else match inBlock 0x100000 0x1000 96 o with
    | some (g, 0) => writeGctl g w s
    | some (g, 8) => writeLseed g w s
    | _ => s

/-- Sync windows, tenant registers, counters and tenant pages. -/
def writeUpper (o : Nat) (w : Word) (s : State) : State :=
  match inBlock 0x241000 0x10 256 o with
  | some (n, k) =>
    let t := n / 16
    let g := n % 16
    let r := s.tenant t
    if 8 ≤ g then s
    else if k = 0 then { s with tenants := Tab.put s.tenants t { r with syncLo := Tab.set 0 r.syncLo g w } }
    else if k = 8 then { s with tenants := Tab.put s.tenants t { r with syncHi := Tab.set 0 r.syncHi g w } }
    else s
  | none =>
    match inBlock 0x250000 0x1000 16 o with
    | some (t, k) => writeTenant t k w s
    | none =>
      match inBlock 0x400000 8 0x80000 o with
      | some (k, _) => if isCounterKey k then s.setPerf k w else s
      | none =>
        match inBlock 0x3000000 0x10000 16 o with
        | some (t, k) => writePage t k w s
        | none => s

/-- A write to a register of PF0 BAR0 (R449); an offset that the table does not list, and a read-only register, ignore
it. A route entry is written as a whole, any other register in its low 64 bits. -/
def writePf0 (o : Nat) (v : BitVec 128) (s : State) : State :=
  let w : Word := BitVec.ofNat 64 (fld v 0 64)
  if o % 8 ≠ 0 then s
  else if o < 0x200000 then writeLower o w s
  else if o = 0x210040 then { s with saveBase := w }
  else if o = 0x210048 then { s with saveSize := w }
  else if o = 0x210050 then writeFsusp w s
  else match inBlock 0x200000 64 64 o with
  | some (n, k) => writePair n k w s
  | none =>
    match inBlock 0x210000 8 4 o with
    | some (c, _) => advertise { s with prefixes := Tab.set 16 s.prefixes c (fld w 0 7) }
    | none =>
      match inBlock 0x220000 16 4096 o with
      | some (e, _) => { s with route := Tab.set 0 s.route e (routeEntry v) }
      | none =>
        match inBlock 0x230000 0x40 32 o with
        | some (n, k) => writeSlot (n / 2) (n % 2) k w s
        | none =>
          match inBlock 0x240000 0x20 8 o with
          | some (g, 0) => s.modGlade g fun k => { k with ovBase := w }
          | some (g, 8) => s.modGlade g fun k => { k with ovSize := w }
          | some _ => s
          | none => writeUpper o w s

/-- REGISTER_WRITE (R447, R449, R452): a write to PF0 BAR0, or through the function of a tenant to its page. -/
def execRegisterWrite (tenant : Option Nat) (offset : Nat) (value : BitVec 128) (s : State) :
    Host.Outcome State Fault Refusal :=
  match tenant with
  | none => onRegister (writePf0 offset value) s
  | some t => throughVf t (writePage t offset (BitVec.ofNat 64 (fld value 0 64))) s

/-- TIMER_WRITE (R425). -/
def execTimerWrite (value : Word) (s : State) : Host.Outcome State Fault Refusal :=
  onRegister (fun s => { s with timer := value }) s

/-- DEVICE_TIMER_TICK (R425). -/
def execDeviceTimerTick (s : State) : Host.Outcome State Fault Refusal := .next { s with timer := s.timer + 1 }

/-- LSEED_WRITE (R332). -/
def execLseedWrite (grove : Nat) (value : Word) (s : State) : Host.Outcome State Fault Refusal :=
  onRegister (writeLseed grove value) s

/-! ## Reads (R6, R449 to R452) -/

/-- A flag as a number. -/
def flagBit (b : Bool) : Nat := if b then 1 else 0

/-- A word of a storage queue pair (R361). -/
def readPair (p : QPair) (o : Nat) : Word :=
  match o with
  | 0x00 => p.sqbase
  | 0x08 => p.cqbase
  | 0x10 => p.sqdb
  | 0x18 => p.cqdb
  | 0x20 => BitVec.ofNat 64 (p.sqsize + p.cqsize * 2 ^ 16 + p.tenant * 2 ^ 32 + flagBit p.enabled * 2 ^ 39)
  | 0x28 => BitVec.ofNat 64 (p.sqtail + p.sqhead * 2 ^ 16 + p.cqhead * 2 ^ 32 + p.phase * 2 ^ 48)
  | _ => 0

/-- KSCTL (R451): state and refused; key and salt read as zero. -/
def readSlot (k : KeySlot) (o : Nat) : Word :=
  if o = 0x28 then BitVec.ofNat 64 (k.state + flagBit k.refused * 2 ^ 4) else 0

/-- A register of a tenant (R404, R454). -/
def readTenant (r : Tenant) (o : Nat) : Word :=
  if o = 0 then r.ptroot
  else if 0x40 ≤ o ∧ o < 0xC0 then
    Tab.get 0 (if o % 16 = 0 then r.ocwLo else if o % 16 = 8 then r.ocwHi else []) ((o - 0x40) / 16)
  else if 0xC0 ≤ o ∧ o < 0x140 then
    Tab.get 0 (if o % 16 = 0 then r.hbwLo else if o % 16 = 8 then r.hbwHi else []) ((o - 0xC0) / 16)
  else if o = 0x200 then r.vecBase
  else if o = 0x208 then r.vecCount
  else 0

/-- A register of a tenant page (R452): the doorbell reads as zero. -/
def readPage (p : TenantPage) (o : Nat) : Word :=
  if o < 0x100 then
    let r := Tab.get CmdRing.reset p.rings (o / 0x40)
    match o % 0x40 with
    | 0x00 => r.cqbase
    | 0x08 => r.cqsize
    | 0x10 => r.cplbase
    | 0x20 => BitVec.ofNat 64 r.cqhead
    | 0x28 => BitVec.ofNat 64 r.cplhead
    | 0x30 => BitVec.ofNat 64 r.cpltail
    | _ => 0
  else
    match o with
    | 0x100 => p.eqbase
    | 0x108 => p.eqsize
    | 0x110 => BitVec.ofNat 64 p.eqhead
    | 0x118 => BitVec.ofNat 64 p.eqtail
    | 0x120 => BitVec.ofNat 64 p.eqlost
    | _ => 0

/-- The first two MiB of PF0 BAR0: identity, boot, reset, timer, TINV, and the groves. -/
def readLower (s : State) (o : Nat) : Word :=
  if o = 0 then Config.deviceId.setWidth 64
  else if o = 8 then Config.revision.setWidth 64
  else if o = 0x10 then BitVec.ofNat 64 s.bootState
  else if o = 0x1000 then
    BitVec.ofNat 64 (((List.range 16).map fun t => flagBit (s.tenant t).busy * 2 ^ (32 + t)).sum)
  else if o = 0x1008 then s.timer
  else if o = 0x2000 then BitVec.ofNat 64 (s.tinvTenant + flagBit s.tinvAll * 2 ^ 4 + flagBit s.tinvJob.isSome * 2 ^ 6)
  else if o = 0x2008 then s.tinvStart
  else if o = 0x2010 then s.tinvEnd
  else match inBlock 0x100000 0x1000 96 o with
    | some (g, 0) =>
      let k := s.grove g
      BitVec.ofNat 64 (flagBit (!(s.preQueue g).isEmpty || k.preHalted) * 2 + flagBit k.stopped * 4)
    | some (g, 8) => (s.grove g).lseed.setWidth 64
    | _ => 0

/-- Sync windows, tenant registers, counters and tenant pages. -/
def readUpper (s : State) (o : Nat) : Word :=
  match inBlock 0x241000 0x10 256 o with
  | some (n, k) =>
    let r := s.tenant (n / 16)
    Tab.get 0 (if k = 0 then r.syncLo else if k = 8 then r.syncHi else []) (n % 16)
  | none =>
    match inBlock 0x250000 0x1000 16 o with
    | some (t, k) => readTenant (s.tenant t) k
    | none =>
      match inBlock 0x400000 8 0x80000 o with
      | some (k, 0) => if isCounterKey k then s.perfAt k else 0
      | some _ => 0
      | none =>
        match inBlock 0x3000000 0x10000 16 o with
        | some (t, k) => readPage (s.page t) k
        | none => 0

/-- A read of a register of PF0 BAR0 (R449): reserved fields, write-only fields and offsets that the table does not list
are zero. -/
def readPf0 (s : State) (o : Nat) : Word :=
  if o % 8 ≠ 0 then 0
  else if o < 0x200000 then readLower s o
  else if o = 0x210040 then s.saveBase
  else if o = 0x210048 then s.saveSize
  else if o = 0x210050 then BitVec.ofNat 64 s.fsusp
  else match inBlock 0x200000 64 64 o with
  | some (n, k) => readPair (s.pair n) k
  | none =>
    match inBlock 0x210000 8 4 o with
    | some (c, 0) => BitVec.ofNat 64 (Tab.get 16 s.prefixes c)
    | some _ => 0
    | none =>
      match inBlock 0x220000 16 4096 o with
      | some (e, k) => BitVec.ofNat 64 (fld (Tab.get 0 s.route e) (8 * k) 64)
      | none =>
        match inBlock 0x230000 0x40 32 o with
        | some (n, k) => readSlot ((s.link (n / 2)).slot (n % 2)) k
        | none =>
          match inBlock 0x240000 0x20 8 o with
          | some (g, 0) => (s.glade g).ovBase
          | some (g, 8) => (s.glade g).ovSize
          | some _ => 0
          | none => readUpper s o

/-- The bytes that stand for an entry of a grove's region table: the descriptor, the tenant, the current version, the
dropping flag, and the count of live tasks bound to each version (R393; log 60). -/
def regionBytes (s : State) (g id : Nat) : List Byte :=
  match (s.grove g).region id with
  | none => []
  | some r =>
    let bound (v : Nat) : Nat := ((s.grove g).bound.filter fun e =>
      (recBoxes e.2.record).any fun b => b.region == id && e.2.bind b.slot == v).length
    toBytes 64 r.desc.toNat ++ toBytes 8 r.tenant ++ toBytes 8 r.current ++ toBytes 8 (flagBit (s.dropsRegion g id)) ++
      (List.range (rdVer r.desc)).flatMap fun v => toBytes 8 (bound v)

/-- System software reads an entry of a region table through the grove control registers (R393; log 60). -/
def readRegion (g id : Nat) (s : State) : State :=
  if s.bootState = 2 then s else s.send (.reply (regionBytes s g id))

/-- The host reads a register of PF0, or of a page through the function of a tenant (R447, R452); after a failed boot only
the first 4 KiB of PF0 BAR0 answer (R455). -/
def readRegister (tenant : Option Nat) (offset : Nat) (s : State) : State :=
  match tenant with
  | none => if s.bootState = 2 ∧ 0x1000 ≤ offset then s else s.send (.reply (toBytes 8 (readPf0 s offset).toNat))
  | some t =>
    if s.bootState = 2 then s
    else if s.enabled t then s.send (.reply (toBytes 8 (readPage (s.page t) offset).toNat))
    else s.send .unsupported

end Sys2Proof.Machine
end

