-- ==== Sys2Proof/Machine/Rings.lean ====
section
/-! DEFINITION. Scratchpad rings: the entry, the slot word and the eight ring instructions (R345 to R352). -/

namespace Sys2Proof.Machine

/-! ## The entry (R346) -/

/-- A ring table entry by its fields. -/
structure Ring where
  base : Nat
  ssize : Nat
  count : Nat
  state : Nat
  eos : Bool
  h : Nat
  f : Nat
  t : Nat
  e : Nat
  errcode : Nat
  errindex : Nat
deriving DecidableEq, Repr

/-- The fields of an entry. -/
def Ring.of (x : BitVec 512) : Ring :=
  { base := fld x 0 20, ssize := 64 * (fld x 32 10 + 1), count := 2 ^ fld x 48 5, state := fld x 56 2,
    eos := bit x 58, h := fld x 64 32, f := fld x 96 32, t := fld x 128 32, e := fld x 160 32,
    errcode := fld x 192 16, errindex := fld x 224 32 }

/-- An entry with the indices and the state of `r`; its configuration stays (R346). -/
def Ring.into (r : Ring) (x : BitVec 512) : BitVec 512 :=
  let word0 := fld x 0 56 + r.state % 4 * 2 ^ 56 + r.eos.toNat * 2 ^ 58
  BitVec.ofNat 512 (word0 + r.h % 2 ^ 32 * 2 ^ 64 + r.f % 2 ^ 32 * 2 ^ 96 + r.t % 2 ^ 32 * 2 ^ 128
    + r.e % 2 ^ 32 * 2 ^ 160 + r.errcode % 2 ^ 16 * 2 ^ 192 + r.errindex % 2 ^ 32 * 2 ^ 224)

/-- a − b modulo 2^32. -/
def sub32 (a b : Nat) : Nat := (a + 2 ^ 32 - b % 2 ^ 32) % 2 ^ 32
def add32 (a b : Nat) : Nat := (a + b) % 2 ^ 32

/-- Filled, claimed and free counts. -/
def Ring.filled (r : Ring) : Nat := sub32 r.f r.h
def Ring.claimed (r : Ring) : Nat := sub32 r.t r.f
def Ring.free (r : Ring) : Nat := r.count - sub32 r.t r.h

/-- The slot word of R349. -/
def Ring.slotWord (r : Ring) (status i : Nat) : Word :=
  let off := if status = 0 then (r.base + i % r.count * r.ssize) % 2 ^ 20 else 0
  BitVec.ofNat 64 (i % 2 ^ 32 + off * 2 ^ 32 + status * 2 ^ 62)

/-- Whether RFIX.init accepts an image (R351). -/
def ringAccepts (x : BitVec 512) : Bool :=
  let r := Ring.of x
  fld x 20 12 == 0 && fld x 42 6 == 0 && fld x 53 3 == 0 && fld x 59 5 == 0 && fld x 208 16 == 0 &&
  fld x 256 256 == 0 && decide (r.state ≤ 1) && (r.eos || r.e == 0) && decide (fld x 48 5 ≤ 16) &&
  decide (sub32 r.f r.h ≤ sub32 r.t r.h) && decide (sub32 r.t r.h ≤ r.count) &&
  (!r.eos || (r.e == r.f && r.f == r.t)) && r.base % 64 == 0 && decide (r.base + r.count * r.ssize ≤ 2 ^ 20)

/-! ## The frame of a ring instruction -/

def State.ringWord (s : State) (c n : Nat) : BitVec 512 := Tab.get 0 (s.core c).ring n
def State.setRingWord (s : State) (c n : Nat) (x : BitVec 512) : State :=
  s.modCore c fun k => { k with ring := Tab.set 0 k.ring n x }
/-- The number of a ring among those of the device, for the order of its waiters. -/
def ringKey (c n : Nat) : Nat := 16 * c + n

/-- A change of an entry: the blocked instructions on its ring are attempted again next (R347). -/
def State.changeRing (s : State) (c n : Nat) (x : BitVec 512) : State :=
  (s.setRingWord c n x).retry fun w => [0, 7, 8, 9].contains w.kind && w.key == ringKey c n

/-- Change the indices and the state of a ring. -/
def setRing (c n : Nat) (r : Ring) : M Unit := modS fun s => s.changeRing c n (r.into (s.ringWord c n))

/-- Address and state checks of a ring instruction (R348): core, number and fields of the ring. -/
def ringAt (a : Word) (off err : Bool) : M (Nat × Nat × Ring) := do
  let (c, o) ← tablePlace a 64 0 0x400
  let n := o / 64
  let r ← gets' fun s => Ring.of (s.ringWord c n)
  trapIf ((r.state == 0 && !off) || (r.state == 2 && !err)) Cause.ringError a
  pure (c, n, r)

/-- Whether what a blocked ring instruction waits for has come (R350): slots for an RCLAIM or a WFREE, the turn of an
RPUB, a slot or the end of the stream for a WFILL; a ring that has left RUN traps each of them (R348). -/
def Ring.serves (r : Ring) (w : Waiter) : Bool :=
  r.state != 1 || match w.kind with
  | 0 | 7 => decide (w.need ≤ r.free)
  | 8 => r.f == w.need
  | 9 => decide (w.need < r.filled) || (r.eos && decide (sub32 r.e r.h ≤ w.need))
  | _ => false

/-- The slots of a ring that RCLAIMs which blocked earlier keep (R347). -/
def State.claimsAhead (s : State) (c n : Nat) : Nat :=
  (((s.ahead (ringKey c n)).filter fun w => w.kind == 0).map (·.need)).sum

/-- Whether a ring instruction must let an earlier one go first: one that blocked before it and can be served now, and
for an RCLAIM any RCLAIM that blocked before it (R347). -/
def State.ringTaken (s : State) (c n : Nat) (r : Ring) (claims : Bool) : Bool :=
  (s.ahead (ringKey c n)).any fun w => r.serves w || (claims && w.kind == 0)

/-- Block on a ring when its condition fails or an earlier instruction is to be served first. -/
def ringWait (kind c n need : Nat) (r : Ring) : M Unit := do
  let w : Waiter := { stream := (← gets' fun s => s.cur), kind := kind, key := ringKey c n, need := need }
  if !r.serves w || (← gets' fun s => s.ringTaken c n r (kind == 0)) then blockOn kind (ringKey c n) need else pure ()

/-- An instruction that does not wait on a ring lets those go first that blocked earlier and can be served now (R347). -/
def ringTurn (c n : Nat) (r : Ring) : M Unit := do blockIf ((← gets' fun s => s.ringTaken c n r false))

/-- Whether the task of the current stream is in deterministic mode (R352). -/
def detM : M Bool := gets' fun s => s.seq.detm

/-! ## The ring instructions (R350) -/

/-- RCLAIM; `.nb` does not block: it gives status 11 when slots are short, those not counted that RCLAIMs which blocked earlier
keep (DESIGN CHOICE, log 36). -/
def execRclaim (d : Dst) (a b : Src) (nb : Bool) (s : State) :=
  scalarOp [a, b] d (do
    let x ← readSrc a
    let y ← readSrc b
    let (c, n, r) ← ringAt x false false
    trapIf (y == 0 || decide (r.count < y.toNat)) Cause.illegalOperand y
    trapIf r.eos Cause.ringError 0
    let short ← gets' fun t => decide (r.free < t.claimsAhead c n + y.toNat)
    let wait := !nb || (← detM)
    if !wait && short then writeDst d (r.slotWord 3 r.t)
    else do
      if wait then ringWait 0 c n y.toNat r else pure ()
      setRing c n { r with t := add32 r.t y.toNat }
      writeDst d (r.slotWord 0 r.t)) s

def execRpub (d : Dst) (a b : Src) (rlx eos : Bool) (s : State) :=
  scalarOp [a, b] d (do
    let x ← readSrc a
    let y ← readSrc b
    let (c, n, r) ← ringAt x false false
    let i := fld y 0 32
    let k := fld y 32 17
    trapIf (fld y 49 15 != 0 || k == 0 || decide (65536 < k)) Cause.illegalOperand y
    trapIf (decide (r.claimed < sub32 i r.f + k)) Cause.ringError 0
    ringWait 8 c n i r
    trapIf (eos && r.t != add32 i k) Cause.ringError 0
    releaseWait (if rlx then .relaxed else .release) .device
    let f := add32 i k
    setRing c n (if eos then { r with f := f, e := f, eos := true } else { r with f := f })
    writeDst d (BitVec.ofNat 64 f)) s

def execWfill (d : Dst) (a b : Src) (s : State) :=
  scalarOp [a, b] d (do
    let x ← readSrc a
    let y ← readSrc b
    let (c, n, r) ← ringAt x false false
    trapIf (decide (r.count ≤ y.toNat)) Cause.illegalOperand y
    let j := add32 r.h y.toNat
    if r.eos ∧ sub32 r.e r.h ≤ y.toNat then
      writeDst d (if r.h = r.e then r.slotWord 1 r.e else r.slotWord 2 j)
    else do
      ringWait 9 c n y.toNat r
      writeDst d (r.slotWord 0 j)) s

def execWfree (d : Dst) (a b : Src) (s : State) :=
  scalarOp [a, b] d (do
    let x ← readSrc a
    let y ← readSrc b
    let (c, n, r) ← ringAt x false false
    trapIf (decide (r.count < y.toNat)) Cause.illegalOperand y
    ringWait 7 c n y.toNat r
    writeDst d (if ← detM then y else BitVec.ofNat 64 r.free)) s

def execRcons (d : Dst) (a b : Src) (s : State) :=
  scalarOp [a, b] d (do
    let x ← readSrc a
    let y ← readSrc b
    let (c, n, r) ← ringAt x false false
    trapIf (decide (r.filled < y.toNat)) Cause.illegalOperand y
    ringTurn c n r
    releaseWait .release .device
    let h := add32 r.h y.toNat
    setRing c n { r with h := h }
    writeDst d (BitVec.ofNat 64 h)) s

def execRerr (d : Dst) (a b : Src) (s : State) :=
  scalarOp [a, b] d (do
    let x ← readSrc a
    let y ← readSrc b
    let (c, n, r) ← ringAt x false true
    trapIf (fld y 0 16 == 0 || fld y 16 16 != 0) Cause.illegalOperand y
    ringTurn c n r
    releaseWait .acqRel .device
    if r.state = 1 then setRing c n { r with state := 2, errcode := fld y 0 16, errindex := fld y 32 32 } else pure ()
    writeDst d (BitVec.ofNat 64 r.state)) s

def execRfix (d : Dst) (a b : Src) (s : State) :=
  scalarOp [a, b] d (do
    let x ← readSrc a
    let y ← readSrc b
    let (c, n, r) ← ringAt x false true
    trapIf (fld y 32 32 != 0 || decide (r.filled < sub32 y.toNat r.h)) Cause.illegalOperand y
    trapIf (r.state != 2) Cause.ringError 0
    ringTurn c n r
    releaseWait .acqRel .device
    setRing c n { r with h := fld y 0 32, t := r.f, errcode := 0, errindex := 0, state := 1 }
    writeDst d (BitVec.ofNat 64 r.claimed)) s

def execRfixInit (d : Dst) (a b : Src) (s : State) :=
  scalarOp [a, b] d (do
    let x ← readSrc a
    let y ← readSrc b
    let (c, n, r) ← ringAt x true true
    trapIf (y.toNat % 64 != 0) Cause.illegalOperand y
    trapIf (r.state == 1) Cause.ringError 0
    ringTurn c n r
    let l ← load (← thisAgent) .vector y 64 64
    let v : BitVec 512 := BitVec.ofNat 512 (ofBytes l)
    trapIf (!ringAccepts v) Cause.ringMalformed y
    releaseWait .acqRel .device
    modS fun t => t.changeRing c n v
    writeDst d 0) s

/-- The words of RSTAT. -/
def Ring.stat (r : Ring) : RstatWord → Word
  | .word => BitVec.ofNat 64 (r.h + r.f * 2 ^ 32)
  | .tail => BitVec.ofNat 64 (r.t + r.e * 2 ^ 32)
  | .err => BitVec.ofNat 64 (r.state + r.eos.toNat * 4 + r.errcode * 2 ^ 16 + r.errindex * 2 ^ 32)

def execRstat (d : Dst) (a : Src) (f : RstatWord) (s : State) :=
  scalarOp [a] d (do
    let x ← readSrc a
    let (_, _, r) ← ringAt x true true
    trapIf (← detM) Cause.detEscape x
    writeDst d (r.stat f)) s

end Sys2Proof.Machine
end

