-- ==== Sys2Proof/Machine/Special.lean ====
section
/-! DEFINITION. The special functions of R147: each lies within a bound of the exact value, which is
enclosed here by fixed-point series; within the bound the value is the device's own (log 10). -/

namespace Sys2Proof

/-! ## Fixed-point values: an integer n stands for n / 2^fixP -/

/-- Fraction bits of the fixed-point values. -/
abbrev fixP : Nat := 256
/-- The value one. -/
abbrev fixOne : Int := ((2 ^ fixP : Nat) : Int)

/-- Product and quotient of fixed-point values, truncated downward. -/
def fixMul (a b : Int) : Int := a * b / fixOne
def fixDiv (a b : Int) : Int := if b = 0 then 0 else a * fixOne / b

/-- The finite value ±m·2^e as a fixed-point value, for exponents of FP32. -/
def fixOf (neg : Bool) (m : Nat) (e : Int) : Int := FVal.scaled neg m (e + fixP) 0

/-- Sum of `n` terms of a series with ratio `r k` between term k − 1 and term k. -/
def fixSeries (r : Nat → Int → Int) : Nat → Nat → Int → Int → Int
  | 0, _, _, acc => acc
  | n + 1, k, t, acc =>
    let t' := r k t
    fixSeries r n (k + 1) t' (acc + t')

/-- Sum over k of x^(2k+1) / (2k+1), for `n` terms beyond the first, with sign `sg` between terms. -/
def fixOdd (sg : Int) (x2 : Int) : Nat → Nat → Int → Int → Int
  | 0, _, _, acc => acc
  | n + 1, k, t, acc =>
    let t' := sg * fixMul t x2
    fixOdd sg x2 n (k + 1) t' (acc + t' / (2 * (k : Int) + 1))

/-- atanh x for |x| ≤ 1/3; atan(1/n) for n ≥ 2, with 160 further bits. -/
def fixAtanh (x : Int) : Int := fixOdd 1 (fixMul x x) 85 1 x x
def fixAtanInv (n : Nat) : Int :=
  let x := fixOne * 2 ^ 160 / (n : Int)
  let next (t : Int) : Int := -(t / ((n : Int) * n))
  let rec go : Nat → Nat → Int → Int → Int
    | 0, _, _, acc => acc
    | f + 1, k, t, acc => go f (k + 1) (next t) (acc + next t / (2 * (k : Int) + 1))
  go 220 1 x x

/-- ln 2 and, with 160 further bits, π (Machin). -/
def fixLn2 : Int := 2 * fixAtanh (fixOne / 3)
def fixPiWide : Int := 16 * fixAtanInv 5 - 4 * fixAtanInv 239

/-- e^x for a fixed-point x of magnitude below 128. -/
def fixExp (x : Int) : Int :=
  let k := x / fixLn2
  let r := x - k * fixLn2
  let s := fixSeries (fun j t => fixMul t r / (j : Int)) 60 1 fixOne fixOne
  if 0 ≤ k then s * 2 ^ k.toNat else s / 2 ^ (-k).toNat

/-- ln of m·2^e for m > 0. -/
def fixLn (m : Nat) (e : Int) : Int :=
  let l := Nat.log2 m
  let y := fixOf false m (-(l : Int))
  2 * fixAtanh (fixDiv (y - fixOne) (y + fixOne)) + (e + l) * fixLn2

/-- Sine (`odd`) or cosine of the exact value ±m·2^e: the argument is reduced to |r| ≤ π/4 and a quadrant. -/
def fixTrig (odd : Bool) (neg : Bool) (m : Nat) (e : Int) : Int :=
  let x := FVal.scaled neg m (e + fixP + 160) 0
  let half := fixPiWide / 2
  let q := (2 * x + half) / (2 * half)
  let r := (x - q * half) / 2 ^ 160
  let r2 := fixMul r r
  let sin' := fixSeries (fun k t => -(fixMul t r2 / (2 * (k : Int) * (2 * k + 1)))) 40 1 r r
  let cos' := fixSeries (fun k t => -(fixMul t r2 / (2 * (k : Int) * (2 * k - 1)))) 40 1 fixOne fixOne
  match (q + if odd then 0 else 1) % 4 with
  | 0 => sin'
  | 1 => cos'
  | 2 => -sin'
  | _ => -cos'

/-! ## The functions -/

/-- The functions whose values lie within a bound. -/
inductive SpecialFn where
  | rcp | rsq | exp | log | tanh | sigm | sin | cos
deriving DecidableEq, Repr
def SpecialFn.code : SpecialFn → Nat
  | .rcp => 0 | .rsq => 1 | .exp => 2 | .log => 3 | .tanh => 4 | .sigm => 5 | .sin => 6 | .cos => 7

/-- The bound of R147 in ulps of FP32. -/
def SpecialFn.ulps : SpecialFn → Nat
  | .rcp | .rsq => 1
  | _ => 2

/-- The exact value as a fixed-point number, off by far less than 2^−32 of an FP32 ulp. The arguments at
which the result is special or leaves the range of FP32 are not asked. -/
def SpecialFn.fixed (f : SpecialFn) (neg : Bool) (m : Nat) (e : Int) : Int :=
  let x := fixOf neg m e
  let ax := fixOf false m e
  match f with
  | .rcp => FVal.scaled neg (2 ^ ((fixP : Int) - e).toNat / m) 0 0
  | .rsq =>
    let n := 2 ^ (2 * (fixP : Int) - e).toNat / m
    ((isqrtBits n (Nat.log2 n / 2 + 1) 0 : Nat) : Int)
  | .exp => fixExp x
  | .log => fixLn m e
  | .tanh =>
    let t := fixExp (2 * min ax (40 * fixOne))
    let v := fixDiv (t - fixOne) (t + fixOne)
    if neg then -v else v
  | .sigm =>
    let t := fixExp (-(min ax (120 * fixOne)))
    if neg then fixDiv t (fixOne + t) else fixDiv fixOne (fixOne + t)
  | .sin => fixTrig true neg m e
  | .cos => fixTrig false neg m e

/-- A fixed-point value as an exact value. -/
def fixVal (v : Int) : FVal := .fin (decide (v < 0)) v.natAbs (-(fixP : Int))

/-- Whether an FP32 code is within the bound of the exact value `v` (R147): in ulps at the exact result, of
its sign; beyond 1024 for sine and cosine an absolute error of 2^−22; and within the range named. -/
def SpecialFn.admits (f : SpecialFn) (v : Int) (big : Bool) (g : Nat) : Bool :=
  match NumFmt.fp32.decode g with
  | .fin s m e =>
    let ulp := 2 ^ (max ((Nat.log2 v.natAbs : Int) - 23) ((fixP : Int) - 149)).toNat
    let d := (fixOf s m e - v).natAbs + ulp / 2 ^ 32
    let near := if big && (f == .sin || f == .cos) then decide (d ≤ 2 ^ (fixP - 22))
                else decide (d ≤ f.ulps * ulp) && (s == decide (v < 0))
    let range := match f with
      | .tanh | .sin | .cos => decide ((fixOf s m e).natAbs ≤ 2 ^ fixP)
      | .sigm => !s && decide (fixOf s m e ≤ fixOne)
      | _ => true
    decide (g < 2 ^ 32) && near && range
  | _ => false

/-- g(x) of R147 where no special value applies: what the device returns, if the bound admits it, and else
the exact value rounded. Beyond the range of FP32 it is what rounding gives. -/
def SpecialFn.bounded (f : SpecialFn) (neg : Bool) (m : Nat) (e : Int) : Nat :=
  let ax := fixOf false m e
  if f = .exp ∧ 120 * fixOne < ax then NumFmt.fp32.round .rne (if neg then .fin false 0 0 else .inf false)
  else
    let v := f.fixed neg m e
    let c := NumFmt.fp32.roundSticky .rne (fixVal v) true
    let g := Config.approx f.code (NumFmt.fp32.round .rne (.fin neg m e))
    if c % 2 ^ 31 ≤ NumFmt.fp32.maxFinite && f.admits v (decide (1024 * fixOne < ax)) g then g else c

/-- g(x) as an FP32 code (R147). -/
def SpecialFn.eval (f : SpecialFn) (x : FVal) : Nat :=
  let z (s : Bool) : Nat := NumFmt.fp32.round .rne (.fin s 0 0)
  let one : Nat := NumFmt.fp32.round .rne (.fin false 1 0)
  let inf (s : Bool) : Nat := NumFmt.fp32.round .rne (.inf s)
  let nan := NumFmt.fp32.nanCode
  match x with
  | .nan => nan
  | .inf s =>
    match f with
    | .rcp => z s
    | .rsq => if s then nan else z false
    | .exp => if s then z false else inf false
    | .log => if s then nan else inf false
    | .tanh => NumFmt.fp32.round .rne (.fin s 1 0)
    | .sigm => if s then z false else one
    | .sin | .cos => nan
  | .fin s m e =>
    if m = 0 then
      match f with
      | .rcp | .rsq => inf s
      | .exp | .cos => one
      | .log => inf true
      | .tanh | .sin => z s
      | .sigm => NumFmt.fp32.round .rne (.fin false 1 (-1))
    else if s ∧ (f = .rsq ∨ f = .log) then nan
    else if f = .log ∧ x.eqv (.fin false 1 0) then z false
    else f.bounded s m e

end Sys2Proof
end

