-- ==== Sys2Proof/Machine/Rotation.lean ====
section
/-! DEFINITION. The rotation array: rows, vectoring and rotation, passes, angles, the RT instructions and
the commits of the array (R54 to R60, R210 to R238). -/

namespace Sys2Proof.Machine

/-! ## Rows (R56, R57, R213, R214) -/

/-- The used columns from triangle column `j` on (R212). -/
def rotCols (n m j : Nat) : List Nat := ((List.range n).drop j) ++ (List.range m).map (16 + ·)

def RRow.at' (r : RRow) (c : Nat) : Int := Tab.get 0 r.m c
/-- A row with the listed columns. -/
def RRow.of (l : List (Nat × Int)) (e : Int) : RRow :=
  { m := l.foldl (fun t p => Tab.set 0 t p.1 p.2) [], e := e }
/-- A row with some columns, and the exponent, of another: the others take no part (R212). -/
def RRow.put (r : RRow) (cols : List Nat) (new : RRow) : RRow :=
  { m := cols.foldl (fun t c => Tab.set 0 t c (new.at' c)) r.m, e := new.e }
/-- The largest mantissa magnitude over some columns. -/
def RRow.maxOf (r : RRow) (cols : List Nat) : Nat := (cols.map fun c => (r.at' c).natAbs).foldl Nat.max 0

/-- A row read from an image: its examined columns in normal form, or the zero row (R214). -/
def rowOfImage (cols : List Nat) (l : List Byte) : Option RRow :=
  let words := elemsOf 32 25 (ofBytes l)
  let r := RRow.of (cols.map fun c => (c, sextInt 32 (words.getD c 0))) (sextInt 16 (words.getD 24 0))
  let mx := r.maxOf cols
  if mx = 0 then some .zero
  else if 2 ^ 28 ≤ mx ∧ mx < 2 ^ 29 then some r
  else none

/-- FP32 codes as a rotation row (R57); `cols` pairs each converted value with its column. -/
def rowOfFloats (cols : List (Nat × Nat)) : RRow :=
  let vals := cols.map fun p => (p.1, NumFmt.fp32.decode p.2)
  let mx := (vals.map fun p => magUnits p.2).foldl Nat.max 0
  if mx = 0 then .zero
  else
    let e : Int := (Nat.log2 mx : Int) - 149 + 2
    RRow.of (vals.map fun p => match p.2 with
      | .fin s m x => (p.1, roundToInt .rne s m (x + 30 - e))
      | _ => (p.1, 0)) e

/-- A mantissa as an FP32 code. -/
def floatOfRot (n e : Int) : Nat := NumFmt.fp32.round .rne (.fin (decide (n < 0)) n.natAbs (e - 30))

/-! ## Vectoring, rotation, renormalisation (R215 to R219) -/

/-- Align a row to exponent `e` over its columns. -/
def RRow.align (r : RRow) (e : Int) : RRow :=
  let s := (e - r.e).toNat
  { m := Tab.mapVals (fun _ v => if 64 ≤ s then 0 else shrRne v s) r.m, e := e }

/-- The 24 stages of vectoring from stage `i` on: the code's direction bits, and the final x. -/
def vecStages : Nat → Nat → Int → Int → Nat → Nat × Int
  | 0, _, x, _, code => (code, x)
  | f + 1, i, x, y, code =>
    let s : Int := if y < 0 then 1 else -1
    let code' := if y < 0 then code else code + 2 ^ (29 - i)
    vecStages f (i + 1) (x - s * (y / 2 ^ i)) (y + s * (x / 2 ^ i)) code'

/-- Vectoring of a pair: the code and the x before compensation (R216). -/
def vectoring (x y : Int) : Nat × Int :=
  if x < 0 then
    let r := vecStages 24 0 (-x) (-y) 0
    (2 * 2 ^ 30 + r.1, r.2)
  else vecStages 24 0 x y 0

/-- The stages of a rotation by a code. -/
def rotStages (code : Nat) : Nat → Nat → Int → Int → Int × Int
  | 0, _, x, y => (x, y)
  | f + 1, i, x, y =>
    let s : Int := if code / 2 ^ (29 - i) % 2 = 0 then 1 else -1
    rotStages code f (i + 1) (x - s * (y / 2 ^ i)) (y + s * (x / 2 ^ i))

/-- Rotation of a pair by a code, before compensation (R60, R217). -/
def rotate (code : Nat) (x y : Int) : Int × Int :=
  match code / 2 ^ 30 % 4 with
  | 0 => rotStages code 24 0 x y
  | 1 => rotStages code 24 0 (-y) x
  | 2 => rotStages code 24 0 (-x) (-y)
  | _ => rotStages code 24 0 y (-x)

/-- Gain compensation (R218). -/
def compensate (n : Int) : Int := shrRne (n * 0x4DBA76D4) 31

/-- The least shift from `s` on that satisfies a condition. -/
def leastShift (p : Nat → Bool) : Nat → Nat → Nat
  | 0, s => s
  | f + 1, s => if p s then s else leastShift p f (s + 1)

/-- A row in normal form again; none where its exponent overflows (R58, R219). -/
def RRow.renorm (r : RRow) (cols : List Nat) : Option RRow :=
  let mx := r.maxOf cols
  if mx = 0 then some .zero
  else
    let right := decide (2 ^ 29 ≤ mx)
    let s := if right then leastShift (fun s => decide (shrRne mx s < 2 ^ 29)) 64 0
             else leastShift (fun s => decide (2 ^ 28 ≤ mx * 2 ^ s)) 64 0
    let e := if right then r.e + s else r.e - s
    if 32767 < e then none
    else if e < -32767 then some .zero
    else some (RRow.of (cols.map fun c =>
      (c, if right then shrRne (r.at' c) s else r.at' c * (2 ^ s : Nat))) e)

/-! ## Passes (R220) -/

/-- What a pass has changed so far: the rows, the codes, and the row that goes on; or the row that overflowed. -/
structure PassState where
  rows : Tab RRow
  codes : List Nat
  v : RRow

/-- One triangle row of a pass: the columns of the row that the configuration does not use stay, also where the used ones
become the zero row (log 61). -/
def passRow (t n m j : Nat) (p : PassState) : Except Nat PassState :=
  let r := Tab.get RRow.zero p.rows (16 * t + j)
  let cols := rotCols n m j
  let e := max r.e p.v.e
  let ra := r.align e
  let va := p.v.align e
  let (code, bx) := vectoring (ra.at' j) (va.at' j)
  let turned := (cols.filter (· != j)).map fun c => (c, rotate code (ra.at' c) (va.at' c))
  let r' := RRow.of ((j, compensate bx) :: turned.map fun q => (q.1, compensate q.2.1)) e
  let v' := RRow.of (turned.map fun q => (q.1, compensate q.2.2)) e
  match r'.renorm cols, v'.renorm (rotCols n m 0) with
  | some a, some b => .ok { rows := Tab.put p.rows (16 * t + j) (r.put cols a), codes := p.codes ++ [code], v := b }
  | _, _ => .error j

/-- A pass of a row through pair `t`. -/
def passAll (t n m : Nat) (p : PassState) : Except Nat PassState :=
  (List.range n).foldl (fun acc j => match acc with | .ok q => passRow t n m j q | e => e) (.ok p)

/-- A QAPL pair (R231). In the columns that the configuration does not use o0 and o1 are zero, here as after a pass
(DESIGN CHOICE, log 61). -/
def aplPair (n m code : Nat) (u l : RRow) : Option (RRow × RRow) :=
  let cols := rotCols n m 0
  let e := max u.e l.e
  let ua := u.align e
  let la := l.align e
  let turned := cols.map fun c => (c, rotate code (ua.at' c) (la.at' c))
  match (RRow.of (turned.map fun q => (q.1, compensate q.2.1)) e).renorm cols,
        (RRow.of (turned.map fun q => (q.1, compensate q.2.2)) e).renorm cols with
  | some a, some b => some (a, b)
  | _, _ => none

/-! ## The array's queue (R221, R223) -/

def State.rot (s : State) (core : Nat) : Rot := (s.ctx core).rot
def State.modRot (s : State) (core : Nat) (f : Rot → Rot) : State := s.modCtx core fun x => { x with rot := f x.rot }

/-- What the oldest operation gives: the state after its commit, or the origin and TVAL of its overflow. -/
def Rot.commit (r : Rot) : Option (Except (Origin × Nat) Rot) :=
  match r.ops with
  | .pass v t n m pc :: rest =>
    match passAll t n m { rows := r.rows, codes := [], v := v } with
    | .error j => some (.error (pc, j))
    | .ok p => some (.ok { r with
        rows := p.rows, ang := p.codes.zipIdx.foldl (fun tb c => Tab.set 0 tb c.2 c.1) [], o0 := p.v,
        passes := r.passes + 1, ops := rest })
  | .apl u l code n m pc :: rest =>
    match aplPair n m code u l with
    | none => some (.error (pc, 0))
    | some (a, b) => some (.ok { r with o0 := a, o1 := b, ops := rest })
  | .scalar _ _ :: rest => some (.ok { r with ops := rest })
  | [] => none

/-- Whether an operation is a pass or a QAPL. -/
def QOp.isRow : QOp → Bool
  | .scalar _ _ => false
  | _ => true

/-- The triangle rows below `lim` of a pass: the rows that it changes, and the row that overflows. -/
def passUpTo (t n m lim : Nat) (p : PassState) : PassState × Option Nat :=
  (List.range (min n lim)).foldl (fun acc j => match acc.2 with
    | some _ => acc
    | none => match passRow t n m j acc.1 with
      | .ok q => (q, none)
      | .error k => (acc.1, some k)) (p, none)

/-- The overflows that the array may reach first, with their places in the queue: each operation runs with the rows that
the passes before it leave (R221). An older pass that overflows in row j leaves the room `lim` = j: passes enter 28 cycles
apart at least and spend 28 cycles in a row, so the k-th pass behind it reaches only rows below j - k first, and a QAPL
behind k - 1 of them comes first only for k at most j (R223, R224). -/
def overflows : Nat → Nat → Tab RRow → List QOp → List (Nat × Origin × Nat)
  | _, _, _, [] => []
  | i, lim, rows, .scalar _ _ :: rest => overflows (i + 1) lim rows rest
  | i, lim, rows, .pass v t n m pc :: rest =>
    match passUpTo t n m (lim - 1) { rows := rows, codes := [], v := v } with
    | (p, none) => overflows (i + 1) (lim - 1) p.rows rest
    | (p, some j) => (i, pc, j) :: overflows (i + 1) j p.rows rest
  | i, lim, rows, .apl u l code n m pc :: rest =>
    match aplPair n m code u l with
    | some _ => overflows (i + 1) lim rows rest
    | none => if lim = 0 then [] else [(i, pc, 0)]
/-- The overflows of the array's operations; none has an older one before it. -/
def Rot.overflows (r : Rot) : List (Nat × Origin × Nat) :=
  Sys2Proof.Machine.overflows 0 (17 + r.ops.length) r.rows r.ops

/-- The fault of the overflow of the operation at place `i` becomes pending; it, and the passes and QAPLs behind it, are
discarded (R223). The pending fault of a younger one, not yet delivered, gives way to it (DESIGN CHOICE, log 62). -/
def rotFault (core i : Nat) (pc : Origin) (j : Nat) (s : State) : State :=
  s.modRot core fun r => { r with
    fault := some (deferredFault Cause.convertOverflow pc (BitVec.ofNat 64 j))
    ops := r.ops.take i ++ (r.ops.drop i).filter fun o => !o.isRow }

/-- The write of a QVEC or QROT: its destination was held from issue on (R97). -/
def writeScalar (core : Nat) (d : Dst) (v : Word) (s : State) : State :=
  match d with
  | .reg n =>
    let st : Stream := ⟨core, .Q, .pipe⟩
    markDst core .Q true d (s.seqOf st).trcb (s.modSeq st fun q => q.setX n v)
  | .queue k => s.setTokens core k (Tab.get [] (s.ctx core).tq k ++ [v])
  | .discard => s

/-- ARRAY_OPERATION_COMMIT (R221): the oldest operation commits and is counted; the array stands still while the grove is
halted. -/
def execArrayOperationCommit (core : Nat) (s : State) : Host.Outcome State Fault Refusal :=
  let r := s.rot core
  .next (if (s.grove (groveOf core)).preHalted then s
  else match r.ops, r.commit with
  | .scalar d v :: _, some (.ok r') =>
    if s.takes core true (s.ctx core) .Q d then count core 0x05 1 (writeScalar core d v (s.modRot core fun _ => r')) else s
  | _, some (.ok r') => count core 0x05 1 (s.modRot core fun _ => r')
  | _, some (.error (pc, j)) => rotFault core 0 pc j s
  | _, none => s)

/-- ROTATION_FAULT_PENDING (R223): the array reaches the row or result whose exponent overflows, also while older operations
are in it; which of several is reached first is open (log 61). -/
def execRotationFaultPending (core : Nat) (s : State) : Host.Outcome State Fault Refusal :=
  let r := s.rot core
  let l := r.overflows
  .next (match l[Config.overflowFirst s.fresh % l.length]? with
  | some (i, pc, j) => if (s.grove (groveOf core)).preHalted then s else rotFault core i pc j s
  | none => s)

/-! ## RT instructions (R228 to R238) -/

def thisRot : M Rot := gets' fun s => s.here.rot
def modRotM (f : Rot → Rot) : M Unit := modHere fun x => { x with rot := f x.rot }

/-- An RT instruction: a pending rotation fault is delivered in its place, outside a handler (R223, R431). -/
def rtWord (keep : Bool) (srcs : List Src) (d : Dst) (body : M Unit) (s : State) : Host.Outcome State Fault Refusal :=
  arrayFirst 5 keep (scalarOp srcs d body) s

/-- Width, augment columns and selected pair of the configuration (R212). -/
def rotN (r : Rot) : Nat := fld r.qcf 0 4 + 1
def rotM (r : Rot) : Nat := fld r.qcf 4 4
def rotT (r : Rot) : Nat := fld r.qcf 8 1

/-- Whether an operation in the array writes tri `t`, o0 (any row operation), o1. -/
def Rot.writesTri (r : Rot) (t : Nat) : Bool := r.ops.any fun o => match o with | .pass _ k _ _ _ => k == t | _ => false
def Rot.writesOut (r : Rot) : Bool := r.ops.any QOp.isRow
def Rot.writesApl (r : Rot) : Bool := r.ops.any fun o => match o with | .apl _ _ _ _ _ _ => true | _ => false
def Rot.writesAng (r : Rot) : Bool := r.ops.any fun o => match o with | .pass _ _ _ _ _ => true | _ => false

/-- Read a row: an image, or FP32 values whose first `skip` are not examined (R213, R214). DESIGN CHOICE (log 64): an FP32 row
that crosses the end of a 64 KiB page is read in the pieces that its pages cut; R213 and R245 do not say what its pieces are. -/
def readRow (f : Bool) (a : Word) (n m skip : Nat) : M RRow := do
  let ag ← thisAgent
  let cols := rotCols n m skip
  if f then do
    let l ← readSpan ag a.toNat (4 * (n + m)) 4
    let vals := elemsOf 32 (n + m) (ofBytes l)
    let bad := (List.range (n + m)).find? fun i =>
      decide (skip ≤ i) && !(NumFmt.fp32.decode (vals.getD i 0)).isFinite
    match bad with
    | some i => trap Cause.illegalOperand (a + BitVec.ofNat 64 (4 * i))
    | none => pure (rowOfFloats (((rotCols n m 0).zip vals).drop skip))
  else do
    let l ← load ag .vector a 128 128
    match rowOfImage cols l with
    | some r => pure r
    | none => trap Cause.illegalOperand a

/-- Store a row in either form; columns outside `cols` are written as zero (R213). An FP32 row that crosses the end of a page
is written in pieces, as it is read (DESIGN CHOICE, log 64). -/
def storeRow (f : Bool) (a : Word) (n m : Nat) (cols : List Nat) (r : RRow) : M Unit := do
  let ag ← thisAgent
  if f then do
    let bytes := (rotCols n m 0).flatMap fun c =>
      toBytes 4 (if cols.contains c then floatOfRot (r.at' c) r.e else 0)
    let pieces := segments 2 a bytes.length
    checkPiecesAt ag a bytes.length
    let _ ← pieces.foldlM (fun (rest : List Byte) p => do
      store ag .vector p.1 (rest.take p.2) 4
      pure (rest.drop p.2)) bytes
    pure ()
  else do
    let bytes := (List.range 24).flatMap fun c => toBytes 4 (wrapInt 32 (if cols.contains c then r.at' c else 0))
    store ag .vector a (bytes ++ toBytes 2 (wrapInt 16 r.e) ++ List.replicate 30 0) 128
where
  /-- Every piece is checked before any is written. -/
  checkPiecesAt (ag : Agent) (a : Word) (n : Nat) : M Unit :=
    (segments 2 a n).forM fun p => do let _ ← probe ag .vector .write p.1 p.2 4; pure ()

/-- QCFG waits for the earlier operations before it checks its value (DESIGN CHOICE, log 61; R228). -/
def execQcfg (a : Src) (s : State) :=
  rtWord false [a] .discard (do
    let r ← thisRot
    blockIf (!r.ops.isEmpty)
    let v ← readSrc a
    trapIf (decide (8 < fld v 4 4) || fld v 9 55 != 0) Cause.illegalOperand v
    modRotM fun r => { r with qcf := v.setWidth 9 }) s

def execQclr (k : BitVec 1) (s : State) :=
  rtWord false [] .discard (do
    let r ← thisRot
    blockIf (r.writesTri k.toNat)
    modRotM fun r => { r with rows := Tab.keep (fun j => j / 16 != k.toNat) r.rows }) s

/-- An operation enters the array; after an overflow that is still to be delivered it is discarded (R223). -/
def enterRot (o : QOp) : M Unit := modRotM fun r =>
  if r.fault.isSome && o.isRow then r else { r with ops := r.ops ++ [o] }

def execQann (a : Src) (f : Bool) (s : State) :=
  rtWord false [a] .discard (do
    let r ← thisRot
    let x ← readSrc a
    let v ← readRow f x (rotN r) (rotM r) 0
    let pc ← thisOrigin
    enterRot (.pass v (rotT r) (rotN r) (rotM r) pc)) s

/-- QAPL. DESIGN CHOICE (log 64): the upper row is read and examined before the lower row is read; the spec does not order the
examination of the one against a memory fault of the other. -/
def execQapl (a b : Src) (f : Bool) (s : State) :=
  rtWord false [a, b] .discard (do
    let r ← thisRot
    let x ← readSrc a
    let y ← readSrc b
    let n := rotN r
    let m := rotM r
    let u ← readRow f x n m 0
    let l ← readRow f (x + if f then BitVec.ofNat 64 (4 * (n + m)) else 128) n m 0
    let pc ← thisOrigin
    enterRot (.apl u l (fld y 0 32) n m pc)) s

/-- A Q2.30 operand of a scalar pair (R232). Where both operands of QVEC are out of range, a's is the one that TVAL holds
(DESIGN CHOICE, log 62). -/
def rotOperand (v : Word) (lo : Nat) : M Int :=
  let n := sextInt 32 (fld v lo 32)
  if 2 ^ 29 ≤ n.natAbs then trap Cause.illegalOperand v else pure n

def execQvec (d : Dst) (a b : Src) (s : State) :=
  rtWord false [a, b] d (do
    let u ← readSrc a
    let v ← readSrc b
    let x ← rotOperand u 0
    let y ← rotOperand v 0
    let (code, bx) := vectoring x y
    claimDst d
    enterRot (.scalar d (BitVec.ofNat 64 (code + 2 ^ 32 * wrapInt 32 (compensate bx))))) s

def execQrot (d : Dst) (a b : Src) (s : State) :=
  rtWord false [a, b] d (do
    let u ← readSrc a
    let v ← readSrc b
    let x ← rotOperand u 0
    let y ← rotOperand u 32
    let p := rotate (fld v 0 32) x y
    claimDst d
    enterRot (.scalar d (BitVec.ofNat 64 (wrapInt 32 (compensate p.1) + 2 ^ 32 * wrapInt 32 (compensate p.2))))) s

/-! ## Angles in radians (R226, R227) -/

/-- atan(2^−i) as a fixed-point value with 160 further bits. -/
def fixStage (i : Nat) : Int := if i = 0 then fixPiWide / 4 else fixAtanInv (2 ^ i)

/-- The angle of a code, exact but for the fixed-point error (R60). -/
def angleOf (code : Nat) : Int :=
  let q : Int := match code / 2 ^ 30 % 4 with
    | 0 => 0 | 1 => fixPiWide / 2 | 2 => fixPiWide | _ => -(fixPiWide / 2)
  (List.range 24).foldl (fun acc i =>
    if code / 2 ^ (29 - i) % 2 = 0 then acc + fixStage i else acc - fixStage i) q

def execQangf (d : Dst) (a : Src) (s : State) :=
  rtWord false [a] d (do
    let v ← readSrc a
    let t := angleOf (fld v 0 32)
    writeDst d (BitVec.ofNat 64 (NumFmt.fp32.roundSticky .rne
      (.fin (decide (t < 0)) t.natAbs (-((fixP : Int) + 160))) true))) s

/-- The code of a finite angle (R226). -/
def codeOfAngle (neg : Bool) (m : Nat) (e : Int) : Nat :=
  let pi := fixPiWide
  let th := FVal.scaled neg m (e + fixP + 160) 0
  let r := th - (th + pi) / (2 * pi) * (2 * pi)
  let qz : Nat × Int :=
    if 4 * r.natAbs ≤ pi.natAbs then (0, 0)
    else if 0 < r ∧ 4 * r ≤ 3 * pi then (1, pi / 2)
    else if r < 0 ∧ -(3 * pi) ≤ 4 * r then (3, -(pi / 2))
    else (2, if 0 < r then pi else -pi)
  let dirs := (List.range 24).foldl (fun (acc : Nat × Int) i =>
    if 0 ≤ acc.2 then (acc.1, acc.2 - fixStage i) else (acc.1 + 2 ^ (29 - i), acc.2 + fixStage i)) (0, r - qz.2)
  qz.1 * 2 ^ 30 + dirs.1

def execQangr (d : Dst) (a : Src) (s : State) :=
  rtWord false [a] d (do
    let v ← readSrc a
    match NumFmt.fp32.decode (fld v 0 32) with
    | .fin s m e => writeDst d (BitVec.ofNat 64 (codeOfAngle s m e))
    | _ => trap Cause.illegalOperand (BitVec.ofNat 64 (fld v 0 32))) s

/-! ## Rows in memory, waiting and status (R235 to R238) -/

/-- The selector of QRDT and QWRT: row and pair. It is checked before the instruction waits for earlier passes (DESIGN
CHOICE, log 62). -/
def rowSelector (r : Rot) (v : Word) : M (Nat × Nat) := do
  trapIf (decide (rotN r ≤ fld v 0 4) || fld v 5 59 != 0) Cause.illegalOperand v
  pure (fld v 0 4, fld v 4 1)

def execQrdt (a b : Src) (f : Bool) (s : State) :=
  rtWord false [a, b] .discard (do
    let r ← thisRot
    let x ← readSrc a
    let v ← readSrc b
    let (j, t) ← rowSelector r v
    blockIf r.writesAng
    storeRow f x (rotN r) (rotM r) (rotCols (rotN r) (rotM r) j) (Tab.get RRow.zero r.rows (16 * t + j))) s

def execQwrt (a b : Src) (f : Bool) (s : State) :=
  rtWord false [a, b] .discard (do
    let r ← thisRot
    let x ← readSrc a
    let v ← readSrc b
    let (j, t) ← rowSelector r v
    blockIf (r.writesTri t)
    let row ← readRow f x (rotN r) (rotM r) j
    let cols := rotCols (rotN r) (rotM r) j
    modRotM fun r =>
      let old := Tab.get RRow.zero r.rows (16 * t + j)
      { r with rows := Tab.put r.rows (16 * t + j) (old.put cols row) }) s

def execQrda (a : Src) (x : RowSel) (f : Bool) (s : State) :=
  rtWord false [a] .discard (do
    let r ← thisRot
    let ad ← readSrc a
    let n := rotN r
    let m := rotM r
    match x with
    | .o0 => do
      blockIf r.writesOut
      storeRow f ad n m (rotCols n m 0) r.o0
    | .o1 => do
      blockIf r.writesApl
      storeRow f ad n m (rotCols n m 0) r.o1
    | .ang => do
      blockIf r.writesAng
      store (← thisAgent) .vector ad ((List.range 16).flatMap fun j => toBytes 4 (Tab.get 0 r.ang j)) 64) s

def execQwait (s : State) :=
  rtWord false [] .discard (do
    let r ← thisRot
    blockIf (!r.ops.isEmpty)) s

def execQstat (d : Dst) (s : State) :=
  rtWord s.seq.detm [] d (do
    let r ← thisRot
    blockIf ((← gets' fun t => t.seq.detm) && !r.ops.isEmpty)
    writeDst d (BitVec.ofNat 64 ((!r.ops.isEmpty).toNat + 2 * r.fault.isSome.toNat + 4 * fld r.qcf 0 4 +
      2 ^ 6 * rotM r + 2 ^ 10 * rotT r + 2 ^ 32 * r.passes.toNat))) s

end Sys2Proof.Machine
end

