-- ==== Sys2Proof/Machine/Scalar.lean ====
section
/-! DEFINITION. The integer, bit-field, selection, control-transfer and special-register instructions of
the K class (R107 to R121). -/

namespace Sys2Proof.Machine

/-! ## Arithmetic (R107 to R109) -/

/-- The shift count of R107. -/
def shamt (b : Word) : Nat := b.toNat % 64

/-- The signed quotient and remainder of R108. -/
def divSigned (a b : Word) : Word :=
  if b = 0 then BitVec.ofInt 64 (-1) else BitVec.ofInt 64 (a.toInt.tdiv b.toInt)
def remSigned (a b : Word) : Word :=
  if b = 0 then a else BitVec.ofInt 64 (a.toInt.tmod b.toInt)
/-- The unsigned quotient and remainder of R108. -/
def divUnsigned (a b : Word) : Word :=
  if b = 0 then BitVec.ofInt 64 (-1) else BitVec.ofNat 64 (a.toNat / b.toNat)
def remUnsigned (a b : Word) : Word :=
  if b = 0 then a else BitVec.ofNat 64 (a.toNat % b.toNat)

def execAdd (d : Dst) (a b : Src) (s : State) := binOp d a b (fun x y => x + y) s
def execSub (d : Dst) (a b : Src) (s : State) := binOp d a b (fun x y => x - y) s
def execMul (d : Dst) (a b : Src) (s : State) := binOp d a b (fun x y => x * y) s
def execMulh (d : Dst) (a b : Src) (s : State) :=
  binOp d a b (fun x y => BitVec.ofInt 64 (x.toInt * y.toInt / 2 ^ 64)) s
def execMulhu (d : Dst) (a b : Src) (s : State) :=
  binOp d a b (fun x y => BitVec.ofNat 64 (x.toNat * y.toNat / 2 ^ 64)) s
def execDiv (d : Dst) (a b : Src) (s : State) := binOp d a b divSigned s
def execDivu (d : Dst) (a b : Src) (s : State) := binOp d a b divUnsigned s
def execRem (d : Dst) (a b : Src) (s : State) := binOp d a b remSigned s
def execRemu (d : Dst) (a b : Src) (s : State) := binOp d a b remUnsigned s
def execAnd (d : Dst) (a b : Src) (s : State) := binOp d a b (fun x y => x &&& y) s
def execOr (d : Dst) (a b : Src) (s : State) := binOp d a b (fun x y => x ||| y) s
def execXor (d : Dst) (a b : Src) (s : State) := binOp d a b (fun x y => x ^^^ y) s
def execAndn (d : Dst) (a b : Src) (s : State) := binOp d a b (fun x y => x &&& ~~~y) s
def execShl (d : Dst) (a b : Src) (s : State) := binOp d a b (fun x y => x <<< shamt y) s
def execShr (d : Dst) (a b : Src) (s : State) := binOp d a b (fun x y => x >>> shamt y) s
def execSar (d : Dst) (a b : Src) (s : State) := binOp d a b (fun x y => x.sshiftRight (shamt y)) s
def execRol (d : Dst) (a b : Src) (s : State) := binOp d a b (fun x y => x.rotateLeft (shamt y)) s
def execMin (d : Dst) (a b : Src) (s : State) := binOp d a b (fun x y => if x.toInt ≤ y.toInt then x else y) s
def execMax (d : Dst) (a b : Src) (s : State) := binOp d a b (fun x y => if y.toInt ≤ x.toInt then x else y) s
def execMinu (d : Dst) (a b : Src) (s : State) := binOp d a b (fun x y => if x.toNat ≤ y.toNat then x else y) s
def execMaxu (d : Dst) (a b : Src) (s : State) := binOp d a b (fun x y => if y.toNat ≤ x.toNat then x else y) s
def execMadr (d : Dst) (a b : Src) (s : State) := terOp d a b (fun x y z => z + x * y) s
def execAddi (d : Dst) (a : Src) (i : BitVec 10) (s : State) := unOp d a (fun x => x + i.signExtend 64) s
def execMovi (d : Dst) (i : BitVec 16) (s : State) := scalarOp [] d (writeDst d (i.signExtend 64)) s

/-! ## Bit counts, extension and fields (R110 to R112) -/

/-- The width in bits that a suffix of R110 selects. -/
def bitsOf (f : Wid) : Nat := 8 * f.bytes

/-- The number of bits that it takes to write a number. -/
def bitLen (x : Nat) : Nat := if x = 0 then 0 else Nat.log2 x + 1

/-- The index of the lowest set bit among the first `n` from `i` on, else `i + n`. -/
def lowestBit (x : Nat) : Nat → Nat → Nat
  | 0, i => i
  | n + 1, i => if x / 2 ^ i % 2 = 1 then i else lowestBit x n (i + 1)

/-- CLZ, FFS and POPC at width `w` (R110). -/
def clzAt (w x : Nat) : Nat := w - bitLen (x % 2 ^ w)
def ffsAt (w x : Nat) : Nat := lowestBit (x % 2 ^ w) w 0
def popcAt (w x : Nat) : Nat := ((List.range w).map fun i => x / 2 ^ i % 2).sum

def execClz (d : Dst) (a : Src) (f : Wid) (s : State) := unOp d a (fun x => BitVec.ofNat 64 (clzAt (bitsOf f) x.toNat)) s
def execFfs (d : Dst) (a : Src) (f : Wid) (s : State) := unOp d a (fun x => BitVec.ofNat 64 (ffsAt (bitsOf f) x.toNat)) s
def execPopc (d : Dst) (a : Src) (f : Wid) (s : State) := unOp d a (fun x => BitVec.ofNat 64 (popcAt (bitsOf f) x.toNat)) s
def execSext (d : Dst) (a b : Src) (s : State) :=
  binOp d a b (fun x y => BitVec.ofInt 64 (sextInt (shamt y + 1) x.toNat)) s
def execZext (d : Dst) (a b : Src) (s : State) :=
  binOp d a b (fun x y => BitVec.ofNat 64 (x.toNat % 2 ^ (shamt y + 1))) s

/-- The field position and length of R112. -/
def fieldPos (b : Word) : Nat := fld b 0 6
def fieldLen (b : Word) : Nat := min (fld b 8 7) (64 - fieldPos b)

/-- The field of BFX (R112). -/
def extractField (signed : Bool) (a b : Word) : Word :=
  let v := fld a (fieldPos b) (fieldLen b)
  if signed then BitVec.ofInt 64 (sextInt (fieldLen b) v) else BitVec.ofNat 64 v

/-- The result of BFI (R112): the low bits of a in a field of d. -/
def insertField (a b d : Word) : Word :=
  BitVec.ofNat 64 (putBits d.toNat (fieldPos b) (fieldLen b) a.toNat)

def execBfx (d : Dst) (a b : Src) (sg : Bool) (s : State) := binOp d a b (extractField sg) s
def execBfi (d : Dst) (a b : Src) (s : State) := terOp d a b insertField s

/-! ## Selection, comparison, absolute value (R113 to R115) -/

def execSel (d : Dst) (a b : Src) (c : Cond) (s : State) := terOp d a b (fun x y z => if c.holds z then x else y) s
def execCmp (d : Dst) (a b : Src) (u : Bool) (s : State) := binOp d a b (cmpWord u) s

/-- ABS (R115). -/
def absWord (sat : Bool) (a : Word) : Word :=
  if a.toInt = -(2 ^ 63) then if sat then BitVec.ofNat 64 (2 ^ 63 - 1) else a
  else BitVec.ofInt 64 a.toInt.natAbs

def execAbs (d : Dst) (a : Src) (sat : Bool) (s : State) := unOp d a (absWord sat) s

/-! ## Control transfer (R116 to R119) -/

/-- Transfer to a target; bits [1:0] must be zero (R69). -/
def jump (t : Word) : M (Option Word) :=
  if t.toNat % 4 = 0 then pure (some t) else trap Cause.misaligned t

/-- The target of an offset in words from the base word (R69). -/
def target {n : Nat} (s : State) (o : BitVec n) : Word := s.seq.pc + BitVec.ofInt 64 (4 * o.toInt)

def execBcc (c : Cond) (a : Src) (o : BitVec 12) (s : State) :=
  runPipe (lenOf [a]) (do
    issue [a] .discard
    let v ← readSrc a
    if c.holds v then jump (target s o) else pure none) s

def execBr (o : BitVec 22) (s : State) := runPipe 4 (jump (target s o)) s

def execCall (o : BitVec 22) (s : State) :=
  runPipe 4 (do
    issue [] (.reg 47)
    let t ← jump (target s o)
    writeDst (.reg 47) (s.seq.pc + 4)
    pure t) s

def execRet (a : Src) (l : Bool) (s : State) :=
  runPipe (lenOf [a]) (do
    issue [a] (if l then .reg 47 else .discard)
    let v ← readSrc a
    let t ← jump v
    writeDst (if l then .reg 47 else .discard) (s.seq.pc + BitVec.ofNat 64 (lenOf [a]))
    pure t) s

def execLoop (c : Cond) (a : Nat) (o : BitVec 12) (s : State) :=
  runPipe 4 (do
    issue [.reg a] (.reg a)
    let v ← readSrc (.reg a)
    let t ← (if c.holds (v - 1) then jump (target s o) else pure none)
    writeDst (.reg a) (v - 1)
    pure t) s

/-! ## Special and quarantined registers (R98, R104, R120, R121) -/

/-- The value of a special register; none for an unassigned number (R98). -/
def readSpecial (s : State) (n : Nat) : Option Word :=
  let q := s.seq
  match n with
  | 0x00 => some (BitVec.ofNat 64 s.cur.seq.code)
  | 0x01 => some q.targ
  | 0x02 => some (BitVec.ofNat 64 q.trcb)
  | 0x03 => some (BitVec.ofNat 64 q.tkind)
  | 0x04 => some (BitVec.ofNat 64 q.gangn)
  | 0x05 => some (BitVec.ofNat 64 q.slip)
  | 0x06 => some (BitVec.ofNat 64 q.detm.toNat)
  | 0x10 => some (BitVec.ofNat 64 (q.rem - 1))
  | 0x20 => some q.tpc
  | 0x21 => some q.tcause
  | 0x22 => some q.tval
  | 0x23 => some (BitVec.ofNat 64 q.trep)
  | 0x24 => some q.tscr
  | _ => none

/-- A sequencer after a write of a special register; a read-only one keeps its value, and reserved bits stay zero (R5,
R6, R98, R430). -/
def writeSpecial (q : Seq) (n : Nat) (v : Word) : Seq :=
  match n with
  | 0x20 => { q with tpc := v }
  | 0x21 => { q with tcause := v &&& 0x000FFFFF03FF3FFF#64 }
  | 0x22 => { q with tval := v }
  | 0x23 => { q with trep := v.toNat % 128 }
  | 0x24 => { q with tscr := v }
  | _ => q

/-- RDS (R98). A queue code in d outside a gang is found before an unassigned number (DESIGN CHOICE, log 62). -/
def execRds (d : Dst) (n : BitVec 16) (s : State) :=
  scalarOp [] d (do
    match readSpecial s n.toNat with
    | some v => writeDst d v
    | none => trap Cause.illegalOperand (n.zeroExtend 64)) s

/-- WRS (R98). A queue code in d outside a gang is found before an unassigned number (DESIGN CHOICE, log 62). -/
def execWrs (d : Dst) (n : BitVec 16) (s : State) :=
  scalarOp [d.asSrc] .discard (do
    trapIf (readSpecial s n.toNat).isNone Cause.illegalOperand (n.zeroExtend 64)
    let v ← readSrc d.asSrc
    modS fun t => t.modSeq t.cur fun q => writeSpecial q n.toNat v) s

/-- A sample of a timing or placement source; none for another number (R104). -/
def sample (s : State) (n : Nat) : Option Word :=
  let c := s.cur.core
  let e := s.seq.task.bind s.entryOf
  match n with
  | 0x0 => some (s.cycles + BitVec.ofNat 64 (Config.cycleSkew (gladeOf c) % 5))
  | 0x1 => some (s.timer + BitVec.ofNat 64 (Config.timerSkew c % 2))
  | 0x2 => some (BitVec.ofNat 64 (coreIn c))
  | 0x3 => some (BitVec.ofNat 64 (groveOf c % 12))
  | 0x4 => some (BitVec.ofNat 64 (gladeOf c))
  | 0x5 =>
    let stolen := match e with | some x => x.stolen | none => 0
    some (BitVec.ofNat 64 (coreIn c + groveOf c % 12 * 16 + gladeOf c * 256
      + (if stolen = 1 then 2048 else 0) + (if stolen = 2 then 4096 else 0)))
  | 0x6 =>
    let g := s.grove (groveOf c)
    some (BitVec.ofNat 64 (g.drawSeed.toNat + 2 ^ 32 * g.drawClass))
  | 0x7 => some (match e with | some x => BitVec.ofNat 64 x.postSeq | none => 0)
  | _ =>
    if 0x100 ≤ n ∧ n < 0x200 then some (if isCounter (n - 0x100) then s.counter c (n - 0x100) else 0) else none

def execRdq (d : Nat) (n : BitVec 16) (s : State) :=
  scalarOp [] .discard (do
    match sample s n.toNat with
    | some v => modS fun t => t.modSeq t.cur fun q => { q with z := Tab.set 0 q.z d v }
    | none => trap Cause.illegalOperand 0) s

end Sys2Proof.Machine
end

