-- ==== Sys2Proof/Machine/Traps.lean ====
section
/-! DEFINITION. REP, NOP, TRAP, ERET, HALT and YIELD; the events of fetching, decoding and splitting, trap
delivery (R69, R79 to R85, R430, R431, R440 to R443). -/

namespace Sys2Proof.Machine

/-- The word at an address in the program of the current stream; the fetch waits for a walker where its page needs one. -/
def fetchM (a : Word) : M Nat := fun s =>
  if s.lacksWalker s.cur.pipe a then waitWalker (s.agentOf s.cur.pipe) a.toNat s
  else match fetchWord s s.cur.pipe a with
  | .error f => failM f (afterFetch s s.cur.pipe a)
  | .ok w => .ok (w, afterFetch s s.cur.pipe a)

/-! ## REP and NOP (R82, R85) -/

/-- REP: the pair at the program counter begins; its repeats follow one by one. -/
def execRep (c : BitVec 6) (_m _st : BitVec 3) (s : State) : Host.Outcome State Fault Refusal :=
  .next (s.modSeq s.cur fun q => { q.unblock with rem := c.toNat + 1 })

def execNop (s : State) := scalarOp [] .discard (pure ()) s

/-! ## TRAP, ERET, HALT, YIELD (R440 to R443) -/

def execTrap (n : BitVec 6) (s : State) :=
  scalarOp [] .discard (trap (Cause.software + n.toNat) 0) s

/-- The length in bytes of the instruction at an address, a pair counting as one; 4 where the base word cannot
be fetched (R68, R441). -/
def lengthAt (s : State) (st : Stream) (a : Word) : Nat :=
  match fetchWord s st a with
  | .error _ => 4
  | .ok w =>
    if isRep w then
      match fetchWord s st (a + 4) with
      | .error _ => 8
      | .ok t => 4 + wordLength st.seq t
    else wordLength st.seq w

/-- ERET.skip reads the word whose length it takes: the reads are counted, and errors that they meet are detected (R249,
R426, R435). -/
def skipReads : M Unit := fun s =>
  let st := s.cur.pipe
  let a := s.seq.tpc
  if s.lacksWalker st a then waitWalker (s.agentOf st) a.toNat s
  else
    let pair : Bool := match fetchWord s st a with | .ok w => isRep w | .error _ => false
    .ok ((), (if pair then [a, a + 4] else [a]).foldl (afterWord st) s)

/-- The return from a handler, after its checks (R441): the flag is cleared, and the program goes on at `pc` with
`rem` repeats of a pair to run. -/
def leaveHandler (pc : Word) (rem : Nat) (q : Seq) : Seq :=
  { q.unblock with
    handler := false, hrcb := 0, hcause := 0, pc := pc, rem := rem, taker := none
    barRead := q.barRead.filter fun r => r.1 == pc }

/-- A stopped sub-queue starts again at its head, at the repeat that TREP names, or without its head under
skip (R431, R441). -/
def restartSub (skip : Bool) (trep : Nat) (q : SubQ) : SubQ :=
  if !q.stopped then q
  else
    match q.words with
    | [] => { q with stopped := false, fault := none }
    | e :: t =>
      let e' := if e.pair && trep != 0 then { e with complete := e.items.length - trep } else e
      { words := if skip then t else e' :: t, stopped := false, fault := none }

/-- The effect of ERET on the machine, after its checks. -/
def eretState (skip : Bool) (s : State) : State :=
  let st := s.cur.pipe
  let q := s.seqOf st
  let src := if st.seq = .V then Sub.ofCode (fld q.tcause 12 2) else .pipe
  let pc := if skip then q.tpc + BitVec.ofNat 64 (lengthAt s st q.tpc) else q.tpc
  let rem := if skip then 0 else q.trep
  let fencedNow := match s.rcb q.trcb with | some k => k.fence | none => false
  if src = .pipe then
    s.modSeq st fun q => { leaveHandler pc rem q with fenced := q.fenced || fencedNow }
  else
    let x := s.ctx st.core
    let pc' := x.split.getD pc
    let rem' := if x.split.isSome then x.splitRem else rem
    let y := { x.setSub src (restartSub skip q.trep (x.sub src)) with split := none, splitRem := 0 }
    (s.setCtx st.core y).modSeq st fun q => { leaveHandler pc' rem' q with fenced := q.fenced || fencedNow }

/-- The checks of ERET, in order. -/
def eretChecks : M Unit := do
  let q ← gets' fun s => s.seq
  trapIf (!q.handler) Cause.illegalOperand 0
  let n : Word := BitVec.ofNat 64 q.trep
  trapIf (decide (64 < q.trep)) Cause.illegalOperand n
  if q.trep = 0 then pure ()
  else do
    let w ← fetchM q.tpc
    trapIf (!isRep w || decide (repCount w < q.trep)) Cause.illegalOperand n
  trapIf (q.tpc.toNat % 4 != 0) Cause.misaligned q.tpc

def execEret (skip : Bool) (s : State) : Host.Outcome State Fault Refusal :=
  match (do eretChecks; if skip then skipReads else pure ()) s with
  | .ok (_, s') => .next ((eretState skip s').unwait s.cur)
  | .error (e, m) => .next (stopPipe e (s.stopped e m))

def execHalt (s : State) :=
  scalarOp [] .discard (modS fun t =>
    let q := t.seq
    (event Cause.halted q.trcb t.cur.core t.cur.seq.code (q.pc + 4) t).modSeq t.cur fun p =>
      { p with halted := true }) s

/-- A YIELD that completes under a pre-emption request of its grove stops the sequencer there (R443). -/
def stopAtYield (a : Src) (s : State) : State :=
  if (s.grove (groveOf s.cur.core)).preempting then
    s.modSeq s.cur fun q => { q with yieldedAt := some (advance (lenOf [a]) none q).pc }
  else s

/-- YIELD (R443). -/
def execYield (a : Src) (s : State) :=
  scalarOp [a] .discard (do
    let v ← readSrc a
    let t ← gets' id
    let wanted := min v.toNat 65535
    if (t.grove (groveOf t.cur.core)).preempting || v == 0 then modS (stopAtYield a)
    else
      match t.seq.yieldAt with
      | none => blockWith fun u => u.modSeq u.cur fun q => { q with yieldAt := some (u.timeAt u.cur.core, wanted) }
      | some (at_, _) =>
        if wanted ≤ (t.timeAt t.cur.core - at_).toNat then pure () else block) s

/-! ## Faults before execution (R69, R79, R80) -/

/-- FETCH_FAULT: the base word's address and the pair's remaining count are reported (R69), where no fault of an array is
due first: the class is known when it is a literal that cannot be fetched (R188, R223). -/
def execFetchFault (cause : Nat) (tval : Word) (s : State) : Host.Outcome State Fault Refusal :=
  match fetchWord s s.cur.pipe s.seq.pc with
  | .ok w => arrayFirst (wordClass w) false (scalarOp [] .discard (trap cause tval)) s
  | .error _ => scalarOp [] .discard (trap cause tval) s

/-- DECODE_FAULT: in a scalar pipe a trap at the word, where no fault of an array is due first (R188, R223); in a sub-queue
a fault of its head (R79, R80). DESIGN CHOICE (log 64): the class is that of the word that fails, so a pair whose REP word fails
a check does not take the place of Q's or M's next instruction, whatever its target is; R223 does not say. -/
def execDecodeFault (cause : Nat) (word : Word) (s : State) : Host.Outcome State Fault Refusal :=
  if s.cur.sub = .pipe then arrayFirst (wordClass word.toNat) false (scalarOp [] .discard (trap cause word)) s
  else .next (subFault s.cur cause word s)

/-! ## TRAP_DELIVERY (R430, R431) -/

/-- Deliver what waits for the boundary of a sequencer: a deferred trap, or the earliest sub-queue fault. -/
def deliverDue (st : Stream) (s : State) : State :=
  let q := s.seqOf st
  match q.deferred with
  | t :: rest => takeTrap st t.info (s.modSeq st fun p => { p with deferred := rest })
  | [] =>
    if st.seq = .V then
      match (s.ctx st.core).subFault with
      | some (b, f) =>
        let s1 := s.setSub { st with sub := b } { s.subOf { st with sub := b } with fault := none }
        takeTrap st { cause := f.cause, tval := f.tval, tpc := f.tpc, trep := f.trep, src := b.code, sec := 0,
                      deferred := false } s1
      | none => s
    else s

def execTrapDelivery (core seq : Nat) (s : State) : Host.Outcome State Fault Refusal :=
  let st : Stream := ⟨core, SeqKind.ofCode seq, .pipe⟩
  .next ((if s.runs st && s.trapDue st then deliverDue st s else s).unwait st)

/-! ## SPLIT_WORD (R14, R80, R82) -/

/-- The items of a pair: every repeat decoded, or the check that the pair fails. -/
def pairItems (w t : Nat) : Except (Nat × Nat) (List VWord) :=
  match checkPair .V w t with
  | some e => .error e
  | none =>
    (List.range (repCount w)).foldr (fun i acc =>
      match acc, decode .V (steppedWord w t i) ⟨0, 0⟩ with
      | .ok l, .ok x => .ok (vwordOf x :: l)
      | .error e, _ => .error e
      | _, .error c => .error (c, t)) (.ok [])

/-- The sub-queue of a vector word's class (R13). -/
def subOfClass (w : Nat) : Sub := match wordClass w with | 1 => .vl | 3 => .vs | _ => .va

/-- The scalar operands that the address fields of a VL or VS word name (R72). -/
def addrSrcs (w : Nat) : List Src :=
  let src (c : Nat) : Src := if c < 48 then .reg c else if c ≤ 55 then .queue (c - 48) else .zero
  match subOfClass w, rowOf (wordClass w) (wordOp w) with
  | .va, _ => []
  | _, some r => (if r.a == .src then [src (r.fmt.aOf w)] else []) ++ if r.b == .src then [src (r.fmt.bOf w)] else []
  | _, none => []

/-- Place a word that fails a decode check: its operands are checked and popped where it is split, and the failure is found
at the head of its sub-queue (R72, R80, R100). A pair that cannot be paired pops as its target would alone (DESIGN CHOICE,
log 61). -/
def placeBad (sub : Sub) (w c x : Nat) : M Unit := do
  issueSrcs (addrSrcs w)
  issuePops (Src.queues (addrSrcs w))
  let _ ← (addrSrcs w).mapM readSrc
  placeEntry sub [.bad c (BitVec.ofNat 64 x)] false

/-- The splitter takes the vector word or pair at V's program counter: of a pair to which a handler has returned, the
repeats that are left (R84). -/
def splitBody (s0 : State) (st : Stream) : M (Option Word) := do
  let pc := (s0.seqOf st).pc
  let rem := (s0.seqOf st).rem
  let w ← fetchM pc
  let next (n : Nat) : Option Word := some (pc + BitVec.ofNat 64 n)
  if isRep w then do
    let t ← fetchM (pc + 4)
    let sub := subOfClass t
    if isVectorClass (wordClass t) then do
      openSub sub
      match pairItems w t with
      | .error e => placeBad sub t e.1 e.2
      | .ok vs => do
        let l ← captureM (if rem = 0 then vs else vs.drop (vs.length - rem))
        placeEntry sub l true
      pure (next (4 + wordLength .V t))
    else pure (some pc)
  else if isVectorClass (wordClass w) then do
    let sub := subOfClass w
    openSub sub
    match checkWord .V w with
    | some c => do placeBad sub w c w; pure (next (wordLength .V w))
    | none =>
      match fetchLits s0 st pc (wordLength .V w) with
      | .error f => failM f
      | .ok l =>
        match decode .V w l with
        | .error c => do placeBad sub w c w; pure (next (wordLength .V w))
        | .ok i => do
          let items ← captureM [vwordOf i]
          placeEntry sub items false
          pure (next (wordLength .V w))
  else pure (some pc)

def execSplitWord (core : Nat) (s : State) : Host.Outcome State Fault Refusal :=
  let st : Stream := ⟨core, .V, .pipe⟩
  let s1 := { s with cur := st }
  if s1.runs st && !s1.slipFull st && !s1.trapDue st then runPipe 0 (splitBody s1 st) s1 else .next s

end Sys2Proof.Machine
end

