-- ==== Sys2Proof/Machine/VecMem.lean ====
section
/-! DEFINITION. Vector loads and stores, VLDA, VSTA, VLDC and VSTC (R189, R261 to R265). -/

namespace Sys2Proof.Machine

/-! ## Pieces (R245, R261) -/

/-- TVAL of a stop; none for a block. -/
def stopTval : Stop → Option Nat
  | .trap _ v => some v.toNat
  | .detect _ _ v => some v.toNat
  | .trapWith _ _ v => some v.toNat
  | _ => none

/-- The fault with the lowest address among the stops of several pieces, the first of equals. -/
def lowestFault : List (Nat × Stop) → Option (Nat × Stop)
  | [] => none
  | e :: t =>
    match stopTval e.2, lowestFault t with
    | none, r => r
    | some x, some r => some (if r.1 < x then r else (x, e.2))
    | some x, none => some (x, e.2)

/-- The stop to report among those of several pieces, each with its address: the fault with the lowest address (R281), but
none while a piece at a lower address waits and may yet fault. -/
def worstStop (l : List (Nat × Stop)) : Option Stop :=
  let waiting (below : Nat → Bool) : Option Stop :=
    (l.find? fun e => (stopTval e.2).isNone && below e.1).map (·.2)
  match lowestFault l with
  | none => waiting fun _ => true
  | some (x, e) => some ((waiting fun a => decide (a < x)).getD e)

/-- The stops of the pieces of a word, each with its address; what every check leaves in the memory system stays. -/
def probePieces (ag : Agent) (via : Via) (rw : Rw) (al : Nat) : List (Word × Nat) → State → List (Nat × Stop) × State
  | [], s => ([], s)
  | p :: t, s =>
    match probe ag via rw p.1 p.2 al s with
    | .ok (_, s') => probePieces ag via rw al t (s.keep s'.msys)
    | .error (e, m) =>
      let (l, u) := probePieces ag via rw al t (s.keep m)
      ((p.1.toNat, e) :: l, u)

/-- Every check and wait of every piece, before any of them is moved. -/
def checkPieces (ag : Agent) (via : Via) (rw : Rw) (al : Nat) (l : List (Word × Nat)) : M Unit := fun s =>
  let (stops, t) := probePieces ag via rw al l s
  match worstStop stops with
  | some e => stop e t
  | none => .ok ((), t)

/-- Read the pieces of a word. -/
def loadPieces (l : List (Word × Nat)) : M (List Byte) := do
  let ag ← thisAgent
  checkPieces ag .vector .read 32 l
  let r ← l.mapM fun p => load ag .vector p.1 p.2 32
  pure r.flatten

/-- Write the pieces of a word, in order. -/
def storePieces (via : Via) (l : List (Word × List Byte)) : M Unit := do
  let ag ← thisAgent
  checkPieces ag via .write 32 (l.map fun p => (p.1, p.2.length))
  l.forM fun p => store ag via p.1 p.2 32

/-- The bytes of a tile. -/
def tileBytes (n t : Nat) : List Byte := toBytes n t

/-- The two address operands of a word at its head. -/
def addr2 (a b : Src) : M (Word × Word) := do
  let x ← readSrc a
  let y ← readSrc b
  pure (x, y)

/-- A VL word: the destination's room, then `body` gives the bytes of the tile from byte 0 on. -/
def vlWord (v : VWord) (d : Dst) (body : M (List Byte)) (s : State) : Host.Outcome State Fault Refusal :=
  memWord v (do
    issueV [] d
    let l ← body
    writeBytes d 0 l) s

/-- A VS word: the source tile is read (a queue register popped), then `body` stores from it. -/
def vsWord (v : VWord) (d : Dst) (body : Nat → M Unit) (s : State) : Host.Outcome State Fault Refusal :=
  memWord v (do
    issueV [d.asSrc] .discard
    let t ← readTile d.asSrc
    body t) s

/-! ## Contiguous and replicated forms (R262) -/

/-- The byte count of a beat field: 0 names all 8 beats. -/
def beatBytes (f : BitVec 3) : Nat := if f = 0 then 2048 else 256 * f.toNat

/-- A load of `n` bytes at a + b. -/
def loadEa (a b : Src) (n : Nat) : M (List Byte) := do
  let (x, y) ← addr2 a b
  loadPieces [(x + y, n)]

def execVld (d : Dst) (a b : Src) (f : BitVec 3) (s : State) :=
  vlWord (addrWord .vl a b fun a b => .vld d a b f) d (loadEa a b (beatBytes f)) s

def execVldq (d : Dst) (a b : Src) (sel : Scope) (s : State) :=
  vlWord (addrWord .vl a b fun a b => .vldq d a b sel) d (loadEa a b 2048) s

def execVldb (d : Dst) (a b : Src) (f : BitVec 3) (s : State) :=
  vlWord (addrWord .vl a b fun a b => .vldb d a b f) d (do
    let r := 32 * 2 ^ f.toNat
    let l ← loadEa a b r
    pure (List.replicate (2048 / r) l).flatten) s

def execVst (d : Dst) (a b : Src) (f : BitVec 3) (s : State) :=
  vsWord (addrWord .vs a b fun a b => .vst d a b f) d (fun t => do
    let (x, y) ← addr2 a b
    storePieces .tile [(x + y, tileBytes (beatBytes f) t)]) s

def execVstr (d : Dst) (a b : Src) (sel : Scope) (s : State) :=
  vsWord (addrWord .vs a b fun a b => .vstr d a b sel) d (fun t => do
    releaseWait .release sel
    let (x, y) ← addr2 a b
    storePieces .tile [(x + y, tileBytes 2048 t)]) s

/-! ## Strided, indexed and masked forms (R263) -/

def execVlds (d : Dst) (a b : Src) (s : State) :=
  vlWord (addrWord .vl a b fun a b => .vlds d a b) d (do
    let (x, y) ← addr2 a b
    let rows := fld y 32 6 + 1
    let r := 32 * (fld y 38 6 + 1)
    trapIf (fld y 44 20 != 0 || decide (2048 < rows * r)) Cause.illegalOperand y
    let stride := BitVec.ofInt 64 (sextInt 32 (fld y 0 32))
    loadPieces ((List.range rows).map fun i => (x + BitVec.ofNat 64 i * stride, r))) s

/-- The rows of an indexed word: R bytes at a + idx · R for each index of the list at b (R263). The list is read as one
access, which may not cross the end of a page or window (DESIGN CHOICE, log 62). -/
def indexedRows (a b : Src) (f : BitVec 4) : M (List Word × Nat) := do
  let (x, y) ← addr2 a b
  trapIf (decide (6 ≤ f.toNat)) Cause.illegalOperand y
  let r := 32 * 2 ^ f.toNat
  let ag ← thisAgent
  let l ← load ag .vector y (4 * (2048 / r)) 4
  let idx := elemsOf 32 (2048 / r) (ofBytes l)
  pure (idx.map fun i => x + BitVec.ofNat 64 (i * r), r)

def execVldx (d : Dst) (a b : Src) (f : BitVec 4) (s : State) :=
  vlWord (addrWord .vl a b fun a b => .vldx d a b f) d (do
    let (rows, r) ← indexedRows a b f
    loadPieces (rows.map fun x => (x, r))) s

def execVstx (d : Dst) (a b : Src) (f : BitVec 4) (s : State) :=
  vsWord (addrWord .vs a b fun a b => .vstx d a b f) d (fun t => do
    let (rows, r) ← indexedRows a b f
    storePieces .vector (rows.zipIdx.map fun p => (p.1, tileBytes r (t / 2 ^ (8 * r * p.2))))) s

/-- The runs of bytes that a mask keeps, each with its offset. -/
def maskRuns : Nat → List (Option Byte) → List (Nat × List Byte)
  | _, [] => []
  | j, none :: t => maskRuns (j + 1) t
  | j, some b :: t =>
    match maskRuns (j + 1) t with
    | (k, l) :: rest => if k = j + 1 then (j, b :: l) :: rest else (j, [b]) :: (k, l) :: rest
    | [] => [(j, [b])]

def execVstm (d : Dst) (a b : Src) (k : BitVec 3) (s : State) :=
  vsWord (addrWord .vs a b fun a b => .vstm d a b k) d (fun t => do
    let (x, y) ← addr2 a b
    trapIf (!([1, 2, 4, 8].contains y.toNat)) Cause.illegalOperand y
    let ag ← thisAgent
    let mask ← readPred k.toNat (2048 / y.toNat)
    let p ← probe ag .vector .write x 2048 32
    let bytes := (tileBytes 2048 t).zipIdx.map fun e => if bit mask (e.2 / y.toNat) then some e.1 else none
    (maskRuns 0 bytes).forM fun r => writePlace ag { p with addr := p.addr + r.1, prog := p.prog + r.1 } r.2) s

/-! ## Accumulators (R189, R264) -/

/-- The address of `n` bytes of accumulator rows: a multiple of 128 in the running core's accumulator window, every
row in one bank. Any other address is a WINDOW_VIOLATION (R264). -/
def accAddr (x : Word) (n : Nat) : M Unit := do
  let v := x.toNat
  let pa := v % 2 ^ 48
  trapIf (!(v / 2 ^ 48 == 0xFF00 && decide (Config.chipBase ≤ pa) && decide (pa < Config.chipEnd) &&
    pa / 2 ^ 24 % 16 == 2 && v % 128 == 0)) Cause.windowViolation x
  trapIf (decide (65536 < v % 65536 + n)) Cause.windowViolation (x + BitVec.ofNat 64 (65536 - v % 65536))

/-- The element format that a VLDA converts to; none for raw rows. -/
def accFmt : AccType → Option NumFmt
  | .raw => none
  | .bf16 => some .bf16
  | .fp16 => some .fp16

/-- Convert elements, trapping with the lowest index that overflows (R53). -/
def convertAll (src dst : NumFmt) (rm : Rnd) (pol : Policy) (l : List Nat) : Except Nat (List Nat) :=
  let r := l.map fun x => dst.convert rm pol (src.decode x)
  match r.findIdx? Option.isNone with
  | some i => .error i
  | none => .ok (r.map fun o => o.getD 0)

/-- The trap of R53. -/
def convertM (src dst : NumFmt) (rm : Rnd) (pol : Policy) (l : List Nat) : M (List Nat) :=
  match convertAll src dst rm pol l with
  | .ok r => pure r
  | .error i => trap Cause.convertOverflow (BitVec.ofNat 64 i)

def execVlda (d : Dst) (a b : Src) (x snap : Bool) (t : AccType) (s : State) :=
  vlWord (addrWord .vl a b fun a b => .vlda d a b x snap t) d (do
    let (u, v) ← addr2 a b
    let ag ← thisAgent
    let n := if t = .raw then 2048 else 4096
    accAddr (u + v) n
    let p ← access ag .accum .read (u + v) n 128
    if snap then pure () else waitPlace ag p n
    let l ← readPlace ag p n
    match accFmt t with
    | none => pure l
    | some f => do
      let r ← convertM .fp32 f .rne (if x then .trap else .saturate) (elemsOf 32 1024 (ofBytes l))
      pure (toBytes 2048 (packElems 16 r))) s

def execVsta (d : Dst) (a b : Src) (s : State) :=
  vsWord (addrWord .vs a b fun a b => .vsta d a b) d (fun t => do
    let (u, v) ← addr2 a b
    let ag ← thisAgent
    accAddr (u + v) 2048
    store ag .accum (u + v) (tileBytes 2048 t) 128) s

/-! ## Widening loads and narrowing stores (R265) -/

def WidenSrc.fmt : WidenSrc → NumFmt
  | .bf16 => .bf16 | .fp16 => .fp16 | .e4m3 => .e4m3 | .e5m2 => .e5m2
  | .i8 => .int8 | .i16 => .int16 | .i4 => .int4
def StoreFmt.fmt : StoreFmt → NumFmt
  | .bf16 => .bf16 | .fp16 => .fp16 | .e4m3 => .e4m3 | .e5m2 => .e5m2

/-- An element widened exactly: a float to FP32, an integer to INT32 (R52). -/
def widen (f : NumFmt) (x : Nat) : Nat :=
  if f.isFloat then NumFmt.fp32.round .rne (f.decode x) else wrapInt 32 (sextInt f.width x)

def execVldc (d : Dst) (a b : Src) (f : WidenSrc) (s : State) :=
  vlWord (addrWord .vl a b fun a b => .vldc d a b f) d (do
    let src := WidenSrc.fmt f
    let l ← loadEa a b (64 * src.width)
    pure (toBytes 2048 (packElems 32 ((elemsOf src.width 512 (ofBytes l)).map (widen src))))) s

def execVstc (d : Dst) (a b : Src) (p : Policy) (t : StoreFmt) (s : State) :=
  vsWord (addrWord .vs a b fun a b => .vstc d a b p t) d (fun tile => do
    let (x, y) ← addr2 a b
    let f := StoreFmt.fmt t
    let r ← convertM .fp32 f .rne p (elemsOf 32 512 tile)
    storePieces .vector [(x + y, toBytes (64 * f.width) (packElems f.width r))]) s

end Sys2Proof.Machine
end

