-- ==== Sys2Proof/Machine/Vector.lean ====
section
/-! DEFINITION. The VA instructions: element-wise arithmetic, special functions, bits, comparison, predicates,
conversion, quantisation, reductions, rearrangement, random bits and the shape (R145 to R168). -/

namespace Sys2Proof.Machine

/-- The sources that hold bits mark (R133). -/
def holdList (l : List (Bool × Src)) : List Src := (l.filter (·.1)).map (·.2)

/-! ## Element-wise instructions (R145, R146) -/

/-- The body of an element-wise instruction: the operation on the sources' elements where the predicate
governs. `rd` says that d is a source too. -/
def ewBody (d : Dst) (srcs : List Src) (rd : Bool) (p : Nat) (ok : NumFmt → Bool)
    (op : Shape → List Nat → Nat) : M Unit := do
  let sh ← shapeM ok (p != 0)
  issueV srcs d
  let gov ← governed p sh.n
  let vals ← srcs.mapM (readElems sh.w sh.n)
  let dv ← if rd then readElems sh.w sh.n (match d with | .reg n => .reg n | _ => .zero) else pure []
  let all := if rd then vals ++ [dv] else vals
  let res := (List.range sh.n).map fun i =>
    if gov i then some (op sh (all.map fun l => l.getD i 0)) else none
  writeElems d sh.w res

/-- Any element type; floats; integers (R144). -/
def anyFmt (_ : NumFmt) : Bool := true
def floatFmt (f : NumFmt) : Bool := f.isFloat
def intFmt (f : NumFmt) : Bool := !f.isFloat

/-- An element-wise word with two sources. -/
def vBin (i : Instr) (d : Dst) (a b : Src) (h g : Bool) (p : BitVec 2) (ok : NumFmt → Bool)
    (op : Shape → Nat → Nat → Nat) (s : State) : Host.Outcome State Fault Refusal :=
  vaWord i [a, b] d (holdList [(h, a), (g, b)])
    (ewBody d [a, b] false p.toNat ok fun sh l => op sh (l.getD 0 0) (l.getD 1 0)) s

/-- An element-wise word with sources a, b and d. -/
def vTer (i : Instr) (d : Dst) (a b : Src) (h g : Bool) (p : BitVec 2)
    (op : Shape → Nat → Nat → Nat → Nat) (s : State) : Host.Outcome State Fault Refusal :=
  vaWord i [a, b] d (holdList [(h, a), (g, b)])
    (ewBody d [a, b] true p.toNat anyFmt fun sh l => op sh (l.getD 0 0) (l.getD 1 0) (l.getD 2 0)) s

/-- A unary element-wise word. -/
def vUn (i : Instr) (d : Dst) (a : Src) (h : Bool) (p : BitVec 2) (ok : NumFmt → Bool)
    (op : Shape → Nat → Nat) (s : State) : Host.Outcome State Fault Refusal :=
  vaWord i [a] d (holdList [(h, a)]) (ewBody d [a] false p.toNat ok fun sh l => op sh (l.getD 0 0)) s

/-- A result of exact values: a float rounded once by VSH.round, an integer wrapped or saturated once (R145). -/
def arith (sh : Shape) (fop : FVal → FVal → FVal → FVal) (iop : Int → Int → Int → Int) (a b d : Nat) : Nat :=
  if sh.fmt.isFloat then
    sh.fmt.round sh.rnd (fop (sh.fmt.decode a) (sh.fmt.decode b) (sh.fmt.decode d))
  else narrowInt sh.sat sh.w (iop (sextInt sh.w a) (sextInt sh.w b) (sextInt sh.w d))

def vaddOp (sh : Shape) (a b : Nat) : Nat := arith sh (fun x y _ => x.add sh.rnd y) (fun x y _ => x + y) a b 0
def vsubOp (sh : Shape) (a b : Nat) : Nat := arith sh (fun x y _ => x.add sh.rnd y.neg) (fun x y _ => x - y) a b 0
def vmulOp (sh : Shape) (a b : Nat) : Nat := arith sh (fun x y _ => x.mul y) (fun x y _ => x * y) a b 0
def vfmaOp (sh : Shape) (a b d : Nat) : Nat :=
  arith sh (fun x y z => (x.mul y).add sh.rnd z) (fun x y z => x * y + z) a b d
def vfmsOp (sh : Shape) (a b d : Nat) : Nat :=
  arith sh (fun x y z => (x.mul y).add sh.rnd z.neg) (fun x y z => x * y - z) a b d
def vfnmaOp (sh : Shape) (a b d : Nat) : Nat :=
  arith sh (fun x y z => z.add sh.rnd (x.mul y).neg) (fun x y z => z - x * y) a b d
def vminOp (sh : Shape) (a b : Nat) : Nat :=
  arith sh (fun x y _ => x.min' y) (fun x y _ => if x ≤ y then x else y) a b 0
def vmaxOp (sh : Shape) (a b : Nat) : Nat :=
  arith sh (fun x y _ => x.max' y) (fun x y _ => if y ≤ x then x else y) a b 0
def vabsOp (sh : Shape) (a : Nat) : Nat := arith sh (fun x _ _ => x.abs) (fun x _ _ => (x.natAbs : Int)) a 0 0
def vnegOp (sh : Shape) (a : Nat) : Nat := arith sh (fun x _ _ => x.neg) (fun x _ _ => -x) a 0 0

def execVadd (d : Dst) (a b : Src) (h g : Bool) (p : BitVec 2) (s : State) :=
  vBin (.vadd d a b h g p) d a b h g p anyFmt vaddOp s
def execVsub (d : Dst) (a b : Src) (h g : Bool) (p : BitVec 2) (s : State) :=
  vBin (.vsub d a b h g p) d a b h g p anyFmt vsubOp s
def execVmul (d : Dst) (a b : Src) (h g : Bool) (p : BitVec 2) (s : State) :=
  vBin (.vmul d a b h g p) d a b h g p anyFmt vmulOp s
def execVfma (d : Dst) (a b : Src) (h g : Bool) (p : BitVec 2) (s : State) :=
  vTer (.vfma d a b h g p) d a b h g p vfmaOp s
def execVfms (d : Dst) (a b : Src) (h g : Bool) (p : BitVec 2) (s : State) :=
  vTer (.vfms d a b h g p) d a b h g p vfmsOp s
def execVfnma (d : Dst) (a b : Src) (h g : Bool) (p : BitVec 2) (s : State) :=
  vTer (.vfnma d a b h g p) d a b h g p vfnmaOp s
def execVmin (d : Dst) (a b : Src) (h g : Bool) (p : BitVec 2) (s : State) :=
  vBin (.vmin d a b h g p) d a b h g p anyFmt vminOp s
def execVmax (d : Dst) (a b : Src) (h g : Bool) (p : BitVec 2) (s : State) :=
  vBin (.vmax d a b h g p) d a b h g p anyFmt vmaxOp s
def execVabs (d : Dst) (a : Src) (h : Bool) (p : BitVec 2) (s : State) :=
  vUn (.vabs d a h p) d a h p anyFmt vabsOp s
def execVneg (d : Dst) (a : Src) (h : Bool) (p : BitVec 2) (s : State) :=
  vUn (.vneg d a h p) d a h p anyFmt vnegOp s
def execVdiv (d : Dst) (a b : Src) (h g : Bool) (p : BitVec 2) (s : State) :=
  vBin (.vdiv d a b h g p) d a b h g p floatFmt
    (fun sh x y => sh.fmt.divRound sh.rnd (sh.fmt.decode x) (sh.fmt.decode y)) s

/-! ## Special functions (R147) -/

/-- g(x), rounded once to the element type by VSH.round. -/
def specialOp (f : SpecialFn) (sh : Shape) (a : Nat) : Nat :=
  sh.fmt.round sh.rnd (NumFmt.fp32.decode (f.eval (sh.fmt.decode a)))

def execVrcp (d : Dst) (a : Src) (h : Bool) (p : BitVec 2) (s : State) :=
  vUn (.vrcp d a h p) d a h p floatFmt (specialOp .rcp) s
def execVrsq (d : Dst) (a : Src) (h : Bool) (p : BitVec 2) (s : State) :=
  vUn (.vrsq d a h p) d a h p floatFmt (specialOp .rsq) s
def execVsqrt (d : Dst) (a : Src) (h : Bool) (p : BitVec 2) (s : State) :=
  vUn (.vsqrt d a h p) d a h p floatFmt (fun sh x => sh.fmt.sqrtRound sh.rnd (sh.fmt.decode x)) s
def execVexp (d : Dst) (a : Src) (h : Bool) (p : BitVec 2) (s : State) :=
  vUn (.vexp d a h p) d a h p floatFmt (specialOp .exp) s
def execVlog (d : Dst) (a : Src) (h : Bool) (p : BitVec 2) (s : State) :=
  vUn (.vlog d a h p) d a h p floatFmt (specialOp .log) s
def execVtanh (d : Dst) (a : Src) (h : Bool) (p : BitVec 2) (s : State) :=
  vUn (.vtanh d a h p) d a h p floatFmt (specialOp .tanh) s
def execVsigm (d : Dst) (a : Src) (h : Bool) (p : BitVec 2) (s : State) :=
  vUn (.vsigm d a h p) d a h p floatFmt (specialOp .sigm) s
def execVsin (d : Dst) (a : Src) (h : Bool) (p : BitVec 2) (s : State) :=
  vUn (.vsin d a h p) d a h p floatFmt (specialOp .sin) s
def execVcos (d : Dst) (a : Src) (h : Bool) (p : BitVec 2) (s : State) :=
  vUn (.vcos d a h p) d a h p floatFmt (specialOp .cos) s

/-! ## Bits (R148 to R150) -/

def execVand (d : Dst) (a b : Src) (h g : Bool) (p : BitVec 2) (s : State) :=
  vBin (.vand d a b h g p) d a b h g p anyFmt (fun _ x y => x &&& y) s
def execVor (d : Dst) (a b : Src) (h g : Bool) (p : BitVec 2) (s : State) :=
  vBin (.vor d a b h g p) d a b h g p anyFmt (fun _ x y => x ||| y) s
def execVxor (d : Dst) (a b : Src) (h g : Bool) (p : BitVec 2) (s : State) :=
  vBin (.vxor d a b h g p) d a b h g p anyFmt (fun _ x y => x ^^^ y) s
def execVnot (d : Dst) (a : Src) (h : Bool) (p : BitVec 2) (s : State) :=
  vUn (.vnot d a h p) d a h p anyFmt (fun sh x => 2 ^ sh.w - 1 - x) s
def execVshl (d : Dst) (a b : Src) (h g : Bool) (p : BitVec 2) (s : State) :=
  vBin (.vshl d a b h g p) d a b h g p intFmt (fun sh x y => x * 2 ^ (y % sh.w)) s
def execVshr (d : Dst) (a b : Src) (h g : Bool) (p : BitVec 2) (s : State) :=
  vBin (.vshr d a b h g p) d a b h g p intFmt (fun sh x y => x / 2 ^ (y % sh.w)) s
def execVsar (d : Dst) (a b : Src) (h g : Bool) (p : BitVec 2) (s : State) :=
  vBin (.vsar d a b h g p) d a b h g p intFmt
    (fun sh x y => wrapInt sh.w (sextInt sh.w x / (2 ^ (y % sh.w) : Nat))) s
def execVclz (d : Dst) (a : Src) (h : Bool) (p : BitVec 2) (s : State) :=
  vUn (.vclz d a h p) d a h p intFmt (fun sh x => clzAt sh.w x) s
def execVffs (d : Dst) (a : Src) (h : Bool) (p : BitVec 2) (s : State) :=
  vUn (.vffs d a h p) d a h p intFmt (fun sh x => ffsAt sh.w x) s
def execVpopc (d : Dst) (a : Src) (h : Bool) (p : BitVec 2) (s : State) :=
  vUn (.vpopc d a h p) d a h p intFmt (fun sh x => popcAt sh.w x) s

/-! ## Comparison, selection, classes and predicates (R151 to R154) -/

def execVcmp (c : VCond) (k : BitVec 3) (a b : Src) (h g : Bool) (p : BitVec 2) (s : State) :=
  vaWord (.vcmp c k a b h g p) [a, b] .discard (holdList [(h, a), (g, b)]) (do
    let sh ← shapeM anyFmt true
    issueV [a, b] .discard
    let gov ← governed p.toNat sh.n
    let u ← readElems sh.w sh.n a
    let v ← readElems sh.w sh.n b
    writePred k.toNat ((List.range sh.n).map fun i =>
      if gov i then some (c.holds (sh.fmt.decode (u.getD i 0)) (sh.fmt.decode (v.getD i 0)))
      else none)) s

def execVsel (d : Dst) (a b : Src) (h g : Bool) (p : BitVec 2) (s : State) :=
  vaWord (.vsel d a b h g p) [a, b] d (holdList [(h, a), (g, b)]) (do
    let sh ← shapeM anyFmt true
    issueV [a, b] d
    let gov ← governed p.toNat sh.n
    let u ← readElems sh.w sh.n a
    let v ← readElems sh.w sh.n b
    writeElems d sh.w ((List.range sh.n).map fun i =>
      some (if gov i then u.getD i 0 else v.getD i 0))) s

/-- The class bit of a float encoding (R153): NaN, infinity, normal, subnormal, zero. -/
def classBit (f : NumFmt) (x : Nat) : Nat :=
  match f.decode x with
  | .nan => 0
  | .inf _ => 1
  | .fin _ m _ => if m = 0 then 4 else if m < 2 ^ f.fbits then 3 else 2

def execVclass (k : BitVec 3) (a : Src) (c : BitVec 6) (h : Bool) (p : BitVec 2) (s : State) :=
  vaWord (.vclass k a c h p) [a] .discard (holdList [(h, a)]) (do
    let sh ← shapeM floatFmt true
    issueV [a] .discard
    let gov ← governed p.toNat sh.n
    let u ← readElems sh.w sh.n a
    writePred k.toNat ((List.range sh.n).map fun i =>
      let e := u.getD i 0
      if gov i then some (bit c (classBit sh.fmt e) && (!bit c 5 || e / 2 ^ (sh.w - 1) == 1))
      else none)) s

/-- Bit i of the result of VPSET (R154). -/
def psetBit (o : PsetOp) (count : Nat) (ps pt : Pred) (i : Nat) : Bool :=
  match o with
  | .all => true
  | .none => false
  | .first => decide (i < count)
  | .not => !bit ps i
  | .and => bit ps i && bit pt i
  | .or => bit ps i || bit pt i
  | .xor => bit ps i != bit pt i
  | .andn => bit ps i && !bit pt i

/-- Whether VPSET reads its first, and its second, predicate register. -/
def psetReads (o : PsetOp) : Bool := match o with | .all => false | .none => false | .first => false | _ => true
def psetReadsTwo (o : PsetOp) : Bool := match o with | .and => true | .or => true | .xor => true | .andn => true | _ => false

def execVpset (o : PsetOp) (k : BitVec 3) (a : Src) (t sel : BitVec 3) (h : Bool) (s : State) :=
  vaWord (.vpset o k a t sel h) [a] .discard (holdList [(h, a)]) (do
    let sh ← shapeM anyFmt true
    issueV [a] .discard
    let c ← if o = .first then readControl a else pure 0
    let ps ← if psetReads o then readPred sel.toNat sh.n else pure 0
    let pt ← if psetReadsTwo o then readPred t.toNat sh.n else pure 0
    writePred k.toNat ((List.range sh.n).map fun i => some (psetBit o c.toNat ps pt i))) s

/-! ## Conversions (R155 to R157) -/

def execVcvt (d : Dst) (a : Src) (y : Policy) (t : NumFmt) (h : Bool) (s : State) :=
  vaWord (.vcvt d a y t h) [a] d (holdList [(h, a)]) (do
    let sh ← shapeM anyFmt false
    if 16384 < sh.n * t.width then shapeTrap else
    issueV [a] d
    let u ← readElems sh.w sh.n a
    let r ← convertM sh.fmt t sh.rnd y u
    writeElems d t.width (r.map some)) s

/-- The types that VWIDEN accepts (R144). -/
def widenFmt (f : NumFmt) : Bool :=
  match f with
  | .bf16 | .fp16 | .e4m3 | .e5m2 | .int4 | .int8 | .int16 => true
  | _ => false

def execVwiden (d : Dst) (a : Src) (w : BitVec 3) (h : Bool) (s : State) :=
  vaWord (.vwiden d a w h) [a] d (holdList [(h, a)]) (do
    let sh ← shapeM widenFmt false
    if sh.n ≤ 512 * w.toNat then shapeTrap else
    issueV [a] d
    let u ← readElems sh.w sh.n a
    writeElems d 32 (((u.drop (512 * w.toNat)).take 512).map fun x => some (widen sh.fmt x))) s

/-- Term `t` of the three-way BF16 split of an FP32 element (R157). -/
def splitTerm (t : Nat) (x : Nat) : Nat :=
  let v := NumFmt.fp32.decode x
  match v with
  | .nan => if t = 0 then NumFmt.bf16.nanCode else 0
  | .inf s => if t = 0 then NumFmt.bf16.infOrNaN s else 0
  | .fin _ _ _ =>
    let hi := NumFmt.bf16.round .rtz v
    let r1 := v.add .rne (NumFmt.bf16.decode hi).neg
    let mid := NumFmt.bf16.round .rtz r1
    let r2 := r1.add .rne (NumFmt.bf16.decode mid).neg
    match t with
    | 0 => hi
    | 1 => mid
    | _ => NumFmt.bf16.round .rtz r2

def execVsplit (d : Dst) (a : Src) (t : BitVec 2) (h : Bool) (s : State) :=
  vaWord (.vsplit d a t h) [a] d (holdList [(h, a)]) (do
    let sh ← shapeM (· == .fp32) false
    issueV [a] d
    let u ← readElems 32 sh.n a
    writeElems d 16 (u.map fun x => some (splitTerm t.toNat x))) s

/-! ## Quantisation (R158, R159) -/

def execVqnt (d : Dst) (a : Src) (sel f : Bool) (h : Bool) (s : State) :=
  vaWord (.vqnt d a sel f h) [a] d (holdList [(h, a)]) (do
    let sh ← shapeM (fun x => x == .fp32 || x == .bf16) false
    if sh.n % 32 ≠ 0 then shapeTrap else
    issueV [a] d
    let u ← readElems sh.w sh.n a
    let q := quantAll f (u.map sh.fmt.decode)
    if sel then writeElems d 16 (q.1.map some) else writeElems d 8 (q.2.map some)) s

def execVdqnt (d : Dst) (a b : Src) (h g : Bool) (s : State) :=
  vaWord (.vdqnt d a b h g) [a, b] d (holdList [(h, a), (g, b)]) (do
    let sh ← shapeM (fun x => x == .e4m3 || x == .int8) false
    if sh.n % 32 ≠ 0 ∨ 512 < sh.n then shapeTrap else
    issueV [a, b] d
    let u ← readElems 8 sh.n a
    let v ← readHalves 8 (sh.n / 32) b
    writeElems d 32 (u.zipIdx.map fun e =>
      some (NumFmt.fp32.round sh.rnd ((sh.fmt.decode e.1).mul (ue8m8Value (v.getD (e.2 / 32) 0)))))) s

/-! ## Reductions, scans, arg-extremes (R62, R63, R160 to R162) -/

/-- One level of the pairwise tree. -/
def pairLevel (f : Nat → Nat → Nat) : List Nat → List Nat
  | x :: y :: t => f x y :: pairLevel f t
  | l => l

/-- The tree of R62, with as many levels as the first argument allows. -/
def treeFold (f : Nat → Nat → Nat) : Nat → List Nat → Nat
  | 0, l => l.getD 0 0
  | k + 1, l =>
    match l with
    | [x] => x
    | _ => treeFold f k (pairLevel f l)

/-- The element indices of each result: all, by row, by column (R160). -/
def segments' (sh : Shape) (x : Axis) : List (List Nat) :=
  match x with
  | .all => [List.range sh.n]
  | .row => (List.range sh.rows).map fun r => (List.range sh.cols).map fun c => r * sh.cols + c
  | .col => (List.range sh.cols).map fun c => (List.range sh.rows).map fun r => r * sh.cols + c

/-- A node of a reduction: FP32 codes for floats, codes of the element type for integers. -/
def redNode (sh : Shape) (o : RedOp) (x y : Nat) : Nat :=
  if sh.fmt.isFloat then
    let u := NumFmt.fp32.decode x
    let v := NumFmt.fp32.decode y
    match o with
    | .add => NumFmt.fp32.addCode .rne x y
    | .min => NumFmt.fp32.round .rne (u.min' v)
    | .max => NumFmt.fp32.round .rne (u.max' v)
  else
    let u := sextInt sh.w x
    let v := sextInt sh.w y
    match o with
    | .add => narrowInt sh.sat sh.w (u + v)
    | .min => if u ≤ v then x else y
    | .max => if v ≤ u then x else y

/-- Elements as the nodes of a reduction take them: floats widened to FP32. -/
def redIn (sh : Shape) (x : Nat) : Nat := if sh.fmt.isFloat then NumFmt.fp32.round .rne (sh.fmt.decode x) else x

/-- Results narrowed to the element type under the policy, code 00; the lowest overflow traps. -/
def redOut (sh : Shape) (y : Policy) (l : List Nat) : M (List Nat) :=
  if sh.fmt.isFloat then convertM .fp32 sh.fmt .rne y l else pure l

def execVred (d : Dst) (a : Src) (y : Policy) (x : Axis) (o : RedOp) (h : Bool) (s : State) :=
  vaWord (.vred d a y x o h) [a] d (holdList [(h, a)]) (do
    let sh ← shapeM anyFmt false
    issueV [a] d
    let u ← readElems sh.w sh.n a
    let r ← redOut sh y ((segments' sh x).map fun seg =>
      treeFold (redNode sh o) 13 (seg.map fun i => redIn sh (u.getD i 0)))
    writeElems d sh.w (r.map some)) s

/-- Running sums of R63. -/
def scanFrom (sh : Shape) : Nat → List Nat → List Nat
  | _, [] => []
  | acc, x :: t => let v := redNode sh .add acc x; v :: scanFrom sh v t

/-- The scan of one sequence: the first element is taken as it is. -/
def scanList (sh : Shape) : List Nat → List Nat
  | [] => []
  | x :: t => x :: scanFrom sh x t

def execVscan (d : Dst) (a : Src) (y : Policy) (x : Bool) (h : Bool) (s : State) :=
  vaWord (.vscan d a y x h) [a] d (holdList [(h, a)]) (do
    let sh ← shapeM anyFmt false
    issueV [a] d
    let u ← readElems sh.w sh.n a
    let r ← redOut sh y ((segments' sh (if x then .row else .all)).flatMap fun seg =>
      scanList sh (seg.map fun i => redIn sh (u.getD i 0)))
    writeElems d sh.w (r.map some)) s

/-- The order of VARGX: signed integers, floats with −0 below +0; none for a NaN (R162). -/
def argKey (f : NumFmt) (x : Nat) : Option Int :=
  if f.isFloat then
    if (f.decode x).isNaN then none
    else if x < f.signBit then some x else some (-((x - f.signBit : Nat) : Int) - 1)
  else some (sextInt f.width x)

/-- The position of the extreme element; ties go to the lowest. -/
def argBest (least : Bool) : List (Option Int × Nat) → Option (Int × Nat)
  | [] => none
  | (k, i) :: t =>
    match k, argBest least t with
    | none, r => r
    | some v, none => some (v, i)
    | some v, some (w, j) => if (if least then w < v else v < w) then some (w, j) else some (v, i)

def execVargx (d : Dst) (a : Src) (e x : Bool) (h : Bool) (s : State) :=
  vaWord (.vargx d a e x h) [a] d (holdList [(h, a)]) (do
    let sh ← shapeM anyFmt false
    issueV [a] d
    let u ← readElems sh.w sh.n a
    let r := (segments' sh (if x then .row else .all)).map fun seg =>
      match argBest e (seg.zipIdx.map fun p => (argKey sh.fmt (u.getD p.1 0), p.2)) with
      | some (_, i) => i
      | none => 0xFFFF
    writeElems d 16 (r.map some)) s

/-! ## Rearrangement and movement (R163 to R166) -/

def execVtrn (d : Dst) (a : Src) (h : Bool) (s : State) :=
  vaWord (.vtrn d a h) [a] d (holdList [(h, a)]) (do
    let sh ← shapeM anyFmt false
    issueV [a] d
    let u ← readElems sh.w sh.n a
    writeElems d sh.w ((List.range sh.n).map fun j => some (u.getD (j % sh.rows * sh.cols + j / sh.rows) 0))) s

def execVshuf (d : Dst) (a b : Src) (h g : Bool) (p : BitVec 2) (s : State) :=
  vaWord (.vshuf d a b h g p) [a, b] d (holdList [(h, a), (g, b)]) (do
    let sh ← shapeM anyFmt (p != 0)
    if 1024 < sh.n then shapeTrap else
    issueV [a, b] d
    let gov ← governed p.toNat sh.n
    let u ← readElems sh.w sh.n a
    let idx ← readHalves sh.w sh.n b
    writeElems d sh.w ((List.range sh.n).map fun i =>
      if gov i then
        some (if idx.getD i 0 < sh.n then u.getD (idx.getD i 0) 0 else 0)
      else none)) s

def execViota (d : Dst) (k : IotaKind) (p : BitVec 2) (s : State) :=
  vaWord (.viota d k p) [] d [] (do
    let sh ← shapeM anyFmt (p != 0)
    issueV [] d
    let gov ← governed p.toNat sh.n
    writeElems d sh.w ((List.range sh.n).map fun i =>
      let v := match k with | .index => i | .col => i % sh.cols | .row => i / sh.cols
      if gov i then
        some (if sh.fmt.isFloat then sh.fmt.round sh.rnd (.fin false v 0) else v % 2 ^ sh.w)
      else none)) s

def execVmov (d : Dst) (a : Src) (h : Bool) (p : BitVec 2) (s : State) :=
  let whole := match a with | .reg _ => true | .queue _ => true | _ => false
  vaWord (.vmov d a h p) [a] d (holdList [(h, a)]) (
    if p = 0 ∧ whole = true then do
      let _ ← shapeM anyFmt false
      issueV [a] d
      let t ← readTile a
      writeTile d fun _ => t
    else ewBody d [a] false p.toNat anyFmt fun _ l => l.getD 0 0) s

/-! ## Random bits (R167) -/

/-- The 64 bits of a global index under a key. -/
def rngWord (key g : Word) : Word :=
  let z0 := key + (g + 1) * 0x9E3779B97F4A7C15
  let z1 := (z0 ^^^ (z0 >>> 30)) * 0xBF58476D1CE4E5B9
  let z2 := (z1 ^^^ (z1 >>> 27)) * 0x94D049BB133111EB
  z2 ^^^ (z2 >>> 31)

/-- The element that a type takes from them. -/
def rngElem (f : NumFmt) (z : Word) : Nat :=
  if f.isFloat then
    let p := f.fbits + 1
    f.round .rne (.fin false (z.toNat / 2 ^ (64 - p)) (-(p : Int)))
  else z.toNat % 2 ^ f.width

def execVrng (d : Dst) (p : BitVec 2) (s : State) :=
  vaWord (.vrng d p) [] d [] (do
    let sh ← shapeM anyFmt (p != 0)
    issueV [] d
    let x ← thisCtx
    let gov ← governed p.toNat sh.n
    writeElems d sh.w ((List.range sh.n).map fun i =>
      let g := x.vbase + BitVec.ofNat 64 (i / sh.cols) * x.vgstr + BitVec.ofNat 64 (i % sh.cols)
      if gov i then some (rngElem sh.fmt (rngWord x.vkey g)) else none)) s

/-! ## Shape and control registers (R168) -/

def execVshape (a : Src) (r : ShapeReg) (h : Bool) (s : State) :=
  vaWord (.vshape a r h) [a] .discard (holdList [(h, a)]) (do
    issueV [a] .discard
    let v ← readControl a
    match r with
    | .sh => do
      trapIf (!validShape v.toNat) Cause.shapeInvalid v
      modHere fun x => { x with vsh := v.setWidth 32 }
    | .key => modHere fun x => { x with vkey := v }
    | .base => modHere fun x => { x with vbase := v }
    | .gstr => modHere fun x => { x with vgstr := v }) s

end Sys2Proof.Machine
end

