-- ==== Sys2Proof/Machine/Dispatch.lean ====
section
/-! DEFINITION. Which meaning each instruction has: one arm per constructor of Instr. -/

namespace Sys2Proof.Machine

def exec (i : Instr) (s : State) : Host.Outcome State Fault Refusal :=
  match i with
  | .add d a b => Sys2Proof.Machine.execAdd d a b s
  | .sub d a b => Sys2Proof.Machine.execSub d a b s
  | .mul d a b => Sys2Proof.Machine.execMul d a b s
  | .mulh d a b => Sys2Proof.Machine.execMulh d a b s
  | .mulhu d a b => Sys2Proof.Machine.execMulhu d a b s
  | .div d a b => Sys2Proof.Machine.execDiv d a b s
  | .divu d a b => Sys2Proof.Machine.execDivu d a b s
  | .rem d a b => Sys2Proof.Machine.execRem d a b s
  | .remu d a b => Sys2Proof.Machine.execRemu d a b s
  | .and d a b => Sys2Proof.Machine.execAnd d a b s
  | .or d a b => Sys2Proof.Machine.execOr d a b s
  | .xor d a b => Sys2Proof.Machine.execXor d a b s
  | .andn d a b => Sys2Proof.Machine.execAndn d a b s
  | .shl d a b => Sys2Proof.Machine.execShl d a b s
  | .shr d a b => Sys2Proof.Machine.execShr d a b s
  | .sar d a b => Sys2Proof.Machine.execSar d a b s
  | .rol d a b => Sys2Proof.Machine.execRol d a b s
  | .min d a b => Sys2Proof.Machine.execMin d a b s
  | .max d a b => Sys2Proof.Machine.execMax d a b s
  | .minu d a b => Sys2Proof.Machine.execMinu d a b s
  | .maxu d a b => Sys2Proof.Machine.execMaxu d a b s
  | .clz d a f => Sys2Proof.Machine.execClz d a f s
  | .ffs d a f => Sys2Proof.Machine.execFfs d a f s
  | .popc d a f => Sys2Proof.Machine.execPopc d a f s
  | .sext d a b => Sys2Proof.Machine.execSext d a b s
  | .zext d a b => Sys2Proof.Machine.execZext d a b s
  | .bfx d a b sel => Sys2Proof.Machine.execBfx d a b sel s
  | .bfi d a b => Sys2Proof.Machine.execBfi d a b s
  | .sel d a b c => Sys2Proof.Machine.execSel d a b c s
  | .cmp d a b u => Sys2Proof.Machine.execCmp d a b u s
  | .addi d a im => Sys2Proof.Machine.execAddi d a im s
  | .movi d im => Sys2Proof.Machine.execMovi d im s
  | .madr d a b => Sys2Proof.Machine.execMadr d a b s
  | .abs d a sel => Sys2Proof.Machine.execAbs d a sel s
  | .bcc c a o => Sys2Proof.Machine.execBcc c a o s
  | .br o => Sys2Proof.Machine.execBr o s
  | .call o => Sys2Proof.Machine.execCall o s
  | .ret a l => Sys2Proof.Machine.execRet a l s
  | .loop c a o => Sys2Proof.Machine.execLoop c a o s
  | .rds d n => Sys2Proof.Machine.execRds d n s
  | .wrs d n => Sys2Proof.Machine.execWrs d n s
  | .rdq d n => Sys2Proof.Machine.execRdq d n s
  | .fadd d a b n r => Sys2Proof.Machine.execFadd d a b n r s
  | .fmul d a b n r => Sys2Proof.Machine.execFmul d a b n r s
  | .ffma d a b n r => Sys2Proof.Machine.execFfma d a b n r s
  | .fcmp d a b => Sys2Proof.Machine.execFcmp d a b s
  | .fcvt d a b => Sys2Proof.Machine.execFcvt d a b s
  | .fmin d a b => Sys2Proof.Machine.execFmin d a b s
  | .fmax d a b => Sys2Proof.Machine.execFmax d a b s
  | .vld d a b f => Sys2Proof.Machine.execVld d a b f s
  | .vldx d a b f => Sys2Proof.Machine.execVldx d a b f s
  | .vldb d a b f => Sys2Proof.Machine.execVldb d a b f s
  | .vlds d a b => Sys2Proof.Machine.execVlds d a b s
  | .vlda d a b x sel t => Sys2Proof.Machine.execVlda d a b x sel t s
  | .vldc d a b f => Sys2Proof.Machine.execVldc d a b f s
  | .vldq d a b sel => Sys2Proof.Machine.execVldq d a b sel s
  | .vst d a b f => Sys2Proof.Machine.execVst d a b f s
  | .vstx d a b f => Sys2Proof.Machine.execVstx d a b f s
  | .vstm d a b k => Sys2Proof.Machine.execVstm d a b k s
  | .vstc d a b p t => Sys2Proof.Machine.execVstc d a b p t s
  | .vstr d a b sel => Sys2Proof.Machine.execVstr d a b sel s
  | .vsta d a b => Sys2Proof.Machine.execVsta d a b s
  | .vadd d a b h g p => Sys2Proof.Machine.execVadd d a b h g p s
  | .vsub d a b h g p => Sys2Proof.Machine.execVsub d a b h g p s
  | .vmul d a b h g p => Sys2Proof.Machine.execVmul d a b h g p s
  | .vfma d a b h g p => Sys2Proof.Machine.execVfma d a b h g p s
  | .vfms d a b h g p => Sys2Proof.Machine.execVfms d a b h g p s
  | .vfnma d a b h g p => Sys2Proof.Machine.execVfnma d a b h g p s
  | .vmin d a b h g p => Sys2Proof.Machine.execVmin d a b h g p s
  | .vmax d a b h g p => Sys2Proof.Machine.execVmax d a b h g p s
  | .vabs d a h p => Sys2Proof.Machine.execVabs d a h p s
  | .vneg d a h p => Sys2Proof.Machine.execVneg d a h p s
  | .vrcp d a h p => Sys2Proof.Machine.execVrcp d a h p s
  | .vrsq d a h p => Sys2Proof.Machine.execVrsq d a h p s
  | .vsqrt d a h p => Sys2Proof.Machine.execVsqrt d a h p s
  | .vdiv d a b h g p => Sys2Proof.Machine.execVdiv d a b h g p s
  | .vexp d a h p => Sys2Proof.Machine.execVexp d a h p s
  | .vlog d a h p => Sys2Proof.Machine.execVlog d a h p s
  | .vtanh d a h p => Sys2Proof.Machine.execVtanh d a h p s
  | .vsigm d a h p => Sys2Proof.Machine.execVsigm d a h p s
  | .vsin d a h p => Sys2Proof.Machine.execVsin d a h p s
  | .vcos d a h p => Sys2Proof.Machine.execVcos d a h p s
  | .vand d a b h g p => Sys2Proof.Machine.execVand d a b h g p s
  | .vor d a b h g p => Sys2Proof.Machine.execVor d a b h g p s
  | .vxor d a b h g p => Sys2Proof.Machine.execVxor d a b h g p s
  | .vnot d a h p => Sys2Proof.Machine.execVnot d a h p s
  | .vshl d a b h g p => Sys2Proof.Machine.execVshl d a b h g p s
  | .vshr d a b h g p => Sys2Proof.Machine.execVshr d a b h g p s
  | .vsar d a b h g p => Sys2Proof.Machine.execVsar d a b h g p s
  | .vclz d a h p => Sys2Proof.Machine.execVclz d a h p s
  | .vffs d a h p => Sys2Proof.Machine.execVffs d a h p s
  | .vpopc d a h p => Sys2Proof.Machine.execVpopc d a h p s
  | .vcmp c k a b h g p => Sys2Proof.Machine.execVcmp c k a b h g p s
  | .vsel d a b h g p => Sys2Proof.Machine.execVsel d a b h g p s
  | .vcvt d a y t h => Sys2Proof.Machine.execVcvt d a y t h s
  | .vwiden d a w h => Sys2Proof.Machine.execVwiden d a w h s
  | .vqnt d a sel f h => Sys2Proof.Machine.execVqnt d a sel f h s
  | .vdqnt d a b h g => Sys2Proof.Machine.execVdqnt d a b h g s
  | .vsplit d a t h => Sys2Proof.Machine.execVsplit d a t h s
  | .vred d a y x o h => Sys2Proof.Machine.execVred d a y x o h s
  | .vscan d a y x h => Sys2Proof.Machine.execVscan d a y x h s
  | .vtrn d a h => Sys2Proof.Machine.execVtrn d a h s
  | .vshuf d a b h g p => Sys2Proof.Machine.execVshuf d a b h g p s
  | .viota d k p => Sys2Proof.Machine.execViota d k p s
  | .vrng d p => Sys2Proof.Machine.execVrng d p s
  | .vshape a r h => Sys2Proof.Machine.execVshape a r h s
  | .vmov d a h p => Sys2Proof.Machine.execVmov d a h p s
  | .vpset o k a t sel h => Sys2Proof.Machine.execVpset o k a t sel h s
  | .vclass k a c h p => Sys2Proof.Machine.execVclass k a c h p s
  | .vargx d a e x h => Sys2Proof.Machine.execVargx d a e x h s
  | .mstrm k a => Sys2Proof.Machine.execMstrm k a s
  | .mnest a => Sys2Proof.Machine.execMnest a s
  | .mma n t k b z m => Sys2Proof.Machine.execMma n t k b z m s
  | .mldw j k b => Sys2Proof.Machine.execMldw j k b s
  | .mwsel j => Sys2Proof.Machine.execMwsel j s
  | .mzero n t f => Sys2Proof.Machine.execMzero n t f s
  | .mspec sel c => Sys2Proof.Machine.execMspec sel c s
  | .mcommit c => Sys2Proof.Machine.execMcommit c s
  | .mdisc c => Sys2Proof.Machine.execMdisc c s
  | .mbgj g => Sys2Proof.Machine.execMbgj g s
  | .mcbk c a => Sys2Proof.Machine.execMcbk c a s
  | .mstat d f => Sys2Proof.Machine.execMstat d f s
  | .qcfg a => Sys2Proof.Machine.execQcfg a s
  | .qclr k => Sys2Proof.Machine.execQclr k s
  | .qann a f => Sys2Proof.Machine.execQann a f s
  | .qapl a b f => Sys2Proof.Machine.execQapl a b f s
  | .qvec d a b => Sys2Proof.Machine.execQvec d a b s
  | .qrot d a b => Sys2Proof.Machine.execQrot d a b s
  | .qangf d a => Sys2Proof.Machine.execQangf d a s
  | .qangr d a => Sys2Proof.Machine.execQangr d a s
  | .qrdt a b f => Sys2Proof.Machine.execQrdt a b f s
  | .qwrt a b f => Sys2Proof.Machine.execQwrt a b f s
  | .qrda a x f => Sys2Proof.Machine.execQrda a x f s
  | .qstat d => Sys2Proof.Machine.execQstat d s
  | .ld d a b sel f => Sys2Proof.Machine.execLd d a b sel f s
  | .st d a b f => Sys2Proof.Machine.execSt d a b f s
  | .lda d a b o sel => Sys2Proof.Machine.execLda d a b o sel s
  | .str d a b o sel => Sys2Proof.Machine.execStr d a b o sel s
  | .pref a b => Sys2Proof.Machine.execPref a b s
  | .fence o sel => Sys2Proof.Machine.execFence o sel s
  | .waita d a b q c => Sys2Proof.Machine.execWaita d a b q c s
  | .xform d a b f => Sys2Proof.Machine.execXform d a b f s
  | .xbox d a => Sys2Proof.Machine.execXbox d a s
  | .amoAdd d a b o sel => Sys2Proof.Machine.execAmoAdd d a b o sel s
  | .amoAnd d a b o sel => Sys2Proof.Machine.execAmoAnd d a b o sel s
  | .amoOr d a b o sel => Sys2Proof.Machine.execAmoOr d a b o sel s
  | .amoXor d a b o sel => Sys2Proof.Machine.execAmoXor d a b o sel s
  | .amoMin d a b o sel => Sys2Proof.Machine.execAmoMin d a b o sel s
  | .amoMax d a b o sel => Sys2Proof.Machine.execAmoMax d a b o sel s
  | .amoMinu d a b o sel => Sys2Proof.Machine.execAmoMinu d a b o sel s
  | .amoMaxu d a b o sel => Sys2Proof.Machine.execAmoMaxu d a b o sel s
  | .amoSwp d a b o sel => Sys2Proof.Machine.execAmoSwp d a b o sel s
  | .amoCas d a b o sel => Sys2Proof.Machine.execAmoCas d a b o sel s
  | .amoFadd d a b o sel => Sys2Proof.Machine.execAmoFadd d a b o sel s
  | .amoAddW d a b o sel => Sys2Proof.Machine.execAmoAddW d a b o sel s
  | .amoAndW d a b o sel => Sys2Proof.Machine.execAmoAndW d a b o sel s
  | .amoOrW d a b o sel => Sys2Proof.Machine.execAmoOrW d a b o sel s
  | .amoXorW d a b o sel => Sys2Proof.Machine.execAmoXorW d a b o sel s
  | .amoMinW d a b o sel => Sys2Proof.Machine.execAmoMinW d a b o sel s
  | .amoMaxW d a b o sel => Sys2Proof.Machine.execAmoMaxW d a b o sel s
  | .amoMinuW d a b o sel => Sys2Proof.Machine.execAmoMinuW d a b o sel s
  | .amoMaxuW d a b o sel => Sys2Proof.Machine.execAmoMaxuW d a b o sel s
  | .amoSwpW d a b o sel => Sys2Proof.Machine.execAmoSwpW d a b o sel s
  | .amoCasW d a b o sel => Sys2Proof.Machine.execAmoCasW d a b o sel s
  | .amoFaddW d a b o sel => Sys2Proof.Machine.execAmoFaddW d a b o sel s
  | .acq d a b o sel => Sys2Proof.Machine.execAcq d a b o sel s
  | .rel d a b o sel => Sys2Proof.Machine.execRel d a b o sel s
  | .bind d a b f => Sys2Proof.Machine.execBind d a b f s
  | .bara d a b o sel => Sys2Proof.Machine.execBara d a b o sel s
  | .barw d a b o sel => Sys2Proof.Machine.execBarw d a b o sel s
  | .barx d a b => Sys2Proof.Machine.execBarx d a b s
  | .hset d a f sel => Sys2Proof.Machine.execHset d a f sel s
  | .hacq d a f => Sys2Proof.Machine.execHacq d a f s
  | .hrel d a f => Sys2Proof.Machine.execHrel d a f s
  | .hwait d a q sel => Sys2Proof.Machine.execHwait d a q sel s
  | .rclaim d a b n => Sys2Proof.Machine.execRclaim d a b n s
  | .rpub d a b r e => Sys2Proof.Machine.execRpub d a b r e s
  | .wfill d a b => Sys2Proof.Machine.execWfill d a b s
  | .wfree d a b => Sys2Proof.Machine.execWfree d a b s
  | .rcons d a b => Sys2Proof.Machine.execRcons d a b s
  | .rerr d a b => Sys2Proof.Machine.execRerr d a b s
  | .rfix d a b => Sys2Proof.Machine.execRfix d a b s
  | .rfixInit d a b => Sys2Proof.Machine.execRfixInit d a b s
  | .rstat d a f => Sys2Proof.Machine.execRstat d a f s
  | .chain a b => Sys2Proof.Machine.execChain a b s
  | .cwait d a => Sys2Proof.Machine.execCwait d a s
  | .cstat d a f => Sys2Proof.Machine.execCstat d a f s
  | .nvsub d a b n => Sys2Proof.Machine.execNvsub d a b n s
  | .nvcpl d a b c => Sys2Proof.Machine.execNvcpl d a b c s
  | .rstf a b f => Sys2Proof.Machine.execRstf a b f s
  | .rchain a => Sys2Proof.Machine.execRchain a s
  | .rmcr a b => Sys2Proof.Machine.execRmcr a b s
  | .rldf a b f => Sys2Proof.Machine.execRldf a b f s
  | .bsend d a b n => Sys2Proof.Machine.execBsend d a b n s
  | .brecv d a n => Sys2Proof.Machine.execBrecv d a n s
  | .bstat d a f => Sys2Proof.Machine.execBstat d a f s
  | .rep c m sel => Sys2Proof.Machine.execRep c m sel s
  | .post d a n => Sys2Proof.Machine.execPost d a n s
  | .postr d a b => Sys2Proof.Machine.execPostr d a b s
  | .twait d a n => Sys2Proof.Machine.execTwait d a n s
  | .regdef d a => Sys2Proof.Machine.execRegdef d a s
  | .regdrop a => Sys2Proof.Machine.execRegdrop a s
  | .trap n => Sys2Proof.Machine.execTrap n s
  | .eret sel => Sys2Proof.Machine.execEret sel s
  | .yield a => Sys2Proof.Machine.execYield a s
  | .qzst d a b => Sys2Proof.Machine.execQzst d a b s
  | .ctxsw a => Sys2Proof.Machine.execCtxsw a s
  | .ctxswOut a b => Sys2Proof.Machine.execCtxswOut a b s
  | .ctxswIn a b => Sys2Proof.Machine.execCtxswIn a b s
  | .rcbld d a b => Sys2Proof.Machine.execRcbld d a b s
  | .rcbldTerm d b => Sys2Proof.Machine.execRcbldTerm d b s
  | .rcbldUnf d b => Sys2Proof.Machine.execRcbldUnf d b s
  | .fetchFault cause tval => Sys2Proof.Machine.execFetchFault cause tval s
  | .decodeFault cause word => Sys2Proof.Machine.execDecodeFault cause word s
  | .trapDelivery core seq => Sys2Proof.Machine.execTrapDelivery core seq s
  | .splitWord core => Sys2Proof.Machine.execSplitWord core s
  | .nestStep core => Sys2Proof.Machine.execNestStep core s
  | .bankLoad core => Sys2Proof.Machine.execBankLoad core s
  | .accumulatorRowCommit core => Sys2Proof.Machine.execAccumulatorRowCommit core s
  | .arrayOperationCommit core => Sys2Proof.Machine.execArrayOperationCommit core s
  | .transformLine core bank => Sys2Proof.Machine.execTransformLine core bank s
  | .xformComplete core seq => Sys2Proof.Machine.execXformComplete core seq s
  | .transposeTile core => Sys2Proof.Machine.execTransposeTile core s
  | .copyRecord core channel => Sys2Proof.Machine.execCopyRecord core channel s
  | .postAccept grove => Sys2Proof.Machine.execPostAccept grove s
  | .postCheckEnd grove => Sys2Proof.Machine.execPostCheckEnd grove s
  | .lotteryDraw core engine => Sys2Proof.Machine.execLotteryDraw core engine s
  | .taskSteal core engine => Sys2Proof.Machine.execTaskSteal core engine s
  | .taskRetire grove slot => Sys2Proof.Machine.execTaskRetire grove slot s
  | .edgeResolve grove slot => Sys2Proof.Machine.execEdgeResolve grove slot s
  | .successorReexamine grove slot => Sys2Proof.Machine.execSuccessorReexamine grove slot s
  | .hostPost tenant ring => Sys2Proof.Machine.execHostPost tenant ring s
  | .hostFence tenant ring => Sys2Proof.Machine.execHostFence tenant ring s
  | .hostCommandInvalid tenant ring => Sys2Proof.Machine.execHostCommandInvalid tenant ring s
  | .preemptHalt grove => Sys2Proof.Machine.execPreemptHalt grove s
  | .understoryExchange grove => Sys2Proof.Machine.execUnderstoryExchange grove s
  | .broadcastDelivery grove group => Sys2Proof.Machine.execBroadcastDelivery grove group s
  | .walkComplete glade => Sys2Proof.Machine.execWalkComplete glade s
  | .rchainForward m => Sys2Proof.Machine.execRchainForward m s
  | .keySlotDrained link slot => Sys2Proof.Machine.execKeySlotDrained link slot s
  | .tokenExpiry device id offset => Sys2Proof.Machine.execTokenExpiry device id offset s
  | .orphaned device id => Sys2Proof.Machine.execOrphaned device id s
  | .postrResend op => Sys2Proof.Machine.execPostrResend op s
  | .bsendResend id => Sys2Proof.Machine.execBsendResend id s
  | .mgo => Sys2Proof.Machine.execMgo s
  | .mwait => Sys2Proof.Machine.execMwait s
  | .mbgl => Sys2Proof.Machine.execMbgl s
  | .qwait => Sys2Proof.Machine.execQwait s
  | .nop => Sys2Proof.Machine.execNop s
  | .predwait => Sys2Proof.Machine.execPredwait s
  | .hintsucc => Sys2Proof.Machine.execHintsucc s
  | .tend => Sys2Proof.Machine.execTend s
  | .halt => Sys2Proof.Machine.execHalt s
  | .registerWrite tenant offset value => Sys2Proof.Machine.execRegisterWrite tenant offset value s
  | .cqtail tenant ring value => Sys2Proof.Machine.execCqtail tenant ring value s
  | .remotePostReceive m => Sys2Proof.Machine.execRemotePostReceive m s
  | .postrAck op word => Sys2Proof.Machine.execPostrAck op word s
  | .rotationFaultPending core => Sys2Proof.Machine.execRotationFaultPending core s
  | .bankRequest core offset rcb data count => Sys2Proof.Machine.execBankRequest core offset rcb data count s
  | .scrubRequest key => Sys2Proof.Machine.execScrubRequest key s
  | .syncLineUpdate glade line agents => Sys2Proof.Machine.execSyncLineUpdate glade line agents s
  | .backedLineMove glade line => Sys2Proof.Machine.execBackedLineMove glade line s
  | .waitaReevaluate core seq => Sys2Proof.Machine.execWaitaReevaluate core seq s
  | .yieldExpire core seq => Sys2Proof.Machine.execYieldExpire core seq s
  | .blockedWake core seq sub => Sys2Proof.Machine.execBlockedWake core seq sub s
  | .flitReceive link flit => Sys2Proof.Machine.execFlitReceive link flit s
  | .replayTimeout link => Sys2Proof.Machine.execReplayTimeout link s
  | .linkDown link => Sys2Proof.Machine.execLinkDown link s
  | .prefixAdvertise device sizes => Sys2Proof.Machine.execPrefixAdvertise device sizes s
  | .remoteAccessReceive m => Sys2Proof.Machine.execRemoteAccessReceive m s
  | .remoteAck op status cause index data => Sys2Proof.Machine.execRemoteAck op status cause index data s
  | .rmcrDelivery op status cause data => Sys2Proof.Machine.execRmcrDelivery op status cause data s
  | .pullRequestArrive m => Sys2Proof.Machine.execPullRequestArrive m s
  | .tokenGrant => Sys2Proof.Machine.execTokenGrant s
  | .pullTokenReceive t => Sys2Proof.Machine.execPullTokenReceive t s
  | .pullDataArrive t start data => Sys2Proof.Machine.execPullDataArrive t start data s
  | .pullCompleteNotice id status cause => Sys2Proof.Machine.execPullCompleteNotice id status cause s
  | .pullSuspendNotice device id => Sys2Proof.Machine.execPullSuspendNotice device id s
  | .pullResumeRequest device id offset => Sys2Proof.Machine.execPullResumeRequest device id offset s
  | .cplhead tenant ring value => Sys2Proof.Machine.execCplhead tenant ring value s
  | .hostHbmAccess tenant offset data count => Sys2Proof.Machine.execHostHbmAccess tenant offset data count s
  | .coldReset => Sys2Proof.Machine.execColdReset s
  | .tenantReset tenant => Sys2Proof.Machine.execTenantReset tenant s
  | .tinvGo value => Sys2Proof.Machine.execTinvGo value s
  | .invalidationComplete => Sys2Proof.Machine.execInvalidationComplete s
  | .gctlPre grove => Sys2Proof.Machine.execGctlPre grove s
  | .gctlRestart grove => Sys2Proof.Machine.execGctlRestart grove s
  | .gctlResume grove => Sys2Proof.Machine.execGctlResume grove s
  | .ksctlInstall link slot => Sys2Proof.Machine.execKsctlInstall link slot s
  | .ksctlCur link slot => Sys2Proof.Machine.execKsctlCur link slot s
  | .fsuspSuspend rcb => Sys2Proof.Machine.execFsuspSuspend rcb s
  | .fsuspResume rcb => Sys2Proof.Machine.execFsuspResume rcb s
  | .timerWrite value => Sys2Proof.Machine.execTimerWrite value s
  | .lseedWrite grove value => Sys2Proof.Machine.execLseedWrite grove value s
  | .extend index digest => Sys2Proof.Machine.execExtend index digest s
  | .readmr index => Sys2Proof.Machine.execReadmr index s
  | .report nonce => Sys2Proof.Machine.execReport nonce s
  | .i3cPrivateRead command => Sys2Proof.Machine.execI3cPrivateRead command s
  | .setdasa addr => Sys2Proof.Machine.execSetdasa addr s
  | .entdaa addr => Sys2Proof.Machine.execEntdaa addr s
  | .clockThrottle steps => Sys2Proof.Machine.execClockThrottle steps s
  | .junctionOvertemp => Sys2Proof.Machine.execJunctionOvertemp s
  | .linkTraining link => Sys2Proof.Machine.execLinkTraining link s
  | .deviceTimerTick => Sys2Proof.Machine.execDeviceTimerTick s

end Sys2Proof.Machine
end

