-- ==== Sys2Proof/Machine/Schedule.lean ====
section
/-! DEFINITION. What moves when the agenda is empty: the steps of the device's agents that are due, and the streams
that hold work (R12, R32, R193, R257, R279, R326, R328, R331, R366 to R368, R382, R383, R425, R437, R443, R461; log 2). -/

namespace Sys2Proof.Machine

/-! ## What falls due besides instructions -/

/-- A message to the device itself arrives (R370). -/
def arriveHere (m : OutMsg) (s : State) : Host.Outcome State Fault Refusal :=
  match m with
  | .post _ m => execRemotePostReceive m s
  | .postAck _ op word => execPostrAck op word s
  | .access _ m => execRemoteAccessReceive m s
  | .accessAck _ op status cause index data => execRemoteAck op status cause index data s
  | .request _ m => execPullRequestArrive m s
  | .token _ t => execPullTokenReceive t s
  | .data _ t bytes => execPullDataArrive t 0 bytes s
  | .notice _ id status cause => execPullCompleteNotice id status cause s
  | .suspend _ id => execPullSuspendNotice ownDevice id s
  | .resume _ id offset => execPullResumeRequest ownDevice id offset s
  | _ => .next s

/-- What falls due happens, each by the meaning of its event. -/
def Due.perform (d : Due) (s : State) : Host.Outcome State Fault Refusal :=
  match d with
  | .arrive m => arriveHere m s
  | .access m => execRemoteAccessReceive m s
  | .cycleEnd glade line => execSyncLineUpdate glade line [] s
  | .replay link => execReplayTimeout link s
  | .linkDown link => execLinkDown link s
  | .waita core seq => execWaitaReevaluate core seq s
  | .yieldEnd core seq => execYieldExpire core seq s
  | .overflow core => execRotationFaultPending core s
  | .read tenant offset => .next (readRegister tenant offset s)
  | .readRegion grove id => .next (Sys2Proof.Machine.readRegion grove id s)

/-! ## The steps that are due -/

/-- The steps of a core's units that are due. -/
def dueOfCore (c : Nat) (k : Core) : List Instr :=
  let m := k.ctx.mx
  let xf (x : Context) : List Instr :=
    ([SeqKind.K, .V, .M, .Q].filter fun q => (x.seq q).xforms.any fun j => j.left == 0).map fun q => .xformComplete c q.code
  (if m.nest.isSome then [.nestStep c] else []) ++
  (if m.queue.isEmpty then [] else [.bankLoad c, .accumulatorRowCommit c]) ++
  (if k.ctx.rot.ops.isEmpty then [] else [.arrayOperationCommit c]) ++
  ((k.lines.take 1).map fun l => .transformLine (chipCore l.addr) (l.addr / 256 % 16)) ++
  xf k.ctx ++ xf k.under ++
  (if k.xpose.isSome then [.transposeTile c] else []) ++
  (((List.range 4).filter fun n => (k.chan n).busy).map fun n => .copyRecord c n)

/-- The sequencers of a core whose time of waiting is over: a YIELD, and a blocked WAITA that is to be evaluated again
(R257, R443). -/
def dueWaits (s : State) (c : Nat) (k : Core) : List Due :=
  let now := s.timeAt c
  [SeqKind.K, .V, .M, .Q].flatMap fun q =>
    let x := k.ctx.seq q
    (match x.yieldAt with
      | some (t, n) => if n ≤ (now - t).toNat then [.yieldEnd c q.code] else []
      | none => []) ++
    match x.waitAt with
      | some t => if 1000 ≤ (now - t).toNat then [.waita c q.code] else []
      | none => []

/-- The draw of a grove that comes next (R331). -/
def dueDraws (s : State) (g : Nat) (k : Grove) : List Instr :=
  if k.window.any fun e => e.2.state == .ready || e.2.state == .early then
    ((s.drawers g).head?.map fun p => .lotteryDraw p.1 p.2).toList
  else []

/-- The engine that takes a task of a kind: the sequencer, the transpose unit, or one of the channels. -/
def engineFor (kind pick : Nat) : Nat := if kind = 5 then 5 + pick % 4 else kind

/-- Attempts of other groves to take READY tasks of a grove, by a core of the glade, or of the device for a migratable
task; which core attempts is a free choice (R32). -/
def dueSteals (s : State) (g : Nat) (k : Grove) : List Instr :=
  (k.window.filter fun e => e.2.state == .ready && recAff e.2.record == 0 && e.2.gang.isNone &&
      k.allHbm e.2.record).flatMap fun e =>
    let n := engineFor (recKind e.2.record) s.fresh
    [.taskSteal (g / 12 * 192 + s.fresh / 5 % 192) n] ++
      if recMig e.2.record then [.taskSteal (s.fresh / 5 % 1536) n] else []

/-- Successors that may start early since a predecessor has hinted (R328, R340). -/
def dueExams (s : State) (g : Nat) (k : Grove) : List Instr :=
  (k.window.filter fun e => e.2.state == .waiting && k.stateNow s e.1 e.2 != .waiting).filterMap fun e =>
    ((slotsOf e.2.edges).head?).map fun p => .successorReexamine g p

/-- Broadcast groups whose members all wait for a delivery (R193). -/
def dueBroadcasts (s : State) (g : Nat) : List Instr :=
  ((List.range 4).filter fun n =>
    let cs := groupCores s g n
    !cs.isEmpty && cs.all fun c => match (s.mx c).nest with | some x => x.wants | none => false).map
      fun n => .broadcastDelivery g n

/-- The steps of a canopy that are due. -/
def dueOfGrove (s : State) (g : Nat) (k : Grove) : List Instr :=
  (if k.waiting.isEmpty then [] else [.postAccept g]) ++
  (if k.checks.isEmpty then [] else [.postCheckEnd g]) ++
  (k.resolves.map fun r => .edgeResolve g r.1) ++
  ((k.window.filter fun e => e.2.state == .retiring).map fun e => .taskRetire g e.1) ++
  dueDraws s g k ++ dueSteals s g k ++ dueExams s g k ++ dueBroadcasts s g ++
  (if (s.preQueue g).isEmpty then [] else if k.preHalted then [.understoryExchange g] else [.preemptHalt g])

/-- The next commands of a tenant's rings (R453). -/
def dueOfPage (s : State) (t : Nat) : List Instr :=
  if s.bootState != 1 then [] else
  ((List.range 4).filter (s.ringTurn t)).map fun k =>
    match commandKind (s.command t k) with
    | 1 => .hostPost t k
    | 2 => .hostFence t k
    | _ => .hostCommandInvalid t k

/-- Draining key slots of a link that hold no flit (R368). -/
def dueOfLink (n : Nat) (l : Link) : List Instr :=
  ((List.range 2).filter fun k => (l.slot k).state == 2 && l.replay.all fun f => f.slot != k).map fun k => .keySlotDrained n k

/-- A link whose oldest flit has not been acknowledged in time, and one that is lost (R366, R367, R461). -/
def dueOfWire (now : Word) (n : Nat) (l : Link) : List Due :=
  if l.lost now then [.linkDown n] else if l.replayDue now then [.replay n] else []

/-- Tokens and requests of the fabric receiver whose time is over, and a grant (R382, R383). -/
def dueOfPulls (s : State) : List Instr :=
  (if s.reqs.any fun r => r.candidate && !s.prefixHeld r then [.tokenGrant] else []) ++
  (s.reqs.flatMap fun r =>
    ((r.tokens.filter fun k => k.got == 0 && decide (8000 ≤ (s.timer - k.at_).toNat)).map
      fun k => .tokenExpiry r.device r.id k.offset) ++
    if (r.state == 3 || r.state == 4) && decide (256000 ≤ (s.timer - r.lastData).toNat) then [.orphaned r.device r.id] else [])

/-- Operations to be sent again, in deterministic mode, 1 µs after they were sent last (R334, R390, R461). -/
def dueOfSender (s : State) : List Instr :=
  (s.remote.filterMap fun e => match e.2 with
    | .post _ _ _ _ at_ true => if s.resendDue at_ then some (.postrResend e.1) else none
    | _ => none) ++
  ((s.sends.filter fun e => s.resends e.2).map fun e => .bsendResend e.1)

/-- The steps of the device's shared units that are due. -/
def dueOfDevice (s : State) : List Instr :=
  (s.msys.misses.filter fun g => !g.2.isEmpty).map (fun g => .walkComplete g.1) ++
  (if s.tinvJob.isSome || s.tenants.any fun t => t.2.busy then [.invalidationComplete] else []) ++
  s.forwards.map (fun m => .rchainForward m) ++ s.links.flatMap (fun l => dueOfLink l.1 l.2) ++
  dueOfPulls s ++ dueOfSender s

/-- Every step of an agent that is due; the device timer is always due (R425). -/
def dueEvents (s : State) : List Instr :=
  (s.cores.flatMap fun c => dueOfCore c.1 c.2) ++ (s.groves.flatMap fun g => dueOfGrove s g.1 g.2) ++
    (s.pages.flatMap fun p => dueOfPage s p.1) ++ dueOfDevice s ++ [.deviceTimerTick]

/-- What else is due: at links, at the waits of sequencers, and in the rotation arrays. -/
def dueOthers (s : State) : List Due :=
  (s.links.flatMap fun l => dueOfWire s.timer l.1 l.2) ++ s.cores.flatMap fun c =>
    dueWaits s c.1 c.2 ++ if c.2.ctx.rot.ops.isEmpty then [] else [.overflow c.1]

/-- The sub-queues of a core's V that hold words and have not stopped. -/
def Context.openSubs (x : Context) : List Sub :=
  [Sub.vl, .va, .vs].filter fun b => !(x.sub b).stopped && !(x.sub b).words.isEmpty

/-- The streams whose sequencers hold tasks. -/
def dueStreams (s : State) : List Stream :=
  s.cores.flatMap fun c =>
    (([SeqKind.K, .V, .M, .Q].filter fun q => (c.2.ctx.seq q).task.isSome).map fun q => ⟨c.1, q, .pipe⟩) ++
    c.2.ctx.openSubs.map fun b => ⟨c.1, .V, b⟩

/-- Whether the current sequencer's scalar pipe can go on by itself; at times others have their turn. -/
def State.goesOn (s : State) : Bool :=
  let st := s.cur.pipe
  s.runs st && !(s.seqOf st).waiting && (!s.slipFull st || s.trapDue st) && s.fresh % 64 != 63

/-- A stream of no core: a turn in which no instruction moves, and arrivals that wait are tried again. -/
def noStream : Stream := ⟨Config.cores, .K, .pipe⟩

/-- What moves when the agenda is empty (log 2): the scalar pipe of the current sequencer while it goes on, else in
turn every step that is due and every stream that holds work. -/
def State.defaultMove (s : State) : Move :=
  if s.goesOn then .run s.cur.pipe
  else
    let l := (dueEvents s).map Move.event ++ (dueOthers s).map Move.due ++ (dueStreams s).map Move.run ++
      if s.held.isEmpty then [] else [.run noStream]
    l.getD ((s.fresh % 64 + s.fresh / 64) % l.length) (.run s.cur.pipe)

/-- What moves next, and the state without it on the agenda. -/
def State.takeMove (s : State) : Move × State :=
  match s.agenda with
  | m :: t => (m, { s with agenda := t })
  | [] => (s.defaultMove, s)

/-- What moves next, an instruction or what is due, with the state that it happens in. -/
def nextMove (s : State) : Option ((Instr ⊕ Due) × State) :=
  match s.takeMove with
  | (.event i, t) => some (.inl i, t)
  | (.due d, t) => some (.inr d, t)
  | (.run st, t) => (nextOfStream { t with cur := st }).map fun p => (.inl p.1, p.2)

/-- The state when what moves next cannot move: it is used up, and a fetch that waits for a walker keeps its place in the
miss table (R278). -/
def idleMove (s : State) : State :=
  match s.takeMove with
  | (.run st, t) =>
    let u := { t with cur := st }
    match if u.runs st && decide (st.sub = .pipe) then u.fetchMiss st else none with
    | some a => enterMiss (u.agentOf st) [(u.agentOf st).who] a.toNat u
    | none => u
  | (_, t) => t

end Sys2Proof.Machine
end

