-- ==== Sys2Proof/Machine/Step.lean ====
section
/-! DEFINITION. One step of the device: time passes, and what moves next executes; and the placing of an
instruction where the next step fetches. -/

namespace Sys2Proof.Machine

/-- One step (log 2): the next move executes; when it cannot move, time passes, and arrivals that wait are tried
again (R12, R189, R242). -/
def step (s : State) : Host.Outcome State Fault Refusal :=
  match nextMove (tick s) with
  | none => .next (retryHeld (idleMove (tick s)))
  | some (.inl i, s') => exec i s'
  | some (.inr d, s') => d.perform s'

/-- `s` with an instruction placed where the next step fetches (log 7): a task of the root runs it. -/
def State.withFetchWord (s : State) (nbits w : Nat) : State :=
  s.placeProgram (SeqKind.forClass (wordClass (w % 2 ^ nbits % 2 ^ 32))) (tableBytes nbits w)

end Sys2Proof.Machine
end

