-- ==== Sys2Proof/Safety.lean ====
section
/-! DEFINITION. The vocabulary of the statements: what counts as a well-formed memory, when the operands of an
instruction are ready, the values that it reads, and the state in which it has ended (R76, R100, R101, R131, R137). -/

namespace Sys2Proof.Machine

/-- Every memory of the state keeps its canonical form: equal contents are equal lists. -/
def State.memWf (s : State) : Bool :=
  Tab.wf (0 : Byte) s.mem && Tab.wf (0 : Byte) s.hostMem

/-- The outcome is a next state, not a stop. -/
def completes (o : Host.Outcome State Fault Refusal) : Bool :=
  match o with
  | .next _ => true
  | _ => false

/-- The events: what happens to the machine without a word of a program, so that no encoding stands for it. -/
def isEvent : Instr → Bool
  | .fetchFault .. | .decodeFault .. | .trapDelivery .. | .splitWord .. | .nestStep .. | .bankLoad ..
  | .accumulatorRowCommit .. | .arrayOperationCommit .. | .transformLine .. | .xformComplete .. | .transposeTile ..
  | .copyRecord .. | .postAccept .. | .postCheckEnd .. | .lotteryDraw .. | .taskRetire .. | .edgeResolve ..
  | .hostPost .. | .preemptHalt .. | .understoryExchange .. | .registerWrite .. | .cqtail .. | .taskSteal ..
  | .successorReexamine .. | .remotePostReceive .. | .postrAck .. | .postrResend .. | .broadcastDelivery ..
  | .rotationFaultPending .. | .bankRequest .. | .walkComplete .. | .scrubRequest .. | .syncLineUpdate ..
  | .backedLineMove .. | .waitaReevaluate .. | .yieldExpire .. | .blockedWake .. | .flitReceive ..
  | .replayTimeout .. | .linkDown .. | .keySlotDrained .. | .prefixAdvertise .. | .remoteAccessReceive ..
  | .remoteAck .. | .rchainForward .. | .rmcrDelivery .. | .pullRequestArrive .. | .tokenGrant ..
  | .pullTokenReceive .. | .pullDataArrive .. | .pullCompleteNotice .. | .tokenExpiry .. | .orphaned ..
  | .bsendResend .. | .pullSuspendNotice .. | .pullResumeRequest .. | .hostFence .. | .hostCommandInvalid ..
  | .cplhead .. | .hostHbmAccess .. | .coldReset .. | .tenantReset .. | .tinvGo .. | .invalidationComplete ..
  | .gctlPre .. | .gctlRestart .. | .gctlResume .. | .ksctlInstall .. | .ksctlCur .. | .fsuspSuspend ..
  | .fsuspResume .. | .timerWrite .. | .lseedWrite .. | .extend .. | .readmr .. | .report .. | .i3cPrivateRead ..
  | .setdasa .. | .entdaa .. | .clockThrottle .. | .junctionOvertemp .. | .linkTraining .. | .deviceTimerTick .. => true
  | _ => false

/-! ## Scalar operands (R76, R97, R100, R101) -/

/-- The place of register `n` of the running sequencer in the window of scalar registers (R242). -/
def State.xPlace (s : State) (n : Nat) : Nat := chipAddr s.cur.core 4 (xOffset s.cur.seq n)

/-- The value that a source gives, and the state after it is taken: a queue loses its oldest entry. -/
def srcVal (s : State) : Src → Word
  | .reg n => s.xreg n
  | .queue n => (s.tokens n).headD 0
  | a => a.const
def srcTake (s : State) : Src → State
  | .queue n => s.setTokens s.cur.core n (s.tokens n).tail
  | _ => s

/-- The state after a source is checked and taken: a corrected error of a register's word is counted (R249). -/
def srcPop (s : State) : Src → State
  | .reg n => countFixed (s.xPlace n) (s.corrected (s.xPlace n) 8) s
  | a => srcTake s a

/-- The state in which an instruction that has checked its sources traps: the corrected errors of their registers are counted
(R249, R426). -/
def State.after (s : State) (srcs : List Src) : State := s.keep (srcs.foldl srcPop s).msys

/-- Whether a source has an entry to pop, if it names a queue. -/
def hasEntry (s : State) : Src → Bool
  | .queue n => !(s.tokens n).isEmpty
  | _ => true

/-- A source can be read: no earlier writer of the register is in progress and its word is not in error, and a queue is
named in a gang only. -/
def srcReady (s : State) : Src → Bool
  | .reg n => !s.regPending n && (s.firstPoison (s.xPlace n) 8).isNone
  | .queue _ => decide (1 < s.seq.gangn)
  | _ => true

/-- A destination can be written: a queue is named in a gang only, has room, the instruction's own pops not counted, and
is pushed in the order of R101; a register always can. -/
def dstReady (s : State) (pops : List Nat) : Dst → Bool
  | .queue n => decide (1 < s.seq.gangn) && !(pendingDst (s.ctx s.cur.core) s.cur.seq).contains (.queue n) &&
      decide ((s.tokens n).length - (pops.filter (· == n)).length < 16) && s.pushTurn s.cur.core s.cur.seq.code n
  | _ => true

/-- Every operand is ready: the instruction neither traps for its operands nor waits for them. -/
def operandsReady (s : State) (srcs : List Src) (d : Dst) : Bool :=
  srcs.all (srcReady s) && dstReady s (Src.queues srcs) d && poppable s (Src.queues srcs) && popTurn s (Src.queues srcs)

/-- The destination takes a value: a register, the end of a queue, or nothing. -/
def dstPut (d : Dst) (v : Word) (s : State) : State :=
  match d with
  | .reg n => s.setX n v
  | .queue n => s.setTokens s.cur.core n (s.tokens n ++ [v])
  | .discard => s

/-- An instruction of `len` bytes that began in `s` ends in `t`: the program counter of its sequencer goes on (to
the target, if one is given), and its stream waits no longer. -/
def endsAt (s : State) (len : Nat) (target : Option Word) (t : State) : Host.Outcome State Fault Refusal :=
  .next ((t.modSeq s.cur (advance len target)).unwait s.cur)

/-- It ends with the next instruction. -/
def ends (s : State) (len : Nat) (t : State) : Host.Outcome State Fault Refusal := endsAt s len none t

/-- It traps in its own place with a cause and a TVAL. -/
def traps (s : State) (cause : Nat) (tval : Word) : Host.Outcome State Fault Refusal :=
  .next ((takeSync s.cur cause tval s).unwait s.cur)

/-- It has not begun: it waits, and is tried again. -/
def waits (s : State) : Host.Outcome State Fault Refusal := .next (markBlocked none s)
/-- It waits in the order of arrival for a resource. -/
def waitsFor (s : State) (kind key need : Nat) : Host.Outcome State Fault Refusal :=
  .next (markBlocked (some (kind, key, need)) s)

/-- One source read, then d written; two sources; two sources and d itself. -/
def ends1 (s : State) (a : Src) (d : Dst) (f : Word → Word) : Host.Outcome State Fault Refusal :=
  ends s (lenOf [a]) (dstPut d (f (srcVal s a)) (srcPop s a))
def ends2 (s : State) (a b : Src) (d : Dst) (f : Word → Word → Word) : Host.Outcome State Fault Refusal :=
  let s1 := srcPop s a
  ends s (lenOf [a, b]) (dstPut d (f (srcVal s a) (srcVal s1 b)) (srcPop s1 b))
def ends3 (s : State) (a b : Src) (d : Dst) (f : Word → Word → Word → Word) : Host.Outcome State Fault Refusal :=
  let s1 := srcPop s a
  let s2 := srcPop s1 b
  ends s (lenOf [a, b]) (dstPut d (f (srcVal s a) (srcVal s1 b) (srcVal s2 d.asSrc)) (srcPop s2 d.asSrc))

/-- The address a + b of a memory instruction, and the state after both are read. -/
def eaVal (s : State) (a b : Src) : Word := srcVal s a + srcVal (srcPop s a) b
def eaPop (s : State) (a b : Src) : State := srcPop (srcPop s a) b
def eaTake (s : State) (a b : Src) : State := srcTake (srcTake s a) b

/-! ## Memory -/

/-- A read of `n` bytes at `a` by an agent is admitted (R275) and gives `l`; a write of `l` is admitted; `t` is the
state after it. -/
def Reads (s : State) (ag : Agent) (via : Via) (a : Word) (n al : Nat) (l : List Byte) (t : State) : Prop :=
  load ag via a n al s = .ok (l, t)
def Writes (s : State) (ag : Agent) (via : Via) (a : Word) (l : List Byte) (al : Nat) (t : State) : Prop :=
  store ag via a l al s = .ok ((), t)

/-- The agent of the current stream in a state. -/
def State.me (s : State) : Agent := s.agentOf s.cur

/-- An atomic unit of `n` bytes at `a`, no arrival port of a barrier: its place, its value, and the state after it is
read. In host memory the access completes as Successful (R421). -/
def AtomicAt (s : State) (a : Word) (n : Nat) (p : Place) (old : Nat) (t : State) : Prop :=
  ∃ (u : State) (l : List Byte), probe s.me .scalar .atomic a n n s = .ok (p, u) ∧
    (p.host = true → Config.hostCompletes u.fresh = true) ∧ (p.host = false → u.isArrival p.addr = false) ∧
    readPlace s.me p n u = .ok (l, t) ∧ ofBytes l = old

/-- An atomic at the arrival port of a barrier object that bears its mark (R483): its place, and the state after the checks. -/
def ArrivalAt (s : State) (a : Word) (n : Nat) (p : Place) (t : State) : Prop :=
  probe s.me .scalar .atomic a n n s = .ok (p, t) ∧ p.host = false ∧ t.isArrival p.addr = true

/-- The atomic's new value is written. -/
def atomicPut (s : State) (p : Place) (n v : Nat) (t : State) : State :=
  if p.host then t.hostWrite p.addr (toBytes n (v % 2 ^ (8 * n)))
  else devWrite s.me (bit p.pte 7) p.addr (toBytes n (v % 2 ^ (8 * n))) t

/-- A sync object's line is admitted (R409): its place, and the state after the access. -/
def ObjectAt (s : State) (a : Word) (p : Place) (t : State) : Prop := objectPlace a s = .ok (p, t)

/-- A buffer handle is admitted (R396): its core and number, and the state after the access. -/
def HandleAt (s : State) (a : Word) (c h : Nat) (t : State) : Prop :=
  ∃ off, tablePlace a 8 0x400 0x600 s = .ok ((c, off), t) ∧ (off - 0x400) / 8 = h

/-- A ring entry is admitted (R347, R348): its core, number and fields, and the state after the access. `off` and `err`
say whether the instruction takes a ring that is off, or in error. -/
def RingAt (s : State) (a : Word) (off err : Bool) (c n : Nat) (r : Ring) (t : State) : Prop :=
  ringAt a off err s = .ok ((c, n, r), t)

/-- The state with the indices and the state of a ring entry changed to those of `r`. -/
def State.putRing (s : State) (c n : Nat) (r : Ring) : State := s.changeRing c n (r.into (s.ringWord c n))

/-! ## Vector operands (R131, R137) -/

/-- A source as 2048 bytes, the state after it is read, and its elements. -/
def tileVal (s : State) : Src → Nat
  | .reg n => (Tab.get 0 s.here.v n).toNat
  | .queue k => ((s.vqueue k).headD 0).toNat
  | _ => 0
def elemsVal (w n : Nat) (s : State) : Src → List Nat
  | .lit32 v => List.replicate n ((v.signExtend 64).toNat % 2 ^ w)
  | .lit64 v => List.replicate n (v.toNat % 2 ^ w)
  | a => elemsOf w n (tileVal s a)

/-- A source as 16-bit values from byte 0 on; a literal stands at every element of width `w` first (R77). -/
def halvesVal (w n : Nat) (s : State) : Src → List Nat
  | .lit32 v => elemsOf 16 n (packElems w (elemsVal w (16 * n / w + 1) s (.lit32 v)))
  | .lit64 v => elemsOf 16 n (packElems w (elemsVal w (16 * n / w + 1) s (.lit64 v)))
  | a => elemsOf 16 n (tileVal s a)

/-- The bytes that `n` elements of width `w` take. -/
def elemBytes (w n : Nat) : Nat := (n * w + 7) / 8

/-- The place of a byte of the running core's vector registers (R242). -/
def State.vPlace (s : State) (off : Nat) : Nat := chipAddr s.cur.core 1 off

/-- No word of the first `bytes` bytes of a source is in error; the state after they are read: a queue loses its oldest
entry, and corrected errors of a register are counted (R249). -/
def tileOk (bytes : Nat) (s : State) : Src → Bool
  | .reg n => (s.firstPoison (s.vPlace (2048 * n)) bytes).isNone
  | _ => true
def tilePop (bytes : Nat) (s : State) : Src → State
  | .reg n => countFixed (s.vPlace (2048 * n)) (s.corrected (s.vPlace (2048 * n)) bytes) s
  | .queue k => s.modHere fun x => { x with vq := Tab.set [] x.vq k (s.vqueue k).tail }
  | _ => s

/-- The same of bits 0 to n − 1 of a predicate register. -/
def predOk (n : Nat) (s : State) (k : Nat) : Bool := (s.firstPoison (s.vPlace (predOffset k)) ((n + 7) / 8)).isNone
def predPop (n : Nat) (s : State) (k : Nat) : State :=
  countFixed (s.vPlace (predOffset k)) (s.corrected (s.vPlace (predOffset k)) ((n + 7) / 8)) s

/-- The predicate registers that a predicate select reads (R135). -/
def predsOf (p : BitVec 2) : List Nat := if p = 0 then [] else [p.toNat]

/-- A control source (R154, R168): a literal, or bytes 0 to 7. -/
def controlVal (s : State) : Src → Word
  | .lit32 v => v.signExtend 64
  | .lit64 v => v
  | a => BitVec.ofNat 64 (tileVal s a)

/-- The shape of the running core. -/
def State.shape (s : State) : Shape := Shape.of s.here.vsh.toNat

/-- The destination tile takes `f` of the bits that it replaces. -/
def tilePut (d : Dst) (f : Nat → Nat) (s : State) : State :=
  match d with
  | .reg n => markBits s.cur.core 1 (2048 * n) 2048 s.seq.trcb f
      (s.modHere fun x => { x with v := Tab.set 0 x.v n (BitVec.ofNat 16384 (f (Tab.get 0 x.v n).toNat)) })
  | .queue k => s.modHere fun x =>
      { x with vq := Tab.set [] x.vq k (Tab.get [] x.vq k ++ [BitVec.ofNat 16384 (f 0)]) }
  | .discard => s

/-- A predicate register takes bits; `none` keeps a bit. -/
def predPut (k : Nat) (l : List (Option Bool)) (s : State) : State :=
  let f (old : Nat) : Nat := mergeElems 1 (l.map fun b => b.map fun c => c.toNat) (old % 2 ^ l.length)
  markBits s.cur.core 1 (predOffset k) 256 s.seq.trcb f
    (s.modHere fun x => { x with p := Tab.set 0 x.p k (BitVec.ofNat 2048 (f (Tab.get 0 x.p k).toNat)) })

/-- A VA word at the head of its sub-queue can be executed: the shape is valid and accepted, a predicate covers at
most 2048 elements, the queue registers hold what it pops and have room, and no word that it reads is in error. -/
def vaReady (s : State) (ok : NumFmt → Bool) (pred : Bool) (srcs : List Src) (d : Dst) (preds : List Nat := []) : Bool :=
  let n := s.shape.n
  s.cur.sub != .pipe && validShape s.here.vsh.toNat && ok s.shape.fmt && !(pred && decide (2048 < n)) &&
    vecReady s.here srcs d && srcs.all (tileOk (elemBytes s.shape.w n) s) && preds.all (predOk n s)

/-- A VA word that began in `s` ends in `t`: the operand buffer ages, and the word leaves its sub-queue. -/
def vaEnds (s : State) (holds : List Src) (d : Dst) (t : State) : Host.Outcome State Fault Refusal :=
  .next (popItem s.cur (t.modHere fun x => { x with obuf := holdAfter holds d x.obuf }))

/-- The elements for which `op` is performed, under predicate select `p`. -/
def lanes (s : State) (p n : Nat) (op : Nat → Nat) : List (Option Nat) :=
  (List.range n).map fun i => if governs s.here p i then some (op i) else none

/-- An element-wise word with one source, with two, and with two and d itself, ends. -/
def lanes1 (s : State) (a : Src) (d : Dst) (h : Bool) (p : BitVec 2) (op : Shape → Nat → Nat) :
    Host.Outcome State Fault Refusal :=
  let sh := s.shape
  let k := elemBytes sh.w sh.n
  let s0 := (predsOf p).foldl (predPop sh.n) s
  let u := elemsVal sh.w sh.n s a
  vaEnds s (holdList [(h, a)]) d
    (tilePut d (mergeElems sh.w (lanes s p.toNat sh.n fun i => op sh (u.getD i 0))) (tilePop k s0 a))
def lanes2 (s : State) (a b : Src) (d : Dst) (h g : Bool) (p : BitVec 2) (op : Shape → Nat → Nat → Nat) :
    Host.Outcome State Fault Refusal :=
  let sh := s.shape
  let k := elemBytes sh.w sh.n
  let s1 := tilePop k ((predsOf p).foldl (predPop sh.n) s) a
  let u := elemsVal sh.w sh.n s a
  let v := elemsVal sh.w sh.n s1 b
  vaEnds s (holdList [(h, a), (g, b)]) d
    (tilePut d (mergeElems sh.w (lanes s p.toNat sh.n fun i => op sh (u.getD i 0) (v.getD i 0))) (tilePop k s1 b))
def lanes3 (s : State) (a b : Src) (d : Dst) (h g : Bool) (p : BitVec 2) (op : Shape → Nat → Nat → Nat → Nat) :
    Host.Outcome State Fault Refusal :=
  let sh := s.shape
  let k := elemBytes sh.w sh.n
  let s1 := tilePop k ((predsOf p).foldl (predPop sh.n) s) a
  let s2 := tilePop k s1 b
  let u := elemsVal sh.w sh.n s a
  let v := elemsVal sh.w sh.n s1 b
  let z := elemsVal sh.w sh.n s2 d.readBack
  vaEnds s (holdList [(h, a), (g, b)]) d
    (tilePut d (mergeElems sh.w (lanes s p.toNat sh.n fun i => op sh (u.getD i 0) (v.getD i 0) (z.getD i 0)))
      (tilePop k s2 d.readBack))

/-- A VL or VS word that began in `s` ends in `t`: it leaves its sub-queue, and its accesses the walks that they waited for. -/
def subEnds (s t : State) : Host.Outcome State Fault Refusal := .next (popItem s.cur (t.detach (Who.isOf s.cur)))

/-- A vector word at the head of its sub-queue faults: the sub-queue stops (R18). -/
def subTraps (s : State) (cause : Nat) (tval : Word) : Host.Outcome State Fault Refusal :=
  .next (subFault s.cur cause tval (s.detach (Who.isOf s.cur)))

/-! ## Matrix and rotation words -/

/-- No fault of earlier matrix (rotation) work takes the place of the next MX (RT) word (R188, R201, R223). -/
def mxReady (s : State) : Prop := s.arrayFault 4 = none ∨ s.seq.handler = true
def rtReady (s : State) : Prop := s.arrayFault 5 = none ∨ s.seq.handler = true

/-- The state with another matrix (rotation) state of the running core. -/
def State.withMx (s : State) (f : Matrix → Matrix) : State := s.modHere fun x => { x with mx := f x.mx }
def State.withRot (s : State) (f : Rot → Rot) : State := s.modHere fun x => { x with rot := f x.rot }

/-- An operation joins the array's input queue, behind a nest that still issues steps. -/
def Matrix.enqueue (m : Matrix) (o : MxOp) : Matrix :=
  if m.nest.isSome then { m with behind := m.behind ++ [o] } else { m with queue := m.queue ++ [o] }

/-! ## Posts and operations of the fabric -/

/-- The task that runs, as the canopy's tables name it. -/
def State.taskNow (s : State) : TaskRef := s.seq.task.getD ⟨s.homeGrove, 0⟩

/-- The record at a POST's address can be read, outside the footprint check (R335): the record, and the state after the
read. -/
def RecordAt (s : State) (a : Word) (r : TaskRec) (t : State) : Prop :=
  ∃ l, loadAligned { s.me with free := true } .vector 64 a 320 s = .ok (l, t) ∧ r = BitVec.ofNat 2560 (ofBytes l)

/-- A POST of record `r` passes the checks of R318, its issuer's earlier transform commands and writes to the own device
are done (R300), and the window has a slot for it within its budgets (R325, R28). -/
def PostFits (s : State) (r : TaskRec) (a : Word) (slot : Nat) (t : State) : Prop :=
  t.xformsOpen = false ∧ t.remoteOpenTo ownDevice = false ∧ recMalformed r = false ∧ postFailure t s.homeGrove ((t.grove s.homeGrove).openGang s.taskNow) r a = none ∧
    t.windowFull s.homeGrove (recRcb r) = false ∧ (t.grove s.homeGrove).freeSlot false = some slot

/-- The request that a POST makes. -/
def postReqOf (s : State) (d : Dst) (a : Src) (nb : Bool) (r : TaskRec) : PostReq :=
  { record := r, addr := srcVal s a, poster := .stream s.cur s.seq.task nb d a s.seq.pc }

/-- A POST is accepted in a slot, and its stream waits for the end of the check. -/
def posted (s : State) (d : Dst) (a : Src) (nb : Bool) (r : TaskRec) (slot : Nat) (t : State) :
    Host.Outcome State Fault Refusal :=
  let q := postReqOf s d a nb r
  ends s (lenOf [a]) ((acceptPost s.homeGrove slot (some s.taskNow) q (leaveWaiting s.homeGrove q t)).modSeq s.cur
    fun p => { p with busy := .post })

/-- No remote fault waits to be delivered in the place of an instruction (R371). -/
def noRemoteFault (s : State) : Prop := s.remoteFault s.cur = none ∨ s.seq.handler = true

/-- An operation that the instruction has issued is recorded, and its message leaves by its link, behind the operations
`after` (R300, R412). -/
def issued (s : State) (after : List Nat) (link : Option Nat) (cls : Nat) (op : RemoteOp) (m : OutMsg) : State :=
  sendAfter s.nextOp after link cls m { s with remote := Tab.put s.remote s.nextOp op, nextOp := s.nextOp + 1 }

/-! ## Images of contexts (R445) -/

/-- The images of the understories of a grove are written one after the other, core by core. -/
def ImagesOut (ag : Agent) (g : Nat) (y : Word) : List Nat → State → State → Prop
  | [], s, t => t = s
  | k :: ks, s, t =>
    ∃ v u, checkUnder (16 * g + k) s = .ok ((), v) ∧
      let x := (v.core (16 * g + k)).under
      let img := contextImage x (16 * v.fresh + k)
      storeRange ag .engine (imageAt y k) img v = .ok ((), u) ∧
      ImagesOut ag g y ks { u with
        images := (opaqueOf img, x, (u.grove g).underGroups) :: u.images.filter fun e => e.1 != opaqueOf img } t

/-- Sixteen images are read one after the other. -/
def ImagesIn (ag : Agent) (y : Word) : List Nat → State → List (List Byte) → State → Prop
  | [], s, l, t => l = [] ∧ t = s
  | k :: ks, s, l, t => ∃ b rest u, loadRange ag .engine (imageAt y k) ctxBytes s = .ok (b, u) ∧ l = b :: rest ∧
      ImagesIn ag y ks u rest t

/-- It is the turn of a CTXSW.out or CTXSW.in on a grove: no request asks, or its own is the oldest that does (R445). -/
def copyTurn (s : State) (g : Nat) : Prop := s.preQueue g = [] ∨ ∃ l, s.preQueue g = .copy s.cur :: l

/-- A CTXSW.out or CTXSW.in of `len` bytes that began in `s` ends in `t`, and leaves the order of requests. -/
def endsTurn (s : State) (len : Nat) (t : State) : Host.Outcome State Fault Refusal :=
  .next (leftTurn s.cur ((t.modSeq s.cur (advance len none)).unwait s.cur))

/-! ## Frames -/

/-- Where the byte of a device physical address is kept: in HBM or a plain memory of the chip, in a glade's sync
memory, or in a register file that the on-chip map shows (R241, R242, R407, R408). -/
inductive ByteHome where
  | mem (a : Nat)
  | sync (g off : Nat)
  | tile (c n o : Nat)
  | pred (c n o : Nat)
  | acc (c n o : Nat)
  | xreg (c : Nat) (k : SeqKind) (n o : Nat)
  | ring (c n o : Nat)
  | handle (c n o : Nat)
deriving DecidableEq, Repr

def State.home (s : State) (pa : Nat) : ByteHome :=
  let c := chipCore pa
  let o := pa % 2 ^ 24
  if pa < Config.hbmEnd then .mem pa
  else if Config.syncBase ≤ pa then
    match syncHome s (pa / 2 ^ 32 % 8) (pa % 2 ^ 32) with
    | none => .sync (pa / 2 ^ 32 % 8) (pa % 2 ^ 32)
    | some a => .mem a
  else match pa / 2 ^ 24 % 16 with
    | 1 => if o < 0x18000 then .tile c (o / 2048) (o % 2048) else .pred c ((o - 0x18000) / 256) (o % 256)
    | 2 => .acc c (o / 128) (o % 128)
    | 4 => .xreg c (SeqKind.ofCode (o / 512)) (o % 512 / 8) (o % 8)
    | 6 => if o < 0x400 then .ring c (o / 64) (o % 64) else .handle c ((o - 0x400) / 8) (o % 8)
    | _ => .mem pa

/-- Whether a byte of the device is one of the `n` bytes of a place. -/
def storedAt (s : State) (p : Place) (n pa : Nat) : Prop := p.host = false ∧ ∃ j, j < n ∧ s.home (p.addr + j) = s.home pa

/-- Memory is unchanged but for `n` bytes at the place that an access of an agent is admitted to. -/
def StoresOnly (s t v : State) (rw : Rw) (a : Word) (n : Nat) : Prop :=
  (∀ pa, (∀ p, locate v v.me .scalar rw a n n = .ok p → ¬ storedAt s p n pa) → devByte t pa = devByte s pa) ∧
  (∀ b, (∀ p, locate v v.me .scalar rw a n n = .ok p → p.host = true → b < p.addr ∨ p.addr + n ≤ b) →
    Tab.get 0 t.hostMem b = Tab.get 0 s.hostMem b)

/-- The marks and owner tags of all words outside `n` bytes at `a` are unchanged, and of the counters only that of corrected
errors may differ (R249, R250, R426). -/
def MarksOnly (s t : State) (a n : Nat) : Prop :=
  (∀ w, w < a / 8 ∨ (a + n) / 8 ≤ w → Tab.get false t.poison w = Tab.get false s.poison w ∧ Tab.get 0 t.biterr w = Tab.get 0 s.biterr w) ∧
  (∀ l, l < a / 256 ∨ (a + n + 255) / 256 ≤ l → Tab.get 0 t.owner l = Tab.get 0 s.owner l) ∧
  (∀ k, (∀ c, k ≠ perfKey c 0x10) → t.perfAt k = s.perfAt k)

/-- The context of the running core as a write of register `d` finds it: no result of an earlier instruction reaches `d` any
more (R97, R260). -/
def heldBack (s : State) (d : Dst) : Context :=
  match d with
  | .reg n => if s.regPending n then s.here.supersede s.cur.seq n else s.here
  | _ => s.here

/-- A register instruction of a scalar pipe changes the destination with its marks, the queues that it pops, and how far its
stream has come: nothing else in the device. -/
def RegisterOnly (s t : State) (srcs : List Src) (d : Dst) : Prop :=
  let c := s.cur.core
  let x := heldBack s d
  let q := x.seq s.cur.seq
  let r := t.seqOf s.cur
  t = { s with
    cores := t.cores, waiters := t.waiters, poison := t.poison, biterr := t.biterr, owner := t.owner
    msys := { s.msys.detach (Who.isOf s.cur) with fixed := t.msys.fixed } } ∧
  MarksOnly s t (match d with | .reg n => s.xPlace n | _ => 0) (match d with | .reg _ => 8 | _ => 0) ∧
  (∀ e, e ≠ c → t.core e = s.core e) ∧
  t.core c = { s.core c with ctx := { x.setSeq s.cur.seq r with tq := (t.ctx c).tq } } ∧
  { r with x := q.x, pc := q.pc, rem := q.rem, waiting := q.waiting, yieldAt := q.yieldAt, waitAt := q.waitAt, twait := q.twait,
           dropping := q.dropping, terming := q.terming } = q ∧
  (∀ n, d ≠ .reg n → Tab.get 0 r.x n = s.xreg n) ∧
  (∀ k, d ≠ .queue k → Src.queue k ∉ srcs → t.tokens k = s.tokens k)

/-- A vector word of VA changes the destination tile with its marks, the queue registers that it pops, the operand buffer,
and its sub-queue, and where it stops, its stream leaves the walks that it waited for: nothing else in the device. -/
def TileOnly (s t : State) (srcs : List Src) (d : Dst) : Prop :=
  let c := s.cur.core
  let x := s.ctx c
  let y := t.ctx c
  t = { s with
    cores := t.cores, poison := t.poison, biterr := t.biterr, owner := t.owner, msys := t.msys } ∧
  ({ t.msys with fixed := s.msys.fixed } = s.msys ∨ { t.msys with fixed := s.msys.fixed } = s.msys.detach (Who.isOf s.cur)) ∧
  MarksOnly s t (match d with | .reg n => s.vPlace (2048 * n) | _ => 0) (match d with | .reg _ => 2048 | _ => 0) ∧
  (∀ e, e ≠ c → t.core e = s.core e) ∧ t.core c = { s.core c with ctx := y } ∧
  y.setSub s.cur.sub (x.sub s.cur.sub) = { x with v := y.v, vq := y.vq, obuf := y.obuf } ∧
  (∀ n, d ≠ .reg n → Tab.get 0 y.v n = Tab.get 0 x.v n) ∧
  (∀ k, d ≠ .queue k → Src.queue k ∉ srcs → Tab.get [] y.vq k = Tab.get [] x.vq k)

end Sys2Proof.Machine
end

