-- ==== Sys2Proof/Certificates/Slice0/Obligations.lean ====
section
/-! DEFINITION. The statements about the machine, from the numbered rules of the spec: results, completion, frames,
traps, encodings and invariants. -/

open Sys2Proof Sys2Proof.Machine

/-! ## Scalar integer instructions (R107 to R115) -/

/-- The two-source integer instructions of R107, R108 and R111 complete for all operand forms that are ready, and
write the value of the rule's table; division never traps on its operands: divisor 0 and the signed overflow have results. -/
def Obligations.IntegerTwoSourceResults : Prop :=
  (∀ (s : State) (d : Dst) (a b : Src), operandsReady s [a, b] d = true →
     exec (.add d a b) s = ends2 s a b d (fun x y => BitVec.ofNat 64 (x.toNat + y.toNat)) ∧
     exec (.sub d a b) s = ends2 s a b d (fun x y => BitVec.ofInt 64 ((x.toNat : Int) - y.toNat)) ∧
     exec (.mul d a b) s = ends2 s a b d (fun x y => BitVec.ofNat 64 (x.toNat * y.toNat)) ∧
     exec (.mulh d a b) s = ends2 s a b d (fun x y => BitVec.ofInt 64 (x.toInt * y.toInt / 2 ^ 64)) ∧
     exec (.mulhu d a b) s = ends2 s a b d (fun x y => BitVec.ofNat 64 (x.toNat * y.toNat / 2 ^ 64)) ∧
     exec (.and d a b) s = ends2 s a b d (fun x y => x &&& y) ∧
     exec (.or d a b) s = ends2 s a b d (fun x y => x ||| y) ∧
     exec (.xor d a b) s = ends2 s a b d (fun x y => x ^^^ y) ∧
     exec (.andn d a b) s = ends2 s a b d (fun x y => x &&& ~~~y) ∧
     exec (.shl d a b) s = ends2 s a b d (fun x y => BitVec.ofNat 64 (x.toNat * 2 ^ (y.toNat % 64))) ∧
     exec (.shr d a b) s = ends2 s a b d (fun x y => BitVec.ofNat 64 (x.toNat / 2 ^ (y.toNat % 64))) ∧
     exec (.sar d a b) s = ends2 s a b d (fun x y => BitVec.ofInt 64 (x.toInt / 2 ^ (y.toNat % 64))) ∧
     exec (.rol d a b) s = ends2 s a b d (fun x y => x.rotateLeft (y.toNat % 64)) ∧
     exec (.min d a b) s = ends2 s a b d (fun x y => BitVec.ofInt 64 (min x.toInt y.toInt)) ∧
     exec (.max d a b) s = ends2 s a b d (fun x y => BitVec.ofInt 64 (max x.toInt y.toInt)) ∧
     exec (.minu d a b) s = ends2 s a b d (fun x y => BitVec.ofNat 64 (min x.toNat y.toNat)) ∧
     exec (.maxu d a b) s = ends2 s a b d (fun x y => BitVec.ofNat 64 (max x.toNat y.toNat)) ∧
     exec (.sext d a b) s = ends2 s a b d (fun x y =>
       (x <<< (63 - y.toNat % 64)).sshiftRight (63 - y.toNat % 64)) ∧
     exec (.zext d a b) s = ends2 s a b d (fun x y => BitVec.ofNat 64 (x.toNat % 2 ^ (y.toNat % 64 + 1)))) ∧
  (∀ (s : State) (d : Dst) (a b : Src), operandsReady s [a, b] d = true →
     exec (.div d a b) s = ends2 s a b d (fun x y =>
       if y = 0 then BitVec.allOnes 64 else BitVec.ofInt 64 (x.toInt.tdiv y.toInt)) ∧
     exec (.rem d a b) s = ends2 s a b d (fun x y => if y = 0 then x else BitVec.ofInt 64 (x.toInt.tmod y.toInt)) ∧
     exec (.divu d a b) s = ends2 s a b d (fun x y =>
       if y = 0 then BitVec.allOnes 64 else BitVec.ofNat 64 (x.toNat / y.toNat)) ∧
     exec (.remu d a b) s = ends2 s a b d (fun x y => if y = 0 then x else BitVec.ofNat 64 (x.toNat % y.toNat)))

/-- Comparison, absolute value, immediates, bit counts, bit fields, and the instructions that read d as a source, where d is a
register, or code 56, which reads zero and discards (R106, R109, R110, R112 to R115, R123). -/
def Obligations.IntegerOtherResults : Prop :=
  (∀ (s : State) (d : Dst) (a b : Src),
     (operandsReady s [a, b] d = true →
       exec (.cmp d a b false) s = ends2 s a b d (fun x y =>
         BitVec.ofInt 64 (if x.toInt < y.toInt then -1 else if x.toInt = y.toInt then 0 else 1)) ∧
       exec (.cmp d a b true) s = ends2 s a b d (fun x y =>
         BitVec.ofInt 64 (if x.toNat < y.toNat then -1 else if x.toNat = y.toNat then 0 else 1)) ∧
       exec (.bfx d a b false) s = ends2 s a b d (fun x y =>
         let p := y.toNat % 64
         let n := Nat.min (y.toNat / 256 % 128) (64 - p)
         BitVec.ofNat 64 (x.toNat / 2 ^ p % 2 ^ n)) ∧
       exec (.bfx d a b true) s = ends2 s a b d (fun x y =>
         let p := y.toNat % 64
         let n := Nat.min (y.toNat / 256 % 128) (64 - p)
         BitVec.ofInt 64 (sextInt n (x.toNat / 2 ^ p % 2 ^ n)))) ∧
     (operandsReady s [a] d = true →
       (∀ i : BitVec 10, exec (.addi d a i) s = ends1 s a d (fun x => x + i.signExtend 64)) ∧
       exec (.abs d a false) s = ends1 s a d (fun x => BitVec.ofInt 64 x.toInt.natAbs) ∧
       exec (.abs d a true) s = ends1 s a d (fun x => BitVec.ofInt 64 (min x.toInt.natAbs (2 ^ 63 - 1))) ∧
       (∀ f : Wid, exec (.clz d a f) s = ends1 s a d (fun x =>
         let v := x.toNat % 2 ^ (8 * f.bytes)
         BitVec.ofNat 64 (8 * f.bytes - if v = 0 then 0 else Nat.log2 v + 1))) ∧
       (∀ f : Wid, exec (.ffs d a f) s = ends1 s a d (fun x => BitVec.ofNat 64
         (((List.range (8 * f.bytes)).find? fun i => x.toNat.testBit i).getD (8 * f.bytes)))) ∧
       (∀ f : Wid, exec (.popc d a f) s = ends1 s a d (fun x => BitVec.ofNat 64
         ((List.range (8 * f.bytes)).countP fun i => x.toNat.testBit i)))) ∧
     (operandsReady s [] d = true →
       ∀ i : BitVec 16, exec (.movi d i) s = ends s 4 (dstPut d (i.signExtend 64) s))) ∧
  (∀ (s : State) (d : Dst) (a b : Src), (∀ n, d ≠ .queue n) → operandsReady s [a, b, d.readBack] d = true →
     exec (.madr d a b) s = ends3 s a b d (fun x y z => z + x * y) ∧
     (∀ c : Cond, exec (.sel d a b c) s = ends3 s a b d (fun x y z => if c.holds z then x else y)) ∧
     exec (.bfi d a b) s = ends3 s a b d (fun x y z =>
       let p := y.toNat % 64
       let n := Nat.min (y.toNat / 256 % 128) (64 - p)
       BitVec.ofNat 64 (z.toNat / 2 ^ (p + n) * 2 ^ (p + n) + x.toNat % 2 ^ n * 2 ^ p + z.toNat % 2 ^ p)) ∧
     (∀ (g : Bool) (r : Rnd), exec (.ffma d a b g r) s = ends3 s a b d (fun x y z =>
       let m := (f32 x).mul (f32 y)
       f32Word r ((if g then m.neg else m).add r (f32 z)))))

/-- FP32 arithmetic, comparison and conversion complete and write the exact result rounded once (R122 to R126). -/
def Obligations.ScalarFloatResults : Prop :=
  ∀ (s : State) (d : Dst) (a b : Src), operandsReady s [a, b] d = true →
    (∀ r : Rnd, exec (.fadd d a b false r) s = ends2 s a b d (fun x y => f32Word r ((f32 x).add r (f32 y)))) ∧
    (∀ r : Rnd, exec (.fadd d a b true r) s = ends2 s a b d (fun x y => f32Word r ((f32 x).add r (f32 y).neg))) ∧
    (∀ r : Rnd, exec (.fmul d a b false r) s = ends2 s a b d (fun x y => f32Word r ((f32 x).mul (f32 y)))) ∧
    (∀ r : Rnd, exec (.fmul d a b true r) s = ends2 s a b d (fun x y => f32Word r ((f32 x).mul (f32 y)).neg)) ∧
    exec (.fmin d a b) s = ends2 s a b d (fun x y => f32Word .rne ((f32 x).min' (f32 y))) ∧
    exec (.fmax d a b) s = ends2 s a b d (fun x y => f32Word .rne ((f32 x).max' (f32 y))) ∧
    exec (.fcmp d a b) s = ends2 s a b d (fun x y =>
      if (f32 x).isNaN || (f32 y).isNaN then 8 else if (f32 x).lt (f32 y) then 1
      else if (f32 x).eqv (f32 y) then 2 else 4) ∧
    (let c := srcVal (srcPop s a) b
     ∀ (f g : NumFmt) (v : Word), NumFmt.ofCode (fld c 0 4) = some f → NumFmt.ofCode (fld c 4 4) = some g →
      fld c 12 52 = 0 → convertWord f g (Rnd.ofCode (fld c 8 2)) (Policy.ofCode (fld c 10 2)) (srcVal s a) = some v →
      exec (.fcvt d a b) s = ends2 s a b d (fun _ _ => v)) ∧
    (let c := srcVal (srcPop s a) b
     (fld c 12 52 ≠ 0 ∨ NumFmt.ofCode (fld c 0 4) = none ∨ NumFmt.ofCode (fld c 4 4) = none) →
      exec (.fcvt d a b) s = traps (s.after [a, b]) 0x002 c)

/-- A queue that an operand names outside a gang is an ILLEGAL_OPERAND whose TVAL is the operand code; of several such
operands the first of a, b, d is the one reported (DESIGN CHOICE, log 62: R100 names no order). In a gang an empty source queue
and a full destination queue are waited for, and so is the turn of a sequencer that K, V, M, Q puts before, and the end of an
operation that still holds a queue's head (that a later pop waits for it is the choice of log 64); a source register waits for
its earlier writer, and traps when its word is in error (R76, R97, R100 to R102, R249). -/
def Obligations.QueueOperandRules : Prop :=
  ∀ (s : State) (n m : Nat) (d : Dst) (b : Src) (i : BitVec 16),
    let key := tokenKey s.cur.core n
    (s.seq.gangn ≤ 1 → exec (.add d (.queue n) b) s = traps s 0x002 (BitVec.ofNat 64 (48 + n))) ∧
    (s.seq.gangn ≤ 1 → exec (.movi (.queue n) i) s = traps s 0x002 (BitVec.ofNat 64 (48 + n))) ∧
    (1 < s.seq.gangn → (s.tokens n = [] ∨ s.popFirst n = false) →
      exec (.add (.reg m) (.queue n) .zero) s = waitsFor s 13 key 1) ∧
    (1 < s.seq.gangn → Dst.queue n ∉ pendingDst s.here s.cur.seq → (16 ≤ (s.tokens n).length ∨ s.pushTurn s.cur.core s.cur.seq.code n = false) →
      exec (.movi (.queue n) i) s = waitsFor s 14 key 0) ∧
    (s.regPending m = true → exec (.add d (.reg m) b) s = waits s) ∧
    (∀ w, s.regPending m = false → s.firstPoison (s.xPlace m) 8 = some w → exec (.add d (.reg m) b) s =
      .next ((takeSync s.cur 0x111 (BitVec.ofNat 64 (0xFF00 * 2 ^ 48 + 8 * w))
        ((s.badWords (s.xPlace m) 8).foldl (detectWord s.cur.core s.cur.seq.code) s)).unwait s.cur))

/-! ## Control transfer and special registers (R75, R98, R104, R116 to R121) -/

/-- Branches, calls and returns complete: the target counts from the base word, x47 takes the return address. -/
def Obligations.ControlTransfer : Prop :=
  ∀ s : State,
    let pc := s.seq.pc
    (∀ (c : Cond) (a : Src) (o : BitVec 12), operandsReady s [a] .discard = true → pc.toNat % 4 = 0 →
      exec (.bcc c a o) s = endsAt s (lenOf [a])
        (if c.holds (srcVal s a) then some (pc + BitVec.ofInt 64 (4 * o.toInt)) else none) (srcPop s a)) ∧
    (∀ o : BitVec 22, pc.toNat % 4 = 0 → exec (.br o) s = endsAt s 4 (some (pc + BitVec.ofInt 64 (4 * o.toInt))) s) ∧
    (∀ o : BitVec 22, pc.toNat % 4 = 0 →
      exec (.call o) s = endsAt s 4 (some (pc + BitVec.ofInt 64 (4 * o.toInt))) (s.setX 47 (pc + 4))) ∧
    (∀ (a : Src), operandsReady s [a] .discard = true → (srcVal s a).toNat % 4 = 0 →
      exec (.ret a false) s = endsAt s (lenOf [a]) (some (srcVal s a)) (srcPop s a)) ∧
    (∀ (a : Src), operandsReady s [a] (.reg 47) = true → (srcVal s a).toNat % 4 = 0 →
      exec (.ret a true) s = endsAt s (lenOf [a]) (some (srcVal s a))
        ((srcPop s a).setX 47 (pc + BitVec.ofNat 64 (lenOf [a])))) ∧
    (∀ (a : Src) (l : Bool), operandsReady s [a] (if l then .reg 47 else .discard) = true →
      (srcVal s a).toNat % 4 ≠ 0 → exec (.ret a l) s = traps (s.after [a]) 0x103 (srcVal s a)) ∧
    (∀ (c : Cond) (n : Nat) (o : BitVec 12), operandsReady s [.reg n] (.reg n) = true → pc.toNat % 4 = 0 →
      exec (.loop c n o) s = endsAt s 4
        (if c.holds (s.xreg n - 1) then some (pc + BitVec.ofInt 64 (4 * o.toInt)) else none)
        ((srcPop s (.reg n)).setX n (s.xreg n - 1)))

/-- RDS reads every special register of R98, WRS writes the five that are writable (reserved bits of TCAUSE and TREP stay
zero) and leaves the read-only ones, an unassigned number is ILLEGAL_OPERAND with the number, and RDQ samples the sources of
R104 into z (R5, R98, R104, R120, R121, R430). -/
def Obligations.SpecialRegisters : Prop :=
  ∀ (s : State) (d : Dst) (n : BitVec 16),
    let q := s.seq
    let c := s.cur.core
    let listed : List (Nat × Word) :=
      [(0x00, BitVec.ofNat 64 s.cur.seq.code), (0x01, q.targ), (0x02, BitVec.ofNat 64 q.trcb), (0x03, BitVec.ofNat 64 q.tkind),
       (0x04, BitVec.ofNat 64 q.gangn), (0x05, BitVec.ofNat 64 q.slip), (0x06, BitVec.ofNat 64 q.detm.toNat),
       (0x10, BitVec.ofNat 64 (q.rem - 1)), (0x20, q.tpc), (0x21, q.tcause), (0x22, q.tval),
       (0x23, BitVec.ofNat 64 q.trep), (0x24, q.tscr)]
    (operandsReady s [] d = true →
      (∀ v, (n.toNat, v) ∈ listed → exec (.rds d n) s = ends s 4 (dstPut d v s)) ∧
      ((∀ v, (n.toNat, v) ∉ listed) → exec (.rds d n) s = traps s 0x002 (n.zeroExtend 64))) ∧
    (operandsReady s [d.asSrc] .discard = true →
      let v := srcVal s d.asSrc
      let put (f : Seq → Seq) := ends s 4 ((srcPop s d.asSrc).modSeq s.cur f)
      (n = 0x20 → exec (.wrs d n) s = put fun q => { q with tpc := v }) ∧
      (n = 0x21 → exec (.wrs d n) s = put fun q => { q with tcause := v &&& 0x000FFFFF03FF3FFF#64 }) ∧
      (n = 0x22 → exec (.wrs d n) s = put fun q => { q with tval := v }) ∧
      (n = 0x23 → exec (.wrs d n) s = put fun q => { q with trep := v.toNat % 128 }) ∧
      (n = 0x24 → exec (.wrs d n) s = put fun q => { q with tscr := v }) ∧
      (n.toNat ∈ [0, 1, 2, 3, 4, 5, 6, 0x10] → exec (.wrs d n) s = put fun q => q) ∧
      ((∀ v, (n.toNat, v) ∉ listed) → exec (.wrs d n) s = traps (s.after [d.asSrc]) 0x002 (n.zeroExtend 64))) ∧
    (∀ z : Nat,
      let e := s.seq.task.bind s.entryOf
      let put (v : Word) := ends s 4 (s.modSeq s.cur fun q => { q with z := Tab.set 0 q.z z v })
      (n = 0 → exec (.rdq z n) s = put (s.cycles + BitVec.ofNat 64 (Config.cycleSkew (gladeOf c) % 5))) ∧
      (n = 1 → exec (.rdq z n) s = put (s.timer + BitVec.ofNat 64 (Config.timerSkew c % 2))) ∧
      (n = 2 → exec (.rdq z n) s = put (BitVec.ofNat 64 (c % 16))) ∧
      (n = 3 → exec (.rdq z n) s = put (BitVec.ofNat 64 (c / 16 % 12))) ∧
      (n = 4 → exec (.rdq z n) s = put (BitVec.ofNat 64 (c / 192))) ∧
      (n = 5 → exec (.rdq z n) s = put (BitVec.ofNat 64 (c % 16 + c / 16 % 12 * 2 ^ 4 + c / 192 * 2 ^ 8 +
        (match e with | some x => if x.stolen = 1 then 2 ^ 11 else if x.stolen = 2 then 2 ^ 12 else 0 | none => 0)))) ∧
      (n = 6 → exec (.rdq z n) s = put (BitVec.ofNat 64 ((s.grove (groveOf c)).drawSeed.toNat +
        2 ^ 32 * (s.grove (groveOf c)).drawClass))) ∧
      (n = 7 → exec (.rdq z n) s = put (match e with | some x => BitVec.ofNat 64 x.postSeq | none => 0)) ∧
      (0x100 ≤ n.toNat → n.toNat < 0x200 → exec (.rdq z n) s =
        put (if isCounter (n.toNat - 0x100) then s.counter c (n.toNat - 0x100) else 0)) ∧
      (8 ≤ n.toNat → (n.toNat < 0x100 ∨ 0x200 ≤ n.toNat) → exec (.rdq z n) s = traps s 0x002 0))

/-! ## Scalar memory, ordering and waits (R253 to R257, R293 to R296, R444) -/

/-- LD and LDA write what the read gives, sign- or zero-extended; ST and STR write the low bytes of d; a read or write
is any that R275 admits. An order that an instruction does not accept is ILLEGAL_OPERAND (R75, R253, R254). -/
def Obligations.ScalarLoadsAndStores : Prop :=
  ∀ (s : State) (d : Dst) (a b : Src) (x y : Nat) (f : Wid) (o : Order) (sc : Scope) (l : List Byte) (t : State),
    (operandsReady s [a, b] d = true →
      let s2 := eaPop s a b
      Reads s2 s2.me .scalar (eaVal s a b) f.bytes f.bytes l t →
      exec (.ld d a b false f) s = ends s (lenOf [a, b]) (dstPut d (BitVec.ofNat 64 (ofBytes l)) t) ∧
      exec (.ld d a b true f) s =
        ends s (lenOf [a, b]) (dstPut d (BitVec.ofInt 64 (sextInt (8 * f.bytes) (ofBytes l))) t)) ∧
    (operandsReady s [a, b, d.asSrc] .discard = true →
      let s2 := eaPop s a b
      let s3 := srcPop s2 d.asSrc
      Writes s3 s3.me .scalar (eaVal s a b) (toBytes f.bytes (srcVal s2 d.asSrc).toNat) f.bytes t →
      exec (.st d a b f) s = ends s (lenOf [a, b, d.asSrc]) t) ∧
    (operandsReady s [.reg x, .reg y] d = true →
      let s2 := eaPop s (.reg x) (.reg y)
      (o ∈ [Order.relaxed, .acquire, .seqCst] → Reads s2 s2.me .scalar (s.xreg x + s.xreg y) 8 8 l t →
        exec (.lda d x y o sc) s = ends s 4 (dstPut d (wordOf l) t)) ∧
      (o ∈ [Order.release, .acqRel] → exec (.lda d x y o sc) s = traps (s.after [.reg x, .reg y]) 0x002 (BitVec.ofNat 64 o.code))) ∧
    (operandsReady s [.reg x, .reg y, d.asSrc] .discard = true →
      let s3 := srcPop (eaPop s (.reg x) (.reg y)) d.asSrc
      (o ∈ [Order.relaxed, .release, .seqCst] → s.releaseHeld o sc = false →
        Writes s3 s3.me .scalar (s.xreg x + s.xreg y) (toBytes 8 (srcVal s d.asSrc).toNat) 8 t →
        exec (.str d x y o sc) s = ends s 4 t) ∧
      (o ∈ [Order.relaxed, .release, .seqCst] → s.releaseHeld o sc = true → exec (.str d x y o sc) s = waits s) ∧
      (o ∈ [Order.acquire, .acqRel] → exec (.str d x y o sc) s = traps (s.after [.reg x, .reg y, d.asSrc]) 0x002 (BitVec.ofNat 64 o.code)))

/-- PREF never traps on its address: a page that misses enters the miss table, or waits for a place in it, and PREF ends without
the result of the walk, which fills the cache as that of any miss (R256; that PREF ends so is the model's choice, DESIGN CHOICE,
log 17); FENCE goes on once the work that it orders has completed, and accepts no relaxed order; WAITA goes on when its condition holds and waits
otherwise, and QZST stores a quarantined register to a PROF page (R75, R256, R257, R278, R293, R296, R444). -/
def Obligations.PrefetchFenceAndWaits : Prop :=
  ∀ (s : State) (d : Dst) (a b : Src) (o : Order) (sc : Scope) (q : Bool) (c : WaitCond) (z : Nat) (l : List Byte)
    (t u : State) (p : Place),
    (operandsReady s [a, b] .discard = true →
      let s2 := eaPop s a b
      let x := eaVal s a b
      let v := x.toNat
      ((isVirtual x = false ∨ s2.misses s2.me v = false) → exec (.pref a b) s = ends s (lenOf [a, b]) s2) ∧
      (isVirtual x = true → s2.misses s2.me v = true →
        (let u := enterMiss s2.me [] v s2
         (u.missQueued s2.me v = false → exec (.pref a b) s = ends s (lenOf [a, b]) u) ∧
         (u.missQueued s2.me v = true → exec (.pref a b) s =
           waitsFor (s.keepWait u.msys) 12 (gladeOf s.cur.core) 0)))) ∧
    ((Scope.isFar sc = true → noRemoteFault s) →
      let held := s.xformsOpen || (s.cur.seq == .V && s.here.splitOpen) ||
        (o != .acquire && s.remoteHeld sc)
      (o ≠ .relaxed → held = false → exec (.fence o sc) s = ends s 4 s) ∧
      (o ≠ .relaxed → held = true → exec (.fence o sc) s = waits s) ∧
      (o = .relaxed → exec (.fence o sc) s = traps s 0x002 (BitVec.ofNat 64 o.code))) ∧
    (operandsReady s [a, b] d = true →
      let s2 := eaPop s a b
      Reads s2 s2.me .wait (srcVal s a) 8 8 l t →
      (c.holds (wordOf l) (srcVal (srcPop s a) b) = true →
        exec (.waita d a b q c) s = ends s (lenOf [a, b]) (dstPut d (wordOf l) t)) ∧
      (c.holds (wordOf l) (srcVal (srcPop s a) b) = false → access s2.me .wait .read (srcVal s a) 8 8 s2 = .ok (p, u) →
        exec (.waita d a b q c) s = .next (markBlocked (onLine p)
          ((s.keepWait t.msys).modSeq s.cur fun r => { r with waitAt := some (s.timeAt s.cur.core) })))) ∧
    (operandsReady s [a, b] .discard = true →
      let s2 := eaPop s a b
      access s2.me .scalar .prof (eaVal s a b) 8 8 s2 = .ok (p, u) →
      (u.placeWaits s2.me p 8 = true → exec (.qzst z a b) s = waits (s.keepWait u.msys)) ∧
      (u.placeWaits s2.me p 8 = false →
      writePlace s2.me p (toBytes 8 (Tab.get 0 s.seq.z z).toNat) u = .ok ((), t) →
      exec (.qzst z a b) s = ends s (lenOf [a, b]) t))

/-! ## Atomics (R421, R422) -/

/-- Every 64-bit atomic reads the unit, writes the operation's value and gives the old one; every 32-bit one works on the low
word of its operand and sign-extends the old value (R421, R422). -/
def Obligations.AtomicResults : Prop :=
  (∀ (s : State) (d : Dst) (a b : Nat) (o : Order) (sc : Scope) (p : Place) (old : Nat) (t : State),
     s.releaseHeld o sc = false →
     let base := eaPop s (.reg a) (.reg b)
     let base3 := srcPop base (.reg (b + 1))
     let v := (s.xreg b).toNat
     let less (x y : Nat) : Bool := (BitVec.ofNat 64 x).slt (BitVec.ofNat 64 y)
     let lane (i : Nat) : Nat := NumFmt.fp32.addCode .rne (old / 2 ^ i % 2 ^ 32) (v / 2 ^ i % 2 ^ 32)
     let host : List (Instr × Nat) := [(.amoAdd d a b o sc, old + v), (.amoSwp d a b o sc, v)]
     let near : List (Instr × Nat) := [(.amoAnd d a b o sc, old &&& v), (.amoOr d a b o sc, old ||| v),
       (.amoXor d a b o sc, old ^^^ v), (.amoMin d a b o sc, if less v old then v else old),
       (.amoMax d a b o sc, if less old v then v else old), (.amoMinu d a b o sc, Nat.min old v),
       (.amoMaxu d a b o sc, Nat.max old v), (.amoFadd d a b o sc, lane 0 + 2 ^ 32 * lane 32)]
     (operandsReady s [.reg a, .reg b] d = true → AtomicAt base (s.xreg a) 8 p old t →
       (∀ e ∈ host, exec e.1 s = ends s 4 (dstPut d (BitVec.ofNat 64 old) (atomicPut base p 8 e.2 t))) ∧
       (p.host = false → ∀ e ∈ near, exec e.1 s = ends s 4 (dstPut d (BitVec.ofNat 64 old) (atomicPut base p 8 e.2 t))) ∧
       (p.host = true → ∀ e ∈ near, exec e.1 s = traps (s.keep t.msys) 0x104 (s.xreg a))) ∧
     (operandsReady s [.reg a, .reg b, .reg (b + 1)] d = true → AtomicAt base3 (s.xreg a) 8 p old t →
       exec (.amoCas d a b o sc) s = ends s 4 (dstPut d (BitVec.ofNat 64 old)
         (if old = v then atomicPut base3 p 8 (s.xreg (b + 1)).toNat t else t))) ∧
     (operandsReady s [.reg a, .reg b] d = true → ArrivalAt base (s.xreg a) 8 p t →
       (v = 0 → exec (.amoAdd d a b o sc) s = ends s 4 (dstPut d 0 t)) ∧
       (∀ w u, v ≠ 0 → readLine base.me p t = .ok ((), w) → applyBar base.me p.addr (.arrive v 0) w = (u, none) →
         exec (.amoAdd d a b o sc) s = ends s 4 (dstPut d 0 u)) ∧
       exec (.amoSwp d a b o sc) s = traps (s.keep t.msys) 0x002 0)) ∧
  (∀ (s : State) (d : Dst) (a b : Nat) (o : Order) (sc : Scope) (p : Place) (old : Nat) (t : State),
     s.releaseHeld o sc = false →
     let base := eaPop s (.reg a) (.reg b)
     let base3 := srcPop base (.reg (b + 1))
     let v := (s.xreg b).toNat % 2 ^ 32
     let less (x y : Nat) : Bool := (BitVec.ofNat 32 x).slt (BitVec.ofNat 32 y)
     let result : Word := (BitVec.ofNat 32 old).signExtend 64
     let host : List (Instr × Nat) := [(.amoAddW d a b o sc, old + v), (.amoSwpW d a b o sc, v)]
     let near : List (Instr × Nat) := [(.amoAndW d a b o sc, old &&& v), (.amoOrW d a b o sc, old ||| v),
       (.amoXorW d a b o sc, old ^^^ v), (.amoMinW d a b o sc, if less v old then v else old),
       (.amoMaxW d a b o sc, if less old v then v else old), (.amoMinuW d a b o sc, Nat.min old v),
       (.amoMaxuW d a b o sc, Nat.max old v), (.amoFaddW d a b o sc, NumFmt.fp32.addCode .rne (old % 2 ^ 32) v)]
     (operandsReady s [.reg a, .reg b] d = true → AtomicAt base (s.xreg a) 4 p old t →
       (∀ e ∈ host, exec e.1 s = ends s 4 (dstPut d result (atomicPut base p 4 e.2 t))) ∧
       (p.host = false → ∀ e ∈ near, exec e.1 s = ends s 4 (dstPut d result (atomicPut base p 4 e.2 t))) ∧
       (p.host = true → ∀ e ∈ near, exec e.1 s = traps (s.keep t.msys) 0x104 (s.xreg a))) ∧
     (operandsReady s [.reg a, .reg b, .reg (b + 1)] d = true → AtomicAt base3 (s.xreg a) 4 p old t →
       exec (.amoCasW d a b o sc) s = ends s 4 (dstPut d result
         (if old = v then atomicPut base3 p 4 ((s.xreg (b + 1)).toNat % 2 ^ 32) t else t))))

/-! ## Sync objects, barriers and handles (R394 to R396, R410 to R420, R483) -/

/-- ACQ, REL and BIND of a sync object whose state admits them; BIND enters a region's word into the first free binding slot
and gives the number of bindings, and its undo clears the slot (R416 to R419). -/
def Obligations.SyncObjectsAndBindings : Prop :=
  (∀ (s : State) (d : Dst) (x y : Nat) (o : Order) (sc : Scope) (p : Place) (t : State),
     operandsReady s [.reg x, .reg y] d = true → s.releaseHeld o sc = false →
     ObjectAt (eaPop s (.reg x) (.reg y)) (s.xreg x) p t →
     let word (k : Nat) : Nat := objWord t p.addr k
     let shared := word 8 % 2 ^ 32
     let excl := word 8 / 2 ^ 32 % 2
     (o ∈ [Order.relaxed, .acquire, .seqCst] → t.firstFor 1 (p.addr / 64) = true → excl = 0 →
       (s.xreg y = 0 → shared = 0 → exec (.acq d x y o sc) s = ends s 4 (dstPut d (BitVec.ofNat 64 (word 0))
         (devWrite t.me false (p.addr + 12) [BitVec.ofNat 8 (word 8 / 2 ^ 32 % 256 + 1)] t))) ∧
       (s.xreg y = 1 → shared < 2 ^ 32 - 1 → exec (.acq d x y o sc) s = ends s 4 (dstPut d (BitVec.ofNat 64 (word 0))
         (devWrite t.me false (p.addr + 8) (toBytes 4 (shared + 1)) t)))) ∧
     (o ∈ [Order.relaxed, .acquire, .seqCst] → (s.xreg y = 0 ∨ s.xreg y = 1) →
       (t.firstFor 1 (p.addr / 64) = false ∨ excl = 1 ∨ s.xreg y = 0 ∧ shared ≠ 0) →
       exec (.acq d x y o sc) s = waitsFor (s.keepWait t.msys) 1 (p.addr / 64) 0) ∧
     (o ∈ [Order.relaxed, .release, .seqCst] → s.xformsOpen = false → s.remoteOpenTo ownDevice = false →
       (s.xreg y = 0 → excl = 1 → exec (.rel d x y o sc) s = ends s 4 (dstPut d (BitVec.ofNat 64 (word 0 + 1))
         (devWrite t.me false p.addr (toBytes 8 (word 0 + 1))
           (devWrite t.me false (p.addr + 12) [BitVec.ofNat 8 (word 8 / 2 ^ 32 % 256 - 1)] t)))) ∧
       (s.xreg y = 1 → shared ≠ 0 → exec (.rel d x y o sc) s = ends s 4 (dstPut d (BitVec.ofNat 64 (word 0))
         (devWrite t.me false (p.addr + 8) (toBytes 4 (shared - 1)) t))) ∧
       (s.xreg y = 0 → excl = 0 → exec (.rel d x y o sc) s = traps (s.keep t.msys) 0x305 (s.xreg x)) ∧
       (s.xreg y = 1 → shared = 0 → exec (.rel d x y o sc) s = traps (s.keep t.msys) 0x305 (s.xreg x)))) ∧
  (∀ (s : State) (d : Dst) (a b : Src) (p : Place) (t : State) (r : Region),
     operandsReady s [a, b] d = true → ObjectAt (eaPop s a b) (srcVal s a) p t →
     let y := srcVal (srcPop s a) b
     let g := if fld y 7 8 = 0 then s.homeGrove else fld y 7 8 - 1
     let v := fld y 0 7 + g * 2 ^ 7 + 2 ^ 14
     let l := bindings t p.addr
     let valid (w : Nat) : Bool := w / 2 ^ 14 % 2 == 1
     let n := (l.filter valid).length
     fld y 15 49 = 0 → fld y 7 8 ≤ 96 → (t.grove g).region (fld y 0 7) = some r → r.tenant = t.me.tenant →
     t.marked p.addr = false →
     (∀ k, l.findIdx? (fun w => w % 2 ^ 15 == v) = none → l.findIdx? (fun w => !valid w) = some k →
       exec (.bind d a b false) s = ends s (lenOf [a, b]) (dstPut d (BitVec.ofNat 64 (n + 1))
         (devWrite t.me false (p.addr + 32 + 8 * k) (toBytes 8 v) t))) ∧
     (∀ k, l.findIdx? (fun w => w % 2 ^ 15 == v) = some k →
       exec (.bind d a b false) s = ends s (lenOf [a, b]) (dstPut d (BitVec.ofNat 64 n) t) ∧
       exec (.bind d a b true) s = ends s (lenOf [a, b]) (dstPut d (BitVec.ofNat 64 (n - 1))
         (devWrite t.me false (p.addr + 32 + 8 * k) (toBytes 8 0) t))) ∧
     (l.findIdx? (fun w => w % 2 ^ 15 == v) = none →
       exec (.bind d a b true) s = ends s (lenOf [a, b]) (dstPut d (BitVec.ofNat 64 n) t) ∧
       (l.findIdx? (fun w => !valid w) = none → exec (.bind d a b false) s = traps (s.keep t.msys) 0x303 0)))

/-- Barrier instructions: an arrival lowers the remaining count and adds its bytes, the phase advances and the counts
are reloaded when nothing remains; BARW goes on once the phase has moved; BARX adds bytes and gives the pending count (R410
to R415, R483). Of a cycle in which other updates reach the line too the model keeps the advance and the BARX that read the
count for its end (DESIGN CHOICE, log 53). -/
def Obligations.BarrierInstructions : Prop :=
  ∀ (s : State) (d : Dst) (a b : Src) (x y : Nat) (o : Order) (sc : Scope) (p : Place) (t : State),
    (operandsReady s [.reg x, .reg y] d = true → ObjectAt (eaPop s (.reg x) (.reg y)) (s.xreg x) p t →
      let u := setMark p.addr t
      let f := barFields u p.addr
      let n := (s.xreg y).toNat
      let lowered : BarFields := { f with remaining := f.remaining - 1, pending := f.pending + n }
      let old := BitVec.ofNat 64 (barFields t p.addr).phase
      (o ∈ [Order.relaxed, .release, .acqRel, .seqCst] → s.releaseHeld o sc = false → n < 2 ^ 32 → 1 ≤ f.remaining →
        f.pending + n < 2 ^ 32 →
        (t.inCycle p.addr = none → exec (.bara d x y o sc) s = ends s 4 (dstPut d old (setBarFields t.me p.addr
          (if f.remaining = 1 ∧ f.pending + n = 0
           then { f with remaining := f.expected, pending := 0, phase := (f.phase + 1) % 2 ^ 32 } else lowered) u))) ∧
        (∀ c, t.inCycle p.addr = some c → exec (.bara d x y o sc) s = ends s 4 (dstPut d old
          { setBarFields t.me p.addr lowered u with barCycle := some { c with advance := true } }))) ∧
      (o ∈ [Order.relaxed, .acquire, .seqCst] →
        ((barFields t p.addr).phase ≠ n % 2 ^ 32 → exec (.barw d x y o sc) s =
          ends s 4 (dstPut d old u)) ∧
        ((barFields t p.addr).phase = n % 2 ^ 32 → exec (.barw d x y o sc) s =
          .next (markBlocked (onLine p) (setMark p.addr (s.keepWait t.msys)))))) ∧
    (operandsReady s [a, b] d = true → ObjectAt (eaPop s a b) (srcVal s a) p t →
      let u := setMark p.addr t
      let f := barFields u p.addr
      let n := (srcVal (srcPop s a) b).toNat
      let w := setBarFields t.me p.addr { f with pending := f.pending + n } u
      let fresh := (∀ r, s.seq.barRead = some r → r.1 ≠ s.seq.pc) ∧ ∀ c, s.barCycle = some c → s.cur ∉ c.readers
      fresh → n < 2 ^ 32 → f.pending + n < 2 ^ 32 →
      (t.inCycle p.addr = none →
        exec (.barx d a b) s = ends s (lenOf [a, b]) (dstPut d (BitVec.ofNat 64 (barFields w p.addr).pending) w)) ∧
      (∀ c, t.inCycle p.addr = some c → exec (.barx d a b) s =
        .next (markBlocked none { w with barCycle := some { c with readers := c.readers ++ [s.cur] } }))) ∧
    (∀ m : Nat, s.seq.barRead = some (s.seq.pc, m) → operandsReady s [] d = true →
      exec (.barx d a b) s = ends s (lenOf [a, b])
        (dstPut d (BitVec.ofNat 64 m) (s.modSeq s.cur fun q => { q with barRead := none })))

/-- Buffer handles move free, filling, full, draining; every change is counted, and the old word is given. After a change the
instructions that wait for the handle are attempted next, in order of arrival (changeHandle, log 63) (R394 to R396, R420). -/
def Obligations.BufferHandles : Prop :=
  ∀ (s : State) (d : Dst) (a : Src) (q : Bool) (st : BufState) (c h : Nat) (t : State),
    operandsReady s [a] d = true → HandleAt (srcPop s a) (srcVal s a) c h t →
    let w := t.handle c h
    let into (n : BufState) : State :=
      t.changeHandle c h (BitVec.ofNat 64 (n.code + (w.toNat / 2 ^ 32 + 1) % 2 ^ 32 * 2 ^ 32))
    let is (n : BufState) : Prop := handleState w = n
    let done (u : State) := ends s (lenOf [a]) (dstPut d w u)
    let can (n : BufState) : Prop := is n ∧ t.handleTaken c h = false
    let held (n : BufState) := waitsFor s 3 (handleKey c h) n.code
    (exec (.hset d a true st) s = done (into st)) ∧ (can .free → exec (.hset d a false st) s = done (into st)) ∧
    (can .free → exec (.hacq d a false) s = done (into .fill)) ∧ (can .full → exec (.hacq d a true) s = done (into .drain)) ∧
    (¬ can .free → exec (.hset d a false st) s = held .free ∧ exec (.hacq d a false) s = held .free) ∧
    (¬ can .full → exec (.hacq d a true) s = held .full) ∧
    (s.releaseHeld .release .device = false →
      (is .fill → exec (.hrel d a false) s = done (into .full)) ∧ (is .drain → exec (.hrel d a true) s = done (into .free)) ∧
      (¬ is .fill → exec (.hrel d a false) s = traps (s.after [a]) 0x302 (srcVal s a))) ∧
    (can st → exec (.hwait d a q st) s = done t) ∧ (¬ can st → exec (.hwait d a q st) s = held st)

/-! ## Traps, returns, halting and yielding (R69, R79, R82, R85, R428 to R433, R440 to R443) -/

/-- Taking a trap outside a handler whose block has a vector (R430, R431): TPC, TVAL, TREP and TCAUSE are written, the
handler flag is set, and the program counter is the vector; nothing else of the sequencer changes but the waiting marks
and the repeat count. -/
def Obligations.TrapEntry : Prop :=
  ∀ (s : State) (st : Stream) (t : TrapInfo),
    let q := s.seqOf st.pipe
    q.handler = false → s.vectorOf q.trcb ≠ 0 →
    let r := takeTrap st t s
    r.seqOf st.pipe = { q with
      tpc := t.tpc, tval := t.tval, trep := t.trep, handler := true, hrcb := q.trcb, hcause := t.cause,
      tcause := causeWord t.cause t.deferred false t.src t.sec q.trcb q.trcb,
      pc := s.vectorOf q.trcb, rem := 0, taker := none, waiting := false, yieldAt := none, waitAt := none, twait := none, dropping := none } ∧
    r.mem = s.mem ∧ r.hostMem = s.hostMem ∧ r.groves = s.groves ∧ r.rcbs = s.rcbs ∧
    (∀ c, c ≠ st.core → r.core c = s.core c) ∧ (r.core st.core).under = (s.core st.core).under ∧
    (∀ k, k ≠ st.seq → (r.ctx st.core).seq k = (s.ctx st.core).seq k) ∧ (r.ctx st.core).v = (s.ctx st.core).v

/-- The fields of TCAUSE (R430): cause [9:0], deferred 10, escalated 11, source [13:12], secondary [25:16], task block
[41:32], handler block [51:42], all else zero. -/
def Obligations.TcauseFields : Prop :=
  ∀ (c src sec r h : Nat) (df es : Bool), c < 1024 → src < 4 → sec < 1024 → r < 1024 → h < 1024 →
    let w := causeWord c df es src sec r h
    fld w 0 10 = c ∧ bit w 10 = df ∧ bit w 11 = es ∧ fld w 12 2 = src ∧ fld w 14 2 = 0 ∧ fld w 16 10 = sec ∧
    fld w 26 6 = 0 ∧ fld w 32 10 = r ∧ fld w 42 10 = h ∧ fld w 52 12 = 0

/-- A trap in a handler, or under a block without a vector, escalates (R432): to the nearest fault domain above, whose
vector becomes the program counter, with the escalated bit set, and no fence stops it there; with no such domain the sequencer stops and an
escalated event is written to the management queue. -/
def Obligations.TrapEscalation : Prop :=
  ∀ (s : State) (st : Stream) (t : TrapInfo),
    let q := s.seqOf st.pipe
    (q.handler = true ∨ s.vectorOf q.trcb = 0) →
    let start := if q.handler then q.hrcb else q.trcb
    let r := takeTrap st t s
    (∀ d, domainAbove s start = some d →
      let p := r.seqOf st.pipe
      p.pc = s.vectorOf d ∧ p.handler = true ∧ p.hrcb = d ∧ p.hcause = t.cause ∧ p.tpc = t.tpc ∧ p.tval = t.tval ∧
      bit p.tcause 11 = true ∧ p.x = q.x ∧ p.fenced = false) ∧
    (domainAbove s start = none →
      let p := r.seqOf st.pipe
      p.fenced = true ∧ p.tpc = t.tpc ∧ p.tval = t.tval ∧ p.trep = t.trep ∧ bit p.tcause 11 = true ∧ p.pc = q.pc ∧
      ∃ e, r.mgmtEvents = s.mgmtEvents ++ [e] ∧ e.escalated = true ∧ e.cause = t.cause ∧ e.rcb = q.trcb)

/-- NOP changes the program counter alone; TRAP #n raises 0x0C0 + n at its own address with TVAL 0; HALT stops its
sequencer after itself and writes a HALTED event; YIELD with 0 completes, so it does under a
pre-emption request, which stops the sequencer there, and otherwise it waits for its time (R85, R440, R442, R443). -/
def Obligations.NopTrapHaltYield : Prop :=
  ∀ s : State,
    exec .nop s = ends s 4 s ∧
    (∀ n : BitVec 6, exec (.trap n) s = traps s (0x0C0 + n.toNat) 0) ∧
    exec .halt s = ends s 4 ((event 0x3F1 s.seq.trcb s.cur.core s.cur.seq.code (s.seq.pc + 4) s).modSeq s.cur
      fun q => { q with halted := true }) ∧
    (∀ a : Src, operandsReady s [a] .discard = true →
      let wanted := Nat.min (srcVal s a).toNat 65535
      let now := s.timeAt s.cur.core
      ((s.grove (groveOf s.cur.core)).preempting = true → exec (.yield a) s = ends s (lenOf [a])
        ((srcPop s a).modSeq s.cur fun q => { q with yieldedAt := some (advance (lenOf [a]) none q).pc })) ∧
      (srcVal s a = 0 → (s.grove (groveOf s.cur.core)).preempting = false →
        exec (.yield a) s = ends s (lenOf [a]) (srcPop s a)) ∧
      (srcVal s a ≠ 0 → (s.grove (groveOf s.cur.core)).preempting = false →
        (s.seq.yieldAt = none → exec (.yield a) s = .next (markBlocked none
          (s.modSeq s.cur fun q => { q with yieldAt := some (now, wanted) }))) ∧
        (∀ v, s.seq.yieldAt = some v →
          (wanted ≤ (now - v.1).toNat → exec (.yield a) s = ends s (lenOf [a]) (srcPop s a)) ∧
          ((now - v.1).toNat < wanted → exec (.yield a) s = waits s))))

/-- REP begins its pair: count − 1 repeats more than one are to run, the program counter stays at the pair (R82); the
end of an instruction leaves the pair after its last repeat. -/
def Obligations.RepeatPairs : Prop :=
  ∀ (s : State) (c : BitVec 6) (m st : BitVec 3) (q : Seq) (len : Nat),
    exec (.rep c m st) s = .next (s.modSeq s.cur fun q =>
      { q with rem := c.toNat + 1, waiting := false, yieldAt := none, waitAt := none, twait := none, dropping := none }) ∧
    (2 ≤ q.rem → (advance len none q).pc = q.pc ∧ (advance len none q).rem = q.rem - 1) ∧
    (q.rem = 1 → (advance len none q).pc = q.pc + BitVec.ofNat 64 (4 + len) ∧ (advance len none q).rem = 0) ∧
    (q.rem = 0 → (advance len none q).pc = q.pc + BitVec.ofNat 64 len ∧ (advance len none q).rem = 0) ∧
    ∀ t, (advance len (some t) q).pc = t ∧ (advance len (some t) q).rem = 0

/-- ERET returns from a handler (R441): the flag is cleared; in a scalar pipe the program goes on at TPC with TREP repeats
to run, or under skip after the word at TPC; after a fault of a sub-queue the sub-queue starts again, and the pipe goes on
where the handler had taken it; in a fenced block the sequencer stops. Outside a handler it is ILLEGAL_OPERAND, and so is a
TREP that no pair at TPC has left. -/
def Obligations.HandlerReturn : Prop :=
  ∀ (s : State) (skip : Bool),
    let q := s.seq
    let st := s.cur.pipe
    let pair : Prop := ∃ w, fetchWord s st q.tpc = .ok w ∧ isRep w = true ∧ q.trep ≤ repCount w
    (q.handler = false → exec (.eret skip) s = traps s 0x002 0) ∧
    (q.handler = true → (q.trep = 0 ∨ q.trep ≤ 64 ∧ pair ∧ s.lacksWalker st q.tpc = false) → q.tpc.toNat % 4 = 0 →
      ∀ u : State, (let v := if q.trep = 0 then s else afterFetch s st q.tpc
                    if skip then skipReads v = .ok ((), u) else u = v) →
      let back (pc : Word) (rem : Nat) (p : Seq) : Seq :=
        { p with handler := false, hrcb := 0, hcause := 0, pc := pc, rem := rem, fenced := p.fenced || u.fencedRcb q.trcb,
                 taker := none, barRead := p.barRead.filter fun r => r.1 == pc, waiting := false, yieldAt := none, waitAt := none, twait := none, dropping := none }
      let x := u.ctx s.cur.core
      let src := Sub.ofCode (fld q.tcause 12 2)
      ((s.cur.seq ≠ .V ∨ fld q.tcause 12 2 = 0) → exec (.eret skip) s = .next ((u.modSeq st (back
        (if skip then q.tpc + BitVec.ofNat 64 (lengthAt u st q.tpc) else q.tpc) (if skip then 0 else q.trep))).unwait s.cur)) ∧
      (∀ pc, s.cur.seq = .V → fld q.tcause 12 2 ≠ 0 → x.split = some pc → exec (.eret skip) s =
        .next (((u.setCtx s.cur.core
          { x.setSub src (restartSub skip q.trep (x.sub src)) with split := none, splitRem := 0 }).modSeq st
            (back pc x.splitRem)).unwait s.cur))) ∧
    (q.handler = true → 64 < q.trep → exec (.eret skip) s = traps s 0x002 (BitVec.ofNat 64 q.trep)) ∧
    (∀ w, q.handler = true → q.trep ≠ 0 → q.trep ≤ 64 → s.lacksWalker st q.tpc = false → fetchWord s st q.tpc = .ok w →
      (isRep w = false ∨ repCount w < q.trep) →
      exec (.eret skip) s = traps (s.keep (afterFetch s st q.tpc).msys) 0x002 (BitVec.ofNat 64 q.trep)) ∧
    (q.handler = true → q.trep = 0 → q.tpc.toNat % 4 ≠ 0 → exec (.eret skip) s = traps s 0x103 q.tpc)

/-- A fetch fault and a decode fault trap at the word, where no fault of an array is due first; in a sub-queue a decode
fault stops the sub-queue. A trap that
waits is delivered at the boundary, not between the tiles of an MCOMMIT: deferred traps in order, then in V the earliest fault
of a sub-queue (R69, R79, R80, R188, R205, R223, R430, R431). That the class of the word that fails decides whether an array's
fault comes first is the choice of log 64. -/
def Obligations.FaultsBeforeExecution : Prop :=
  ∀ (s : State) (c : Nat) (v : Word),
    (let first : Option (DefTrap × State) := match fetchWord s s.cur.pipe s.seq.pc with
       | .ok w => s.arrayFault (wordClass w)
       | .error _ => none
     ((first = none ∨ s.seq.handler = true) → exec (.fetchFault c v) s = traps s c v) ∧
     (∀ t s1, first = some (t, s1) → s.seq.handler = false →
       exec (.fetchFault c v) s = .next ((takeTrap s.cur t.info s1).unwait s.cur))) ∧
    (s.cur.sub = .pipe →
      ((s.arrayFault (wordClass v.toNat) = none ∨ s.seq.handler = true) → exec (.decodeFault c v) s = traps s c v) ∧
      (∀ t s1, s.arrayFault (wordClass v.toNat) = some (t, s1) → s.seq.handler = false →
        exec (.decodeFault c v) s = .next ((takeTrap s.cur t.info s1).unwait s.cur))) ∧
    (s.cur.sub ≠ .pipe → ∀ e l, (s.subOf s.cur).words = e :: l → ∃ t, exec (.decodeFault c v) s = .next t ∧
      (t.subOf s.cur).stopped = true ∧ (t.subOf s.cur).words = e :: l ∧
      (t.subOf s.cur).fault = some { cause := c, tpc := e.pc, tval := v, order := e.order,
                                     trep := if e.pair then e.items.length - e.complete else 0 } ∧
      t.seqOf s.cur = s.seqOf s.cur) ∧
    ∀ core seq : Nat,
      let st : Stream := ⟨core, SeqKind.ofCode seq, .pipe⟩
      s.runs st = true → (s.seqOf st).handler = false → (st.seq = .M → (s.ctx core).mx.commit = none) →
      (∀ d l, (s.seqOf st).deferred = d :: l → exec (.trapDelivery core seq) s =
        .next ((takeTrap st d.info (s.modSeq st fun p => { p with deferred := l })).unwait st)) ∧
      (∀ b f, (s.seqOf st).deferred = [] → st.seq = .V → (s.ctx core).subFault = some (b, f) →
        exec (.trapDelivery core seq) s = .next ((takeTrap st
          { cause := f.cause, tval := f.tval, tpc := f.tpc, trep := f.trep, src := b.code, sec := 0, deferred := false }
          (s.setSub { st with sub := b } { s.subOf { st with sub := b } with fault := none })).unwait st))

/-! ## The splitter (R13 to R16, R72, R80) -/

/-- VADD, VLD or VST met in V's scalar pipe is placed at the end of its sub-queue, with its scalar operands captured as
values; the program counter goes on behind it (R14, R72). -/
def Obligations.SplitPlacesWord : Prop :=
  ∀ (s : State) (d : Dst) (a b : Src) (h g : Bool) (p : BitVec 2) (f : BitVec 3),
    s.cur.sub = .pipe →
    let place (sub : Sub) (i : Instr) (t : State) : State :=
      let st : Stream := { t.cur with sub := sub }
      (t.setSub st { t.subOf st with words := (t.subOf st).words ++
        [{ pc := t.seq.pc, items := [.word i], complete := 0, pair := false, order := t.here.splits }] }).modHere
          fun x => { x with splits := x.splits + 1 }
    let free (sub : Sub) : Prop := s.seq.handler = false ∨ (s.subOf { s.cur with sub := sub }).stopped = false
    (free .va → exec (.vadd d a b h g p) s = ends s (lenOf [a, b]) (place .va (.vadd d a b h g p) s)) ∧
    (free .vl → operandsReady s [a, b] .discard = true → exec (.vld d a b f) s = ends s (lenOf [a, b])
      (place .vl (.vld d (.lit64 (srcVal s a)) (.lit64 (srcVal (srcPop s a) b)) f) (eaPop s a b))) ∧
    (free .vs → operandsReady s [a, b] .discard = true → exec (.vst d a b f) s = ends s (lenOf [a, b])
      (place .vs (.vst d (.lit64 (srcVal s a)) (.lit64 (srcVal (srcPop s a) b)) f) (eaPop s a b))) ∧
    (s.seq.handler = true → (s.subOf { s.cur with sub := .va }).stopped = true →
      exec (.vadd d a b h g p) s = traps s 0x002 0)

/-- SPLIT_WORD (R14, R80): the splitter takes a VA word at V's program counter that decodes to `i`, and one that fails
a decode check is placed too, to fail at the head of its sub-queue. -/
def Obligations.SplitterEvent : Prop :=
  ∀ (s : State) (core w : Nat) (i : Instr),
    let st : Stream := ⟨core, .V, .pipe⟩
    let s1 : State := { s with cur := st }
    let pc := s1.seq.pc
    let u := afterFetch s1 st pc
    let place (x : VItem) : State :=
      let va : Stream := ⟨core, .V, .va⟩
      (u.setSub va { u.subOf va with words := (u.subOf va).words ++
        [{ pc := pc, items := [x], complete := 0, pair := false, order := u.here.splits }] }).modHere
          fun y => { y with splits := y.splits + 1 }
    s1.runs st = true → s1.lacksWalker st pc = false → s1.slipFull st = false → s1.trapDue st = false →
    (s1.seq.handler = false ∨ (s1.subOf { st with sub := .va }).stopped = false) →
    fetchWord s1 st pc = .ok w → wordClass w = 2 → wordLength .V w = 4 → isRep w = false →
    (checkWord .V w = none → decode .V w ⟨0, 0⟩ = .ok i → (vwordOf i).addr = [] →
      exec (.splitWord core) s = endsAt s1 0 (some (pc + 4)) (place (.word ((vwordOf i).capture [])))) ∧
    (∀ c, checkWord .V w = some c →
      exec (.splitWord core) s = endsAt s1 0 (some (pc + 4)) (place (.bad c (BitVec.ofNat 64 w))))

/-! ## VA instructions at the head of their sub-queue (R128 to R168) -/

/-- Element-wise arithmetic of any type (R145, R146): floats computed exactly and rounded once by VSH.round, integers
wrapped or saturated once; elements that the predicate does not govern keep their bits. -/
def Obligations.VectorArithmetic : Prop :=
  ∀ (s : State) (d : Dst) (a b : Src) (h g : Bool) (p : BitVec 2),
    let flt (f : Shape → FVal → FVal → FVal) (n : Int → Int → Int) (sh : Shape) (x y : Nat) : Nat :=
      if sh.fmt.isFloat then sh.fmt.round sh.rnd (f sh (sh.fmt.decode x) (sh.fmt.decode y))
      else narrowInt sh.sat sh.w (n (sextInt sh.w x) (sextInt sh.w y))
    let fma (f : Shape → FVal → FVal → FVal → FVal) (n : Int → Int → Int → Int) (sh : Shape) (x y z : Nat) : Nat :=
      if sh.fmt.isFloat then sh.fmt.round sh.rnd (f sh (sh.fmt.decode x) (sh.fmt.decode y) (sh.fmt.decode z))
      else narrowInt sh.sat sh.w (n (sextInt sh.w x) (sextInt sh.w y) (sextInt sh.w z))
    (vaReady s anyFmt (p != 0) [a, b] d (predsOf p) = true →
      exec (.vadd d a b h g p) s = lanes2 s a b d h g p (flt (fun sh x y => x.add sh.rnd y) (· + ·)) ∧
      exec (.vsub d a b h g p) s = lanes2 s a b d h g p (flt (fun sh x y => x.add sh.rnd y.neg) (· - ·)) ∧
      exec (.vmul d a b h g p) s = lanes2 s a b d h g p (flt (fun _ x y => x.mul y) (· * ·)) ∧
      exec (.vmin d a b h g p) s = lanes2 s a b d h g p (flt (fun _ x y => x.min' y) (fun x y => if x ≤ y then x else y)) ∧
      exec (.vmax d a b h g p) s = lanes2 s a b d h g p (flt (fun _ x y => x.max' y) (fun x y => if y ≤ x then x else y))) ∧
    (vaReady s anyFmt (p != 0) [a, b, d.readBack] d (predsOf p) = true →
      exec (.vfma d a b h g p) s = lanes3 s a b d h g p
        (fma (fun sh x y z => (x.mul y).add sh.rnd z) (fun x y z => x * y + z)) ∧
      exec (.vfms d a b h g p) s = lanes3 s a b d h g p
        (fma (fun sh x y z => (x.mul y).add sh.rnd z.neg) (fun x y z => x * y - z)) ∧
      exec (.vfnma d a b h g p) s = lanes3 s a b d h g p
        (fma (fun sh x y z => z.add sh.rnd (x.mul y).neg) (fun x y z => z - x * y))) ∧
    (vaReady s floatFmt (p != 0) [a, b] d (predsOf p) = true →
      exec (.vdiv d a b h g p) s = lanes2 s a b d h g p
        (fun sh x y => sh.fmt.divRound sh.rnd (sh.fmt.decode x) (sh.fmt.decode y))) ∧
    (vaReady s anyFmt (p != 0) [a] d (predsOf p) = true →
      exec (.vabs d a h p) s = lanes1 s a d h p (fun sh x =>
        if sh.fmt.isFloat then sh.fmt.round sh.rnd (sh.fmt.decode x).abs
        else narrowInt sh.sat sh.w (sextInt sh.w x).natAbs) ∧
      exec (.vneg d a h p) s = lanes1 s a d h p (fun sh x =>
        if sh.fmt.isFloat then sh.fmt.round sh.rnd (sh.fmt.decode x).neg
        else narrowInt sh.sat sh.w (-(sextInt sh.w x))))

/-- The special functions (R147): floats only; the FP32 result of the function on each element, rounded once to the
element type. Within the bound of R147 the value of all but VSQRT is the device's own (log 10): what the statement
says holds for every such value. The value lies within the bound of the exact value, or is the exact value rounded; NaN,
infinities, zeros and negative arguments have the special values of the table. -/
def Obligations.VectorSpecialFunctions : Prop :=
  (∀ (s : State) (d : Dst) (a : Src) (h : Bool) (p : BitVec 2), vaReady s floatFmt (p != 0) [a] d (predsOf p) = true →
    exec (.vsqrt d a h p) s = lanes1 s a d h p (fun sh x => sh.fmt.sqrtRound sh.rnd (sh.fmt.decode x)) ∧
    ∀ e ∈ [(Instr.vrcp d a h p, SpecialFn.rcp), (.vrsq d a h p, .rsq), (.vexp d a h p, .exp), (.vlog d a h p, .log),
        (.vtanh d a h p, .tanh), (.vsigm d a h p, .sigm), (.vsin d a h p, .sin), (.vcos d a h p, .cos)],
      exec e.1 s = lanes1 s a d h p
        (fun sh x => sh.fmt.round sh.rnd (NumFmt.fp32.decode (e.2.eval (sh.fmt.decode x))))) ∧
  (∀ (f : SpecialFn) (b : Bool) (m : Nat) (e : Int), m ≠ 0 →
    let size := fixOf false m e
    let v := f.fixed b m e
    let g := f.eval (.fin b m e)
    ((f = .rsq ∨ f = .log) → b = true → g = 0x7FC00000) ∧
    (f = .log → b = false → (FVal.fin false m e).eqv (.fin false 1 0) = true → g = 0) ∧
    ((f = .rsq ∨ f = .log → b = false) → (f = .log → (FVal.fin b m e).eqv (.fin false 1 0) = false) →
      (f = .exp → size ≤ 120 * fixOne) →
      f.admits v (decide (1024 * fixOne < size)) g = true ∨ g = NumFmt.fp32.roundSticky .rne (fixVal v) true)) ∧
  (∀ (f : SpecialFn) (b : Bool) (e : Int),
    let sign := if b then 0x80000000 else 0
    f.eval .nan = 0x7FC00000 ∧
    f.eval (.inf b) = (match f with
      | .rcp => sign
      | .rsq => if b then 0x7FC00000 else 0
      | .exp => if b then 0 else 0x7F800000
      | .log => if b then 0x7FC00000 else 0x7F800000
      | .tanh => sign + 0x3F800000
      | .sigm => if b then 0 else 0x3F800000
      | .sin | .cos => 0x7FC00000) ∧
    f.eval (.fin b 0 e) = (match f with
      | .rcp | .rsq => sign + 0x7F800000
      | .exp | .cos => 0x3F800000
      | .log => 0xFF800000
      | .tanh | .sin => sign
      | .sigm => 0x3F000000))

/-- Bitwise operations, shifts by the low bits of b and bit counts; instructions that write predicates or choose by them
(R148 to R154). -/
def Obligations.VectorBitsAndPredicates : Prop :=
  (∀ (s : State) (d : Dst) (a b : Src) (h g : Bool) (p : BitVec 2),
     (vaReady s anyFmt (p != 0) [a, b] d (predsOf p) = true →
       exec (.vand d a b h g p) s = lanes2 s a b d h g p (fun _ x y => x &&& y) ∧
       exec (.vor d a b h g p) s = lanes2 s a b d h g p (fun _ x y => x ||| y) ∧
       exec (.vxor d a b h g p) s = lanes2 s a b d h g p (fun _ x y => x ^^^ y)) ∧
     (vaReady s anyFmt (p != 0) [a] d (predsOf p) = true →
       exec (.vnot d a h p) s = lanes1 s a d h p (fun sh x => 2 ^ sh.w - 1 - x)) ∧
     (vaReady s intFmt (p != 0) [a, b] d (predsOf p) = true →
       exec (.vshl d a b h g p) s = lanes2 s a b d h g p (fun sh x y => x * 2 ^ (y % sh.w)) ∧
       exec (.vshr d a b h g p) s = lanes2 s a b d h g p (fun sh x y => x / 2 ^ (y % sh.w)) ∧
       exec (.vsar d a b h g p) s = lanes2 s a b d h g p
         (fun sh x y => ((sextInt sh.w x / (2 ^ (y % sh.w) : Nat)) % (2 ^ sh.w : Nat)).toNat)) ∧
     (vaReady s intFmt (p != 0) [a] d (predsOf p) = true →
       exec (.vclz d a h p) s = lanes1 s a d h p (fun sh x =>
         sh.w - if x % 2 ^ sh.w = 0 then 0 else Nat.log2 (x % 2 ^ sh.w) + 1) ∧
       exec (.vffs d a h p) s = lanes1 s a d h p (fun sh x =>
         ((List.range sh.w).find? fun i => x.testBit i).getD sh.w) ∧
       exec (.vpopc d a h p) s = lanes1 s a d h p (fun sh x => (List.range sh.w).countP fun i => x.testBit i))) ∧
  (∀ (s : State) (d : Dst) (a b : Src) (h g : Bool) (p : BitVec 2) (k t u : BitVec 3) (c : VCond) (m : BitVec 6)
     (o : PsetOp),
     let sh := s.shape
     let n := sh.n
     let w := elemBytes sh.w n
     let s1 := tilePop w ((predsOf p).foldl (predPop n) s) a
     let x (i : Nat) : Nat := (elemsVal sh.w n s a).getD i 0
     let y (i : Nat) : Nat := (elemsVal sh.w n s1 b).getD i 0
     let gov (i : Nat) : Bool := governs s.here p.toNat i
     (vaReady s anyFmt true [a, b] .discard (predsOf p) = true →
       exec (.vcmp c k a b h g p) s = vaEnds s (holdList [(h, a), (g, b)]) .discard (predPut k.toNat
         ((List.range n).map fun i => if gov i then some (c.holds (sh.fmt.decode (x i)) (sh.fmt.decode (y i))) else none)
         (tilePop w s1 b))) ∧
     (vaReady s anyFmt true [a, b] d (predsOf p) = true →
       exec (.vsel d a b h g p) s = vaEnds s (holdList [(h, a), (g, b)]) d (tilePut d (mergeElems sh.w
         ((List.range n).map fun i => some (if gov i then x i else y i))) (tilePop w s1 b))) ∧
     (vaReady s floatFmt true [a] .discard (predsOf p) = true →
       exec (.vclass k a m h p) s = vaEnds s (holdList [(h, a)]) .discard (predPut k.toNat
         ((List.range n).map fun i => if gov i then
           some (bit m (classBit sh.fmt (x i)) && (!bit m 5 || x i / 2 ^ (sh.w - 1) == 1)) else none) s1)) ∧
     (let reads := (if psetReads o then [u.toNat] else []) ++ if psetReadsTwo o then [t.toNat] else []
      vaReady s anyFmt true [] .discard reads = true → vecReady s.here [a] .discard = true → o ≠ .first →
       exec (.vpset o k a t u h) s = vaEnds s (holdList [(h, a)]) .discard (predPut k.toNat
         ((List.range n).map fun i => some (psetBit o 0 (Tab.get 0 s.here.p u.toNat) (Tab.get 0 s.here.p t.toNat) i))
         (reads.foldl (predPop n) s))) ∧
     (vaReady s anyFmt true [] .discard = true → vecReady s.here [a] .discard = true → tileOk 8 s a = true →
       exec (.vpset .first k a t u h) s = vaEnds s (holdList [(h, a)]) .discard (predPut k.toNat
         ((List.range n).map fun i => some (decide (i < (controlVal s a).toNat))) (tilePop 8 s a))))

/-- Conversions, quantisation, reductions, scans and arg-extremes (R155 to R162); where a policy traps, no element
overflows. That the final conversion of VRED and VSCAN rounds to the nearest even value is log 30's reading (DEDUCED: R160 and
R161 name no code for it), and what VQNT gives for a block whose threshold is zero is the choice of log 61. -/
def Obligations.VectorConversions : Prop :=
  ∀ (s : State) (d : Dst) (a b : Src) (h g f x e : Bool) (y : Policy) (t : NumFmt) (w : BitVec 3) (q : BitVec 2)
    (ax : Axis) (o : RedOp) (r : List Nat),
    let sh := s.shape
    let n := sh.n
    let u := elemsVal sh.w n s a
    let s1 := tilePop (elemBytes sh.w n) s a
    let put (width : Nat) (l : List Nat) : Host.Outcome State Fault Refusal :=
      vaEnds s (holdList [(h, a)]) d (tilePut d (mergeElems width (l.map some)) s1)
    let seg (v : List Nat) : List Nat := v.map fun i => redIn sh (u.getD i 0)
    let narrow (l : List Nat) : Prop :=
      if sh.fmt.isFloat then convertAll .fp32 sh.fmt .rne y l = .ok r else r = l
    (vaReady s anyFmt false [a] d = true →
      (n * t.width ≤ 16384 → convertAll sh.fmt t sh.rnd y u = .ok r → exec (.vcvt d a y t h) s = put t.width r) ∧
      (narrow ((segments' sh ax).map fun v => treeFold (redNode sh o) 13 (seg v)) →
        exec (.vred d a y ax o h) s = put sh.w r) ∧
      (narrow ((segments' sh (if x then .row else .all)).flatMap fun v => scanList sh (seg v)) →
        exec (.vscan d a y x h) s = put sh.w r) ∧
      exec (.vargx d a e x h) s = put 16 ((segments' sh (if x then .row else .all)).map fun v =>
        match argBest e (v.zipIdx.map fun p => (argKey sh.fmt (u.getD p.1 0), p.2)) with
        | some (_, i) => i
        | none => 0xFFFF)) ∧
    (vaReady s widenFmt false [a] d = true → 512 * w.toNat < n →
      exec (.vwiden d a w h) s = put 32 (((u.drop (512 * w.toNat)).take 512).map (widen sh.fmt))) ∧
    (vaReady s (· == .fp32) false [a] d = true →
      exec (.vsplit d a q h) s = put 16 ((elemsVal 32 n s a).map (splitTerm q.toNat))) ∧
    (vaReady s (fun z => z == .fp32 || z == .bf16) false [a] d = true → n % 32 = 0 →
      exec (.vqnt d a true f h) s = put 16 (quantAll f (u.map sh.fmt.decode)).1 ∧
      exec (.vqnt d a false f h) s = put 8 (quantAll f (u.map sh.fmt.decode)).2) ∧
    (vaReady s (fun z => z == .e4m3 || z == .int8) false [a] d = true → vecReady s.here [a, b] d = true →
      tileOk (elemBytes 16 (n / 32)) s b = true → n % 32 = 0 → n ≤ 512 →
      exec (.vdqnt d a b h g) s = vaEnds s (holdList [(h, a), (g, b)]) d (tilePut d (mergeElems 32
        ((elemsVal 8 n s a).zipIdx.map fun z => some (NumFmt.fp32.round sh.rnd ((sh.fmt.decode z.1).mul
          (ue8m8Value ((halvesVal 8 (n / 32) s1 b).getD (z.2 / 32) 0)))))) (tilePop (elemBytes 16 (n / 32)) s1 b)))

/-- Rearrangement, movement, index and random values, and the control registers (R163 to R168). How VSHUF reads a literal b
(halvesVal) is log 62's reading of R164 and R77. -/
def Obligations.VectorMovement : Prop :=
  ∀ (s : State) (d : Dst) (a b : Src) (h g : Bool) (p : BitVec 2) (k : IotaKind),
    let sh := s.shape
    let n := sh.n
    let u := elemsVal sh.w n s a
    let s0 := (predsOf p).foldl (predPop n) s
    let s1 := tilePop (elemBytes sh.w n) s a
    let put (l : List (Option Nat)) (t : State) : Host.Outcome State Fault Refusal :=
      vaEnds s (holdList [(h, a)]) d (tilePut d (mergeElems sh.w l) t)
    (vaReady s anyFmt false [a] d = true →
      exec (.vtrn d a h) s = put ((List.range n).map fun j => some (u.getD (j % sh.rows * sh.cols + j / sh.rows) 0)) s1) ∧
    (vaReady s anyFmt (p != 0) [a] d (predsOf p) = true → vecReady s.here [a, b] d = true →
      tileOk (elemBytes 16 n) s b = true → n ≤ 1024 →
      let s1 := tilePop (elemBytes sh.w n) s0 a
      exec (.vshuf d a b h g p) s = vaEnds s (holdList [(h, a), (g, b)]) d (tilePut d (mergeElems sh.w
        (lanes s p.toNat n fun i =>
          let j := (halvesVal sh.w n s1 b).getD i 0
          if j < n then u.getD j 0 else 0)) (tilePop (elemBytes 16 n) s1 b))) ∧
    (vaReady s anyFmt (p != 0) [] d (predsOf p) = true →
      exec (.viota d k p) s = vaEnds s [] d (tilePut d (mergeElems sh.w (lanes s p.toNat n fun i =>
        let v := match k with | .index => i | .col => i % sh.cols | .row => i / sh.cols
        if sh.fmt.isFloat then sh.fmt.round sh.rnd (.fin false v 0) else v % 2 ^ sh.w)) s0) ∧
      exec (.vrng d p) s = vaEnds s [] d (tilePut d (mergeElems sh.w (lanes s p.toNat n fun i =>
        rngElem sh.fmt (rngWord s.here.vkey
          (s.here.vbase + BitVec.ofNat 64 (i / sh.cols) * s.here.vgstr + BitVec.ofNat 64 (i % sh.cols))))) s0)) ∧
    (vaReady s anyFmt false [] d = true → vecReady s.here [a] d = true → tileOk 2048 s a = true →
      (∃ m, a = .reg m ∨ a = .queue m) →
      exec (.vmov d a h 0) s = vaEnds s (holdList [(h, a)]) d (tilePut d (fun _ => tileVal s a) (tilePop 2048 s a))) ∧
    (vaReady s anyFmt (p != 0) [a] d (predsOf p) = true → (p ≠ 0 ∨ ∀ m, a ≠ .reg m ∧ a ≠ .queue m) →
      exec (.vmov d a h p) s = lanes1 s a d h p fun _ x => x) ∧
    (s.cur.sub ≠ .pipe → vecReady s.here [a] .discard = true → tileOk 8 s a = true →
      let v := controlVal s a
      let set (f : Context → Context) := vaEnds s (holdList [(h, a)]) .discard ((tilePop 8 s a).modHere f)
      (validShape v.toNat = true → exec (.vshape a .sh h) s = set fun x => { x with vsh := v.setWidth 32 }) ∧
      (validShape v.toNat = false → exec (.vshape a .sh h) s = subTraps (s.keep (tilePop 8 s a).msys) 0x020 v) ∧
      exec (.vshape a .key h) s = set (fun x => { x with vkey := v }) ∧
      exec (.vshape a .base h) s = set (fun x => { x with vbase := v }) ∧
      exec (.vshape a .gstr h) s = set fun x => { x with vgstr := v }) ∧
    (s.cur.sub ≠ .pipe → validShape s.here.vsh.toNat = false →
      exec (.vtrn d a h) s = subTraps s 0x020 (s.here.vsh.setWidth 64))

/-! ## VL and VS words at the head of their sub-queues (R261 to R265) -/

/-- Vector loads: when the destination has room and the pieces can be read (R275), the bytes stand in the tile, replicated,
widened or by rows. Vector stores: the source tile is stored at a + b, by rows, as conversions, under a predicate, or into
accumulators (R261 to R265). -/
def Obligations.VectorLoadsAndStores : Prop :=
  (∀ (s : State) (d : Dst) (a b : Src) (f : BitVec 3) (g : BitVec 4) (w : WidenSrc) (sc : Scope) (l : List Byte)
     (t u : State) (i : List Word) (r : Nat) (p : Place) (c snap : Bool) (at_ : AccType),
     s.cur.sub ≠ .pipe → vecReady s.here [] d = true → hasEntry s a = true → hasEntry (srcTake s a) b = true →
     let s2 := eaTake s a b
     let ea := srcVal s a + srcVal (srcTake s a) b
     let x := srcVal s a
     let y := srcVal (srcTake s a) b
     let put (bytes : List Byte) (t : State) : Host.Outcome State Fault Refusal :=
       subEnds s (tilePut d (fun old => putBits old 0 (8 * bytes.length) (ofBytes bytes)) t)
     (loadPieces [(ea, beatBytes f)] s2 = .ok (l, t) → exec (.vld d a b f) s = put l t) ∧
     (loadPieces [(ea, 2048)] s2 = .ok (l, t) → exec (.vldq d a b sc) s = put l t) ∧
     (loadPieces [(ea, 32 * 2 ^ f.toNat)] s2 = .ok (l, t) →
       exec (.vldb d a b f) s = put (List.replicate (2048 / (32 * 2 ^ f.toNat)) l).flatten t) ∧
     (loadPieces [(ea, 64 * (WidenSrc.fmt w).width)] s2 = .ok (l, t) →
       exec (.vldc d a b w) s = put (toBytes 2048 (packElems 32
         ((elemsOf (WidenSrc.fmt w).width 512 (ofBytes l)).map (widen (WidenSrc.fmt w))))) t) ∧
     (let rows := fld y 32 6 + 1
      let len := 32 * (fld y 38 6 + 1)
      fld y 44 20 = 0 → rows * len ≤ 2048 →
       loadPieces ((List.range rows).map fun i =>
         (x + BitVec.ofNat 64 i * BitVec.ofInt 64 (sextInt 32 (fld y 0 32)), len)) s2 = .ok (l, t) →
       exec (.vlds d a b) s = put l t) ∧
     (indexedRows a b g s = .ok ((i, r), u) → loadPieces (i.map fun v => (v, r)) u = .ok (l, t) →
       exec (.vldx d a b g) s = put l t) ∧
     (let len := if at_ = .raw then 2048 else 4096
      accAddr ea len s2 = .ok ((), s2) → access s2.me .accum .read ea len 128 s2 = .ok (p, u) →
       (snap = false → u.placeWaits s2.me p len = false) →
       readPlace s2.me p len u = .ok (l, t) →
       (at_ = .raw → exec (.vlda d a b c snap at_) s = put l t) ∧
       (∀ fm e, accFmt at_ = some fm →
         convertAll .fp32 fm .rne (if c then .trap else .saturate) (elemsOf 32 1024 (ofBytes l)) = .ok e →
         exec (.vlda d a b c snap at_) s = put (toBytes 2048 (packElems 16 e)) t))) ∧
  (∀ (s : State) (d : Dst) (a b : Src) (f : BitVec 3) (g : BitVec 4) (k : BitVec 3) (pol : Policy) (fm : StoreFmt)
     (sc : Scope) (t u : State) (i : List Word) (r : Nat) (e : List Nat) (p : Place),
     s.cur.sub ≠ .pipe → vecReady s.here [d.asSrc] .discard = true → tileOk 2048 s d.asSrc = true →
     let tile := tileVal s d.asSrc
     let v := tilePop 2048 s d.asSrc
     hasEntry v a = true → hasEntry (srcTake v a) b = true →
     let s2 := eaTake v a b
     let ea := srcVal v a + srcVal (srcTake v a) b
     (storePieces .tile [(ea, toBytes (beatBytes f) tile)] s2 = .ok ((), t) → exec (.vst d a b f) s = subEnds s t) ∧
     (v.releaseHeld .release sc = false → storePieces .tile [(ea, toBytes 2048 tile)] s2 = .ok ((), t) →
       exec (.vstr d a b sc) s = subEnds s t) ∧
     (convertAll .fp32 (StoreFmt.fmt fm) .rne pol (elemsOf 32 512 tile) = .ok e →
       storePieces .vector [(ea, toBytes (64 * (StoreFmt.fmt fm).width) (packElems (StoreFmt.fmt fm).width e))] s2 = .ok ((), t) →
       exec (.vstc d a b pol fm) s = subEnds s t) ∧
     (indexedRows a b g v = .ok ((i, r), u) →
       storePieces .vector (i.zipIdx.map fun q => (q.1, toBytes r (tile / 2 ^ (8 * r * q.2)))) u = .ok ((), t) →
       exec (.vstx d a b g) s = subEnds s t) ∧
     (accAddr ea 2048 s2 = .ok ((), s2) → Writes s2 s2.me .accum ea (toBytes 2048 tile) 128 t →
       exec (.vsta d a b) s = subEnds s t) ∧
     (let y := srcVal (srcTake v a) b
      let n := 2048 / y.toNat
      let pad : Prop := 0x800000000000 ≤ p.addr ∧ p.addr + 2048 ≤ 0x810000000000 ∧ p.addr / 2 ^ 24 % 16 = 0 ∧
        p.addr % 2 ^ 24 + 2048 ≤ 0x100000
      y.toNat ∈ [1, 2, 4, 8] → predOk n s2 k.toNat = true →
       probe s2.me .vector .write (srcVal v a) 2048 32 (predPop n s2 k.toNat) = .ok (p, u) →
       (p.host = true ∨ p.addr + 2048 ≤ 0x6000000000 ∨ pad) →
       let mask := Tab.get 0 s.here.p k.toNat
       ∃ w, exec (.vstm d a b k) s = subEnds s w ∧ (p.host = false → ∀ j, j < 2048 → devByte w (p.addr + j) =
         if bit mask (j / y.toNat) then BitVec.ofNat 8 (tile / 2 ^ (8 * j)) else devByte s (p.addr + j))))

/-! ## Matrix instructions (R196 to R208, R398) -/

/-- Stream registers, loop-nest tables and codebooks are loaded from images that are well formed, and a malformed image is
SHAPE_INVALID and loads nothing; shadow pairings, broadcast groups and MSTAT. When MBGJ and MBGL wait for a group (groupBusy)
is the choice of log 59 (R174, R184, R191, R194, R196, R197, R204 to R206, R208, R398). -/
def Obligations.MatrixRegistersAndGroups : Prop :=
  (∀ (s : State) (k : BitVec 4) (a : Src) (l : List Byte) (t : State),
     operandsReady s [a] .discard = true → mxReady s →
     let s1 := srcPop s a
     let v : BitVec 512 := BitVec.ofNat 512 (ofBytes l)
     (Reads s1 s1.me .vector (srcVal s a) 64 64 l t →
       (streamMalformed v = false →
         exec (.mstrm k a) s = ends s (lenOf [a]) (t.withMx fun m => { m with s := Tab.set 0 m.s k.toNat v })) ∧
       (streamMalformed v = true → exec (.mstrm k a) s = traps (s.keep t.msys) 0x020 (srcVal s a)) ∧
       (tableMalformed v = false → exec (.mnest a) s = ends s (lenOf [a]) (t.withMx fun m => { m with table := v })) ∧
       (tableMalformed v = true → exec (.mnest a) s = traps (s.keep t.msys) 0x020 (srcVal s a))) ∧
     (s.here.mx.loading = false → Reads s1 s1.me .vector (srcVal s a) 32 32 l t →
       exec (.mcbk k a) s = ends s (lenOf [a]) (t.modCore t.cur.core fun c =>
         { c with books := Tab.put c.books k.toNat { vals := BitVec.ofNat 256 (ofBytes l), loaded := true } }))) ∧
  (∀ (s : State) (d : Dst) (h c g : BitVec 2) (p : Pairing) (f : MstatWord),
     let m := s.here.mx
     let takes (b : Nat) : Bool := m.pairs.any fun q => q.shadow == b || q.base == b
     (mxReady s → h ≠ c → takes h.toNat = false → takes c.toNat = false → m.busy h.toNat = false →
       exec (.mspec h c) s = ends s 4 (s.withMx fun m =>
         { m with pairs := m.pairs ++ [{ shadow := h.toNat, base := c.toNat, touched := 0 }] })) ∧
     (mxReady s → (h = c ∨ takes h.toNat = true ∨ takes c.toNat = true ∨ m.busy h.toNat = true) →
       exec (.mspec h c) s = traps s 0x031 (BitVec.ofNat 64 (h.toNat + 4 * c.toNat))) ∧
     (m.pairs.find? (fun q => q.base == c.toNat) = some p →
       let free := !({ m with commit := none }.busy p.base || { m with commit := none }.busy p.shadow)
       let apart (t : State) : State := t.withMx fun m =>
         { m with pairs := m.pairs.filter fun q => q.base != c.toNat, commit := none }
       let on := m.commitFrom c.toNat
       (mxReady s → free = true → exec (.mdisc c) s = ends s 4 (apart s)) ∧
       (mxReady s → free = false → exec (.mdisc c) s = waits s) ∧
       (mxReady s ∨ on.isSome = true →
         (free = false → exec (.mcommit c) s = waits s) ∧
         (free = true → on.isSome = true ∨ commitChecks s.me p s = .ok ((), s) →
           (p.tilesFrom (on.getD 0) = [] → exec (.mcommit c) s = ends s 4 (apart s)) ∧
           (∀ t, p.tilesFrom (on.getD 0) = [t] → exec (.mcommit c) s = ends s 4 (apart (commitTile s.cur.core p t s))) ∧
           (∀ t l, p.tilesFrom (on.getD 0) = t :: l → l ≠ [] → exec (.mcommit c) s = .next (markBlocked none
             ((commitTile s.cur.core p t s).modMx s.cur.core fun m => { m with commit := some (c.toNat, t + 1) })))))) ∧
     (mxReady s → m.pairs.find? (fun q => q.base == c.toNat) = none →
       exec (.mdisc c) s = traps s 0x031 (BitVec.ofNat 64 c.toNat) ∧
       exec (.mcommit c) s = traps s 0x031 (BitVec.ofNat 64 c.toNat)) ∧
     (mxReady s → m.group = none → groupBusy s (groveOf s.cur.core) g.toNat = false →
       exec (.mbgj g) s = ends s 4 (s.withMx fun m => { m with group := some (g.toNat, 0) })) ∧
     (mxReady s → m.group ≠ none → exec (.mbgj g) s = traps s 0x031 0) ∧
     (mxReady s → m.group = none → exec .mbgl s = ends s 4 s) ∧
     (∀ i n, mxReady s → m.group = some (i, n) → groupBusy s (groveOf s.cur.core) i = false →
       exec .mbgl s = ends s 4 (s.withMx fun m => { m with group := none })) ∧
     (mxReady s → operandsReady s [] d = true → (s.seq.detm = false ∨ m.idle = true) →
       exec (.mstat d f) s = ends s 4 (dstPut d (match f with
         | .word => BitVec.ofNat 64 (mstatWord m)
         | .steps => m.steps
         | .bcast => match m.group with | some (_, i) => BitVec.ofNat 64 i | none => 0) s)))

/-- MGO activates the shadow nest when its checks pass, MMA, MLDW, MWSEL and MZERO enter the input queue when it has
room, and MWAIT goes on once the array is idle (R183, R187, R198 to R203). That MGO checks the shadow stream's sb on every
member of a broadcast group, also on one that is not its source, is the choice of log 59 between R187 and R193 (DESIGN
CHOICE). -/
def Obligations.MatrixWork : Prop :=
  ∀ (s : State) (n : BitVec 2) (tl k : BitVec 4) (j : BitVec 1) (b : Src) (z f : Bool) (mode : AccMode),
    mxReady s →
    let m := s.here.mx
    let pc := s.seq.pc
    let here : Origin := { pc := pc, order := s.fresh }
    (m.nest = none → m.draining < 2 → mgoCheck m = none →
      exec .mgo s = ends s 4 (s.withMx fun m =>
        { m with
          nest := some { table := m.table, sa := Tab.get 0 m.s (ntSa m.table), sb := Tab.get 0 m.s (ntSb m.table),
                         step := 0, id := m.nestId + 1, pc := here, shadow := m.shadowOf (nestAcc m.table), next := none,
                         last := none, wants := false }
          nestId := m.nestId + 1, steps := 0 })) ∧
    (∀ c, m.nest = none → m.draining < 2 → mgoCheck m = some c → exec .mgo s = traps s c pc) ∧
    ((m.nest ≠ none ∨ 2 ≤ m.draining) → exec .mgo s = waits s) ∧
    (m.nest = none → m.queue = [] → m.behind = [] → exec .mwait s = ends s 4 s) ∧
    (m.nest ≠ none ∨ m.queue ≠ [] ∨ m.behind ≠ [] → exec .mwait s = waits s) ∧
    (operandsReady s [b] .discard = true →
      let x := Tab.get 0 m.s k.toNat
      let tag := m.tag m.selP
      let v := srcVal s b
      let s1 := srcPop s b
      (m.nest = none → stRole x = false → m.isShadow n.toNat = false → tag.loaded = true →
        mxRow tag.fmt (stFmt x) mode (stScl x || tag.scaled) = true → m.waitingOps < 4 →
        exec (.mma n tl k b z mode) s = ends s (lenOf [b]) (s1.withMx fun m => m.enqueue
          (.mma x (fld v 0 16) (fld v 16 16) mode z n.toNat (m.shadowOf n.toNat) tl.toNat here))) ∧
      (stRole x = true → m.waitingOps < 4 →
        exec (.mldw j k b) s = ends s (lenOf [b]) ((s1.withMx fun m =>
          m.enqueue (.load j.toNat x (fld v 0 16) (fld v 16 16) here)).withMx fun m =>
            if m.nest.isSome then m else m.setTag j.toNat { fmt := stFmt x, scaled := stScl x, loaded := true })) ∧
      (stRole x = false → exec (.mldw j k b) s = traps (s.after [b]) 0x020 0)) ∧
    (m.waitingOps < 4 → exec (.mwsel j) s = ends s 4 ((s.withMx fun m => m.enqueue (.sel j.toNat)).withMx fun m =>
        if m.nest.isSome then m else { m with selP := j.toNat })) ∧
    (let first := if f then 0 else tl.toNat
     let last := if f then 15 else tl.toNat
     m.isShadow n.toNat = false → m.waitingOps < 4 →
      accFootprint s.me ((m.shadowOf n.toNat).getD n.toNat) (32 * first) (32 * (last + 1 - first)) true s = .ok ((), s) →
      exec (.mzero n tl f) s = ends s 4 (s.withMx fun m =>
        m.enqueue (.zero n.toNat (m.shadowOf n.toNat) first last (32 * first)))) ∧
    (m.isShadow n.toNat = true → exec (.mzero n tl f) s = traps s 0x031 0)

/-- Array work: a bank load gives the bank its tile and its tag, a row commit writes one accumulator row with the sum
of the step, and is counted with the tile's last, a nest's next step enters with the tile that it has, or waits for a
delivery, a fault of its next step ends it once every step before is complete and stays pending, and a delivery reaches every
member of a group (R179, R182, R185, R188, R190, R193, R426). -/
def Obligations.MatrixArrayEvents : Prop :=
  ∀ (s : State) (core : Nat),
    let m := s.mx core
    (∀ (b : Nat) (x : BitVec 512) (ti tj : Nat) (pc : Origin) (q : List MxOp) (w : WBank) (t : State),
      m.queue = .load b x ti tj pc :: q →
      attempt (s.mxAgent core) (readBTile (s.mxAgent core) (s.core core).books x ti tj) s = .done w t →
      exec (.bankLoad core) s = .next (t.modMx core fun k => { k.setBank b w with queue := k.steps' ++ q })) ∧
    (∀ (t : TileStep) (q : List MxOp), m.queue = .step t :: q → (∀ o ∈ q, o.isStep = true) → t.row < 31 →
      exec (.accumulatorRowCommit core) s = .next
        ((writeAccRow core t.wr (32 * t.tile + t.row) (t.rowValue (s.accRow core t.rd (32 * t.tile + t.row))) s).modMx core
          fun k => { k with queue := .step { t with row := t.row + 1 } :: q })) ∧
    (∀ (t : TileStep) (q : List MxOp), m.queue = .step t :: q → (∀ o ∈ q, o.isStep = true) → t.row = 31 →
      exec (.accumulatorRowCommit core) s = .next (settle core 16 ((count core 0x04 1
        (writeAccRow core t.wr (32 * t.tile + t.row) (t.rowValue (s.accRow core t.rd (32 * t.tile + t.row))) s)).modMx core
          fun k => { k with queue := q, steps := if t.nest = some k.nestId then k.steps + 1 else k.steps }))) ∧
    (∀ (n : Nest) (c : Nat), m.nest = some n → n.fault = some c → m.queue = [] → exec (.nestStep core) s =
      .next (s.modMx core fun k => { k.endNest with
        fault := k.fault ++ [{ cause := c, tpc := n.pc.pc, tval := BitVec.ofNat 64 n.step, sec := 0, src := 0, deferred := true,
                               trep := 0, order := n.pc.order }] })) ∧
    (∀ (n : Nest), m.nest = some n → n.fault = none → m.queue = [] → (s.grove (groveOf core)).preempting = false →
      (∀ (st : TileStep) (t : State), (n.last = some n.bTile ∨ n.next.isSome = true) →
        attempt (s.mxAgent core) (enterStep (s.mxAgent core) n.sa (ntCoord n.table (ntOrigin n.table 0) 0 n.step)
          (ntCoord n.table (ntOrigin n.table 1) 1 n.step) (ntMode n.table) (ntZero n.table n.step) (nestAcc n.table)
          n.shadow (ntCoord n.table (ntTile0 n.table) 4 n.step).toNat (some n.id)) (s.modMx core fun k => k.takeNext n)
            = .done st t →
        exec (.nestStep core) s = .next (t.modMx core fun k =>
          let k1 := k.addStep n.shadow st k.rest
          if n.step + 1 = ntTotal n.table then k1.endNest
          else { k1 with nest := k1.nest.map fun z => { z with step := n.step + 1 } })) ∧
      (n.last ≠ some n.bTile → n.next = none → ntBc n.table = true → exec (.nestStep core) s =
        .next (s.modMx core fun k => { k with nest := k.nest.map fun z => { z with wants := true } }))) ∧
    (∀ (grove g src : Nat) (rest : List Nat) (n : Nest) (w : WBank) (t : State), groupCores s grove g = src :: rest →
      (∀ c ∈ src :: rest, ∃ z, (s.mx c).nest = some z ∧ z.wants = true) → (s.mx src).nest = some n →
      attempt (s.mxAgent src) (readBTile (s.mxAgent src) (s.core src).books n.sb n.bTile.1 n.bTile.2) s = .done w t →
      exec (.broadcastDelivery grove g) s = .next
        (((src :: rest).foldl (fun u c => u.modMx c fun k =>
            { k with nest := k.nest.map (fun z => { z with next := some w, wants := false }),
                     group := k.group.map fun q => (q.1, q.2 + 1) }) t).modGrove grove
          fun k => { k with groups := Tab.put k.groups g (Tab.get 0 k.groups g + 1) }))

/-! ## Rotation instructions (R221 to R238) -/

/-- QCFG, QCLR, QANN, QAPL, QVEC, QROT, QANGF and QANGR enter the array or convert angles; QRDT, QWRT and QRDA move rows from
and to memory; waiting and status. That QCFG waits before its value is checked is the choice of log 61; that QRDT and QWRT check
their selector before they wait, and that of two bad operands of QVEC the value of a is reported, are those of log 62; that
QSTAT samples its counts is that of log 33; in what pieces an FP32 row is read or stored, and that QAPL examines its upper row
before it reads the lower, are those of log 64 (R221, R228 to R238). -/
def Obligations.RotationInstructions : Prop :=
  (∀ (s : State) (d : Dst) (a b : Src) (k : BitVec 1) (f : Bool) (row low : RRow) (t u : State),
     rtReady s →
     let r := s.here.rot
     let here : Origin := { pc := s.seq.pc, order := s.fresh }
     let s1 := srcPop s a
     let x := srcVal s a
     let y := srcVal s1 b
     let enter (o : QOp) (v : State) : State := v.withRot fun r => if r.fault.isSome && o.isRow then r else { r with ops := r.ops ++ [o] }
     let q230 (v : Word) (lo : Nat) : Int := sextInt 32 (fld v lo 32)
     let claimed (v : State) : State := v.modCtx s.cur.core fun x => x.claim s.cur.seq d
     (operandsReady s [a] .discard = true → r.ops = [] →
       (fld x 4 4 ≤ 8 → fld x 9 55 = 0 →
         exec (.qcfg a) s = ends s (lenOf [a]) (s1.withRot fun r => { r with qcf := x.setWidth 9 })) ∧
       ((8 < fld x 4 4 ∨ fld x 9 55 ≠ 0) → exec (.qcfg a) s = traps (s.after [a]) 0x002 x)) ∧
     (r.ops ≠ [] → operandsReady s [a] .discard = true → exec (.qcfg a) s = waits s) ∧
     (r.writesTri k.toNat = false →
       exec (.qclr k) s = ends s 4 (s.withRot fun r => { r with rows := Tab.keep (fun j => j / 16 != k.toNat) r.rows })) ∧
     (operandsReady s [a] .discard = true → readRow f x (rotN r) (rotM r) 0 s1 = .ok (row, t) →
       exec (.qann a f) s = ends s (lenOf [a]) (enter (.pass row (rotT r) (rotN r) (rotM r) here) t)) ∧
     (operandsReady s [a, b] .discard = true → readRow f x (rotN r) (rotM r) 0 (srcPop s1 b) = .ok (row, t) →
       readRow f (x + if f then BitVec.ofNat 64 (4 * (rotN r + rotM r)) else 128) (rotN r) (rotM r) 0 t = .ok (low, u) →
       exec (.qapl a b f) s = ends s (lenOf [a, b]) (enter (.apl row low (fld y 0 32) (rotN r) (rotM r) here) u)) ∧
     (operandsReady s [a, b] d = true →
       ((q230 x 0).natAbs < 2 ^ 29 → (q230 y 0).natAbs < 2 ^ 29 →
         let v := vectoring (q230 x 0) (q230 y 0)
         exec (.qvec d a b) s = ends s (lenOf [a, b]) (enter
           (.scalar d (BitVec.ofNat 64 (v.1 + 2 ^ 32 * wrapInt 32 (compensate v.2)))) (claimed (srcPop s1 b)))) ∧
       (2 ^ 29 ≤ (q230 x 0).natAbs → exec (.qvec d a b) s = traps (s.after [a, b]) 0x002 x) ∧
       ((q230 x 0).natAbs < 2 ^ 29 → (q230 x 32).natAbs < 2 ^ 29 →
         let v := rotate (fld y 0 32) (q230 x 0) (q230 x 32)
         exec (.qrot d a b) s = ends s (lenOf [a, b]) (enter
           (.scalar d (BitVec.ofNat 64 (wrapInt 32 (compensate v.1) + 2 ^ 32 * wrapInt 32 (compensate v.2)))) (claimed (srcPop s1 b))))) ∧
     (operandsReady s [a] d = true →
       (let th := angleOf (fld x 0 32)
        exec (.qangf d a) s = ends s (lenOf [a]) (dstPut d (BitVec.ofNat 64 (NumFmt.fp32.roundSticky .rne
          (.fin (decide (th < 0)) th.natAbs (-((fixP : Int) + 160))) true)) s1)) ∧
       (∀ sg m e, NumFmt.fp32.decode (fld x 0 32) = .fin sg m e →
         exec (.qangr d a) s = ends s (lenOf [a]) (dstPut d (BitVec.ofNat 64 (codeOfAngle sg m e)) s1)) ∧
       ((∀ sg m e, NumFmt.fp32.decode (fld x 0 32) ≠ .fin sg m e) →
         exec (.qangr d a) s = traps (s.after [a]) 0x002 (BitVec.ofNat 64 (fld x 0 32))))) ∧
  (∀ (s : State) (d : Dst) (a b : Src) (f : Bool) (row : RRow) (t : State),
     let r := s.here.rot
     let x := srcVal s a
     let y := srcVal (srcPop s a) b
     let s2 := eaPop s a b
     let n := rotN r
     let m := rotM r
     let j := fld y 0 4
     let tr := fld y 4 1
     let key := 16 * tr + j
     (rtReady s → operandsReady s [a, b] .discard = true → j < n → fld y 5 59 = 0 →
       (r.writesAng = false → storeRow f x n m (rotCols n m j) (Tab.get RRow.zero r.rows key) s2 = .ok ((), t) →
         exec (.qrdt a b f) s = ends s (lenOf [a, b]) t) ∧
       (r.writesAng = true → exec (.qrdt a b f) s = waits s) ∧
       (r.writesTri tr = true → exec (.qwrt a b f) s = waits s) ∧
       (r.writesTri tr = false → readRow f x n m j s2 = .ok (row, t) →
         exec (.qwrt a b f) s = ends s (lenOf [a, b]) (t.withRot fun r => { r with
           rows := Tab.put r.rows key
             { m := (rotCols n m j).foldl (fun tb c => Tab.set 0 tb c (row.at' c)) (Tab.get RRow.zero r.rows key).m
               e := row.e } }))) ∧
     (rtReady s → operandsReady s [a, b] .discard = true → (n ≤ j ∨ fld y 5 59 ≠ 0) →
       exec (.qrdt a b f) s = traps (s.after [a, b]) 0x002 y ∧ exec (.qwrt a b f) s = traps (s.after [a, b]) 0x002 y) ∧
     (rtReady s → operandsReady s [a] .discard = true →
       (r.writesOut = false → storeRow f x n m (rotCols n m 0) r.o0 (srcPop s a) = .ok ((), t) →
         exec (.qrda a .o0 f) s = ends s (lenOf [a]) t) ∧
       (r.writesApl = false → storeRow f x n m (rotCols n m 0) r.o1 (srcPop s a) = .ok ((), t) →
         exec (.qrda a .o1 f) s = ends s (lenOf [a]) t) ∧
       (let s1 := srcPop s a
        r.writesAng = false → Writes s1 s1.me .vector x ((List.range 16).flatMap fun i => toBytes 4 (Tab.get 0 r.ang i)) 64 t →
         exec (.qrda a .ang f) s = ends s (lenOf [a]) t)) ∧
     (rtReady s → (r.ops = [] → exec .qwait s = ends s 4 s) ∧ (r.ops ≠ [] → exec .qwait s = waits s)) ∧
     ((rtReady s ∨ s.seq.detm = true) → operandsReady s [] d = true → (s.seq.detm = false ∨ r.ops = []) →
       exec (.qstat d) s = ends s 4 (dstPut d (BitVec.ofNat 64 ((if r.ops = [] then 0 else 1) +
         (if r.fault.isSome then 2 else 0) + 4 * (n - 1) + 2 ^ 6 * m + 2 ^ 10 * rotT r + 2 ^ 32 * r.passes.toNat)) s)))

/-- The array commits its oldest operation and counts it: a pass writes the triangle, the output row and the angles and is
counted in QSTAT too, a QAPL writes both output rows, a scalar its destination; an overflow is kept as a pending fault and
later row operations are discarded, also when the array reaches it before older operations have committed (R219 to R223,
R426; which overflow is reached first is open, log 61). A result for a token queue waits for room and for the pushes that come
before Q's (R101). That a fault takes the place of one already pending, and that its TREP is 0, are the choices of log 62 (R223
and R430 leave them open). -/
def Obligations.RotationCommit : Prop :=
  ∀ (s : State) (core : Nat),
    let r := s.rot core
    let counted (t : State) : State := count core 0x05 1 t
    let bad (i : Nat) (pc : Origin) (j : Nat) : State := s.modRot core fun k => { k with
      fault := some { cause := 0x010, tpc := pc.pc, tval := BitVec.ofNat 64 j, sec := 0, src := 0, deferred := true, trep := 0,
                      order := pc.order }
      ops := k.ops.take i ++ (k.ops.drop i).filter fun o => !o.isRow }
    (s.grove (groveOf core)).preHalted = false →
    (∀ (v : RRow) (t n m : Nat) (pc : Origin) (q : List QOp), r.ops = .pass v t n m pc :: q →
      (∀ p : PassState, passAll t n m { rows := r.rows, codes := [], v := v } = .ok p →
        exec (.arrayOperationCommit core) s = .next (counted (s.modRot core fun _ => { r with
          rows := p.rows, ang := p.codes.zipIdx.foldl (fun tb c => Tab.set 0 tb c.2 c.1) [], o0 := p.v,
          passes := r.passes + 1, ops := q }))) ∧
      (∀ j, passAll t n m { rows := r.rows, codes := [], v := v } = .error j →
        exec (.arrayOperationCommit core) s = .next (bad 0 pc j))) ∧
    (∀ (u l : RRow) (c n m : Nat) (pc : Origin) (q : List QOp), r.ops = .apl u l c n m pc :: q →
      (∀ x y, aplPair n m c u l = some (x, y) →
        exec (.arrayOperationCommit core) s = .next (counted (s.modRot core fun _ => { r with o0 := x, o1 := y, ops := q }))) ∧
      (aplPair n m c u l = none → exec (.arrayOperationCommit core) s = .next (bad 0 pc 0))) ∧
    (∀ (d : Dst) (v : Word) (q : List QOp), r.ops = .scalar d v :: q →
      let t := s.modRot core fun _ => { r with ops := q }
      let st : Stream := ⟨core, .Q, .pipe⟩
      (∀ n, d = .reg n → exec (.arrayOperationCommit core) s = .next (counted
        (markDst core .Q true d (t.seqOf st).trcb (t.modSeq st fun k => k.setX n v)))) ∧
      (∀ k, d = .queue k →
        let can := (Tab.get [] (s.ctx core).tq k).length < 16 ∧ s.pushTurn core 3 k = true
        (can → exec (.arrayOperationCommit core) s = .next (counted (t.setTokens core k (Tab.get [] (t.ctx core).tq k ++ [v])))) ∧
        (¬ can → exec (.arrayOperationCommit core) s = .next s)) ∧
      (d = .discard → exec (.arrayOperationCommit core) s = .next (counted t))) ∧
    (let l := r.overflows
     (l = [] → exec (.rotationFaultPending core) s = .next s) ∧
     (l ≠ [] → ∃ e ∈ l, exec (.rotationFaultPending core) s = .next (bad e.1 e.2.1 e.2.2)))

/-! ## Transform and transpose units (R252, R258 to R260, R266 to R269) -/

/-- XFORM places one command per line and ends with d held back, and what it pops stays in its queue until it can no longer trap;
each line is transformed in place as one request; XBOX hands its descriptor to the transpose unit, which moves a tile at a time
(R101, R102, R252, R255, R258 to R260, R266, R267, R269, R303). That a later pop of a queue waits for that end is the choice of
log 64, that the deferred fault of an XFORM has TREP 0 that of log 62, and that a tile is read whole before it is written is
log 35's reading (DEDUCED: R267 orders neither). -/
def Obligations.TransformAndTranspose : Prop :=
  (∀ (s : State) (d : Dst) (a b : Src) (f : XformOp) (p : Place) (t : State),
     (operandsReady s [a, b] d = true →
       let s2 := eaPop s a b
       let x := srcVal s a
       let c := srcVal (srcPop s a) b
       let n := fld c 0 8 + 1
       x.toNat / 2 ^ 48 = 0xFF00 → x.toNat % 256 = 0 → Config.chipBase ≤ x.toNat % 2 ^ 48 →
       x.toNat % 2 ^ 48 < Config.chipEnd → x.toNat % 2 ^ 48 / 2 ^ 24 % 16 = 0 →
       fld c 11 21 = 0 → etypeOk f (fld c 8 3) = true → (f = .crc → fld c 32 32 = 0) →
       access s2.me .vector (if f = .crc then .read else .write) x (256 * n) 256 s2 = .ok (p, t) →
       (t.behindRemote s2.me p (256 * n) = true → exec (.xform d a b f) s = waits (s.keepWait t.msys)) ∧
       (t.behindRemote s2.me p (256 * n) = false →
         exec (.xform d a b f) s = ends s (lenOf [a, b]) (((t.modCtx s.cur.core fun y => { y with tq := s.here.tq }).modSeq s.cur
           fun q => { q with xforms := q.xforms ++ [{ id := t.fresh, dst := d, pc := s.seq.pc, order := t.fresh, op := f, left := n,
                                                      crc := 0, poison := none, pops := Src.queues [a, b] }] }).modCore
           (chipCore p.addr) fun k => { k with lines := k.lines ++ lineCmds s.cur t.fresh s2.me.rcb f c x.toNat p.addr }))) ∧
     (∀ (core bank : Nat) (l : LineCmd), (s.core core).lines.find? (fun l => l.addr / 256 % 16 == bank) = some l →
       let u := runLine l (s.modCore core fun k => { k with lines := k.lines.erase l })
       exec (.transformLine core bank) s = .next u ∧
       (l.op ≠ .crc → etypeOk l.op l.etype = true → s.biterr = [] → s.poison = [] →
         0x800000000000 ≤ l.addr → l.addr + 256 ≤ 0x810000000000 → l.addr / 2 ^ 24 % 16 = 0 → l.addr % 256 = 0 →
         devBytes u l.addr 256 = transformBytes l.op l.etype l.const (devBytes s l.addr 256))) ∧
     (∀ (core seq : Nat) (j : XformJob),
       let k := SeqKind.ofCode seq
       let x := s.ctx core
       let wait : Bool := match j.dst with | .queue n => (x.seq k).busy == .push n | _ => false
       let y := x.setSeq k { x.seq k with
         xforms := (x.seq k).xforms.filter fun i => i.id != j.id, busy := if wait then .none else (x.seq k).busy }
       (x.seq k).xforms.find? (x.jobDone k) = some j →
       (j.poison = none → s.takes core true x k j.dst = true → exec (.xformComplete core seq) s = .next
         (markDst core k true j.dst (x.seq k).trcb (s.modCore core fun z =>
           { z with ctx := y.writeDst k j.dst (if j.op = .crc then j.crc else 0) }))) ∧
       (j.poison = none → s.takes core true x k j.dst = false → exec (.xformComplete core seq) s = .next s) ∧
       (∀ v, j.poison = some v → exec (.xformComplete core seq) s = .next (s.modCore core fun z =>
         { z with ctx := y.setSeq k { y.seq k with
             deferred := (y.seq k).deferred ++ [⟨0x111, j.pc, v, 0, 0, true, 0, j.order⟩] } })))) ∧
  (∀ (s : State) (d : Dst) (a : Src),
     (operandsReady s [a] d = true → (srcVal s a).toNat % 128 = 0 →
       let s1 := (srcPop s a).modCtx s.cur.core fun y => { y with tq := s.here.tq }
       let c : XposeCmd :=
         { by_ := .stream s.cur, owner := s.seq.task, rcb := s.seq.trcb, det := s.seq.detm, desc := srcVal s a,
           image := none, tile := 0, left := none, total := 0, dst := d, pc := s.seq.pc, rem := s.seq.rem }
       let free := (s.core s.cur.core).xpose = none ∧ s.firstFor 6 s.cur.core = true
       let open_ := s.xformsOpen || s.remoteOpenTo ownDevice
       (open_ = false → free → exec (.xbox d a) s = ends s (lenOf [a])
         ((s1.modCore s.cur.core fun k => { k with xpose := some c }).modSeq s.cur fun p =>
           { p with busy := .xbox (Src.queues [a]).head? })) ∧
       (open_ = false → ¬ free → exec (.xbox d a) s = waitsFor s 6 s.cur.core 0) ∧
       (open_ = true → exec (.xbox d a) s = waits s)) ∧
     (∀ (core : Nat) (c : XposeCmd) (b : BoxDesc) (l : List (Word × List Byte)) (t : State),
       (s.core core).xpose = some c → s.fencedRcb c.rcb = false → c.image = some b → c.left = none → c.tile < bxTiles b →
       let ag := s.unitAgent core c.rcb 4 c.det c.owner
       let n := (bxTile b c.tile).length * bxEs b
       let c2 : XposeCmd := { c with image := some b, tile := c.tile + 1, left := none, total := c.total + n }
       attempt ag (bxReads ag b (bxTile b c.tile)) s = .done l t →
       (∀ u v, bxWrites ag (bxEs b) l t = .done u → attempt ag (postBytes ag (bxBar b) n) u = .done () v →
         let w := v.modCore core fun k => { k with xpose := some c2 }
         (c.tile + 1 < bxTiles b → exec (.transposeTile core) s = .next w) ∧
         (c.tile + 1 = bxTiles b → exec (.transposeTile core) s = .next (endXpose core c2 .bytes w))) ∧
       (∀ left u, bxWrites ag (bxEs b) l t = .wait left u → exec (.transposeTile core) s =
         .next (u.modCore core fun k => { k with xpose := some { c with image := some b, left := some left } }))))

/-! ## Scratchpad rings (R345 to R352) -/

/-- RCLAIM claims slots at the tail, RPUB publishes in claim order, WFREE and WFILL wait for room and for filled slots, RCONS
frees slots at the head, RERR, RFIX and RFIX.init change the state, RSTAT reads it; what finds no room, or an earlier operation to be served first,
waits, and after a change of the ring its waiters are attempted next (R346 to R352; when they are is the choice of log 63). That
RCLAIM.nb gives status 3 where the slots left by blocked RCLAIMs are short, and that RPUB.eos tests the tail once its turn has
come, are the choices of log 36. -/
def Obligations.RingInstructions : Prop :=
  (∀ (s : State) (d : Dst) (a b : Src) (nb rlx eos : Bool) (c n : Nat) (r : Ring) (t : State),
     operandsReady s [a, b] d = true → RingAt (eaPop s a b) (srcVal s a) false false c n r t →
     let y := srcVal (srcPop s a) b
     let done (v : Word) (u : State) := ends s (lenOf [a, b]) (dstPut d v u)
     let key := 16 * c + n
     let i := fld y 0 32
     let k := fld y 32 17
     (y ≠ 0 → y.toNat ≤ r.count → r.eos = false →
       let can := y.toNat ≤ r.free ∧ t.ringTaken c n r true = false
       let short := r.free < t.claimsAhead c n + y.toNat
       let taken := done (r.slotWord 0 r.t) (t.putRing c n { r with t := add32 r.t y.toNat })
       (nb = false ∨ s.seq.detm = true →
         (can → exec (.rclaim d a b nb) s = taken) ∧ (¬ can → exec (.rclaim d a b nb) s = waitsFor s 0 key y.toNat)) ∧
       (s.seq.detm = false →
         (¬ short → exec (.rclaim d a b true) s = taken) ∧
         (short → exec (.rclaim d a b true) s = done (r.slotWord 3 r.t) t))) ∧
     ((y = 0 ∨ r.count < y.toNat) → exec (.rclaim d a b nb) s = traps (s.after [a, b]) 0x002 y) ∧
     (fld y 49 15 = 0 → 0 < k → k ≤ 65536 → sub32 i r.f + k ≤ r.claimed →
       let can := r.f = i ∧ t.ringTaken c n r false = false
       (can → (eos = true → r.t = add32 i k) → (rlx = true ∨ s.releaseHeld .release .device = false) →
         exec (.rpub d a b rlx eos) s = done (BitVec.ofNat 64 (add32 i k))
           (t.putRing c n (if eos then { r with f := add32 i k, e := add32 i k, eos := true } else { r with f := add32 i k }))) ∧
       (¬ can → exec (.rpub d a b rlx eos) s = waitsFor s 8 key i)) ∧
     (y.toNat ≤ r.count →
       let can := y.toNat ≤ r.free ∧ t.ringTaken c n r false = false
       (can → exec (.wfree d a b) s = done (if s.seq.detm then y else BitVec.ofNat 64 r.free) t) ∧
       (¬ can → exec (.wfree d a b) s = waitsFor s 7 key y.toNat))) ∧
  (∀ (s : State) (d : Dst) (a b : Src) (c n : Nat) (r : Ring) (l : List Byte) (f : RstatWord) (t u : State),
     let x := srcVal s a
     let y := srcVal (srcPop s a) b
     let done (v : Word) (w : State) := ends s (lenOf [a, b]) (dstPut d v w)
     (operandsReady s [a, b] d = true → RingAt (eaPop s a b) x false false c n r t →
       (y.toNat < r.count →
         let j := add32 r.h y.toNat
         (r.eos = true → sub32 r.e r.h ≤ y.toNat → exec (.wfill d a b) s =
           done (if r.h = r.e then r.slotWord 1 r.e else r.slotWord 2 j) t) ∧
         let can := y.toNat < r.filled ∧ t.ringTaken c n r false = false
         ((r.eos = false ∨ y.toNat < sub32 r.e r.h) → can → exec (.wfill d a b) s = done (r.slotWord 0 j) t) ∧
         ((r.eos = false ∨ y.toNat < sub32 r.e r.h) → ¬ can → exec (.wfill d a b) s = waitsFor s 9 (16 * c + n) y.toNat)) ∧
       (y.toNat ≤ r.filled → t.ringTaken c n r false = false → s.releaseHeld .release .device = false → exec (.rcons d a b) s =
         done (BitVec.ofNat 64 (add32 r.h y.toNat)) (t.putRing c n { r with h := add32 r.h y.toNat })) ∧
       (y.toNat ≤ r.filled → (t.ringTaken c n r false = true ∨ s.releaseHeld .release .device = true) →
         exec (.rcons d a b) s = waits s) ∧
       (r.filled < y.toNat → exec (.rcons d a b) s = traps (s.after [a, b]) 0x002 y)) ∧
     (operandsReady s [a, b] d = true → RingAt (eaPop s a b) x false true c n r t → t.ringTaken c n r false = false →
       s.releaseHeld .acqRel .device = false →
       (fld y 0 16 ≠ 0 → fld y 16 16 = 0 → exec (.rerr d a b) s = done (BitVec.ofNat 64 r.state)
         (if r.state = 1 then t.putRing c n { r with state := 2, errcode := fld y 0 16, errindex := fld y 32 32 } else t)) ∧
       (r.state = 2 → fld y 32 32 = 0 → sub32 y.toNat r.h ≤ r.filled → exec (.rfix d a b) s =
         done (BitVec.ofNat 64 r.claimed)
           (t.putRing c n { r with h := fld y 0 32, t := r.f, errcode := 0, errindex := 0, state := 1 }))) ∧
     (operandsReady s [a, b] d = true → RingAt (eaPop s a b) x true true c n r t → r.state ≠ 1 →
       t.ringTaken c n r false = false → Reads t t.me .vector y 64 64 l u → s.releaseHeld .acqRel .device = false →
       let v : BitVec 512 := BitVec.ofNat 512 (ofBytes l)
       (ringAccepts v = true → exec (.rfixInit d a b) s = done 0 (u.changeRing c n v)) ∧
       (ringAccepts v = false → exec (.rfixInit d a b) s = traps (s.keep u.msys) 0x301 y)) ∧
     (operandsReady s [a] d = true → RingAt (srcPop s a) x true true c n r t →
       (s.seq.detm = false → exec (.rstat d a f) s = ends s (lenOf [a]) (dstPut d (r.stat f) t)) ∧
       (s.seq.detm = true → exec (.rstat d a f) s = traps (s.after [a]) 0x204 x)))

/-! ## Copy chains and storage (R353 to R362) -/

/-- CHAIN starts a walk on an idle channel, CWAIT and CSTAT give its status, and a record that is not the engine's own ends the
walk; a good record is written back, then its handle, its barrier and its flag follow, and the walk goes on (R355, R359,
R360). A fence ends a walk between records (R433), with cause 0, and a CHAIN of address 0 reads a record there: log 37's
choices. After a record's change of its handle the instructions that wait for the handle are attempted next (changeHandle), which
is that of log 63; that no record names another device is that of log 64. -/
def Obligations.CopyChannelsAndRecords : Prop :=
  (∀ (s : State) (d : Dst) (a b : Src) (f : Bool),
     (operandsReady s [a, b] .discard = true →
       let s2 := eaPop s a b
       let x := srcVal s a
       let y := srcVal (srcPop s a) b
       let n := y.toNat
       let free := ((s.core s.cur.core).chan n).busy = false ∧ s.firstFor 4 (4 * s.cur.core + n) = true
       (3 < n → exec (.chain a b) s = traps (s.after [a, b]) 0x002 y) ∧
       (n ≤ 3 → x.toNat % 128 ≠ 0 → exec (.chain a b) s = traps (s.after [a, b]) 0x103 x) ∧
       (n ≤ 3 → x.toNat % 128 = 0 → s.xformsOpen = true ∨ s.remoteOpenTo ownDevice = true → exec (.chain a b) s = waits s) ∧
       (n ≤ 3 → x.toNat % 128 = 0 → s.xformsOpen = false → s.remoteOpenTo ownDevice = false →
         (free → exec (.chain a b) s = ends s (lenOf [a, b]) (s2.modChan s.cur.core n fun c =>
           { c with work := none, busy := true, err := false, recAddr := x, next := x, by_ := some (.stream s.cur),
                    owner := s.seq.task, rcb := s.seq.trcb, det := s.seq.detm })) ∧
         (¬ free → exec (.chain a b) s = waitsFor s 4 (4 * s.cur.core + n) 0))) ∧
     (operandsReady s [a] d = true →
       let x := srcVal s a
       let c := (s.core s.cur.core).chan x.toNat
       (x.toNat ≤ 3 → c.busy = false → exec (.cwait d a) s = ends s (lenOf [a]) (dstPut d c.status (srcPop s a))) ∧
       (x.toNat ≤ 3 → c.busy = true → exec (.cwait d a) s = waits s) ∧
       (x.toNat ≤ 3 → (c.busy = false ∨ s.seq.detm = false) → exec (.cstat d a f) s = ends s (lenOf [a])
         (dstPut d (if f then BitVec.ofNat 64 c.cause else c.status) (srcPop s a))) ∧
       (x.toNat ≤ 3 → c.busy = true → s.seq.detm = true → exec (.cstat d a f) s = waits s) ∧
       (3 < x.toNat → exec (.cwait d a) s = traps (s.after [a]) 0x002 x ∧ exec (.cstat d a f) s = traps (s.after [a]) 0x002 x)) ∧
     (∀ (core k : Nat), k < 4 →
       let c := (s.core core).chan k
       let ag := s.unitAgent core c.rcb (5 + k) c.det c.owner
       (c.busy = false → exec (.copyRecord core k) s = .next s) ∧
       (∀ w, c.busy = true → c.work = some w → exec (.copyRecord core k) s = .next (workOn core k ag c.recAddr w s)) ∧
       (c.busy = true → c.work = none → s.fencedRcb c.rcb = true → exec (.copyRecord core k) s = .next (endWalk core k 0 s)) ∧
       (∀ (l : List Byte) (t : State), c.busy = true → c.work = none → s.fencedRcb c.rcb = false →
         attempt ag (load ag .engine c.next 128 128) (s.modChan core k fun z => { z with recAddr := z.next }) = .done l t →
         let r : CopyRec := BitVec.ofNat 1024 (ofBytes l)
         (crOwn r = false → exec (.copyRecord core k) s = .next (endWalk core k 0 t)) ∧
         (∀ w u, crOwn r = true → recBegin ag c.next r t = .done w u →
           exec (.copyRecord core k) s = .next (workOn core k ag c.next w u))))) ∧
  (∀ (ag : Agent) (at_ : Word) (w : RecWork) (l : List Byte) (s t u v : State) (fuel : Nat),
     let r := w.desc
     w.stage = .payload → w.pieces = [] →
     (w.cause ≠ 0 → recStep ag at_ w s = .more (w.fail w.cause) s) ∧
     (w.cause = 0 → crCchk r = true → w.crc ≠ crCrc r → recStep ag at_ w s = .more (w.fail 0x314) s) ∧
     (w.cause = 0 → (crCchk r = true → w.crc = crCrc r) →
       attempt ag (writeBack ag at_ r (if crCsum r && !crCchk r then some w.crc else none) 0 w.count) s = .done () t →
       let full := if crHandleValid r then t.changeHandle ag.core (crHandle r) (handleNext (t.handle ag.core (crHandle r)) .full) else t
       attempt ag (postBytes ag (crBar r) (crBcount r)) full = .done () u →
       let flag := store ag .scalar (crFlag r) (toBytes 8 (crFval r).toNat) 8
       (∀ z, crFlag r ≠ 0 → attempt ag flag u = .wait z → recRun ag at_ (fuel + 5) w s = .waits { w with stage := .flag } z) ∧
       ((crFlag r = 0 ∧ v = u ∨ crFlag r ≠ 0 ∧ attempt ag flag u = .done () v) →
         ∀ z, attempt ag (load ag .engine at_ 8 8) v = .done l z →
           recRun ag at_ (fuel + 6) w s = if ofBytes l = 0 then .stop 0 z else .next (wordOf l) z)))

/-- NVSUB copies a command into the submission queue and rings its doorbell, once its issuer's earlier accesses are done;
NVCPL reaps the entry whose phase matches, and stores it where it is told; both wait otherwise, in order of arrival, NVSUB.nb
giving 2^32 when the queue is full (R361, R362). -/
def Obligations.StorageQueues : Prop :=
  ∀ (s : State) (d : Dst) (a b : Src) (nb chk : Bool) (l : List Byte) (t u : State),
    operandsReady s [a, b] d = true →
    let s2 := eaPop s a b
    let x := srcVal s a
    let n := (srcVal (srcPop s a) b).toNat
    let p := s.pair n
    let done (v : Word) (w : State) := ends s (lenOf [a, b]) (dstPut d v w)
    (63 < n → exec (.nvsub d a b nb) s = traps (s.after [a, b]) 0x002 0 ∧ exec (.nvcpl d a b chk) s = traps (s.after [a, b]) 0x002 0) ∧
    (n ≤ 63 → (p.enabled = false ∨ p.tenant ≠ s2.me.tenant) →
      exec (.nvsub d a b nb) s = traps (s.after [a, b]) 0x390 (srcVal (srcPop s a) b) ∧
      exec (.nvcpl d a b chk) s = traps (s.after [a, b]) 0x390 (srcVal (srcPop s a) b)) ∧
    (n ≤ 63 → p.enabled = true → p.tenant = s2.me.tenant →
      let next := (p.sqtail + 1) % (p.sqsize + 1)
      (next ≠ p.sqhead → s.firstFor 5 (2 * n) = true → s.releaseHeld .release .system = false →
        Reads s2 s2.me .vector x 64 64 l t → Writes t s2.me .vector (p.sqbase + BitVec.ofNat 64 (64 * p.sqtail)) l 64 u →
        exec (.nvsub d a b nb) s = done (BitVec.ofNat 64 p.sqtail)
          ((u.setPair n { p with sqtail := next }).send (.pcieWrite p.sqdb.toNat (toBytes 4 next)))) ∧
      (next ≠ p.sqhead → s.firstFor 5 (2 * n) = false → exec (.nvsub d a b nb) s = waitsFor s 5 (2 * n) 0) ∧
      (next = p.sqhead → s.seq.detm = false → exec (.nvsub d a b true) s = done (2 ^ 32) s2) ∧
      (next = p.sqhead → (nb = false ∨ s.seq.detm = true) → exec (.nvsub d a b nb) s = waitsFor s 5 (2 * n) 0) ∧
      (let e (k : Nat) : Nat := ofBytes (l.drop (4 * k)) % 2 ^ 32
       let head := if p.cqhead + 1 = p.cqsize + 1 then 0 else p.cqhead + 1
       Reads s2 s2.me .vector (p.cqbase + BitVec.ofNat 64 (16 * p.cqhead)) 16 16 l t →
       (e 3 / 2 ^ 16 % 2 = p.phase → s.firstFor 5 (2 * n + 1) = true → (chk = true → e 3 / 2 ^ 17 = 0) →
        (x = 0 ∧ u = t ∨ x ≠ 0 ∧ Writes t s2.me .vector x l 16 u) →
        exec (.nvcpl d a b chk) s = done (BitVec.ofNat 64 (e 0 + e 3 * 2 ^ 32))
          ((u.setPair n { p with sqhead := ofBytes (l.drop 8) % 2 ^ 16, cqhead := head,
                                 phase := if p.cqhead + 1 = p.cqsize + 1 then 1 - p.phase else p.phase }).send
            (.pcieWrite p.cqdb.toNat (toBytes 4 head)))) ∧
       ((e 3 / 2 ^ 16 % 2 ≠ p.phase ∨ s.firstFor 5 (2 * n + 1) = false) →
        exec (.nvcpl d a b chk) s = waitsFor (s.keepWait t.msys) 5 (2 * n + 1) 0)))

/-! ## Tasks (R318 to R343) -/

/-- A post is accepted in its turn, waits in the order of arrival when the window has no room, and traps when its record
is malformed; a POSTR is sent behind its issuer's earlier writes at the target, its transform commands among them when that
is the own device, and an arriving one waits for its slot and is acknowledged (R300, R318, R326, R336, R337). That the acknowledgement of a refused or rejected one
leaves by the links of glade 0 (answer 0) is the choice of log 62: R337 names no link. -/
def Obligations.TaskPosts : Prop :=
  (∀ (s : State) (d : Dst) (a : Src) (nb : Bool) (r : TaskRec) (slot : Nat) (t : State),
    operandsReady s [a] d = true → RecordAt (srcPop s a) (srcVal s a) r t →
    let q := postReqOf s d a nb r
    (PostFits s r (srcVal s a) slot t → (t.nextPost s.homeGrove = none ∨ ∃ p, t.nextPost s.homeGrove = some p ∧
      p.poster = q.poster) → exec (.post d a nb) s = posted s d a nb r slot t) ∧
    (recMalformed r = true →
      exec (.post d a nb) s = .next ((takeSync s.cur 0x200 (srcVal s a) (dropGang s.taskNow (s.keep t.msys))).unwait s.cur)) ∧
    (recMalformed r = false → postFailure t s.homeGrove ((t.grove s.homeGrove).openGang s.taskNow) r (srcVal s a) = none →
      ((t.xformsOpen || t.remoteOpenTo ownDevice) = true → exec (.post d a nb) s = waits (s.keepWait t.msys)) ∧
      ((t.xformsOpen || t.remoteOpenTo ownDevice) = false →
        (t.windowFull s.homeGrove (recRcb r) = true ∨ (t.grove s.homeGrove).freeSlot false = none) →
        exec (.post d a nb) s = if nb && !s.seq.detm then ends s (lenOf [a]) (dstPut d (2 ^ 32) t)
          else .next (markBlocked none (joinWaiting s.homeGrove q (s.keepWait t.msys)))))) ∧
  (∀ (s : State) (g : Nat) (q : PostReq), s.nextPost g = some q →
    (∀ (st : Stream) (task : Option TaskRef) (nb : Bool) (d : Dst) (a : Src) (pc : Word) (r : TaskRec) (slot : Nat) (t : State),
      let v := { s with cur := st }
      q.poster = .stream st task nb d a pc → operandsReady v [a] d = true → RecordAt (srcPop v a) (srcVal v a) r t →
      PostFits v r (srcVal v a) slot t → exec (.postAccept g) s = posted v d a nb r slot t) ∧
    (∀ (slot : Nat), let v := leaveWaiting g q s
      q.poster.isLocal = false → v.active (recRcb q.record) = true → v.refuses q = false → postFailure v g none q.record q.addr = none →
      v.windowFull g (recRcb q.record) = false → (v.grove g).freeSlot true = some slot →
      exec (.postAccept g) s = .next (acceptPost g slot none q v))) ∧
  (∀ (s : State) (d : Dst) (a b : Src) (r : TaskRec) (t : State),
    operandsReady s [a, b, d.asSrc] .discard = true →
    let w := srcVal (srcPop s a) b
    let v := srcVal (eaPop s a b) d.asSrc
    let crec : Option Word := if d = .discard then none else some v
    let len := lenOf [a, b, d.asSrc]
    fld w 21 7 ≤ 95 → fld w 60 4 = 0 → v.toNat % 8 = 0 →
    RecordAt (srcPop (eaPop s a b) d.asSrc) (srcVal s a) r t →
    ((recMalformed r = true ∨ recGang r = true) → exec (.postr d a b) s = traps (s.keep t.msys) 0x200 (srcVal s a)) ∧
    (recMalformed r = false → recGang r = false →
      ((t.xformsOpen = true ∧ fld w 0 21 = ownDevice ∨ t.fabricFull t.seq.trcb = true) →
        exec (.postr d a b) s = waits (s.keepWait t.msys)) ∧
      ((t.xformsOpen = false ∨ fld w 0 21 ≠ ownDevice) → t.fabricFull t.seq.trcb = false →
        let u := jobCountBy t.seq.trcb true (chargeFabric t.seq.trcb true t)
        let m : RemotePost := { device := ownDevice, op := t.nextOp, grove := fld w 21 7, fkey := fld w 28 32, record := r }
        (∀ lk, u.linkFor u.cur.core (fld w 0 21) = some lk → exec (.postr d a b) s = ends s len
          (issued u (u.openWrites (· == fld w 0 21)) lk 5 (.post (u.opOwner lk) (fld w 0 21) crec m u.timer false)
            (.post (fld w 0 21) m))) ∧
        (u.linkFor u.cur.core (fld w 0 21) = none → exec (.postr d a b) s = ends s len
          (endPost (u.opOwner none) crec (postWord 0 4 0x380) u))))) ∧
  (∀ (s : State) (m : RemotePost), exec (.remotePostReceive m) s = .next
    (if s.resetting (recRcb m.record) = true then answer 0 m.device 5 (.postAck m.device m.op (postWord 0 2 0)) s
      else if s.keyOk (recRcb m.record) m.fkey ∧ m.grove < 96 then s.modGrove m.grove fun g =>
        { g with waiting := g.waiting ++ [{ record := m.record, addr := 0, poster := .remote m.device m.op }] }
      else answer 0 m.device 5 (.postAck m.device m.op (postWord 0 3 0x104)) s)) ∧
  (∀ (s : State) (op : Nat) (word : Word) (o : OpOwner) (target : Nat) (crec : Option Word) (m : RemotePost) (at_ : Word) (f : Bool),
    Tab.find s.remote op = some (.post o target crec m at_ f) →
    exec (.postrAck op word) s = .next (if o.det = true ∧ fld word 32 8 = 2
      then { s with remote := Tab.put s.remote op (.post o target crec m at_ true) } else endPost o crec word (dropOp op s)) ∧
    (f = true → s.resendDue at_ = false → exec (.postrResend op) s = .next s) ∧
    (f = true → s.resendDue at_ = true → exec (.postrResend op) s = .next (match s.linkFor o.core target with
      | some l => transmit l 5 (.post target m)
          { s with remote := Tab.put s.remote op (.post { o with link := l } target crec m s.timer false) }
      | none => endPost o crec (postWord 0 4 0x380) (dropOp op s))))

/-- TWAIT tells whether a task is live, has retired or was removed, or waits for it; PREDWAIT waits for an early task's
predecessors; HINTSUCC marks the task; TEND ends it once its own work is done (R338 to R341). -/
def Obligations.TaskWaitsAndEnd : Prop :=
  (∀ (s : State) (d : Dst) (a : Src) (nb : Bool), operandsReady s [a] d = true →
    let home := s.homeGrove
    let g := s.grove home
    let p := (srcVal s a).toNat % 2 ^ 32
    let done (v : Word) := ends s (lenOf [a]) (dstPut d v (srcPop s a))
    (∀ removed, g.liveSeq p = none → s.seq.twait = some (home, p, removed) →
      exec (.twait d a nb) s = done (if removed then 2 else 0)) ∧
    (g.liveSeq p = none → (∀ removed, s.seq.twait ≠ some (home, p, removed)) →
      (g.ageOf p = .done → exec (.twait d a nb) s = done 0) ∧
      (g.ageOf p = .stale → exec (.twait d a nb) s = traps (s.after [a]) 0x205 (BitVec.ofNat 64 p)) ∧
      (g.ageOf p = .future → exec (.twait d a nb) s = traps (s.after [a]) 0x002 (BitVec.ofNat 64 p))) ∧
    (∀ (slot : Nat) (e : Entry), g.liveSeq p = some slot → g.entry slot = some e →
      let own := match s.seq.task with | some t => t.slot | none => 256
      ((slot = own ∨ bit e.anc own = true) → exec (.twait d a nb) s = traps (s.after [a]) 0x20A 0) ∧
      (slot ≠ own → bit e.anc own = false → exec (.twait d a nb) s = if nb && !s.seq.detm then done 1
        else .next (markBlocked none (s.modSeq s.cur fun r => { r with twait := some (home, p, false) }))))) ∧
  (∀ (s : State),
    ((∀ e, s.ownEntry = some e → e.early = false ∨ e.edges = 0) → exec .predwait s = ends s 4 s) ∧
    ((∃ e, s.ownEntry = some e ∧ e.early = true ∧ e.edges ≠ 0) → exec .predwait s = waits s) ∧
    (∀ t, s.seq.task = some t → exec .hintsucc s = ends s 4 (s.modEntry t fun e => { e with hint := true })) ∧
    (s.tendWaits = true → exec .tend s = waits s) ∧
    (s.tendWaits = false → s.tendTrap = none → exec .tend s = .next ((endTask s).unwait s.cur)) ∧
    (∀ t u, s.tendWaits = false → s.tendTrap = some (t, u) →
      exec .tend s = .next ((takeTrap s.cur.pipe t.info u).unwait s.cur)))

/-- REGDEF enters a checked descriptor in the region table and charges its HBM units; REGDROP removes it when no live box
is bound to it, and waits while one is. With it the bindings to the region in the sync objects of the device end: R417, as
log 40 reads it (R313 to R315, R342, R343). -/
def Obligations.RegionInstructions : Prop :=
  (∀ (s : State) (d : Dst) (a : Src) (l : List Byte) (t : State),
    operandsReady s [a] d = true → Reads (srcPop s a) (srcPop s a).me .vector (srcVal s a) 64 64 l t →
    let raw : RegDesc := BitVec.ofNat 512 (ofBytes l)
    let home := s.homeGrove
    let r := resolveSelf s.cur.core raw
    let new : Region := { desc := r, tenant := (srcPop s a).me.tenant, rcb := (srcPop s a).me.rcb, current := 0 }
    let w := regionWindow new home
    (rdMalformed raw = true → exec (.regdef d a) s = traps (s.keep t.msys) 0x201 (srcVal s a)) ∧
    (rdMalformed raw = false → (rdSpace raw ≠ 2 → rdCore raw = 16 → home = groveOf s.cur.core) →
      (((t.grove home).region (rdId r)).isSome = true →
        exec (.regdef d a) s = traps (s.keep t.msys) 0x209 (BitVec.ofNat 64 (rdId r))) ∧
      ((t.grove home).region (rdId r) = none →
        (rdSpace r ≠ 2 → gapIn (t.tenant new.tenant).ocw (w + (rdSpan r).1.toNat) ((rdSpan r).2 - (rdSpan r).1).toNat = none) →
        ((t.grove home).regions.find? fun e => regionsConflict home new e.2) = none →
        t.levelOf new.rcb (fun k => k.hbm != 0 && decide (k.hbm < k.useHbm + regionUnits r)) = none →
        exec (.regdef d a) s = ends s (lenOf [a]) (dstPut d (BitVec.ofNat 64 (rdVsize r))
          ((t.modGrove home fun k => { k with regions := Tab.put k.regions (rdId r) new }).modChain new.rcb
            fun k => { k with useHbm := k.useHbm + regionUnits r }))))) ∧
  (∀ (s : State) (a : Src), operandsReady s [a] .discard = true →
    let id := (srcVal s a).toNat
    let home := s.homeGrove
    (127 < id → exec (.regdrop a) s = traps (s.after [a]) 0x002 (srcVal s a)) ∧
    (id ≤ 127 → (s.grove home).region id = none → exec (.regdrop a) s = traps (s.after [a]) 0x202 (srcVal s a)) ∧
    (∀ r, id ≤ 127 → (s.grove home).region id = some r → r.tenant = (srcPop s a).me.tenant →
      (∀ e, s.ownEntry = some e → ∀ b ∈ recBoxes e.record, b.region ≠ id) →
      ((∀ p ∈ (s.grove home).liveBoxes, p.1.region ≠ id) → exec (.regdrop a) s = ends s (lenOf [a])
        (dropBindings home id (((srcPop s a).modGrove home fun k => { k with regions := Tab.del k.regions id }).modChain r.rcb
          fun k => { k with useHbm := k.useHbm - regionUnits r.desc }))) ∧
      ((∃ p ∈ (s.grove home).liveBoxes, p.1.region = id) → exec (.regdrop a) s = .next (markBlocked none
        (s.modSeq s.cur fun q => { q with dropping := some (home, id) })))))

/-! ## Events of the canopy (R20, R23, R327 to R333, R340) -/

/-- The end of a check binds and links the entry, gives it its state and tells its poster; a retiring task leaves the
window, one of a gang with all its members; edges resolve; hints are looked at; an idle engine draws in its own grove, then
takes a task from another. That versions, edges and ancestors are fixed at the end of the check is the choice of log 63. -/
def Obligations.WindowEvents : Prop :=
  (∀ (s t : State) (g slot : Nat) (rest : List Nat) (e : Entry), (s.grove g).checks = slot :: rest →
    (s.grove g).entry slot = some e → t = tellPoster g e.poster e.postSeq s →
    let k := Grove.bindEntry s slot e { t.grove g with checks := rest }
    exec (.postCheckEnd g) s = .next ((k.members slot).foldl (fun u m => reexamine g m.1 u)
      (t.setGrove g (k.modEntry slot fun x => { x with state := k.stateNow s slot x })))) ∧
  (∀ (s : State) (g slot : Nat) (e : Entry), (s.grove g).entry slot = some e → e.gang = none →
    (e.state = .retiring → e.edges = 0 → s.workDone ⟨g, slot⟩ = true →
      exec (.taskRetire g slot) s = .next (freeEntry g slot s)) ∧
    ((e.state ≠ .retiring ∨ e.edges ≠ 0 ∨ s.workDone ⟨g, slot⟩ = false) → exec (.taskRetire g slot) s = .next s)) ∧
  (∀ (s : State) (g slot : Nat) (e : Entry) (f : Nat), (s.grove g).entry slot = some e → e.gang = some f →
    let ms := (s.grove g).window.filter fun m => m.2.gang == some f
    ((∀ m ∈ ms, m.2.state = .retiring ∧ m.2.edges = 0 ∧ s.workDone ⟨g, m.1⟩ = true) → exec (.taskRetire g slot) s =
      .next (ms.foldl (fun u m => freeEntry g m.1 (freeReserved ⟨g, m.1⟩ m.2 u)) s)) ∧
    ((∃ m ∈ ms, m.2.state ≠ .retiring ∨ m.2.edges ≠ 0 ∨ s.workDone ⟨g, m.1⟩ = false) →
      exec (.taskRetire g slot) s = .next s)) ∧
  (∀ (s : State) (g slot : Nat) (r : Nat × List Nat), (s.grove g).resolves.find? (fun r => r.1 == slot) = some r →
    exec (.edgeResolve g slot) s = .next (r.2.foldl (fun u n => reexamine g n (u.modGrove g fun k =>
        k.modEntry n fun e => { e with edges := e.edges &&& ~~~(slotBit slot) }))
      (s.setGrove g { s.grove g with resolves := (s.grove g).resolves.erase r }))) ∧
  (∀ (s : State) (g slot : Nat), exec (.successorReexamine g slot) s = .next
    (((s.grove g).window.filter fun e => bit e.2.edges slot).foldl (fun u e =>
      ((u.grove g).members e.1).foldl (fun v m => reexamine g m.1 v) u) s)) ∧
  (∀ (s u : State) (core engine : Nat) (e : Nat × Entry), s.overtemp = false →
    let g := groveOf core
    let l := s.ownEligible core engine
    ((s.drawers g).head? = some (core, engine) → (s.grove g).stopped = false → drawEntry s g l = some (e, u) →
      exec (.lotteryDraw core engine) s = .next (releaseEntry g e.1 core engine 0 u)) ∧
    ((s.drawers g).head? ≠ some (core, engine) → exec (.lotteryDraw core engine) s = .next s) ∧
    (∀ (how h : Nat) (before after : List (Nat × Nat)), s.engineIdle core engine = true →
      ((s.grove g).stopped = true ∨ l = []) → probes core = before ++ (how, h) :: after →
      (∀ p ∈ before, ((s.grove p.2).window.filter fun e => s.stealable p.2 core engine (p.1 == 2) e.2) = []) →
      let m := (s.grove h).window.filter fun e => s.stealable h core engine (how == 2) e.2
      (s.grove h).stopped = false → m ≠ [] → drawEntry s h m = some (e, u) →
      exec (.taskSteal core engine) s = .next (releaseEntry h e.1 core engine how u)))

/-! ## Remote memory (R370 to R377) -/

/-- RSTF, RLDF, RCHAIN and RMCR read and check their descriptor, read what they send, and leave by the link to their
target, or end at once when it cannot be reached; they wait for the issuer's transform commands, and a pending remote fault is
delivered in their place (R300, R371 to R377). What an access waits for before it is sent (sendBehind) is the choice of log 55,
the link by which RMCR reaches its panel switch (switchOf) that of log 41. -/
def Obligations.RemoteInstructions : Prop :=
  (∀ (s : State) (a b : Src) (set : Bool) (m : MemDesc) (t : State),
    noRemoteFault s → operandsReady s [a, b] .discard = true →
    let x := srcVal s a
    let w := srcVal (srcPop s a) b
    let v := eaPop s a b
    let dev := dwDevice w
    (∃ l, Reads v v.me .vector x 64 64 l t ∧ m = BitVec.ofNat 512 (ofBytes l)) → dwRoute w = false →
    (mdLaddr m).toNat % 8 = 0 → fld m 160 32 = 0 → fld m 384 128 = 0 → lengthOk (mdLength m) = true →
    (mdRaddr m).toNat % 8 = 0 → (mdCrec m).toNat % 16 = 0 →
    let acc (u : State) (k : RemKind) (data : List Byte) : RemoteAccess :=
      { device := ownDevice, op := u.nextOp, kind := k, dest := w, raddr := mdRaddr m, data := data, length := mdLength m,
        rflag := mdFlag m, finc := mdFinc m, set := set, peers := [], index := 0 }
    s.xformsOpen = false →
    (∀ data u, remoteRead v.me (mdLaddr m) (mdLength m) t = .ok (data, u) →
      (∀ lk, u.linkFor u.cur.core dev = some lk → exec (.rstf a b set) s = ends s (lenOf [a, b])
        (issued u (u.sendBehind [dev] [(dev, mdFlag m)] set) lk 1
          (.store (u.opOwner lk) [(dev, mdRaddr m, mdFlag m)] (mdCrec m) (mdLength m)) (.access dev (acc u .store data)))) ∧
      (u.linkFor u.cur.core dev = none → exec (.rstf a b set) s = ends s (lenOf [a, b])
        (reportOp (u.opOwner none) (mdCrec m) dev (mdRaddr m) 0 0 4 0x380 0 u))) ∧
    (∀ u, remoteProbe v.me (mdLaddr m) (mdLength m) t = .ok ((), u) →
      (∀ lk, u.linkFor u.cur.core dev = some lk → exec (.rldf a b set) s = ends s (lenOf [a, b])
        (issued u (u.sendBehind [dev] [(dev, mdFlag m)] set) lk 1
          (.load (u.opOwner lk) dev (mdCrec m) (mdRaddr m) (mdLaddr m) (mdLength m) (mdFlag m))
          (.access dev (acc u .load [])))) ∧
      (u.linkFor u.cur.core dev = none → exec (.rldf a b set) s = ends s (lenOf [a, b])
        (reportOp (u.opOwner none) (mdCrec m) dev (mdRaddr m) 0 0 4 0x380 0 u)))) ∧
  (∀ (s : State) (a : Src) (m : ChainDesc) (t u : State) (data : List Byte),
    noRemoteFault s → operandsReady s [a] .discard = true → s.xformsOpen = false →
    let v := srcPop s a
    let p := cdPeer m 0
    let dev := dwDevice p.1
    (∃ l, Reads v v.me .vector (srcVal s a) 256 256 l t ∧ m = BitVec.ofNat 2048 (ofBytes l)) →
    (cdLaddr m).toNat % 8 = 0 → cdMalformed m = false → (∀ q ∈ cdPeers m, dwRoute q.1 = false) → (cdCrec m).toNat % 16 = 0 →
    remoteRead v.me (cdLaddr m) (cdLength m) t = .ok (data, u) →
    let ts := (cdPeers m).map fun q => (dwDevice q.1, q.2.1, q.2.2)
    let after := u.sendBehind (ts.map (·.1)) ((cdPeers m).map fun q => (dwDevice q.1, q.2.2)) false
    (u.linkFor u.cur.core dev = none → exec (.rchain a) s = ends s (lenOf [a])
      (reportOp (u.opOwner none) (cdCrec m) dev p.2.1 0 0 4 0x380 0 u)) ∧
    ∀ lk, u.linkFor u.cur.core dev = some lk → exec (.rchain a) s = ends s (lenOf [a])
      (issued u after lk 1 (.store (u.opOwner lk) ts (cdCrec m) (cdLength m))
        (.access dev { device := ownDevice, op := u.nextOp, kind := .chain, dest := p.1, raddr := p.2.1, data := data, length := cdLength m, rflag := p.2.2, finc := cdFinc m, set := false, peers := (cdPeers m).drop 1, index := 0 }))) ∧
  (∀ (s : State) (a b : Src) (m : MemDesc) (t u w : State) (data : List Byte),
    noRemoteFault s → operandsReady s [a, b] .discard = true → s.xformsOpen = false →
    let v := eaPop s a b
    let g := srcVal (srcPop s a) b
    (∃ l, Reads v v.me .vector (srcVal s a) 64 64 l t ∧ m = BitVec.ofNat 512 (ofBytes l)) → g.toNat < 4096 →
    (fld m 0 64) % 8 = 0 → fld m 64 64 % 8 = 0 → fld m 160 2 ≠ 3 → fld m 162 30 = 0 → fld m 384 128 = 0 →
    lengthOk (mdLength m) = true → (mdFlag m).toNat % 8 = 0 → (mdCrec m).toNat % 16 = 0 →
    remoteRead v.me (BitVec.ofNat 64 (fld m 0 64)) (mdLength m) t = .ok (data, u) →
    remoteProbe v.me (BitVec.ofNat 64 (fld m 64 64)) (mdLength m) u = .ok ((), w) →
    (w.linkFor w.cur.core (switchOf g.toNat) = none → exec (.rmcr a b) s = ends s (lenOf [a, b])
      (reportOp (w.opOwner none) (mdCrec m) 0 (BitVec.ofNat 64 (fld m 64 64)) 0 0 4 0x380 0 w)) ∧
    ∀ lk, w.linkFor w.cur.core (switchOf g.toNat) = some lk → exec (.rmcr a b) s = ends s (lenOf [a, b])
      (issued w [] lk 1 (.rmcr (w.opOwner lk) (mdCrec m) (BitVec.ofNat 64 (fld m 64 64)) (mdLength m) (mdFlag m) (mdFinc m))
        (.rmcr { op := w.nextOp, group := g.toNat, fmt := fld m 160 2, data := data }))) ∧
  (∀ (s : State) (a b : Src) (set : Bool), noRemoteFault s → s.xformsOpen = true →
    (operandsReady s [a, b] .discard = true → exec (.rstf a b set) s = waits s ∧ exec (.rldf a b set) s = waits s ∧
      exec (.rmcr a b) s = waits s) ∧
    (operandsReady s [a] .discard = true → exec (.rchain a) s = waits s)) ∧
  (∀ (s : State) (d : Dst) (a b : Src) (f : Bool) (g : BstatWord) (t : DefTrap), s.remoteFault s.cur = some t →
    s.seq.handler = false →
    let o : Host.Outcome State Fault Refusal := .next ((takeTrap s.cur.pipe t.info (dropRemote s.cur s)).unwait s.cur)
    exec (.rstf a b f) s = o ∧ exec (.rldf a b f) s = o ∧ exec (.rchain a) s = o ∧ exec (.rmcr a b) s = o ∧
      exec (.bsend d a b f) s = o ∧ exec (.brecv d a f) s = o ∧ exec (.bstat d a g) s = o)

/-- An access arrives: it waits behind an earlier one that it meets, else its key is checked, its data moves, its flag
follows, and it is answered, or a chain goes on; the answer ends the operation at the sender with its record (R307, R370,
R371, R373 to R377). Log entries state the model's choices: an access waits behind those that it meets (log 55), the record of a
chain names the device of the peer that failed (log 42), and answers and forwards leave by the links of glade 0 (log 62). -/
def Obligations.RemoteArrivals : Prop :=
  (∀ (s : State) (m : RemoteAccess),
    let ag := s.remoteAgent (dwRcb m.dest)
    (s.behindHeld m = true → exec (.remoteAccessReceive m) s = .next { s with held := s.held ++ [.access m] }) ∧
    (s.behindHeld m = false → s.keyOk (dwRcb m.dest) (dwKey m.dest) = false →
      exec (.remoteAccessReceive m) s = .next (answerAccess m 3 0x104 [] s)) ∧
    (∀ t u, s.behindHeld m = false → s.keyOk (dwRcb m.dest) (dwKey m.dest) = true → m.kind ≠ .load →
      attempt ag (remoteWrite ag m.raddr m.data) s = .done () t → attempt ag (flagOp ag true m.rflag m.finc m.set) t = .done () u →
      ((m.kind = .store ∨ m.peers = []) → exec (.remoteAccessReceive m) s = .next (answerAccess m 0 0 [] u)) ∧
      (∀ p rest, m.kind = .chain → m.peers = p :: rest → exec (.remoteAccessReceive m) s = .next { u with forwards := u.forwards ++
        [{ m with dest := p.1, raddr := p.2.1, rflag := p.2.2, peers := rest, index := m.index + 1 }] })) ∧
    (∀ l t u, s.behindHeld m = false → s.keyOk (dwRcb m.dest) (dwKey m.dest) = true → m.kind = .load →
      attempt ag (remoteRead ag m.raddr m.length) s = .done l t → attempt ag (flagOp ag true m.rflag m.finc m.set) t = .done () u →
      exec (.remoteAccessReceive m) s = .next (answerAccess m 0 0 l u)) ∧
    (∀ lk, m ∈ s.forwards →
      let s1 := { s with forwards := s.forwards.erase m }
      s1.linkFor 0 (dwDevice m.dest) = some lk →
      exec (.rchainForward m) s = .next (transmit lk 1 (.access (dwDevice m.dest) m) s1))) ∧
  (∀ (s : State) (op status cause index : Nat) (data : List Byte),
    (∀ o ts crec n, Tab.find s.remote op = some (.store o ts crec n) →
      let p := ts.getD index (0, 0, 0)
      exec (.remoteAck op status cause index data) s = .next
        (reportOp o crec p.1 p.2.1 0 (if status = 0 then n else 0) status cause index (dropOp op s))) ∧
    (∀ o target crec raddr laddr n f, Tab.find s.remote op = some (.load o target crec raddr laddr n f) →
      (status ≠ 0 → exec (.remoteAck op status cause index data) s = .next
        (reportOp o crec target raddr 0 0 status cause 0 (dropOp op s))) ∧
      (∀ t, status = 0 → attempt o.agent (remoteWrite o.agent laddr (fitTo n data)) s = .done () t →
        exec (.remoteAck op status cause index data) s = .next (reportOp o crec target raddr 0 n 0 0 0 (dropOp op t)))) ∧
    (∀ o crec daddr n flag finc, Tab.find s.remote op = some (.rmcr o crec daddr n flag finc) →
      (status ≠ 0 → exec (.rmcrDelivery op status cause data) s = .next
        (reportOp o crec 0 daddr 0 0 status cause 0 (dropOp op s))) ∧
      (∀ t, status = 0 → attempt o.agent (remoteWrite o.agent daddr (fitTo n data) >>= fun _ =>
          flagOp o.agent false flag finc false) s = .done () t →
        exec (.rmcrDelivery op status cause data) s = .next (reportOp o crec 0 daddr 0 n 0 0 0 (dropOp op t)))))

/-! ## Pull transfers (R378 to R391) -/

/-- BSEND numbers a message and sends its request, BSTAT reads the state of a message, of the scheduler and of a receive; the
sender answers tokens with data, ends a message with its record, and sends a refused one again (R334, R378, R385, R389, R390).
Which free number a message takes is left open (log 12); BSTAT traps in deterministic mode before its operand is checked
(log 24). -/
def Obligations.PullSender : Prop :=
  (∀ (s : State) (d : Dst) (a b : Src) (nb : Bool) (m : MsgDesc) (t : State),
    noRemoteFault s → operandsReady s [a, b] d = true →
    let v := eaPop s a b
    let w := srcVal (srcPop s a) b
    (∃ l, Reads v v.me .vector (srcVal s a) 64 64 l t ∧ m = BitVec.ofNat 512 (ofBytes l)) →
    fld m 104 24 = 0 → fld m 162 30 = 0 → fld m 256 256 = 0 → (bdCrec m).toNat % 16 = 0 →
    ∀ (dest : Word) (tag : Nat), (dwRoute w = false ∧ dest = w ∧ tag = 0 ∨
      dwRoute w = true ∧ fld w 12 51 = 0 ∧ bit (Tab.get 0 t.route (fld w 0 12)) 96 = true ∧
        dest = BitVec.ofNat 64 (fld (Tab.get 0 t.route (fld w 0 12)) 0 64) ∧
        tag = fld (Tab.get 0 t.route (fld w 0 12)) 64 32) →
    (t.fabricFull t.seq.trcb = true → exec (.bsend d a b nb) s = waits (s.keepWait t.msys)) ∧
    (t.fabricFull t.seq.trcb = false → t.sends.length < 1024 →
      let id := t.freeMsg
      let u := chargeFabric t.seq.trcb true t
      let msg (lk : Option Nat) : Send :=
        { owner := { t.opOwner none with link := lk }, dest := dest, laddr := bdAddr m, length := bdLength m,
          tag := (tag + bdTag m) % 2 ^ 32, cls := bdCls m, crec := bdCrec m, state := 1, sent := 0, pfxEnd := 0,
          asked := false, sentAt := t.timer, refused := false, tokens := [] }
      exec (.bsend d a b nb) s = ends s (lenOf [a, b]) (dstPut d (BitVec.ofNat 64 id)
        (match u.linkFor u.cur.core (dwDevice dest) with
          | some lk => sendRequest id (msg lk) u
          | none => endSend id (msg none) 0 4 0x380 u))) ∧
    (t.fabricFull t.seq.trcb = false → 1024 ≤ t.sends.length → exec (.bsend d a b nb) s =
      if nb && !s.seq.detm then ends s (lenOf [a, b]) (dstPut d (2 ^ 32) t) else waits (s.keepWait t.msys))) ∧
  (∀ (s : State) (d : Dst) (a : Src) (f : BstatWord), noRemoteFault s → operandsReady s [a] d = true →
    let x := srcVal s a
    (s.seq.detm = true → exec (.bstat d a f) s = traps (s.after [a]) 0x204 0) ∧
    (s.seq.detm = false → x.toNat < 2 ^ 32 →
      exec (.bstat d a .send) s = ends s (lenOf [a]) (dstPut d (BitVec.ofNat 64 (match s.sendOf x.toNat with
        | some m => m.state + m.sent % 2 ^ 40 * 2 ^ 8 | none => 0)) (srcPop s a)) ∧
      (x = 0 → exec (.bstat d a .sched) s = ends s (lenOf [a]) (dstPut d
        (BitVec.ofNat 64 (s.reqs.length + s.holders.length * 2 ^ 13 + s.tokensOut * 2 ^ 18)) (srcPop s a))) ∧
      exec (.bstat d a .recv) s = ends s (lenOf [a]) (dstPut d
        (BitVec.ofNat 64 (match (Tab.find s.recvs x.toNat).bind fun v => v.req.bind fun p => s.req p.1 p.2 with
          | some r => r.state + r.expiries * 2 ^ 4 + r.received % 2 ^ 40 * 2 ^ 8
          | none => 0)) (srcPop s a)))) ∧
  (∀ (s u : State) (tok : Token) (x : Send) (l : List Byte), s.sendOf tok.id = some x → (x.state = 2 ∨ x.state = 3) →
    tok.offset + tok.count ≤ x.length →
    let v := s.setSend tok.id { x with state := 3, tokens := x.tokens ++ [tok] }
    (Arrival.tokens tok.id ∈ s.held → exec (.pullTokenReceive tok) s = .next v) ∧
    (Arrival.tokens tok.id ∉ s.held → x.tokens = [] → attempt x.owner.agent (loadRange x.owner.agent .engine
        (x.laddr + BitVec.ofNat 64 tok.offset) tok.count) v = .done l u →
      exec (.pullTokenReceive tok) s = .next (transmit x.owner.link 4 (.data (dwDevice x.dest) tok l)
        (u.setSend tok.id { x with state := 2, sent := x.sent + tok.count, tokens := [] })))) ∧
  (∀ (s : State) (id status cause : Nat) (x : Send), s.sendOf id = some x →
    ((x.owner.det = false ∨ status ≠ 2) → exec (.pullCompleteNotice id status cause) s = .next
      (endSend id x (if status = 0 then x.length else x.sent) status cause s)) ∧
    (x.owner.det = true → status = 2 →
      exec (.pullCompleteNotice id status cause) s = .next (s.setSend id { x with refused := true })) ∧
    exec (.bsendResend id) s = .next (if x.refused = true ∧ x.state = 2 ∧ s.resendDue x.sentAt = true
      then sendRequest id { x with refused := false } s else s))

/-- BRECV posts a receive; a request that arrives is checked, then matched, held or refused; tokens are granted to the request
that ranks first, data of outstanding tokens alone is taken, tokens expire, requests are given up, suspended and resumed
(R370, R380 to R383, R386 to R388, R434). A free receive number is left open (log 12); token offsets count from the end of the
prefix, data comes in order, and a suspension keeps lifetimes as log 43 reads the rules; log 56 states what an unmatched request
does when it is suspended and resumed. That the notices of a request that is rejected or refused on arrival leave by the links
of glade 0 (noticeTo 0) is the choice of log 62. -/
def Obligations.PullReceiver : Prop :=
  ((∀ (s : State) (d : Dst) (a : Src) (nb : Bool) (m : MsgDesc) (t : State),
     noRemoteFault s → operandsReady s [a] d = true →
     let v := srcPop s a
     (∃ l, Reads v v.me .vector (srcVal s a) 64 64 l t ∧ m = BitVec.ofNat 512 (ofBytes l)) →
     fld m 104 24 = 0 → fld m 256 256 = 0 → bdCrec m ≠ 0 → (bdCrec m).toNat % 16 = 0 →
     (t.freeRecv = none → exec (.brecv d a nb) s =
       if nb && !s.seq.detm then ends s (lenOf [a]) (dstPut d (2 ^ 32) t) else waits (s.keepWait t.msys)) ∧
     (∀ n, t.freeRecv = some n →
       let r : Recv :=
         { buf := bdAddr m, cap := bdLength m, tag := bdTag m, tmask := bdMask m, crec := bdCrec m, rcb := v.me.rcb,
           order := t.nextOrder, core := v.me.core, req := none }
       let u := { t with recvs := Tab.put t.recvs n r, nextOrder := t.nextOrder + 1 }
       exec (.brecv d a nb) s = ends s (lenOf [a]) (dstPut d (BitVec.ofNat 64 n)
         (match oldestBy Req.order (u.reqs.filter fun q => q.state == 1 && matchesRecv q.rcb q.tag r) with
           | some q => matchReq q.device q.id n [] u
           | none => u)))) ∧
   (∀ (s : State) (m : PullRequest),
     (s.keyOk m.rcb m.fkey = false → exec (.pullRequestArrive m) s = .next (noticeTo 0 m.device m.id 3 0x104 s)) ∧
     (s.keyOk m.rcb m.fkey = true → 4096 ≤ s.reqs.length →
       exec (.pullRequestArrive m) s = .next (noticeTo 0 m.device m.id 2 0 s)) ∧
     (s.keyOk m.rcb m.fkey = true → s.reqs.length < 4096 →
       ∃ (r : Req) (u : State), u = { s with reqs := s.reqs ++ [r], nextOrder := s.nextOrder + 1 } ∧
         r.device = m.device ∧ r.id = m.id ∧ r.rcb = m.rcb ∧ r.length = m.length ∧ r.tag = m.tag ∧ r.cls = m.cls ∧
         r.order = s.nextOrder ∧ r.state = 1 ∧ r.recv = none ∧ r.tokens = [] ∧
         exec (.pullRequestArrive m) s = .next
           (match oldestBy (fun e => e.2.order) (s.recvs.filter fun e => matchesRecv m.rcb m.tag e.2) with
             | some e => matchReq m.device m.id e.1 m.pfx u
             | none => u)))) ∧
  ((∀ (s : State) (r : Req),
     let hs := s.holders
     s.tokensOut < 64 →
     firstReq (s.reqs.filter fun r => r.candidate && !s.prefixHeld r &&
       (hs.contains r.device || decide (hs.length < 16))) = some r →
     let o := r.grantAt
     let n := min 8192 (r.length - o)
     let g := Tab.get 0 r.gens o
     let fresh := r.received = 0 ∧ r.tokens = [] ∧ r.lapsed = []
     let r1 : Req := { r with
       tokens := r.tokens ++ [⟨o, n, g, 0, s.timer - BitVec.ofNat 64 (8000 - Tab.get 8000 r.lives o)⟩]
       lives := Tab.set 8000 r.lives o 8000, lapsed := r.lapsed.erase o, next := if r.lapsed = [] then o + n else r.next
       state := if r.state = 4 then 4 else 3, lastData := if fresh then s.timer else r.lastData }
     let core := match r.recv.bind (Tab.find s.recvs) with
       | some v => v.core
       | none => 0
     exec .tokenGrant s = .next (answer core r.device 3 (.token r.device ⟨r.device, r.id, o, n, g⟩)
       (s.modReq r.device r.id fun _ => r1))) ∧
   (∀ (s : State) (t : Token) (start : Nat) (data : List Byte) (r : Req),
     (s.req t.device t.id = none → exec (.pullDataArrive t start data) s = .next (count 0 0xC2 1 s)) ∧
     (∀ g n v u, s.req t.device t.id = some r → r.token t.offset t.gen = some g → r.recv = some n →
       Tab.find s.recvs n = some v → g.got = start → start + data.length ≤ g.count →
       attempt (s.recvAgent v) (storeRange (s.recvAgent v) .engine (v.buf + BitVec.ofNat 64 (t.offset + start)) data) s
         = .done () u →
       exec (.pullDataArrive t start data) s = .next
         (finishIfDone t.device t.id (u.modReq t.device t.id fun r => r.took g data.length u.timer)))) ∧
   (∀ (s : State) (device id offset : Nat) (r : Req) (g : Granted), s.req device id = some r →
     (r.tokens.find? fun g => g.offset == offset && g.got == 0 && decide (8000 ≤ (s.timer - g.at_).toNat)) = some g →
     let n := min 3 (r.expiries + 1)
     let u := count 0 0xC4 1 (s.modReq device id fun _ =>
       { r.lapse g with expiries := n, state := if n = 3 then 4 else r.state })
     exec (.tokenExpiry device id offset) s = .next
       (if n = 3 ∧ r.state ≠ 4 then event 0x382 r.rcb 0 10 (BitVec.ofNat 64 id) u else u)) ∧
   (∀ (s : State) (device id n : Nat) (r : Req) (v : Recv), s.req device id = some r → r.recv = some n →
     Tab.find s.recvs n = some v → (r.state = 3 ∨ r.state = 4) → (r.tokens ≠ [] ∨ r.lapsed ≠ []) →
     256000 ≤ (s.timer - r.lastData).toNat →
     exec (.orphaned device id) s = .next
       (noticeTo v.core device id 5 0 (event 0x381 r.rcb v.core 10 (BitVec.ofNat 64 id) (closeReq device id 7 s)))) ∧
   (∀ (s : State) (device id offset rcb : Nat),
     exec (.pullSuspendNotice device id) s = .next (s.modReq device id fun r =>
       if 1 ≤ r.state ∧ r.state ≤ 4 then r.suspended s.timer else r) ∧
     exec (.pullResumeRequest device id offset) s = .next (resumeReq device id s) ∧
     (s.bootState ≠ 2 → exec (.fsuspSuspend rcb) s = .next
       (suspendPull (fun r => s.under rcb r.rcb) (fun x => s.under rcb x.owner.rcb) { s with fsusp := rcb }) ∧
       (let rs := s.reqs.filter fun r => r.state == 5 && s.under rcb r.rcb
        let ms := s.sends.filter fun e => e.2.state == 5 && s.under rcb e.2.owner.rcb
        let t := rs.foldl (fun t r => resumeReq r.device r.id t) { s with fsusp := rcb }
        exec (.fsuspResume rcb) s = .next (ms.foldl (fun t e => resumeSend e.1 e.2 t) t)))))

/-! ## Links (R364 to R369, R379, R451) -/

/-- A flit is taken when it passes every check in order, and counted otherwise; timeouts replay; a link goes down and
comes up; key slots are installed, made current, drained and erased (R364 to R369, R451). That cur makes any installed slot
current, and that the other slot drains only when it was current, is log 45's choice. -/
def Obligations.LinkEvents : Prop :=
  (∀ (s : State) (n : Nat) (flit : List Byte),
    let l := s.link n
    let head := ofBytes (flit.take 4)
    let k := l.slot (head / 2 ^ 12 % 2)
    let ok := l.up = true ∧ flit.length = 256 ∧ ofBytes (flit.drop 248) = (crc64 0 (flit.take 248)).toNat ∧
      (Config.gcmOpen k.key k.salt (flit.take 8) ((flit.drop 8).take 240)).isSome = true ∧ head % 4096 = l.expect
    (ok → exec (.flitReceive n flit) s = .next (drainLink n (s.setLink n
      { l.acked (head / 2 ^ 16 % 4096) s.timer with expect := (l.expect + 1) % 4096 }))) ∧
    (¬ ok → exec (.flitReceive n flit) s = .next (count 0 0xC1 1 s)) ∧
    (l.up = true → l.replay ≠ [] → l.lost s.timer = false →
      (2000 ≤ (s.timer - l.sentAt).toNat → exec (.replayTimeout n) s = .next
        ((count 0 0xC0 l.replay.length (s.setLink n { l with replays := l.replays + 1, sentAt := s.timer })).send
          (.flits n (l.replay.map (·.bytes))))) ∧
      ((s.timer - l.sentAt).toNat < 2000 → exec (.replayTimeout n) s = .next s))) ∧
  (∀ (s : State) (n : Nat),
    let l := s.link n
    let lost := l.up = true ∧ l.replay ≠ [] ∧
      ((16 ≤ l.replays ∧ 2000 ≤ (s.timer - l.sentAt).toNat) ∨ 20000 ≤ (s.timer - l.ackAt).toNat)
    exec (.linkTraining n) s = .next (transmit (some n) 0 (.prefixes n ((List.range 4).map fun c => Tab.get 16 s.prefixes c))
      (s.setLink n { l with up := true, replay := [], queue := [], nextSeq := 0, expect := 0, replays := 0 })) ∧
    (lost →
      let u := event 0x380 0 (192 * (n / 2)) 10 0 (s.setLink n { l with up := false, replay := [], queue := [], replays := 0 })
      let v := (u.remote.filter fun e => e.2.owner.link == some n).foldl (fun t e => unreachableOp e.1 e.2 t) u
      let w := (v.sends.filter fun e => e.2.owner.link == some n && e.2.state != 6).foldl
        (fun t e => endSend e.1 e.2 e.2.sent 4 0x380 t) v
      exec (.linkDown n) s = .next (l.forwards.foldl (fun t m => answerAccess m 4 0x380 [] t) w)) ∧
    (¬ lost → exec (.linkDown n) s = .next s) ∧
    (∀ l, exec (.prefixAdvertise none l) s = .next (advertise s)) ∧
    (∀ d l, let v := (List.range 4).foldl (fun t c => Tab.set 16 t (4 * d + c) (l.getD c 16)) s.advertised
      exec (.prefixAdvertise (some d) l) s = .next { s with advertised := v })) ∧
  (∀ (s : State) (n i : Nat),
    let l := s.link n
    let k := l.slot i
    (k.state = 2 → (∀ f ∈ l.replay, f.slot ≠ i) → exec (.keySlotDrained n i) s = .next
      (s.setLink n (l.setSlot i { k with key := 0, salt := 0, counter := 0, state := 0, installed := false }))) ∧
    (s.bootState ≠ 2 → exec (.ksctlInstall n i) s = .next (s.setLink n (l.setSlot i
      (if k.state = 0 then { k with key := k.wKey, salt := k.wSalt, counter := 0, installed := true }
        else { k with refused := true })))) ∧
    (s.bootState ≠ 2 → k.installed = true →
      let o := l.slot (1 - i)
      exec (.ksctlCur n i) s = .next (drainLink n (s.setLink n
        ((l.setSlot (1 - i) (if o.state = 1 then { o with state := 2 } else o)).setSlot i { k with state := 1 })))) ∧
    (s.bootState ≠ 2 → k.installed = false →
      exec (.ksctlCur n i) s = .next (s.setLink n (l.setSlot i { k with refused := true }))))

/-! ## Pre-emption (R437, R438, R442, R445, R451) -/

/-- Outside the root's tasks CTXSW and RCBLD trap and do nothing else, in all their forms; a CTXSW that has waited leaves the
order of requests with its trap (R445, R446). -/
def Obligations.RootPrivilege : Prop :=
  ∀ (s : State) (d : Dst) (a b : Src), s.seq.trcb ≠ 0 →
    (operandsReady s [a] .discard = true → exec (.ctxsw a) s = leaveTurn (traps (s.after [a]) 0x007 0) s.cur) ∧
    (operandsReady s [a, b] .discard = true →
      exec (.ctxswOut a b) s = leaveTurn (traps (s.after [a, b]) 0x007 0) s.cur ∧
        exec (.ctxswIn a b) s = leaveTurn (traps (s.after [a]) 0x007 0) s.cur) ∧
    (operandsReady s [a, b] d = true → exec (.rcbld d a b) s = traps (s.after [a, b]) 0x007 0) ∧
    (operandsReady s [b] d = true →
      exec (.rcbldTerm d b) s = traps (s.after [b]) 0x007 0 ∧ exec (.rcbldUnf d b) s = traps (s.after [b]) 0x007 0)

/-- CTXSW asks for an exchange and waits for it, and its other forms wait for their turn, each in its place in the order of
arrival, behind the issuer's transform commands; a request halts its grove, the cores exchange their contexts with the
understories, and images of these go to memory and come back (R437, R442, R445, R451). What stands where in an image, its opaque
blocks among them, is the choice of log 13; that the copies stand in the order of requests, that a YIELD which waits
completes before the halt, and that an exchange takes the requests made from the grove itself out (PreBy.notFrom), are log 44's
readings (DEDUCED). -/
def Obligations.Preemption : Prop :=
  (∀ (s : State) (a b : Src), s.seq.trcb = 0 → s.cur.sub = .pipe →
    let g := (srcVal s a).toNat
    g ≤ 95 → g ≠ groveOf s.cur.core →
    (operandsReady s [a] .discard = true →
      (s.seq.switched = some s.seq.pc → exec (.ctxsw a) s = endsTurn s (lenOf [a])
        ((srcPop s a).modSeq s.cur fun q => { q with switched := none })) ∧
      (s.seq.switched ≠ some s.seq.pc → s.xformsOpen = true →
        exec (.ctxsw a) s = .next (markBlocked none (joinTurn g s))) ∧
      (s.seq.switched ≠ some s.seq.pc → s.xformsOpen = false →
        exec (.ctxsw a) s = .next (markBlocked none (requestSwitch g s)))) ∧
    (operandsReady s [a, b] .discard = true →
      let y := srcVal (srcPop s a) b
      let v := eaPop s a b
      y.toNat % 256 = 0 →
      ((¬ copyTurn s g ∨ s.xformsOpen = true) →
        let w := joinTurn g s
        exec (.ctxswOut a b) s = .next (markBlocked none w) ∧ exec (.ctxswIn a b) s = .next (markBlocked none w)) ∧
      (copyTurn s g → s.xformsOpen = false →
        (∀ t, ImagesOut v.me g y (List.range 16) v t → exec (.ctxswOut a b) s = endsTurn s (lenOf [a, b]) t) ∧
        (∀ l t, ImagesIn v.me y (List.range 16) v l t → exec (.ctxswIn a b) s = endsTurn s (lenOf [a, b])
          (l.zipIdx.foldl (fun u p => enterImage g p.2 p.1 u) t))))) ∧
  (∀ (s : State) (g : Nat) (p : PreBy) (rest : List PreBy), s.preQueue g = p :: rest →
    (p.preempts = true → (s.grove g).preHalted = false → s.yielding g = false → exec (.preemptHalt g) s = .next
      (suspendPull (fun r => match r.recv with
          | some n => match Tab.find s.recvs n with | some v => inScratch g v.core v.buf | none => false
          | none => false) (fun x => inScratch g x.owner.core x.laddr)
        (s.setGrove g { s.grove g with preHalted := true }))) ∧
    ((p.preempts = false ∨ s.yielding g = true) → exec (.preemptHalt g) s = .next s) ∧
    (p.preempts = true → (s.grove g).preHalted = true → (∀ c ∈ coresIn g, (s.ctx c).mx.committing = false) →
      exec (.understoryExchange g) s = .next (completeCtxsw p ((exchangeCores g (forgetWaiters g s)).modGrove g fun k =>
        { k with pre := k.pre.erase p, preHalted := false })) ∧
      (p = .host → ∀ u, exec (.understoryExchange g) s = .next u →
        (u.grove g).pre = ((s.grove g).pre.filter (PreBy.notFrom g)).erase .host ∧ (u.grove g).preHalted = false ∧ (u.grove g).groups = (s.grove g).underGroups ∧
        (u.grove g).underGroups = (s.grove g).groups ∧
        (∀ c, c ∈ coresIn g → u.ctx c = (s.core c).under ∧ (u.core c).under = (s.ctx c).leave) ∧
        (∀ c, c ∉ coresIn g → u.core c = s.core c)))) ∧
  (∀ (s : State) (g : Nat), s.bootState ≠ 2 →
    exec (.gctlPre g) s = .next (s.setGrove g { s.grove g with pre := (s.grove g).pre ++ [.host] }) ∧
    (((s.grove g).stopped = false ∨ s.overtemp = true) → exec (.gctlRestart g) s = .next s) ∧
    ((s.grove g).stopped = true → s.overtemp = false → ∃ u, exec (.gctlRestart g) s = .next u ∧
      (u.grove g).window = [] ∧ (u.grove g).regions = [] ∧ (u.grove g).stopped = false) ∧
    (∃ u, exec (.gctlResume g) s = .next u ∧ ∀ c k, (u.ctx c).seq k =
      if c ∈ coresIn g then { (s.ctx c).seq k with halted := false } else (s.ctx c).seq k))

/-! ## Region control blocks and translations (R27, R278 to R280, R399, R400, R446, R450) -/

/-- RCBLD loads a block below an active parent, with the effective values of R26; RCBLD.term removes a subtree once its
work has drained; RCBLD.unf lifts a fence; walks fill the caches of the groves that wait and give their result to the accesses
attached to them, and invalidations and tenant resets empty the caches and complete when no walk and no access goes on with an
old entry. Which running walk ends is left open (log 17); go latches what TINV names (log 60). -/
def Obligations.BlockTables : Prop :=
  (∀ (s : State) (d : Dst) (a b : Src) (l : List Byte) (t : State), s.seq.trcb = 0 → operandsReady s [a, b] d = true →
    let v := eaPop s a b
    let n := (srcVal (srcPop s a) b).toNat
    let m : RcbImage := BitVec.ofNat 512 (ofBytes l)
    n ≠ 0 → n ≤ 1023 → Reads v v.me .vector (srcVal s a) 64 64 l t →
    (∀ p, t.rcb (fld m 0 10) = some p → t.rcb n = none → p.terminating = false → p.depth < 8 → t.rcbs.length < 1024 →
      (fld m 0 10 = 0 ∨ p.tenant = fld m 32 4) → rcbReserved m = false →
      exec (.rcbld d a b) s = ends s (lenOf [a, b])
        (dstPut d (BitVec.ofNat 64 (p.depth + 1)) (t.setRcb n (rcbOf m p (p.depth + 1))))) ∧
    ((t.rcb (fld m 0 10) = none ∨ (t.rcb n).isSome = true ∨ 1024 ≤ t.rcbs.length ∨ rcbReserved m = true) →
      exec (.rcbld d a b) s = traps (s.keep t.msys) 0x208 (BitVec.ofNat 64 n))) ∧
  (∀ (s : State) (d : Dst) (b : Src), s.seq.trcb = 0 → operandsReady s [b] d = true →
    let n := (srcVal s b).toNat
    let t := srcPop s b
    let done (v : Nat) (w : State) := ends s (lenOf [b]) (dstPut d (BitVec.ofNat 64 v) w)
    n ≠ 0 → n ≤ 1023 →
    (∀ c, t.seq.terming = some (n, c) → (t.chain 0).contains n = false →
      (t.stillEnding n = false → exec (.rcbldTerm d b) s = done c t) ∧
      (t.stillEnding n = true → drained (t.under n) t = true → exec (.rcbldTerm d b) s = done c (dropRcbs (t.under n) t)) ∧
      (t.stillEnding n = true → drained (t.under n) t = false → exec (.rcbldTerm d b) s = waits s)) ∧
    ((∀ c, t.seq.terming ≠ some (n, c)) → (t.chain 0).contains n = false →
      (t.rcb n = none → exec (.rcbldTerm d b) s = traps (s.after [b]) 0x208 (BitVec.ofNat 64 n)) ∧
      ((t.rcb n).isSome = true →
        let u := beginTerm n t
        (drained (u.under n) u = true → exec (.rcbldTerm d b) s = done (u.removedBy n) (dropRcbs (u.under n) u)) ∧
        (drained (u.under n) u = false → exec (.rcbldTerm d b) s = .next (markBlocked none (beginTerm n s))))) ∧
    (t.active n = true → exec (.rcbldUnf d b) s = done 0 (unfence n t)) ∧
    (t.active n = false → exec (.rcbldUnf d b) s = traps (s.after [b]) 0x208 (BitVec.ofNat 64 n))) ∧
  (∀ (s : State) (g : Nat), s.missTable g = [] → exec (.walkComplete g) s = .next s) ∧
  (∀ (s : State) (g : Nat) (m : Miss),
    let l := (s.missTable g).take 64
    l[Config.walkEnds s.fresh % l.length]? = some m →
    let mine := (s.missTable g).filter (s.isMissOf m.tenant m.va)
    let all := (mine.flatMap (·.groves) ++ m.groves).eraseDups
    let given : List WalkAnswer := (mine.flatMap (·.who)).map fun w =>
      { who := w.1, tenant := m.tenant, va := w.2, result := walkResult (walk s m.tenant m.va) }
    let v := countWalk g m.tenant m.va s
    let u : State :=
      { v with msys := { v.msys.leaveTable g (s.isMissOf m.tenant m.va) with answers := v.msys.answers ++ given } }
    (∀ lg pte, walk s m.tenant m.va = .ok (lg, pte) → exec (.walkComplete g) s = .next
      (all.foldl (fun t k => tlbInstall k m.tenant m.va lg pte t) u)) ∧
    (∀ f, walk s m.tenant m.va = .error f → exec (.walkComplete g) s = .next
      (f.words.foldl (detectWord (192 * g) 11) u))) ∧
  (∀ (s : State) (v : Word) (tenant : Nat),
    let t := invalidate s.invalidates s
    let t1 : State := if t.usesOld s.invalidates then t else { t with tinvJob := none }
    ((∀ e ∈ s.tenants, e.2.busy = false) → exec .invalidationComplete s = .next t1) ∧
    (∀ x, s.tenants.filter (fun e => e.2.busy) = [(tenant, x)] →
      let gone := t1.endingFor tenant
      let mine (e : TlbEntry) : Bool := e.tenant == tenant
      let w := invalidate mine (disableQueues tenant (dropRcbs gone (refuseWaiting gone t1)))
      (drained gone t1 = false → exec .invalidationComplete s = .next t1) ∧
      (drained gone t1 = true → w.usesOld mine = true → exec .invalidationComplete s = .next w) ∧
      (drained gone t1 = true → w.usesOld mine = false → exec .invalidationComplete s = .next (emptyEvents tenant w))) ∧
    (s.bootState ≠ 2 →
      (let job := if s.tinvJob = none then some (fld v 0 4, bit v 4, s.tinvStart, s.tinvEnd) else s.tinvJob
       exec (.tinvGo v) s = .next { s with tinvTenant := fld v 0 4, tinvAll := bit v 4, tinvJob := job }) ∧
      (exec (.tenantReset tenant) s = .next (tenantReset tenant s) ∧
        let u := tenantReset tenant s
        (u.tenant tenant).busy = true ∧
        (∀ r k, s.tenantBlocks tenant r = true → u.rcb r = some k → k.terminating = true))))

/-! ## The host (R425, R447 to R453) -/

/-- The host's registers, written and read, its command rings and its HBM aperture; what the functions of tenants that are not
enabled ask is unsupported; an entry of a region table is read through the grove control registers, as log 60 lays it out
(R6, R393, R403, R425, R447 to R453; log 60). -/
def Obligations.HostEvents : Prop :=
  (∀ (s : State) (o t k v : Nat) (w : BitVec 128),
    (s.bootState = 2 → exec (.registerWrite none o w) s = .next s) ∧
    (s.bootState ≠ 2 →
      exec (.registerWrite none o w) s = .next (writePf0 o w s) ∧
      exec (.registerWrite none 0x2008 w) s = .next { s with tinvStart := BitVec.ofNat 64 (fld w 0 64) } ∧
      exec (.registerWrite none 0x2000 w) s = .next (tinvWrite (BitVec.ofNat 64 (fld w 0 64)) s) ∧
      (k < 4096 → exec (.registerWrite none (0x220000 + 16 * k) w) s =
        .next { s with route := Tab.set 0 s.route k (routeEntry w) }) ∧
      (s.enabled t = true →
        let p := s.page t
        let r := p.ring (k % 4)
        exec (.registerWrite (some t) 0x100 w) s = .next (s.setPage t { p with eqbase := BitVec.ofNat 64 (fld w 0 64) }) ∧
        exec (.cqtail t k v) s = .next (s.setPage t { p with rings := Tab.put p.rings (k % 4) { r with cqtail := v % 65536 } }) ∧
        exec (.cplhead t k v) s = .next (s.setPage t { p with rings := Tab.put p.rings (k % 4) { r with cplhead := v % 65536 } })) ∧
      (s.enabled t = false → exec (.registerWrite (some t) o w) s = .next (s.send .unsupported) ∧
        exec (.cqtail t k v) s = .next (s.send .unsupported) ∧ exec (.cplhead t k v) s = .next (s.send .unsupported)) ∧
      (Due.read none o).perform s = .next (s.send (.reply (toBytes 8 (readPf0 s o).toNat))) ∧
      (s.enabled t = true → (Due.read (some t) o).perform s = .next (s.send (.reply (toBytes 8 (readPage (s.page t) o).toNat)))) ∧
      (s.enabled t = false → (Due.read (some t) o).perform s = .next (s.send .unsupported)) ∧
      (Due.readRegion t k).perform s = .next (s.send (.reply (regionBytes s t k)))) ∧
    readPf0 s 0x10 = BitVec.ofNat 64 s.bootState ∧ readPf0 s 0x1008 = s.timer ∧ readPf0 s 0x18 = 0) ∧
  (∀ (s u : State) (t k i : Nat) (l : List Byte),
    (takeCommand t k 1 s = some (i, l, u) →
      ((u.tenant t).busy = true → exec (.hostPost t k) s = .next (hostComplete t k i (postWord 0 2 0) u)) ∧
      (∀ r v, (u.tenant t).busy = false → hostRecord u t l = .ok (r, v) → exec (.hostPost t k) s = .next
        (v.modGrove (ofBytes ((l.drop 16).take 4)) fun g => { g with waiting := g.waiting ++
          [{ record := r, addr := wordOf ((l.drop 8).take 8), poster := .host t k i }] })) ∧
      (∀ c w, (u.tenant t).busy = false → hostRecord u t l = .error (c, w) →
        exec (.hostPost t k) s = .next (hostComplete t k i (postWord 0 3 c) w))) ∧
    (takeCommand t k 2 s = some (i, l, u) →
      exec (.hostFence t k) s = .next (hostComplete t k i (postWord 0 (if (u.tenant t).busy then 2 else 0) 0) u)) ∧
    (takeCommand t k 0 s = some (i, l, u) → exec (.hostCommandInvalid t k) s = .next
      (hostComplete t k i (if (u.tenant t).busy then postWord 0 2 0 else postWord 0 3 0x200) u))) ∧
  (∀ (s : State) (t : Option Nat) (o n : Nat) (l : List Byte), s.bootState ≠ 2 →
    (∀ x, t = some x → s.enabled x = true ∧ gapIn (s.tenant x).hbw o l.length = none ∧ gapIn (s.tenant x).hbw o n = none) →
    (o + l.length ≤ 0x6000000000 → exec (.hostHbmAccess t o (some l) n) s =
      .next (devWrite (hostAgent (t.getD 0)) false o l s)) ∧
    (o + n ≤ 0x6000000000 → s.firstPoison o n = none → ∃ u, exec (.hostHbmAccess t o none n) s = .next u ∧
      u.out = s.out ++ [.reply (devBytes s o n)]) ∧
    (0x6000000000 < o + l.length → exec (.hostHbmAccess t o (some l) n) s = .next (s.send .unsupported)))

/-! ## Shared units, power and management (R251, R332, R408, R411, R425, R455 to R460) -/

/-- Timers, banks, the scrubber, sync lines, wakes, the boot ROM, the mailbox, I3C and power. Log entries state the model's
choices: how the agents of a cycle act and when BARX reads (log 53), READMR above 7 and ENTDAA (log 46), memory at a cold reset
(log 47), the dynamic address and the status byte of I3C (log 60). -/
def Obligations.DeviceEvents : Prop :=
  (∀ (s : State) (v : Word) (g c q b : Nat),
    exec .deviceTimerTick s = .next { s with timer := s.timer + 1 } ∧
    (s.bootState ≠ 2 → exec (.timerWrite v) s = .next { s with timer := v } ∧
      ∃ u, exec (.lseedWrite g v) s = .next u ∧ (u.grove g).lseed = if v.setWidth 32 = 0 then 1 else v.setWidth 32) ∧
    (s.held = [] →
      exec (.blockedWake c q b) s = .next { s with agenda := .run ⟨c, SeqKind.ofCode q, Sub.ofCode b⟩ :: s.agenda } ∧
      exec (.waitaReevaluate c q) s = .next { s with agenda := .run ⟨c, SeqKind.ofCode q, .pipe⟩ :: s.agenda } ∧
      exec (.yieldExpire c q) s = .next { s with agenda := .run ⟨c, SeqKind.ofCode q, .pipe⟩ :: s.agenda })) ∧
  (∀ (s : State) (core off rcb n : Nat) (l : List Byte),
    let pa := 0x800000000000 + gladeOf core * 2 ^ 36 + groveOf core % 12 * 2 ^ 32 + coreIn core * 2 ^ 28 + off
    core < 1536 → off + l.length ≤ 0x100000 → off % 256 + l.length ≤ 256 →
    (∃ ag, ag.core = core ∧ ag.rcb = rcb ∧ exec (.bankRequest core off rcb (some l) n) s = .next (devWrite ag false pa l s)) ∧
    (s.biterr = [] → exec (.bankRequest core off rcb none l.length) s = .next
      (countRead { host := false, addr := pa, pte := 0, prog := pa } l.length s))) ∧
  (∀ (s : State) (w : Nat),
    (Tab.get 0 s.biterr w = 0 → exec (.scrubRequest w) s = .next s) ∧
    (∃ u, exec (.scrubRequest w) s = .next u ∧ (Tab.get 0 s.biterr w = 1 → Tab.get 0 u.biterr w = 0) ∧
      (2 ≤ Tab.get 0 s.biterr w → Tab.get false u.poison w = true))) ∧
  (∀ (s : State) (g line : Nat) (l : List BarAgent),
    let pa := 0x900000000000 + g % 8 * 2 ^ 32 + line % 2 ^ 26 * 64
    (s.barCycle = none → l ≠ [] → exec (.syncLineUpdate g line l) s = .next { s with
      barCycle := some { addr := pa, advance := false, readers := [] },
      agenda := (agentOrder s (g % 8) l).map BarAgent.move ++ .due (.cycleEnd g line) :: s.agenda }) ∧
    (∀ c, s.barCycle = some c → c.addr ≠ pa → exec (.syncLineUpdate g line []) s = .next s) ∧
    (∀ c, s.barCycle = some c → c.addr = pa → ∃ ag, exec (.syncLineUpdate g line []) s = .next
      (let u : State := { s with barCycle := none }
       let v := if c.advance then setBarFields ag pa (barAdvance true (barFields u pa)) u else u
       let w := wakeLine pa (c.readers.foldl (fun x st =>
         x.modSeq st fun q => { q with barRead := some (q.pc, (barFields v pa).pending) }) v)
       { w with agenda := c.readers.map Move.run ++ w.agenda }))) ∧
  (∀ (s : State) (g line : Nat), g < 8 →
    let off := line * 64
    let pa := 0x900000000000 + g * 2 ^ 32 + off
    0x1000000 ≤ off → off + 64 ≤ 2 ^ 32 → off + 64 ≤ 0x1000000 + (s.glade g).ovSize.toNat →
    (s.glade g).ovBase.toNat + (off - 0x1000000) + 64 ≤ 0x6000000000 →
    let held := ∃ w ∈ s.waiters, (w.kind = 1 ∨ w.kind = 10) ∧ w.key = pa / 64
    (line ∈ (s.glade g).cached → held → exec (.backedLineMove g line) s = .next s) ∧
    (line ∉ (s.glade g).cached → 16384 ≤ (s.glade g).cached.length → exec (.backedLineMove g line) s = .next s) ∧
    ((line ∉ (s.glade g).cached ∧ (s.glade g).cached.length < 16384 ∨ line ∈ (s.glade g).cached ∧ ¬ held) → ∃ u, exec (.backedLineMove g line) s = .next u ∧
      (line ∈ (u.glade g).cached ↔ line ∉ (s.glade g).cached) ∧ devBytes u pa 64 = devBytes s pa 64)) ∧
  (∀ (s : State) (n a : Nat) (d : List Byte) (m : Mailbox),
    let res (u : State) (l : List Byte) : State := match m with
      | .host b => u.hostWrite b l
      | .i3c x => if s.i3cAddr = some x then { u with i3cBuf := l } else s
    (3 ≤ n → n ≤ 7 → exec (.extend n ⟨m, d⟩) s = .next
      (res { s with mr := Tab.put s.mr n (sha384 (s.mrBytes n ++ fitTo 48 d)) } [0])) ∧
    ((n < 3 ∨ 7 < n) → exec (.extend n ⟨m, d⟩) s = .next (res s [2])) ∧
    exec (.readmr ⟨m, n⟩) s = .next (res s (if n ≤ 7 then s.mrBytes n else [2])) ∧
    (∃ l, exec (.report ⟨m, d⟩) s = .next (res s l) ∧ l.take (reportBody s d).length = reportBody s d) ∧
    (s.i3cAddr = some a →
      exec (.i3cPrivateRead ⟨a, 0⟩) s = .next (s.send (.reply [BitVec.ofNat 8 s.bootState])) ∧
      ∀ e rest, s.mgmtEvents = e :: rest →
        exec (.i3cPrivateRead ⟨a, 2⟩) s = .next ({ s with mgmtEvents := rest }.send (.reply e.bytes))) ∧
    (s.i3cAddr ≠ some a → exec (.i3cPrivateRead ⟨a, n⟩) s = .next s) ∧
    exec (.setdasa ⟨a, n⟩) s = .next (if a = 0x5A then { s with i3cAddr := some (n % 128) } else s) ∧
    (s.i3cAddr = none → exec (.entdaa n) s = .next { s with i3cAddr := some (n % 128) }) ∧
    exec (.clockThrottle n) s = .next { s with clockMHz := max 1000 (s.clockMHz - 50 * n) } ∧
    (∃ u, exec .junctionOvertemp s = .next u ∧ u.overtemp = true ∧ (∀ g, g < 96 → (u.grove g).stopped = true)) ∧
    (∃ u, exec .coldReset s = .next u ∧ (u.bootState = 1 ∨ u.bootState = 2) ∧ u.flash = s.flash ∧ u.cores = [] ∧ u.mem = [] ∧
      (imageOk s.flash = false → u.bootState = 2 ∧ u.mr = []) ∧
      (u.bootState = 1 → u.rcbs = [(0, rcbOf (rootImage s.flash) rootRcb 1)] ∧ u.mr = measured s.flash)))

/-! ## The step, reset, encodings, frames and invariants -/

/-- A step runs the instruction that it decodes: time passes, the stream whose turn it is fetches at its program
counter, and what the word (with its literals, or with its pair) decodes to is executed; a word that fails a check raises
it; V's splitter takes a pair with a vector target; an event of the agenda is executed, and what falls due happens (R12, R69, R79, R82, R84; the order of turns is the model's, log 2). -/
def Obligations.StepRunsDecoded : Prop :=
  (∀ (s : State) (st : Stream) (rest : List Move) (i : Instr) (w : Nat) (l : Lits), s.agenda = .run st :: rest →
    let u := { tick s with agenda := rest, cur := st }
    let pc := (u.seqOf st).pc
    u.runs st = true →
    (st.sub = .pipe → u.trapDue st = false → u.slipFull st = false → u.fetchWaits st = false → fetchWord u st pc = .ok w →
      (isRep w = false → checkWord st.seq w = none → fetchLits u st pc (wordLength st.seq w) = .ok l →
        decode st.seq w l = .ok i → step s = exec i (afterFetch u st pc)) ∧
      (∀ c, isRep w = false → checkWord st.seq w = some c → isVectorClass (wordClass w) = false →
        step s = exec (.decodeFault c (BitVec.ofNat 64 w)) (afterFetch u st pc)) ∧
      (∀ t, isRep w = true → fetchWord u st (pc + 4) = .ok t → st.seq = .V → isVectorClass (wordClass t) = true →
        step s = exec (.splitWord st.core) (afterFetch u st pc)) ∧
      (∀ t, isRep w = true → fetchWord u st (pc + 4) = .ok t → (st.seq = .V → isVectorClass (wordClass t) = false) →
        checkPair st.seq w t = none → (u.seqOf st).rem ≠ 0 →
        decode st.seq (steppedWord w t (repCount w - (u.seqOf st).rem)) ⟨0, 0⟩ = .ok i →
        step s = exec i (afterFetch u st pc))) ∧
    (st.sub = .pipe → u.trapDue st = true → step s = exec (.trapDelivery st.core st.seq.code) u) ∧
    (st.sub ≠ .pipe → nextOfSub u st = some (.word i) → step s = exec i u) ∧
    (∀ c v, st.sub ≠ .pipe → nextOfSub u st = some (.bad c v) → step s = exec (.decodeFault c v) u)) ∧
  (∀ (s : State) (i : Instr) (rest : List Move), s.agenda = .event i :: rest →
    step s = exec i { tick s with agenda := rest }) ∧
  (∀ (s : State) (d : Due) (rest : List Move), s.agenda = .due d :: rest →
    step s = d.perform { tick s with agenda := rest }) ∧
  (∀ s : State, s.agenda = [] → (tick s).goesOn = true →
    step s = step { s with agenda := [.run s.cur.pipe] })

/-- Words written out from the encodings of 03_encoding decode to the instructions that they stand for, and words that
fail a check of R79 are rejected by the check's cause, in the order of R79. -/
def Obligations.DecodedWords : Prop :=
  decode .K 0x00010830 ⟨0, 0⟩ = .ok (.add (.reg 1) (.reg 2) (.reg 3)) ∧
  decode .M 0x0001FB80 ⟨0x12345678, 0⟩ = .ok (.add (.reg 1) (.lit32 0x12345678) .zero) ∧
  decode .V 0x20058800 ⟨0, 0⟩ = .ok (.vld (.reg 5) (.reg 34) (.reg 0) 0) ∧
  decode .V 0x40010830 ⟨0, 0⟩ = .ok (.vadd (.reg 1) (.reg 2) (.reg 3) false false 0) ∧
  decode .M 0x80800000 ⟨0, 0⟩ = .ok .mgo ∧ decode .Q 0xA2C00000 ⟨0, 0⟩ = .ok .qwait ∧
  decode .K 0xE0400000 ⟨0, 0⟩ = .ok .nop ∧ decode .Q 0xE2800007 ⟨0, 0⟩ = .ok (.trap 7) ∧
  decode .K 0x40010830 ⟨0, 0⟩ = .error 0x004 ∧ decode .K 0x1FC00000 ⟨0, 0⟩ = .error 0x001 ∧
  decode .K 0xE0400001 ⟨0, 0⟩ = .error 0x003 ∧ decode .K 0x003F0830 ⟨0, 0⟩ = .error 0x006 ∧
  decode .K 0x0001E830 ⟨0, 0⟩ = .error 0x002 ∧ decode .K 0x003F0831 ⟨0, 0⟩ = .error 0x003

/-- The machine after reset (R332, R364, R368, R379, R450, R455): no task, no active block, no translation, no key and no
boot; the lottery states are 1, the prefix sizes 16, every ring and window empty. What R450 leaves open is log 5's. -/
def Obligations.ResetState : Prop :=
  let s := State.reset
  s.memWf = true ∧ (∀ st : Stream, (s.seqOf st).task = none ∧ (s.seqOf st).handler = false) ∧ s.rcbs = [] ∧
  (∀ g, (s.grove g).window = [] ∧ (s.grove g).lseed = 1 ∧ s.tlb g = [] ∧ (s.grove g).regions = []) ∧
  (∀ n, (s.link n).up = false ∧ ((s.link n).slot 0).state = 0 ∧ ((s.link n).slot 1).state = 0) ∧
  (∀ c, s.prefixOf c = 256 * 16) ∧ (∀ t, (s.tenant t).busy = false ∧ (s.tenant t).ptroot = 0) ∧
  (∀ n, (s.pair n).enabled = false) ∧ s.bootState = 0 ∧ s.out = [] ∧ s.agenda = []

/-- The integer instructions of R107 to R115 change their destination with its marks, the queues that they pop and how far
their stream has come, and nothing else in the device; on a trap or a wait no memory changes (R97, R249, R250). -/
def Obligations.RegisterFrame : Prop :=
  ∀ (s t : State) (d : Dst) (a b : Src),
    let frame (i : Instr) (srcs : List Src) : Prop := exec i s = .next t →
      t.mem = s.mem ∧ t.glades = s.glades ∧ (s.biterr = [] → t.hostMem = s.hostMem) ∧
        (operandsReady s srcs d = true → RegisterOnly s t srcs d)
    (∀ i ∈ [Instr.add d a b, .sub d a b, .mul d a b, .mulh d a b, .mulhu d a b, .and d a b, .or d a b, .xor d a b, .andn d a b,
        .shl d a b, .shr d a b, .sar d a b, .rol d a b, .min d a b, .max d a b, .minu d a b, .maxu d a b, .sext d a b, .zext d a b,
        .div d a b, .divu d a b, .rem d a b, .remu d a b, .fmin d a b, .fmax d a b, .fcmp d a b,
        .bfx d a b true, .bfx d a b false, .cmp d a b true, .cmp d a b false], frame i [a, b]) ∧
    (∀ (c : Cond), ∀ i ∈ [Instr.bfi d a b, .madr d a b, .sel d a b c], frame i [a, b, d.readBack]) ∧
    (∀ (im : BitVec 10) (f : Wid), ∀ i ∈ [Instr.addi d a im, .clz d a f, .ffs d a f, .popc d a f, .abs d a true, .abs d a false],
      frame i [a]) ∧
    (∀ im, frame (.movi d im) [])

/-- ST, STR and QZST change no byte of memory but those at the place of their address, computed as the instruction
computes it: a + b, admitted by R275 (R254, R444). -/
def Obligations.StoreFrame : Prop :=
  ∀ (s t : State) (d : Dst) (a b : Src) (f : Wid) (x y z : Nat) (o : Order) (sc : Scope), s.biterr = [] →
    (exec (.st d a b f) s = .next t →
      StoresOnly s t (srcPop (eaPop s a b) d.asSrc) .write (eaVal s a b) f.bytes) ∧
    (exec (.str d x y o sc) s = .next t → StoresOnly s t (srcPop s d.asSrc) .write (s.xreg x + s.xreg y) 8) ∧
    (exec (.qzst z a b) s = .next t → StoresOnly s t (eaPop s a b) .prof (eaVal s a b) 8)

/-- The element-wise VA words change their destination tile, the queue registers that they pop, the operand buffer and
their sub-queue, and nothing else in the device (R131, R133, R142, R145). -/
def Obligations.VectorFrame : Prop :=
  ∀ (s t : State) (d : Dst) (a b : Src) (h g : Bool) (p : BitVec 2), s.cur.sub ≠ .pipe → s.biterr = [] →
    (∀ i ∈ [Instr.vadd d a b h g p, .vsub d a b h g p, .vmul d a b h g p, .vmin d a b h g p, .vmax d a b h g p, .vdiv d a b h g p,
        .vand d a b h g p, .vor d a b h g p, .vxor d a b h g p, .vshl d a b h g p, .vshr d a b h g p, .vsar d a b h g p],
      exec i s = .next t → TileOnly s t [a, b] d) ∧
    (∀ i ∈ [Instr.vabs d a h p, .vneg d a h p, .vrcp d a h p, .vrsq d a h p, .vsqrt d a h p, .vexp d a h p, .vlog d a h p,
        .vtanh d a h p, .vsigm d a h p, .vsin d a h p, .vcos d a h p, .vnot d a h p, .vclz d a h p, .vffs d a h p, .vpopc d a h p],
      exec i s = .next t → TileOnly s t [a] d)

/-- Every step keeps the canonical form of device and host memory: addresses rise strictly, and no entry holds the value
that an unlisted address reads as: 0, for memory that nothing has written (log 6). -/
def Obligations.MemoryStaysCanonical : Prop :=
  ∀ s t : State, step s = .next t → s.memWf = true → t.memWf = true

/-- A measurement register changes only by an extend with a 48-byte digest, MR := SHA-384(MR ‖ D), or by a cold reset, by the
event or by a write of RSTCTL with cold set, that clears them and, where the boot image is good, measures the ROM, the image and
its configuration block (R450, R455, R456). -/
def Obligations.MeasurementRegisters : Prop :=
  (∀ (s t : State) (i : Instr) (n : Nat), exec i s = .next t → Tab.get 0 t.mr n ≠ Tab.get 0 s.mr n →
    i = .coldReset ∨ (∃ v, i = .registerWrite none 0x1000 v ∧ bit v 0 = true) ∨ ∃ m d, i = .extend n ⟨m, d⟩ ∧ 3 ≤ n ∧ n ≤ 7 ∧
      Tab.get 0 t.mr n = sha384 (s.mrBytes n ++ fitTo 48 d)) ∧
  (∀ (s t : State) (v : BitVec 128),
    (exec .coldReset s = .next t ∨ s.bootState ≠ 2 ∧ bit v 0 = true ∧ exec (.registerWrite none 0x1000 v) s = .next t) →
    (∀ n, 3 ≤ n → Tab.get 0 t.mr n = 0) ∧
    (imageOk s.flash = false → ∀ n, Tab.get 0 t.mr n = 0) ∧
    (imageOk s.flash = true → Tab.get 0 t.mr 0 = Config.romDigest ∧ Tab.get 0 t.mr 1 = sha384 s.flash ∧
      Tab.get 0 t.mr 2 = sha384 (configBytes s.flash))) ∧
  (∀ (s : State) (n : Nat) (d : List Byte) (m : Mailbox), 3 ≤ n → n ≤ 7 → (∀ x, m = .i3c x → s.i3cAddr = some x) →
    ∃ t, exec (.extend n ⟨m, d⟩) s = .next t ∧ Tab.get 0 t.mr n = sha384 (s.mrBytes n ++ fitTo 48 d))

/-- NOP is the word 0xE0400000 alone, a nonzero bit in [21:0] is RESERVED_FIELD, and NOP changes nothing but the program
counter, which advances by 4, in V too (R85); the waiting marks, the REP count and the walks are those of a stream that does not
wait and is in no pair. -/
def Obligations.NopChangesOnlyThePc : Prop :=
  (∀ (k : SeqKind) (l : Lits), decode k 0xE0400000 l = .ok .nop) ∧
  (∀ (k : SeqKind) (b : Nat), 0 < b → b < 2 ^ 22 → checkWord k (0xE0400000 + b) = some 0x003) ∧
  (∀ s : State, s.seq.rem = 0 → s.seq.waiting = false → s.seq.yieldAt = none → s.seq.waitAt = none →
    s.seq.twait = none → s.seq.dropping = none → s.seq.terming = none →
    (∀ w ∈ s.waiters, w.stream ≠ s.cur) → s.msys.detach (Who.isOf s.cur) = s.msys → exec .nop s = .next (s.modSeq s.cur fun q => { q with pc := q.pc + 4 }))

/-- Every well-formed instruction but the events has an encoding, whose class some sequencer accepts; decoding it gives the
instruction back, on every sequencer that accepts its class, with the length of its words; an event has none (R67, R68, R71 to
R78, R86). -/
def Obligations.DecodeEncodeRoundTrip : Prop :=
  ∀ i : Instr, (isEvent i = true → encode i = none) ∧ (i.wf = true → isEvent i = false → ∃ (w : Nat) (l : List Nat),
    encode i = some (w :: l) ∧ w < 2 ^ 32 ∧ (SeqKind.forClass (wordClass w)).accepts (wordClass w) = true ∧
    ∀ k : SeqKind, k.accepts (wordClass w) = true →
      decode k w ⟨l.getD 0 0, l.getD 1 0⟩ = .ok i ∧ wordLength k w = 4 + 4 * l.length)
end

