-- ==== Sys2Proof/Laws/Tables.lean ====
section
/-! SUPPORT. The laws of tables: `Tab.set` keeps the canonical form, and what is read after a write. -/

namespace Sys2Proof

theorem Tab.wfFrom_mono {α : Type} [DecidableEq α] {d : α} {lo lo' : Nat} (h : lo' ≤ lo) :
    ∀ {t : Tab α}, Tab.wfFrom d lo t = true → Tab.wfFrom d lo' t = true
  | [], _ => rfl
  | (k, v) :: t, ht => by
    simp only [Tab.wfFrom, Bool.and_eq_true, decide_eq_true_eq] at ht ⊢
    exact ⟨⟨by omega, ht.1.2⟩, ht.2⟩

theorem Tab.wfFrom_del {α : Type} [DecidableEq α] {d : α} (k : Nat) :
    ∀ {t : Tab α} {lo : Nat}, Tab.wfFrom d lo t = true → Tab.wfFrom d lo (Tab.del t k) = true
  | [], _, _ => rfl
  | (j, v) :: t, lo, h => by
    simp only [Tab.wfFrom, Bool.and_eq_true, decide_eq_true_eq] at h
    simp only [Tab.del]
    split
    · exact Tab.wfFrom_mono (by omega) (Tab.wfFrom_del k h.2)
    · simp only [Tab.wfFrom, Bool.and_eq_true, decide_eq_true_eq]
      exact ⟨h.1, Tab.wfFrom_del k h.2⟩

theorem Tab.wfFrom_put {α : Type} [DecidableEq α] {d v : α} (hv : v ≠ d) (k : Nat) :
    ∀ {t : Tab α} {lo : Nat}, lo ≤ k → Tab.wfFrom d lo t = true → Tab.wfFrom d lo (Tab.put t k v) = true
  | [], lo, hk, _ => by simp [Tab.put, Tab.wfFrom, hk, hv]
  | (j, w) :: t, lo, hk, h => by
    simp only [Tab.wfFrom, Bool.and_eq_true, decide_eq_true_eq] at h
    simp only [Tab.put]
    split
    · simp only [Tab.wfFrom, Bool.and_eq_true, decide_eq_true_eq]
      exact ⟨⟨hk, hv⟩, ⟨by omega, h.1.2⟩, h.2⟩
    · split
      · rename_i h1
        subst h1
        simp only [Tab.wfFrom, Bool.and_eq_true, decide_eq_true_eq]
        exact ⟨⟨hk, hv⟩, h.2⟩
      · simp only [Tab.wfFrom, Bool.and_eq_true, decide_eq_true_eq]
        exact ⟨h.1, Tab.wfFrom_put hv k (by omega) h.2⟩

/-- A write keeps the canonical form. -/
theorem Tab.wf_set {α : Type} [DecidableEq α] {d : α} {t : Tab α} (k : Nat) (v : α) (h : Tab.wf d t = true) :
    Tab.wf d (Tab.set d t k v) = true := by
  unfold Tab.set
  split
  · exact Tab.wfFrom_del k h
  · rename_i hv
    exact Tab.wfFrom_put hv k (Nat.zero_le _) h

theorem Tab.get_put_self {α : Type} (x v : α) (t : Tab α) (k : Nat) : Tab.get x (Tab.put t k v) k = v := by
  induction t with
  | nil => simp [Tab.put, Tab.get]
  | cons e t ih =>
    obtain ⟨j, w⟩ := e
    simp only [Tab.put]
    split
    · simp [Tab.get]
    · split
      · simp [Tab.get]
      · rename_i h1 h2
        simp only [Tab.get]
        rw [if_neg (fun h => h2 h.symm), ih]

theorem Tab.get_put_other {α : Type} (x v : α) (t : Tab α) {k j : Nat} (h : j ≠ k) :
    Tab.get x (Tab.put t k v) j = Tab.get x t j := by
  induction t with
  | nil => simp [Tab.put, Tab.get, Ne.symm h]
  | cons e t ih =>
    obtain ⟨i, w⟩ := e
    simp only [Tab.put]
    split
    · simp [Tab.get, Ne.symm h]
    · split
      · rename_i h1 h2
        subst h2
        simp [Tab.get, Ne.symm h]
      · simp [Tab.get, ih]

/-- The second of two writes at one key replaces the first. -/
theorem Tab.put_put {α : Type} (t : Tab α) (k : Nat) (v w : α) : Tab.put (Tab.put t k v) k w = Tab.put t k w := by
  induction t with
  | nil => simp [Tab.put]
  | cons e t ih =>
    obtain ⟨j, u⟩ := e
    simp only [Tab.put]
    split
    · simp [Tab.put]
    · split
      · simp [Tab.put]
      · rename_i h1 h2
        simp [Tab.put, h1, h2, ih]

theorem Tab.get_del_self {α : Type} (x : α) (t : Tab α) (k : Nat) : Tab.get x (Tab.del t k) k = x := by
  induction t with
  | nil => rfl
  | cons e t ih =>
    obtain ⟨i, w⟩ := e
    simp only [Tab.del]
    split
    · exact ih
    · rename_i h
      simp [Tab.get, h, ih]

theorem Tab.get_del_other {α : Type} (x : α) (t : Tab α) {k j : Nat} (h : j ≠ k) :
    Tab.get x (Tab.del t k) j = Tab.get x t j := by
  induction t with
  | nil => rfl
  | cons e t ih =>
    obtain ⟨i, w⟩ := e
    simp only [Tab.del]
    split
    · rename_i hi
      subst hi
      simp [Tab.get, ih, Ne.symm h]
    · simp [Tab.get, ih]

/-- Reading a table where it was written gives the value written. -/
theorem Tab.get_set_self {α : Type} [DecidableEq α] (x : α) (t : Tab α) (k : Nat) (v : α) :
    Tab.get x (Tab.set x t k v) k = v := by
  unfold Tab.set
  split
  · rename_i h; rw [Tab.get_del_self, h]
  · exact Tab.get_put_self x v t k

/-- Reading a table anywhere else gives what it gave. -/
theorem Tab.get_set_other {α : Type} [DecidableEq α] (x : α) (t : Tab α) {k j : Nat} (v : α) (h : j ≠ k) :
    Tab.get x (Tab.set x t k v) j = Tab.get x t j := by
  unfold Tab.set
  split
  · exact Tab.get_del_other x t h
  · exact Tab.get_put_other x v t h

/-- Applying a function to every value, where the default is its own image. -/
theorem Tab.get_mapVals {α β : Type} (x : α) (y : β) (f : Nat → α → β) (t : Tab α) (k : Nat) (h : f k x = y) :
    Tab.get y (Tab.mapVals f t) k = f k (Tab.get x t k) := by
  induction t with
  | nil => simp [Tab.mapVals, Tab.get, h]
  | cons e t ih =>
    obtain ⟨j, v⟩ := e
    simp only [Tab.mapVals, List.map_cons, Tab.get] at ih ⊢
    split
    · rename_i hj; subst hj; rfl
    · exact ih

theorem Tab.find_put_self {α : Type} (v : α) (t : Tab α) (k : Nat) : Tab.find (Tab.put t k v) k = some v := by
  induction t with
  | nil => simp [Tab.put, Tab.find]
  | cons e t ih =>
    obtain ⟨j, w⟩ := e
    simp only [Tab.put]
    split
    · simp [Tab.find]
    · split
      · simp [Tab.find]
      · rename_i h1 h2
        simp only [Tab.find]
        rw [if_neg (fun h => h2 h.symm), ih]

theorem Tab.find_put_other {α : Type} (v : α) (t : Tab α) {k j : Nat} (h : j ≠ k) :
    Tab.find (Tab.put t k v) j = Tab.find t j := by
  induction t with
  | nil => simp [Tab.put, Tab.find, Ne.symm h]
  | cons e t ih =>
    obtain ⟨i, w⟩ := e
    simp only [Tab.put]
    split
    · simp [Tab.find, Ne.symm h]
    · split
      · rename_i h1 h2
        subst h2
        simp [Tab.find, Ne.symm h]
      · simp [Tab.find, ih]

end Sys2Proof
end

