-- ==== Sys2Proof/Laws/Keeps.lean ====
section
/-! SUPPORT. What every operation keeps: the canonical form of the memories and the measurement registers. `Keeps s t`
says it of two states; the lemmas say of each shared operation that the state after it keeps what the state before it
had, and combine without unfolding (R456; log 6). -/

namespace Sys2Proof.Machine

/-- From `s` to `t` the measurement registers stay, and the memories stay canonical. -/
structure Keeps (s t : State) : Prop where
  mr : t.mr = s.mr
  wf : s.memWf = true → t.memWf = true

theorem Keeps.rfl' {s : State} : Keeps s s := ⟨rfl, id⟩

/-- A change of other fields. -/
theorem Keeps.same {s t u : State} (h : Keeps s t) (h1 : u.mem = t.mem) (h2 : u.hostMem = t.hostMem) (h3 : u.mr = t.mr) :
    Keeps s u :=
  ⟨h3.trans h.mr, fun hs => by
    have := h.wf hs
    simpa only [State.memWf, h1, h2] using this⟩

theorem Keeps.trans {s t u : State} (h : Keeps s t) (g : Keeps t u) : Keeps s u :=
  ⟨g.mr.trans h.mr, fun hs => g.wf (h.wf hs)⟩

/-- One byte of device memory is written. -/
theorem Keeps.setMem {s t : State} (h : Keeps s t) (a : Nat) (b : Byte) : Keeps s { t with mem := Tab.set 0 t.mem a b } :=
  ⟨h.mr, fun hs => by
    have := h.wf hs
    simp only [State.memWf, Bool.and_eq_true] at this ⊢
    exact ⟨Tab.wf_set a b this.1, this.2⟩⟩

/-- One byte of host memory is written. -/
theorem Keeps.setHost {s t : State} (h : Keeps s t) (a : Nat) (b : Byte) :
    Keeps s { t with hostMem := Tab.set 0 t.hostMem a b } :=
  ⟨h.mr, fun hs => by
    have := h.wf hs
    simp only [State.memWf, Bool.and_eq_true] at this ⊢
    exact ⟨this.1, Tab.wf_set a b this.2⟩⟩

theorem Keeps.foldl {α : Type} {s : State} {f : State → α → State} (hf : ∀ t a, Keeps s t → Keeps s (f t a)) :
    ∀ (l : List α) {t : State}, Keeps s t → Keeps s (l.foldl f t)
  | [], _, h => h
  | a :: l, t, h => Keeps.foldl hf l (hf t a h)

/-! ## Tables and sequencers -/

section
variable {s t : State}

theorem Keeps.ite {p : Prop} [Decidable p] {a b : State} (ha : Keeps s a) (hb : Keeps s b) : Keeps s (if p then a else b) := by
  split
  · exact ha
  · exact hb
theorem Keeps.setCore (h : Keeps s t) (c : Nat) (k : Core) : Keeps s (t.setCore c k) := h.same rfl rfl rfl
theorem Keeps.modCore (h : Keeps s t) (c : Nat) (f : Core → Core) : Keeps s (t.modCore c f) := h.same rfl rfl rfl
theorem Keeps.setCtx (h : Keeps s t) (c : Nat) (x : Context) : Keeps s (t.setCtx c x) := h.same rfl rfl rfl
theorem Keeps.modCtx (h : Keeps s t) (c : Nat) (f : Context → Context) : Keeps s (t.modCtx c f) := h.same rfl rfl rfl
theorem Keeps.modHere (h : Keeps s t) (f : Context → Context) : Keeps s (t.modHere f) := h.same rfl rfl rfl
theorem Keeps.setGrove (h : Keeps s t) (g : Nat) (k : Grove) : Keeps s (t.setGrove g k) := h.same rfl rfl rfl
theorem Keeps.modGrove (h : Keeps s t) (g : Nat) (f : Grove → Grove) : Keeps s (t.modGrove g f) := h.same rfl rfl rfl
theorem Keeps.setGlade (h : Keeps s t) (g : Nat) (k : Glade) : Keeps s (t.setGlade g k) := h.same rfl rfl rfl
theorem Keeps.modGlade (h : Keeps s t) (g : Nat) (f : Glade → Glade) : Keeps s (t.modGlade g f) := h.same rfl rfl rfl
theorem Keeps.setPage (h : Keeps s t) (n : Nat) (p : TenantPage) : Keeps s (t.setPage n p) := h.same rfl rfl rfl
theorem Keeps.setRcb (h : Keeps s t) (r : Nat) (k : Rcb) : Keeps s (t.setRcb r k) := h.same rfl rfl rfl
theorem Keeps.modRcb (h : Keeps s t) (r : Nat) (f : Rcb → Rcb) : Keeps s (t.modRcb r f) := by
  unfold State.modRcb; split
  · exact h.setRcb _ _
  · exact h
theorem Keeps.setLink (h : Keeps s t) (l : Nat) (k : Link) : Keeps s (t.setLink l k) := h.same rfl rfl rfl
theorem Keeps.modLink (h : Keeps s t) (l : Nat) (f : Link → Link) : Keeps s (t.modLink l f) := h.same rfl rfl rfl
theorem Keeps.send (h : Keeps s t) (m : OutMsg) : Keeps s (t.send m) := h.same rfl rfl rfl
theorem Keeps.setSeq (h : Keeps s t) (st : Stream) (q : Seq) : Keeps s (t.setSeq st q) := h.same rfl rfl rfl
theorem Keeps.modSeq (h : Keeps s t) (st : Stream) (f : Seq → Seq) : Keeps s (t.modSeq st f) := h.same rfl rfl rfl
theorem Keeps.setSub (h : Keeps s t) (st : Stream) (q : SubQ) : Keeps s (t.setSub st q) := h.same rfl rfl rfl
theorem Keeps.setTokens (h : Keeps s t) (c k : Nat) (l : List Word) : Keeps s (t.setTokens c k l) := h.same rfl rfl rfl
theorem Keeps.unwait (h : Keeps s t) (st : Stream) : Keeps s (t.unwait st) := h.same rfl rfl rfl
theorem Keeps.setPerf (h : Keeps s t) (k : Nat) (v : Word) : Keeps s (t.setPerf k v) := by
  unfold State.setPerf; repeat' split
  all_goals exact h.same rfl rfl rfl
theorem Keeps.count (h : Keeps s t) (c n k : Nat) : Keeps s (Machine.count c n k t) := h.setPerf _ _
theorem Keeps.keep (h : Keeps s t) (m : MemSys) : Keeps s (t.keep m) := h.same rfl rfl rfl
theorem Keeps.keepWait (h : Keeps s t) (m : MemSys) : Keeps s (t.keepWait m) := h.keep _
theorem Keeps.stopped (h : Keeps s t) (e : Stop) (m : MemSys) : Keeps s (t.stopped e m) := by
  cases e <;> exact h.keep _
theorem Keeps.detach (h : Keeps s t) (p : Who → Bool) : Keeps s (t.detach p) := h.same rfl rfl rfl
theorem Keeps.takesTrap (h : Keeps s t) (st : Stream) : Keeps s (Machine.takesTrap st t) := h.modSeq _ _
theorem Keeps.modEntry (h : Keeps s t) (r : TaskRef) (f : Entry → Entry) : Keeps s (t.modEntry r f) := h.same rfl rfl rfl
theorem Keeps.mgmtEvent (h : Keeps s t) (e : Event) : Keeps s (Machine.mgmtEvent e t) := h.same rfl rfl rfl
theorem Keeps.countFixed (h : Keeps s t) (a k : Nat) : Keeps s (Machine.countFixed a k t) := by
  unfold Machine.countFixed; split
  · exact h.count _ _ _
  · exact h
theorem Keeps.tick (h : Keeps s t) : Keeps s (Machine.tick t) := h.same rfl rfl rfl

/-! ## Events and traps (R430 to R436, R452 to R454) -/

theorem Keeps.hostWrite : ∀ (l : List Byte) (a : Nat) {t : State}, Keeps s t → Keeps s (t.hostWrite a l)
  | [], _, _, h => h
  | b :: l, a, _, h => Keeps.hostWrite l (a + 1) (h.setHost a b)

theorem Keeps.signalVector (h : Keeps s t) (n v : Nat) : Keeps s (Machine.signalVector n v t) := by
  unfold Machine.signalVector; dsimp only; split
  · exact h.send _
  · exact h.setPage _ _

theorem Keeps.event (h : Keeps s t) (c r k o : Nat) (v : Word) : Keeps s (Machine.event c r k o v t) := by
  unfold Machine.event; dsimp only
  repeat' split
  · exact h.mgmtEvent _
  · exact h.mgmtEvent _
  · exact h.setPage _ _
  · exact ((h.hostWrite _ _).setPage _ _).signalVector _ _

theorem Keeps.fence (h : Keeps s t) (top : Nat) (st : Option Stream) : Keeps s (Machine.fence top st t) := h.same rfl rfl rfl

theorem Keeps.fenceOne (h : Keeps s t) (r : Nat) : Keeps s (Machine.fenceOne r t) := by
  unfold Machine.fenceOne; dsimp only; split
  · exact h
  · exact (h.modRcb _ _).same rfl rfl rfl

theorem Keeps.machineCheckWord (h : Keeps s t) (o a : Nat) (l : List Nat) : Keeps s (Machine.machineCheckWord o a l t) :=
  Keeps.mgmtEvent (by exact h.same rfl rfl rfl) _

theorem Keeps.detectWord (h : Keeps s t) (c o w : Nat) : Keeps s (Machine.detectWord c o t w) := by
  unfold Machine.detectWord
  refine Keeps.ite h ?_
  dsimp only
  generalize hu : (if chipArray (8 * w) = true then _ else _ : State) = u
  have h2 : Keeps s u := by
    rw [← hu]
    split
    · exact Keeps.count (by exact h.same rfl rfl rfl) _ _ _
    · exact h.same rfl rfl rfl
  split
  · exact h2.machineCheckWord _ _ _
  · exact (h2.event _ _ _ _ _).fenceOne _

theorem Keeps.detectWords (h : Keeps s t) (c o : Nat) (l : List Nat) : Keeps s (l.foldl (Machine.detectWord c o) t) :=
  Keeps.foldl (fun _ _ hu => hu.detectWord _ _ _) _ h

theorem Keeps.enterHandler (h : Keeps s t) (st : Stream) (i : TrapInfo) (e : Bool) (c r : Nat) :
    Keeps s (Machine.enterHandler st i e c r t) := by
  unfold Machine.enterHandler; dsimp only; split
  · exact h.setSeq _ _
  · exact (h.modCtx _ _).setSeq _ _

theorem Keeps.escalate (h : Keeps s t) (st : Stream) (i : TrapInfo) : Keeps s (Machine.escalate st i t) := by
  unfold Machine.escalate; dsimp only; split
  · split
    · exact ((h.enterHandler _ _ _ _ _).takesTrap _).fence _ _
    · exact (h.enterHandler _ _ _ _ _).takesTrap _
  · split
    · exact ((h.fence _ _).modSeq _ _).mgmtEvent _
    · exact (h.modSeq _ _).mgmtEvent _

/-- Taking a trap keeps the memories and the measurement registers. -/
theorem Keeps.takeTrap (h : Keeps s t) (st : Stream) (i : TrapInfo) : Keeps s (Machine.takeTrap st i t) := by
  unfold Machine.takeTrap; dsimp only; split
  · exact h.escalate _ _
  · exact h.enterHandler _ _ _ _ _

theorem Keeps.takeSync (h : Keeps s t) (st : Stream) (c : Nat) (v : Word) : Keeps s (Machine.takeSync st c v t) :=
  h.takeTrap _ _

theorem Keeps.detachBlocked (h : Keeps s t) (st : Stream) (o : Option (Nat × Nat × Nat)) :
    Keeps s (t.detachBlocked st o) := by
  unfold State.detachBlocked
  exact h.ite (h.detach _)

theorem Keeps.markBlocked (h : Keeps s t) (o : Option (Nat × Nat × Nat)) : Keeps s (Machine.markBlocked o t) := by
  unfold Machine.markBlocked; dsimp only
  replace h := h.detachBlocked t.cur o
  repeat' split
  all_goals first
    | exact h.modSeq _ _
    | exact h
    | exact (h.modSeq _ _).same rfl rfl rfl
    | exact h.same rfl rfl rfl

/-! ## Memory (R242, R249, R250, R282) -/

theorem Keeps.setChipByte (h : Keeps s t) (a : Nat) (b : Byte) : Keeps s (Machine.setChipByte t a b) := by
  unfold Machine.setChipByte; dsimp only
  repeat' split
  all_goals first | exact h.modCtx _ _ | exact h.setMem _ _

theorem Keeps.setSyncByte (h : Keeps s t) (g o : Nat) (b : Byte) : Keeps s (Machine.setSyncByte t g o b) := by
  unfold Machine.setSyncByte; split
  · exact h.modGlade _ _
  · exact h.setMem _ _

theorem Keeps.setDevByte (h : Keeps s t) (a : Nat) (b : Byte) : Keeps s (Machine.setDevByte t a b) := by
  unfold Machine.setDevByte
  repeat' split
  · exact h.setMem _ _
  · exact h.setSyncByte _ _ _
  · exact h.setChipByte _ _

theorem Keeps.setDevBytes : ∀ (l : List Byte) (a : Nat) {t : State}, Keeps s t → Keeps s (Machine.setDevBytes t a l)
  | [], _, _, h => h
  | b :: l, a, _, h => Keeps.setDevBytes l (a + 1) (h.setDevByte a b)

theorem Keeps.markWrite (h : Keeps s t) (c o a n : Nat) : Keeps s (Machine.markWrite c o a n t) := by
  unfold Machine.markWrite; split
  · exact h
  · refine Keeps.foldl (fun u w hu => ?_) _ (h.detectWords _ _ _)
    repeat' split
    · exact hu.same rfl rfl rfl
    · exact Keeps.countFixed (by exact hu.same rfl rfl rfl) _ _
    · exact hu

theorem Keeps.markOwner (h : Keeps s t) (r a n : Nat) : Keeps s (Machine.markOwner r a n t) := by
  unfold Machine.markOwner; split
  · exact h
  · exact h.same rfl rfl rfl

theorem Keeps.touchMetas (h : Keeps s t) (a n : Nat) : Keeps s (Machine.touchMetas a n t) :=
  (h.count _ _ _).keep _

theorem Keeps.markSectors (h : Keeps s t) (c : Bool) (a n : Nat) : Keeps s (Machine.markSectors c a n t) := by
  unfold Machine.markSectors; split
  · exact h
  · exact Keeps.touchMetas (by exact (h.count _ _ _).same rfl rfl rfl) _ _

theorem Keeps.retry (h : Keeps s t) (p : Waiter → Bool) : Keeps s (t.retry p) := h.same rfl rfl rfl
theorem Keeps.wakeLine (h : Keeps s t) (a : Nat) : Keeps s (Machine.wakeLine a t) := (h.retry _).ite h

/-- A write of bytes in the device keeps the canonical form. -/
theorem Keeps.devWrite (h : Keeps s t) (ag : Agent) (c : Bool) (a : Nat) (l : List Byte) :
    Keeps s (Machine.devWrite ag c a l t) :=
  ((((h.setDevBytes _ _).markWrite _ _ _ _).markOwner _ _ _).markSectors _ _ _).wakeLine _
theorem Keeps.deviceWrite (h : Keeps s t) (c o a : Nat) (l : List Byte) : Keeps s (Machine.deviceWrite c o a l t) :=
  (((h.setDevBytes _ _).markWrite _ _ _ _).markSectors _ _ _).wakeLine _

theorem Keeps.countHbm (h : Keeps s t) (a n : Nat) : Keeps s (Machine.countHbm a n t) := by
  unfold Machine.countHbm; split
  · exact h
  · exact ((h.count _ _ _).count _ _ _).touchMetas _ _

theorem Keeps.tlbInstall (h : Keeps s t) (g n a lg : Nat) (e : Word) : Keeps s (Machine.tlbInstall g n a lg e t) := by
  unfold Machine.tlbInstall
  generalize (List.drop _ _ : List TlbEntry) = l
  exact h.keep _

theorem Keeps.countWalk (h : Keeps s t) (g n a : Nat) : Keeps s (Machine.countWalk g n a t) :=
  Keeps.count (Keeps.foldl (fun _ _ hu => hu.countHbm _ _) _ h) _ _ _

theorem Keeps.finishWalk (h : Keeps s t) (g n a : Nat) (l : List Nat) (w : Option Who) :
    Keeps s (Machine.finishWalk g n a l w t) := by
  unfold Machine.finishWalk; dsimp only; split
  · exact ((h.countWalk _ _ _).keep _).detectWords _ _ _
  · exact Keeps.foldl (fun _ _ hu => hu.tlbInstall _ _ _ _ _) _ ((h.countWalk _ _ _).keep _)

theorem Keeps.tlbFill (h : Keeps s t) (ag : Agent) (a : Nat) : Keeps s (Machine.tlbFill ag a t) := by
  unfold Machine.tlbFill; dsimp only; split
  · exact h.countWalk _ _ _
  · split
    · split
      · exact h.finishWalk _ _ _ _ _
      · exact (h.count _ _ _).finishWalk _ _ _ _ _
    · exact h

theorem Keeps.enterMiss (h : Keeps s t) (ag : Agent) (w : List Who) (a : Nat) : Keeps s (Machine.enterMiss ag w a t) := by
  unfold Machine.enterMiss; dsimp only
  exact (h.ite (h.count _ _ _)).keep _

/-! ## Registers and their marks (R249, R250) -/

theorem Keeps.cleanWords (h : Keeps s t) (a n : Nat) : Keeps s (Machine.cleanWords a n t) := by
  unfold Machine.cleanWords; dsimp only; split
  · exact h
  · exact h.same rfl rfl rfl

theorem Keeps.markOwn (h : Keeps s t) (c k o n r : Nat) : Keeps s (Machine.markOwn c k o n r t) :=
  (h.markWrite _ _ _ _).markOwner _ _ _

theorem Keeps.markBits (h : Keeps s t) (c k o n r : Nat) (f : Nat → Nat) : Keeps s (Machine.markBits c k o n r f t) := by
  refine Keeps.markOwner ?_ _ _ _
  split
  · exact h
  · refine Keeps.foldl (fun u j hu => ?_) _ h
    dsimp only
    repeat' split
    · exact hu.markWrite _ _ _ _
    · exact hu
    · exact hu.markWrite _ _ _ _

/-- Writing a scalar register keeps the memories. -/
theorem Keeps.setX (h : Keeps s t) (n : Nat) (v : Word) : Keeps s (t.setX n v) := by
  refine Keeps.markOwn (Keeps.modSeq ?_ _ _) _ _ _ _ _
  split
  · exact h.modCtx _ _
  · exact h

theorem Keeps.clearMark (h : Keeps s t) (a : Nat) : Keeps s (Machine.clearMark a t) := h.same rfl rfl rfl
theorem Keeps.setMark (h : Keeps s t) (a : Nat) : Keeps s (Machine.setMark a t) := by
  unfold Machine.setMark; dsimp only; split
  · exact h
  · exact Keeps.deviceWrite (h.modGlade _ _) _ _ _ _
theorem Keeps.setBarFields (h : Keeps s t) (ag : Agent) (a : Nat) (f : BarFields) :
    Keeps s (Machine.setBarFields ag a f t) := h.devWrite _ _ _ _
theorem Keeps.setSyncBytes (h : Keeps s t) (g o : Nat) (l : List Byte) : Keeps s (Machine.setSyncBytes g o l t) :=
  h.deviceWrite _ _ _ _
theorem Keeps.applyBar (h : Keeps s t) (ag : Agent) (a : Nat) (u : BarUpdate) :
    Keeps s (Machine.applyBar ag a u t).1 := by
  unfold Machine.applyBar; dsimp only; split
  · exact h.setMark _
  · exact (h.setMark _).setBarFields _ _ _
  · exact ((h.setMark _).setBarFields _ _ _).same rfl rfl rfl
theorem Keeps.countRead (h : Keeps s t) (p : Place) (n : Nat) : Keeps s (Machine.countRead p n t) := by
  unfold Machine.countRead; dsimp only; split
  · exact h
  · exact (h.countFixed _ _).countHbm _ _


end

/-! ## Meanings -/

/-- A part of a meaning keeps what `Keeps` says: where it ends, and what it leaves where it traps or waits. -/
structure KeepsM {α : Type} (m : M α) : Prop where
  ok : ∀ s a t, m s = .ok (a, t) → Keeps s t
  trapF : ∀ s f c v k, m s = .error (.trapWith f c v, k) → ∀ u, Keeps u (f u)
  blockF : ∀ s f o k, m s = .error (.blockWith f o, k) → ∀ u, Keeps u (f u)

theorem KeepsM.bind {α β : Type} {m : M α} {f : α → M β} (h : KeepsM m) (g : ∀ a, KeepsM (f a)) : KeepsM (m >>= f) := by
  have key (s : State) : (m >>= f) s = match m s with
      | .ok (a, t) => f a t
      | .error e => .error e := by
    simp only [Bind.bind, StateT.bind, Except.bind]
    cases m s <;> rfl
  constructor
  · intro s b u hb
    rw [key] at hb
    split at hb
    · rename_i hm; exact (h.ok _ _ _ hm).trans ((g _).ok _ _ _ hb)
    · cases hb
  · intro s w c v k hb
    rw [key] at hb
    split at hb
    · exact (g _).trapF _ _ _ _ _ hb
    · rename_i hm; cases hb; exact h.trapF _ _ _ _ _ hm
  · intro s w o k hb
    rw [key] at hb
    split at hb
    · exact (g _).blockF _ _ _ _ hb
    · rename_i hm; cases hb; exact h.blockF _ _ _ _ hm

/-- A computation that keeps the state, or whose stop leaves no effect but what its accesses have left. -/
theorem KeepsM.of {α : Type} {m : M α} (h : ∀ s, (∃ a t, m s = .ok (a, t) ∧ Keeps s t) ∨
    (∃ c v k, m s = .error (.trap c v, k)) ∨ (∃ l c v k, m s = .error (.detect l c v, k)) ∨
    ∃ o k, m s = .error (.block o, k)) : KeepsM m := by
  refine ⟨fun s a t hm => ?_, fun s f c v k hm => ?_, fun s f o k hm => ?_⟩ <;>
    rcases h s with ⟨b, u, hs, hk⟩ | ⟨_, _, _, hs⟩ | ⟨_, _, _, _, hs⟩ | ⟨_, _, hs⟩ <;> rw [hs] at hm <;> cases hm
  exact hk

theorem KeepsM.pure {α : Type} (a : α) : KeepsM (pure a : M α) := .of fun s => .inl ⟨a, s, rfl, .rfl'⟩
theorem KeepsM.gets {α : Type} (f : State → α) : KeepsM (gets' f) := .of fun s => .inl ⟨f s, s, rfl, .rfl'⟩
theorem KeepsM.modS {f : State → State} (h : ∀ s, Keeps s (f s)) : KeepsM (modS f) :=
  .of fun s => .inl ⟨(), f s, rfl, h s⟩
theorem KeepsM.trap {α : Type} (c : Nat) (v : Word) : KeepsM (trap c v : M α) := .of fun s => .inr (.inl ⟨c, v, s.msys, rfl⟩)
theorem KeepsM.block {α : Type} : KeepsM (block : M α) := .of fun s => .inr (.inr (.inr ⟨none, s.msys, rfl⟩))
theorem KeepsM.blockOn {α : Type} (k n m : Nat) : KeepsM (blockOn k n m : M α) :=
  .of fun s => .inr (.inr (.inr ⟨some (k, n, m), s.msys, rfl⟩))
theorem KeepsM.trapIf (b : Bool) (c : Nat) (v : Word) : KeepsM (trapIf b c v) := by
  unfold Machine.trapIf; split
  · exact .trap _ _
  · exact .pure _
theorem KeepsM.blockIf (b : Bool) : KeepsM (blockIf b) := by
  unfold Machine.blockIf; split
  · exact .block
  · exact .pure _
theorem KeepsM.ofExcept {α : Type} (e : Except (Nat × Word) α) : KeepsM (ofExcept e) := by
  cases e
  · exact .trap _ _
  · exact .pure _
theorem KeepsM.trapWith' {α : Type} {f : State → State} (h : ∀ s, Keeps s (f s)) (c : Nat) (v : Word) :
    KeepsM (Machine.trapWith f c v : M α) := by
  refine ⟨fun _ _ _ hm => (by cases hm), fun _ _ _ _ _ hm => ?_, fun _ _ _ _ hm => (by cases hm)⟩
  cases hm; exact h
theorem KeepsM.blockWith' {α : Type} {f : State → State} (h : ∀ s, Keeps s (f s)) (o : Option (Nat × Nat × Nat)) :
    KeepsM (Machine.blockWith f o : M α) := by
  refine ⟨fun _ _ _ hm => (by cases hm), fun _ _ _ _ _ hm => (by cases hm), fun _ _ _ _ hm => ?_⟩
  cases hm; exact h
theorem KeepsM.failM {α : Type} (f : Fail) : KeepsM (failM f : M α) := by
  refine .of fun s => ?_
  unfold Machine.failM
  split
  · exact .inr (.inl ⟨_, _, _, rfl⟩)
  · exact .inr (.inr (.inl ⟨_, _, _, _, rfl⟩))

theorem KeepsM.foldlM {α β : Type} {f : β → α → M β} (hf : ∀ b a, KeepsM (f b a)) : ∀ (l : List α) (b : β), KeepsM (l.foldlM f b)
  | [], b => .pure b
  | a :: l, b => by rw [List.foldlM_cons]; exact .bind (hf b a) fun c => KeepsM.foldlM hf l c

theorem KeepsM.forM {α : Type} {f : α → M Unit} (hf : ∀ a, KeepsM (f a)) : ∀ (l : List α), KeepsM (l.forM f)
  | [] => .pure ()
  | a :: l => .bind (hf a) fun _ => KeepsM.forM hf l

theorem KeepsM.mapM {α β : Type} {f : α → M β} (hf : ∀ a, KeepsM (f a)) : ∀ (l : List α), KeepsM (l.mapM f)
  | [] => by rw [List.mapM_nil]; exact .pure _
  | a :: l => by
    rw [List.mapM_cons]
    exact .bind (hf a) fun _ => .bind (KeepsM.mapM hf l) fun _ => .pure _

/-! ## Accesses -/

theorem KeepsM.access (ag : Agent) (via : Via) (rw : Rw) (a : Word) (n al : Nat) : KeepsM (access ag via rw a n al) := by
  refine .of fun s => ?_
  unfold Machine.access Machine.failM Machine.waitWalker
  dsimp only
  repeat' split
  all_goals first
    | exact .inr (.inr (.inr ⟨_, _, rfl⟩))
    | exact .inr (.inl ⟨_, _, _, rfl⟩)
    | exact .inr (.inr (.inl ⟨_, _, _, _, rfl⟩))
    | exact .inl ⟨_, _, rfl, Keeps.rfl'.tlbFill _ _⟩
    | exact .inl ⟨_, _, rfl, .rfl'⟩

theorem KeepsM.waitPlace (ag : Agent) (p : Place) (n : Nat) : KeepsM (waitPlace ag p n) := .bind (.gets _) fun _ => .blockIf _

theorem KeepsM.readPlace (ag : Agent) (p : Place) (n : Nat) : KeepsM (readPlace ag p n) := by
  refine .of fun s => ?_
  unfold Machine.readPlace Machine.failM
  dsimp only
  repeat' split
  · exact .inl ⟨_, _, rfl, .rfl'⟩
  · exact .inl ⟨_, _, rfl, Keeps.rfl'.modRcb _ _⟩
  · exact .inl ⟨_, _, rfl, .rfl'⟩
  · exact .inl ⟨_, _, rfl, Keeps.rfl'.modRcb _ _⟩
  all_goals first
    | exact .inr (.inl ⟨_, _, _, rfl⟩)
    | exact .inr (.inr (.inl ⟨_, _, _, _, rfl⟩))
    | exact .inl ⟨_, _, rfl, .rfl'⟩
    | exact .inl ⟨_, _, rfl, Keeps.rfl'.countRead _ _⟩

theorem KeepsM.load (ag : Agent) (via : Via) (a : Word) (n al : Nat) : KeepsM (load ag via a n al) :=
  .bind (.access _ _ _ _ _ _) fun _ => .bind (.waitPlace _ _ _) fun _ => .readPlace _ _ _

theorem KeepsM.pushPort (ag : Agent) (a : Nat) (l : List Byte) : KeepsM (pushPort ag a l) := by
  refine .of fun s => ?_
  unfold Machine.pushPort
  dsimp only
  repeat' split
  all_goals first
    | exact .inr (.inr (.inr ⟨_, _, rfl⟩))
    | exact .inl ⟨_, _, rfl, Keeps.rfl'.setCtx _ _⟩

theorem KeepsM.writePlace (ag : Agent) (p : Place) (l : List Byte) : KeepsM (Machine.writePlace ag p l) := by
  have hp := KeepsM.pushPort ag p.addr l
  have key (s : State) : Machine.writePlace ag p l s = Machine.pushPort ag p.addr l s ∨
      (∃ t, Machine.writePlace ag p l s = .ok ((), t) ∧ Keeps s t) ∨ ∃ c v k, Machine.writePlace ag p l s = .error (.trap c v, k) := by
    unfold Machine.writePlace
    dsimp only
    repeat' split
    · exact .inr (.inl ⟨_, rfl, Keeps.hostWrite _ _ .rfl'⟩)
    · exact .inl rfl
    · exact .inr (.inr ⟨_, _, _, rfl⟩)
    · exact .inr (.inl ⟨_, rfl, (Keeps.rfl'.clearMark _).devWrite _ _ _ _⟩)
    · exact .inr (.inl ⟨_, rfl, Keeps.rfl'.devWrite _ _ _ _⟩)
  refine ⟨fun s a t hm => ?_, fun s f c v k hm => ?_, fun s f o k hm => ?_⟩ <;>
    rcases key s with h | ⟨u, h, hk⟩ | ⟨c', v', k', h⟩ <;> rw [h] at hm
  · exact hp.ok _ _ _ hm
  · cases hm; exact hk
  · cases hm
  · exact hp.trapF _ _ _ _ _ hm
  · cases hm
  · cases hm
  · exact hp.blockF _ _ _ _ hm
  · cases hm
  · cases hm

/-- A store keeps the canonical form, wherever it goes. -/
theorem KeepsM.store (ag : Agent) (via : Via) (a : Word) (l : List Byte) (al : Nat) : KeepsM (store ag via a l al) :=
  .bind (.access _ _ _ _ _ _) fun _ => .bind (.waitPlace _ _ _) fun _ => .writePlace _ _ _

theorem KeepsM.poisonM (p : Place) (n : Nat) : KeepsM (poisonM p n) := by
  refine .of fun s => ?_
  unfold Machine.poisonM Machine.failM
  repeat' split
  all_goals first
    | exact .inr (.inl ⟨_, _, _, rfl⟩)
    | exact .inr (.inr (.inl ⟨_, _, _, _, rfl⟩))
    | exact .inl ⟨_, _, rfl, .rfl'⟩

theorem KeepsM.probe (ag : Agent) (via : Via) (rw : Rw) (a : Word) (n al : Nat) : KeepsM (probe ag via rw a n al) := by
  refine .bind (.access _ _ _ _ _ _) fun _ => .bind (.waitPlace _ _ _) fun _ => ?_
  show KeepsM (if _ then _ else _)
  split
  · exact .bind (.poisonM _ _) fun _ => .pure _
  · exact .pure _

theorem KeepsM.loadRange (ag : Agent) (via : Via) (a : Word) (n : Nat) : KeepsM (loadRange ag via a n) :=
  .foldlM (fun _ _ => .bind (.load _ _ _ _ _) fun _ => .pure _) _ _

theorem KeepsM.storeRange (ag : Agent) (via : Via) (a : Word) (l : List Byte) : KeepsM (storeRange ag via a l) :=
  .bind (.foldlM (fun _ _ => .bind (.store _ _ _ _ _) fun _ => .pure _) _ _) fun _ => .pure _

theorem KeepsM.load64 (ag : Agent) (a : Word) : KeepsM (load64 ag a) := .bind (.load _ _ _ _ _) fun _ => .pure _

/-- Work that a unit does for an agent keeps what its body keeps, also where it ends in a fault. -/
theorem KeepsM.attempt_done {α : Type} {m : M α} (h : KeepsM m) {ag : Agent} {s t : State} {a : α}
    (ha : attempt ag m s = .done a t) : Keeps s t := by
  unfold Machine.attempt at ha
  split at ha <;> cases ha
  exact (h.ok _ _ _ ‹_›).detach _

theorem KeepsM.attempt_fault {α : Type} {m : M α} (h : KeepsM m) {ag : Agent} {s t : State} {c : Nat} {v : Word}
    (ha : attempt ag m s = .fault c v t) : Keeps s t := by
  unfold Machine.attempt at ha
  split at ha <;> cases ha
  · exact (Keeps.rfl'.keep _).detach _
  · exact ((Keeps.rfl'.keep _).trans (h.trapF _ _ _ _ _ ‹_› _)).detach _
  · exact ((Keeps.rfl'.keep _).detectWords _ _ _).detach _

theorem KeepsM.attempt_wait {α : Type} {m : M α} {ag : Agent} {s t : State} (ha : attempt ag m s = .wait t) : Keeps s t := by
  unfold Machine.attempt at ha
  split at ha <;> cases ha
  · exact (Keeps.rfl'.keepWait _).ite ((Keeps.rfl'.keepWait _).detach _)
  · exact (Keeps.rfl'.keepWait _).detach _

/-! ## Operands -/

theorem KeepsM.gangCheck (n : Nat) : KeepsM (gangCheck n) := by
  refine .of fun s => ?_
  unfold Machine.gangCheck
  split
  · exact .inr (.inl ⟨_, _, _, rfl⟩)
  · exact .inl ⟨_, _, rfl, .rfl'⟩

theorem KeepsM.readOwn (c k o n : Nat) : KeepsM (readOwn c k o n) := by
  refine .of fun s => ?_
  unfold Machine.readOwn
  dsimp only
  repeat' split
  · exact .inl ⟨_, _, rfl, .rfl'⟩
  · exact .inr (.inr (.inl ⟨_, _, _, _, rfl⟩))
  · exact .inl ⟨_, _, rfl, Keeps.rfl'.countFixed _ _⟩

theorem KeepsM.issueSrc (a : Src) : KeepsM (issueSrc a) := by
  cases a with
  | queue n => exact .gangCheck _
  | reg n =>
    refine ⟨fun s a t hm => ?_, fun s f c v k hm => ?_, fun s f o k hm => ?_⟩ <;> simp only [Machine.issueSrc] at hm <;> split at hm
    · cases hm
    · exact (KeepsM.readOwn _ _ _ _).ok _ _ _ hm
    · cases hm
    · exact (KeepsM.readOwn _ _ _ _).trapF _ _ _ _ _ hm
    · cases hm
    · exact (KeepsM.readOwn _ _ _ _).blockF _ _ _ _ hm
  | _ => exact .pure ()

theorem KeepsM.issueSrcs : ∀ l : List Src, KeepsM (issueSrcs l)
  | [] => .pure ()
  | a :: l => .bind (.issueSrc a) fun _ => KeepsM.issueSrcs l

/-- A check of the state that may block. -/
theorem KeepsM.check (p : State → Bool) : KeepsM (fun s => if p s = true then .ok ((), s) else Machine.block s : M Unit) := by
  refine .of fun s => ?_
  split
  · exact .inl ⟨_, _, rfl, .rfl'⟩
  · exact .inr (.inr (.inr ⟨_, _, rfl⟩))

theorem KeepsM.issueDst (l : List Nat) (d : Dst) : KeepsM (issueDst l d) := by
  cases d with
  | discard => exact .pure ()
  | reg n => exact .pure ()
  | queue n =>
    refine .bind (.gangCheck _) fun _ => .bind (.of fun s => ?_) fun _ => .of fun s => ?_
    all_goals
      split
      · exact .inr (.inr (.inr ⟨_, _, rfl⟩))
      · exact .inl ⟨_, _, rfl, .rfl'⟩

theorem KeepsM.issuePops (l : List Nat) : KeepsM (issuePops l) := by
  refine .of fun s => ?_
  unfold Machine.issuePops
  split
  · exact .inl ⟨_, _, rfl, .rfl'⟩
  · exact .inr (.inr (.inr ⟨_, _, rfl⟩))

theorem KeepsM.issue (l : List Src) (d : Dst) : KeepsM (issue l d) :=
  .bind (.issueSrcs _) fun _ => .bind (.issueDst _ _) fun _ => .issuePops _

theorem KeepsM.readSrc (a : Src) : KeepsM (readSrc a) := by
  refine .of fun s => ?_
  cases a with
  | queue n =>
    simp only [Machine.readSrc]
    split
    · exact .inr (.inr (.inr ⟨_, _, rfl⟩))
    · exact .inl ⟨_, _, rfl, Keeps.rfl'.setTokens _ _ _⟩
  | _ => exact .inl ⟨_, _, rfl, .rfl'⟩

theorem KeepsM.writeDst (d : Dst) (v : Word) : KeepsM (writeDst d v) := by
  cases d
  · exact .modS fun s => Keeps.rfl'.setX _ _
  · exact .modS fun s => Keeps.rfl'.setTokens _ _ _
  · exact .pure ()

theorem KeepsM.readDst (d : Dst) : KeepsM (readDst d) := by
  cases d <;> simp only [Machine.readDst]
  · exact .readSrc _
  · exact .readSrc _
  · exact .pure 0

theorem KeepsM.thisAgent : KeepsM thisAgent := .gets _
theorem KeepsM.releaseWait (o : Order) (sc : Scope) : KeepsM (releaseWait o sc) := .bind (.gets _) fun _ => .blockIf _
theorem KeepsM.acceptOrder (l : List Order) (o : Order) : KeepsM (acceptOrder l o) := .trapIf _ _ _

/-! ## Outcomes -/

/-- Every next state of an outcome keeps what the state before it had. -/
def KeepsO (s : State) (o : Host.Outcome State Fault Refusal) : Prop := ∀ t, o = .next t → Keeps s t

theorem KeepsO.next {s t : State} (h : Keeps s t) : KeepsO s (.next t) := fun _ ht => by cases ht; exact h

/-- What a stop of a meaning leaves in its scalar pipe. -/
theorem KeepsM.stopPipe {α : Type} {m : M α} (h : KeepsM m) {s : State} {e : Stop} {k : MemSys} (hm : m s = .error (e, k)) :
    Keeps s (stopPipe e (s.stopped e k)) := by
  have hk : Keeps s (s.stopped e k) := Keeps.rfl'.stopped e k
  cases e with
  | trap c v => exact (hk.takeSync _ _ _).unwait _
  | trapWith f c v => exact ((hk.trans (h.trapF _ _ _ _ _ hm _)).takeSync _ _ _).unwait _
  | detect l c v => exact ((hk.detectWords _ _ _).takeSync _ _ _).unwait _
  | block o => exact hk.markBlocked _
  | blockWith f o => exact (hk.trans (h.blockF _ _ _ _ hm _)).markBlocked _

theorem KeepsO.runPipe {m : M (Option Word)} (h : KeepsM m) (n : Nat) (s : State) : KeepsO s (runPipe n m s) := by
  unfold Machine.runPipe
  split
  · exact .next (((h.ok _ _ _ ‹_›).modSeq _ _).unwait _)
  · exact .next (h.stopPipe ‹_›)

/-- A scalar instruction keeps what its body keeps. -/
theorem KeepsO.scalarOp {m : M Unit} (h : KeepsM m) (l : List Src) (d : Dst) (s : State) : KeepsO s (scalarOp l d m s) :=
  .runPipe (.bind (.issue l d) fun _ => .bind h fun _ => .pure _) _ _

theorem KeepsO.remoteFirst {f : State → Host.Outcome State Fault Refusal} (s : State) (h : KeepsO s (f s)) :
    KeepsO s (remoteFirst f s) := by
  unfold Machine.remoteFirst
  split
  · split
    · exact h
    · exact .next (((Keeps.rfl'.modCore _ _).takeTrap _ _).unwait _)
  · exact h

/-- An event keeps what its body keeps. -/
theorem KeepsO.runEvent {m : M Unit} (h : KeepsM m) (s : State) : KeepsO s (runEvent m s) := by
  unfold Machine.runEvent
  split
  · exact .next (h.ok _ _ _ ‹_›)
  · exact .next ((Keeps.rfl'.keep _).trans (h.trapF _ _ _ _ _ ‹_› _))
  · exact .next ((Keeps.rfl'.keep _).detectWords _ _ _)
  · exact .next (Keeps.rfl'.stopped _ _)

theorem Keeps.popItem {s t : State} (h : Keeps s t) (st : Stream) : Keeps s (popItem st t) := by
  unfold Machine.popItem; dsimp only; split
  · exact h
  · exact h.setSub _ _

theorem Keeps.subFault {s t : State} (h : Keeps s t) (st : Stream) (c : Nat) (v : Word) : Keeps s (subFault st c v t) := by
  unfold Machine.subFault; dsimp only; split
  · exact h
  · exact h.setSub _ _

/-- What a stop of a meaning leaves in its sub-queue. -/
theorem KeepsM.stopSub {α : Type} {m : M α} (h : KeepsM m) {s : State} {e : Stop} {k : MemSys} (hm : m s = .error (e, k)) :
    Keeps s (stopSub e (s.stopped e k)) := by
  have hk : Keeps s (s.stopped e k) := Keeps.rfl'.stopped e k
  cases e with
  | trap c v => exact (hk.detach _).subFault _ _ _
  | trapWith f c v => exact ((hk.trans (h.trapF _ _ _ _ _ hm _)).detach _).subFault _ _ _
  | detect l c v => exact ((hk.detectWords _ _ _).detach _).subFault _ _ _
  | block o => exact hk.detachBlocked _ _
  | blockWith f o => exact (hk.detachBlocked _ _).trans (h.blockF _ _ _ _ hm _)

/-- A vector word in its sub-queue keeps what its body keeps. -/
theorem KeepsO.runSub {m : M Unit} (h : KeepsM m) (s : State) : KeepsO s (runSub m s) := by
  unfold Machine.runSub
  split
  · exact .next ((h.ok _ _ _ ‹_›).popItem _)
  · exact .next (h.stopSub ‹_›)

end Sys2Proof.Machine
end

