-- ==== Sys2Proof/Laws/Operands.lean ====
section
/-! SUPPORT. What the checks at issue and the reading of scalar operands do when the operands are ready: the lemmas
that completion proofs cite instead of unfolding `issue`, `readSrc` and `runPipe` (R76, R100, R101). -/

namespace Sys2Proof.Machine

/-! ## The monad of the meanings -/

theorem M.bind_ok {α β : Type} {m : M α} {f : α → M β} {s t : State} {a : α} (h : m s = .ok (a, t)) :
    (m >>= f) s = f a t := by simp [bind, StateT.bind, h, Except.bind]

theorem M.bind_error {α β : Type} {m : M α} {f : α → M β} {s : State} {e : Stop × MemSys} (h : m s = .error e) :
    (m >>= f) s = .error e := by simp [bind, StateT.bind, h, Except.bind]

theorem M.pure_run {α : Type} (a : α) (s : State) : (pure a : M α) s = .ok (a, s) := rfl
theorem M.modS_run (f : State → State) (s : State) : modS f s = .ok ((), f s) := rfl
theorem M.gets_run {α : Type} (f : State → α) (s : State) : gets' f s = .ok (f s, s) := rfl
theorem M.trap_run {α : Type} (c : Nat) (v : Word) (s : State) : (trap c v : M α) s = .error (.trap c v, s.msys) := rfl
theorem M.block_run {α : Type} (s : State) : (block : M α) s = .error (.block none, s.msys) := rfl
theorem M.trapIf_false (c : Nat) (v : Word) (s : State) : trapIf false c v s = .ok ((), s) := rfl
theorem M.trapIf_true (c : Nat) (v : Word) (s : State) : trapIf true c v s = .error (.trap c v, s.msys) := rfl
theorem M.blockIf_false (s : State) : blockIf false s = .ok ((), s) := rfl
theorem M.blockIf_true (s : State) : blockIf true s = .error (.block none, s.msys) := rfl

/-- What a meaning that went through a bind has done: its first part has ended, then its second. -/
theorem M.bind_inv {α β : Type} {m : M α} {f : α → M β} {s u : State} {b : β} (h : (m >>= f) s = .ok (b, u)) :
    ∃ a t, m s = .ok (a, t) ∧ f a t = .ok (b, u) := by
  cases hm : m s with
  | error e => rw [M.bind_error hm] at h; cases h
  | ok r => exact ⟨r.1, r.2, rfl, by rwa [M.bind_ok hm] at h⟩

/-! ## Issue -/

/-- What the check of a source leaves: corrected errors of a register's word are counted (R249). -/
def srcCheck (s : State) : Src → State
  | .reg n => countFixed (s.xPlace n) (s.corrected (s.xPlace n) 8) s
  | _ => s

/-- The state after the checks at issue. -/
def checked (s : State) (l : List Src) : State := l.foldl srcCheck s

/-- Counter 0x10 of a core is that of its corrected errors. -/
theorem isFixedKey_fixed (pa : Nat) : isFixedKey (perfKey (chipCore pa) 0x10) = true := by
  have h : perfKey (chipCore pa) 0x10 < 0x60000 := by
    rw [perfKey, if_pos (by decide), chipCore]
    omega
  have g : perfKey (chipCore pa) 0x10 % 32 = 16 := by
    rw [perfKey, if_pos (by decide)]
    omega
  simp [isFixedKey, h, g]

/-- Counting corrected errors changes the memory system only. -/
theorem countFixed_keep (s : State) (pa k : Nat) : ∃ m, countFixed pa k s = s.keep m := by
  unfold countFixed count State.setPerf
  rw [isFixedKey_fixed]
  split
  · exact ⟨_, rfl⟩
  · exact ⟨s.msys, rfl⟩

/-- A check changes the memory system only. -/
theorem srcCheck_keep (s : State) (a : Src) : ∃ p, srcCheck s a = s.keep p := by
  cases a with
  | reg n => exact countFixed_keep _ _ _
  | _ => exact ⟨s.msys, rfl⟩

theorem checked_keep : ∀ (l : List Src) (s : State), ∃ p, checked s l = s.keep p
  | [], s => ⟨s.msys, rfl⟩
  | a :: l, s => by
    obtain ⟨p, hp⟩ := srcCheck_keep s a
    obtain ⟨q, hq⟩ := checked_keep l (srcCheck s a)
    exact ⟨q, by rw [show checked s (a :: l) = checked (srcCheck s a) l from rfl, hq, hp]; rfl⟩

theorem srcReady_keep (s : State) (p : MemSys) (a : Src) : srcReady (s.keep p) a = srcReady s a := by cases a <;> rfl
theorem srcVal_keep (s : State) (p : MemSys) (a : Src) : srcVal (s.keep p) a = srcVal s a := by cases a <;> rfl
theorem dstReady_keep (s : State) (p : MemSys) (l : List Nat) (d : Dst) : dstReady (s.keep p) l d = dstReady s l d := by
  cases d <;> rfl

theorem issueSrc_ok {s : State} {a : Src} (h : srcReady s a = true) : issueSrc a s = .ok ((), srcCheck s a) := by
  cases a with
  | reg n =>
    simp only [srcReady, Bool.and_eq_true, Bool.not_eq_true', Option.isNone_iff_eq_none] at h
    have hp : s.firstPoison (chipAddr s.cur.core 4 (xOffset s.cur.seq n)) 8 = none := h.2
    simp only [issueSrc, h.1, Bool.false_eq_true, if_false, readOwn, hp, srcCheck]
    split
    · rename_i hb
      simp [countFixed, State.corrected, hb.1]
    · rfl
  | queue n =>
    simp only [srcReady, decide_eq_true_eq] at h
    rw [issueSrc, gangCheck, if_neg (by omega)]
    rfl
  | _ => rfl

theorem issueSrcs_ok : ∀ {l : List Src} {s : State}, l.all (srcReady s) = true → issueSrcs l s = .ok ((), checked s l)
  | [], _, _ => rfl
  | a :: t, s, h => by
    simp only [List.all_cons, Bool.and_eq_true] at h
    obtain ⟨p, hp⟩ := srcCheck_keep s a
    have ht : t.all (srcReady (srcCheck s a)) = true := by
      rw [hp, List.all_eq_true]
      exact fun b hb => (srcReady_keep s p b).trans (List.all_eq_true.mp h.2 b hb)
    rw [issueSrcs, M.bind_ok (issueSrc_ok h.1), issueSrcs_ok ht]
    rfl

theorem issueDst_ok {s : State} {pops : List Nat} {d : Dst} (h : dstReady s pops d = true) :
    issueDst pops d s = .ok ((), s) := by
  cases d with
  | reg n => rfl
  | discard => rfl
  | queue n =>
    simp only [dstReady, Bool.and_eq_true, decide_eq_true_eq, Bool.not_eq_true'] at h
    obtain ⟨⟨⟨hg, hp⟩, hq⟩, ht⟩ := h
    have hgang : gangCheck (48 + n) s = .ok ((), s) := by rw [gangCheck, if_neg (by omega)]
    rw [issueDst, M.bind_ok hgang]
    rw [M.bind_ok (a := ()) (t := s) (by rw [if_neg (by rw [hp]; decide)])]
    rw [if_neg (by rw [ht]; simp only [Bool.true_eq_false, or_false]; omega)]

/-- The checks at issue pass when every operand is ready. -/
theorem issue_ok {s : State} {l : List Src} {d : Dst} (h : operandsReady s l d = true) :
    issue l d s = .ok ((), checked s l) := by
  simp only [operandsReady, Bool.and_eq_true] at h
  obtain ⟨p, hp⟩ := checked_keep l s
  have hd : dstReady (checked s l) (Src.queues l) d = true := by rw [hp, dstReady_keep]; exact h.1.1.2
  rw [issue, M.bind_ok (issueSrcs_ok h.1.1.1), M.bind_ok (issueDst_ok hd), issuePops, if_pos]
  rw [hp]
  exact Bool.and_eq_true_iff.mpr ⟨h.1.2, h.2⟩

/-- A scalar instruction whose operands are ready ends where its body does. -/
theorem scalarOp_ok {s t : State} {srcs : List Src} {d : Dst} {body : M Unit}
    (h : operandsReady s srcs d = true) (hb : body (checked s srcs) = .ok ((), t)) :
    scalarOp srcs d body s = ends s (lenOf srcs) t := by
  simp only [scalarOp, runPipe, M.bind_ok (issue_ok h), M.bind_ok hb, M.pure_run, ends, endsAt]

/-- A scalar instruction whose operands are ready traps where its body does. -/
theorem scalarOp_trap {s : State} {srcs : List Src} {d : Dst} {body : M Unit} {c : Nat} {v : Word} {m : MemSys}
    (h : operandsReady s srcs d = true) (hb : body (checked s srcs) = .error (.trap c v, m)) :
    scalarOp srcs d body s = traps (s.keep m) c v := by
  simp only [scalarOp, runPipe, M.bind_ok (issue_ok h), M.bind_error hb, traps, stopPipe, State.stopped]

/-- A scalar instruction whose operands are ready waits where its body does. -/
theorem scalarOp_block {s : State} {srcs : List Src} {d : Dst} {body : M Unit} {m : MemSys}
    (h : operandsReady s srcs d = true) (hb : body (checked s srcs) = .error (.block none, m)) :
    scalarOp srcs d body s = waits (s.keepWait m) := by
  simp only [scalarOp, runPipe, M.bind_ok (issue_ok h), M.bind_error hb, waits, stopPipe, State.stopped]

/-! ## Reading and writing operands -/

@[simp] theorem setTokens_cur (s : State) (c k : Nat) (l : List Word) : (s.setTokens c k l).cur = s.cur := rfl
theorem srcPop_eq (s : State) (a : Src) : srcPop s a = srcTake (srcCheck s a) a := by cases a <;> rfl

/-- Counting and taking a source commute. -/
theorem srcTake_count (s : State) (a : Src) (c n k : Nat) : srcTake (count c n k s) a = count c n k (srcTake s a) := by
  unfold count State.setPerf
  repeat' split
  all_goals cases a <;> rfl

/-- Checking a source and taking another commute. -/
theorem srcTake_check (s : State) (a b : Src) : srcTake (srcCheck s b) a = srcCheck (srcTake s a) b := by
  cases b with
  | reg n =>
    cases a with
    | queue k =>
      show srcTake (countFixed _ _ s) _ = countFixed (s.xPlace n) (s.corrected (s.xPlace n) 8) (srcTake s (.queue k))
      unfold countFixed
      split
      · exact srcTake_count _ _ _ _ _
      · rfl
    | _ => rfl
  | _ => rfl

theorem srcVal_check (s : State) (a b : Src) : srcVal (srcCheck s b) a = srcVal s a := by
  obtain ⟨p, hp⟩ := srcCheck_keep s b
  rw [hp, srcVal_keep]

@[simp] theorem srcPop_cur (s : State) (a : Src) : (srcPop s a).cur = s.cur := by
  obtain ⟨p, hp⟩ := srcCheck_keep s a
  rw [srcPop_eq, hp]
  cases a <;> rfl
@[simp] theorem srcVal_zero (s : State) : srcVal s .zero = 0 := rfl
@[simp] theorem srcVal_lit32 (s : State) (v : BitVec 32) : srcVal s (.lit32 v) = v.signExtend 64 := rfl
@[simp] theorem srcVal_lit64 (s : State) (v : Word) : srcVal s (.lit64 v) = v := rfl

theorem readSrc_ok {s : State} {a : Src} (h : hasEntry s a = true) : readSrc a s = .ok (srcVal s a, srcTake s a) := by
  cases a with
  | queue n =>
    simp only [hasEntry] at h
    cases hq : s.tokens n with
    | nil => simp [hq] at h
    | cons v t => simp [readSrc, hq, srcVal, srcTake]
  | _ => rfl

theorem writeDst_ok (d : Dst) (v : Word) (s : State) : writeDst d v s = .ok ((), dstPut d v s) := by
  cases d <;> rfl

@[simp] theorem ctx_modCtx_self (s : State) (c : Nat) (f : Context → Context) : (s.modCtx c f).ctx c = f (s.ctx c) := by
  simp [State.modCtx, State.setCtx, State.setCore, State.ctx, State.core, Tab.get_put_self]

theorem ctx_modCtx_other (s : State) {c e : Nat} (f : Context → Context) (h : e ≠ c) :
    (s.modCtx c f).ctx e = s.ctx e := by
  simp [State.modCtx, State.setCtx, State.setCore, State.ctx, State.core, Tab.get_put_other _ _ _ h]

/-- A queue that is taken loses its oldest entry; the other queues stay. -/
theorem tokens_srcTake (s : State) (n k : Nat) :
    (srcTake s (.queue n)).tokens k = if k = n then (s.tokens n).tail else s.tokens k := by
  have h := ctx_modCtx_self s s.cur.core (fun x => { x with tq := Tab.set [] x.tq n (s.tokens n).tail })
  show Tab.get [] ((s.modCtx s.cur.core _).ctx s.cur.core).tq k = _
  rw [h]
  by_cases hk : k = n
  · subst hk; simp [Tab.get_set_self]
  · simp [hk, Tab.get_set_other _ _ _ hk, State.tokens]

theorem hasEntry_keep (s : State) (p : MemSys) (a : Src) : hasEntry (s.keep p) a = hasEntry s a := by cases a <;> rfl
theorem hasEntry_checked (s : State) (l : List Src) (a : Src) : hasEntry (checked s l) a = hasEntry s a := by
  obtain ⟨p, hp⟩ := checked_keep l s
  rw [hp, hasEntry_keep]

/-- With the sources ready, the first has an entry, and the others have theirs after the first is taken. -/
theorem hasEntry_first {s : State} {a : Src} {l : List Src} (h : poppable s (Src.queues (a :: l)) = true) :
    hasEntry s a = true := by
  cases a with
  | queue n =>
    simp [poppable, Src.queues] at h
    have h1 := h.1
    simp only [hasEntry, Bool.not_eq_true', List.isEmpty_eq_false_iff]
    intro hn
    rw [hn] at h1
    simp at h1
  | _ => rfl

theorem poppable_rest {s : State} {a : Src} {l : List Src} (h : poppable s (Src.queues (a :: l)) = true) :
    poppable (srcTake s a) (Src.queues l) = true := by
  cases a with
  | queue n =>
    simp only [poppable, Src.queues, List.all_cons, Bool.and_eq_true, decide_eq_true_eq, List.all_eq_true,
      List.filter_cons] at h ⊢
    intro k hk
    obtain ⟨h0, h1⟩ := h
    have h2 := h1 k hk
    rw [tokens_srcTake]
    split
    · rename_i hkn
      subst hkn
      simp at h2 ⊢
      omega
    · rename_i hkn
      have : (n == k) = false := by simpa using fun h => hkn h.symm
      simpa [this] using h2
  | _ => simpa [srcTake, Src.queues] using h

/-! ## The shapes of scalar instructions -/

theorem ready_poppable {s : State} {l : List Src} {d : Dst} (h : operandsReady s l d = true) :
    poppable (checked s l) (Src.queues l) = true := by
  obtain ⟨p, hp⟩ := checked_keep l s
  simp only [operandsReady, Bool.and_eq_true] at h
  rw [hp]
  exact h.1.2

theorem unOp_ok {s : State} {a : Src} {d : Dst} (f : Word → Word) (h : operandsReady s [a] d = true) :
    unOp d a f s = ends1 s a d f := by
  have ha := readSrc_ok (hasEntry_first (ready_poppable h))
  refine scalarOp_ok h ?_
  rw [M.bind_ok ha, writeDst_ok]
  simp only [checked, List.foldl, srcVal_check, ← srcPop_eq]

/-- Two sources that are checked and then taken are popped one after the other. -/
theorem taken_two (s : State) (a b : Src) : srcTake (srcTake (checked s [a, b]) a) b = srcPop (srcPop s a) b := by
  simp only [checked, List.foldl]
  rw [srcTake_check _ a b, srcPop_eq (srcPop s a) b, srcPop_eq s a]

theorem val_two (s : State) (a b : Src) :
    srcVal (srcTake (checked s [a, b]) a) b = srcVal (srcPop s a) b := by
  simp only [checked, List.foldl]
  rw [srcTake_check _ a b, srcVal_check, srcPop_eq s a]

theorem binOp_ok {s : State} {a b : Src} {d : Dst} (f : Word → Word → Word)
    (h : operandsReady s [a, b] d = true) : binOp d a b f s = ends2 s a b d f := by
  have hp := ready_poppable h
  have ha := readSrc_ok (hasEntry_first hp)
  have hb := readSrc_ok (hasEntry_first (poppable_rest hp))
  refine scalarOp_ok h ?_
  rw [M.bind_ok ha, M.bind_ok hb, writeDst_ok, taken_two, val_two]
  simp only [checked, List.foldl, srcVal_check]

end Sys2Proof.Machine
end

