-- ==== Sys2Proof/Laws/State.lean ====
section
/-! SUPPORT. What each update of the state leaves alone: one lemma per field and update, true by unfolding, and what
a read after an update answers. -/

namespace Sys2Proof.Machine

section
variable (s : State) (c : Nat) (k : Core)

@[simp] theorem setCore_groves : (s.setCore c k).groves = s.groves := rfl
@[simp] theorem setCore_glades : (s.setCore c k).glades = s.glades := rfl
@[simp] theorem setCore_mem : (s.setCore c k).mem = s.mem := rfl
@[simp] theorem setCore_hostMem : (s.setCore c k).hostMem = s.hostMem := rfl
@[simp] theorem setCore_owner : (s.setCore c k).owner = s.owner := rfl
@[simp] theorem setCore_poison : (s.setCore c k).poison = s.poison := rfl
@[simp] theorem setCore_biterr : (s.setCore c k).biterr = s.biterr := rfl
@[simp] theorem setCore_comp : (s.setCore c k).comp = s.comp := rfl
@[simp] theorem setCore_msys : (s.setCore c k).msys = s.msys := rfl
@[simp] theorem setCore_rcbs : (s.setCore c k).rcbs = s.rcbs := rfl
@[simp] theorem setCore_tenants : (s.setCore c k).tenants = s.tenants := rfl
@[simp] theorem setCore_pages : (s.setCore c k).pages = s.pages := rfl
@[simp] theorem setCore_route : (s.setCore c k).route = s.route := rfl
@[simp] theorem setCore_pairs : (s.setCore c k).pairs = s.pairs := rfl
@[simp] theorem setCore_links : (s.setCore c k).links = s.links := rfl
@[simp] theorem setCore_prefixes : (s.setCore c k).prefixes = s.prefixes := rfl
@[simp] theorem setCore_advertised : (s.setCore c k).advertised = s.advertised := rfl
@[simp] theorem setCore_reqs : (s.setCore c k).reqs = s.reqs := rfl
@[simp] theorem setCore_recvs : (s.setCore c k).recvs = s.recvs := rfl
@[simp] theorem setCore_sends : (s.setCore c k).sends = s.sends := rfl
@[simp] theorem setCore_nextOrder : (s.setCore c k).nextOrder = s.nextOrder := rfl
@[simp] theorem setCore_saveBase : (s.setCore c k).saveBase = s.saveBase := rfl
@[simp] theorem setCore_saveSize : (s.setCore c k).saveSize = s.saveSize := rfl
@[simp] theorem setCore_saved : (s.setCore c k).saved = s.saved := rfl
@[simp] theorem setCore_remote : (s.setCore c k).remote = s.remote := rfl
@[simp] theorem setCore_nextOp : (s.setCore c k).nextOp = s.nextOp := rfl
@[simp] theorem setCore_held : (s.setCore c k).held = s.held := rfl
@[simp] theorem setCore_forwards : (s.setCore c k).forwards = s.forwards := rfl
@[simp] theorem setCore_delayed : (s.setCore c k).delayed = s.delayed := rfl
@[simp] theorem setCore_out : (s.setCore c k).out = s.out := rfl
@[simp] theorem setCore_mgmtEvents : (s.setCore c k).mgmtEvents = s.mgmtEvents := rfl
@[simp] theorem setCore_tinvTenant : (s.setCore c k).tinvTenant = s.tinvTenant := rfl
@[simp] theorem setCore_tinvAll : (s.setCore c k).tinvAll = s.tinvAll := rfl
@[simp] theorem setCore_tinvJob : (s.setCore c k).tinvJob = s.tinvJob := rfl
@[simp] theorem setCore_tinvStart : (s.setCore c k).tinvStart = s.tinvStart := rfl
@[simp] theorem setCore_tinvEnd : (s.setCore c k).tinvEnd = s.tinvEnd := rfl
@[simp] theorem setCore_fsusp : (s.setCore c k).fsusp = s.fsusp := rfl
@[simp] theorem setCore_timer : (s.setCore c k).timer = s.timer := rfl
@[simp] theorem setCore_cycles : (s.setCore c k).cycles = s.cycles := rfl
@[simp] theorem setCore_perf : (s.setCore c k).perf = s.perf := rfl
@[simp] theorem setCore_bootState : (s.setCore c k).bootState = s.bootState := rfl
@[simp] theorem setCore_mr : (s.setCore c k).mr = s.mr := rfl
@[simp] theorem setCore_flash : (s.setCore c k).flash = s.flash := rfl
@[simp] theorem setCore_i3cAddr : (s.setCore c k).i3cAddr = s.i3cAddr := rfl
@[simp] theorem setCore_i3cBuf : (s.setCore c k).i3cBuf = s.i3cBuf := rfl
@[simp] theorem setCore_clockMHz : (s.setCore c k).clockMHz = s.clockMHz := rfl
@[simp] theorem setCore_overtemp : (s.setCore c k).overtemp = s.overtemp := rfl
@[simp] theorem setCore_agenda : (s.setCore c k).agenda = s.agenda := rfl
@[simp] theorem setCore_cur : (s.setCore c k).cur = s.cur := rfl
@[simp] theorem setCore_fresh : (s.setCore c k).fresh = s.fresh := rfl
@[simp] theorem setCore_waiters : (s.setCore c k).waiters = s.waiters := rfl
@[simp] theorem setCore_barCycle : (s.setCore c k).barCycle = s.barCycle := rfl
@[simp] theorem setCore_images : (s.setCore c k).images = s.images := rfl

end

section
variable (s : State) (c : Nat) (f : Core → Core)

@[simp] theorem modCore_groves : (s.modCore c f).groves = s.groves := rfl
@[simp] theorem modCore_glades : (s.modCore c f).glades = s.glades := rfl
@[simp] theorem modCore_mem : (s.modCore c f).mem = s.mem := rfl
@[simp] theorem modCore_hostMem : (s.modCore c f).hostMem = s.hostMem := rfl
@[simp] theorem modCore_owner : (s.modCore c f).owner = s.owner := rfl
@[simp] theorem modCore_poison : (s.modCore c f).poison = s.poison := rfl
@[simp] theorem modCore_biterr : (s.modCore c f).biterr = s.biterr := rfl
@[simp] theorem modCore_comp : (s.modCore c f).comp = s.comp := rfl
@[simp] theorem modCore_msys : (s.modCore c f).msys = s.msys := rfl
@[simp] theorem modCore_rcbs : (s.modCore c f).rcbs = s.rcbs := rfl
@[simp] theorem modCore_tenants : (s.modCore c f).tenants = s.tenants := rfl
@[simp] theorem modCore_pages : (s.modCore c f).pages = s.pages := rfl
@[simp] theorem modCore_route : (s.modCore c f).route = s.route := rfl
@[simp] theorem modCore_pairs : (s.modCore c f).pairs = s.pairs := rfl
@[simp] theorem modCore_links : (s.modCore c f).links = s.links := rfl
@[simp] theorem modCore_prefixes : (s.modCore c f).prefixes = s.prefixes := rfl
@[simp] theorem modCore_advertised : (s.modCore c f).advertised = s.advertised := rfl
@[simp] theorem modCore_reqs : (s.modCore c f).reqs = s.reqs := rfl
@[simp] theorem modCore_recvs : (s.modCore c f).recvs = s.recvs := rfl
@[simp] theorem modCore_sends : (s.modCore c f).sends = s.sends := rfl
@[simp] theorem modCore_nextOrder : (s.modCore c f).nextOrder = s.nextOrder := rfl
@[simp] theorem modCore_saveBase : (s.modCore c f).saveBase = s.saveBase := rfl
@[simp] theorem modCore_saveSize : (s.modCore c f).saveSize = s.saveSize := rfl
@[simp] theorem modCore_saved : (s.modCore c f).saved = s.saved := rfl
@[simp] theorem modCore_remote : (s.modCore c f).remote = s.remote := rfl
@[simp] theorem modCore_nextOp : (s.modCore c f).nextOp = s.nextOp := rfl
@[simp] theorem modCore_held : (s.modCore c f).held = s.held := rfl
@[simp] theorem modCore_forwards : (s.modCore c f).forwards = s.forwards := rfl
@[simp] theorem modCore_delayed : (s.modCore c f).delayed = s.delayed := rfl
@[simp] theorem modCore_out : (s.modCore c f).out = s.out := rfl
@[simp] theorem modCore_mgmtEvents : (s.modCore c f).mgmtEvents = s.mgmtEvents := rfl
@[simp] theorem modCore_tinvTenant : (s.modCore c f).tinvTenant = s.tinvTenant := rfl
@[simp] theorem modCore_tinvAll : (s.modCore c f).tinvAll = s.tinvAll := rfl
@[simp] theorem modCore_tinvJob : (s.modCore c f).tinvJob = s.tinvJob := rfl
@[simp] theorem modCore_tinvStart : (s.modCore c f).tinvStart = s.tinvStart := rfl
@[simp] theorem modCore_tinvEnd : (s.modCore c f).tinvEnd = s.tinvEnd := rfl
@[simp] theorem modCore_fsusp : (s.modCore c f).fsusp = s.fsusp := rfl
@[simp] theorem modCore_timer : (s.modCore c f).timer = s.timer := rfl
@[simp] theorem modCore_cycles : (s.modCore c f).cycles = s.cycles := rfl
@[simp] theorem modCore_perf : (s.modCore c f).perf = s.perf := rfl
@[simp] theorem modCore_bootState : (s.modCore c f).bootState = s.bootState := rfl
@[simp] theorem modCore_mr : (s.modCore c f).mr = s.mr := rfl
@[simp] theorem modCore_flash : (s.modCore c f).flash = s.flash := rfl
@[simp] theorem modCore_i3cAddr : (s.modCore c f).i3cAddr = s.i3cAddr := rfl
@[simp] theorem modCore_i3cBuf : (s.modCore c f).i3cBuf = s.i3cBuf := rfl
@[simp] theorem modCore_clockMHz : (s.modCore c f).clockMHz = s.clockMHz := rfl
@[simp] theorem modCore_overtemp : (s.modCore c f).overtemp = s.overtemp := rfl
@[simp] theorem modCore_agenda : (s.modCore c f).agenda = s.agenda := rfl
@[simp] theorem modCore_cur : (s.modCore c f).cur = s.cur := rfl
@[simp] theorem modCore_fresh : (s.modCore c f).fresh = s.fresh := rfl
@[simp] theorem modCore_waiters : (s.modCore c f).waiters = s.waiters := rfl
@[simp] theorem modCore_barCycle : (s.modCore c f).barCycle = s.barCycle := rfl
@[simp] theorem modCore_images : (s.modCore c f).images = s.images := rfl

end

section
variable (s : State) (c : Nat) (x : Context)

@[simp] theorem setCtx_groves : (s.setCtx c x).groves = s.groves := rfl
@[simp] theorem setCtx_glades : (s.setCtx c x).glades = s.glades := rfl
@[simp] theorem setCtx_mem : (s.setCtx c x).mem = s.mem := rfl
@[simp] theorem setCtx_hostMem : (s.setCtx c x).hostMem = s.hostMem := rfl
@[simp] theorem setCtx_owner : (s.setCtx c x).owner = s.owner := rfl
@[simp] theorem setCtx_poison : (s.setCtx c x).poison = s.poison := rfl
@[simp] theorem setCtx_biterr : (s.setCtx c x).biterr = s.biterr := rfl
@[simp] theorem setCtx_comp : (s.setCtx c x).comp = s.comp := rfl
@[simp] theorem setCtx_msys : (s.setCtx c x).msys = s.msys := rfl
@[simp] theorem setCtx_rcbs : (s.setCtx c x).rcbs = s.rcbs := rfl
@[simp] theorem setCtx_tenants : (s.setCtx c x).tenants = s.tenants := rfl
@[simp] theorem setCtx_pages : (s.setCtx c x).pages = s.pages := rfl
@[simp] theorem setCtx_route : (s.setCtx c x).route = s.route := rfl
@[simp] theorem setCtx_pairs : (s.setCtx c x).pairs = s.pairs := rfl
@[simp] theorem setCtx_links : (s.setCtx c x).links = s.links := rfl
@[simp] theorem setCtx_prefixes : (s.setCtx c x).prefixes = s.prefixes := rfl
@[simp] theorem setCtx_advertised : (s.setCtx c x).advertised = s.advertised := rfl
@[simp] theorem setCtx_reqs : (s.setCtx c x).reqs = s.reqs := rfl
@[simp] theorem setCtx_recvs : (s.setCtx c x).recvs = s.recvs := rfl
@[simp] theorem setCtx_sends : (s.setCtx c x).sends = s.sends := rfl
@[simp] theorem setCtx_nextOrder : (s.setCtx c x).nextOrder = s.nextOrder := rfl
@[simp] theorem setCtx_saveBase : (s.setCtx c x).saveBase = s.saveBase := rfl
@[simp] theorem setCtx_saveSize : (s.setCtx c x).saveSize = s.saveSize := rfl
@[simp] theorem setCtx_saved : (s.setCtx c x).saved = s.saved := rfl
@[simp] theorem setCtx_remote : (s.setCtx c x).remote = s.remote := rfl
@[simp] theorem setCtx_nextOp : (s.setCtx c x).nextOp = s.nextOp := rfl
@[simp] theorem setCtx_held : (s.setCtx c x).held = s.held := rfl
@[simp] theorem setCtx_forwards : (s.setCtx c x).forwards = s.forwards := rfl
@[simp] theorem setCtx_delayed : (s.setCtx c x).delayed = s.delayed := rfl
@[simp] theorem setCtx_out : (s.setCtx c x).out = s.out := rfl
@[simp] theorem setCtx_mgmtEvents : (s.setCtx c x).mgmtEvents = s.mgmtEvents := rfl
@[simp] theorem setCtx_tinvTenant : (s.setCtx c x).tinvTenant = s.tinvTenant := rfl
@[simp] theorem setCtx_tinvAll : (s.setCtx c x).tinvAll = s.tinvAll := rfl
@[simp] theorem setCtx_tinvJob : (s.setCtx c x).tinvJob = s.tinvJob := rfl
@[simp] theorem setCtx_tinvStart : (s.setCtx c x).tinvStart = s.tinvStart := rfl
@[simp] theorem setCtx_tinvEnd : (s.setCtx c x).tinvEnd = s.tinvEnd := rfl
@[simp] theorem setCtx_fsusp : (s.setCtx c x).fsusp = s.fsusp := rfl
@[simp] theorem setCtx_timer : (s.setCtx c x).timer = s.timer := rfl
@[simp] theorem setCtx_cycles : (s.setCtx c x).cycles = s.cycles := rfl
@[simp] theorem setCtx_perf : (s.setCtx c x).perf = s.perf := rfl
@[simp] theorem setCtx_bootState : (s.setCtx c x).bootState = s.bootState := rfl
@[simp] theorem setCtx_mr : (s.setCtx c x).mr = s.mr := rfl
@[simp] theorem setCtx_flash : (s.setCtx c x).flash = s.flash := rfl
@[simp] theorem setCtx_i3cAddr : (s.setCtx c x).i3cAddr = s.i3cAddr := rfl
@[simp] theorem setCtx_i3cBuf : (s.setCtx c x).i3cBuf = s.i3cBuf := rfl
@[simp] theorem setCtx_clockMHz : (s.setCtx c x).clockMHz = s.clockMHz := rfl
@[simp] theorem setCtx_overtemp : (s.setCtx c x).overtemp = s.overtemp := rfl
@[simp] theorem setCtx_agenda : (s.setCtx c x).agenda = s.agenda := rfl
@[simp] theorem setCtx_cur : (s.setCtx c x).cur = s.cur := rfl
@[simp] theorem setCtx_fresh : (s.setCtx c x).fresh = s.fresh := rfl
@[simp] theorem setCtx_waiters : (s.setCtx c x).waiters = s.waiters := rfl
@[simp] theorem setCtx_barCycle : (s.setCtx c x).barCycle = s.barCycle := rfl
@[simp] theorem setCtx_images : (s.setCtx c x).images = s.images := rfl

end

section
variable (s : State) (c : Nat) (f : Context → Context)

@[simp] theorem modCtx_groves : (s.modCtx c f).groves = s.groves := rfl
@[simp] theorem modCtx_glades : (s.modCtx c f).glades = s.glades := rfl
@[simp] theorem modCtx_mem : (s.modCtx c f).mem = s.mem := rfl
@[simp] theorem modCtx_hostMem : (s.modCtx c f).hostMem = s.hostMem := rfl
@[simp] theorem modCtx_owner : (s.modCtx c f).owner = s.owner := rfl
@[simp] theorem modCtx_poison : (s.modCtx c f).poison = s.poison := rfl
@[simp] theorem modCtx_biterr : (s.modCtx c f).biterr = s.biterr := rfl
@[simp] theorem modCtx_comp : (s.modCtx c f).comp = s.comp := rfl
@[simp] theorem modCtx_msys : (s.modCtx c f).msys = s.msys := rfl
@[simp] theorem modCtx_rcbs : (s.modCtx c f).rcbs = s.rcbs := rfl
@[simp] theorem modCtx_tenants : (s.modCtx c f).tenants = s.tenants := rfl
@[simp] theorem modCtx_pages : (s.modCtx c f).pages = s.pages := rfl
@[simp] theorem modCtx_route : (s.modCtx c f).route = s.route := rfl
@[simp] theorem modCtx_pairs : (s.modCtx c f).pairs = s.pairs := rfl
@[simp] theorem modCtx_links : (s.modCtx c f).links = s.links := rfl
@[simp] theorem modCtx_prefixes : (s.modCtx c f).prefixes = s.prefixes := rfl
@[simp] theorem modCtx_advertised : (s.modCtx c f).advertised = s.advertised := rfl
@[simp] theorem modCtx_reqs : (s.modCtx c f).reqs = s.reqs := rfl
@[simp] theorem modCtx_recvs : (s.modCtx c f).recvs = s.recvs := rfl
@[simp] theorem modCtx_sends : (s.modCtx c f).sends = s.sends := rfl
@[simp] theorem modCtx_nextOrder : (s.modCtx c f).nextOrder = s.nextOrder := rfl
@[simp] theorem modCtx_saveBase : (s.modCtx c f).saveBase = s.saveBase := rfl
@[simp] theorem modCtx_saveSize : (s.modCtx c f).saveSize = s.saveSize := rfl
@[simp] theorem modCtx_saved : (s.modCtx c f).saved = s.saved := rfl
@[simp] theorem modCtx_remote : (s.modCtx c f).remote = s.remote := rfl
@[simp] theorem modCtx_nextOp : (s.modCtx c f).nextOp = s.nextOp := rfl
@[simp] theorem modCtx_held : (s.modCtx c f).held = s.held := rfl
@[simp] theorem modCtx_forwards : (s.modCtx c f).forwards = s.forwards := rfl
@[simp] theorem modCtx_delayed : (s.modCtx c f).delayed = s.delayed := rfl
@[simp] theorem modCtx_out : (s.modCtx c f).out = s.out := rfl
@[simp] theorem modCtx_mgmtEvents : (s.modCtx c f).mgmtEvents = s.mgmtEvents := rfl
@[simp] theorem modCtx_tinvTenant : (s.modCtx c f).tinvTenant = s.tinvTenant := rfl
@[simp] theorem modCtx_tinvAll : (s.modCtx c f).tinvAll = s.tinvAll := rfl
@[simp] theorem modCtx_tinvJob : (s.modCtx c f).tinvJob = s.tinvJob := rfl
@[simp] theorem modCtx_tinvStart : (s.modCtx c f).tinvStart = s.tinvStart := rfl
@[simp] theorem modCtx_tinvEnd : (s.modCtx c f).tinvEnd = s.tinvEnd := rfl
@[simp] theorem modCtx_fsusp : (s.modCtx c f).fsusp = s.fsusp := rfl
@[simp] theorem modCtx_timer : (s.modCtx c f).timer = s.timer := rfl
@[simp] theorem modCtx_cycles : (s.modCtx c f).cycles = s.cycles := rfl
@[simp] theorem modCtx_perf : (s.modCtx c f).perf = s.perf := rfl
@[simp] theorem modCtx_bootState : (s.modCtx c f).bootState = s.bootState := rfl
@[simp] theorem modCtx_mr : (s.modCtx c f).mr = s.mr := rfl
@[simp] theorem modCtx_flash : (s.modCtx c f).flash = s.flash := rfl
@[simp] theorem modCtx_i3cAddr : (s.modCtx c f).i3cAddr = s.i3cAddr := rfl
@[simp] theorem modCtx_i3cBuf : (s.modCtx c f).i3cBuf = s.i3cBuf := rfl
@[simp] theorem modCtx_clockMHz : (s.modCtx c f).clockMHz = s.clockMHz := rfl
@[simp] theorem modCtx_overtemp : (s.modCtx c f).overtemp = s.overtemp := rfl
@[simp] theorem modCtx_agenda : (s.modCtx c f).agenda = s.agenda := rfl
@[simp] theorem modCtx_cur : (s.modCtx c f).cur = s.cur := rfl
@[simp] theorem modCtx_fresh : (s.modCtx c f).fresh = s.fresh := rfl
@[simp] theorem modCtx_waiters : (s.modCtx c f).waiters = s.waiters := rfl
@[simp] theorem modCtx_barCycle : (s.modCtx c f).barCycle = s.barCycle := rfl
@[simp] theorem modCtx_images : (s.modCtx c f).images = s.images := rfl

end

section
variable (s : State) (st : Stream) (q : Seq)

@[simp] theorem setSeq_groves : (s.setSeq st q).groves = s.groves := rfl
@[simp] theorem setSeq_glades : (s.setSeq st q).glades = s.glades := rfl
@[simp] theorem setSeq_mem : (s.setSeq st q).mem = s.mem := rfl
@[simp] theorem setSeq_hostMem : (s.setSeq st q).hostMem = s.hostMem := rfl
@[simp] theorem setSeq_owner : (s.setSeq st q).owner = s.owner := rfl
@[simp] theorem setSeq_poison : (s.setSeq st q).poison = s.poison := rfl
@[simp] theorem setSeq_biterr : (s.setSeq st q).biterr = s.biterr := rfl
@[simp] theorem setSeq_comp : (s.setSeq st q).comp = s.comp := rfl
@[simp] theorem setSeq_msys : (s.setSeq st q).msys = s.msys := rfl
@[simp] theorem setSeq_rcbs : (s.setSeq st q).rcbs = s.rcbs := rfl
@[simp] theorem setSeq_tenants : (s.setSeq st q).tenants = s.tenants := rfl
@[simp] theorem setSeq_pages : (s.setSeq st q).pages = s.pages := rfl
@[simp] theorem setSeq_route : (s.setSeq st q).route = s.route := rfl
@[simp] theorem setSeq_pairs : (s.setSeq st q).pairs = s.pairs := rfl
@[simp] theorem setSeq_links : (s.setSeq st q).links = s.links := rfl
@[simp] theorem setSeq_prefixes : (s.setSeq st q).prefixes = s.prefixes := rfl
@[simp] theorem setSeq_advertised : (s.setSeq st q).advertised = s.advertised := rfl
@[simp] theorem setSeq_reqs : (s.setSeq st q).reqs = s.reqs := rfl
@[simp] theorem setSeq_recvs : (s.setSeq st q).recvs = s.recvs := rfl
@[simp] theorem setSeq_sends : (s.setSeq st q).sends = s.sends := rfl
@[simp] theorem setSeq_nextOrder : (s.setSeq st q).nextOrder = s.nextOrder := rfl
@[simp] theorem setSeq_saveBase : (s.setSeq st q).saveBase = s.saveBase := rfl
@[simp] theorem setSeq_saveSize : (s.setSeq st q).saveSize = s.saveSize := rfl
@[simp] theorem setSeq_saved : (s.setSeq st q).saved = s.saved := rfl
@[simp] theorem setSeq_remote : (s.setSeq st q).remote = s.remote := rfl
@[simp] theorem setSeq_nextOp : (s.setSeq st q).nextOp = s.nextOp := rfl
@[simp] theorem setSeq_held : (s.setSeq st q).held = s.held := rfl
@[simp] theorem setSeq_forwards : (s.setSeq st q).forwards = s.forwards := rfl
@[simp] theorem setSeq_delayed : (s.setSeq st q).delayed = s.delayed := rfl
@[simp] theorem setSeq_out : (s.setSeq st q).out = s.out := rfl
@[simp] theorem setSeq_mgmtEvents : (s.setSeq st q).mgmtEvents = s.mgmtEvents := rfl
@[simp] theorem setSeq_tinvTenant : (s.setSeq st q).tinvTenant = s.tinvTenant := rfl
@[simp] theorem setSeq_tinvAll : (s.setSeq st q).tinvAll = s.tinvAll := rfl
@[simp] theorem setSeq_tinvJob : (s.setSeq st q).tinvJob = s.tinvJob := rfl
@[simp] theorem setSeq_tinvStart : (s.setSeq st q).tinvStart = s.tinvStart := rfl
@[simp] theorem setSeq_tinvEnd : (s.setSeq st q).tinvEnd = s.tinvEnd := rfl
@[simp] theorem setSeq_fsusp : (s.setSeq st q).fsusp = s.fsusp := rfl
@[simp] theorem setSeq_timer : (s.setSeq st q).timer = s.timer := rfl
@[simp] theorem setSeq_cycles : (s.setSeq st q).cycles = s.cycles := rfl
@[simp] theorem setSeq_perf : (s.setSeq st q).perf = s.perf := rfl
@[simp] theorem setSeq_bootState : (s.setSeq st q).bootState = s.bootState := rfl
@[simp] theorem setSeq_mr : (s.setSeq st q).mr = s.mr := rfl
@[simp] theorem setSeq_flash : (s.setSeq st q).flash = s.flash := rfl
@[simp] theorem setSeq_i3cAddr : (s.setSeq st q).i3cAddr = s.i3cAddr := rfl
@[simp] theorem setSeq_i3cBuf : (s.setSeq st q).i3cBuf = s.i3cBuf := rfl
@[simp] theorem setSeq_clockMHz : (s.setSeq st q).clockMHz = s.clockMHz := rfl
@[simp] theorem setSeq_overtemp : (s.setSeq st q).overtemp = s.overtemp := rfl
@[simp] theorem setSeq_agenda : (s.setSeq st q).agenda = s.agenda := rfl
@[simp] theorem setSeq_cur : (s.setSeq st q).cur = s.cur := rfl
@[simp] theorem setSeq_fresh : (s.setSeq st q).fresh = s.fresh := rfl
@[simp] theorem setSeq_waiters : (s.setSeq st q).waiters = s.waiters := rfl
@[simp] theorem setSeq_barCycle : (s.setSeq st q).barCycle = s.barCycle := rfl
@[simp] theorem setSeq_images : (s.setSeq st q).images = s.images := rfl

end

section
variable (s : State) (st : Stream) (f : Seq → Seq)

@[simp] theorem modSeq_groves : (s.modSeq st f).groves = s.groves := rfl
@[simp] theorem modSeq_glades : (s.modSeq st f).glades = s.glades := rfl
@[simp] theorem modSeq_mem : (s.modSeq st f).mem = s.mem := rfl
@[simp] theorem modSeq_hostMem : (s.modSeq st f).hostMem = s.hostMem := rfl
@[simp] theorem modSeq_owner : (s.modSeq st f).owner = s.owner := rfl
@[simp] theorem modSeq_poison : (s.modSeq st f).poison = s.poison := rfl
@[simp] theorem modSeq_biterr : (s.modSeq st f).biterr = s.biterr := rfl
@[simp] theorem modSeq_comp : (s.modSeq st f).comp = s.comp := rfl
@[simp] theorem modSeq_msys : (s.modSeq st f).msys = s.msys := rfl
@[simp] theorem modSeq_rcbs : (s.modSeq st f).rcbs = s.rcbs := rfl
@[simp] theorem modSeq_tenants : (s.modSeq st f).tenants = s.tenants := rfl
@[simp] theorem modSeq_pages : (s.modSeq st f).pages = s.pages := rfl
@[simp] theorem modSeq_route : (s.modSeq st f).route = s.route := rfl
@[simp] theorem modSeq_pairs : (s.modSeq st f).pairs = s.pairs := rfl
@[simp] theorem modSeq_links : (s.modSeq st f).links = s.links := rfl
@[simp] theorem modSeq_prefixes : (s.modSeq st f).prefixes = s.prefixes := rfl
@[simp] theorem modSeq_advertised : (s.modSeq st f).advertised = s.advertised := rfl
@[simp] theorem modSeq_reqs : (s.modSeq st f).reqs = s.reqs := rfl
@[simp] theorem modSeq_recvs : (s.modSeq st f).recvs = s.recvs := rfl
@[simp] theorem modSeq_sends : (s.modSeq st f).sends = s.sends := rfl
@[simp] theorem modSeq_nextOrder : (s.modSeq st f).nextOrder = s.nextOrder := rfl
@[simp] theorem modSeq_saveBase : (s.modSeq st f).saveBase = s.saveBase := rfl
@[simp] theorem modSeq_saveSize : (s.modSeq st f).saveSize = s.saveSize := rfl
@[simp] theorem modSeq_saved : (s.modSeq st f).saved = s.saved := rfl
@[simp] theorem modSeq_remote : (s.modSeq st f).remote = s.remote := rfl
@[simp] theorem modSeq_nextOp : (s.modSeq st f).nextOp = s.nextOp := rfl
@[simp] theorem modSeq_held : (s.modSeq st f).held = s.held := rfl
@[simp] theorem modSeq_forwards : (s.modSeq st f).forwards = s.forwards := rfl
@[simp] theorem modSeq_delayed : (s.modSeq st f).delayed = s.delayed := rfl
@[simp] theorem modSeq_out : (s.modSeq st f).out = s.out := rfl
@[simp] theorem modSeq_mgmtEvents : (s.modSeq st f).mgmtEvents = s.mgmtEvents := rfl
@[simp] theorem modSeq_tinvTenant : (s.modSeq st f).tinvTenant = s.tinvTenant := rfl
@[simp] theorem modSeq_tinvAll : (s.modSeq st f).tinvAll = s.tinvAll := rfl
@[simp] theorem modSeq_tinvJob : (s.modSeq st f).tinvJob = s.tinvJob := rfl
@[simp] theorem modSeq_tinvStart : (s.modSeq st f).tinvStart = s.tinvStart := rfl
@[simp] theorem modSeq_tinvEnd : (s.modSeq st f).tinvEnd = s.tinvEnd := rfl
@[simp] theorem modSeq_fsusp : (s.modSeq st f).fsusp = s.fsusp := rfl
@[simp] theorem modSeq_timer : (s.modSeq st f).timer = s.timer := rfl
@[simp] theorem modSeq_cycles : (s.modSeq st f).cycles = s.cycles := rfl
@[simp] theorem modSeq_perf : (s.modSeq st f).perf = s.perf := rfl
@[simp] theorem modSeq_bootState : (s.modSeq st f).bootState = s.bootState := rfl
@[simp] theorem modSeq_mr : (s.modSeq st f).mr = s.mr := rfl
@[simp] theorem modSeq_flash : (s.modSeq st f).flash = s.flash := rfl
@[simp] theorem modSeq_i3cAddr : (s.modSeq st f).i3cAddr = s.i3cAddr := rfl
@[simp] theorem modSeq_i3cBuf : (s.modSeq st f).i3cBuf = s.i3cBuf := rfl
@[simp] theorem modSeq_clockMHz : (s.modSeq st f).clockMHz = s.clockMHz := rfl
@[simp] theorem modSeq_overtemp : (s.modSeq st f).overtemp = s.overtemp := rfl
@[simp] theorem modSeq_agenda : (s.modSeq st f).agenda = s.agenda := rfl
@[simp] theorem modSeq_cur : (s.modSeq st f).cur = s.cur := rfl
@[simp] theorem modSeq_fresh : (s.modSeq st f).fresh = s.fresh := rfl
@[simp] theorem modSeq_waiters : (s.modSeq st f).waiters = s.waiters := rfl
@[simp] theorem modSeq_barCycle : (s.modSeq st f).barCycle = s.barCycle := rfl
@[simp] theorem modSeq_images : (s.modSeq st f).images = s.images := rfl

end

section
variable (s : State) (st : Stream) (q : SubQ)

@[simp] theorem setSub_groves : (s.setSub st q).groves = s.groves := rfl
@[simp] theorem setSub_glades : (s.setSub st q).glades = s.glades := rfl
@[simp] theorem setSub_mem : (s.setSub st q).mem = s.mem := rfl
@[simp] theorem setSub_hostMem : (s.setSub st q).hostMem = s.hostMem := rfl
@[simp] theorem setSub_owner : (s.setSub st q).owner = s.owner := rfl
@[simp] theorem setSub_poison : (s.setSub st q).poison = s.poison := rfl
@[simp] theorem setSub_biterr : (s.setSub st q).biterr = s.biterr := rfl
@[simp] theorem setSub_comp : (s.setSub st q).comp = s.comp := rfl
@[simp] theorem setSub_msys : (s.setSub st q).msys = s.msys := rfl
@[simp] theorem setSub_rcbs : (s.setSub st q).rcbs = s.rcbs := rfl
@[simp] theorem setSub_tenants : (s.setSub st q).tenants = s.tenants := rfl
@[simp] theorem setSub_pages : (s.setSub st q).pages = s.pages := rfl
@[simp] theorem setSub_route : (s.setSub st q).route = s.route := rfl
@[simp] theorem setSub_pairs : (s.setSub st q).pairs = s.pairs := rfl
@[simp] theorem setSub_links : (s.setSub st q).links = s.links := rfl
@[simp] theorem setSub_prefixes : (s.setSub st q).prefixes = s.prefixes := rfl
@[simp] theorem setSub_advertised : (s.setSub st q).advertised = s.advertised := rfl
@[simp] theorem setSub_reqs : (s.setSub st q).reqs = s.reqs := rfl
@[simp] theorem setSub_recvs : (s.setSub st q).recvs = s.recvs := rfl
@[simp] theorem setSub_sends : (s.setSub st q).sends = s.sends := rfl
@[simp] theorem setSub_nextOrder : (s.setSub st q).nextOrder = s.nextOrder := rfl
@[simp] theorem setSub_saveBase : (s.setSub st q).saveBase = s.saveBase := rfl
@[simp] theorem setSub_saveSize : (s.setSub st q).saveSize = s.saveSize := rfl
@[simp] theorem setSub_saved : (s.setSub st q).saved = s.saved := rfl
@[simp] theorem setSub_remote : (s.setSub st q).remote = s.remote := rfl
@[simp] theorem setSub_nextOp : (s.setSub st q).nextOp = s.nextOp := rfl
@[simp] theorem setSub_held : (s.setSub st q).held = s.held := rfl
@[simp] theorem setSub_forwards : (s.setSub st q).forwards = s.forwards := rfl
@[simp] theorem setSub_delayed : (s.setSub st q).delayed = s.delayed := rfl
@[simp] theorem setSub_out : (s.setSub st q).out = s.out := rfl
@[simp] theorem setSub_mgmtEvents : (s.setSub st q).mgmtEvents = s.mgmtEvents := rfl
@[simp] theorem setSub_tinvTenant : (s.setSub st q).tinvTenant = s.tinvTenant := rfl
@[simp] theorem setSub_tinvAll : (s.setSub st q).tinvAll = s.tinvAll := rfl
@[simp] theorem setSub_tinvJob : (s.setSub st q).tinvJob = s.tinvJob := rfl
@[simp] theorem setSub_tinvStart : (s.setSub st q).tinvStart = s.tinvStart := rfl
@[simp] theorem setSub_tinvEnd : (s.setSub st q).tinvEnd = s.tinvEnd := rfl
@[simp] theorem setSub_fsusp : (s.setSub st q).fsusp = s.fsusp := rfl
@[simp] theorem setSub_timer : (s.setSub st q).timer = s.timer := rfl
@[simp] theorem setSub_cycles : (s.setSub st q).cycles = s.cycles := rfl
@[simp] theorem setSub_perf : (s.setSub st q).perf = s.perf := rfl
@[simp] theorem setSub_bootState : (s.setSub st q).bootState = s.bootState := rfl
@[simp] theorem setSub_mr : (s.setSub st q).mr = s.mr := rfl
@[simp] theorem setSub_flash : (s.setSub st q).flash = s.flash := rfl
@[simp] theorem setSub_i3cAddr : (s.setSub st q).i3cAddr = s.i3cAddr := rfl
@[simp] theorem setSub_i3cBuf : (s.setSub st q).i3cBuf = s.i3cBuf := rfl
@[simp] theorem setSub_clockMHz : (s.setSub st q).clockMHz = s.clockMHz := rfl
@[simp] theorem setSub_overtemp : (s.setSub st q).overtemp = s.overtemp := rfl
@[simp] theorem setSub_agenda : (s.setSub st q).agenda = s.agenda := rfl
@[simp] theorem setSub_cur : (s.setSub st q).cur = s.cur := rfl
@[simp] theorem setSub_fresh : (s.setSub st q).fresh = s.fresh := rfl
@[simp] theorem setSub_waiters : (s.setSub st q).waiters = s.waiters := rfl
@[simp] theorem setSub_barCycle : (s.setSub st q).barCycle = s.barCycle := rfl
@[simp] theorem setSub_images : (s.setSub st q).images = s.images := rfl

end

section
variable (s : State) (c k : Nat) (l : List Word)

@[simp] theorem setTokens_groves : (s.setTokens c k l).groves = s.groves := rfl
@[simp] theorem setTokens_glades : (s.setTokens c k l).glades = s.glades := rfl
@[simp] theorem setTokens_mem : (s.setTokens c k l).mem = s.mem := rfl
@[simp] theorem setTokens_hostMem : (s.setTokens c k l).hostMem = s.hostMem := rfl
@[simp] theorem setTokens_owner : (s.setTokens c k l).owner = s.owner := rfl
@[simp] theorem setTokens_poison : (s.setTokens c k l).poison = s.poison := rfl
@[simp] theorem setTokens_biterr : (s.setTokens c k l).biterr = s.biterr := rfl
@[simp] theorem setTokens_comp : (s.setTokens c k l).comp = s.comp := rfl
@[simp] theorem setTokens_msys : (s.setTokens c k l).msys = s.msys := rfl
@[simp] theorem setTokens_rcbs : (s.setTokens c k l).rcbs = s.rcbs := rfl
@[simp] theorem setTokens_tenants : (s.setTokens c k l).tenants = s.tenants := rfl
@[simp] theorem setTokens_pages : (s.setTokens c k l).pages = s.pages := rfl
@[simp] theorem setTokens_route : (s.setTokens c k l).route = s.route := rfl
@[simp] theorem setTokens_pairs : (s.setTokens c k l).pairs = s.pairs := rfl
@[simp] theorem setTokens_links : (s.setTokens c k l).links = s.links := rfl
@[simp] theorem setTokens_prefixes : (s.setTokens c k l).prefixes = s.prefixes := rfl
@[simp] theorem setTokens_advertised : (s.setTokens c k l).advertised = s.advertised := rfl
@[simp] theorem setTokens_reqs : (s.setTokens c k l).reqs = s.reqs := rfl
@[simp] theorem setTokens_recvs : (s.setTokens c k l).recvs = s.recvs := rfl
@[simp] theorem setTokens_sends : (s.setTokens c k l).sends = s.sends := rfl
@[simp] theorem setTokens_nextOrder : (s.setTokens c k l).nextOrder = s.nextOrder := rfl
@[simp] theorem setTokens_saveBase : (s.setTokens c k l).saveBase = s.saveBase := rfl
@[simp] theorem setTokens_saveSize : (s.setTokens c k l).saveSize = s.saveSize := rfl
@[simp] theorem setTokens_saved : (s.setTokens c k l).saved = s.saved := rfl
@[simp] theorem setTokens_remote : (s.setTokens c k l).remote = s.remote := rfl
@[simp] theorem setTokens_nextOp : (s.setTokens c k l).nextOp = s.nextOp := rfl
@[simp] theorem setTokens_held : (s.setTokens c k l).held = s.held := rfl
@[simp] theorem setTokens_forwards : (s.setTokens c k l).forwards = s.forwards := rfl
@[simp] theorem setTokens_delayed : (s.setTokens c k l).delayed = s.delayed := rfl
@[simp] theorem setTokens_out : (s.setTokens c k l).out = s.out := rfl
@[simp] theorem setTokens_mgmtEvents : (s.setTokens c k l).mgmtEvents = s.mgmtEvents := rfl
@[simp] theorem setTokens_tinvTenant : (s.setTokens c k l).tinvTenant = s.tinvTenant := rfl
@[simp] theorem setTokens_tinvAll : (s.setTokens c k l).tinvAll = s.tinvAll := rfl
@[simp] theorem setTokens_tinvJob : (s.setTokens c k l).tinvJob = s.tinvJob := rfl
@[simp] theorem setTokens_tinvStart : (s.setTokens c k l).tinvStart = s.tinvStart := rfl
@[simp] theorem setTokens_tinvEnd : (s.setTokens c k l).tinvEnd = s.tinvEnd := rfl
@[simp] theorem setTokens_fsusp : (s.setTokens c k l).fsusp = s.fsusp := rfl
@[simp] theorem setTokens_timer : (s.setTokens c k l).timer = s.timer := rfl
@[simp] theorem setTokens_cycles : (s.setTokens c k l).cycles = s.cycles := rfl
@[simp] theorem setTokens_perf : (s.setTokens c k l).perf = s.perf := rfl
@[simp] theorem setTokens_bootState : (s.setTokens c k l).bootState = s.bootState := rfl
@[simp] theorem setTokens_mr : (s.setTokens c k l).mr = s.mr := rfl
@[simp] theorem setTokens_flash : (s.setTokens c k l).flash = s.flash := rfl
@[simp] theorem setTokens_i3cAddr : (s.setTokens c k l).i3cAddr = s.i3cAddr := rfl
@[simp] theorem setTokens_i3cBuf : (s.setTokens c k l).i3cBuf = s.i3cBuf := rfl
@[simp] theorem setTokens_clockMHz : (s.setTokens c k l).clockMHz = s.clockMHz := rfl
@[simp] theorem setTokens_overtemp : (s.setTokens c k l).overtemp = s.overtemp := rfl
@[simp] theorem setTokens_agenda : (s.setTokens c k l).agenda = s.agenda := rfl
@[simp] theorem setTokens_fresh : (s.setTokens c k l).fresh = s.fresh := rfl
@[simp] theorem setTokens_waiters : (s.setTokens c k l).waiters = s.waiters := rfl
@[simp] theorem setTokens_barCycle : (s.setTokens c k l).barCycle = s.barCycle := rfl
@[simp] theorem setTokens_images : (s.setTokens c k l).images = s.images := rfl

end

section
variable (s : State) (g : Nat) (k : Grove)

@[simp] theorem setGrove_cores : (s.setGrove g k).cores = s.cores := rfl
@[simp] theorem setGrove_glades : (s.setGrove g k).glades = s.glades := rfl
@[simp] theorem setGrove_mem : (s.setGrove g k).mem = s.mem := rfl
@[simp] theorem setGrove_hostMem : (s.setGrove g k).hostMem = s.hostMem := rfl
@[simp] theorem setGrove_owner : (s.setGrove g k).owner = s.owner := rfl
@[simp] theorem setGrove_poison : (s.setGrove g k).poison = s.poison := rfl
@[simp] theorem setGrove_biterr : (s.setGrove g k).biterr = s.biterr := rfl
@[simp] theorem setGrove_comp : (s.setGrove g k).comp = s.comp := rfl
@[simp] theorem setGrove_msys : (s.setGrove g k).msys = s.msys := rfl
@[simp] theorem setGrove_rcbs : (s.setGrove g k).rcbs = s.rcbs := rfl
@[simp] theorem setGrove_tenants : (s.setGrove g k).tenants = s.tenants := rfl
@[simp] theorem setGrove_pages : (s.setGrove g k).pages = s.pages := rfl
@[simp] theorem setGrove_route : (s.setGrove g k).route = s.route := rfl
@[simp] theorem setGrove_pairs : (s.setGrove g k).pairs = s.pairs := rfl
@[simp] theorem setGrove_links : (s.setGrove g k).links = s.links := rfl
@[simp] theorem setGrove_prefixes : (s.setGrove g k).prefixes = s.prefixes := rfl
@[simp] theorem setGrove_advertised : (s.setGrove g k).advertised = s.advertised := rfl
@[simp] theorem setGrove_reqs : (s.setGrove g k).reqs = s.reqs := rfl
@[simp] theorem setGrove_recvs : (s.setGrove g k).recvs = s.recvs := rfl
@[simp] theorem setGrove_sends : (s.setGrove g k).sends = s.sends := rfl
@[simp] theorem setGrove_nextOrder : (s.setGrove g k).nextOrder = s.nextOrder := rfl
@[simp] theorem setGrove_saveBase : (s.setGrove g k).saveBase = s.saveBase := rfl
@[simp] theorem setGrove_saveSize : (s.setGrove g k).saveSize = s.saveSize := rfl
@[simp] theorem setGrove_saved : (s.setGrove g k).saved = s.saved := rfl
@[simp] theorem setGrove_remote : (s.setGrove g k).remote = s.remote := rfl
@[simp] theorem setGrove_nextOp : (s.setGrove g k).nextOp = s.nextOp := rfl
@[simp] theorem setGrove_held : (s.setGrove g k).held = s.held := rfl
@[simp] theorem setGrove_forwards : (s.setGrove g k).forwards = s.forwards := rfl
@[simp] theorem setGrove_delayed : (s.setGrove g k).delayed = s.delayed := rfl
@[simp] theorem setGrove_out : (s.setGrove g k).out = s.out := rfl
@[simp] theorem setGrove_mgmtEvents : (s.setGrove g k).mgmtEvents = s.mgmtEvents := rfl
@[simp] theorem setGrove_tinvTenant : (s.setGrove g k).tinvTenant = s.tinvTenant := rfl
@[simp] theorem setGrove_tinvAll : (s.setGrove g k).tinvAll = s.tinvAll := rfl
@[simp] theorem setGrove_tinvJob : (s.setGrove g k).tinvJob = s.tinvJob := rfl
@[simp] theorem setGrove_tinvStart : (s.setGrove g k).tinvStart = s.tinvStart := rfl
@[simp] theorem setGrove_tinvEnd : (s.setGrove g k).tinvEnd = s.tinvEnd := rfl
@[simp] theorem setGrove_fsusp : (s.setGrove g k).fsusp = s.fsusp := rfl
@[simp] theorem setGrove_timer : (s.setGrove g k).timer = s.timer := rfl
@[simp] theorem setGrove_cycles : (s.setGrove g k).cycles = s.cycles := rfl
@[simp] theorem setGrove_perf : (s.setGrove g k).perf = s.perf := rfl
@[simp] theorem setGrove_bootState : (s.setGrove g k).bootState = s.bootState := rfl
@[simp] theorem setGrove_mr : (s.setGrove g k).mr = s.mr := rfl
@[simp] theorem setGrove_flash : (s.setGrove g k).flash = s.flash := rfl
@[simp] theorem setGrove_i3cAddr : (s.setGrove g k).i3cAddr = s.i3cAddr := rfl
@[simp] theorem setGrove_i3cBuf : (s.setGrove g k).i3cBuf = s.i3cBuf := rfl
@[simp] theorem setGrove_clockMHz : (s.setGrove g k).clockMHz = s.clockMHz := rfl
@[simp] theorem setGrove_overtemp : (s.setGrove g k).overtemp = s.overtemp := rfl
@[simp] theorem setGrove_agenda : (s.setGrove g k).agenda = s.agenda := rfl
@[simp] theorem setGrove_cur : (s.setGrove g k).cur = s.cur := rfl
@[simp] theorem setGrove_fresh : (s.setGrove g k).fresh = s.fresh := rfl
@[simp] theorem setGrove_waiters : (s.setGrove g k).waiters = s.waiters := rfl
@[simp] theorem setGrove_barCycle : (s.setGrove g k).barCycle = s.barCycle := rfl
@[simp] theorem setGrove_images : (s.setGrove g k).images = s.images := rfl

end

section
variable (s : State) (g : Nat) (f : Grove → Grove)

@[simp] theorem modGrove_cores : (s.modGrove g f).cores = s.cores := rfl
@[simp] theorem modGrove_glades : (s.modGrove g f).glades = s.glades := rfl
@[simp] theorem modGrove_mem : (s.modGrove g f).mem = s.mem := rfl
@[simp] theorem modGrove_hostMem : (s.modGrove g f).hostMem = s.hostMem := rfl
@[simp] theorem modGrove_owner : (s.modGrove g f).owner = s.owner := rfl
@[simp] theorem modGrove_poison : (s.modGrove g f).poison = s.poison := rfl
@[simp] theorem modGrove_biterr : (s.modGrove g f).biterr = s.biterr := rfl
@[simp] theorem modGrove_comp : (s.modGrove g f).comp = s.comp := rfl
@[simp] theorem modGrove_msys : (s.modGrove g f).msys = s.msys := rfl
@[simp] theorem modGrove_rcbs : (s.modGrove g f).rcbs = s.rcbs := rfl
@[simp] theorem modGrove_tenants : (s.modGrove g f).tenants = s.tenants := rfl
@[simp] theorem modGrove_pages : (s.modGrove g f).pages = s.pages := rfl
@[simp] theorem modGrove_route : (s.modGrove g f).route = s.route := rfl
@[simp] theorem modGrove_pairs : (s.modGrove g f).pairs = s.pairs := rfl
@[simp] theorem modGrove_links : (s.modGrove g f).links = s.links := rfl
@[simp] theorem modGrove_prefixes : (s.modGrove g f).prefixes = s.prefixes := rfl
@[simp] theorem modGrove_advertised : (s.modGrove g f).advertised = s.advertised := rfl
@[simp] theorem modGrove_reqs : (s.modGrove g f).reqs = s.reqs := rfl
@[simp] theorem modGrove_recvs : (s.modGrove g f).recvs = s.recvs := rfl
@[simp] theorem modGrove_sends : (s.modGrove g f).sends = s.sends := rfl
@[simp] theorem modGrove_nextOrder : (s.modGrove g f).nextOrder = s.nextOrder := rfl
@[simp] theorem modGrove_saveBase : (s.modGrove g f).saveBase = s.saveBase := rfl
@[simp] theorem modGrove_saveSize : (s.modGrove g f).saveSize = s.saveSize := rfl
@[simp] theorem modGrove_saved : (s.modGrove g f).saved = s.saved := rfl
@[simp] theorem modGrove_remote : (s.modGrove g f).remote = s.remote := rfl
@[simp] theorem modGrove_nextOp : (s.modGrove g f).nextOp = s.nextOp := rfl
@[simp] theorem modGrove_held : (s.modGrove g f).held = s.held := rfl
@[simp] theorem modGrove_forwards : (s.modGrove g f).forwards = s.forwards := rfl
@[simp] theorem modGrove_delayed : (s.modGrove g f).delayed = s.delayed := rfl
@[simp] theorem modGrove_out : (s.modGrove g f).out = s.out := rfl
@[simp] theorem modGrove_mgmtEvents : (s.modGrove g f).mgmtEvents = s.mgmtEvents := rfl
@[simp] theorem modGrove_tinvTenant : (s.modGrove g f).tinvTenant = s.tinvTenant := rfl
@[simp] theorem modGrove_tinvAll : (s.modGrove g f).tinvAll = s.tinvAll := rfl
@[simp] theorem modGrove_tinvJob : (s.modGrove g f).tinvJob = s.tinvJob := rfl
@[simp] theorem modGrove_tinvStart : (s.modGrove g f).tinvStart = s.tinvStart := rfl
@[simp] theorem modGrove_tinvEnd : (s.modGrove g f).tinvEnd = s.tinvEnd := rfl
@[simp] theorem modGrove_fsusp : (s.modGrove g f).fsusp = s.fsusp := rfl
@[simp] theorem modGrove_timer : (s.modGrove g f).timer = s.timer := rfl
@[simp] theorem modGrove_cycles : (s.modGrove g f).cycles = s.cycles := rfl
@[simp] theorem modGrove_perf : (s.modGrove g f).perf = s.perf := rfl
@[simp] theorem modGrove_bootState : (s.modGrove g f).bootState = s.bootState := rfl
@[simp] theorem modGrove_mr : (s.modGrove g f).mr = s.mr := rfl
@[simp] theorem modGrove_flash : (s.modGrove g f).flash = s.flash := rfl
@[simp] theorem modGrove_i3cAddr : (s.modGrove g f).i3cAddr = s.i3cAddr := rfl
@[simp] theorem modGrove_i3cBuf : (s.modGrove g f).i3cBuf = s.i3cBuf := rfl
@[simp] theorem modGrove_clockMHz : (s.modGrove g f).clockMHz = s.clockMHz := rfl
@[simp] theorem modGrove_overtemp : (s.modGrove g f).overtemp = s.overtemp := rfl
@[simp] theorem modGrove_agenda : (s.modGrove g f).agenda = s.agenda := rfl
@[simp] theorem modGrove_cur : (s.modGrove g f).cur = s.cur := rfl
@[simp] theorem modGrove_fresh : (s.modGrove g f).fresh = s.fresh := rfl
@[simp] theorem modGrove_waiters : (s.modGrove g f).waiters = s.waiters := rfl
@[simp] theorem modGrove_barCycle : (s.modGrove g f).barCycle = s.barCycle := rfl
@[simp] theorem modGrove_images : (s.modGrove g f).images = s.images := rfl

end

section
variable (s : State) (g : Nat) (k : Glade)

@[simp] theorem setGlade_cores : (s.setGlade g k).cores = s.cores := rfl
@[simp] theorem setGlade_groves : (s.setGlade g k).groves = s.groves := rfl
@[simp] theorem setGlade_mem : (s.setGlade g k).mem = s.mem := rfl
@[simp] theorem setGlade_hostMem : (s.setGlade g k).hostMem = s.hostMem := rfl
@[simp] theorem setGlade_owner : (s.setGlade g k).owner = s.owner := rfl
@[simp] theorem setGlade_poison : (s.setGlade g k).poison = s.poison := rfl
@[simp] theorem setGlade_biterr : (s.setGlade g k).biterr = s.biterr := rfl
@[simp] theorem setGlade_comp : (s.setGlade g k).comp = s.comp := rfl
@[simp] theorem setGlade_msys : (s.setGlade g k).msys = s.msys := rfl
@[simp] theorem setGlade_rcbs : (s.setGlade g k).rcbs = s.rcbs := rfl
@[simp] theorem setGlade_tenants : (s.setGlade g k).tenants = s.tenants := rfl
@[simp] theorem setGlade_pages : (s.setGlade g k).pages = s.pages := rfl
@[simp] theorem setGlade_route : (s.setGlade g k).route = s.route := rfl
@[simp] theorem setGlade_pairs : (s.setGlade g k).pairs = s.pairs := rfl
@[simp] theorem setGlade_links : (s.setGlade g k).links = s.links := rfl
@[simp] theorem setGlade_prefixes : (s.setGlade g k).prefixes = s.prefixes := rfl
@[simp] theorem setGlade_advertised : (s.setGlade g k).advertised = s.advertised := rfl
@[simp] theorem setGlade_reqs : (s.setGlade g k).reqs = s.reqs := rfl
@[simp] theorem setGlade_recvs : (s.setGlade g k).recvs = s.recvs := rfl
@[simp] theorem setGlade_sends : (s.setGlade g k).sends = s.sends := rfl
@[simp] theorem setGlade_nextOrder : (s.setGlade g k).nextOrder = s.nextOrder := rfl
@[simp] theorem setGlade_saveBase : (s.setGlade g k).saveBase = s.saveBase := rfl
@[simp] theorem setGlade_saveSize : (s.setGlade g k).saveSize = s.saveSize := rfl
@[simp] theorem setGlade_saved : (s.setGlade g k).saved = s.saved := rfl
@[simp] theorem setGlade_remote : (s.setGlade g k).remote = s.remote := rfl
@[simp] theorem setGlade_nextOp : (s.setGlade g k).nextOp = s.nextOp := rfl
@[simp] theorem setGlade_held : (s.setGlade g k).held = s.held := rfl
@[simp] theorem setGlade_forwards : (s.setGlade g k).forwards = s.forwards := rfl
@[simp] theorem setGlade_delayed : (s.setGlade g k).delayed = s.delayed := rfl
@[simp] theorem setGlade_out : (s.setGlade g k).out = s.out := rfl
@[simp] theorem setGlade_mgmtEvents : (s.setGlade g k).mgmtEvents = s.mgmtEvents := rfl
@[simp] theorem setGlade_tinvTenant : (s.setGlade g k).tinvTenant = s.tinvTenant := rfl
@[simp] theorem setGlade_tinvAll : (s.setGlade g k).tinvAll = s.tinvAll := rfl
@[simp] theorem setGlade_tinvJob : (s.setGlade g k).tinvJob = s.tinvJob := rfl
@[simp] theorem setGlade_tinvStart : (s.setGlade g k).tinvStart = s.tinvStart := rfl
@[simp] theorem setGlade_tinvEnd : (s.setGlade g k).tinvEnd = s.tinvEnd := rfl
@[simp] theorem setGlade_fsusp : (s.setGlade g k).fsusp = s.fsusp := rfl
@[simp] theorem setGlade_timer : (s.setGlade g k).timer = s.timer := rfl
@[simp] theorem setGlade_cycles : (s.setGlade g k).cycles = s.cycles := rfl
@[simp] theorem setGlade_perf : (s.setGlade g k).perf = s.perf := rfl
@[simp] theorem setGlade_bootState : (s.setGlade g k).bootState = s.bootState := rfl
@[simp] theorem setGlade_mr : (s.setGlade g k).mr = s.mr := rfl
@[simp] theorem setGlade_flash : (s.setGlade g k).flash = s.flash := rfl
@[simp] theorem setGlade_i3cAddr : (s.setGlade g k).i3cAddr = s.i3cAddr := rfl
@[simp] theorem setGlade_i3cBuf : (s.setGlade g k).i3cBuf = s.i3cBuf := rfl
@[simp] theorem setGlade_clockMHz : (s.setGlade g k).clockMHz = s.clockMHz := rfl
@[simp] theorem setGlade_overtemp : (s.setGlade g k).overtemp = s.overtemp := rfl
@[simp] theorem setGlade_agenda : (s.setGlade g k).agenda = s.agenda := rfl
@[simp] theorem setGlade_cur : (s.setGlade g k).cur = s.cur := rfl
@[simp] theorem setGlade_fresh : (s.setGlade g k).fresh = s.fresh := rfl
@[simp] theorem setGlade_waiters : (s.setGlade g k).waiters = s.waiters := rfl
@[simp] theorem setGlade_barCycle : (s.setGlade g k).barCycle = s.barCycle := rfl
@[simp] theorem setGlade_images : (s.setGlade g k).images = s.images := rfl

end

section
variable (s : State) (g : Nat) (f : Glade → Glade)

@[simp] theorem modGlade_cores : (s.modGlade g f).cores = s.cores := rfl
@[simp] theorem modGlade_groves : (s.modGlade g f).groves = s.groves := rfl
@[simp] theorem modGlade_mem : (s.modGlade g f).mem = s.mem := rfl
@[simp] theorem modGlade_hostMem : (s.modGlade g f).hostMem = s.hostMem := rfl
@[simp] theorem modGlade_owner : (s.modGlade g f).owner = s.owner := rfl
@[simp] theorem modGlade_poison : (s.modGlade g f).poison = s.poison := rfl
@[simp] theorem modGlade_biterr : (s.modGlade g f).biterr = s.biterr := rfl
@[simp] theorem modGlade_comp : (s.modGlade g f).comp = s.comp := rfl
@[simp] theorem modGlade_msys : (s.modGlade g f).msys = s.msys := rfl
@[simp] theorem modGlade_rcbs : (s.modGlade g f).rcbs = s.rcbs := rfl
@[simp] theorem modGlade_tenants : (s.modGlade g f).tenants = s.tenants := rfl
@[simp] theorem modGlade_pages : (s.modGlade g f).pages = s.pages := rfl
@[simp] theorem modGlade_route : (s.modGlade g f).route = s.route := rfl
@[simp] theorem modGlade_pairs : (s.modGlade g f).pairs = s.pairs := rfl
@[simp] theorem modGlade_links : (s.modGlade g f).links = s.links := rfl
@[simp] theorem modGlade_prefixes : (s.modGlade g f).prefixes = s.prefixes := rfl
@[simp] theorem modGlade_advertised : (s.modGlade g f).advertised = s.advertised := rfl
@[simp] theorem modGlade_reqs : (s.modGlade g f).reqs = s.reqs := rfl
@[simp] theorem modGlade_recvs : (s.modGlade g f).recvs = s.recvs := rfl
@[simp] theorem modGlade_sends : (s.modGlade g f).sends = s.sends := rfl
@[simp] theorem modGlade_nextOrder : (s.modGlade g f).nextOrder = s.nextOrder := rfl
@[simp] theorem modGlade_saveBase : (s.modGlade g f).saveBase = s.saveBase := rfl
@[simp] theorem modGlade_saveSize : (s.modGlade g f).saveSize = s.saveSize := rfl
@[simp] theorem modGlade_saved : (s.modGlade g f).saved = s.saved := rfl
@[simp] theorem modGlade_remote : (s.modGlade g f).remote = s.remote := rfl
@[simp] theorem modGlade_nextOp : (s.modGlade g f).nextOp = s.nextOp := rfl
@[simp] theorem modGlade_held : (s.modGlade g f).held = s.held := rfl
@[simp] theorem modGlade_forwards : (s.modGlade g f).forwards = s.forwards := rfl
@[simp] theorem modGlade_delayed : (s.modGlade g f).delayed = s.delayed := rfl
@[simp] theorem modGlade_out : (s.modGlade g f).out = s.out := rfl
@[simp] theorem modGlade_mgmtEvents : (s.modGlade g f).mgmtEvents = s.mgmtEvents := rfl
@[simp] theorem modGlade_tinvTenant : (s.modGlade g f).tinvTenant = s.tinvTenant := rfl
@[simp] theorem modGlade_tinvAll : (s.modGlade g f).tinvAll = s.tinvAll := rfl
@[simp] theorem modGlade_tinvJob : (s.modGlade g f).tinvJob = s.tinvJob := rfl
@[simp] theorem modGlade_tinvStart : (s.modGlade g f).tinvStart = s.tinvStart := rfl
@[simp] theorem modGlade_tinvEnd : (s.modGlade g f).tinvEnd = s.tinvEnd := rfl
@[simp] theorem modGlade_fsusp : (s.modGlade g f).fsusp = s.fsusp := rfl
@[simp] theorem modGlade_timer : (s.modGlade g f).timer = s.timer := rfl
@[simp] theorem modGlade_cycles : (s.modGlade g f).cycles = s.cycles := rfl
@[simp] theorem modGlade_perf : (s.modGlade g f).perf = s.perf := rfl
@[simp] theorem modGlade_bootState : (s.modGlade g f).bootState = s.bootState := rfl
@[simp] theorem modGlade_mr : (s.modGlade g f).mr = s.mr := rfl
@[simp] theorem modGlade_flash : (s.modGlade g f).flash = s.flash := rfl
@[simp] theorem modGlade_i3cAddr : (s.modGlade g f).i3cAddr = s.i3cAddr := rfl
@[simp] theorem modGlade_i3cBuf : (s.modGlade g f).i3cBuf = s.i3cBuf := rfl
@[simp] theorem modGlade_clockMHz : (s.modGlade g f).clockMHz = s.clockMHz := rfl
@[simp] theorem modGlade_overtemp : (s.modGlade g f).overtemp = s.overtemp := rfl
@[simp] theorem modGlade_agenda : (s.modGlade g f).agenda = s.agenda := rfl
@[simp] theorem modGlade_cur : (s.modGlade g f).cur = s.cur := rfl
@[simp] theorem modGlade_fresh : (s.modGlade g f).fresh = s.fresh := rfl
@[simp] theorem modGlade_waiters : (s.modGlade g f).waiters = s.waiters := rfl
@[simp] theorem modGlade_barCycle : (s.modGlade g f).barCycle = s.barCycle := rfl
@[simp] theorem modGlade_images : (s.modGlade g f).images = s.images := rfl

end

section
variable (s : State) (n : Nat) (p : TenantPage)

@[simp] theorem setPage_cores : (s.setPage n p).cores = s.cores := rfl
@[simp] theorem setPage_groves : (s.setPage n p).groves = s.groves := rfl
@[simp] theorem setPage_glades : (s.setPage n p).glades = s.glades := rfl
@[simp] theorem setPage_mem : (s.setPage n p).mem = s.mem := rfl
@[simp] theorem setPage_hostMem : (s.setPage n p).hostMem = s.hostMem := rfl
@[simp] theorem setPage_owner : (s.setPage n p).owner = s.owner := rfl
@[simp] theorem setPage_poison : (s.setPage n p).poison = s.poison := rfl
@[simp] theorem setPage_biterr : (s.setPage n p).biterr = s.biterr := rfl
@[simp] theorem setPage_comp : (s.setPage n p).comp = s.comp := rfl
@[simp] theorem setPage_msys : (s.setPage n p).msys = s.msys := rfl
@[simp] theorem setPage_rcbs : (s.setPage n p).rcbs = s.rcbs := rfl
@[simp] theorem setPage_tenants : (s.setPage n p).tenants = s.tenants := rfl
@[simp] theorem setPage_route : (s.setPage n p).route = s.route := rfl
@[simp] theorem setPage_pairs : (s.setPage n p).pairs = s.pairs := rfl
@[simp] theorem setPage_links : (s.setPage n p).links = s.links := rfl
@[simp] theorem setPage_prefixes : (s.setPage n p).prefixes = s.prefixes := rfl
@[simp] theorem setPage_advertised : (s.setPage n p).advertised = s.advertised := rfl
@[simp] theorem setPage_reqs : (s.setPage n p).reqs = s.reqs := rfl
@[simp] theorem setPage_recvs : (s.setPage n p).recvs = s.recvs := rfl
@[simp] theorem setPage_sends : (s.setPage n p).sends = s.sends := rfl
@[simp] theorem setPage_nextOrder : (s.setPage n p).nextOrder = s.nextOrder := rfl
@[simp] theorem setPage_saveBase : (s.setPage n p).saveBase = s.saveBase := rfl
@[simp] theorem setPage_saveSize : (s.setPage n p).saveSize = s.saveSize := rfl
@[simp] theorem setPage_saved : (s.setPage n p).saved = s.saved := rfl
@[simp] theorem setPage_remote : (s.setPage n p).remote = s.remote := rfl
@[simp] theorem setPage_nextOp : (s.setPage n p).nextOp = s.nextOp := rfl
@[simp] theorem setPage_held : (s.setPage n p).held = s.held := rfl
@[simp] theorem setPage_forwards : (s.setPage n p).forwards = s.forwards := rfl
@[simp] theorem setPage_delayed : (s.setPage n p).delayed = s.delayed := rfl
@[simp] theorem setPage_out : (s.setPage n p).out = s.out := rfl
@[simp] theorem setPage_mgmtEvents : (s.setPage n p).mgmtEvents = s.mgmtEvents := rfl
@[simp] theorem setPage_tinvTenant : (s.setPage n p).tinvTenant = s.tinvTenant := rfl
@[simp] theorem setPage_tinvAll : (s.setPage n p).tinvAll = s.tinvAll := rfl
@[simp] theorem setPage_tinvJob : (s.setPage n p).tinvJob = s.tinvJob := rfl
@[simp] theorem setPage_tinvStart : (s.setPage n p).tinvStart = s.tinvStart := rfl
@[simp] theorem setPage_tinvEnd : (s.setPage n p).tinvEnd = s.tinvEnd := rfl
@[simp] theorem setPage_fsusp : (s.setPage n p).fsusp = s.fsusp := rfl
@[simp] theorem setPage_timer : (s.setPage n p).timer = s.timer := rfl
@[simp] theorem setPage_cycles : (s.setPage n p).cycles = s.cycles := rfl
@[simp] theorem setPage_perf : (s.setPage n p).perf = s.perf := rfl
@[simp] theorem setPage_bootState : (s.setPage n p).bootState = s.bootState := rfl
@[simp] theorem setPage_mr : (s.setPage n p).mr = s.mr := rfl
@[simp] theorem setPage_flash : (s.setPage n p).flash = s.flash := rfl
@[simp] theorem setPage_i3cAddr : (s.setPage n p).i3cAddr = s.i3cAddr := rfl
@[simp] theorem setPage_i3cBuf : (s.setPage n p).i3cBuf = s.i3cBuf := rfl
@[simp] theorem setPage_clockMHz : (s.setPage n p).clockMHz = s.clockMHz := rfl
@[simp] theorem setPage_overtemp : (s.setPage n p).overtemp = s.overtemp := rfl
@[simp] theorem setPage_agenda : (s.setPage n p).agenda = s.agenda := rfl
@[simp] theorem setPage_cur : (s.setPage n p).cur = s.cur := rfl
@[simp] theorem setPage_fresh : (s.setPage n p).fresh = s.fresh := rfl
@[simp] theorem setPage_waiters : (s.setPage n p).waiters = s.waiters := rfl
@[simp] theorem setPage_barCycle : (s.setPage n p).barCycle = s.barCycle := rfl
@[simp] theorem setPage_images : (s.setPage n p).images = s.images := rfl

end

section
variable (s : State) (r : Nat) (k : Rcb)

@[simp] theorem setRcb_cores : (s.setRcb r k).cores = s.cores := rfl
@[simp] theorem setRcb_groves : (s.setRcb r k).groves = s.groves := rfl
@[simp] theorem setRcb_glades : (s.setRcb r k).glades = s.glades := rfl
@[simp] theorem setRcb_mem : (s.setRcb r k).mem = s.mem := rfl
@[simp] theorem setRcb_hostMem : (s.setRcb r k).hostMem = s.hostMem := rfl
@[simp] theorem setRcb_owner : (s.setRcb r k).owner = s.owner := rfl
@[simp] theorem setRcb_poison : (s.setRcb r k).poison = s.poison := rfl
@[simp] theorem setRcb_biterr : (s.setRcb r k).biterr = s.biterr := rfl
@[simp] theorem setRcb_comp : (s.setRcb r k).comp = s.comp := rfl
@[simp] theorem setRcb_msys : (s.setRcb r k).msys = s.msys := rfl
@[simp] theorem setRcb_tenants : (s.setRcb r k).tenants = s.tenants := rfl
@[simp] theorem setRcb_pages : (s.setRcb r k).pages = s.pages := rfl
@[simp] theorem setRcb_route : (s.setRcb r k).route = s.route := rfl
@[simp] theorem setRcb_pairs : (s.setRcb r k).pairs = s.pairs := rfl
@[simp] theorem setRcb_links : (s.setRcb r k).links = s.links := rfl
@[simp] theorem setRcb_prefixes : (s.setRcb r k).prefixes = s.prefixes := rfl
@[simp] theorem setRcb_advertised : (s.setRcb r k).advertised = s.advertised := rfl
@[simp] theorem setRcb_reqs : (s.setRcb r k).reqs = s.reqs := rfl
@[simp] theorem setRcb_recvs : (s.setRcb r k).recvs = s.recvs := rfl
@[simp] theorem setRcb_sends : (s.setRcb r k).sends = s.sends := rfl
@[simp] theorem setRcb_nextOrder : (s.setRcb r k).nextOrder = s.nextOrder := rfl
@[simp] theorem setRcb_saveBase : (s.setRcb r k).saveBase = s.saveBase := rfl
@[simp] theorem setRcb_saveSize : (s.setRcb r k).saveSize = s.saveSize := rfl
@[simp] theorem setRcb_saved : (s.setRcb r k).saved = s.saved := rfl
@[simp] theorem setRcb_remote : (s.setRcb r k).remote = s.remote := rfl
@[simp] theorem setRcb_nextOp : (s.setRcb r k).nextOp = s.nextOp := rfl
@[simp] theorem setRcb_held : (s.setRcb r k).held = s.held := rfl
@[simp] theorem setRcb_forwards : (s.setRcb r k).forwards = s.forwards := rfl
@[simp] theorem setRcb_delayed : (s.setRcb r k).delayed = s.delayed := rfl
@[simp] theorem setRcb_out : (s.setRcb r k).out = s.out := rfl
@[simp] theorem setRcb_mgmtEvents : (s.setRcb r k).mgmtEvents = s.mgmtEvents := rfl
@[simp] theorem setRcb_tinvTenant : (s.setRcb r k).tinvTenant = s.tinvTenant := rfl
@[simp] theorem setRcb_tinvAll : (s.setRcb r k).tinvAll = s.tinvAll := rfl
@[simp] theorem setRcb_tinvJob : (s.setRcb r k).tinvJob = s.tinvJob := rfl
@[simp] theorem setRcb_tinvStart : (s.setRcb r k).tinvStart = s.tinvStart := rfl
@[simp] theorem setRcb_tinvEnd : (s.setRcb r k).tinvEnd = s.tinvEnd := rfl
@[simp] theorem setRcb_fsusp : (s.setRcb r k).fsusp = s.fsusp := rfl
@[simp] theorem setRcb_timer : (s.setRcb r k).timer = s.timer := rfl
@[simp] theorem setRcb_cycles : (s.setRcb r k).cycles = s.cycles := rfl
@[simp] theorem setRcb_perf : (s.setRcb r k).perf = s.perf := rfl
@[simp] theorem setRcb_bootState : (s.setRcb r k).bootState = s.bootState := rfl
@[simp] theorem setRcb_mr : (s.setRcb r k).mr = s.mr := rfl
@[simp] theorem setRcb_flash : (s.setRcb r k).flash = s.flash := rfl
@[simp] theorem setRcb_i3cAddr : (s.setRcb r k).i3cAddr = s.i3cAddr := rfl
@[simp] theorem setRcb_i3cBuf : (s.setRcb r k).i3cBuf = s.i3cBuf := rfl
@[simp] theorem setRcb_clockMHz : (s.setRcb r k).clockMHz = s.clockMHz := rfl
@[simp] theorem setRcb_overtemp : (s.setRcb r k).overtemp = s.overtemp := rfl
@[simp] theorem setRcb_agenda : (s.setRcb r k).agenda = s.agenda := rfl
@[simp] theorem setRcb_cur : (s.setRcb r k).cur = s.cur := rfl
@[simp] theorem setRcb_fresh : (s.setRcb r k).fresh = s.fresh := rfl
@[simp] theorem setRcb_waiters : (s.setRcb r k).waiters = s.waiters := rfl
@[simp] theorem setRcb_barCycle : (s.setRcb r k).barCycle = s.barCycle := rfl
@[simp] theorem setRcb_images : (s.setRcb r k).images = s.images := rfl

end

section
variable (s : State) (l : Nat) (k : Link)

@[simp] theorem setLink_cores : (s.setLink l k).cores = s.cores := rfl
@[simp] theorem setLink_groves : (s.setLink l k).groves = s.groves := rfl
@[simp] theorem setLink_glades : (s.setLink l k).glades = s.glades := rfl
@[simp] theorem setLink_mem : (s.setLink l k).mem = s.mem := rfl
@[simp] theorem setLink_hostMem : (s.setLink l k).hostMem = s.hostMem := rfl
@[simp] theorem setLink_owner : (s.setLink l k).owner = s.owner := rfl
@[simp] theorem setLink_poison : (s.setLink l k).poison = s.poison := rfl
@[simp] theorem setLink_biterr : (s.setLink l k).biterr = s.biterr := rfl
@[simp] theorem setLink_comp : (s.setLink l k).comp = s.comp := rfl
@[simp] theorem setLink_msys : (s.setLink l k).msys = s.msys := rfl
@[simp] theorem setLink_rcbs : (s.setLink l k).rcbs = s.rcbs := rfl
@[simp] theorem setLink_tenants : (s.setLink l k).tenants = s.tenants := rfl
@[simp] theorem setLink_pages : (s.setLink l k).pages = s.pages := rfl
@[simp] theorem setLink_route : (s.setLink l k).route = s.route := rfl
@[simp] theorem setLink_pairs : (s.setLink l k).pairs = s.pairs := rfl
@[simp] theorem setLink_prefixes : (s.setLink l k).prefixes = s.prefixes := rfl
@[simp] theorem setLink_advertised : (s.setLink l k).advertised = s.advertised := rfl
@[simp] theorem setLink_reqs : (s.setLink l k).reqs = s.reqs := rfl
@[simp] theorem setLink_recvs : (s.setLink l k).recvs = s.recvs := rfl
@[simp] theorem setLink_sends : (s.setLink l k).sends = s.sends := rfl
@[simp] theorem setLink_nextOrder : (s.setLink l k).nextOrder = s.nextOrder := rfl
@[simp] theorem setLink_saveBase : (s.setLink l k).saveBase = s.saveBase := rfl
@[simp] theorem setLink_saveSize : (s.setLink l k).saveSize = s.saveSize := rfl
@[simp] theorem setLink_saved : (s.setLink l k).saved = s.saved := rfl
@[simp] theorem setLink_remote : (s.setLink l k).remote = s.remote := rfl
@[simp] theorem setLink_nextOp : (s.setLink l k).nextOp = s.nextOp := rfl
@[simp] theorem setLink_held : (s.setLink l k).held = s.held := rfl
@[simp] theorem setLink_forwards : (s.setLink l k).forwards = s.forwards := rfl
@[simp] theorem setLink_delayed : (s.setLink l k).delayed = s.delayed := rfl
@[simp] theorem setLink_out : (s.setLink l k).out = s.out := rfl
@[simp] theorem setLink_mgmtEvents : (s.setLink l k).mgmtEvents = s.mgmtEvents := rfl
@[simp] theorem setLink_tinvTenant : (s.setLink l k).tinvTenant = s.tinvTenant := rfl
@[simp] theorem setLink_tinvAll : (s.setLink l k).tinvAll = s.tinvAll := rfl
@[simp] theorem setLink_tinvJob : (s.setLink l k).tinvJob = s.tinvJob := rfl
@[simp] theorem setLink_tinvStart : (s.setLink l k).tinvStart = s.tinvStart := rfl
@[simp] theorem setLink_tinvEnd : (s.setLink l k).tinvEnd = s.tinvEnd := rfl
@[simp] theorem setLink_fsusp : (s.setLink l k).fsusp = s.fsusp := rfl
@[simp] theorem setLink_timer : (s.setLink l k).timer = s.timer := rfl
@[simp] theorem setLink_cycles : (s.setLink l k).cycles = s.cycles := rfl
@[simp] theorem setLink_perf : (s.setLink l k).perf = s.perf := rfl
@[simp] theorem setLink_bootState : (s.setLink l k).bootState = s.bootState := rfl
@[simp] theorem setLink_mr : (s.setLink l k).mr = s.mr := rfl
@[simp] theorem setLink_flash : (s.setLink l k).flash = s.flash := rfl
@[simp] theorem setLink_i3cAddr : (s.setLink l k).i3cAddr = s.i3cAddr := rfl
@[simp] theorem setLink_i3cBuf : (s.setLink l k).i3cBuf = s.i3cBuf := rfl
@[simp] theorem setLink_clockMHz : (s.setLink l k).clockMHz = s.clockMHz := rfl
@[simp] theorem setLink_overtemp : (s.setLink l k).overtemp = s.overtemp := rfl
@[simp] theorem setLink_agenda : (s.setLink l k).agenda = s.agenda := rfl
@[simp] theorem setLink_cur : (s.setLink l k).cur = s.cur := rfl
@[simp] theorem setLink_fresh : (s.setLink l k).fresh = s.fresh := rfl
@[simp] theorem setLink_waiters : (s.setLink l k).waiters = s.waiters := rfl
@[simp] theorem setLink_barCycle : (s.setLink l k).barCycle = s.barCycle := rfl
@[simp] theorem setLink_images : (s.setLink l k).images = s.images := rfl

end

section
variable (s : State) (l : Nat) (f : Link → Link)

@[simp] theorem modLink_cores : (s.modLink l f).cores = s.cores := rfl
@[simp] theorem modLink_groves : (s.modLink l f).groves = s.groves := rfl
@[simp] theorem modLink_glades : (s.modLink l f).glades = s.glades := rfl
@[simp] theorem modLink_mem : (s.modLink l f).mem = s.mem := rfl
@[simp] theorem modLink_hostMem : (s.modLink l f).hostMem = s.hostMem := rfl
@[simp] theorem modLink_owner : (s.modLink l f).owner = s.owner := rfl
@[simp] theorem modLink_poison : (s.modLink l f).poison = s.poison := rfl
@[simp] theorem modLink_biterr : (s.modLink l f).biterr = s.biterr := rfl
@[simp] theorem modLink_comp : (s.modLink l f).comp = s.comp := rfl
@[simp] theorem modLink_msys : (s.modLink l f).msys = s.msys := rfl
@[simp] theorem modLink_rcbs : (s.modLink l f).rcbs = s.rcbs := rfl
@[simp] theorem modLink_tenants : (s.modLink l f).tenants = s.tenants := rfl
@[simp] theorem modLink_pages : (s.modLink l f).pages = s.pages := rfl
@[simp] theorem modLink_route : (s.modLink l f).route = s.route := rfl
@[simp] theorem modLink_pairs : (s.modLink l f).pairs = s.pairs := rfl
@[simp] theorem modLink_prefixes : (s.modLink l f).prefixes = s.prefixes := rfl
@[simp] theorem modLink_advertised : (s.modLink l f).advertised = s.advertised := rfl
@[simp] theorem modLink_reqs : (s.modLink l f).reqs = s.reqs := rfl
@[simp] theorem modLink_recvs : (s.modLink l f).recvs = s.recvs := rfl
@[simp] theorem modLink_sends : (s.modLink l f).sends = s.sends := rfl
@[simp] theorem modLink_nextOrder : (s.modLink l f).nextOrder = s.nextOrder := rfl
@[simp] theorem modLink_saveBase : (s.modLink l f).saveBase = s.saveBase := rfl
@[simp] theorem modLink_saveSize : (s.modLink l f).saveSize = s.saveSize := rfl
@[simp] theorem modLink_saved : (s.modLink l f).saved = s.saved := rfl
@[simp] theorem modLink_remote : (s.modLink l f).remote = s.remote := rfl
@[simp] theorem modLink_nextOp : (s.modLink l f).nextOp = s.nextOp := rfl
@[simp] theorem modLink_held : (s.modLink l f).held = s.held := rfl
@[simp] theorem modLink_forwards : (s.modLink l f).forwards = s.forwards := rfl
@[simp] theorem modLink_delayed : (s.modLink l f).delayed = s.delayed := rfl
@[simp] theorem modLink_out : (s.modLink l f).out = s.out := rfl
@[simp] theorem modLink_mgmtEvents : (s.modLink l f).mgmtEvents = s.mgmtEvents := rfl
@[simp] theorem modLink_tinvTenant : (s.modLink l f).tinvTenant = s.tinvTenant := rfl
@[simp] theorem modLink_tinvAll : (s.modLink l f).tinvAll = s.tinvAll := rfl
@[simp] theorem modLink_tinvJob : (s.modLink l f).tinvJob = s.tinvJob := rfl
@[simp] theorem modLink_tinvStart : (s.modLink l f).tinvStart = s.tinvStart := rfl
@[simp] theorem modLink_tinvEnd : (s.modLink l f).tinvEnd = s.tinvEnd := rfl
@[simp] theorem modLink_fsusp : (s.modLink l f).fsusp = s.fsusp := rfl
@[simp] theorem modLink_timer : (s.modLink l f).timer = s.timer := rfl
@[simp] theorem modLink_cycles : (s.modLink l f).cycles = s.cycles := rfl
@[simp] theorem modLink_perf : (s.modLink l f).perf = s.perf := rfl
@[simp] theorem modLink_bootState : (s.modLink l f).bootState = s.bootState := rfl
@[simp] theorem modLink_mr : (s.modLink l f).mr = s.mr := rfl
@[simp] theorem modLink_flash : (s.modLink l f).flash = s.flash := rfl
@[simp] theorem modLink_i3cAddr : (s.modLink l f).i3cAddr = s.i3cAddr := rfl
@[simp] theorem modLink_i3cBuf : (s.modLink l f).i3cBuf = s.i3cBuf := rfl
@[simp] theorem modLink_clockMHz : (s.modLink l f).clockMHz = s.clockMHz := rfl
@[simp] theorem modLink_overtemp : (s.modLink l f).overtemp = s.overtemp := rfl
@[simp] theorem modLink_agenda : (s.modLink l f).agenda = s.agenda := rfl
@[simp] theorem modLink_cur : (s.modLink l f).cur = s.cur := rfl
@[simp] theorem modLink_fresh : (s.modLink l f).fresh = s.fresh := rfl
@[simp] theorem modLink_waiters : (s.modLink l f).waiters = s.waiters := rfl
@[simp] theorem modLink_barCycle : (s.modLink l f).barCycle = s.barCycle := rfl
@[simp] theorem modLink_images : (s.modLink l f).images = s.images := rfl

end

section
variable (s : State) (m : OutMsg)

@[simp] theorem send_cores : (s.send m).cores = s.cores := rfl
@[simp] theorem send_groves : (s.send m).groves = s.groves := rfl
@[simp] theorem send_glades : (s.send m).glades = s.glades := rfl
@[simp] theorem send_mem : (s.send m).mem = s.mem := rfl
@[simp] theorem send_hostMem : (s.send m).hostMem = s.hostMem := rfl
@[simp] theorem send_owner : (s.send m).owner = s.owner := rfl
@[simp] theorem send_poison : (s.send m).poison = s.poison := rfl
@[simp] theorem send_biterr : (s.send m).biterr = s.biterr := rfl
@[simp] theorem send_comp : (s.send m).comp = s.comp := rfl
@[simp] theorem send_msys : (s.send m).msys = s.msys := rfl
@[simp] theorem send_rcbs : (s.send m).rcbs = s.rcbs := rfl
@[simp] theorem send_tenants : (s.send m).tenants = s.tenants := rfl
@[simp] theorem send_pages : (s.send m).pages = s.pages := rfl
@[simp] theorem send_route : (s.send m).route = s.route := rfl
@[simp] theorem send_pairs : (s.send m).pairs = s.pairs := rfl
@[simp] theorem send_links : (s.send m).links = s.links := rfl
@[simp] theorem send_prefixes : (s.send m).prefixes = s.prefixes := rfl
@[simp] theorem send_advertised : (s.send m).advertised = s.advertised := rfl
@[simp] theorem send_reqs : (s.send m).reqs = s.reqs := rfl
@[simp] theorem send_recvs : (s.send m).recvs = s.recvs := rfl
@[simp] theorem send_sends : (s.send m).sends = s.sends := rfl
@[simp] theorem send_nextOrder : (s.send m).nextOrder = s.nextOrder := rfl
@[simp] theorem send_saveBase : (s.send m).saveBase = s.saveBase := rfl
@[simp] theorem send_saveSize : (s.send m).saveSize = s.saveSize := rfl
@[simp] theorem send_saved : (s.send m).saved = s.saved := rfl
@[simp] theorem send_remote : (s.send m).remote = s.remote := rfl
@[simp] theorem send_nextOp : (s.send m).nextOp = s.nextOp := rfl
@[simp] theorem send_held : (s.send m).held = s.held := rfl
@[simp] theorem send_forwards : (s.send m).forwards = s.forwards := rfl
@[simp] theorem send_delayed : (s.send m).delayed = s.delayed := rfl
@[simp] theorem send_mgmtEvents : (s.send m).mgmtEvents = s.mgmtEvents := rfl
@[simp] theorem send_tinvTenant : (s.send m).tinvTenant = s.tinvTenant := rfl
@[simp] theorem send_tinvAll : (s.send m).tinvAll = s.tinvAll := rfl
@[simp] theorem send_tinvJob : (s.send m).tinvJob = s.tinvJob := rfl
@[simp] theorem send_tinvStart : (s.send m).tinvStart = s.tinvStart := rfl
@[simp] theorem send_tinvEnd : (s.send m).tinvEnd = s.tinvEnd := rfl
@[simp] theorem send_fsusp : (s.send m).fsusp = s.fsusp := rfl
@[simp] theorem send_timer : (s.send m).timer = s.timer := rfl
@[simp] theorem send_cycles : (s.send m).cycles = s.cycles := rfl
@[simp] theorem send_perf : (s.send m).perf = s.perf := rfl
@[simp] theorem send_bootState : (s.send m).bootState = s.bootState := rfl
@[simp] theorem send_mr : (s.send m).mr = s.mr := rfl
@[simp] theorem send_flash : (s.send m).flash = s.flash := rfl
@[simp] theorem send_i3cAddr : (s.send m).i3cAddr = s.i3cAddr := rfl
@[simp] theorem send_i3cBuf : (s.send m).i3cBuf = s.i3cBuf := rfl
@[simp] theorem send_clockMHz : (s.send m).clockMHz = s.clockMHz := rfl
@[simp] theorem send_overtemp : (s.send m).overtemp = s.overtemp := rfl
@[simp] theorem send_agenda : (s.send m).agenda = s.agenda := rfl
@[simp] theorem send_cur : (s.send m).cur = s.cur := rfl
@[simp] theorem send_fresh : (s.send m).fresh = s.fresh := rfl
@[simp] theorem send_waiters : (s.send m).waiters = s.waiters := rfl
@[simp] theorem send_barCycle : (s.send m).barCycle = s.barCycle := rfl
@[simp] theorem send_images : (s.send m).images = s.images := rfl

end

section
variable (s : State) (st : Stream)

@[simp] theorem unwait_cores : (s.unwait st).cores = s.cores := rfl
@[simp] theorem unwait_groves : (s.unwait st).groves = s.groves := rfl
@[simp] theorem unwait_glades : (s.unwait st).glades = s.glades := rfl
@[simp] theorem unwait_mem : (s.unwait st).mem = s.mem := rfl
@[simp] theorem unwait_hostMem : (s.unwait st).hostMem = s.hostMem := rfl
@[simp] theorem unwait_owner : (s.unwait st).owner = s.owner := rfl
@[simp] theorem unwait_poison : (s.unwait st).poison = s.poison := rfl
@[simp] theorem unwait_biterr : (s.unwait st).biterr = s.biterr := rfl
@[simp] theorem unwait_comp : (s.unwait st).comp = s.comp := rfl
@[simp] theorem unwait_rcbs : (s.unwait st).rcbs = s.rcbs := rfl
@[simp] theorem unwait_tenants : (s.unwait st).tenants = s.tenants := rfl
@[simp] theorem unwait_pages : (s.unwait st).pages = s.pages := rfl
@[simp] theorem unwait_route : (s.unwait st).route = s.route := rfl
@[simp] theorem unwait_pairs : (s.unwait st).pairs = s.pairs := rfl
@[simp] theorem unwait_links : (s.unwait st).links = s.links := rfl
@[simp] theorem unwait_prefixes : (s.unwait st).prefixes = s.prefixes := rfl
@[simp] theorem unwait_advertised : (s.unwait st).advertised = s.advertised := rfl
@[simp] theorem unwait_reqs : (s.unwait st).reqs = s.reqs := rfl
@[simp] theorem unwait_recvs : (s.unwait st).recvs = s.recvs := rfl
@[simp] theorem unwait_sends : (s.unwait st).sends = s.sends := rfl
@[simp] theorem unwait_nextOrder : (s.unwait st).nextOrder = s.nextOrder := rfl
@[simp] theorem unwait_saveBase : (s.unwait st).saveBase = s.saveBase := rfl
@[simp] theorem unwait_saveSize : (s.unwait st).saveSize = s.saveSize := rfl
@[simp] theorem unwait_saved : (s.unwait st).saved = s.saved := rfl
@[simp] theorem unwait_remote : (s.unwait st).remote = s.remote := rfl
@[simp] theorem unwait_nextOp : (s.unwait st).nextOp = s.nextOp := rfl
@[simp] theorem unwait_held : (s.unwait st).held = s.held := rfl
@[simp] theorem unwait_forwards : (s.unwait st).forwards = s.forwards := rfl
@[simp] theorem unwait_delayed : (s.unwait st).delayed = s.delayed := rfl
@[simp] theorem unwait_out : (s.unwait st).out = s.out := rfl
@[simp] theorem unwait_mgmtEvents : (s.unwait st).mgmtEvents = s.mgmtEvents := rfl
@[simp] theorem unwait_tinvTenant : (s.unwait st).tinvTenant = s.tinvTenant := rfl
@[simp] theorem unwait_tinvAll : (s.unwait st).tinvAll = s.tinvAll := rfl
@[simp] theorem unwait_tinvJob : (s.unwait st).tinvJob = s.tinvJob := rfl
@[simp] theorem unwait_tinvStart : (s.unwait st).tinvStart = s.tinvStart := rfl
@[simp] theorem unwait_tinvEnd : (s.unwait st).tinvEnd = s.tinvEnd := rfl
@[simp] theorem unwait_fsusp : (s.unwait st).fsusp = s.fsusp := rfl
@[simp] theorem unwait_timer : (s.unwait st).timer = s.timer := rfl
@[simp] theorem unwait_cycles : (s.unwait st).cycles = s.cycles := rfl
@[simp] theorem unwait_perf : (s.unwait st).perf = s.perf := rfl
@[simp] theorem unwait_bootState : (s.unwait st).bootState = s.bootState := rfl
@[simp] theorem unwait_mr : (s.unwait st).mr = s.mr := rfl
@[simp] theorem unwait_flash : (s.unwait st).flash = s.flash := rfl
@[simp] theorem unwait_i3cAddr : (s.unwait st).i3cAddr = s.i3cAddr := rfl
@[simp] theorem unwait_i3cBuf : (s.unwait st).i3cBuf = s.i3cBuf := rfl
@[simp] theorem unwait_clockMHz : (s.unwait st).clockMHz = s.clockMHz := rfl
@[simp] theorem unwait_overtemp : (s.unwait st).overtemp = s.overtemp := rfl
@[simp] theorem unwait_agenda : (s.unwait st).agenda = s.agenda := rfl
@[simp] theorem unwait_cur : (s.unwait st).cur = s.cur := rfl
@[simp] theorem unwait_fresh : (s.unwait st).fresh = s.fresh := rfl
@[simp] theorem unwait_barCycle : (s.unwait st).barCycle = s.barCycle := rfl
@[simp] theorem unwait_images : (s.unwait st).images = s.images := rfl

end

section
variable (s : State) (m : MemSys)

@[simp] theorem keep_cores : (s.keep m).cores = s.cores := rfl
@[simp] theorem keep_groves : (s.keep m).groves = s.groves := rfl
@[simp] theorem keep_glades : (s.keep m).glades = s.glades := rfl
@[simp] theorem keep_mem : (s.keep m).mem = s.mem := rfl
@[simp] theorem keep_hostMem : (s.keep m).hostMem = s.hostMem := rfl
@[simp] theorem keep_owner : (s.keep m).owner = s.owner := rfl
@[simp] theorem keep_poison : (s.keep m).poison = s.poison := rfl
@[simp] theorem keep_biterr : (s.keep m).biterr = s.biterr := rfl
@[simp] theorem keep_comp : (s.keep m).comp = s.comp := rfl
@[simp] theorem keep_rcbs : (s.keep m).rcbs = s.rcbs := rfl
@[simp] theorem keep_tenants : (s.keep m).tenants = s.tenants := rfl
@[simp] theorem keep_pages : (s.keep m).pages = s.pages := rfl
@[simp] theorem keep_route : (s.keep m).route = s.route := rfl
@[simp] theorem keep_pairs : (s.keep m).pairs = s.pairs := rfl
@[simp] theorem keep_links : (s.keep m).links = s.links := rfl
@[simp] theorem keep_prefixes : (s.keep m).prefixes = s.prefixes := rfl
@[simp] theorem keep_advertised : (s.keep m).advertised = s.advertised := rfl
@[simp] theorem keep_reqs : (s.keep m).reqs = s.reqs := rfl
@[simp] theorem keep_recvs : (s.keep m).recvs = s.recvs := rfl
@[simp] theorem keep_sends : (s.keep m).sends = s.sends := rfl
@[simp] theorem keep_nextOrder : (s.keep m).nextOrder = s.nextOrder := rfl
@[simp] theorem keep_saveBase : (s.keep m).saveBase = s.saveBase := rfl
@[simp] theorem keep_saveSize : (s.keep m).saveSize = s.saveSize := rfl
@[simp] theorem keep_saved : (s.keep m).saved = s.saved := rfl
@[simp] theorem keep_remote : (s.keep m).remote = s.remote := rfl
@[simp] theorem keep_nextOp : (s.keep m).nextOp = s.nextOp := rfl
@[simp] theorem keep_held : (s.keep m).held = s.held := rfl
@[simp] theorem keep_forwards : (s.keep m).forwards = s.forwards := rfl
@[simp] theorem keep_delayed : (s.keep m).delayed = s.delayed := rfl
@[simp] theorem keep_out : (s.keep m).out = s.out := rfl
@[simp] theorem keep_mgmtEvents : (s.keep m).mgmtEvents = s.mgmtEvents := rfl
@[simp] theorem keep_tinvTenant : (s.keep m).tinvTenant = s.tinvTenant := rfl
@[simp] theorem keep_tinvAll : (s.keep m).tinvAll = s.tinvAll := rfl
@[simp] theorem keep_tinvJob : (s.keep m).tinvJob = s.tinvJob := rfl
@[simp] theorem keep_tinvStart : (s.keep m).tinvStart = s.tinvStart := rfl
@[simp] theorem keep_tinvEnd : (s.keep m).tinvEnd = s.tinvEnd := rfl
@[simp] theorem keep_fsusp : (s.keep m).fsusp = s.fsusp := rfl
@[simp] theorem keep_timer : (s.keep m).timer = s.timer := rfl
@[simp] theorem keep_cycles : (s.keep m).cycles = s.cycles := rfl
@[simp] theorem keep_perf : (s.keep m).perf = s.perf := rfl
@[simp] theorem keep_bootState : (s.keep m).bootState = s.bootState := rfl
@[simp] theorem keep_mr : (s.keep m).mr = s.mr := rfl
@[simp] theorem keep_flash : (s.keep m).flash = s.flash := rfl
@[simp] theorem keep_i3cAddr : (s.keep m).i3cAddr = s.i3cAddr := rfl
@[simp] theorem keep_i3cBuf : (s.keep m).i3cBuf = s.i3cBuf := rfl
@[simp] theorem keep_clockMHz : (s.keep m).clockMHz = s.clockMHz := rfl
@[simp] theorem keep_overtemp : (s.keep m).overtemp = s.overtemp := rfl
@[simp] theorem keep_agenda : (s.keep m).agenda = s.agenda := rfl
@[simp] theorem keep_cur : (s.keep m).cur = s.cur := rfl
@[simp] theorem keep_fresh : (s.keep m).fresh = s.fresh := rfl
@[simp] theorem keep_waiters : (s.keep m).waiters = s.waiters := rfl
@[simp] theorem keep_barCycle : (s.keep m).barCycle = s.barCycle := rfl
@[simp] theorem keep_images : (s.keep m).images = s.images := rfl

end

section
variable (s : State) (p : Who → Bool)

@[simp] theorem detach_cores : (s.detach p).cores = s.cores := rfl
@[simp] theorem detach_groves : (s.detach p).groves = s.groves := rfl
@[simp] theorem detach_glades : (s.detach p).glades = s.glades := rfl
@[simp] theorem detach_mem : (s.detach p).mem = s.mem := rfl
@[simp] theorem detach_hostMem : (s.detach p).hostMem = s.hostMem := rfl
@[simp] theorem detach_owner : (s.detach p).owner = s.owner := rfl
@[simp] theorem detach_poison : (s.detach p).poison = s.poison := rfl
@[simp] theorem detach_biterr : (s.detach p).biterr = s.biterr := rfl
@[simp] theorem detach_comp : (s.detach p).comp = s.comp := rfl
@[simp] theorem detach_rcbs : (s.detach p).rcbs = s.rcbs := rfl
@[simp] theorem detach_tenants : (s.detach p).tenants = s.tenants := rfl
@[simp] theorem detach_pages : (s.detach p).pages = s.pages := rfl
@[simp] theorem detach_route : (s.detach p).route = s.route := rfl
@[simp] theorem detach_pairs : (s.detach p).pairs = s.pairs := rfl
@[simp] theorem detach_links : (s.detach p).links = s.links := rfl
@[simp] theorem detach_prefixes : (s.detach p).prefixes = s.prefixes := rfl
@[simp] theorem detach_advertised : (s.detach p).advertised = s.advertised := rfl
@[simp] theorem detach_reqs : (s.detach p).reqs = s.reqs := rfl
@[simp] theorem detach_recvs : (s.detach p).recvs = s.recvs := rfl
@[simp] theorem detach_sends : (s.detach p).sends = s.sends := rfl
@[simp] theorem detach_nextOrder : (s.detach p).nextOrder = s.nextOrder := rfl
@[simp] theorem detach_saveBase : (s.detach p).saveBase = s.saveBase := rfl
@[simp] theorem detach_saveSize : (s.detach p).saveSize = s.saveSize := rfl
@[simp] theorem detach_saved : (s.detach p).saved = s.saved := rfl
@[simp] theorem detach_remote : (s.detach p).remote = s.remote := rfl
@[simp] theorem detach_nextOp : (s.detach p).nextOp = s.nextOp := rfl
@[simp] theorem detach_held : (s.detach p).held = s.held := rfl
@[simp] theorem detach_forwards : (s.detach p).forwards = s.forwards := rfl
@[simp] theorem detach_delayed : (s.detach p).delayed = s.delayed := rfl
@[simp] theorem detach_out : (s.detach p).out = s.out := rfl
@[simp] theorem detach_mgmtEvents : (s.detach p).mgmtEvents = s.mgmtEvents := rfl
@[simp] theorem detach_tinvTenant : (s.detach p).tinvTenant = s.tinvTenant := rfl
@[simp] theorem detach_tinvAll : (s.detach p).tinvAll = s.tinvAll := rfl
@[simp] theorem detach_tinvJob : (s.detach p).tinvJob = s.tinvJob := rfl
@[simp] theorem detach_tinvStart : (s.detach p).tinvStart = s.tinvStart := rfl
@[simp] theorem detach_tinvEnd : (s.detach p).tinvEnd = s.tinvEnd := rfl
@[simp] theorem detach_fsusp : (s.detach p).fsusp = s.fsusp := rfl
@[simp] theorem detach_timer : (s.detach p).timer = s.timer := rfl
@[simp] theorem detach_cycles : (s.detach p).cycles = s.cycles := rfl
@[simp] theorem detach_perf : (s.detach p).perf = s.perf := rfl
@[simp] theorem detach_bootState : (s.detach p).bootState = s.bootState := rfl
@[simp] theorem detach_mr : (s.detach p).mr = s.mr := rfl
@[simp] theorem detach_flash : (s.detach p).flash = s.flash := rfl
@[simp] theorem detach_i3cAddr : (s.detach p).i3cAddr = s.i3cAddr := rfl
@[simp] theorem detach_i3cBuf : (s.detach p).i3cBuf = s.i3cBuf := rfl
@[simp] theorem detach_clockMHz : (s.detach p).clockMHz = s.clockMHz := rfl
@[simp] theorem detach_overtemp : (s.detach p).overtemp = s.overtemp := rfl
@[simp] theorem detach_agenda : (s.detach p).agenda = s.agenda := rfl
@[simp] theorem detach_cur : (s.detach p).cur = s.cur := rfl
@[simp] theorem detach_fresh : (s.detach p).fresh = s.fresh := rfl
@[simp] theorem detach_waiters : (s.detach p).waiters = s.waiters := rfl
@[simp] theorem detach_barCycle : (s.detach p).barCycle = s.barCycle := rfl
@[simp] theorem detach_images : (s.detach p).images = s.images := rfl

end

/-! ## Reads after updates -/

@[simp] theorem core_setCore_self (s : State) (n : Nat) (k : Core) : (s.setCore n k).core n = k := Tab.get_put_self _ _ _ _
theorem core_setCore_other (s : State) {n m : Nat} (k : Core) (h : m ≠ n) : (s.setCore n k).core m = s.core m :=
  Tab.get_put_other _ _ _ h
@[simp] theorem grove_setGrove_self (s : State) (n : Nat) (k : Grove) : (s.setGrove n k).grove n = k := Tab.get_put_self _ _ _ _
theorem grove_setGrove_other (s : State) {n m : Nat} (k : Grove) (h : m ≠ n) : (s.setGrove n k).grove m = s.grove m :=
  Tab.get_put_other _ _ _ h
@[simp] theorem glade_setGlade_self (s : State) (n : Nat) (k : Glade) : (s.setGlade n k).glade n = k := Tab.get_put_self _ _ _ _
theorem glade_setGlade_other (s : State) {n m : Nat} (k : Glade) (h : m ≠ n) : (s.setGlade n k).glade m = s.glade m :=
  Tab.get_put_other _ _ _ h
@[simp] theorem page_setPage_self (s : State) (n : Nat) (k : TenantPage) : (s.setPage n k).page n = k := Tab.get_put_self _ _ _ _
theorem page_setPage_other (s : State) {n m : Nat} (k : TenantPage) (h : m ≠ n) : (s.setPage n k).page m = s.page m :=
  Tab.get_put_other _ _ _ h
@[simp] theorem link_setLink_self (s : State) (n : Nat) (k : Link) : (s.setLink n k).link n = k := Tab.get_put_self _ _ _ _
theorem link_setLink_other (s : State) {n m : Nat} (k : Link) (h : m ≠ n) : (s.setLink n k).link m = s.link m :=
  Tab.get_put_other _ _ _ h
@[simp] theorem rcb_setRcb_self (s : State) (n : Nat) (k : Rcb) : (s.setRcb n k).rcb n = some k := Tab.find_put_self _ _ _
theorem rcb_setRcb_other (s : State) {n m : Nat} (k : Rcb) (h : m ≠ n) : (s.setRcb n k).rcb m = s.rcb m :=
  Tab.find_put_other _ _ h
@[simp] theorem ctx_setCtx_self (s : State) (c : Nat) (x : Context) : (s.setCtx c x).ctx c = x := by
  simp only [State.setCtx, State.ctx, core_setCore_self]
theorem ctx_setCtx_other (s : State) {c e : Nat} (x : Context) (h : e ≠ c) : (s.setCtx c x).ctx e = s.ctx e := by
  simp only [State.setCtx, State.ctx, core_setCore_other _ _ h]
@[simp] theorem Context.seq_setSeq_self (x : Context) (k : SeqKind) (q : Seq) : (x.setSeq k q).seq k = q := by cases k <;> rfl
theorem Context.seq_setSeq_other (x : Context) {k j : SeqKind} (q : Seq) (h : j ≠ k) : (x.setSeq k q).seq j = x.seq j := by
  cases k <;> cases j <;> first | rfl | exact absurd rfl h
@[simp] theorem Context.sub_setSub_self (x : Context) {k : Sub} (q : SubQ) (h : k ≠ .pipe) : (x.setSub k q).sub k = q := by
  cases k <;> first | rfl | exact absurd rfl h
@[simp] theorem seqOf_setSeq_self (s : State) (st : Stream) (q : Seq) : (s.setSeq st q).seqOf st = q := by
  simp only [State.setSeq, State.seqOf, ctx_setCtx_self, Context.seq_setSeq_self]
@[simp] theorem seqOf_modSeq_self (s : State) (st : Stream) (f : Seq → Seq) : (s.modSeq st f).seqOf st = f (s.seqOf st) :=
  seqOf_setSeq_self _ _ _

section
variable (x : Context) (k : SeqKind) (q : Seq)

@[simp] theorem Context.setSeq_tq : (x.setSeq k q).tq = x.tq := by cases k <;> rfl
@[simp] theorem Context.setSeq_v : (x.setSeq k q).v = x.v := by cases k <;> rfl
@[simp] theorem Context.setSeq_p : (x.setSeq k q).p = x.p := by cases k <;> rfl
@[simp] theorem Context.setSeq_vsh : (x.setSeq k q).vsh = x.vsh := by cases k <;> rfl
@[simp] theorem Context.setSeq_vkey : (x.setSeq k q).vkey = x.vkey := by cases k <;> rfl
@[simp] theorem Context.setSeq_vbase : (x.setSeq k q).vbase = x.vbase := by cases k <;> rfl
@[simp] theorem Context.setSeq_vgstr : (x.setSeq k q).vgstr = x.vgstr := by cases k <;> rfl
@[simp] theorem Context.setSeq_vq : (x.setSeq k q).vq = x.vq := by cases k <;> rfl
@[simp] theorem Context.setSeq_obuf : (x.setSeq k q).obuf = x.obuf := by cases k <;> rfl
@[simp] theorem Context.setSeq_vl : (x.setSeq k q).vl = x.vl := by cases k <;> rfl
@[simp] theorem Context.setSeq_va : (x.setSeq k q).va = x.va := by cases k <;> rfl
@[simp] theorem Context.setSeq_vs : (x.setSeq k q).vs = x.vs := by cases k <;> rfl
@[simp] theorem Context.setSeq_splits : (x.setSeq k q).splits = x.splits := by cases k <;> rfl
@[simp] theorem Context.setSeq_split : (x.setSeq k q).split = x.split := by cases k <;> rfl
@[simp] theorem Context.setSeq_splitRem : (x.setSeq k q).splitRem = x.splitRem := by cases k <;> rfl
@[simp] theorem Context.setSeq_captured : (x.setSeq k q).captured = x.captured := by cases k <;> rfl
@[simp] theorem Context.setSeq_mx : (x.setSeq k q).mx = x.mx := by cases k <;> rfl
@[simp] theorem Context.setSeq_rot : (x.setSeq k q).rot = x.rot := by cases k <;> rfl

end
section
variable (x : Context) (k : Sub) (q : SubQ)

@[simp] theorem Context.setSub_k : (x.setSub k q).k = x.k := by cases k <;> rfl
@[simp] theorem Context.setSub_vseq : (x.setSub k q).vseq = x.vseq := by cases k <;> rfl
@[simp] theorem Context.setSub_mseq : (x.setSub k q).mseq = x.mseq := by cases k <;> rfl
@[simp] theorem Context.setSub_qseq : (x.setSub k q).qseq = x.qseq := by cases k <;> rfl
@[simp] theorem Context.setSub_tq : (x.setSub k q).tq = x.tq := by cases k <;> rfl
@[simp] theorem Context.setSub_v : (x.setSub k q).v = x.v := by cases k <;> rfl
@[simp] theorem Context.setSub_p : (x.setSub k q).p = x.p := by cases k <;> rfl
@[simp] theorem Context.setSub_vsh : (x.setSub k q).vsh = x.vsh := by cases k <;> rfl
@[simp] theorem Context.setSub_vkey : (x.setSub k q).vkey = x.vkey := by cases k <;> rfl
@[simp] theorem Context.setSub_vbase : (x.setSub k q).vbase = x.vbase := by cases k <;> rfl
@[simp] theorem Context.setSub_vgstr : (x.setSub k q).vgstr = x.vgstr := by cases k <;> rfl
@[simp] theorem Context.setSub_vq : (x.setSub k q).vq = x.vq := by cases k <;> rfl
@[simp] theorem Context.setSub_obuf : (x.setSub k q).obuf = x.obuf := by cases k <;> rfl
@[simp] theorem Context.setSub_splits : (x.setSub k q).splits = x.splits := by cases k <;> rfl
@[simp] theorem Context.setSub_split : (x.setSub k q).split = x.split := by cases k <;> rfl
@[simp] theorem Context.setSub_splitRem : (x.setSub k q).splitRem = x.splitRem := by cases k <;> rfl
@[simp] theorem Context.setSub_captured : (x.setSub k q).captured = x.captured := by cases k <;> rfl
@[simp] theorem Context.setSub_mx : (x.setSub k q).mx = x.mx := by cases k <;> rfl
@[simp] theorem Context.setSub_rot : (x.setSub k q).rot = x.rot := by cases k <;> rfl

end

/-! ## Register writes and the marks of their words (R249, R250) -/

/-- With no bit in error, a write of a range only clears poison. -/
theorem markWrite_shape {s : State} (h : s.biterr = []) (c o a n : Nat) : ∃ p, markWrite c o a n s = { s with poison := p } := by
  have hm : s.mergeBad a n = [] := by simp [State.mergeBad, State.wordBad, h, Tab.get]
  unfold markWrite
  split
  · exact ⟨s.poison, rfl⟩
  · rw [hm]
    generalize wordsOf a n = l
    have key : ∀ (l : List Nat) (p : Tab Bool), ∃ q, l.foldl (fun s w =>
        if wholeWord a n w then { s with poison := Tab.del s.poison w, biterr := Tab.del s.biterr w }
        else if Tab.get 0 s.biterr w = 1 then countFixed (8 * w) 1 { s with biterr := Tab.del s.biterr w }
        else s) { s with poison := p } = { s with poison := q } := by
      intro l
      induction l with
      | nil => exact fun p => ⟨p, rfl⟩
      | cons w l ih =>
        intro p
        rw [List.foldl_cons]
        split
        · simpa only [h, Tab.del] using ih (Tab.del p w)
        · simpa [h, Tab.get, Tab.find] using ih p
    exact key l s.poison

theorem markOwner_shape (s : State) (r a n : Nat) : ∃ t, markOwner r a n s = { s with owner := t } := by
  unfold markOwner
  split
  · exact ⟨s.owner, rfl⟩
  · exact ⟨_, rfl⟩

theorem markOwn_shape {s : State} (h : s.biterr = []) (c k o n r : Nat) :
    ∃ t p, markOwn c k o n r s = { s with owner := t, poison := p } := by
  obtain ⟨p, hp⟩ := markWrite_shape h c s.cur.seq.code (chipAddr c k o) n
  obtain ⟨t, ht⟩ := markOwner_shape { s with poison := p } r (chipAddr c k o) n
  exact ⟨t, p, by rw [markOwn, hp, ht]⟩

/-- With no bit in error, a register write changes the registers, a tag and poison alone. -/
theorem setX_shape {s : State} (h : s.biterr = []) (n : Nat) (v : Word) :
    ∃ k t p, s.setX n v = { s with cores := k, owner := t, poison := p } := by
  unfold State.setX
  dsimp only
  split
  · obtain ⟨t, p, e⟩ := markOwn_shape (s := (s.modCtx s.cur.core fun x => x.supersede s.cur.seq n).modSeq s.cur fun q => q.setX n v)
      h s.cur.core 4 (xOffset s.cur.seq n) 8 s.seq.trcb
    exact ⟨_, t, p, e⟩
  · obtain ⟨t, p, e⟩ := markOwn_shape (s := s.modSeq s.cur fun q => q.setX n v)
      h s.cur.core 4 (xOffset s.cur.seq n) 8 s.seq.trcb
    exact ⟨_, t, p, e⟩

end Sys2Proof.Machine
end

