-- ==== Sys2Proof/Tests/Slice0.lean ====
section
/-! SUPPORT. Tests: ill-formed instructions; words written out from the tables of encodings; results worked out by hand
from the rules; and for every statement of Certificates/Slice0 that has hypotheses, states and operands that meet them, clause
by clause. Where a hypothesis says what a part of a meaning gives, the witness looks at the result of that part. -/

open Sys2Proof Sys2Proof.Machine
namespace Sys2Proof.Tests
set_option Elab.async false

/-! ## Ill-formed instructions, one for each check of R76 to R79 -/

theorem test_wf_scalar_registers : (Instr.add (.reg 48) (.reg 1) (.reg 2)).wf = false ∧ (Instr.add (.reg 3) (.reg 48) (.reg 2)).wf = false ∧
    (Instr.add (.reg 3) (.reg 1) (.reg 48)).wf = false ∧ (Instr.add (.queue 8) (.reg 1) (.reg 2)).wf = false ∧
    (Instr.add (.reg 3) (.queue 8) (.reg 2)).wf = false ∧ (Instr.add (.reg 47) (.queue 7) (.reg 47)).wf = true := by decide
theorem test_wf_one_literal : (Instr.add (.reg 3) (.lit32 1) (.lit64 2)).wf = false ∧ (Instr.add (.reg 3) (.lit32 1) (.reg 2)).wf = true := by decide
theorem test_wf_destination_read : (Instr.bfi (.queue 0) (.reg 1) (.reg 2)).wf = false ∧ (Instr.vfma (.queue 4) (.reg 1) (.reg 2) false false 0).wf = false ∧
    (Instr.bfi .discard (.reg 1) (.reg 2)).wf = true := by decide
theorem test_wf_tiles : (Instr.vadd (.queue 3) (.reg 1) (.reg 2) false false 0).wf = false ∧ (Instr.vadd (.reg 3) (.queue 4) (.reg 2) false false 0).wf = false ∧
    (Instr.vadd (.reg 48) (.reg 1) (.reg 2) false false 0).wf = false ∧ (Instr.vld (.queue 4) (.reg 1) (.reg 2) 0).wf = false ∧
    (Instr.vst (.queue 3) (.reg 1) (.reg 2) 0).wf = false ∧ (Instr.vadd (.queue 4) (.queue 3) (.reg 2) false false 0).wf = true := by decide
theorem test_wf_hold : (Instr.vadd (.reg 3) (.queue 0) (.reg 2) true false 0).wf = false ∧ (Instr.vadd (.reg 3) (.reg 1) .zero false true 0).wf = false ∧
    (Instr.vabs (.reg 3) .zero true 0).wf = false ∧ (Instr.vadd (.reg 3) (.reg 1) (.reg 2) true true 0).wf = true := by decide
theorem test_wf_short_fields : (Instr.loop .eqz 48 1).wf = false ∧ (Instr.rdq 8 1).wf = false ∧ (Instr.qzst 8 (.reg 1) (.reg 2)).wf = false ∧
    (Instr.amoAdd (.reg 3) 32 2 .relaxed .core).wf = false ∧ (Instr.amoAdd (.reg 3) 1 32 .relaxed .core).wf = false ∧
    (Instr.amoAdd (.reg 48) 1 2 .relaxed .core).wf = false := by decide
theorem test_wf_field_values : (Instr.vldb (.reg 3) (.reg 1) (.reg 2) 7).wf = false ∧ (Instr.vlda (.reg 3) (.reg 1) (.reg 2) true false .raw).wf = false ∧
    (Instr.vsel (.reg 3) (.reg 1) (.reg 2) false false 0).wf = false ∧ (Instr.vsplit (.reg 3) (.reg 1) 3 false).wf = false ∧
    (Instr.mzero 1 2 true).wf = false ∧ (Instr.qrda (.reg 1) .ang true).wf = false ∧ (Instr.ld (.reg 3) (.reg 1) (.reg 2) true .d).wf = false := by decide
theorem test_wf_predicates : (Instr.vpset .first 3 (.reg 1) 1 0 false).wf = false ∧ (Instr.vpset .all 3 (.reg 0) 1 0 false).wf = false ∧
    (Instr.vpset .and 3 (.reg 1) 1 2 false).wf = false ∧ (Instr.vpset .not 3 (.reg 0) 1 2 false).wf = false ∧
    (Instr.vpset .first 3 (.reg 1) 0 0 true).wf = true := by decide

/-! ## Words written out from the encoding tables -/

theorem test_decode_K_00 :
    decode .K 0b000_0000000_100101_010101_101010_0000 ⟨0, 0⟩ = .ok (.add (.reg 37) (.reg 21) (.reg 42)) ∧
    decode .K 0b000_0000001_100101_010101_101010_0000 ⟨0, 0⟩ = .ok (.sub (.reg 37) (.reg 21) (.reg 42)) ∧
    decode .K 0b000_0000010_100101_010101_101010_0000 ⟨0, 0⟩ = .ok (.mul (.reg 37) (.reg 21) (.reg 42)) ∧
    decode .K 0b000_0000011_100101_010101_101010_0000 ⟨0, 0⟩ = .ok (.mulh (.reg 37) (.reg 21) (.reg 42)) ∧
    decode .K 0b000_0000100_100101_010101_101010_0000 ⟨0, 0⟩ = .ok (.mulhu (.reg 37) (.reg 21) (.reg 42)) ∧
    decode .K 0b000_0000101_100101_010101_101010_0000 ⟨0, 0⟩ = .ok (.div (.reg 37) (.reg 21) (.reg 42)) ∧
    decode .K 0b000_0000110_100101_010101_101010_0000 ⟨0, 0⟩ = .ok (.divu (.reg 37) (.reg 21) (.reg 42)) ∧
    decode .K 0b000_0000111_100101_010101_101010_0000 ⟨0, 0⟩ = .ok (.rem (.reg 37) (.reg 21) (.reg 42)) ∧
    decode .K 0b000_0001000_100101_010101_101010_0000 ⟨0, 0⟩ = .ok (.remu (.reg 37) (.reg 21) (.reg 42)) ∧
    decode .K 0b000_0001001_100101_010101_101010_0000 ⟨0, 0⟩ = .ok (.and (.reg 37) (.reg 21) (.reg 42)) ∧
    decode .K 0b000_0001010_100101_010101_101010_0000 ⟨0, 0⟩ = .ok (.or (.reg 37) (.reg 21) (.reg 42)) ∧
    decode .K 0b000_0001011_100101_010101_101010_0000 ⟨0, 0⟩ = .ok (.xor (.reg 37) (.reg 21) (.reg 42)) ∧
    decode .K 0b000_0001100_100101_010101_101010_0000 ⟨0, 0⟩ = .ok (.andn (.reg 37) (.reg 21) (.reg 42)) ∧
    decode .K 0b000_0001101_100101_010101_101010_0000 ⟨0, 0⟩ = .ok (.shl (.reg 37) (.reg 21) (.reg 42)) ∧
    decode .K 0b000_0001110_100101_010101_101010_0000 ⟨0, 0⟩ = .ok (.shr (.reg 37) (.reg 21) (.reg 42)) ∧
    decode .K 0b000_0001111_100101_010101_101010_0000 ⟨0, 0⟩ = .ok (.sar (.reg 37) (.reg 21) (.reg 42)) :=
  ⟨rfl, rfl, rfl, rfl, rfl, rfl, rfl, rfl, rfl, rfl, rfl, rfl, rfl, rfl, rfl, rfl⟩

theorem test_decode_K_10 :
    decode .K 0b000_0010000_100101_010101_101010_0000 ⟨0, 0⟩ = .ok (.rol (.reg 37) (.reg 21) (.reg 42)) ∧
    decode .K 0b000_0010001_100101_010101_101010_0000 ⟨0, 0⟩ = .ok (.min (.reg 37) (.reg 21) (.reg 42)) ∧
    decode .K 0b000_0010010_100101_010101_101010_0000 ⟨0, 0⟩ = .ok (.max (.reg 37) (.reg 21) (.reg 42)) ∧
    decode .K 0b000_0010011_100101_010101_101010_0000 ⟨0, 0⟩ = .ok (.minu (.reg 37) (.reg 21) (.reg 42)) ∧
    decode .K 0b000_0010100_100101_010101_101010_0000 ⟨0, 0⟩ = .ok (.maxu (.reg 37) (.reg 21) (.reg 42)) ∧
    decode .K 0b000_0010101_100101_010101_000000_0010 ⟨0, 0⟩ = .ok (.clz (.reg 37) (.reg 21) .h) ∧
    decode .K 0b000_0010110_100101_010101_000000_0010 ⟨0, 0⟩ = .ok (.ffs (.reg 37) (.reg 21) .h) ∧
    decode .K 0b000_0010111_100101_010101_000000_0010 ⟨0, 0⟩ = .ok (.popc (.reg 37) (.reg 21) .h) ∧
    decode .K 0b000_0011000_100101_010101_101010_0000 ⟨0, 0⟩ = .ok (.sext (.reg 37) (.reg 21) (.reg 42)) ∧
    decode .K 0b000_0011001_100101_010101_101010_0000 ⟨0, 0⟩ = .ok (.zext (.reg 37) (.reg 21) (.reg 42)) ∧
    decode .K 0b000_0011010_100101_010101_101010_000_1 ⟨0, 0⟩ = .ok (.bfx (.reg 37) (.reg 21) (.reg 42) true) ∧
    decode .K 0b000_0011011_100101_010101_101010_0000 ⟨0, 0⟩ = .ok (.bfi (.reg 37) (.reg 21) (.reg 42)) ∧
    decode .K 0b000_0011100_100101_010101_101010_0000 ⟨0, 0⟩ = .ok (.sel (.reg 37) (.reg 21) (.reg 42) .nez) ∧
    decode .K 0b000_0011101_100101_010101_101010_000_1 ⟨0, 0⟩ = .ok (.cmp (.reg 37) (.reg 21) (.reg 42) true) ∧
    decode .K 0b000_0011110_100101_010101_1000000101 ⟨0, 0⟩ = .ok (.addi (.reg 37) (.reg 21) 517) ∧
    decode .K 0b000_0011111_100101_1000000000000101 ⟨0, 0⟩ = .ok (.movi (.reg 37) 0x8005) :=
  ⟨rfl, rfl, rfl, rfl, rfl, rfl, rfl, rfl, rfl, rfl, rfl, rfl, rfl, rfl, rfl, rfl⟩

theorem test_decode_K_20 :
    decode .K 0b000_0100000_100101_010101_101010_0000 ⟨0, 0⟩ = .ok (.madr (.reg 37) (.reg 21) (.reg 42)) ∧
    decode .K 0b000_0100001_100101_010101_000000000_1 ⟨0, 0⟩ = .ok (.abs (.reg 37) (.reg 21) true) ∧
    decode .K 0b000_0100010_0011_010101_100000000001 ⟨0, 0⟩ = .ok (.bcc .gez (.reg 21) 0x801) ∧
    decode .K 0b000_0100011_1000000000000000000011 ⟨0, 0⟩ = .ok (.br 0x200003) ∧
    decode .K 0b000_0100100_1000000000000000000011 ⟨0, 0⟩ = .ok (.call 0x200003) ∧
    decode .K 0b000_0100101_000000_010101_000000000_1 ⟨0, 0⟩ = .ok (.ret (.reg 21) true) ∧
    decode .K 0b000_0100110_0011_010101_100000000001 ⟨0, 0⟩ = .ok (.loop .gez 21 0x801) ∧
    decode .K 0b000_0100111_100101_0000000000100100 ⟨0, 0⟩ = .ok (.rds (.reg 37) 0x24) ∧
    decode .K 0b000_0101000_100101_0000000000100100 ⟨0, 0⟩ = .ok (.wrs (.reg 37) 0x24) ∧
    decode .K 0b000_0101001_000101_0000000000100100 ⟨0, 0⟩ = .ok (.rdq 5 0x24) ∧
    decode .K 0b000_0101010_100101_010101_101010_0_1_10 ⟨0, 0⟩ = .ok (.fadd (.reg 37) (.reg 21) (.reg 42) true .rdn) ∧
    decode .K 0b000_0101011_100101_010101_101010_0_1_10 ⟨0, 0⟩ = .ok (.fmul (.reg 37) (.reg 21) (.reg 42) true .rdn) ∧
    decode .K 0b000_0101100_100101_010101_101010_0_1_10 ⟨0, 0⟩ = .ok (.ffma (.reg 37) (.reg 21) (.reg 42) true .rdn) ∧
    decode .K 0b000_0101101_100101_010101_101010_0000 ⟨0, 0⟩ = .ok (.fcmp (.reg 37) (.reg 21) (.reg 42)) ∧
    decode .K 0b000_0101110_100101_010101_101010_0000 ⟨0, 0⟩ = .ok (.fcvt (.reg 37) (.reg 21) (.reg 42)) ∧
    decode .K 0b000_0101111_100101_010101_101010_0000 ⟨0, 0⟩ = .ok (.fmin (.reg 37) (.reg 21) (.reg 42)) :=
  ⟨rfl, rfl, rfl, rfl, rfl, rfl, rfl, rfl, rfl, rfl, rfl, rfl, rfl, rfl, rfl, rfl⟩

theorem test_decode_K_30 :
    decode .K 0b000_0110000_100101_010101_101010_0000 ⟨0, 0⟩ = .ok (.fmax (.reg 37) (.reg 21) (.reg 42)) :=
  rfl

theorem test_decode_VL_00 :
    decode .V 0b001_0000000_100101_010101_101010_0101 ⟨0, 0⟩ = .ok (.vld (.reg 37) (.reg 21) (.reg 42) 5) ∧
    decode .V 0b001_0000001_100101_010101_101010_1001 ⟨0, 0⟩ = .ok (.vldx (.reg 37) (.reg 21) (.reg 42) 9) ∧
    decode .V 0b001_0000010_100101_010101_101010_0101 ⟨0, 0⟩ = .ok (.vldb (.reg 37) (.reg 21) (.reg 42) 5) ∧
    decode .V 0b001_0000011_100101_010101_101010_0000 ⟨0, 0⟩ = .ok (.vlds (.reg 37) (.reg 21) (.reg 42)) ∧
    decode .V 0b001_0000100_100101_010101_101010_1_1_01 ⟨0, 0⟩ = .ok (.vlda (.reg 37) (.reg 21) (.reg 42) true true .bf16) ∧
    decode .V 0b001_0000101_100101_010101_101010_0100 ⟨0, 0⟩ = .ok (.vldc (.reg 37) (.reg 21) (.reg 42) .i8) ∧
    decode .V 0b001_0000110_100101_010101_101010_0_101 ⟨0, 0⟩ = .ok (.vldq (.reg 37) (.reg 21) (.reg 42) .system) :=
  ⟨rfl, rfl, rfl, rfl, rfl, rfl, rfl⟩

theorem test_decode_VA_00 :
    decode .V 0b010_0000000_100101_010101_101010_1_0_10 ⟨0, 0⟩ = .ok (.vadd (.reg 37) (.reg 21) (.reg 42) true false 2) ∧
    decode .V 0b010_0000001_100101_010101_101010_1_0_10 ⟨0, 0⟩ = .ok (.vsub (.reg 37) (.reg 21) (.reg 42) true false 2) ∧
    decode .V 0b010_0000010_100101_010101_101010_1_0_10 ⟨0, 0⟩ = .ok (.vmul (.reg 37) (.reg 21) (.reg 42) true false 2) ∧
    decode .V 0b010_0000011_100101_010101_101010_1_0_10 ⟨0, 0⟩ = .ok (.vfma (.reg 37) (.reg 21) (.reg 42) true false 2) ∧
    decode .V 0b010_0000100_100101_010101_101010_1_0_10 ⟨0, 0⟩ = .ok (.vfms (.reg 37) (.reg 21) (.reg 42) true false 2) ∧
    decode .V 0b010_0000101_100101_010101_101010_1_0_10 ⟨0, 0⟩ = .ok (.vfnma (.reg 37) (.reg 21) (.reg 42) true false 2) ∧
    decode .V 0b010_0000110_100101_010101_101010_1_0_10 ⟨0, 0⟩ = .ok (.vmin (.reg 37) (.reg 21) (.reg 42) true false 2) ∧
    decode .V 0b010_0000111_100101_010101_101010_1_0_10 ⟨0, 0⟩ = .ok (.vmax (.reg 37) (.reg 21) (.reg 42) true false 2) ∧
    decode .V 0b010_0001000_100101_010101_000000_1_0_10 ⟨0, 0⟩ = .ok (.vabs (.reg 37) (.reg 21) true 2) ∧
    decode .V 0b010_0001001_100101_010101_000000_1_0_10 ⟨0, 0⟩ = .ok (.vneg (.reg 37) (.reg 21) true 2) ∧
    decode .V 0b010_0001010_100101_010101_000000_1_0_10 ⟨0, 0⟩ = .ok (.vrcp (.reg 37) (.reg 21) true 2) ∧
    decode .V 0b010_0001011_100101_010101_000000_1_0_10 ⟨0, 0⟩ = .ok (.vrsq (.reg 37) (.reg 21) true 2) ∧
    decode .V 0b010_0001100_100101_010101_000000_1_0_10 ⟨0, 0⟩ = .ok (.vsqrt (.reg 37) (.reg 21) true 2) ∧
    decode .V 0b010_0001101_100101_010101_101010_1_0_10 ⟨0, 0⟩ = .ok (.vdiv (.reg 37) (.reg 21) (.reg 42) true false 2) ∧
    decode .V 0b010_0001110_100101_010101_000000_1_0_10 ⟨0, 0⟩ = .ok (.vexp (.reg 37) (.reg 21) true 2) ∧
    decode .V 0b010_0001111_100101_010101_000000_1_0_10 ⟨0, 0⟩ = .ok (.vlog (.reg 37) (.reg 21) true 2) :=
  ⟨rfl, rfl, rfl, rfl, rfl, rfl, rfl, rfl, rfl, rfl, rfl, rfl, rfl, rfl, rfl, rfl⟩

theorem test_decode_VA_10 :
    decode .V 0b010_0010000_100101_010101_000000_1_0_10 ⟨0, 0⟩ = .ok (.vtanh (.reg 37) (.reg 21) true 2) ∧
    decode .V 0b010_0010001_100101_010101_000000_1_0_10 ⟨0, 0⟩ = .ok (.vsigm (.reg 37) (.reg 21) true 2) ∧
    decode .V 0b010_0010010_100101_010101_000000_1_0_10 ⟨0, 0⟩ = .ok (.vsin (.reg 37) (.reg 21) true 2) ∧
    decode .V 0b010_0010011_100101_010101_000000_1_0_10 ⟨0, 0⟩ = .ok (.vcos (.reg 37) (.reg 21) true 2) ∧
    decode .V 0b010_0010100_100101_010101_101010_1_0_10 ⟨0, 0⟩ = .ok (.vand (.reg 37) (.reg 21) (.reg 42) true false 2) ∧
    decode .V 0b010_0010101_100101_010101_101010_1_0_10 ⟨0, 0⟩ = .ok (.vor (.reg 37) (.reg 21) (.reg 42) true false 2) ∧
    decode .V 0b010_0010110_100101_010101_101010_1_0_10 ⟨0, 0⟩ = .ok (.vxor (.reg 37) (.reg 21) (.reg 42) true false 2) ∧
    decode .V 0b010_0010111_100101_010101_000000_1_0_10 ⟨0, 0⟩ = .ok (.vnot (.reg 37) (.reg 21) true 2) ∧
    decode .V 0b010_0011000_100101_010101_101010_1_0_10 ⟨0, 0⟩ = .ok (.vshl (.reg 37) (.reg 21) (.reg 42) true false 2) ∧
    decode .V 0b010_0011001_100101_010101_101010_1_0_10 ⟨0, 0⟩ = .ok (.vshr (.reg 37) (.reg 21) (.reg 42) true false 2) ∧
    decode .V 0b010_0011010_100101_010101_101010_1_0_10 ⟨0, 0⟩ = .ok (.vsar (.reg 37) (.reg 21) (.reg 42) true false 2) ∧
    decode .V 0b010_0011011_100101_010101_000000_1_0_10 ⟨0, 0⟩ = .ok (.vclz (.reg 37) (.reg 21) true 2) ∧
    decode .V 0b010_0011100_100101_010101_000000_1_0_10 ⟨0, 0⟩ = .ok (.vffs (.reg 37) (.reg 21) true 2) ∧
    decode .V 0b010_0011101_100101_010101_000000_1_0_10 ⟨0, 0⟩ = .ok (.vpopc (.reg 37) (.reg 21) true 2) ∧
    decode .V 0b010_0011110_100_101_010101_101010_1_0_10 ⟨0, 0⟩ = .ok (.vcmp .gt 5 (.reg 21) (.reg 42) true false 2) ∧
    decode .V 0b010_0011111_100101_010101_101010_1_0_10 ⟨0, 0⟩ = .ok (.vsel (.reg 37) (.reg 21) (.reg 42) true false 2) :=
  ⟨rfl, rfl, rfl, rfl, rfl, rfl, rfl, rfl, rfl, rfl, rfl, rfl, rfl, rfl, rfl, rfl⟩

theorem test_decode_VA_20 :
    decode .V 0b010_0100000_100101_010101_10_0111_1_000 ⟨0, 0⟩ = .ok (.vcvt (.reg 37) (.reg 21) .nan .int16 true) ∧
    decode .V 0b010_0100001_100101_010101_000_101_1_000 ⟨0, 0⟩ = .ok (.vwiden (.reg 37) (.reg 21) 5 true) ∧
    decode .V 0b010_0100010_100101_010101_0000_1_1_1_000 ⟨0, 0⟩ = .ok (.vqnt (.reg 37) (.reg 21) true true true) ∧
    decode .V 0b010_0100011_100101_010101_101010_1_0_00 ⟨0, 0⟩ = .ok (.vdqnt (.reg 37) (.reg 21) (.reg 42) true false) ∧
    decode .V 0b010_0100100_100101_010101_0000_10_1_000 ⟨0, 0⟩ = .ok (.vsplit (.reg 37) (.reg 21) 2 true) ∧
    decode .V 0b010_0100101_100101_010101_10_10_01_1_000 ⟨0, 0⟩ = .ok (.vred (.reg 37) (.reg 21) .nan .col .min true) ∧
    decode .V 0b010_0100110_100101_010101_10_000_1_1_000 ⟨0, 0⟩ = .ok (.vscan (.reg 37) (.reg 21) .nan true true) ∧
    decode .V 0b010_0100111_100101_010101_000000_1_000 ⟨0, 0⟩ = .ok (.vtrn (.reg 37) (.reg 21) true) ∧
    decode .V 0b010_0101000_100101_010101_101010_1_0_10 ⟨0, 0⟩ = .ok (.vshuf (.reg 37) (.reg 21) (.reg 42) true false 2) ∧
    decode .V 0b010_0101001_100101_0000000000_10_00_10 ⟨0, 0⟩ = .ok (.viota (.reg 37) .row 2) ∧
    decode .V 0b010_0101010_100101_00000000000000_10 ⟨0, 0⟩ = .ok (.vrng (.reg 37) 2) ∧
    decode .V 0b010_0101011_000000_010101_0000_01_1_000 ⟨0, 0⟩ = .ok (.vshape (.reg 21) .key true) ∧
    decode .V 0b010_0101100_100101_010101_000000_1_0_10 ⟨0, 0⟩ = .ok (.vmov (.reg 37) (.reg 21) true 2) ∧
    decode .V 0b010_0101101_111_101_000000_101_101_0_000 ⟨0, 0⟩ = .ok (.vpset .andn 5 (.reg 0) 5 5 false) ∧
    decode .V 0b010_0101110_000_101_010101_101101_1_0_10 ⟨0, 0⟩ = .ok (.vclass 5 (.reg 21) 45 true 2) ∧
    decode .V 0b010_0101111_100101_010101_0000_1_1_1_000 ⟨0, 0⟩ = .ok (.vargx (.reg 37) (.reg 21) true true true) :=
  ⟨rfl, rfl, rfl, rfl, rfl, rfl, rfl, rfl, rfl, rfl, rfl, rfl, rfl, rfl, rfl, rfl⟩

theorem test_decode_VS_00 :
    decode .V 0b011_0000000_100101_010101_101010_0101 ⟨0, 0⟩ = .ok (.vst (.reg 37) (.reg 21) (.reg 42) 5) ∧
    decode .V 0b011_0000001_100101_010101_101010_1001 ⟨0, 0⟩ = .ok (.vstx (.reg 37) (.reg 21) (.reg 42) 9) ∧
    decode .V 0b011_0000010_100101_010101_101010_0_101 ⟨0, 0⟩ = .ok (.vstm (.reg 37) (.reg 21) (.reg 42) 5) ∧
    decode .V 0b011_0000011_100101_010101_101010_10_11 ⟨0, 0⟩ = .ok (.vstc (.reg 37) (.reg 21) (.reg 42) .nan .e5m2) ∧
    decode .V 0b011_0000100_100101_010101_101010_0_101 ⟨0, 0⟩ = .ok (.vstr (.reg 37) (.reg 21) (.reg 42) .system) ∧
    decode .V 0b011_0000101_100101_010101_101010_0000 ⟨0, 0⟩ = .ok (.vsta (.reg 37) (.reg 21) (.reg 42)) :=
  ⟨rfl, rfl, rfl, rfl, rfl, rfl⟩

theorem test_decode_MX_00 :
    decode .M 0b100_0000000_00_1001_010101_0000000000 ⟨0, 0⟩ = .ok (.mstrm 9 (.reg 21)) ∧
    decode .M 0b100_0000001_000000_010101_0000000000 ⟨0, 0⟩ = .ok (.mnest (.reg 21)) ∧
    decode .M 0b100_0000010_0000000000000000000000 ⟨0, 0⟩ = .ok .mgo ∧
    decode .M 0b100_0000011_0000000000000000000000 ⟨0, 0⟩ = .ok .mwait ∧
    decode .M 0b100_0000100_10_1001_00_1001_101010_0_1_01 ⟨0, 0⟩ = .ok (.mma 2 9 9 (.reg 42) true .wrap) ∧
    decode .M 0b100_0000101_00000_1_00_1001_101010_0000 ⟨0, 0⟩ = .ok (.mldw 1 9 (.reg 42)) ∧
    decode .M 0b100_0000110_00000_1_0000000000000000 ⟨0, 0⟩ = .ok (.mwsel 1) ∧
    decode .M 0b100_0000111_10_0000_000000000000000_1 ⟨0, 0⟩ = .ok (.mzero 2 0 true) ∧
    decode .M 0b100_0001000_0000_10_0000_10_0000000000 ⟨0, 0⟩ = .ok (.mspec 2 2) ∧
    decode .M 0b100_0001001_0000_10_0000000000000000 ⟨0, 0⟩ = .ok (.mcommit 2) ∧
    decode .M 0b100_0001010_0000_10_0000000000000000 ⟨0, 0⟩ = .ok (.mdisc 2) ∧
    decode .M 0b100_0001011_0000_10_0000000000000000 ⟨0, 0⟩ = .ok (.mbgj 2) ∧
    decode .M 0b100_0001100_0000000000000000000000 ⟨0, 0⟩ = .ok .mbgl ∧
    decode .M 0b100_0001101_00_1001_010101_0000000000 ⟨0, 0⟩ = .ok (.mcbk 9 (.reg 21)) ∧
    decode .M 0b100_0001110_100101_000000000000_0010 ⟨0, 0⟩ = .ok (.mstat (.reg 37) .bcast) :=
  ⟨rfl, rfl, rfl, rfl, rfl, rfl, rfl, rfl, rfl, rfl, rfl, rfl, rfl, rfl, rfl⟩

theorem test_decode_RQ_00 :
    decode .Q 0b101_0000000_000000_010101_0000000000 ⟨0, 0⟩ = .ok (.qcfg (.reg 21)) ∧
    decode .Q 0b101_0000001_00000_1_0000000000000000 ⟨0, 0⟩ = .ok (.qclr 1) ∧
    decode .Q 0b101_0000010_000000_010101_000000000_1 ⟨0, 0⟩ = .ok (.qann (.reg 21) true) ∧
    decode .Q 0b101_0000011_000000_010101_101010_000_1 ⟨0, 0⟩ = .ok (.qapl (.reg 21) (.reg 42) true) ∧
    decode .Q 0b101_0000100_100101_010101_101010_0000 ⟨0, 0⟩ = .ok (.qvec (.reg 37) (.reg 21) (.reg 42)) ∧
    decode .Q 0b101_0000101_100101_010101_101010_0000 ⟨0, 0⟩ = .ok (.qrot (.reg 37) (.reg 21) (.reg 42)) ∧
    decode .Q 0b101_0000110_100101_010101_0000000000 ⟨0, 0⟩ = .ok (.qangf (.reg 37) (.reg 21)) ∧
    decode .Q 0b101_0000111_100101_010101_0000000000 ⟨0, 0⟩ = .ok (.qangr (.reg 37) (.reg 21)) ∧
    decode .Q 0b101_0001000_000000_010101_101010_000_1 ⟨0, 0⟩ = .ok (.qrdt (.reg 21) (.reg 42) true) ∧
    decode .Q 0b101_0001001_000000_010101_101010_000_1 ⟨0, 0⟩ = .ok (.qwrt (.reg 21) (.reg 42) true) ∧
    decode .Q 0b101_0001010_000000_010101_0000000_101 ⟨0, 0⟩ = .ok (.qrda (.reg 21) .o1 true) ∧
    decode .Q 0b101_0001011_0000000000000000000000 ⟨0, 0⟩ = .ok .qwait ∧
    decode .Q 0b101_0001100_100101_0000000000000000 ⟨0, 0⟩ = .ok (.qstat (.reg 37)) :=
  ⟨rfl, rfl, rfl, rfl, rfl, rfl, rfl, rfl, rfl, rfl, rfl, rfl, rfl⟩

theorem test_decode_SM_00 :
    decode .K 0b110_0000000_100101_010101_101010_0_1_10 ⟨0, 0⟩ = .ok (.ld (.reg 37) (.reg 21) (.reg 42) true .h) ∧
    decode .K 0b110_0000001_100101_010101_101010_00_10 ⟨0, 0⟩ = .ok (.st (.reg 37) (.reg 21) (.reg 42) .h) ∧
    decode .K 0b110_0000010_100101_10011_01101_011_101 ⟨0, 0⟩ = .ok (.lda (.reg 37) 19 13 .acqRel .system) ∧
    decode .K 0b110_0000011_100101_10011_01101_011_101 ⟨0, 0⟩ = .ok (.str (.reg 37) 19 13 .acqRel .system) ∧
    decode .K 0b110_0000100_000000_010101_101010_0000 ⟨0, 0⟩ = .ok (.pref (.reg 21) (.reg 42)) ∧
    decode .K 0b110_0000101_0000000000000000_011_101 ⟨0, 0⟩ = .ok (.fence .acqRel .system) ∧
    decode .K 0b110_0000110_100101_010101_101010_0_1_10 ⟨0, 0⟩ = .ok (.waita (.reg 37) (.reg 21) (.reg 42) true .geu) ∧
    decode .K 0b110_0000111_100101_010101_101010_0110 ⟨0, 0⟩ = .ok (.xform (.reg 37) (.reg 21) (.reg 42) .crc) ∧
    decode .K 0b110_0001000_100101_010101_0000000000 ⟨0, 0⟩ = .ok (.xbox (.reg 37) (.reg 21)) :=
  ⟨rfl, rfl, rfl, rfl, rfl, rfl, rfl, rfl, rfl⟩

theorem test_decode_SM_10 :
    decode .K 0b110_0010000_100101_10011_01101_011_101 ⟨0, 0⟩ = .ok (.amoAdd (.reg 37) 19 13 .acqRel .system) ∧
    decode .K 0b110_0010001_100101_10011_01101_011_101 ⟨0, 0⟩ = .ok (.amoAnd (.reg 37) 19 13 .acqRel .system) ∧
    decode .K 0b110_0010010_100101_10011_01101_011_101 ⟨0, 0⟩ = .ok (.amoOr (.reg 37) 19 13 .acqRel .system) ∧
    decode .K 0b110_0010011_100101_10011_01101_011_101 ⟨0, 0⟩ = .ok (.amoXor (.reg 37) 19 13 .acqRel .system) ∧
    decode .K 0b110_0010100_100101_10011_01101_011_101 ⟨0, 0⟩ = .ok (.amoMin (.reg 37) 19 13 .acqRel .system) ∧
    decode .K 0b110_0010101_100101_10011_01101_011_101 ⟨0, 0⟩ = .ok (.amoMax (.reg 37) 19 13 .acqRel .system) ∧
    decode .K 0b110_0010110_100101_10011_01101_011_101 ⟨0, 0⟩ = .ok (.amoMinu (.reg 37) 19 13 .acqRel .system) ∧
    decode .K 0b110_0010111_100101_10011_01101_011_101 ⟨0, 0⟩ = .ok (.amoMaxu (.reg 37) 19 13 .acqRel .system) ∧
    decode .K 0b110_0011000_100101_10011_01101_011_101 ⟨0, 0⟩ = .ok (.amoSwp (.reg 37) 19 13 .acqRel .system) ∧
    decode .K 0b110_0011001_100101_10011_01101_011_101 ⟨0, 0⟩ = .ok (.amoCas (.reg 37) 19 13 .acqRel .system) ∧
    decode .K 0b110_0011010_100101_10011_01101_011_101 ⟨0, 0⟩ = .ok (.amoFadd (.reg 37) 19 13 .acqRel .system) :=
  ⟨rfl, rfl, rfl, rfl, rfl, rfl, rfl, rfl, rfl, rfl, rfl⟩

theorem test_decode_SM_20 :
    decode .K 0b110_0100000_100101_10011_01101_011_101 ⟨0, 0⟩ = .ok (.amoAddW (.reg 37) 19 13 .acqRel .system) ∧
    decode .K 0b110_0100001_100101_10011_01101_011_101 ⟨0, 0⟩ = .ok (.amoAndW (.reg 37) 19 13 .acqRel .system) ∧
    decode .K 0b110_0100010_100101_10011_01101_011_101 ⟨0, 0⟩ = .ok (.amoOrW (.reg 37) 19 13 .acqRel .system) ∧
    decode .K 0b110_0100011_100101_10011_01101_011_101 ⟨0, 0⟩ = .ok (.amoXorW (.reg 37) 19 13 .acqRel .system) ∧
    decode .K 0b110_0100100_100101_10011_01101_011_101 ⟨0, 0⟩ = .ok (.amoMinW (.reg 37) 19 13 .acqRel .system) ∧
    decode .K 0b110_0100101_100101_10011_01101_011_101 ⟨0, 0⟩ = .ok (.amoMaxW (.reg 37) 19 13 .acqRel .system) ∧
    decode .K 0b110_0100110_100101_10011_01101_011_101 ⟨0, 0⟩ = .ok (.amoMinuW (.reg 37) 19 13 .acqRel .system) ∧
    decode .K 0b110_0100111_100101_10011_01101_011_101 ⟨0, 0⟩ = .ok (.amoMaxuW (.reg 37) 19 13 .acqRel .system) ∧
    decode .K 0b110_0101000_100101_10011_01101_011_101 ⟨0, 0⟩ = .ok (.amoSwpW (.reg 37) 19 13 .acqRel .system) ∧
    decode .K 0b110_0101001_100101_10011_01101_011_101 ⟨0, 0⟩ = .ok (.amoCasW (.reg 37) 19 13 .acqRel .system) ∧
    decode .K 0b110_0101010_100101_10011_01101_011_101 ⟨0, 0⟩ = .ok (.amoFaddW (.reg 37) 19 13 .acqRel .system) :=
  ⟨rfl, rfl, rfl, rfl, rfl, rfl, rfl, rfl, rfl, rfl, rfl⟩

theorem test_decode_SM_30 :
    decode .K 0b110_0110000_100101_10011_01101_011_101 ⟨0, 0⟩ = .ok (.acq (.reg 37) 19 13 .acqRel .system) ∧
    decode .K 0b110_0110001_100101_10011_01101_011_101 ⟨0, 0⟩ = .ok (.rel (.reg 37) 19 13 .acqRel .system) ∧
    decode .K 0b110_0110010_100101_010101_101010_000_1 ⟨0, 0⟩ = .ok (.bind (.reg 37) (.reg 21) (.reg 42) true) ∧
    decode .K 0b110_0110011_100101_10011_01101_011_101 ⟨0, 0⟩ = .ok (.bara (.reg 37) 19 13 .acqRel .system) ∧
    decode .K 0b110_0110100_100101_10011_01101_011_101 ⟨0, 0⟩ = .ok (.barw (.reg 37) 19 13 .acqRel .system) ∧
    decode .K 0b110_0110101_100101_010101_101010_0000 ⟨0, 0⟩ = .ok (.barx (.reg 37) (.reg 21) (.reg 42)) ∧
    decode .K 0b110_0110110_100101_010101_0000000_1_11 ⟨0, 0⟩ = .ok (.hset (.reg 37) (.reg 21) true .drain) ∧
    decode .K 0b110_0110111_100101_010101_000000000_1 ⟨0, 0⟩ = .ok (.hacq (.reg 37) (.reg 21) true) ∧
    decode .K 0b110_0111000_100101_010101_000000000_1 ⟨0, 0⟩ = .ok (.hrel (.reg 37) (.reg 21) true) ∧
    decode .K 0b110_0111001_100101_010101_0000000_1_11 ⟨0, 0⟩ = .ok (.hwait (.reg 37) (.reg 21) true .drain) :=
  ⟨rfl, rfl, rfl, rfl, rfl, rfl, rfl, rfl, rfl, rfl⟩

theorem test_decode_SM_40 :
    decode .K 0b110_1000000_100101_010101_101010_000_1 ⟨0, 0⟩ = .ok (.rclaim (.reg 37) (.reg 21) (.reg 42) true) ∧
    decode .K 0b110_1000001_100101_010101_101010_00_1_1 ⟨0, 0⟩ = .ok (.rpub (.reg 37) (.reg 21) (.reg 42) true true) ∧
    decode .K 0b110_1000010_100101_010101_101010_0000 ⟨0, 0⟩ = .ok (.wfill (.reg 37) (.reg 21) (.reg 42)) ∧
    decode .K 0b110_1000011_100101_010101_101010_0000 ⟨0, 0⟩ = .ok (.wfree (.reg 37) (.reg 21) (.reg 42)) ∧
    decode .K 0b110_1000100_100101_010101_101010_0000 ⟨0, 0⟩ = .ok (.rcons (.reg 37) (.reg 21) (.reg 42)) ∧
    decode .K 0b110_1000101_100101_010101_101010_0000 ⟨0, 0⟩ = .ok (.rerr (.reg 37) (.reg 21) (.reg 42)) ∧
    decode .K 0b110_1000110_100101_010101_101010_0000 ⟨0, 0⟩ = .ok (.rfix (.reg 37) (.reg 21) (.reg 42)) ∧
    decode .K 0b110_1000110_100101_010101_101010_0001 ⟨0, 0⟩ = .ok (.rfixInit (.reg 37) (.reg 21) (.reg 42)) ∧
    decode .K 0b110_1000111_100101_010101_00000000_10 ⟨0, 0⟩ = .ok (.rstat (.reg 37) (.reg 21) .err) :=
  ⟨rfl, rfl, rfl, rfl, rfl, rfl, rfl, rfl, rfl⟩

theorem test_decode_SM_50 :
    decode .K 0b110_1010000_000000_010101_101010_0000 ⟨0, 0⟩ = .ok (.chain (.reg 21) (.reg 42)) ∧
    decode .K 0b110_1010001_100101_010101_0000000000 ⟨0, 0⟩ = .ok (.cwait (.reg 37) (.reg 21)) ∧
    decode .K 0b110_1010010_100101_010101_000000000_1 ⟨0, 0⟩ = .ok (.cstat (.reg 37) (.reg 21) true) ∧
    decode .K 0b110_1010011_100101_010101_101010_000_1 ⟨0, 0⟩ = .ok (.nvsub (.reg 37) (.reg 21) (.reg 42) true) ∧
    decode .K 0b110_1010100_100101_010101_101010_000_1 ⟨0, 0⟩ = .ok (.nvcpl (.reg 37) (.reg 21) (.reg 42) true) :=
  ⟨rfl, rfl, rfl, rfl, rfl⟩

theorem test_decode_SM_60 :
    decode .K 0b110_1100000_000000_010101_101010_000_1 ⟨0, 0⟩ = .ok (.rstf (.reg 21) (.reg 42) true) ∧
    decode .K 0b110_1100001_000000_010101_0000000000 ⟨0, 0⟩ = .ok (.rchain (.reg 21)) ∧
    decode .K 0b110_1100010_000000_010101_101010_0000 ⟨0, 0⟩ = .ok (.rmcr (.reg 21) (.reg 42)) ∧
    decode .K 0b110_1100011_000000_010101_101010_000_1 ⟨0, 0⟩ = .ok (.rldf (.reg 21) (.reg 42) true) ∧
    decode .K 0b110_1100100_100101_010101_101010_000_1 ⟨0, 0⟩ = .ok (.bsend (.reg 37) (.reg 21) (.reg 42) true) ∧
    decode .K 0b110_1100101_100101_010101_000000000_1 ⟨0, 0⟩ = .ok (.brecv (.reg 37) (.reg 21) true) ∧
    decode .K 0b110_1100110_100101_010101_00000000_01 ⟨0, 0⟩ = .ok (.bstat (.reg 37) (.reg 21) .recv) :=
  ⟨rfl, rfl, rfl, rfl, rfl, rfl, rfl⟩

theorem test_decode_SY_00 :
    decode .K 0b111_0000000_101101_101_101_0000000000 ⟨0, 0⟩ = .ok (.rep 45 5 5) ∧
    decode .K 0b111_0000001_0000000000000000000000 ⟨0, 0⟩ = .ok .nop ∧
    decode .K 0b111_0000010_100101_010101_000000000_1 ⟨0, 0⟩ = .ok (.post (.reg 37) (.reg 21) true) ∧
    decode .K 0b111_0000011_100101_010101_101010_0000 ⟨0, 0⟩ = .ok (.postr (.reg 37) (.reg 21) (.reg 42)) ∧
    decode .K 0b111_0000100_100101_010101_000000000_1 ⟨0, 0⟩ = .ok (.twait (.reg 37) (.reg 21) true) ∧
    decode .K 0b111_0000101_0000000000000000000000 ⟨0, 0⟩ = .ok .predwait ∧
    decode .K 0b111_0000110_0000000000000000000000 ⟨0, 0⟩ = .ok .hintsucc ∧
    decode .K 0b111_0000111_0000000000000000000000 ⟨0, 0⟩ = .ok .tend ∧
    decode .K 0b111_0001000_100101_010101_0000000000 ⟨0, 0⟩ = .ok (.regdef (.reg 37) (.reg 21)) ∧
    decode .K 0b111_0001001_000000_010101_0000000000 ⟨0, 0⟩ = .ok (.regdrop (.reg 21)) ∧
    decode .K 0b111_0001010_0000000000000000_101101 ⟨0, 0⟩ = .ok (.trap 45) ∧
    decode .K 0b111_0001011_000000000000000000000_1 ⟨0, 0⟩ = .ok (.eret true) ∧
    decode .K 0b111_0001100_0000000000000000000000 ⟨0, 0⟩ = .ok .halt ∧
    decode .K 0b111_0001101_000000_010101_0000000000 ⟨0, 0⟩ = .ok (.yield (.reg 21)) ∧
    decode .K 0b111_0001110_000101_010101_101010_0000 ⟨0, 0⟩ = .ok (.qzst 5 (.reg 21) (.reg 42)) :=
  ⟨rfl, rfl, rfl, rfl, rfl, rfl, rfl, rfl, rfl, rfl, rfl, rfl, rfl, rfl, rfl⟩

theorem test_decode_SY_10 :
    decode .K 0b111_0010000_000000_010101_1110000000 ⟨0, 0⟩ = .ok (.ctxsw (.reg 21)) ∧
    decode .K 0b111_0010000_000000_010101_101010_0001 ⟨0, 0⟩ = .ok (.ctxswOut (.reg 21) (.reg 42)) ∧
    decode .K 0b111_0010000_000000_010101_101010_0010 ⟨0, 0⟩ = .ok (.ctxswIn (.reg 21) (.reg 42)) ∧
    decode .K 0b111_0010001_100101_010101_101010_0000 ⟨0, 0⟩ = .ok (.rcbld (.reg 37) (.reg 21) (.reg 42)) ∧
    decode .K 0b111_0010001_100101_111000_101010_0001 ⟨0, 0⟩ = .ok (.rcbldTerm (.reg 37) (.reg 42)) ∧
    decode .K 0b111_0010001_100101_111000_101010_0010 ⟨0, 0⟩ = .ok (.rcbldUnf (.reg 37) (.reg 42)) :=
  ⟨rfl, rfl, rfl, rfl, rfl, rfl⟩

/-! ## Small states -/

/-- The part of a context that a test sets: a sequencer that holds a task of the root, in a gang of two, with register
values; the entries of token queues. -/
def tSeq (x : Tab Word) : Seq := { Seq.idle with x := x, gangn := 2, task := some ⟨0, 0⟩ }
def tCtx (k : SeqKind) (x : Tab Word) (tq : Tab (List Word)) : Context := { Context.idle.setSeq k (tSeq x) with tq := tq }

/-- Core 0 runs a task of the root. Three virtual gigabytes map HBM one to one, HBM as a PROF page, and host memory; the
tenant's windows cover the on-chip map and sync space. -/
def tState (st : Stream) (x : Context) : State :=
  { State.reset with
    cur := st, rcbs := [(0, rootRcb)]
    tenants := [(0, { Tenant.reset with
      ocwLo := [(0, 0x800000000001)], ocwHi := [(0, 0x87FFFFFFFF00)], hbwLo := [(0, 1)], hbwHi := [(0, 0x5FFFFF0000)],
      syncLo := [], syncHi := [(0, 0x3FFFFF)] })]
    groves := [(0, { Grove.reset with
      window := [(0, placedEntry 0 st.seq.code)] })]
    msys := { MemSys.reset with
      tlbs := [(0, [⟨0, 0, 30, 0x1F⟩, ⟨0, 0x40000000, 30, 0x10000004000001F⟩, ⟨0, 0x80000000, 30, 0x20000000000001F⟩])] }
    cores := [(0, { Core.reset with ctx := x })] }

/-- Registers 1 and 2 hold an address and an offset; queue 0 holds one entry. -/
def tK : State := tState ⟨0, .K, .pipe⟩ (tCtx .K [(1, 0x1000), (2, 0x20), (5, 0xFFFFFFFFFFFFFFF9)] [(0, [5])])

/-- The result of a part of a meaning satisfies `p`. -/
def gives {α : Type} (m : M α) (s : State) (p : α → State → Bool) : Bool :=
  match m s with
  | .ok (a, t) => p a t
  | .error _ => false

/-! ## Results that the manual works out -/

/-- The table of words that fail decode, and the two pairings beside it (after R86). -/
theorem test_rejected_words : checkWord .K 0xFFFFFFFF = some Cause.illegalOpcode ∧ checkWord .K 0x4006031A = some Cause.engineMismatch ∧
    checkWord .K 0x003E1050 = some Cause.literalPosition ∧ checkWord .K 0x0003FBF0 = some Cause.literalPosition ∧
    checkWord .K 0x00031390 = some Cause.illegalOperand ∧ checkWord .K 0xC140002B = some Cause.reservedField := by decide +kernel
theorem test_rep_pairings : checkPair .K 0xE0032000 0x00031000 = none ∧ checkPair .K 0xE0032000 0x000312C0 = none ∧
    checkPair .K 0xE0042000 0x000312C0 = some (0x002, 0x000312C0) := by decide +kernel
/-- Words that the text works out (R86, R119, R166). -/
theorem test_words_in_the_text : decode .K 0x09903FFC ⟨0, 0⟩ = .ok (.loop .gtz 3 0xFFC) ∧
    decode .V 0x4B341C00 ⟨0, 0⟩ = .ok (.vmov (.queue 4) (.reg 7) false 0) ∧ decode .K 0 ⟨0, 0⟩ = .ok (.add (.reg 0) (.reg 0) (.reg 0)) := ⟨rfl, rfl, rfl⟩

/-- shr_rne of the gain constant's product: exactly halfway, the lower candidate odd (after R55). -/
theorem test_shr_rne_gain : shrRne (0x30000000 * 0x4DBA76D4) 31 = 0x1D25EC90 := by decide +kernel
/-- The scales of the worked block, with and without its outlier (R49, R66). -/
theorem test_scale_of_block : ue8m8Ceil 1 448 = 0x7625 ∧ ue8m8Ceil 40 448 = 0x7B6E := by decide +kernel
theorem test_quantised_elements : quantFinite false 0x7625 (NumFmt.fp32.decode 0x3F800000) = 0x7E ∧
    quantFinite false 0x7625 (NumFmt.fp32.decode 0x3F000000) = 0x76 := by decide +kernel
/-- The three BF16 terms of 0x3FAAAAAB (R157). -/
theorem test_split_terms : splitTerm 0 0x3FAAAAAB = 0x3FAA ∧ splitTerm 1 0x3FAAAAAB = 0x3BAA ∧ splitTerm 2 0x3FAAAAAB = 0x37AB := by decide +kernel
/-- The check value of the checksum (R259). -/
theorem test_crc_check_value : crc64 0 ((List.range 9).map fun k => BitVec.ofNat 8 (0x31 + k)) = 0x6C40DF5F0B497347 := by decide +kernel
/-- The two draws of the worked lottery (R332). -/
theorem test_lottery_states : lotteryStep 1 = 0x00042021 ∧ lotteryStep 0x00042021 = 0x04080601 := by decide +kernel

/-- What an instruction leaves in register 3, and in tile 3, of the running sequencer. -/
def leaves (i : Instr) (s : State) (v : Word) : Bool := match exec i s with | .next t => t.xreg 3 == v | _ => false
def leavesTile (i : Instr) (s : State) (v : Nat) : Bool :=
  match exec i s with | .next t => Tab.get 0 t.here.v 3 == BitVec.ofNat 16384 v | _ => false

/-- −7 by 2 (R108): register 5 holds −7. -/
theorem test_div_truncates : leaves (.div (.reg 3) (.reg 5) (.lit32 2)) tK 0xFFFFFFFFFFFFFFFD = true ∧
    leaves (.rem (.reg 3) (.reg 5) (.lit32 2)) tK 0xFFFFFFFFFFFFFFFF = true := by decide +kernel
/-- SEXT keeps a byte, ZEXT a word (R111). -/
theorem test_extensions : leaves (.sext (.reg 3) (.reg 5) (.reg 6)) (tState ⟨0, .K, .pipe⟩ (tCtx .K [(5, 0x1F9), (6, 7)] [])) 0xFFFFFFFFFFFFFFF9 = true ∧
    leaves (.zext (.reg 3) (.reg 5) (.lit32 31)) tK 0xFFFFFFF9 = true := by decide +kernel
/-- The negation comes before the rounding (R123): FMUL.n of +0 and +1, and FADD.n of x and x. -/
theorem test_negated_forms : leaves (.fmul (.reg 3) .zero (.lit32 0x3F800000) true .rne) tK 0x80000000 = true ∧
    leaves (.fadd (.reg 3) (.reg 1) (.reg 1) true .rne) (tState ⟨0, .K, .pipe⟩ (tCtx .K [(1, 0x3FC00000)] [])) 0 = true := by decide +kernel
/-- A tree of sums and a running sum of 1.0 and three times 2^-24 (R160, R161). -/
def tSum : State := tState ⟨0, .V, .va⟩ { tCtx .V [] [] with
  vsh := 0xC00, v := [(1, 0x3F800000 + 0x33800000 * 2 ^ 32 + 0x33800000 * 2 ^ 64 + 0x33800000 * 2 ^ 96)]
  va := { words := [{ pc := 0x80, items := [.word .nop], complete := 0, pair := false, order := 3 }], stopped := false, fault := none } }
theorem test_tree_and_scan : leavesTile (.vred (.reg 3) (.reg 1) .saturate .all .add false) tSum 0x3F800001 = true ∧
    leavesTile (.vscan (.reg 3) (.reg 1) .saturate false false) tSum (0x3F800000 * (1 + 2 ^ 32 + 2 ^ 64 + 2 ^ 96)) = true := by decide +kernel


/-! ## Reading results as lists -/

def oks {ε α : Type} (r : Except ε (α × State)) : List (α × State) := match r with | .ok p => [p] | _ => []
def oke {ε α : Type} (r : Except ε α) : List α := match r with | .ok p => [p] | _ => []
def ers {ε α : Type} (r : Except ε α) : List ε := match r with | .ok _ => [] | .error e => [e]
def ops {α : Type} (r : Option α) : List α := r.toList
def dns {α : Type} (r : Attempt α) : List (α × State) := match r with | .done a t => [(a, t)] | _ => []
/-- `AtomicAt`, `ArrivalAt`, `RecordAt` and `PostFits` as lists of what they hold of; that a host access completes as
Successful is a free value. -/
def atomAt (s : State) (a : Word) (n : Nat) : List (Place × Nat × State) :=
  (oks (probe s.me .scalar .atomic a n n s)).flatMap fun x =>
    if x.1.host || !x.2.isArrival x.1.addr then
      (oks (readPlace s.me x.1 n x.2)).map fun y => (x.1, ofBytes y.1, y.2) else []
def arrAt (s : State) (a : Word) (n : Nat) : List (Place × State) :=
  (oks (probe s.me .scalar .atomic a n n s)).filter fun x => !x.1.host && x.2.isArrival x.1.addr
def recAt (s : State) (a : Word) : List (TaskRec × State) :=
  (oks (load { s.me with det := false } .vector a 320 64 s)).map fun x => (BitVec.ofNat 2560 (ofBytes x.1), x.2)
def fits (s : State) (r : TaskRec) (a : Word) (t : State) : List Nat :=
  if t.xformsOpen = false ∧ t.remoteOpenTo ownDevice = false ∧ recMalformed r = false ∧ postFailure t s.homeGrove ((t.grove s.homeGrove).openGang s.taskNow) r a = none ∧
    t.windowFull s.homeGrove (recRcb r) = false then ((t.grove s.homeGrove).freeSlot false).toList else []

/-- Both links of glade 0 are up, or both are down (`linkFor_reaches`, `linkFor_cutOff`). -/
def reaches (s : State) : Bool := (s.link 0).up && (s.link 1).up
def cutOff (s : State) : Bool := !(s.link 0).up && !(s.link 1).up


/-- A check that passes leaves the state: so a witness shows only that it passes. -/
theorem accAddr_passes {x : Word} {n : Nat} {s : State} (h : (oks (accAddr x n s)).length = 1) : accAddr x n s = .ok ((), s) := by
  unfold accAddr trapIf at h ⊢
  dsimp only [bind, StateT.bind] at h ⊢
  split at h
  · simp [oks, trap, stop, Except.bind] at h
  · rename_i h1
    simp only [h1, if_false, pure, StateT.pure, Except.pure, Except.bind, Bool.false_eq_true] at h ⊢
    split at h
    · simp [oks, trap, stop] at h
    · rename_i h2
      simp [h2, pure, StateT.pure, Except.pure]
theorem accFootprint_passes {ag : Agent} {b r n : Nat} {w : Bool} {s : State} (h : (oks (accFootprint ag b r n w s)).length = 1) :
    accFootprint ag b r n w s = .ok ((), s) := by
  unfold accFootprint at h ⊢
  dsimp only at h ⊢
  split at h
  · simp [oks, trap, stop] at h
  · rfl

namespace Integer



/-- `Obligations.IntegerTwoSourceResults`: states and operands that meet its hypotheses, clause by clause. -/
theorem witness_IntegerTwoSourceResults :
  (∃ (s : State) (d : Dst) (a : Src) (b : Src), ((operandsReady s [a, b] d)) = true) :=
  ⟨tK, .reg 3, .reg 1, .reg 1, by decide +kernel⟩

/-- `Obligations.IntegerOtherResults`: states and operands that meet its hypotheses, clause by clause. -/
theorem witness_IntegerOtherResults :
  (∃ (s : State) (d : Dst) (a : Src) (b : Src), ((operandsReady s [a, b] d)) = true) ∧
  (∃ (s : State) (d : Dst) (a : Src), ((operandsReady s [a] d)) = true) ∧
  (∃ (s : State) (d : Dst), ((operandsReady s [] d)) = true) ∧
  (∃ (s : State) (d : Dst) (a : Src) (b : Src), (decide ((∀ n ∈ List.range 8, d ≠ .queue n)) &&
     (operandsReady s [a, b, d.readBack] d)) = true) :=
  ⟨⟨tK, .reg 3, .reg 1, .reg 1, by decide +kernel⟩,
   ⟨tK, .reg 3, .reg 1, by decide +kernel⟩,
   ⟨tK, .reg 3, by decide +kernel⟩,
   ⟨tK, .reg 3, .reg 1, .reg 1, by decide +kernel⟩⟩

end Integer

namespace ScalarParts

def mem (s : State) (a : Nat) (l : List Nat) : State := setDevBytes s a (l.map fun n => BitVec.ofNat 8 n)
def kx (x : Tab Word) : State := tState ⟨0, .K, .pipe⟩ (tCtx .K x [(0, [5])])
def q1 : State := kx [] |>.modSeq ⟨0, .K, .pipe⟩ fun q => { q with gangn := 1 }
def q2 : State := kx [] |>.setTokens 0 1 (List.replicate 16 7)
def q3 : State := kx [] |>.modSeq ⟨0, .K, .pipe⟩ fun q => { q with xforms := [{ id := 0, dst := .reg 1, pc := 0, order := 0, op := .fill, left := 1, crc := 0, poison := none, pops := [] }] }
def fcw (f g r p : Nat) : Word := BitVec.ofNat 64 (f + 16 * g + 256 * r + 1024 * p)
def sf1 : State := kx [(1, 0x3FC00000), (2, fcw 0 1 1 2)]
def ctl1 : State := kx [(1, 0), (2, 8)]
def ctl2 : State := kx [(1, 0xFFFFFFFFFFFFFFFF), (2, 9)]
def spec : State := (kx [(1, 77)]).modSeq ⟨0, .K, .pipe⟩ fun q => { q with tpc := 4, tcause := 5, tval := 6, trep := 7, tscr := 8, slip := 2, detm := true, targ := 9, trcb := 0 }
def ldst (a b : Word) : State := mem (kx [(1, a), (2, b), (3, 0x8877665544332211)]) 0x1020 [0x81, 0x92, 0xA3, 0xB4, 0xC5, 0xD6, 0xE7, 0xF8]
def wst (v : Nat) : State := mem (kx [(1, 0x1000), (2, 3)]) 0x1000 [v]
def sy (w0 w1 x2 : Nat) : State := 
  (kx [(1, 0xFF00900000000040), (2, BitVec.ofNat 64 x2)]).modGlade 0 fun g => { g with sync := (toBytes 16 (w0 + w1 * 2 ^ 64)).zipIdx.foldl (fun t p => Tab.set 0 t (0x40 + p.2) p.1) [] }
def bindSt (y : Nat) : State := ((sy 0 0 y).modGrove 0 fun g => { g with regions := [(3, { desc := 0, tenant := 0, rcb := 0, current := 0 })] })
def bindSt2 : State := (bindSt 3).modGlade 0 fun g => { g with sync := [(0x60, 3), (0x61, 0x40)] }
def bindFull : State := (bindSt 3).modGlade 0 fun g => { g with sync := [(0x60, 4), (0x61, 0x40), (0x68, 5), (0x69, 0x40), (0x70, 6), (0x71, 0x40), (0x78, 7), (0x79, 0x40)] }
def bar (e r p ph y : Nat) (m : Bool) : State := (sy 0 0 y).modGlade 0 fun g => { g with
   marks := if m then [(1, true)] else [], sync := (toBytes 24 (e + r * 2 ^ 32 + p * 2 ^ 64 + ph * 2 ^ 96)).zipIdx.foldl (fun t p => Tab.set 0 t (0x40 + p.2) p.1) [] }
def arr (v : Nat) : State := (bar 2 2 0 7 v true).modSeq ⟨0, .K, .pipe⟩ fun q => q.setX 1 0xFF00900000000060
def xf (s : State) : State := s.modSeq ⟨0, .K, .pipe⟩ fun q => { q with xforms := [{ id := 0, dst := .discard, pc := 0, order := 0, op := .fill, left := 1, crc := 0, poison := none, pops := [] }] }
def badx : State := { kx [(1, 7)] with biterr := [(0x800004000008 / 8, 2)] }
def cyc (b : Bool) : State := { bar 2 2 0 7 0 true with barCycle := some { addr := 0x900000000040, advance := b, readers := [] } }
def msy (f : MemSys → MemSys) (s : State) : State := { s with msys := f s.msys }
def bxr : State := (cyc false).modSeq ⟨0, .K, .pipe⟩ fun q => { q with barRead := some (q.pc, 5) }
def fullMiss : State := (ldst 0x200000000 8) |> msy fun m => { m with misses := [(0, List.replicate 256 ⟨0, 0, [0], []⟩)] }
def ldc (a b : Word) : State := (ldst a b) |> msy fun m => { m with tlbs := [(0, [⟨0, 0xC0000000, 30, 0x10080000000001f⟩])] }
def lwait : State := (ldc 0xC0000000 8).modCore 0 fun k => { k with lines := [{ by_ := ⟨0, .K, .pipe⟩, job := 4, op := .fill, etype := 0, const := 0, addr := 0x800000000000, prog := 0xFF00800000000000, after := 0, rcb := 0 }] }
def hd (w : Word) : State := (kx [(1, 0xFF00800006000408)]).modCore 0 fun k => { k with handles := [(1, w)] }

/-- `Obligations.ScalarFloatResults`: states and operands that meet its hypotheses, clause by clause. -/
theorem witness_ScalarFloatResults :
  (∃ (s : State) (d : Dst) (a : Src) (b : Src), ((operandsReady s [a, b] d)) = true) ∧
  (∃ (s : State) (d : Dst) (a : Src) (b : Src), ((operandsReady s [a, b] d) &&
     (let c := srcVal (srcPop s a) b; (ops (NumFmt.ofCode (fld c 0 4))).any fun qq1 =>
     (let f := qq1; (ops (NumFmt.ofCode (fld c 4 4))).any fun qq2 => (let g := qq2;
     decide (fld c 12 52 = 0) && (ops (convertWord f g (Rnd.ofCode (fld c 8 2)) (Policy.ofCode (fld c 10 2)) (srcVal s a))).any fun _ =>
     true)))) = true) ∧
  (∃ (s : State) (d : Dst) (a : Src) (b : Src), ((operandsReady s [a, b] d) &&
     (let c := srcVal (srcPop s a) b; decide ((fld c 12 52 ≠ 0 ∨ NumFmt.ofCode (fld c 0 4) = none ∨ NumFmt.ofCode (fld c 4 4) = none)))) = true) :=
  ⟨⟨sf1, .reg 3, .reg 1, .reg 2, by decide +kernel⟩,
   ⟨sf1, .reg 3, .reg 1, .reg 2, by decide +kernel⟩,
   ⟨sf1, .reg 3, .reg 1, .reg 1, by decide +kernel⟩⟩

/-- `Obligations.QueueOperandRules`: states and operands that meet its hypotheses, clause by clause. -/
theorem witness_QueueOperandRules :
  (∃ (s : State), (decide (s.seq.gangn ≤ 1)) = true) ∧
  (∃ (s : State) (n : Nat), (decide (1 < s.seq.gangn) && decide ((s.tokens n = [] ∨ s.popFirst n = false))) = true) ∧
  (∃ (s : State) (n : Nat), (decide (1 < s.seq.gangn) && decide (Dst.queue n ∉ pendingDst s.here s.cur.seq) &&
     decide ((16 ≤ (s.tokens n).length ∨ s.pushTurn s.cur.core s.cur.seq.code n = false))) = true) ∧
  (∃ (s : State) (m : Nat), ((s.regPending m)) = true) ∧
  (∃ (s : State) (m : Nat), (decide (s.regPending m = false) && (ops (s.firstPoison (s.xPlace m) 8)).any fun _ =>
     true) = true) :=
  ⟨⟨q1, by decide +kernel⟩,
   ⟨q3, 1, by decide +kernel⟩,
   ⟨q2, 1, by decide +kernel⟩,
   ⟨q3, 1, by decide +kernel⟩,
   ⟨badx, 1, by decide +kernel⟩⟩

/-- `Obligations.ControlTransfer`: states and operands that meet its hypotheses, clause by clause. -/
theorem witness_ControlTransfer :
  (∃ (s : State) (a : Src), ((let pc := s.seq.pc; (operandsReady s [a] .discard) &&
     decide (pc.toNat % 4 = 0))) = true) ∧
  (∃ (s : State), ((let pc := s.seq.pc; decide (pc.toNat % 4 = 0))) = true) ∧
  (∃ (s : State) (a : Src), ((operandsReady s [a] .discard) && decide ((srcVal s a).toNat % 4 = 0)) = true) ∧
  (∃ (s : State) (a : Src), ((operandsReady s [a] (.reg 47)) && decide ((srcVal s a).toNat % 4 = 0)) = true) ∧
  (∃ (s : State) (a : Src) (l : Bool), ((operandsReady s [a] (if l then .reg 47 else .discard)) &&
     decide ((srcVal s a).toNat % 4 ≠ 0)) = true) ∧
  (∃ (s : State) (n : Nat), ((let pc := s.seq.pc; (operandsReady s [.reg n] (.reg n)) &&
     decide (pc.toNat % 4 = 0))) = true) :=
  ⟨⟨ctl1, .reg 1, by decide +kernel⟩,
   ⟨ctl1, by decide +kernel⟩,
   ⟨ctl1, .reg 1, by decide +kernel⟩,
   ⟨ctl1, .reg 1, by decide +kernel⟩,
   ⟨ctl2, .reg 1, false, by decide +kernel⟩,
   ⟨ctl1, 1, by decide +kernel⟩⟩

/-- `Obligations.SpecialRegisters`: states and operands that meet its hypotheses, clause by clause. -/
theorem witness_SpecialRegisters :
  (∃ (s : State) (d : Dst) (n : BitVec 16), ((let q := s.seq; (let listed := (( [(0x00, BitVec.ofNat 64 s.cur.seq.code),
     (0x01, q.targ), (0x02, BitVec.ofNat 64 q.trcb), (0x03, BitVec.ofNat 64 q.tkind),
     (0x04, BitVec.ofNat 64 q.gangn), (0x05, BitVec.ofNat 64 q.slip), (0x06, BitVec.ofNat 64 q.detm.toNat),
     (0x10, BitVec.ofNat 64 (q.rem - 1)), (0x20, q.tpc), (0x21, q.tcause),
     (0x22, q.tval), (0x23, BitVec.ofNat 64 q.trep), (0x24, q.tscr)]) : List (Nat × Word));
     (operandsReady s [] d) && (listed).any fun e => decide (n.toNat = e.1)))) = true) ∧
  (∃ (s : State) (d : Dst) (n : BitVec 16), ((let q := s.seq; (let listed := (( [(0x00, BitVec.ofNat 64 s.cur.seq.code),
     (0x01, q.targ), (0x02, BitVec.ofNat 64 q.trcb), (0x03, BitVec.ofNat 64 q.tkind),
     (0x04, BitVec.ofNat 64 q.gangn), (0x05, BitVec.ofNat 64 q.slip), (0x06, BitVec.ofNat 64 q.detm.toNat),
     (0x10, BitVec.ofNat 64 (q.rem - 1)), (0x20, q.tpc), (0x21, q.tcause),
     (0x22, q.tval), (0x23, BitVec.ofNat 64 q.trep), (0x24, q.tscr)]) : List (Nat × Word));
     (operandsReady s [] d) && decide ((∀ e ∈ listed, e.1 ≠ n.toNat))))) = true) ∧
  (∃ (s : State) (d : Dst) (n : BitVec 16), ((operandsReady s [d.asSrc] .discard) &&
     decide (n = 0x20)) = true) ∧
  (∃ (s : State) (d : Dst) (n : BitVec 16), ((operandsReady s [d.asSrc] .discard) &&
     decide (n = 0x21)) = true) ∧
  (∃ (s : State) (d : Dst) (n : BitVec 16), ((operandsReady s [d.asSrc] .discard) &&
     decide (n = 0x22)) = true) ∧
  (∃ (s : State) (d : Dst) (n : BitVec 16), ((operandsReady s [d.asSrc] .discard) &&
     decide (n = 0x23)) = true) ∧
  (∃ (s : State) (d : Dst) (n : BitVec 16), ((operandsReady s [d.asSrc] .discard) &&
     decide (n = 0x24)) = true) ∧
  (∃ (s : State) (d : Dst) (n : BitVec 16), ((operandsReady s [d.asSrc] .discard) &&
     decide (n.toNat ∈ [0, 1, 2, 3, 4, 5, 6, 0x10])) = true) ∧
  (∃ (s : State) (d : Dst) (n : BitVec 16), ((let q := s.seq; (let listed := (( [(0x00, BitVec.ofNat 64 s.cur.seq.code),
     (0x01, q.targ), (0x02, BitVec.ofNat 64 q.trcb), (0x03, BitVec.ofNat 64 q.tkind),
     (0x04, BitVec.ofNat 64 q.gangn), (0x05, BitVec.ofNat 64 q.slip), (0x06, BitVec.ofNat 64 q.detm.toNat),
     (0x10, BitVec.ofNat 64 (q.rem - 1)), (0x20, q.tpc), (0x21, q.tcause),
     (0x22, q.tval), (0x23, BitVec.ofNat 64 q.trep), (0x24, q.tscr)]) : List (Nat × Word));
     (operandsReady s [d.asSrc] .discard) && decide ((∀ e ∈ listed, e.1 ≠ n.toNat))))) = true) ∧
  (∃ (n : BitVec 16), (decide (n = 0)) = true) ∧
  (∃ (n : BitVec 16), (decide (n = 1)) = true) ∧
  (∃ (n : BitVec 16), (decide (n = 2)) = true) ∧
  (∃ (n : BitVec 16), (decide (n = 3)) = true) ∧
  (∃ (n : BitVec 16), (decide (n = 4)) = true) ∧
  (∃ (n : BitVec 16), (decide (n = 5)) = true) ∧
  (∃ (n : BitVec 16), (decide (n = 6)) = true) ∧
  (∃ (n : BitVec 16), (decide (n = 7)) = true) ∧
  (∃ (n : BitVec 16), (decide (0x100 ≤ n.toNat) && decide (n.toNat < 0x200)) = true) ∧
  (∃ (n : BitVec 16), (decide (8 ≤ n.toNat) && decide ((n.toNat < 0x100 ∨ 0x200 ≤ n.toNat))) = true) :=
  ⟨⟨spec, .reg 1, 0, by decide +kernel⟩,
   ⟨spec, .reg 1, 0x25, by decide +kernel⟩,
   ⟨spec, .reg 1, 0x20, by decide +kernel⟩,
   ⟨spec, .reg 1, 0x21, by decide +kernel⟩,
   ⟨spec, .reg 1, 0x22, by decide +kernel⟩,
   ⟨spec, .reg 1, 0x23, by decide +kernel⟩,
   ⟨spec, .reg 1, 0x24, by decide +kernel⟩,
   ⟨spec, .reg 1, 0, by decide +kernel⟩,
   ⟨spec, .reg 1, 0x25, by decide +kernel⟩,
   ⟨0, by decide +kernel⟩,
   ⟨1, by decide +kernel⟩,
   ⟨2, by decide +kernel⟩,
   ⟨3, by decide +kernel⟩,
   ⟨4, by decide +kernel⟩,
   ⟨5, by decide +kernel⟩,
   ⟨6, by decide +kernel⟩,
   ⟨7, by decide +kernel⟩,
   ⟨0x100, by decide +kernel⟩,
   ⟨0x10, by decide +kernel⟩⟩

/-- `Obligations.ScalarLoadsAndStores`: states and operands that meet its hypotheses, clause by clause. -/
theorem witness_ScalarLoadsAndStores :
  (∃ (s : State) (d : Dst) (a : Src) (b : Src) (f : Wid), ((operandsReady s [a, b] d) &&
     (let s2 := eaPop s a b; (oks (load s2.me .scalar (eaVal s a b) f.bytes f.bytes s2)).any fun _ =>
     true)) = true) ∧
  (∃ (s : State) (d : Dst) (a : Src) (b : Src) (f : Wid), ((operandsReady s [a, b, d.asSrc] .discard) &&
     (let s2 := eaPop s a b; (let s3 := srcPop s2 d.asSrc; (oks (store s3.me .scalar (eaVal s a b) (toBytes f.bytes (srcVal s2 d.asSrc).toNat) f.bytes s3)).any fun _ =>
     true))) = true) ∧
  (∃ (s : State) (d : Dst) (x : Nat) (y : Nat) (o : Order), ((operandsReady s [.reg x, .reg y] d) &&
     (let s2 := eaPop s (.reg x) (.reg y); decide (o ∈ [Order.relaxed, .acquire, .seqCst]) &&
     (oks (load s2.me .scalar (s.xreg x + s.xreg y) 8 8 s2)).any fun _ =>
     true)) = true) ∧
  (∃ (s : State) (d : Dst) (x : Nat) (y : Nat) (o : Order), ((operandsReady s [.reg x, .reg y] d) &&
     decide (o ∈ [Order.release, .acqRel])) = true) ∧
  (∃ (s : State) (d : Dst) (x : Nat) (y : Nat) (o : Order) (sc : Scope),
     ((operandsReady s [.reg x, .reg y, d.asSrc] .discard) && (let s3 := srcPop (eaPop s (.reg x) (.reg y)) d.asSrc;
     decide (o ∈ [Order.relaxed, .release, .seqCst]) && decide (s.releaseHeld o sc = false) &&
     (oks (store s3.me .scalar (s.xreg x + s.xreg y) (toBytes 8 (srcVal s d.asSrc).toNat) 8 s3)).any fun _ =>
     true)) = true) ∧
  (∃ (s : State) (d : Dst) (x : Nat) (y : Nat) (o : Order) (sc : Scope),
     ((operandsReady s [.reg x, .reg y, d.asSrc] .discard) && decide (o ∈ [Order.relaxed, .release, .seqCst]) &&
     (s.releaseHeld o sc)) = true) ∧
  (∃ (s : State) (d : Dst) (x : Nat) (y : Nat) (o : Order), ((operandsReady s [.reg x, .reg y, d.asSrc] .discard) &&
     decide (o ∈ [Order.acquire, .acqRel])) = true) :=
  ⟨⟨ldst 0x1000 0x20, .reg 3, .reg 1, .reg 1, .d, by decide +kernel⟩,
   ⟨ldst 0x1000 0x20, .reg 3, .reg 1, .reg 1, .d, by decide +kernel⟩,
   ⟨ldst 0x1000 0x20, .reg 3, 1, 2, .relaxed, by decide +kernel⟩,
   ⟨ldst 0x1000 0x20, .reg 3, 1, 2, .release, by decide +kernel⟩,
   ⟨ldst 0x1000 0x20, .reg 3, 1, 2, .relaxed, .system, by decide +kernel⟩,
   ⟨xf (ldst 0x1000 0x20), .reg 3, 1, 2, .release, .system, by decide +kernel⟩,
   ⟨ldst 0x1000 0x20, .reg 3, 1, 2, .acquire, by decide +kernel⟩⟩

/-- `Obligations.PrefetchFenceAndWaits`: states and operands that meet its hypotheses, clause by clause. -/
theorem witness_PrefetchFenceAndWaits :
  (∃ (s : State) (a : Src) (b : Src), ((operandsReady s [a, b] .discard) &&
     (let s2 := eaPop s a b; (let x := eaVal s a b; (let v := x.toNat; decide ((isVirtual x = false ∨ s2.misses s2.me v = false)))))) = true) ∧
  (∃ (s : State) (a : Src) (b : Src), ((operandsReady s [a, b] .discard) &&
     (let s2 := eaPop s a b; (let x := eaVal s a b; (let v := x.toNat; (isVirtual x) &&
     (s2.misses s2.me v) && (let u := enterMiss s2.me [] v s2; decide (u.missQueued s2.me v = false)))))) = true) ∧
  (∃ (s : State) (a : Src) (b : Src), ((operandsReady s [a, b] .discard) &&
     (let s2 := eaPop s a b; (let x := eaVal s a b; (let v := x.toNat; (isVirtual x) &&
     (s2.misses s2.me v) && (let u := enterMiss s2.me [] v s2; (u.missQueued s2.me v)))))) = true) ∧
  (∃ (s : State) (o : Order) (sc : Scope), (((!Scope.isFar sc || (s.remoteFault s.cur).isNone)) &&
     (let held := s.xformsOpen || (s.cur.seq == .V && s.here.splitOpen) || (o != .acquire &&
     s.remoteHeld sc); decide (o ≠ .relaxed) && decide (held = false))) = true) ∧
  (∃ (s : State) (o : Order) (sc : Scope), (((!Scope.isFar sc || (s.remoteFault s.cur).isNone)) &&
     (let held := s.xformsOpen || (s.cur.seq == .V && s.here.splitOpen) || (o != .acquire &&
     s.remoteHeld sc); decide (o ≠ .relaxed) && held)) = true) ∧
  (∃ (s : State) (o : Order) (sc : Scope), (((!Scope.isFar sc || (s.remoteFault s.cur).isNone)) &&
     decide (o = .relaxed)) = true) ∧
  (∃ (s : State) (d : Dst) (a : Src) (b : Src) (c : WaitCond), ((operandsReady s [a, b] d) &&
     (let s2 := eaPop s a b; (oks (load s2.me .wait (srcVal s a) 8 8 s2)).any fun qq9 =>
     (let l := qq9.1; (c.holds (wordOf l) (srcVal (srcPop s a) b))))) = true) ∧
  (∃ (s : State) (d : Dst) (a : Src) (b : Src) (c : WaitCond), ((operandsReady s [a, b] d) &&
     (let s2 := eaPop s a b; (oks (load s2.me .wait (srcVal s a) 8 8 s2)).any fun qq9 =>
     (let l := qq9.1; decide (c.holds (wordOf l) (srcVal (srcPop s a) b) = false) &&
     (oks (access s2.me .wait .read (srcVal s a) 8 8 s2)).any fun _ =>
     true))) = true) ∧
  (∃ (s : State) (a : Src) (b : Src), ((operandsReady s [a, b] .discard) &&
     (let s2 := eaPop s a b; (oks (access s2.me .scalar .prof (eaVal s a b) 8 8 s2)).any fun qq11 =>
     (let p := qq11.1; (let u := qq11.2; (u.placeWaits s2.me p 8))))) = true) ∧
  (∃ (s : State) (a : Src) (b : Src) (z : Nat), ((operandsReady s [a, b] .discard) &&
     (let s2 := eaPop s a b; (oks (access s2.me .scalar .prof (eaVal s a b) 8 8 s2)).any fun qq11 =>
     (let p := qq11.1; (let u := qq11.2; decide (u.placeWaits s2.me p 8 = false) &&
     (oks (writePlace s2.me p (toBytes 8 (Tab.get 0 s.seq.z z).toNat) u)).any fun _ =>
     true)))) = true) :=
  ⟨⟨wst 1, .reg 1, .reg 2, by decide +kernel⟩,
   ⟨ldst 0x200000000 8, .reg 1, .reg 2, by decide +kernel⟩,
   ⟨fullMiss, .reg 1, .reg 2, by decide +kernel⟩,
   ⟨wst 1, .acquire, .core, by decide +kernel⟩,
   ⟨xf (wst 1), .acquire, .core, by decide +kernel⟩,
   ⟨wst 1, .relaxed, .core, by decide +kernel⟩,
   ⟨wst 1, .reg 3, .reg 1, .reg 2, .ne, by decide +kernel⟩,
   ⟨wst 1, .reg 3, .reg 1, .reg 2, .eq, by decide +kernel⟩,
   ⟨lwait, .reg 1, .reg 2, by decide +kernel⟩,
   ⟨ldst 0x40000000 8, .reg 1, .reg 2, 3, by decide +kernel⟩⟩

/-- `Obligations.AtomicResults`: states and operands that meet its hypotheses, clause by clause. -/
theorem witness_AtomicResults :
  (∃ (s : State) (d : Dst) (a : Nat) (b : Nat) (o : Order) (sc : Scope) (old : Nat),
     (decide (s.releaseHeld o sc = false) && (let base := eaPop s (.reg a) (.reg b);
     (let v := (s.xreg b).toNat; (let host := (( [((fun _ : Unit => execAmoAdd d a b o sc s),
     old + v), ((fun _ : Unit => execAmoSwp d a b o sc s), v)]) : List ((Unit → Host.Outcome State Fault Refusal) × Nat));
     (operandsReady s [.reg a, .reg b] d) && (atomAt base (s.xreg a) 8).any fun qq13 => decide (qq13.2.1 = old) &&
     (host).any fun _ => true)))) = true) ∧
  (∃ (s : State) (d : Dst) (a : Nat) (b : Nat) (o : Order) (sc : Scope) (old : Nat),
     (decide (s.releaseHeld o sc = false) && (let base := eaPop s (.reg a) (.reg b);
     (let v := (s.xreg b).toNat; (let less := (fun (x y : Nat) => (( (BitVec.ofNat 64 x).slt (BitVec.ofNat 64 y)) : Bool));
     (let lane := (fun (i : Nat) => (( NumFmt.fp32.addCode .rne (old / 2 ^ i % 2 ^ 32) (v / 2 ^ i % 2 ^ 32)) : Nat));
     (let near := (( [((fun _ : Unit => execAmoAnd d a b o sc s), old &&&
     v), ((fun _ : Unit => execAmoOr d a b o sc s), old ||| v), ((fun _ : Unit => execAmoXor d a b o sc s),
     old ^^^ v), ((fun _ : Unit => execAmoMin d a b o sc s), if less v old then v else old),
     ((fun _ : Unit => execAmoMax d a b o sc s), if less old v then v else old),
     ((fun _ : Unit => execAmoMinu d a b o sc s), Nat.min old v), ((fun _ : Unit => execAmoMaxu d a b o sc s),
     Nat.max old v), ((fun _ : Unit => execAmoFadd d a b o sc s), lane 0 + 2 ^ 32 * lane 32)]) : List ((Unit → Host.Outcome State Fault Refusal) × Nat));
     (operandsReady s [.reg a, .reg b] d) && (atomAt base (s.xreg a) 8).any fun qq13 =>
     (let p := qq13.1; decide (qq13.2.1 = old) && decide (p.host = false) &&
     (near).any fun _ => true))))))) = true) ∧
  (∃ (s : State) (d : Dst) (a : Nat) (b : Nat) (o : Order) (sc : Scope) (old : Nat),
     (decide (s.releaseHeld o sc = false) && (let base := eaPop s (.reg a) (.reg b);
     (let v := (s.xreg b).toNat; (let less := (fun (x y : Nat) => (( (BitVec.ofNat 64 x).slt (BitVec.ofNat 64 y)) : Bool));
     (let lane := (fun (i : Nat) => (( NumFmt.fp32.addCode .rne (old / 2 ^ i % 2 ^ 32) (v / 2 ^ i % 2 ^ 32)) : Nat));
     (let near := (( [((fun _ : Unit => execAmoAnd d a b o sc s), old &&&
     v), ((fun _ : Unit => execAmoOr d a b o sc s), old ||| v), ((fun _ : Unit => execAmoXor d a b o sc s),
     old ^^^ v), ((fun _ : Unit => execAmoMin d a b o sc s), if less v old then v else old),
     ((fun _ : Unit => execAmoMax d a b o sc s), if less old v then v else old),
     ((fun _ : Unit => execAmoMinu d a b o sc s), Nat.min old v), ((fun _ : Unit => execAmoMaxu d a b o sc s),
     Nat.max old v), ((fun _ : Unit => execAmoFadd d a b o sc s), lane 0 + 2 ^ 32 * lane 32)]) : List ((Unit → Host.Outcome State Fault Refusal) × Nat));
     (operandsReady s [.reg a, .reg b] d) && (atomAt base (s.xreg a) 8).any fun qq13 =>
     (let p := qq13.1; decide (qq13.2.1 = old) && p.host && (near).any fun _ =>
     true))))))) = true) ∧
  (∃ (s : State) (d : Dst) (a : Nat) (b : Nat) (o : Order) (sc : Scope) (old : Nat),
     (decide (s.releaseHeld o sc = false) && (let base := eaPop s (.reg a) (.reg b);
     (let base3 := srcPop base (.reg (b + 1)); (operandsReady s [.reg a, .reg b, .reg (b + 1)] d) &&
     (atomAt base3 (s.xreg a) 8).any fun qq14 => decide (qq14.2.1 = old)))) = true) ∧
  (∃ (s : State) (d : Dst) (a : Nat) (b : Nat) (o : Order) (sc : Scope),
     (decide (s.releaseHeld o sc = false) && (let base := eaPop s (.reg a) (.reg b);
     (let v := (s.xreg b).toNat; (operandsReady s [.reg a, .reg b] d) &&
     (arrAt base (s.xreg a) 8).any fun _ => decide (v = 0)))) = true) ∧
  (∃ (s : State) (d : Dst) (a : Nat) (b : Nat) (o : Order) (sc : Scope),
     (decide (s.releaseHeld o sc = false) && (let base := eaPop s (.reg a) (.reg b);
     (let v := (s.xreg b).toNat; (operandsReady s [.reg a, .reg b] d) &&
     (arrAt base (s.xreg a) 8).any fun qq17 => (let p := qq17.1; (let t := qq17.2;
     decide (v ≠ 0) && (oks (readLine base.me p t)).any fun zw => (let w := zw.2;
     decide ((applyBar base.me p.addr (.arrive v 0) w).2 = none))))))) = true) ∧
  (∃ (s : State) (d : Dst) (a : Nat) (b : Nat) (o : Order) (sc : Scope) (old : Nat),
     (decide (s.releaseHeld o sc = false) && (let base := eaPop s (.reg a) (.reg b);
     (let v := (s.xreg b).toNat % 2 ^ 32; (let host := (( [((fun _ : Unit => execAmoAddW d a b o sc s),
     old + v), ((fun _ : Unit => execAmoSwpW d a b o sc s), v)]) : List ((Unit → Host.Outcome State Fault Refusal) × Nat));
     (operandsReady s [.reg a, .reg b] d) && (atomAt base (s.xreg a) 4).any fun qq15 => decide (qq15.2.1 = old) &&
     (host).any fun _ => true)))) = true) ∧
  (∃ (s : State) (d : Dst) (a : Nat) (b : Nat) (o : Order) (sc : Scope) (old : Nat),
     (decide (s.releaseHeld o sc = false) && (let base := eaPop s (.reg a) (.reg b);
     (let v := (s.xreg b).toNat % 2 ^ 32; (let less := (fun (x y : Nat) =>
     (( (BitVec.ofNat 32 x).slt (BitVec.ofNat 32 y)) : Bool)); (let near := (( [((fun _ : Unit => execAmoAndW d a b o sc s),
     old &&& v), ((fun _ : Unit => execAmoOrW d a b o sc s), old ||| v),
     ((fun _ : Unit => execAmoXorW d a b o sc s), old ^^^ v), ((fun _ : Unit => execAmoMinW d a b o sc s),
     if less v old then v else old), ((fun _ : Unit => execAmoMaxW d a b o sc s),
     if less old v then v else old), ((fun _ : Unit => execAmoMinuW d a b o sc s),
     Nat.min old v), ((fun _ : Unit => execAmoMaxuW d a b o sc s), Nat.max old v),
     ((fun _ : Unit => execAmoFaddW d a b o sc s), NumFmt.fp32.addCode .rne (old % 2 ^ 32) v)]) : List ((Unit → Host.Outcome State Fault Refusal) × Nat));
     (operandsReady s [.reg a, .reg b] d) && (atomAt base (s.xreg a) 4).any fun qq15 =>
     (let p := qq15.1; decide (qq15.2.1 = old) && decide (p.host = false) &&
     (near).any fun _ => true)))))) = true) ∧
  (∃ (s : State) (d : Dst) (a : Nat) (b : Nat) (o : Order) (sc : Scope) (old : Nat),
     (decide (s.releaseHeld o sc = false) && (let base := eaPop s (.reg a) (.reg b);
     (let v := (s.xreg b).toNat % 2 ^ 32; (let less := (fun (x y : Nat) =>
     (( (BitVec.ofNat 32 x).slt (BitVec.ofNat 32 y)) : Bool)); (let near := (( [((fun _ : Unit => execAmoAndW d a b o sc s),
     old &&& v), ((fun _ : Unit => execAmoOrW d a b o sc s), old ||| v),
     ((fun _ : Unit => execAmoXorW d a b o sc s), old ^^^ v), ((fun _ : Unit => execAmoMinW d a b o sc s),
     if less v old then v else old), ((fun _ : Unit => execAmoMaxW d a b o sc s),
     if less old v then v else old), ((fun _ : Unit => execAmoMinuW d a b o sc s),
     Nat.min old v), ((fun _ : Unit => execAmoMaxuW d a b o sc s), Nat.max old v),
     ((fun _ : Unit => execAmoFaddW d a b o sc s), NumFmt.fp32.addCode .rne (old % 2 ^ 32) v)]) : List ((Unit → Host.Outcome State Fault Refusal) × Nat));
     (operandsReady s [.reg a, .reg b] d) && (atomAt base (s.xreg a) 4).any fun qq15 =>
     (let p := qq15.1; decide (qq15.2.1 = old) && p.host && (near).any fun _ =>
     true)))))) = true) ∧
  (∃ (s : State) (d : Dst) (a : Nat) (b : Nat) (o : Order) (sc : Scope) (old : Nat),
     (decide (s.releaseHeld o sc = false) && (let base := eaPop s (.reg a) (.reg b);
     (let base3 := srcPop base (.reg (b + 1)); (operandsReady s [.reg a, .reg b, .reg (b + 1)] d) &&
     (atomAt base3 (s.xreg a) 4).any fun qq16 => decide (qq16.2.1 = old)))) = true) :=
  ⟨⟨ldst 0x1020 5, .reg 3, 1, 2, .relaxed, .core, 0xF8E7D6C5B4A39281, by decide +kernel⟩,
   ⟨ldst 0x1020 5, .reg 3, 1, 2, .relaxed, .core, 0xF8E7D6C5B4A39281, by decide +kernel⟩,
   ⟨ldst 0x80000000 5, .reg 3, 1, 2, .relaxed, .core, 0, by decide +kernel⟩,
   ⟨ldst 0x1020 5, .reg 3, 1, 2, .relaxed, .core, 0xF8E7D6C5B4A39281, by decide +kernel⟩,
   ⟨arr 0, .reg 3, 1, 2, .relaxed, .core, by decide +kernel⟩,
   ⟨arr 2, .reg 3, 1, 2, .relaxed, .core, by decide +kernel⟩,
   ⟨ldst 0x1020 5, .reg 3, 1, 2, .relaxed, .core, 0xB4A39281, by decide +kernel⟩,
   ⟨ldst 0x1020 5, .reg 3, 1, 2, .relaxed, .core, 0xB4A39281, by decide +kernel⟩,
   ⟨ldst 0x80000000 5, .reg 3, 1, 2, .relaxed, .core, 0, by decide +kernel⟩,
   ⟨ldst 0x1020 5, .reg 3, 1, 2, .relaxed, .core, 0xB4A39281, by decide +kernel⟩⟩

/-- `Obligations.SyncObjectsAndBindings`: states and operands that meet its hypotheses, clause by clause. -/
theorem witness_SyncObjectsAndBindings :
  (∃ (s : State) (d : Dst) (x : Nat) (y : Nat) (o : Order) (sc : Scope),
     ((operandsReady s [.reg x, .reg y] d) && decide (s.releaseHeld o sc = false) &&
     (oks (objectPlace (s.xreg x) (eaPop s (.reg x) (.reg y)))).any fun qq18 =>
     (let p := qq18.1; (let t := qq18.2; (let word := (fun (k : Nat) =>
     (( objWord t p.addr k) : Nat)); (let shared := word 8 % 2 ^ 32; (let excl := word 8 / 2 ^ 32 % 2;
     decide (o ∈ [Order.relaxed, .acquire, .seqCst]) && (t.firstFor 1 (p.addr / 64)) &&
     decide (excl = 0) && decide (s.xreg y = 0) && decide (shared = 0))))))) = true) ∧
  (∃ (s : State) (d : Dst) (x : Nat) (y : Nat) (o : Order) (sc : Scope),
     ((operandsReady s [.reg x, .reg y] d) && decide (s.releaseHeld o sc = false) &&
     (oks (objectPlace (s.xreg x) (eaPop s (.reg x) (.reg y)))).any fun qq18 =>
     (let p := qq18.1; (let t := qq18.2; (let word := (fun (k : Nat) =>
     (( objWord t p.addr k) : Nat)); (let shared := word 8 % 2 ^ 32; (let excl := word 8 / 2 ^ 32 % 2;
     decide (o ∈ [Order.relaxed, .acquire, .seqCst]) && (t.firstFor 1 (p.addr / 64)) &&
     decide (excl = 0) && decide (s.xreg y = 1) && decide (shared < 2 ^ 32 - 1))))))) = true) ∧
  (∃ (s : State) (d : Dst) (x : Nat) (y : Nat) (o : Order) (sc : Scope),
     ((operandsReady s [.reg x, .reg y] d) && decide (s.releaseHeld o sc = false) &&
     (oks (objectPlace (s.xreg x) (eaPop s (.reg x) (.reg y)))).any fun qq18 =>
     (let p := qq18.1; (let t := qq18.2; (let word := (fun (k : Nat) =>
     (( objWord t p.addr k) : Nat)); (let shared := word 8 % 2 ^ 32; (let excl := word 8 / 2 ^ 32 % 2;
     decide (o ∈ [Order.relaxed, .acquire, .seqCst]) && decide ((s.xreg y = 0 ∨ s.xreg y = 1)) &&
     decide ((t.firstFor 1 (p.addr / 64) = false ∨ excl = 1 ∨ s.xreg y = 0 ∧ shared ≠ 0)))))))) = true) ∧
  (∃ (s : State) (d : Dst) (x : Nat) (y : Nat) (o : Order) (sc : Scope),
     ((operandsReady s [.reg x, .reg y] d) && decide (s.releaseHeld o sc = false) &&
     (oks (objectPlace (s.xreg x) (eaPop s (.reg x) (.reg y)))).any fun qq18 =>
     (let p := qq18.1; (let t := qq18.2; (let word := (fun (k : Nat) =>
     (( objWord t p.addr k) : Nat)); (let excl := word 8 / 2 ^ 32 % 2; decide (o ∈ [Order.relaxed, .release, .seqCst]) &&
     decide (s.xformsOpen = false) && decide (s.remoteOpenTo ownDevice = false) &&
     decide (s.xreg y = 0) && decide (excl = 1)))))) = true) ∧
  (∃ (s : State) (d : Dst) (x : Nat) (y : Nat) (o : Order) (sc : Scope),
     ((operandsReady s [.reg x, .reg y] d) && decide (s.releaseHeld o sc = false) &&
     (oks (objectPlace (s.xreg x) (eaPop s (.reg x) (.reg y)))).any fun qq18 =>
     (let p := qq18.1; (let t := qq18.2; (let word := (fun (k : Nat) =>
     (( objWord t p.addr k) : Nat)); (let shared := word 8 % 2 ^ 32; decide (o ∈ [Order.relaxed, .release, .seqCst]) &&
     decide (s.xformsOpen = false) && decide (s.remoteOpenTo ownDevice = false) &&
     decide (s.xreg y = 1) && decide (shared ≠ 0)))))) = true) ∧
  (∃ (s : State) (d : Dst) (x : Nat) (y : Nat) (o : Order) (sc : Scope),
     ((operandsReady s [.reg x, .reg y] d) && decide (s.releaseHeld o sc = false) &&
     (oks (objectPlace (s.xreg x) (eaPop s (.reg x) (.reg y)))).any fun qq18 =>
     (let p := qq18.1; (let t := qq18.2; (let word := (fun (k : Nat) =>
     (( objWord t p.addr k) : Nat)); (let excl := word 8 / 2 ^ 32 % 2; decide (o ∈ [Order.relaxed, .release, .seqCst]) &&
     decide (s.xformsOpen = false) && decide (s.remoteOpenTo ownDevice = false) &&
     decide (s.xreg y = 0) && decide (excl = 0)))))) = true) ∧
  (∃ (s : State) (d : Dst) (x : Nat) (y : Nat) (o : Order) (sc : Scope),
     ((operandsReady s [.reg x, .reg y] d) && decide (s.releaseHeld o sc = false) &&
     (oks (objectPlace (s.xreg x) (eaPop s (.reg x) (.reg y)))).any fun qq18 =>
     (let p := qq18.1; (let t := qq18.2; (let word := (fun (k : Nat) =>
     (( objWord t p.addr k) : Nat)); (let shared := word 8 % 2 ^ 32; decide (o ∈ [Order.relaxed, .release, .seqCst]) &&
     decide (s.xformsOpen = false) && decide (s.remoteOpenTo ownDevice = false) &&
     decide (s.xreg y = 1) && decide (shared = 0)))))) = true) ∧
  (∃ (s : State) (d : Dst) (a : Src) (b : Src), ((operandsReady s [a, b] d) &&
     (oks (objectPlace (srcVal s a) (eaPop s a b))).any fun qq19 => (let p := qq19.1;
     (let t := qq19.2; (let y := srcVal (srcPop s a) b; (let g := if fld y 7 8 = 0 then s.homeGrove else fld y 7 8 - 1;
     (let v := fld y 0 7 + g * 2 ^ 7 + 2 ^ 14; (let l := bindings t p.addr;
     (let valid := (fun (w : Nat) => (( w / 2 ^ 14 % 2 == 1) : Bool)); decide (fld y 15 49 = 0) &&
     decide (fld y 7 8 ≤ 96) && (ops ((t.grove g).region (fld y 0 7))).any fun qq20 =>
     (let r := qq20; decide (r.tenant = t.me.tenant) && decide (t.marked p.addr = false) &&
     decide (l.findIdx? (fun w => w % 2 ^ 15 == v) = none) && (ops (l.findIdx? (fun w => !valid w))).any fun _ =>
     true))))))))) = true) ∧
  (∃ (s : State) (d : Dst) (a : Src) (b : Src), ((operandsReady s [a, b] d) &&
     (oks (objectPlace (srcVal s a) (eaPop s a b))).any fun qq19 => (let p := qq19.1;
     (let t := qq19.2; (let y := srcVal (srcPop s a) b; (let g := if fld y 7 8 = 0 then s.homeGrove else fld y 7 8 - 1;
     (let v := fld y 0 7 + g * 2 ^ 7 + 2 ^ 14; (let l := bindings t p.addr;
     decide (fld y 15 49 = 0) && decide (fld y 7 8 ≤ 96) && (ops ((t.grove g).region (fld y 0 7))).any fun qq20 =>
     (let r := qq20; decide (r.tenant = t.me.tenant) && decide (t.marked p.addr = false) &&
     (ops (l.findIdx? (fun w => w % 2 ^ 15 == v))).any fun _ => true)))))))) = true) ∧
  (∃ (s : State) (d : Dst) (a : Src) (b : Src), ((operandsReady s [a, b] d) &&
     (oks (objectPlace (srcVal s a) (eaPop s a b))).any fun qq19 => (let p := qq19.1;
     (let t := qq19.2; (let y := srcVal (srcPop s a) b; (let g := if fld y 7 8 = 0 then s.homeGrove else fld y 7 8 - 1;
     (let v := fld y 0 7 + g * 2 ^ 7 + 2 ^ 14; (let l := bindings t p.addr;
     (let valid := (fun (w : Nat) => (( w / 2 ^ 14 % 2 == 1) : Bool)); decide (fld y 15 49 = 0) &&
     decide (fld y 7 8 ≤ 96) && (ops ((t.grove g).region (fld y 0 7))).any fun qq20 =>
     (let r := qq20; decide (r.tenant = t.me.tenant) && decide (t.marked p.addr = false) &&
     decide (l.findIdx? (fun w => w % 2 ^ 15 == v) = none) && decide (l.findIdx? (fun w => !valid w) = none)))))))))) = true) :=
  ⟨⟨sy 9 0 0, .reg 3, 1, 2, .relaxed, .core, by decide +kernel⟩,
   ⟨sy 9 0 1, .reg 3, 1, 2, .relaxed, .core, by decide +kernel⟩,
   ⟨sy 9 (2^32) 0, .reg 3, 1, 2, .relaxed, .core, by decide +kernel⟩,
   ⟨sy 9 (2^32) 0, .reg 3, 1, 2, .relaxed, .core, by decide +kernel⟩,
   ⟨sy 9 3 1, .reg 3, 1, 2, .relaxed, .core, by decide +kernel⟩,
   ⟨sy 9 0 0, .reg 3, 1, 2, .relaxed, .core, by decide +kernel⟩,
   ⟨sy 9 0 1, .reg 3, 1, 2, .relaxed, .core, by decide +kernel⟩,
   ⟨bindSt 3, .reg 3, .reg 1, .reg 2, by decide +kernel⟩,
   ⟨bindSt2, .reg 3, .reg 1, .reg 2, by decide +kernel⟩,
   ⟨bindFull, .reg 3, .reg 1, .reg 2, by decide +kernel⟩⟩

/-- `Obligations.BarrierInstructions`: states and operands that meet its hypotheses, clause by clause. -/
theorem witness_BarrierInstructions :
  (∃ (s : State) (d : Dst) (x : Nat) (y : Nat) (o : Order) (sc : Scope),
     ((operandsReady s [.reg x, .reg y] d) && (oks (objectPlace (s.xreg x) (eaPop s (.reg x) (.reg y)))).any fun qq23 =>
     (let p := qq23.1; (let t := qq23.2; (let u := setMark p.addr t; (let f := barFields u p.addr;
     (let n := (s.xreg y).toNat; decide (o ∈ [Order.relaxed, .release, .acqRel, .seqCst]) &&
     decide (s.releaseHeld o sc = false) && decide (n < 2 ^ 32) && decide (1 ≤ f.remaining) &&
     decide (f.pending + n < 2 ^ 32) && decide (t.inCycle p.addr = none))))))) = true) ∧
  (∃ (s : State) (d : Dst) (x : Nat) (y : Nat) (o : Order) (sc : Scope),
     ((operandsReady s [.reg x, .reg y] d) && (oks (objectPlace (s.xreg x) (eaPop s (.reg x) (.reg y)))).any fun qq23 =>
     (let p := qq23.1; (let t := qq23.2; (let u := setMark p.addr t; (let f := barFields u p.addr;
     (let n := (s.xreg y).toNat; decide (o ∈ [Order.relaxed, .release, .acqRel, .seqCst]) &&
     decide (s.releaseHeld o sc = false) && decide (n < 2 ^ 32) && decide (1 ≤ f.remaining) &&
     decide (f.pending + n < 2 ^ 32) && (ops (t.inCycle p.addr)).any fun _ =>
     true)))))) = true) ∧
  (∃ (s : State) (d : Dst) (x : Nat) (y : Nat) (o : Order), ((operandsReady s [.reg x, .reg y] d) &&
     (oks (objectPlace (s.xreg x) (eaPop s (.reg x) (.reg y)))).any fun qq23 =>
     (let p := qq23.1; (let t := qq23.2; (let n := (s.xreg y).toNat; decide (o ∈ [Order.relaxed, .acquire, .seqCst]) &&
     decide ((barFields t p.addr).phase ≠ n % 2 ^ 32))))) = true) ∧
  (∃ (s : State) (d : Dst) (x : Nat) (y : Nat) (o : Order), ((operandsReady s [.reg x, .reg y] d) &&
     (oks (objectPlace (s.xreg x) (eaPop s (.reg x) (.reg y)))).any fun qq23 =>
     (let p := qq23.1; (let t := qq23.2; (let n := (s.xreg y).toNat; decide (o ∈ [Order.relaxed, .acquire, .seqCst]) &&
     decide ((barFields t p.addr).phase = n % 2 ^ 32))))) = true) ∧
  (∃ (s : State) (d : Dst) (a : Src) (b : Src), ((operandsReady s [a, b] d) &&
     (oks (objectPlace (srcVal s a) (eaPop s a b))).any fun qq24 => (let p := qq24.1;
     (let t := qq24.2; (let u := setMark p.addr t; (let f := barFields u p.addr;
     (let n := (srcVal (srcPop s a) b).toNat; (let fresh := (( s.seq.barRead.all (fun r => r.1 != s.seq.pc) &&
     s.barCycle.all (fun c => !c.readers.contains s.cur)) : Bool); fresh &&
     decide (n < 2 ^ 32) && decide (f.pending + n < 2 ^ 32) && decide (t.inCycle p.addr = none)))))))) = true) ∧
  (∃ (s : State) (d : Dst) (a : Src) (b : Src), ((operandsReady s [a, b] d) &&
     (oks (objectPlace (srcVal s a) (eaPop s a b))).any fun qq24 => (let p := qq24.1;
     (let t := qq24.2; (let u := setMark p.addr t; (let f := barFields u p.addr;
     (let n := (srcVal (srcPop s a) b).toNat; (let fresh := (( s.seq.barRead.all (fun r => r.1 != s.seq.pc) &&
     s.barCycle.all (fun c => !c.readers.contains s.cur)) : Bool); fresh &&
     decide (n < 2 ^ 32) && decide (f.pending + n < 2 ^ 32) && (ops (t.inCycle p.addr)).any fun _ =>
     true))))))) = true) ∧
  (∃ (s : State) (d : Dst) (m : Nat), (decide (s.seq.barRead = some (s.seq.pc, m)) &&
     (operandsReady s [] d)) = true) :=
  ⟨⟨bar 2 2 0 7 0 true, .reg 3, 1, 2, .relaxed, .core, by decide +kernel⟩,
   ⟨cyc true, .reg 3, 1, 2, .relaxed, .core, by decide +kernel⟩,
   ⟨bar 2 2 0 7 0 true, .reg 3, 1, 2, .relaxed, by decide +kernel⟩,
   ⟨bar 2 1 4 7 7 true, .reg 3, 1, 2, .relaxed, by decide +kernel⟩,
   ⟨bar 2 2 0 7 0 true, .reg 3, .reg 1, .reg 2, by decide +kernel⟩,
   ⟨cyc true, .reg 3, .reg 1, .reg 2, by decide +kernel⟩,
   ⟨bxr, .reg 3, 5, by decide +kernel⟩⟩

/-- `Obligations.BufferHandles`: states and operands that meet its hypotheses, clause by clause. -/
theorem witness_BufferHandles :
  (∃ (s : State) (d : Dst) (a : Src), ((operandsReady s [a] d) && (oks (tablePlace (srcVal s a) 8 0x400 0x600 (srcPop s a))).any fun qq27 =>
     (let c := qq27.1.1; (let h := (qq27.1.2 - 0x400) / 8; (let t := qq27.2;
     (let w := t.handle c h; (let is := (fun (n : BufState) => (( handleState w == n) : Bool));
     (let can := (fun (n : BufState) => (( is n && !t.handleTaken c h) : Bool));
     decide (can .free)))))))) = true) ∧
  (∃ (s : State) (d : Dst) (a : Src), ((operandsReady s [a] d) && (oks (tablePlace (srcVal s a) 8 0x400 0x600 (srcPop s a))).any fun qq27 =>
     (let c := qq27.1.1; (let h := (qq27.1.2 - 0x400) / 8; (let t := qq27.2;
     (let w := t.handle c h; (let is := (fun (n : BufState) => (( handleState w == n) : Bool));
     (let can := (fun (n : BufState) => (( is n && !t.handleTaken c h) : Bool));
     decide (can .full)))))))) = true) ∧
  (∃ (s : State) (d : Dst) (a : Src), ((operandsReady s [a] d) && (oks (tablePlace (srcVal s a) 8 0x400 0x600 (srcPop s a))).any fun qq27 =>
     (let c := qq27.1.1; (let h := (qq27.1.2 - 0x400) / 8; (let t := qq27.2;
     (let w := t.handle c h; (let is := (fun (n : BufState) => (( handleState w == n) : Bool));
     (let can := (fun (n : BufState) => (( is n && !t.handleTaken c h) : Bool));
     decide (¬ can .free)))))))) = true) ∧
  (∃ (s : State) (d : Dst) (a : Src), ((operandsReady s [a] d) && (oks (tablePlace (srcVal s a) 8 0x400 0x600 (srcPop s a))).any fun qq27 =>
     (let c := qq27.1.1; (let h := (qq27.1.2 - 0x400) / 8; (let t := qq27.2;
     (let w := t.handle c h; (let is := (fun (n : BufState) => (( handleState w == n) : Bool));
     (let can := (fun (n : BufState) => (( is n && !t.handleTaken c h) : Bool));
     decide (¬ can .full)))))))) = true) ∧
  (∃ (s : State) (d : Dst) (a : Src), ((operandsReady s [a] d) && (oks (tablePlace (srcVal s a) 8 0x400 0x600 (srcPop s a))).any fun qq27 =>
     (let c := qq27.1.1; (let h := (qq27.1.2 - 0x400) / 8; (let t := qq27.2;
     (let w := t.handle c h; (let is := (fun (n : BufState) => (( handleState w == n) : Bool));
     decide (s.releaseHeld .release .device = false) && decide (is .fill))))))) = true) ∧
  (∃ (s : State) (d : Dst) (a : Src), ((operandsReady s [a] d) && (oks (tablePlace (srcVal s a) 8 0x400 0x600 (srcPop s a))).any fun qq27 =>
     (let c := qq27.1.1; (let h := (qq27.1.2 - 0x400) / 8; (let t := qq27.2;
     (let w := t.handle c h; (let is := (fun (n : BufState) => (( handleState w == n) : Bool));
     decide (s.releaseHeld .release .device = false) && decide (is .drain))))))) = true) ∧
  (∃ (s : State) (d : Dst) (a : Src), ((operandsReady s [a] d) && (oks (tablePlace (srcVal s a) 8 0x400 0x600 (srcPop s a))).any fun qq27 =>
     (let c := qq27.1.1; (let h := (qq27.1.2 - 0x400) / 8; (let t := qq27.2;
     (let w := t.handle c h; (let is := (fun (n : BufState) => (( handleState w == n) : Bool));
     decide (s.releaseHeld .release .device = false) && decide (¬ is .fill))))))) = true) ∧
  (∃ (s : State) (d : Dst) (a : Src) (st : BufState), ((operandsReady s [a] d) &&
     (oks (tablePlace (srcVal s a) 8 0x400 0x600 (srcPop s a))).any fun qq27 =>
     (let c := qq27.1.1; (let h := (qq27.1.2 - 0x400) / 8; (let t := qq27.2;
     (let w := t.handle c h; (let is := (fun (n : BufState) => (( handleState w == n) : Bool));
     (let can := (fun (n : BufState) => (( is n && !t.handleTaken c h) : Bool));
     decide (can st)))))))) = true) ∧
  (∃ (s : State) (d : Dst) (a : Src) (st : BufState), ((operandsReady s [a] d) &&
     (oks (tablePlace (srcVal s a) 8 0x400 0x600 (srcPop s a))).any fun qq27 =>
     (let c := qq27.1.1; (let h := (qq27.1.2 - 0x400) / 8; (let t := qq27.2;
     (let w := t.handle c h; (let is := (fun (n : BufState) => (( handleState w == n) : Bool));
     (let can := (fun (n : BufState) => (( is n && !t.handleTaken c h) : Bool));
     decide (¬ can st)))))))) = true) :=
  ⟨⟨hd 0, .reg 3, .reg 1, by decide +kernel⟩,
   ⟨hd 2, .reg 3, .reg 1, by decide +kernel⟩,
   ⟨hd 1, .reg 3, .reg 1, by decide +kernel⟩,
   ⟨hd 0, .reg 3, .reg 1, by decide +kernel⟩,
   ⟨hd 1, .reg 3, .reg 1, by decide +kernel⟩,
   ⟨hd 0xFFFFFFFF00000003, .reg 3, .reg 1, by decide +kernel⟩,
   ⟨hd 0, .reg 3, .reg 1, by decide +kernel⟩,
   ⟨hd 0, .reg 3, .reg 1, .free, by decide +kernel⟩,
   ⟨hd 0, .reg 3, .reg 1, .fill, by decide +kernel⟩⟩

end ScalarParts

namespace TrapParts

def mem (s : State) (a : Nat) (l : List Nat) : State := setDevBytes s a (l.map fun n => BitVec.ofNat 8 n)
def kx (x : Tab Word) : State := tState ⟨0, .K, .pipe⟩ (tCtx .K x [(0, [5])])
def kq (f : Seq → Seq) : State := (kx [(1, 1), (2, 70000)]).modSeq ⟨0, .K, .pipe⟩ f
def rc (v : Word) (p : Nat) (fd : Bool) : Rcb := { rootRcb with vector := v, parent := p, fdomain := fd }
def trp (h : Bool) (l : Tab Rcb) : State := { kq fun q => { q with handler := h, trcb := 2, hrcb := 1, hcause := 5, pc := 0x40, rem := 3 } with rcbs := l }
def rcbs1 : Tab Rcb := [(0, rc 0x900 0 true), (1, rc 0x700 0 true), (2, rc 0x500 1 false)]
def rcbs2 : Tab Rcb := [(0, rc 0 0 true), (1, rc 0 0 true), (2, rc 0 1 false)]
def dft : DefTrap := { cause := 0x10, tpc := 0x90, tval := 8, sec := 1, src := 0, deferred := true, trep := 3, order := 0 }
def arrf (k : SeqKind) (_ : Nat) : State := tState ⟨0, k, .pipe⟩ ((fun x => { x with mx := { x.mx with fault := [dft] }, rot := { x.rot with fault := some dft } }) (tCtx k [(1, 0x1000), (2, 8)] []))
def vq (f : Seq → Seq) (g : State → State) : State := g ((tState ⟨0, .V, .pipe⟩ (tCtx .V [(1, 0x1000), (2, 8)] [(0, [5])])).modSeq ⟨0, .V, .pipe⟩ f)
def sub (b : Sub) (q : SubQ) (s : State) : State := s.setSub ⟨0, .V, b⟩ q
def wd (i : VItem) : VEntry := { pc := 0x80, items := [i], complete := 0, pair := false, order := 3 }
def wdp (i : VItem) : VEntry := { pc := 0x80, items := [i, i, i], complete := 1, pair := true, order := 4 }
def vf : VFault := { cause := 0x20, tpc := 0x80, tval := 9, trep := 2, order := 3 }

/-- `Obligations.TrapEntry`: states and operands that meet its hypotheses, clause by clause. -/
theorem witness_TrapEntry :
  (∃ (s : State) (st : Stream), ((let q := s.seqOf st.pipe; decide (q.handler = false) &&
     decide (s.vectorOf q.trcb ≠ 0) && ([0, 1]).any fun c => decide (c ≠ st.core))) = true) ∧
  (∃ (s : State) (st : Stream), ((let q := s.seqOf st.pipe; decide (q.handler = false) &&
     decide (s.vectorOf q.trcb ≠ 0) && ([SeqKind.K, .V, .M, .Q]).any fun k => decide (k ≠ st.seq))) = true) :=
  ⟨⟨trp false rcbs1, ⟨0, .K, .pipe⟩, by decide +kernel⟩,
   ⟨trp false rcbs1, ⟨0, .K, .pipe⟩, by decide +kernel⟩⟩

/-- `Obligations.TcauseFields`: states and operands that meet its hypotheses, clause by clause. -/
theorem witness_TcauseFields :
  (∃ (c : Nat) (src : Nat) (sec : Nat) (r : Nat) (h : Nat), (decide (c < 1024) &&
     decide (src < 4) && decide (sec < 1024) && decide (r < 1024) && decide (h < 1024)) = true) :=
  ⟨0, 0, 0, 0, 0, by decide +kernel⟩

/-- `Obligations.TrapEscalation`: states and operands that meet its hypotheses, clause by clause. -/
theorem witness_TrapEscalation :
  (∃ (s : State) (st : Stream), ((let q := s.seqOf st.pipe; decide ((q.handler = true ∨ s.vectorOf q.trcb = 0)) &&
     (let start := if q.handler then q.hrcb else q.trcb; (ops (domainAbove s start)).any fun _ =>
     true))) = true) ∧
  (∃ (s : State) (st : Stream), ((let q := s.seqOf st.pipe; decide ((q.handler = true ∨ s.vectorOf q.trcb = 0)) &&
     (let start := if q.handler then q.hrcb else q.trcb; decide (domainAbove s start = none)))) = true) :=
  ⟨⟨trp true rcbs1, ⟨0, .K, .pipe⟩, by decide +kernel⟩,
   ⟨trp true rcbs2, ⟨0, .K, .pipe⟩, by decide +kernel⟩⟩

/-- `Obligations.NopTrapHaltYield`: states and operands that meet its hypotheses, clause by clause. -/
theorem witness_NopTrapHaltYield :
  (∃ (s : State) (a : Src), ((operandsReady s [a] .discard) && ((s.grove (groveOf s.cur.core)).preempting)) = true) ∧
  (∃ (s : State) (a : Src), ((operandsReady s [a] .discard) && decide (srcVal s a = 0) &&
     decide ((s.grove (groveOf s.cur.core)).preempting = false)) = true) ∧
  (∃ (s : State) (a : Src), ((operandsReady s [a] .discard) && decide (srcVal s a ≠ 0) &&
     decide ((s.grove (groveOf s.cur.core)).preempting = false) && decide (s.seq.yieldAt = none)) = true) :=
  ⟨⟨(kq (fun q => q)).modGrove 0 fun g => { g with pre := [.host] }, .zero, by decide +kernel⟩,
   ⟨kq fun q => q, .zero, by decide +kernel⟩,
   ⟨kq fun q => q, .reg 1, by decide +kernel⟩⟩

/-- `Obligations.RepeatPairs`: states and operands that meet its hypotheses, clause by clause. -/
theorem witness_RepeatPairs :
  (∃ (q : Seq), (decide (2 ≤ q.rem)) = true) ∧
  (∃ (q : Seq), (decide (q.rem = 1)) = true) ∧
  (∃ (q : Seq), (decide (q.rem = 0)) = true) ∧
  ((([(4 : Word)]).any fun _ => true) = true) :=
  ⟨⟨{ Seq.idle with rem := 2 }, by decide +kernel⟩,
   ⟨{ Seq.idle with rem := 1, pc := 8 }, by decide +kernel⟩,
   ⟨Seq.idle, by decide +kernel⟩,
   by decide +kernel⟩

/-- `Obligations.HandlerReturn`: states and operands that meet its hypotheses, clause by clause. -/
theorem witness_HandlerReturn :
  (∃ (s : State), ((let q := s.seq; decide (q.handler = false))) = true) ∧
  (∃ (s : State) (skip : Bool), ((let q := s.seq; (let st := s.cur.pipe;
     (let pair := (( (oke (fetchWord s st q.tpc)).any fun w => isRep w &&
     decide (q.trep ≤ repCount w)) : Bool); q.handler && decide ((q.trep = 0 ∨ q.trep ≤ 64 ∧ pair = true ∧ s.lacksWalker st q.tpc = false)) &&
     decide (q.tpc.toNat % 4 = 0) && (((if q.trep = 0 then s else afterFetch s st q.tpc) |> fun v => if skip then (oks (skipReads v)).map (·.2) else [v])).any fun _ => decide ((s.cur.seq ≠ .V ∨ fld q.tcause 12 2 = 0)))))) = true) ∧
  (∃ (s : State) (skip : Bool), ((let q := s.seq; (let st := s.cur.pipe;
     (let pair := (( (oke (fetchWord s st q.tpc)).any fun w => isRep w &&
     decide (q.trep ≤ repCount w)) : Bool); q.handler && decide ((q.trep = 0 ∨ q.trep ≤ 64 ∧ pair = true ∧ s.lacksWalker st q.tpc = false)) &&
     decide (q.tpc.toNat % 4 = 0) && (((if q.trep = 0 then s else afterFetch s st q.tpc) |> fun v => if skip then (oks (skipReads v)).map (·.2) else [v])).any fun u =>
     (let x := u.ctx s.cur.core; decide (s.cur.seq = .V) && decide (fld q.tcause 12 2 ≠ 0) &&
     (ops (x.split)).any fun _ => true))))) = true) ∧
  (∃ (s : State), ((let q := s.seq; q.handler && decide (64 < q.trep))) = true) ∧
  (∃ (s : State), ((let q := s.seq; (let st := s.cur.pipe; q.handler &&
     decide (q.trep ≠ 0) && decide (q.trep ≤ 64) && decide (s.lacksWalker st q.tpc = false) &&
     (oke (fetchWord s st q.tpc)).any fun qq3 => (let w := qq3; decide ((isRep w = false ∨ repCount w < q.trep)))))) = true) ∧
  (∃ (s : State), ((let q := s.seq; q.handler && decide (q.trep = 0) &&
     decide (q.tpc.toNat % 4 ≠ 0))) = true) :=
  ⟨⟨kq fun q => q, by decide +kernel⟩,
   ⟨kq (fun q => { q with handler := true, tpc := 0x40 }), false, by decide +kernel⟩,
   ⟨vq (fun q => { q with handler := true, tpc := 0x40, tcause := 0x2000 }) (fun s => s.modCtx 0 fun x => { x with split := some 0x60, splitRem := 2, va := { words := [wdp (.bad 3 9)], stopped := true, fault := none } }), false, by decide +kernel⟩,
   ⟨kq (fun q => { q with handler := true, trep := 65 }), by decide +kernel⟩,
   ⟨mem (kq (fun q => { q with handler := true, trep := 3, tpc := 0x40 })) 0x40 [0, 0x20, 0, 0xE0], by decide +kernel⟩,
   ⟨kq (fun q => { q with handler := true, tpc := 0x42 }), by decide +kernel⟩⟩

/-- `Obligations.FaultsBeforeExecution`: states and operands that meet its hypotheses, clause by clause. -/
theorem witness_FaultsBeforeExecution :
  (∃ (s : State), ((let first := (( match fetchWord s s.cur.pipe s.seq.pc with | .ok w => s.arrayFault (wordClass w) | .error _ => none) : Option (DefTrap × State));
     decide ((first = none ∨ s.seq.handler = true)))) = true) ∧
  (∃ (s : State), ((let first := (( match fetchWord s s.cur.pipe s.seq.pc with | .ok w => s.arrayFault (wordClass w) | .error _ => none) : Option (DefTrap × State));
     (ops (first)).any fun _ => decide (s.seq.handler = false))) = true) ∧
  (∃ (s : State) (v : Word), (decide (s.cur.sub = .pipe) && decide ((s.arrayFault (wordClass v.toNat) = none ∨ s.seq.handler = true))) = true) ∧
  (∃ (s : State) (v : Word), (decide (s.cur.sub = .pipe) && (ops (s.arrayFault (wordClass v.toNat))).any fun _ => decide (s.seq.handler = false)) = true) ∧
  (∃ (s : State), (decide (s.cur.sub ≠ .pipe) && ((s.subOf s.cur).words.take 1).any fun _ =>
     true) = true) ∧
  (∃ (s : State) (core : Nat) (seq : Nat), ((let st := (( ⟨core, SeqKind.ofCode seq, .pipe⟩) : Stream);
     (s.runs st) && decide ((s.seqOf st).handler = false) && decide ((st.seq = .M → (s.ctx core).mx.commit = none)) &&
     ((s.seqOf st).deferred.take 1).any fun _ => true)) = true) ∧
  (∃ (s : State) (core : Nat) (seq : Nat), ((let st := (( ⟨core, SeqKind.ofCode seq, .pipe⟩) : Stream);
     (s.runs st) && decide ((s.seqOf st).handler = false) && decide ((st.seq = .M → (s.ctx core).mx.commit = none)) &&
     decide ((s.seqOf st).deferred = []) && decide (st.seq = .V) && (ops ((s.ctx core).subFault)).any fun _ =>
     true)) = true) :=
  ⟨⟨kq fun q => q, by decide +kernel⟩,
   ⟨mem (arrf .M 0) 0 [0, 0, 0x80, 0x80], by decide +kernel⟩,
   ⟨kq fun q => q, 0x77, by decide +kernel⟩,
   ⟨arrf .M 0, 0x80000000, by decide +kernel⟩,
   ⟨{ vq (fun q => q) (sub .va { words := [wdp (.bad 3 9)], stopped := false, fault := none }) with cur := ⟨0, .V, .va⟩ }, by decide +kernel⟩,
   ⟨kq (fun q => { q with deferred := [dft, dft] }), 0, 0, by decide +kernel⟩,
   ⟨vq (fun q => q) (sub .vl { words := [wd (.bad 3 9)], stopped := true, fault := some vf }), 0, 1, by decide +kernel⟩⟩

/-- `Obligations.SplitPlacesWord`: states and operands that meet its hypotheses, clause by clause. -/
theorem witness_SplitPlacesWord :
  (∃ (s : State), (decide (s.cur.sub = .pipe) && (let free := (fun (sub : Sub) =>
     (( !s.seq.handler || !(s.subOf { s.cur with sub := sub }).stopped) : Bool));
     decide (free .va))) = true) ∧
  (∃ (s : State) (a : Src) (b : Src), (decide (s.cur.sub = .pipe) && (let free := (fun (sub : Sub) =>
     (( !s.seq.handler || !(s.subOf { s.cur with sub := sub }).stopped) : Bool));
     decide (free .vl) && (operandsReady s [a, b] .discard))) = true) ∧
  (∃ (s : State) (a : Src) (b : Src), (decide (s.cur.sub = .pipe) && (let free := (fun (sub : Sub) =>
     (( !s.seq.handler || !(s.subOf { s.cur with sub := sub }).stopped) : Bool));
     decide (free .vs) && (operandsReady s [a, b] .discard))) = true) ∧
  (∃ (s : State), (decide (s.cur.sub = .pipe) && s.seq.handler && decide ((s.subOf { s.cur with sub := .va }).stopped = true)) = true) :=
  ⟨⟨vq (fun q => q) id, by decide +kernel⟩,
   ⟨vq (fun q => q) id, .reg 1, .reg 2, by decide +kernel⟩,
   ⟨vq (fun q => q) id, .reg 1, .reg 2, by decide +kernel⟩,
   ⟨vq (fun q => { q with handler := true }) (sub .va { words := [], stopped := true, fault := none }), by decide +kernel⟩⟩

/-- `Obligations.SplitterEvent`: states and operands that meet its hypotheses, clause by clause. -/
theorem witness_SplitterEvent :
  (∃ (s : State) (core : Nat), ((let st := (( ⟨core, .V, .pipe⟩) : Stream);
     (let s1 := (( { s with cur := st }) : State); (let pc := s1.seq.pc;
     (s1.runs st) && decide (s1.lacksWalker st pc = false) && decide (s1.slipFull st = false) &&
     decide (s1.trapDue st = false) && decide ((s1.seq.handler = false ∨ (s1.subOf { st with sub := .va }).stopped = false)) &&
     (oke (fetchWord s1 st pc)).any fun qq8 => (let w := qq8; decide (wordClass w = 2) &&
     decide (wordLength .V w = 4) && decide (isRep w = false) && decide (checkWord .V w = none) &&
     (oke (decode .V w ⟨0, 0⟩)).any fun qq9 => (let i := qq9; decide ((vwordOf i).addr = []))))))) = true) ∧
  (∃ (s : State) (core : Nat), ((let st := (( ⟨core, .V, .pipe⟩) : Stream);
     (let s1 := (( { s with cur := st }) : State); (let pc := s1.seq.pc;
     (s1.runs st) && decide (s1.lacksWalker st pc = false) && decide (s1.slipFull st = false) &&
     decide (s1.trapDue st = false) && decide ((s1.seq.handler = false ∨ (s1.subOf { st with sub := .va }).stopped = false)) &&
     (oke (fetchWord s1 st pc)).any fun qq8 => (let w := qq8; decide (wordClass w = 2) &&
     decide (wordLength .V w = 4) && decide (isRep w = false) && (ops (checkWord .V w)).any fun _ =>
     true))))) = true) :=
  ⟨⟨mem (vq (fun q => q) id) 0 [0x30, 0x08, 0x01, 0x40], 0, by decide +kernel⟩,
   ⟨mem (vq (fun q => q) id) 0 [0x30, 0xE8, 0x01, 0x40], 0, by decide +kernel⟩⟩

end TrapParts

namespace VectorParts

def shp (f rows cols r : Nat) (sat : Bool) : BitVec 32 := BitVec.ofNat 32 (f + 16 * (rows - 1) + 1024 * (cols - 1) + r * 2 ^ 23 + sat.toNat * 2 ^ 25)
def wd (i : VItem) : VEntry := { pc := 0x80, items := [i], complete := 0, pair := false, order := 3 }
def va (b : Sub) (v : BitVec 32) (x1 x2 : Nat) : State := tState ⟨0, .V, b⟩ { (tCtx .V [(1, 0x1000), (2, 8)] [(0, [5])]) with
  vsh := v, v := [(1, BitVec.ofNat 16384 x1), (2, BitVec.ofNat 16384 x2), (3, BitVec.ofNat 16384 (2 ^ 200 - 1))], p := [(1, 0x2D), (5, 0x3)], vq := [(0, [BitVec.ofNat 16384 x2])], vl := { words := [wd (.word .nop)], stopped := false, fault := none },
   va := { words := [wd (.word .nop)], stopped := false, fault := none }, vs := { words := [wd (.word .nop)], stopped := false, fault := none } }
def f32s (l : List Nat) : Nat := packElems 32 l
def s1 : State := va .va (shp 0 2 3 0 false) (f32s [0x3FC00000, 0x7F800000, 0xC0400000, 0x7FC00000, 0x00000001, 0x4B000001]) (f32s [0x40000000, 0xFF800000, 0x40400000, 0x3F800000, 0x80000000, 0x3EAAAAAB])
def s2 : State := va .va (shp 6 2 3 0 true) (packElems 8 [127, 128, 255, 1, 64, 3]) (packElems 8 [1, 255, 128, 127, 64, 250])
def bad : State := va .va 0xA 0 0
def q1 : State := va .va (shp 0 2 16 0 false) (f32s ((List.range 32).map fun i => 0x3F800000 + i * 65537)) 0
def q2 : State := va .va (shp 3 1 32 0 false) (packElems 8 ((List.range 32).map fun i => i * 5)) (packElems 16 [0x7F])

/-- `Obligations.VectorArithmetic`: states and operands that meet its hypotheses, clause by clause. -/
theorem witness_VectorArithmetic :
  (∃ (s : State) (d : Dst) (a : Src) (b : Src) (p : BitVec 2), (decide (vaReady s anyFmt (p != 0) [a, b] d (predsOf p) = true)) = true) ∧
  (∃ (s : State) (d : Dst) (a : Src) (b : Src) (p : BitVec 2), (decide (vaReady s anyFmt (p != 0) [a, b, d.readBack] d (predsOf p) = true)) = true) ∧
  (∃ (s : State) (d : Dst) (a : Src) (b : Src) (p : BitVec 2), (decide (vaReady s floatFmt (p != 0) [a, b] d (predsOf p) = true)) = true) ∧
  (∃ (s : State) (d : Dst) (a : Src) (p : BitVec 2), (decide (vaReady s anyFmt (p != 0) [a] d (predsOf p) = true)) = true) :=
  ⟨⟨s1, .reg 3, .reg 1, .reg 2, 0, by decide +kernel⟩,
   ⟨s1, .reg 3, .reg 1, .reg 2, 0, by decide +kernel⟩,
   ⟨s1, .reg 3, .reg 1, .reg 2, 0, by decide +kernel⟩,
   ⟨s1, .reg 3, .reg 1, 0, by decide +kernel⟩⟩

/-- `Obligations.VectorSpecialFunctions`: states and operands that meet its hypotheses, clause by clause. -/
theorem witness_VectorSpecialFunctions :
  (∃ (s : State) (d : Dst) (a : Src) (h : Bool) (p : BitVec 2), (decide (vaReady s floatFmt (p != 0) [a] d (predsOf p) = true) &&
     ([(Instr.vrcp d a h p, SpecialFn.rcp), (.vrsq d a h p, .rsq), (.vexp d a h p, .exp),
     (.vlog d a h p, .log), (.vtanh d a h p, .tanh), (.vsigm d a h p, .sigm),
     (.vsin d a h p, .sin), (.vcos d a h p, .cos)]).any fun _ => true) = true) ∧
  (∃ (f : SpecialFn) (b : Bool) (m : Nat), (decide (m ≠ 0) && decide ((f = .rsq ∨ f = .log)) &&
     b) = true) ∧
  (∃ (f : SpecialFn) (b : Bool) (m : Nat) (e : Int), (decide (m ≠ 0) &&
     decide (f = .log) && decide (b = false) && ((FVal.fin false m e).eqv (.fin false 1 0))) = true) ∧
  (∃ (f : SpecialFn) (b : Bool) (m : Nat) (e : Int), (decide (m ≠ 0) &&
     (let size := fixOf false m e; decide ((f = .rsq ∨ f = .log → b = false)) &&
     decide ((f = .log → (FVal.fin b m e).eqv (.fin false 1 0) = false)) &&
     decide ((f = .exp → size ≤ 120 * fixOne)))) = true) :=
  ⟨⟨s1, .reg 3, .reg 1, false, 0, by decide +kernel⟩,
   ⟨.log, true, 1, by decide +kernel⟩,
   ⟨.log, false, 1, 0, by decide +kernel⟩,
   ⟨.log, false, 3, 0, by decide +kernel⟩⟩

/-- `Obligations.VectorBitsAndPredicates`: states and operands that meet its hypotheses, clause by clause. -/
theorem witness_VectorBitsAndPredicates :
  (∃ (s : State) (d : Dst) (a : Src) (b : Src) (p : BitVec 2), (decide (vaReady s anyFmt (p != 0) [a, b] d (predsOf p) = true)) = true) ∧
  (∃ (s : State) (d : Dst) (a : Src) (p : BitVec 2), (decide (vaReady s anyFmt (p != 0) [a] d (predsOf p) = true)) = true) ∧
  (∃ (s : State) (d : Dst) (a : Src) (b : Src) (p : BitVec 2), (decide (vaReady s intFmt (p != 0) [a, b] d (predsOf p) = true)) = true) ∧
  (∃ (s : State) (d : Dst) (a : Src) (p : BitVec 2), (decide (vaReady s intFmt (p != 0) [a] d (predsOf p) = true)) = true) ∧
  (∃ (s : State) (a : Src) (b : Src) (p : BitVec 2), ((vaReady s anyFmt true [a, b] .discard (predsOf p))) = true) ∧
  (∃ (s : State) (d : Dst) (a : Src) (b : Src) (p : BitVec 2), ((vaReady s anyFmt true [a, b] d (predsOf p))) = true) ∧
  (∃ (s : State) (a : Src) (p : BitVec 2), ((vaReady s floatFmt true [a] .discard (predsOf p))) = true) ∧
  (∃ (s : State) (a : Src) (t : BitVec 3) (u : BitVec 3) (o : PsetOp), ((let reads := (if psetReads o then [u.toNat] else []) ++ if psetReadsTwo o then [t.toNat] else [];
     (vaReady s anyFmt true [] .discard reads) && (vecReady s.here [a] .discard) &&
     decide (o ≠ .first))) = true) ∧
  (∃ (s : State) (a : Src), ((vaReady s anyFmt true [] .discard) && (vecReady s.here [a] .discard) &&
     (tileOk 8 s a)) = true) :=
  ⟨⟨s1, .reg 3, .reg 1, .reg 2, 0, by decide +kernel⟩,
   ⟨s1, .reg 3, .reg 1, 0, by decide +kernel⟩,
   ⟨s2, .reg 3, .reg 1, .reg 2, 0, by decide +kernel⟩,
   ⟨s2, .reg 3, .reg 1, 0, by decide +kernel⟩,
   ⟨s1, .reg 1, .reg 2, 0, by decide +kernel⟩,
   ⟨s1, .reg 3, .reg 1, .reg 2, 0, by decide +kernel⟩,
   ⟨s1, .reg 1, 0, by decide +kernel⟩,
   ⟨s1, .reg 1, 1, 1, .all, by decide +kernel⟩,
   ⟨s1, .reg 1, by decide +kernel⟩⟩

/-- `Obligations.VectorConversions`: states and operands that meet its hypotheses, clause by clause. -/
theorem witness_VectorConversions :
  (∃ (s : State) (d : Dst) (a : Src) (y : Policy) (t : NumFmt), ((let sh := s.shape;
     (let n := sh.n; (let u := elemsVal sh.w n s a; (vaReady s anyFmt false [a] d) &&
     decide (n * t.width ≤ 16384) && (oke (convertAll sh.fmt t sh.rnd y u)).any fun _ =>
     true)))) = true) ∧
  (∃ (s : State) (d : Dst) (a : Src) (y : Policy) (ax : Axis) (o : RedOp),
     ((let sh := s.shape; (let n := sh.n; (let u := elemsVal sh.w n s a;
     (let seg := (fun (v : List Nat) => (( v.map fun i => redIn sh (u.getD i 0)) : List Nat));
     (let narrow := (fun (l : List Nat) => (( if sh.fmt.isFloat then oke (convertAll .fp32 sh.fmt .rne y l) else [l]) : List (List Nat)));
     (vaReady s anyFmt false [a] d) && (narrow ((segments' sh ax).map fun v => treeFold (redNode sh o) 13 (seg v))).any fun _ =>
     true)))))) = true) ∧
  (∃ (s : State) (d : Dst) (a : Src) (x : Bool) (y : Policy), ((let sh := s.shape;
     (let n := sh.n; (let u := elemsVal sh.w n s a; (let seg := (fun (v : List Nat) =>
     (( v.map fun i => redIn sh (u.getD i 0)) : List Nat)); (let narrow := (fun (l : List Nat) =>
     (( if sh.fmt.isFloat then oke (convertAll .fp32 sh.fmt .rne y l) else [l]) : List (List Nat)));
     (vaReady s anyFmt false [a] d) && (narrow ((segments' sh (if x then .row else .all)).flatMap fun v => scanList sh (seg v))).any fun _ =>
     true)))))) = true) ∧
  (∃ (s : State) (d : Dst) (a : Src) (w : BitVec 3), ((let sh := s.shape;
     (let n := sh.n; (vaReady s widenFmt false [a] d) && decide (512 * w.toNat < n)))) = true) ∧
  (∃ (s : State) (d : Dst) (a : Src), (decide (vaReady s (· == .fp32) false [a] d = true)) = true) ∧
  (∃ (s : State) (d : Dst) (a : Src), ((let sh := s.shape; (let n := sh.n;
     decide (vaReady s (fun z => z == .fp32 || z == .bf16) false [a] d = true) &&
     decide (n % 32 = 0)))) = true) ∧
  (∃ (s : State) (d : Dst) (a : Src) (b : Src), ((let sh := s.shape; (let n := sh.n;
     decide (vaReady s (fun z => z == .e4m3 || z == .int8) false [a] d = true) &&
     (vecReady s.here [a, b] d) && (tileOk (elemBytes 16 (n / 32)) s b) &&
     decide (n % 32 = 0) && decide (n ≤ 512)))) = true) :=
  ⟨⟨s1, .reg 3, .reg 1, .saturate, .fp32, by decide +kernel⟩,
   ⟨s1, .reg 3, .reg 1, .saturate, .all, .add, by decide +kernel⟩,
   ⟨s1, .reg 3, .reg 1, false, .saturate, by decide +kernel⟩,
   ⟨s2, .reg 3, .reg 1, 0, by decide +kernel⟩,
   ⟨s1, .reg 3, .reg 1, by decide +kernel⟩,
   ⟨q1, .reg 3, .reg 1, by decide +kernel⟩,
   ⟨q2, .reg 3, .reg 1, .reg 2, by decide +kernel⟩⟩

/-- `Obligations.VectorMovement`: states and operands that meet its hypotheses, clause by clause. -/
theorem witness_VectorMovement :
  (∃ (s : State) (d : Dst) (a : Src), ((vaReady s anyFmt false [a] d)) = true) ∧
  (∃ (s : State) (d : Dst) (a : Src) (b : Src) (p : BitVec 2), ((let sh := s.shape;
     (let n := sh.n; decide (vaReady s anyFmt (p != 0) [a] d (predsOf p) = true) &&
     (vecReady s.here [a, b] d) && (tileOk (elemBytes 16 n) s b) && decide (n ≤ 1024)))) = true) ∧
  (∃ (s : State) (d : Dst) (p : BitVec 2), (decide (vaReady s anyFmt (p != 0) [] d (predsOf p) = true)) = true) ∧
  (∃ (s : State) (d : Dst) (a : Src), ((vaReady s anyFmt false [] d) &&
     (vecReady s.here [a] d) && (tileOk 2048 s a) && decide ((a = .reg 1))) = true) ∧
  (∃ (s : State) (d : Dst) (a : Src) (p : BitVec 2), (decide (vaReady s anyFmt (p != 0) [a] d (predsOf p) = true) &&
     decide ((p ≠ 0 ∨ a ≠ .reg 1))) = true) ∧
  (∃ (s : State) (a : Src), (decide (s.cur.sub ≠ .pipe) && (vecReady s.here [a] .discard) &&
     (tileOk 8 s a) && (let v := controlVal s a; (validShape v.toNat))) = true) ∧
  (∃ (s : State) (a : Src), (decide (s.cur.sub ≠ .pipe) && (vecReady s.here [a] .discard) &&
     (tileOk 8 s a) && (let v := controlVal s a; decide (validShape v.toNat = false))) = true) ∧
  (∃ (s : State), (decide (s.cur.sub ≠ .pipe) && decide (validShape s.here.vsh.toNat = false)) = true) :=
  ⟨⟨s1, .reg 3, .reg 1, by decide +kernel⟩,
   ⟨s1, .reg 3, .reg 1, .reg 2, 0, by decide +kernel⟩,
   ⟨s1, .reg 3, 0, by decide +kernel⟩,
   ⟨s1, .reg 3, .reg 1, by decide +kernel⟩,
   ⟨s1, .reg 3, .reg 1, 1, by decide +kernel⟩,
   ⟨s1, .lit64 0x7CF1, by decide +kernel⟩,
   ⟨s1, .reg 1, by decide +kernel⟩,
   ⟨bad, by decide +kernel⟩⟩

end VectorParts

namespace VectorMemory

def mem (s : State) (a : Nat) (l : List Nat) : State := setDevBytes s a (l.map fun n => BitVec.ofNat 8 n)
def wd (i : VItem) : VEntry := { pc := 0x80, items := [i], complete := 0, pair := false, order := 3 }
def va (b : Sub) (x1 x2 : Word) (tile : Nat) : State := tState ⟨0, .V, b⟩ { (tCtx .V [(1, x1), (2, x2)] [(0, [5])]) with
  v := [(3, BitVec.ofNat 16384 tile)], p := [(1, 0x2D), (5, 0x3)], vq := [(0, [BitVec.ofNat 16384 77])], vl := { words := [wd (.word .nop)], stopped := false, fault := none },
   va := { words := [wd (.word .nop)], stopped := false, fault := none }, vs := { words := [wd (.word .nop)], stopped := false, fault := none } }
def big : List Nat := (List.range 600).map fun i => (i * 7 + 3) % 256
def t1 : Nat := ofBytes (toBytes 2048 (3 ^ 10000))
def s1 : State := mem (va .vl 0x1000 0x20 0) 0x1000 big
def s2 : State := mem (va .vl 0xFF00800000000000 0x100000000000040 0) 0x800000000000 big
def v6 : State := va .vs 0xFF00800000000000 0xFF00800000002000 t1
def acc (n : Nat) : State := (va .vl 0xFF00800002000000 0x80 0).modCtx 0 fun x => { x with mx := { x.mx with acc := (List.range n).map fun k => (k, BitVec.ofNat 1024 (5 ^ (k + 3) * 7)) } }
def v4 : State := va .vs 0xFF00800000000000 0x4 t1

/-- `Obligations.VectorLoadsAndStores`: states and operands that meet its hypotheses, clause by clause. -/
theorem witness_VectorLoadsAndStores :
  (∃ (s : State) (d : Dst) (a : Src) (b : Src) (f : BitVec 3), (decide (s.cur.sub ≠ .pipe) &&
     (vecReady s.here [] d) && (hasEntry s a) && (hasEntry (srcTake s a) b) &&
     (let s2 := eaTake s a b; (let ea := srcVal s a + srcVal (srcTake s a) b;
     (oks (loadPieces [(ea, beatBytes f)] s2)).any fun _ => true))) = true) ∧
  (∃ (s : State) (d : Dst) (a : Src) (b : Src), (decide (s.cur.sub ≠ .pipe) &&
     (vecReady s.here [] d) && (hasEntry s a) && (hasEntry (srcTake s a) b) &&
     (let s2 := eaTake s a b; (let ea := srcVal s a + srcVal (srcTake s a) b;
     (oks (loadPieces [(ea, 2048)] s2)).any fun _ => true))) = true) ∧
  (∃ (s : State) (d : Dst) (a : Src) (b : Src) (f : BitVec 3), (decide (s.cur.sub ≠ .pipe) &&
     (vecReady s.here [] d) && (hasEntry s a) && (hasEntry (srcTake s a) b) &&
     (let s2 := eaTake s a b; (let ea := srcVal s a + srcVal (srcTake s a) b;
     (oks (loadPieces [(ea, 32 * 2 ^ f.toNat)] s2)).any fun _ => true))) = true) ∧
  (∃ (s : State) (d : Dst) (a : Src) (b : Src) (w : WidenSrc), (decide (s.cur.sub ≠ .pipe) &&
     (vecReady s.here [] d) && (hasEntry s a) && (hasEntry (srcTake s a) b) &&
     (let s2 := eaTake s a b; (let ea := srcVal s a + srcVal (srcTake s a) b;
     (oks (loadPieces [(ea, 64 * (WidenSrc.fmt w).width)] s2)).any fun _ =>
     true))) = true) ∧
  (∃ (s : State) (d : Dst) (a : Src) (b : Src) (_ : List Word), (decide (s.cur.sub ≠ .pipe) &&
     (vecReady s.here [] d) && (hasEntry s a) && (hasEntry (srcTake s a) b) &&
     (let s2 := eaTake s a b; (let x := srcVal s a; (let y := srcVal (srcTake s a) b;
     (let rows := fld y 32 6 + 1; (let len := 32 * (fld y 38 6 + 1); decide (fld y 44 20 = 0) &&
     decide (rows * len ≤ 2048) && (oks (loadPieces ((List.range rows).map fun i =>
     (x + BitVec.ofNat 64 i * BitVec.ofInt 64 (sextInt 32 (fld y 0 32)),
     len)) s2)).any fun _ => true)))))) = true) ∧
  (∃ (s : State) (d : Dst) (a : Src) (b : Src) (g : BitVec 4), (decide (s.cur.sub ≠ .pipe) &&
     (vecReady s.here [] d) && (hasEntry s a) && (hasEntry (srcTake s a) b) &&
     (oks (indexedRows a b g s)).any fun qq7 => (let i := qq7.1.1; (let r := qq7.1.2;
     (let u := qq7.2; (oks (loadPieces (i.map fun v => (v, r)) u)).any fun _ =>
     true)))) = true) ∧
  (∃ (s : State) (d : Dst) (a : Src) (b : Src) (snap : Bool) (at_ : AccType),
     (decide (s.cur.sub ≠ .pipe) && (vecReady s.here [] d) && (hasEntry s a) &&
     (hasEntry (srcTake s a) b) && (let s2 := eaTake s a b; (let ea := srcVal s a + srcVal (srcTake s a) b;
     (let len := if at_ = .raw then 2048 else 4096; decide ((oks (accAddr ea len s2)).length = 1) &&
     (oks (access s2.me .accum .read ea len 128 s2)).any fun qq9 => (let p := qq9.1;
     (let u := qq9.2; decide ((snap = false → u.placeWaits s2.me p len = false)) &&
     (oks (readPlace s2.me p len u)).any fun _ => decide (at_ = .raw))))))) = true) ∧
  (∃ (s : State) (d : Dst) (a : Src) (b : Src) (c : Bool) (snap : Bool) (at_ : AccType),
     (decide (s.cur.sub ≠ .pipe) && (vecReady s.here [] d) && (hasEntry s a) &&
     (hasEntry (srcTake s a) b) && (let s2 := eaTake s a b; (let ea := srcVal s a + srcVal (srcTake s a) b;
     (let len := if at_ = .raw then 2048 else 4096; decide ((oks (accAddr ea len s2)).length = 1) &&
     (oks (access s2.me .accum .read ea len 128 s2)).any fun qq9 => (let p := qq9.1;
     (let u := qq9.2; decide ((snap = false → u.placeWaits s2.me p len = false)) &&
     (oks (readPlace s2.me p len u)).any fun qq10 => (let l := qq10.1; (ops (accFmt at_)).any fun qq19 =>
     (let fm := qq19; (oke (convertAll .fp32 fm .rne (if c then .trap else .saturate) (elemsOf 32 1024 (ofBytes l)))).any fun _ =>
     true)))))))) = true) ∧
  (∃ (s : State) (d : Dst) (a : Src) (b : Src) (f : BitVec 3), (decide (s.cur.sub ≠ .pipe) &&
     (vecReady s.here [d.asSrc] .discard) && (tileOk 2048 s d.asSrc) &&
     (let tile := tileVal s d.asSrc; (let v := tilePop 2048 s d.asSrc; (hasEntry v a) &&
     (hasEntry (srcTake v a) b) && (let s2 := eaTake v a b; (let ea := srcVal v a + srcVal (srcTake v a) b;
     (oks (storePieces .tile [(ea, toBytes (beatBytes f) tile)] s2)).any fun _ =>
     true))))) = true) ∧
  (∃ (s : State) (d : Dst) (a : Src) (b : Src) (sc : Scope), (decide (s.cur.sub ≠ .pipe) &&
     (vecReady s.here [d.asSrc] .discard) && (tileOk 2048 s d.asSrc) &&
     (let tile := tileVal s d.asSrc; (let v := tilePop 2048 s d.asSrc; (hasEntry v a) &&
     (hasEntry (srcTake v a) b) && (let s2 := eaTake v a b; (let ea := srcVal v a + srcVal (srcTake v a) b;
     decide (v.releaseHeld .release sc = false) && (oks (storePieces .tile [(ea, toBytes 2048 tile)] s2)).any fun _ =>
     true))))) = true) ∧
  (∃ (s : State) (d : Dst) (a : Src) (b : Src) (pol : Policy) (fm : StoreFmt),
     (decide (s.cur.sub ≠ .pipe) && (vecReady s.here [d.asSrc] .discard) &&
     (tileOk 2048 s d.asSrc) && (let tile := tileVal s d.asSrc; (let v := tilePop 2048 s d.asSrc;
     (hasEntry v a) && (hasEntry (srcTake v a) b) && (let s2 := eaTake v a b;
     (let ea := srcVal v a + srcVal (srcTake v a) b; (oke (convertAll .fp32 (StoreFmt.fmt fm) .rne pol (elemsOf 32 512 tile))).any fun qq14 =>
     (let e := qq14; (oks (storePieces .vector [(ea, toBytes (64 * (StoreFmt.fmt fm).width) (packElems (StoreFmt.fmt fm).width e))] s2)).any fun _ =>
     true)))))) = true) ∧
  (∃ (s : State) (d : Dst) (a : Src) (b : Src) (g : BitVec 4), (decide (s.cur.sub ≠ .pipe) &&
     (vecReady s.here [d.asSrc] .discard) && (tileOk 2048 s d.asSrc) &&
     (let tile := tileVal s d.asSrc; (let v := tilePop 2048 s d.asSrc; (hasEntry v a) &&
     (hasEntry (srcTake v a) b) && (oks (indexedRows a b g v)).any fun qq16 =>
     (let i := qq16.1.1; (let r := qq16.1.2; (let u := qq16.2; (oks (storePieces .vector (i.zipIdx.map fun q =>
     (q.1, toBytes r (tile / 2 ^ (8 * r * q.2)))) u)).any fun _ => true)))))) = true) ∧
  (∃ (s : State) (d : Dst) (a : Src) (b : Src), (decide (s.cur.sub ≠ .pipe) &&
     (vecReady s.here [d.asSrc] .discard) && (tileOk 2048 s d.asSrc) &&
     (let tile := tileVal s d.asSrc; (let v := tilePop 2048 s d.asSrc; (hasEntry v a) &&
     (hasEntry (srcTake v a) b) && (let s2 := eaTake v a b; (let ea := srcVal v a + srcVal (srcTake v a) b;
     decide ((oks (accAddr ea 2048 s2)).length = 1) && (oks (store s2.me .accum ea (toBytes 2048 tile) 128 s2)).any fun _ =>
     true))))) = true) ∧
  (∃ (s : State) (d : Dst) (a : Src) (b : Src) (k : BitVec 3), (decide (s.cur.sub ≠ .pipe) &&
     (vecReady s.here [d.asSrc] .discard) && (tileOk 2048 s d.asSrc) &&
     (let v := tilePop 2048 s d.asSrc; (hasEntry v a) && (hasEntry (srcTake v a) b) &&
     (let s2 := eaTake v a b; (let y := srcVal (srcTake v a) b; (let n := 2048 / y.toNat;
     decide (y.toNat ∈ [1, 2, 4, 8]) && (predOk n s2 k.toNat) && (oks (probe s2.me .vector .write (srcVal v a) 2048 32 (predPop n s2 k.toNat))).any fun qq18 =>
     (let p := qq18.1; decide ((p.host = true ∨ p.addr + 2048 ≤ 0x6000000000 ∨ (0x800000000000 ≤ p.addr ∧ p.addr + 2048 ≤ 0x810000000000 ∧ p.addr / 2 ^ 24 % 16 = 0 ∧ p.addr % 2 ^ 24 + 2048 ≤ 0x100000))))))))) = true) :=
  ⟨⟨s1, .reg 3, .reg 1, .reg 2, 0, by decide +kernel⟩,
   ⟨s1, .reg 3, .reg 1, .reg 2, by decide +kernel⟩,
   ⟨s1, .reg 3, .reg 1, .reg 2, 0, by decide +kernel⟩,
   ⟨s1, .reg 3, .reg 1, .reg 2, .bf16, by decide +kernel⟩,
   ⟨s1, .reg 3, .reg 1, .reg 2, [], by decide +kernel⟩,
   ⟨v6, .reg 3, .reg 1, .reg 2, 0, by decide +kernel⟩,
   ⟨acc 3, .reg 3, .reg 1, .reg 2, false, .raw, by decide +kernel⟩,
   ⟨acc 3, .reg 3, .reg 1, .reg 2, false, false, .bf16, by decide +kernel⟩,
   ⟨s1, .reg 3, .reg 1, .reg 2, 0, by decide +kernel⟩,
   ⟨s1, .reg 3, .reg 1, .reg 2, .core, by decide +kernel⟩,
   ⟨s1, .reg 3, .reg 1, .reg 2, .saturate, .e5m2, by decide +kernel⟩,
   ⟨v6, .reg 3, .reg 1, .reg 2, 0, by decide +kernel⟩,
   ⟨acc 3, .reg 3, .reg 1, .reg 2, by decide +kernel⟩,
   ⟨v4, .reg 3, .reg 1, .reg 2, 0, by decide +kernel⟩⟩

end VectorMemory

namespace MatrixParts

def mem (s : State) (a : Nat) (l : List Nat) : State := setDevBytes s a (l.map fun n => BitVec.ofNat 8 n)
def ms (f : Matrix → Matrix) : State := (tState ⟨0, .M, .pipe⟩ (tCtx .M [(1, 0x1000), (2, 0x20)] [(0, [5])])).withMx f
def img (v : Nat) : List Nat := (toBytes 64 v).map (·.toNat)
def aSt : Nat := 0x4000 + 2 * 2 ^ 64 + 128 * 2 ^ 128 + 32 * 2 ^ 192 + 64 * 2 ^ 224
def bSt : Nat := 6 * 2 ^ 64 + 2 ^ 68 + 2048 * 2 ^ 128 + 2048 * 2 ^ 160 + 2 * 2 ^ 192 + 2 * 2 ^ 224
def m0 : State := mem (ms id) 0x1000 (img 0)
def m1 : State := mem (ms fun m => { m with pairs := [⟨1, 0, 5⟩] }) 0x1000 (img aSt)
def m2 : State := mem (ms fun m => { m with group := some (1, 7) }) 0x1000 (img (3 * 2 ^ 20))
def sv (n : Nat) : BitVec 512 := BitVec.ofNat 512 n
def nt0 : BitVec 512 := 0#512 + BitVec.ofNat 512 (0 + 1 * 2 ^ 4 + 1 * 2 ^ 20 + 2 ^ 14 * 7 + 1 * 2 ^ 128 + 2 ^ (144 + 8) + 2^(144+32))
def aI8 : Nat := 0x4000 + 6 * 2 ^ 64 + 64 * 2 ^ 128 + 32 * 2 ^ 192 + 64 * 2 ^ 224
def wk : State := ms fun m => { m with s := [(0, sv aI8), (1, sv bSt)], table := nt0, tag0 := ⟨6, false, true⟩ }
def wk1 : State := wk.withMx fun m => { m with nest := some ⟨nt0, sv aI8, sv bSt, 0, 1, ⟨0x80, 2⟩, none, none, none, false, none⟩ }
def wk2 : State := wk.withMx fun m => { m with queue := [.sel 1], pairs := [⟨1, 0, 5⟩] }
def wk3 : State := wk.withMx fun m => { m with table := 0 }
def kk (f : Matrix → Matrix) : State := wk.withMx f
def stp : TileStep := TileStep.mk 6 ((List.range 2048).map (· % 256)) (List.replicate 2048 0x7F00) false ⟨BitVec.ofNat 16384 (5 ^ 7000), 0, 0, 6, false, true⟩ .wrap false 0 0 0 0 30 none
def qload : List MxOp → List (Nat × BitVec 512 × Nat × Nat × List MxOp)
  | .load b x ti tj _ :: q => [(b, x, ti, tj, q)]
  | _ => []
def qstep : List MxOp → List (TileStep × List MxOp)
  | .step t :: q => [(t, q)]
  | _ => []
def hds : List Nat → List (Nat × List Nat)
  | x :: l => [(x, l)]
  | _ => []
def ntBcast : BitVec 512 := nt0 ||| BitVec.ofNat 512 (2 ^ 22)
def wkp : State := wk.withMx fun m => { m with pairs := [⟨1, 0, 4⟩] }
def wkb : State := wkp.withMx fun m => { m with queue := [.step stp] }
def ev0 : State := kk fun m => { m with queue := [.load 1 (sv bSt) 1 0 ⟨0x80, 2⟩, .sel 1] }
def ev1 : State := kk fun m => { m with queue := [.step stp, .step { stp with row := 0 }] }
def ev2 : State := kk fun m => { m with nest := some ⟨nt0, sv aI8, sv bSt, 0, 1, ⟨0x80, 2⟩, none, none, some (0, 0), false, none⟩ }
def ev4 : State := kk fun m => { m with nest := some ⟨ntBcast, sv aI8, sv bSt, 0, 1, ⟨0x80, 2⟩, none, none, none, false, none⟩, group := some (1, 0) }
def ev6 : State := kk fun m => { m with queue := [.step { stp with row := 31 }] }
def ev7 : State := kk fun m => { m with nest := some ⟨nt0, sv aI8, sv bSt, 0, 1, ⟨0x80, 2⟩, none, none, none, false, some 1⟩ }
def ev3 : State := (kk fun m => { m with nest := some ⟨nt0, sv aI8, sv bSt, 0, 1, ⟨0x80, 2⟩, none, none, none, true, none⟩, group := some (1, 0) })

/-- `Obligations.MatrixRegistersAndGroups`: states and operands that meet its hypotheses, clause by clause. -/
theorem witness_MatrixRegistersAndGroups :
  (∃ (s : State) (a : Src), ((operandsReady s [a] .discard) && decide ((s.here.mx.fault = [] ∨ s.seq.handler = true)) &&
     (let s1 := srcPop s a; (oks (load s1.me .vector (srcVal s a) 64 64 s1)).any fun qq1 =>
     (let l := qq1.1; (let v := (( BitVec.ofNat 512 (ofBytes l)) : BitVec 512);
     decide (streamMalformed v = false))))) = true) ∧
  (∃ (s : State) (a : Src), ((operandsReady s [a] .discard) && decide ((s.here.mx.fault = [] ∨ s.seq.handler = true)) &&
     (let s1 := srcPop s a; (oks (load s1.me .vector (srcVal s a) 64 64 s1)).any fun qq1 =>
     (let l := qq1.1; (let v := (( BitVec.ofNat 512 (ofBytes l)) : BitVec 512);
     (streamMalformed v))))) = true) ∧
  (∃ (s : State) (a : Src), ((operandsReady s [a] .discard) && decide ((s.here.mx.fault = [] ∨ s.seq.handler = true)) &&
     (let s1 := srcPop s a; (oks (load s1.me .vector (srcVal s a) 64 64 s1)).any fun qq1 =>
     (let l := qq1.1; (let v := (( BitVec.ofNat 512 (ofBytes l)) : BitVec 512);
     decide (tableMalformed v = false))))) = true) ∧
  (∃ (s : State) (a : Src), ((operandsReady s [a] .discard) && decide ((s.here.mx.fault = [] ∨ s.seq.handler = true)) &&
     (let s1 := srcPop s a; (oks (load s1.me .vector (srcVal s a) 64 64 s1)).any fun qq1 =>
     (let l := qq1.1; (let v := (( BitVec.ofNat 512 (ofBytes l)) : BitVec 512);
     (tableMalformed v))))) = true) ∧
  (∃ (s : State) (a : Src), ((operandsReady s [a] .discard) && decide ((s.here.mx.fault = [] ∨ s.seq.handler = true)) &&
     (let s1 := srcPop s a; decide (s.here.mx.loading = false) && (oks (load s1.me .vector (srcVal s a) 32 32 s1)).any fun _ =>
     true)) = true) ∧
  (∃ (s : State) (h : BitVec 2) (c : BitVec 2), ((let m := s.here.mx; (let takes := (fun (b : Nat) =>
     (( m.pairs.any fun q => q.shadow == b || q.base == b) : Bool)); decide ((s.here.mx.fault = [] ∨ s.seq.handler = true)) &&
     decide (h ≠ c) && decide (takes h.toNat = false) && decide (takes c.toNat = false) &&
     decide (m.busy h.toNat = false)))) = true) ∧
  (∃ (s : State) (h : BitVec 2) (c : BitVec 2), ((let m := s.here.mx; (let takes := (fun (b : Nat) =>
     (( m.pairs.any fun q => q.shadow == b || q.base == b) : Bool)); decide ((s.here.mx.fault = [] ∨ s.seq.handler = true)) &&
     decide ((h = c ∨ takes h.toNat = true ∨ takes c.toNat = true ∨ m.busy h.toNat = true))))) = true) ∧
  (∃ (s : State) (c : BitVec 2), ((let m := s.here.mx; (ops (m.pairs.find? (fun q => q.base == c.toNat))).any fun qq4 =>
     (let p := qq4; (let free := !({ m with commit := none }.busy p.base || { m with commit := none }.busy p.shadow);
     decide ((s.here.mx.fault = [] ∨ s.seq.handler = true)) && free)))) = true) ∧
  (∃ (s : State) (c : BitVec 2), ((let m := s.here.mx; (ops (m.pairs.find? (fun q => q.base == c.toNat))).any fun qq4 =>
     (let p := qq4; (let free := !({ m with commit := none }.busy p.base || { m with commit := none }.busy p.shadow);
     decide ((s.here.mx.fault = [] ∨ s.seq.handler = true)) && decide (free = false))))) = true) ∧
  (∃ (s : State) (c : BitVec 2), ((let m := s.here.mx; (ops (m.pairs.find? (fun q => q.base == c.toNat))).any fun qq4 =>
     (let p := qq4; (let free := !({ m with commit := none }.busy p.base || { m with commit := none }.busy p.shadow);
     (let on := m.commitFrom c.toNat; decide ((s.here.mx.fault = [] ∨ s.seq.handler = true) ∨ on.isSome = true) &&
     decide (free = false)))))) = true) ∧
  (∃ (s : State) (c : BitVec 2), ((let m := s.here.mx; (ops (m.pairs.find? (fun q => q.base == c.toNat))).any fun qq4 =>
     (let p := qq4; (let free := !({ m with commit := none }.busy p.base || { m with commit := none }.busy p.shadow);
     (let on := m.commitFrom c.toNat; decide ((s.here.mx.fault = [] ∨ s.seq.handler = true) ∨ on.isSome = true) &&
     free))))) = true) ∧
  (∃ (s : State) (c : BitVec 2), ((let m := s.here.mx; decide ((s.here.mx.fault = [] ∨ s.seq.handler = true)) &&
     decide (m.pairs.find? (fun q => q.base == c.toNat) = none))) = true) ∧
  (∃ (s : State) (g : BitVec 2), ((let m := s.here.mx; decide ((s.here.mx.fault = [] ∨ s.seq.handler = true)) &&
     decide (m.group = none) && decide (groupBusy s (groveOf s.cur.core) g.toNat = false))) = true) ∧
  (∃ (s : State), ((let m := s.here.mx; decide ((s.here.mx.fault = [] ∨ s.seq.handler = true)) &&
     decide (m.group ≠ none))) = true) ∧
  (∃ (s : State), ((let m := s.here.mx; decide ((s.here.mx.fault = [] ∨ s.seq.handler = true)) &&
     decide (m.group = none))) = true) ∧
  (∃ (s : State), ((let m := s.here.mx; decide ((s.here.mx.fault = [] ∨ s.seq.handler = true)) &&
     (ops (m.group)).any fun qq5 => (let i := qq5.1; decide (groupBusy s (groveOf s.cur.core) i = false)))) = true) ∧
  (∃ (s : State) (d : Dst), ((let m := s.here.mx; decide ((s.here.mx.fault = [] ∨ s.seq.handler = true)) &&
     (operandsReady s [] d) && decide ((s.seq.detm = false ∨ m.idle = true)))) = true) :=
  ⟨⟨m1, .reg 1, by decide +kernel⟩,
   ⟨m0, .reg 1, by decide +kernel⟩,
   ⟨m0, .reg 1, by decide +kernel⟩,
   ⟨m2, .reg 1, by decide +kernel⟩,
   ⟨m0, .reg 1, by decide +kernel⟩,
   ⟨m0, 0, 1, by decide +kernel⟩,
   ⟨m0, 0, 0, by decide +kernel⟩,
   ⟨m1, 0, by decide +kernel⟩,
   ⟨wkb, 0, by decide +kernel⟩,
   ⟨wkb, 0, by decide +kernel⟩,
   ⟨m1, 0, by decide +kernel⟩,
   ⟨m0, 0, by decide +kernel⟩,
   ⟨m0, 0, by decide +kernel⟩,
   ⟨m2, by decide +kernel⟩,
   ⟨m0, by decide +kernel⟩,
   ⟨m2, by decide +kernel⟩,
   ⟨m0, .reg 3, by decide +kernel⟩⟩

/-- `Obligations.MatrixWork`: states and operands that meet its hypotheses, clause by clause. -/
theorem witness_MatrixWork :
  (∃ (s : State), (decide ((s.here.mx.fault = [] ∨ s.seq.handler = true)) &&
     (let m := s.here.mx; decide (m.nest = none) && decide (m.draining < 2) &&
     decide (mgoCheck m = none))) = true) ∧
  (∃ (s : State), (decide ((s.here.mx.fault = [] ∨ s.seq.handler = true)) &&
     (let m := s.here.mx; decide (m.nest = none) && decide (m.draining < 2) &&
     (ops (mgoCheck m)).any fun _ => true)) = true) ∧
  (∃ (s : State), (decide ((s.here.mx.fault = [] ∨ s.seq.handler = true)) &&
     (let m := s.here.mx; decide ((m.nest ≠ none ∨ 2 ≤ m.draining)))) = true) ∧
  (∃ (s : State), (decide ((s.here.mx.fault = [] ∨ s.seq.handler = true)) &&
     (let m := s.here.mx; decide (m.nest = none) && decide (m.queue = []) &&
     decide (m.behind = []))) = true) ∧
  (∃ (s : State), (decide ((s.here.mx.fault = [] ∨ s.seq.handler = true)) &&
     (let m := s.here.mx; decide (m.nest ≠ none ∨ m.queue ≠ [] ∨ m.behind ≠ []))) = true) ∧
  (∃ (s : State) (n : BitVec 2) (k : BitVec 4) (b : Src) (mode : AccMode),
     (decide ((s.here.mx.fault = [] ∨ s.seq.handler = true)) && (let m := s.here.mx;
     (operandsReady s [b] .discard) && (let x := Tab.get 0 m.s k.toNat;
     (let tag := m.tag m.selP; decide (m.nest = none) && decide (stRole x = false) &&
     decide (m.isShadow n.toNat = false) && tag.loaded && (mxRow tag.fmt (stFmt x) mode (stScl x || tag.scaled)) &&
     decide (m.waitingOps < 4))))) = true) ∧
  (∃ (s : State) (k : BitVec 4) (b : Src), (decide ((s.here.mx.fault = [] ∨ s.seq.handler = true)) &&
     (let m := s.here.mx; (operandsReady s [b] .discard) && (let x := Tab.get 0 m.s k.toNat;
     (stRole x) && decide (m.waitingOps < 4)))) = true) ∧
  (∃ (s : State) (k : BitVec 4) (b : Src), (decide ((s.here.mx.fault = [] ∨ s.seq.handler = true)) &&
     (let m := s.here.mx; (operandsReady s [b] .discard) && (let x := Tab.get 0 m.s k.toNat;
     decide (stRole x = false)))) = true) ∧
  (∃ (s : State), (decide ((s.here.mx.fault = [] ∨ s.seq.handler = true)) &&
     (let m := s.here.mx; decide (m.waitingOps < 4))) = true) ∧
  (∃ (s : State) (n : BitVec 2) (tl : BitVec 4) (f : Bool), (decide ((s.here.mx.fault = [] ∨ s.seq.handler = true)) &&
     (let m := s.here.mx; (let first := if f then 0 else tl.toNat; (let last := if f then 15 else tl.toNat;
     decide (m.isShadow n.toNat = false) && decide (m.waitingOps < 4) &&
     (oks (accFootprint s.me ((m.shadowOf n.toNat).getD n.toNat) (32 * first) (32 * (last + 1 - first)) true s)).any fun _ =>
     true)))) = true) ∧
  (∃ (s : State) (n : BitVec 2), (decide ((s.here.mx.fault = [] ∨ s.seq.handler = true)) &&
     (let m := s.here.mx; (m.isShadow n.toNat))) = true) :=
  ⟨⟨wk, by decide +kernel⟩,
   ⟨wk3, by decide +kernel⟩,
   ⟨wk1, by decide +kernel⟩,
   ⟨wk, by decide +kernel⟩,
   ⟨wk1, by decide +kernel⟩,
   ⟨wk, 0, 0, .reg 1, .wrap, by decide +kernel⟩,
   ⟨wk, 1, .reg 1, by decide +kernel⟩,
   ⟨wk, 0, .reg 1, by decide +kernel⟩,
   ⟨wk, by decide +kernel⟩,
   ⟨wk, 0, 0, false, by decide +kernel⟩,
   ⟨wk2, 1, by decide +kernel⟩⟩

/-- `Obligations.MatrixArrayEvents`: states and operands that meet its hypotheses, clause by clause. -/
theorem witness_MatrixArrayEvents :
  (∃ (s : State) (core : Nat), ((let m := s.mx core; (qload m.queue).any fun z =>
     (let x := z.2.1; (let ti := z.2.2.1; (let tj := z.2.2.2.1; (dns (attempt (s.mxAgent core) (readBTile (s.mxAgent core) (s.core core).books x ti tj) s)).any fun _ =>
     true))))) = true) ∧
  (∃ (s : State) (core : Nat), ((let m := s.mx core; (qstep m.queue).any fun z =>
     (let t := z.1; (let q := z.2; (q.all (·.isStep)) && decide (t.row < 31))))) = true) ∧
  (∃ (s : State) (core : Nat), ((let m := s.mx core; (qstep m.queue).any fun z =>
     (let t := z.1; (let q := z.2; (q.all (·.isStep)) && decide (t.row = 31))))) = true) ∧
  (∃ (s : State) (core : Nat), ((let m := s.mx core; (m.nest.toList).any fun n =>
     (n.fault.toList).any fun _ => decide (m.queue = []))) = true) ∧
  (∃ (s : State) (core : Nat), ((let m := s.mx core; (ops (m.nest)).any fun qq8 =>
     (let n := qq8; decide (n.fault = none) && decide (m.queue = []) &&
     decide ((s.grove (groveOf core)).preempting = false) && decide ((n.last == some n.bTile || n.next.isSome) = true) &&
     (dns (attempt (s.mxAgent core) (enterStep (s.mxAgent core) n.sa (ntCoord n.table (ntOrigin n.table 0) 0 n.step) (ntCoord n.table (ntOrigin n.table 1) 1 n.step) (ntMode n.table) (ntZero n.table n.step) (nestAcc n.table) n.shadow (ntCoord n.table (ntTile0 n.table) 4 n.step).toNat (some n.id)) (s.modMx core fun k => k.takeNext n))).any fun _ =>
     true))) = true) ∧
  (∃ (s : State) (core : Nat), ((let m := s.mx core; (ops (m.nest)).any fun qq8 =>
     (let n := qq8; decide (n.fault = none) && decide (m.queue = []) &&
     decide ((s.grove (groveOf core)).preempting = false) && decide ((n.last != some n.bTile) = true) &&
     n.next.isNone && (ntBc n.table)))) = true) ∧
  (∃ (s : State), (([0]).any fun grove => ([0, 1]).any fun g => (hds (groupCores s grove g)).any fun z =>
     (let src := z.1; (let rest := z.2; decide (((src :: rest).all fun c =>
     (s.mx c).nest.any (·.wants)) = true) && (ops ((s.mx src).nest)).any fun qq9 =>
     (let n := qq9; (dns (attempt (s.mxAgent src) (readBTile (s.mxAgent src) (s.core src).books n.sb n.bTile.1 n.bTile.2) s)).any fun _ =>
     true)))) = true) :=
  ⟨⟨ev0, 0, by decide +kernel⟩,
   ⟨ev1, 0, by decide +kernel⟩,
   ⟨ev6, 0, by decide +kernel⟩,
   ⟨ev7, 0, by decide +kernel⟩,
   ⟨ev2, 0, by decide +kernel⟩,
   ⟨ev4, 0, by decide +kernel⟩,
   ⟨ev3, by decide +kernel⟩⟩

end MatrixParts

namespace RotationParts

def mem (s : State) (a : Nat) (l : List Nat) : State := setDevBytes s a (l.map fun n => BitVec.ofNat 8 n)
def w4 (l : List Int) : List Nat := l.flatMap fun v => (toBytes 4 (wrapInt 32 v)).map (·.toNat)
def im (cs : List Int) (e : Int) : List Nat := w4 (cs ++ List.replicate (24 - cs.length) 0) ++ (toBytes 2 (wrapInt 16 e)).map (·.toNat) ++ List.replicate 30 0
def fl (l : List Nat) : List Nat := l.flatMap fun v => (toBytes 4 v).map (·.toNat)
def qs (x1 x2 : Word) (f : Rot → Rot) : State :=
  mem (mem (mem ((tState ⟨0, .Q, .pipe⟩ (tCtx .Q [(1, x1), (2, x2)] [(0, [5])])).withRot f)
   0x1000 (im [0x10000000, -0x1FFFFFFF, 5, 0x1ABCDEF0] 3)) 0x1080 (im [7, 0x10000001, -9, 0] (-2)))
   0x2000 (fl [0x3F800000, 0xC0490FDB, 0x42280000, 0x3E000000, 0, 0x3FC00000, 0xBF800000, 0x41200000, 0, 0, 0, 0])
def rowA : RRow := RRow.of [(0, 0x10000000), (1, -0x1FFFFFFF), (2, 5), (3, 0x1ABCDEF0), (16, 77)] 3
def rowB : RRow := RRow.of [(0, -0x1234567), (1, 0x18000000), (2, 5), (3, 9)] 5
def q0 : State := qs 0x1000 0x0 fun r => { r with qcf := 0x003, rows := [(0, rowA), (1, rowB), (17, rowA)], o0 := rowA, o1 := rowB, ang := [(0, 5), (3, 0xFFFFFFFF)] }
def q2 : State := qs 0x3F800000 0xC0490FDB fun r => { r with qcf := 0x00F, ops := [.scalar (.reg 3) 7] }
def q5 : State := qs 0x183 0x7FC00000 fun r => r
def q6 : State := qs 0x7FC00000 0x25 fun r => r
def bigR : RRow := RRow.of [(0, 0x10000000), (1, -0x1FFFFFFF), (2, 0x18000000), (3, 0x1ABCDEF0)] 32767
def c0 : State := q0.withRot fun r => { r with ops := [.pass rowB 0 4 0 ⟨0x80, 1⟩, .scalar (.reg 3) 7] }
def c1 : State := q0.withRot fun r => { r with ops := [.apl rowA rowB 0x8ABCDEF0 4 0 ⟨0x84, 2⟩] }
def c2 : State := q0.withRot fun r => { r with ops := [.scalar (.reg 3) 9, .pass rowB 0 4 0 ⟨0x80, 1⟩] }
def c3 : State := q0.withRot fun r => { r with ops := [.pass (RRow.of [(0, 0x1FFFFFFF), (1, 0x1FFFFFFF), (2, 0x1FFFFFFF)] 32767) 1 4 0 ⟨0x80, 1⟩, .scalar (.reg 3) 9, .apl rowA rowB 0x8ABCDEF0 4 0 ⟨0x84, 2⟩], rows := [(16, bigR)] }
def c4 : State := q0.withRot fun r => { r with ops := [.scalar (.queue 1) 9] }
def c5 : State := q0.withRot fun r => { r with ops := [.scalar .discard 9] }
def c7 : State := c4.setTokens 0 1 (List.replicate 16 5)
def bigV : RRow := RRow.of [(0, 0x1FFFFFFF), (1, 0x1FFFFFFF)] 32767
def c6 : State := q0.withRot fun r => { r with ops := [.apl bigV bigV 0x20000000 4 0 ⟨0x84, 2⟩] }
def q7 : State := q0.withRot fun r => { r with ops := [.pass rowA 0 4 0 ⟨0x80, 1⟩] }
def pss : List QOp → List (RRow × Nat × Nat × Nat × Origin × List QOp)
  | .pass v t n m pc :: q => [(v, t, n, m, pc, q)]
  | _ => []
def apls : List QOp → List (RRow × RRow × Nat × Nat × Nat × Origin × List QOp)
  | .apl u l c n m pc :: q => [(u, l, c, n, m, pc, q)]
  | _ => []
def scs : List QOp → List (Dst × Word × List QOp)
  | .scalar d v :: q => [(d, v, q)]
  | _ => []
def fins : FVal → List (Bool × Nat × Int)
  | .fin s m e => [(s, m, e)]
  | _ => []

/-- `Obligations.RotationInstructions`: states and operands that meet its hypotheses, clause by clause. -/
theorem witness_RotationInstructions :
  (∃ (s : State) (a : Src), (decide ((s.here.rot.fault = none ∨ s.seq.handler = true)) &&
     (let r := s.here.rot; (let x := srcVal s a; (operandsReady s [a] .discard) &&
     decide (r.ops = []) && decide (fld x 4 4 ≤ 8) && decide (fld x 9 55 = 0)))) = true) ∧
  (∃ (s : State) (a : Src), (decide ((s.here.rot.fault = none ∨ s.seq.handler = true)) &&
     (let r := s.here.rot; (let x := srcVal s a; (operandsReady s [a] .discard) &&
     decide (r.ops = []) && decide ((8 < fld x 4 4 ∨ fld x 9 55 ≠ 0))))) = true) ∧
  (∃ (s : State) (a : Src), (decide ((s.here.rot.fault = none ∨ s.seq.handler = true)) &&
     (let r := s.here.rot; decide (r.ops ≠ []) && (operandsReady s [a] .discard))) = true) ∧
  (∃ (s : State) (k : BitVec 1), (decide ((s.here.rot.fault = none ∨ s.seq.handler = true)) &&
     (let r := s.here.rot; decide (r.writesTri k.toNat = false))) = true) ∧
  (∃ (s : State) (a : Src) (f : Bool), (decide ((s.here.rot.fault = none ∨ s.seq.handler = true)) &&
     (let r := s.here.rot; (let s1 := srcPop s a; (let x := srcVal s a;
     (operandsReady s [a] .discard) && (oks (readRow f x (rotN r) (rotM r) 0 s1)).any fun _ =>
     true)))) = true) ∧
  (∃ (s : State) (a : Src) (b : Src) (f : Bool), (decide ((s.here.rot.fault = none ∨ s.seq.handler = true)) &&
     (let r := s.here.rot; (let s1 := srcPop s a; (let x := srcVal s a;
     (operandsReady s [a, b] .discard) && (oks (readRow f x (rotN r) (rotM r) 0 (srcPop s1 b))).any fun qq3 =>
     (let t := qq3.2; (oks (readRow f (x + if f then BitVec.ofNat 64 (4 * (rotN r + rotM r)) else 128) (rotN r) (rotM r) 0 t)).any fun _ =>
     true))))) = true) ∧
  (∃ (s : State) (d : Dst) (a : Src) (b : Src), (decide ((s.here.rot.fault = none ∨ s.seq.handler = true)) &&
     (let s1 := srcPop s a; (let x := srcVal s a; (let y := srcVal s1 b;
     (let q230 := (fun (v : Word) (lo : Nat) => (( sextInt 32 (fld v lo 32)) : Int));
     (operandsReady s [a, b] d) && decide ((q230 x 0).natAbs < 2 ^ 29) &&
     decide ((q230 y 0).natAbs < 2 ^ 29)))))) = true) ∧
  (∃ (s : State) (d : Dst) (a : Src) (b : Src), (decide ((s.here.rot.fault = none ∨ s.seq.handler = true)) &&
     (let x := srcVal s a; (let q230 := (fun (v : Word) (lo : Nat) => (( sextInt 32 (fld v lo 32)) : Int));
     (operandsReady s [a, b] d) && decide (2 ^ 29 ≤ (q230 x 0).natAbs)))) = true) ∧
  (∃ (s : State) (d : Dst) (a : Src) (b : Src), (decide ((s.here.rot.fault = none ∨ s.seq.handler = true)) &&
     (let x := srcVal s a; (let q230 := (fun (v : Word) (lo : Nat) => (( sextInt 32 (fld v lo 32)) : Int));
     (operandsReady s [a, b] d) && decide ((q230 x 0).natAbs < 2 ^ 29) &&
     decide ((q230 x 32).natAbs < 2 ^ 29)))) = true) ∧
  (∃ (s : State) (d : Dst) (a : Src), (decide ((s.here.rot.fault = none ∨ s.seq.handler = true)) &&
     (operandsReady s [a] d)) = true) ∧
  (∃ (s : State) (d : Dst) (a : Src), (decide ((s.here.rot.fault = none ∨ s.seq.handler = true)) &&
     (let x := srcVal s a; (operandsReady s [a] d) && (fins (NumFmt.fp32.decode (fld x 0 32))).any fun _ =>
     true)) = true) ∧
  (∃ (s : State) (d : Dst) (a : Src), (decide ((s.here.rot.fault = none ∨ s.seq.handler = true)) &&
     (let x := srcVal s a; (operandsReady s [a] d) && decide (fins (NumFmt.fp32.decode (fld x 0 32)) = []))) = true) ∧
  (∃ (s : State) (a : Src) (b : Src) (f : Bool), ((let r := s.here.rot;
     (let x := srcVal s a; (let y := srcVal (srcPop s a) b; (let s2 := eaPop s a b;
     (let n := rotN r; (let m := rotM r; (let j := fld y 0 4; (let tr := fld y 4 1;
     (let key := 16 * tr + j; decide ((s.here.rot.fault = none ∨ s.seq.handler = true)) &&
     (operandsReady s [a, b] .discard) && decide (j < n) && decide (fld y 5 59 = 0) &&
     decide (r.writesAng = false) && (oks (storeRow f x n m (rotCols n m j) (Tab.get RRow.zero r.rows key) s2)).any fun _ =>
     true)))))))))) = true) ∧
  (∃ (s : State) (a : Src) (b : Src), ((let r := s.here.rot; (let y := srcVal (srcPop s a) b;
     (let n := rotN r; (let j := fld y 0 4; decide ((s.here.rot.fault = none ∨ s.seq.handler = true)) &&
     (operandsReady s [a, b] .discard) && decide (j < n) && decide (fld y 5 59 = 0) &&
     r.writesAng))))) = true) ∧
  (∃ (s : State) (a : Src) (b : Src), ((let r := s.here.rot; (let y := srcVal (srcPop s a) b;
     (let n := rotN r; (let j := fld y 0 4; (let tr := fld y 4 1; decide ((s.here.rot.fault = none ∨ s.seq.handler = true)) &&
     (operandsReady s [a, b] .discard) && decide (j < n) && decide (fld y 5 59 = 0) &&
     (r.writesTri tr))))))) = true) ∧
  (∃ (s : State) (a : Src) (b : Src) (f : Bool), ((let r := s.here.rot;
     (let x := srcVal s a; (let y := srcVal (srcPop s a) b; (let s2 := eaPop s a b;
     (let n := rotN r; (let m := rotM r; (let j := fld y 0 4; (let tr := fld y 4 1;
     decide ((s.here.rot.fault = none ∨ s.seq.handler = true)) && (operandsReady s [a, b] .discard) &&
     decide (j < n) && decide (fld y 5 59 = 0) && decide (r.writesTri tr = false) &&
     (oks (readRow f x n m j s2)).any fun _ => true))))))))) = true) ∧
  (∃ (s : State) (a : Src) (b : Src), ((let r := s.here.rot; (let y := srcVal (srcPop s a) b;
     (let n := rotN r; (let j := fld y 0 4; decide ((s.here.rot.fault = none ∨ s.seq.handler = true)) &&
     (operandsReady s [a, b] .discard) && decide ((n ≤ j ∨ fld y 5 59 ≠ 0))))))) = true) ∧
  (∃ (s : State) (a : Src) (f : Bool), ((let r := s.here.rot; (let x := srcVal s a;
     (let n := rotN r; (let m := rotM r; decide ((s.here.rot.fault = none ∨ s.seq.handler = true)) &&
     (operandsReady s [a] .discard) && decide (r.writesOut = false) && (oks (storeRow f x n m (rotCols n m 0) r.o0 (srcPop s a))).any fun _ =>
     true))))) = true) ∧
  (∃ (s : State) (a : Src) (f : Bool), ((let r := s.here.rot; (let x := srcVal s a;
     (let n := rotN r; (let m := rotM r; decide ((s.here.rot.fault = none ∨ s.seq.handler = true)) &&
     (operandsReady s [a] .discard) && decide (r.writesApl = false) && (oks (storeRow f x n m (rotCols n m 0) r.o1 (srcPop s a))).any fun _ =>
     true))))) = true) ∧
  (∃ (s : State) (a : Src), ((let r := s.here.rot; (let x := srcVal s a;
     decide ((s.here.rot.fault = none ∨ s.seq.handler = true)) && (operandsReady s [a] .discard) &&
     (let s1 := srcPop s a; decide (r.writesAng = false) && (oks (store s1.me .vector x ((List.range 16).flatMap fun i => toBytes 4 (Tab.get 0 r.ang i)) 64 s1)).any fun _ =>
     true)))) = true) ∧
  (∃ (s : State), ((let r := s.here.rot; decide ((s.here.rot.fault = none ∨ s.seq.handler = true)) &&
     decide (r.ops = []))) = true) ∧
  (∃ (s : State), ((let r := s.here.rot; decide ((s.here.rot.fault = none ∨ s.seq.handler = true)) &&
     decide (r.ops ≠ []))) = true) ∧
  (∃ (s : State) (d : Dst), ((let r := s.here.rot; decide (((s.here.rot.fault = none ∨ s.seq.handler = true) ∨ s.seq.detm = true)) &&
     (operandsReady s [] d) && decide ((s.seq.detm = false ∨ r.ops = [])))) = true) :=
  ⟨⟨q5, .reg 1, by decide +kernel⟩,
   ⟨q0, .reg 1, by decide +kernel⟩,
   ⟨q2, .reg 1, by decide +kernel⟩,
   ⟨q0, 0, by decide +kernel⟩,
   ⟨q0, .reg 1, false, by decide +kernel⟩,
   ⟨q0, .reg 1, .reg 2, false, by decide +kernel⟩,
   ⟨q0, .reg 3, .reg 1, .reg 2, by decide +kernel⟩,
   ⟨q2, .reg 3, .reg 1, .reg 2, by decide +kernel⟩,
   ⟨q0, .reg 3, .reg 1, .reg 2, by decide +kernel⟩,
   ⟨q0, .reg 3, .reg 1, by decide +kernel⟩,
   ⟨q0, .reg 3, .reg 1, by decide +kernel⟩,
   ⟨q6, .reg 3, .reg 1, by decide +kernel⟩,
   ⟨q0, .reg 1, .reg 2, false, by decide +kernel⟩,
   ⟨q7, .reg 1, .reg 2, by decide +kernel⟩,
   ⟨q7, .reg 1, .reg 2, by decide +kernel⟩,
   ⟨q0, .reg 1, .reg 2, false, by decide +kernel⟩,
   ⟨q2, .reg 1, .reg 2, by decide +kernel⟩,
   ⟨q0, .reg 1, false, by decide +kernel⟩,
   ⟨q0, .reg 1, false, by decide +kernel⟩,
   ⟨q0, .reg 1, by decide +kernel⟩,
   ⟨q0, by decide +kernel⟩,
   ⟨q2, by decide +kernel⟩,
   ⟨q0, .reg 3, by decide +kernel⟩⟩

/-- `Obligations.RotationCommit`: states and operands that meet its hypotheses, clause by clause. -/
theorem witness_RotationCommit :
  (∃ (s : State) (core : Nat), ((let r := s.rot core; decide ((s.grove (groveOf core)).preHalted = false) &&
     (pss r.ops).any fun z => (let v := z.1; (let t := z.2.1; (let n := z.2.2.1;
     (let m := z.2.2.2.1; (oke (passAll t n m { rows := r.rows, codes := [], v := v })).any fun _ =>
     true)))))) = true) ∧
  (∃ (s : State) (core : Nat), ((let r := s.rot core; decide ((s.grove (groveOf core)).preHalted = false) &&
     (pss r.ops).any fun z => (let v := z.1; (let t := z.2.1; (let n := z.2.2.1;
     (let m := z.2.2.2.1; (ers (passAll t n m { rows := r.rows, codes := [], v := v })).any fun _ =>
     true)))))) = true) ∧
  (∃ (s : State) (core : Nat), ((let r := s.rot core; decide ((s.grove (groveOf core)).preHalted = false) &&
     (apls r.ops).any fun z => (let u := z.1; (let l := z.2.1; (let c := z.2.2.1;
     (let n := z.2.2.2.1; (let m := z.2.2.2.2.1; (ops (aplPair n m c u l)).any fun _ =>
     true))))))) = true) ∧
  (∃ (s : State) (core : Nat), ((let r := s.rot core; decide ((s.grove (groveOf core)).preHalted = false) &&
     (apls r.ops).any fun z => (let u := z.1; (let l := z.2.1; (let c := z.2.2.1;
     (let n := z.2.2.2.1; (let m := z.2.2.2.2.1; decide (aplPair n m c u l = none)))))))) = true) ∧
  (∃ (s : State) (core : Nat), ((let r := s.rot core; decide ((s.grove (groveOf core)).preHalted = false) &&
     (scs r.ops).any fun z => (let d := z.1; ([3]).any fun n => decide (d = .reg n)))) = true) ∧
  (∃ (s : State) (core : Nat), ((let r := s.rot core; decide ((s.grove (groveOf core)).preHalted = false) &&
     (scs r.ops).any fun z => (let d := z.1; ([1]).any fun k => decide (d = .queue k) &&
     (let can := (( decide ((Tab.get [] (s.ctx core).tq k).length < 16) &&
     s.pushTurn core 3 k) : Bool); decide (can))))) = true) ∧
  (∃ (s : State) (core : Nat), ((let r := s.rot core; decide ((s.grove (groveOf core)).preHalted = false) &&
     (scs r.ops).any fun z => (let d := z.1; ([1]).any fun k => decide (d = .queue k) &&
     (let can := (( decide ((Tab.get [] (s.ctx core).tq k).length < 16) &&
     s.pushTurn core 3 k) : Bool); decide (¬ can))))) = true) ∧
  (∃ (s : State) (core : Nat), ((let r := s.rot core; decide ((s.grove (groveOf core)).preHalted = false) &&
     (scs r.ops).any fun z => (let d := z.1; decide (d = .discard)))) = true) ∧
  (∃ (s : State) (core : Nat), ((let r := s.rot core; decide ((s.grove (groveOf core)).preHalted = false) &&
     (let l := r.overflows; decide (l = [])))) = true) ∧
  (∃ (s : State) (core : Nat), ((let r := s.rot core; decide ((s.grove (groveOf core)).preHalted = false) &&
     (let l := r.overflows; decide (l ≠ [])))) = true) :=
  ⟨⟨c0, 0, by decide +kernel⟩,
   ⟨c3, 0, by decide +kernel⟩,
   ⟨c1, 0, by decide +kernel⟩,
   ⟨c6, 0, by decide +kernel⟩,
   ⟨c2, 0, by decide +kernel⟩,
   ⟨c4, 0, by decide +kernel⟩,
   ⟨c7, 0, by decide +kernel⟩,
   ⟨c5, 0, by decide +kernel⟩,
   ⟨c0, 0, by decide +kernel⟩,
   ⟨c3, 0, by decide +kernel⟩⟩

end RotationParts

namespace UnitParts

def mem (s : State) (a : Nat) (l : List Nat) : State := setDevBytes s a (l.map fun n => BitVec.ofNat 8 n)
def ks (x1 x2 : Word) : State := tState ⟨0, .K, .pipe⟩ (tCtx .K [(1, x1), (2, x2)] [(0, [5])])
def x0 : State := ks 0xFF00800000000100 (2 + 2 ^ 8 * 2 + 2 ^ 32 * 7)
def ownr : OpOwner := { core := 0, tenant := 0, rcb := 0, levels := [0], job := none, by_ := ⟨0, .K, .pipe⟩, task := some ⟨0, 0⟩, pc := 0x80, order := 0, det := false, link := some 0 }
def xrm : State := { x0 with remote := [(0, .load ownr 5 0 0x9000 0xFF00800000000100 64 0)] }
def x1 : State := ks 0xFF00800000000100 (2 + 2 ^ 8 * 1)
def lc (op : XformOp) (e : Nat) : LineCmd := { by_ := ⟨0, .K, .pipe⟩, job := 4, op := op, etype := e, const := 0xFFFFFFFE, addr := 0x800000000300, prog := 0xFF00800000000300, after := 0, rcb := 0 }
def withL (l : LineCmd) : State := (mem x0 0x800000000300 ((List.range 256).map fun i => (i * 5 + 1) % 256)).modCore 0 fun k => { k with lines := [{ l with addr := 0x800000000200 }, l] }
def xc (d : Dst) (op : XformOp) : State := x0.modSeq ⟨0, .K, .pipe⟩ fun q => { q with xforms := [⟨1, .reg 4, 0x80, 0, .fill, 1, 0, none, []⟩, ⟨2, d, 0x84, 1, op, 0, 77, none, []⟩] }
def bd : Nat := 0x1000 + 0x8000 * 2 ^ 64 + 4 * 2 ^ 128 + 256 * 2 ^ 160 + 4 * 2 ^ 256 + 256 * 2 ^ 288 + (39 * 2 ^ 512) + 32 * 2 ^ 528 + 40 * 2 ^ 576 + 30 * 2 ^ 608 + 2 * 2 ^ 768 + 2 ^ 770 + 0 * 2 ^ 772 + 2 ^ 774 + 7 * 2 ^ 784
def xb : State := (ks 0x2000 0).modCore 0 fun k => { k with xpose := some { by_ := .stream ⟨0, .K, .pipe⟩, owner := some ⟨0, 0⟩, rcb := 0, det := false, desc := 0x2000, image := some (BitVec.ofNat 1024 bd), tile := 1, left := none, total := 4096, dst := .reg 3, pc := 0x80, rem := 0 } }
def xcp : State := x0.modSeq ⟨0, .K, .pipe⟩ fun q => { q with xforms := [⟨2, .reg 3, 0x84, 1, .crc, 0, 77, some 0xFF00800000000008, []⟩] }
def xcf : State := (xc (.queue 1) .addc).setTokens 0 1 (List.replicate 16 7)
def bdp : Nat := 0xFF00800000001000 + 0xFF00800005002000 * 2 ^ 64 + 8 * 2 ^ 128 + 160 * 2 ^ 160 + 19 * 2 ^ 512 + 0 * 2 ^ 528 + 20 * 2 ^ 576 + 1 * 2 ^ 608 + 3 * 2 ^ 768 + 2 ^ 770 + 0 * 2 ^ 772 + 2 ^ 774
def bdq : Nat := bdp - 10 * 2 ^ 512 - 10 * 2 ^ 576
def xbc (i : Nat) (tile : Nat) : State := (ks 0x2000 0).modCore 0 fun k => { k with xpose := some { by_ := .stream ⟨0, .K, .pipe⟩, owner := some ⟨0, 0⟩, rcb := 0, det := false, desc := 0x2000, image := some (BitVec.ofNat 1024 i), tile := tile, left := none, total := 4096, dst := .reg 3, pc := 0x80, rem := 0 } }
def bwd : TileWrites → List State | .done s => [s] | _ => []
def bww : TileWrites → List (List (Word × List Byte) × State) | .wait l s => [(l, s)] | _ => []
def rg (st eos h f t e base ss cnt : Nat) : BitVec 512 := BitVec.ofNat 512 (base + ss * 2 ^ 32 + cnt * 2 ^ 48 + st * 2 ^ 56 + eos * 2 ^ 58 + h * 2 ^ 64 + f * 2 ^ 96 + t * 2 ^ 128 + e * 2 ^ 160)
def rs (r : BitVec 512) (y : Word) (det : Bool := false) : State := (mem ((ks 0xFF00800006000040 y).setRingWord 0 1 r) 0x1000 ((toBytes 64 (rg 1 0 5 5 5 0 0x400 1 3).toNat).map (·.toNat))).modSeq ⟨0, .K, .pipe⟩ fun q => { q with detm := det }
def rA := rg 1 0 0xFFFFFFFE 1 3 0 0x400 1 3
def rB := rg 1 1 0xFFFFFFFE 1 1 1 0x400 1 3
def rC := rg 1 0 2 4 7 0 0x400 1 3
def rE := rg 2 0 2 4 7 0 0x400 1 3
def cr (src dst len ctl nxt : Nat) : Nat := nxt + 2 ^ 64 + ctl * 2 ^ 64 + len * 2 ^ 96 + src * 2 ^ 128 + dst * 2 ^ 192
def recs (v : Nat) : State := (mem (mem (ks 0x2000 0) 0x2000 ((toBytes 128 v).map (·.toNat))) 0x1000 ((List.range 300).map fun i => (i * 7 + 9) % 256)).modCore 0 fun k => k.setChan 1 { Channel.idle with busy := true, next := 0x2000, by_ := some (.stream ⟨0, .K, .pipe⟩), owner := some ⟨0, 0⟩ }
def recsS (v : Nat) : State := (mem (ks 0x2000 0) 0x800000002000 ((toBytes 128 v).map (·.toNat))).modCore 0 fun k => k.setChan 1 { Channel.idle with busy := true, next := 0xFF00800000002000, by_ := some (.stream ⟨0, .K, .pipe⟩), owner := some ⟨0, 0⟩ }
def wts {α : Type} (r : Attempt α) : List State := match r with | .wait z => [z] | _ => []
def rw (v : Nat) (cause : Nat) (crc : Word) : RecWork := { desc := BitVec.ofNat 1024 v, stage := .payload, pieces := [], count := 64, crc := crc, cause := cause }
def nv (x y : Word) (p : QPair) (e3 : Nat) : State := (mem (mem (ks x y) 0x1000 ((List.range 64).map (· + 3))) 0x4000 ((toBytes 16 (0x55 + 0x12340007 * 2 ^ 64 + e3 * 2 ^ 96)).map (·.toNat))).setPair y.toNat p
def p0 : QPair := { QPair.reset with sqbase := 0x3000, cqbase := 0x4000, sqdb := 0x999, cqdb := 0x888, sqsize := 3, cqsize := 0, tenant := 0, enabled := true, phase := 1 }
def other : Core := { Core.reset with ctx := tCtx .K [] [] }

/-- `Obligations.TransformAndTranspose`: states and operands that meet its hypotheses, clause by clause. -/
theorem witness_TransformAndTranspose :
  (∃ (s : State) (d : Dst) (a : Src) (b : Src) (f : XformOp), ((operandsReady s [a, b] d) &&
     (let s2 := eaPop s a b; (let x := srcVal s a; (let c := srcVal (srcPop s a) b;
     (let n := fld c 0 8 + 1; decide (x.toNat / 2 ^ 48 = 0xFF00) && decide (x.toNat % 256 = 0) &&
     decide (Config.chipBase ≤ x.toNat % 2 ^ 48) && decide (x.toNat % 2 ^ 48 < Config.chipEnd) &&
     decide (x.toNat % 2 ^ 48 / 2 ^ 24 % 16 = 0) && decide (fld c 11 21 = 0) &&
     (etypeOk f (fld c 8 3)) && decide ((f = .crc → fld c 32 32 = 0)) &&
     (oks (access s2.me .vector (if f = .crc then .read else .write) x (256 * n) 256 s2)).any fun qq1 =>
     (let p := qq1.1; (let t := qq1.2; (t.behindRemote s2.me p (256 * n))))))))) = true) ∧
  (∃ (s : State) (d : Dst) (a : Src) (b : Src) (f : XformOp), ((operandsReady s [a, b] d) &&
     (let s2 := eaPop s a b; (let x := srcVal s a; (let c := srcVal (srcPop s a) b;
     (let n := fld c 0 8 + 1; decide (x.toNat / 2 ^ 48 = 0xFF00) && decide (x.toNat % 256 = 0) &&
     decide (Config.chipBase ≤ x.toNat % 2 ^ 48) && decide (x.toNat % 2 ^ 48 < Config.chipEnd) &&
     decide (x.toNat % 2 ^ 48 / 2 ^ 24 % 16 = 0) && decide (fld c 11 21 = 0) &&
     (etypeOk f (fld c 8 3)) && decide ((f = .crc → fld c 32 32 = 0)) &&
     (oks (access s2.me .vector (if f = .crc then .read else .write) x (256 * n) 256 s2)).any fun qq1 =>
     (let p := qq1.1; (let t := qq1.2; decide (t.behindRemote s2.me p (256 * n) = false)))))))) = true) ∧
  (∃ (s : State) (core : Nat) (bank : Nat), ((ops ((s.core core).lines.find? (fun l => l.addr / 256 % 16 == bank))).any fun qq2 =>
     (let l := qq2; decide (l.op ≠ .crc) && (etypeOk l.op l.etype) && decide (s.biterr = []) &&
     decide (s.poison = []) && decide (0x800000000000 ≤ l.addr) && decide (l.addr + 256 ≤ 0x810000000000) &&
     decide (l.addr / 2 ^ 24 % 16 = 0) && decide (l.addr % 256 = 0))) = true) ∧
  (∃ (s : State) (core : Nat) (seq : Nat), ((let k := SeqKind.ofCode seq;
     (let x := s.ctx core; (((x.seq k).xforms.find? (x.jobDone k)).toList).any fun j => decide (j.poison = none) &&
     (s.takes core true x k j.dst)))) = true) ∧
  (∃ (s : State) (core : Nat) (seq : Nat), ((let k := SeqKind.ofCode seq;
     (let x := s.ctx core; (((x.seq k).xforms.find? (x.jobDone k)).toList).any fun j => decide (j.poison = none) &&
     decide (s.takes core true x k j.dst = false)))) = true) ∧
  (∃ (s : State) (core : Nat) (seq : Nat), ((let k := SeqKind.ofCode seq;
     (let x := s.ctx core; (((x.seq k).xforms.find? (x.jobDone k)).toList).any fun j =>
     (ops (j.poison)).any fun _ => true))) = true) ∧
  (∃ (s : State) (d : Dst) (a : Src), ((operandsReady s [a] d) && decide ((srcVal s a).toNat % 128 = 0) &&
     (let free := (( (s.core s.cur.core).xpose.isNone && s.firstFor 6 s.cur.core) : Bool);
     (let open_ := s.xformsOpen || s.remoteOpenTo ownDevice; decide (open_ = false) &&
     decide (free)))) = true) ∧
  (∃ (s : State) (d : Dst) (a : Src), ((operandsReady s [a] d) && decide ((srcVal s a).toNat % 128 = 0) &&
     (let free := (( (s.core s.cur.core).xpose.isNone && s.firstFor 6 s.cur.core) : Bool);
     (let open_ := s.xformsOpen || s.remoteOpenTo ownDevice; decide (open_ = false) &&
     decide (¬ free)))) = true) ∧
  (∃ (s : State) (d : Dst) (a : Src), ((operandsReady s [a] d) && decide ((srcVal s a).toNat % 128 = 0) &&
     (let open_ := s.xformsOpen || s.remoteOpenTo ownDevice; open_)) = true) ∧
  (∃ (s : State) (core : Nat), ((ops ((s.core core).xpose)).any fun qq4 =>
     (let c := qq4; decide (s.fencedRcb c.rcb = false) && (ops (c.image)).any fun qq5 =>
     (let b := qq5; decide (c.left = none) && decide (c.tile < bxTiles b) &&
     (let ag := s.unitAgent core c.rcb 4 c.det c.owner; (let n := (bxTile b c.tile).length * bxEs b;
     (dns (attempt ag (bxReads ag b (bxTile b c.tile)) s)).any fun qq6 =>
     (let l := qq6.1; (let t := qq6.2; (bwd (bxWrites ag (bxEs b) l t)).any fun u =>
     (dns (attempt ag (postBytes ag (bxBar b) n) u)).any fun _ => decide (c.tile + 1 < bxTiles b)))))))) = true) ∧
  (∃ (s : State) (core : Nat), ((ops ((s.core core).xpose)).any fun qq4 =>
     (let c := qq4; decide (s.fencedRcb c.rcb = false) && (ops (c.image)).any fun qq5 =>
     (let b := qq5; decide (c.left = none) && decide (c.tile < bxTiles b) &&
     (let ag := s.unitAgent core c.rcb 4 c.det c.owner; (let n := (bxTile b c.tile).length * bxEs b;
     (dns (attempt ag (bxReads ag b (bxTile b c.tile)) s)).any fun qq6 =>
     (let l := qq6.1; (let t := qq6.2; (bwd (bxWrites ag (bxEs b) l t)).any fun u =>
     (dns (attempt ag (postBytes ag (bxBar b) n) u)).any fun _ => decide (c.tile + 1 = bxTiles b)))))))) = true) ∧
  (∃ (s : State) (core : Nat), ((ops ((s.core core).xpose)).any fun qq4 =>
     (let c := qq4; decide (s.fencedRcb c.rcb = false) && (ops (c.image)).any fun qq5 =>
     (let b := qq5; decide (c.left = none) && decide (c.tile < bxTiles b) &&
     (let ag := s.unitAgent core c.rcb 4 c.det c.owner; (dns (attempt ag (bxReads ag b (bxTile b c.tile)) s)).any fun qq6 =>
     (let l := qq6.1; (let t := qq6.2; (bww (bxWrites ag (bxEs b) l t)).any fun _ =>
     true)))))) = true) :=
  ⟨⟨xrm, .reg 3, .reg 1, .reg 2, .fill, by decide +kernel⟩,
   ⟨x0, .reg 3, .reg 1, .reg 2, .fill, by decide +kernel⟩,
   ⟨withL (lc .addc 2), 0, 2, by decide +kernel⟩,
   ⟨xc (.reg 3) .crc, 0, 0, by decide +kernel⟩,
   ⟨xcf, 0, 0, by decide +kernel⟩,
   ⟨xcp, 0, 0, by decide +kernel⟩,
   ⟨x0, .reg 3, .reg 1, by decide +kernel⟩,
   ⟨xb, .reg 3, .reg 1, by decide +kernel⟩,
   ⟨x0.modSeq ⟨0, .K, .pipe⟩ (fun q => { q with xforms := [⟨1, .reg 4, 0x80, 0, .fill, 1, 0, none, []⟩] }), .reg 3, .reg 1, by decide +kernel⟩,
   ⟨xb, 0, by decide +kernel⟩,
   ⟨xbc bdq 0, 0, by decide +kernel⟩,
   ⟨xbc bdp 0, 0, by decide +kernel⟩⟩

/-- `Obligations.RingInstructions`: states and operands that meet its hypotheses, clause by clause. -/
theorem witness_RingInstructions :
  (∃ (s : State) (d : Dst) (a : Src) (b : Src) (nb : Bool), ((operandsReady s [a, b] d) &&
     (oks (ringAt (srcVal s a) false false (eaPop s a b))).any fun qq9 =>
     (let c := qq9.1.1; (let n := qq9.1.2.1; (let r := qq9.1.2.2; (let t := qq9.2;
     (let y := srcVal (srcPop s a) b; decide (y ≠ 0) && decide (y.toNat ≤ r.count) &&
     decide (r.eos = false) && (let can := (( decide (y.toNat ≤ r.free) &&
     !t.ringTaken c n r true) : Bool); decide (nb = false ∨ s.seq.detm = true) &&
     decide (can)))))))) = true) ∧
  (∃ (s : State) (d : Dst) (a : Src) (b : Src) (nb : Bool), ((operandsReady s [a, b] d) &&
     (oks (ringAt (srcVal s a) false false (eaPop s a b))).any fun qq9 =>
     (let c := qq9.1.1; (let n := qq9.1.2.1; (let r := qq9.1.2.2; (let t := qq9.2;
     (let y := srcVal (srcPop s a) b; decide (y ≠ 0) && decide (y.toNat ≤ r.count) &&
     decide (r.eos = false) && (let can := (( decide (y.toNat ≤ r.free) &&
     !t.ringTaken c n r true) : Bool); decide (nb = false ∨ s.seq.detm = true) &&
     decide (¬ can)))))))) = true) ∧
  (∃ (s : State) (d : Dst) (a : Src) (b : Src), ((operandsReady s [a, b] d) &&
     (oks (ringAt (srcVal s a) false false (eaPop s a b))).any fun qq9 =>
     (let c := qq9.1.1; (let n := qq9.1.2.1; (let r := qq9.1.2.2; (let t := qq9.2;
     (let y := srcVal (srcPop s a) b; decide (y ≠ 0) && decide (y.toNat ≤ r.count) &&
     decide (r.eos = false) && (let short := (( decide (r.free < t.claimsAhead c n + y.toNat)) : Bool);
     decide (s.seq.detm = false) && decide (¬ short)))))))) = true) ∧
  (∃ (s : State) (d : Dst) (a : Src) (b : Src), ((operandsReady s [a, b] d) &&
     (oks (ringAt (srcVal s a) false false (eaPop s a b))).any fun qq9 =>
     (let c := qq9.1.1; (let n := qq9.1.2.1; (let r := qq9.1.2.2; (let t := qq9.2;
     (let y := srcVal (srcPop s a) b; decide (y ≠ 0) && decide (y.toNat ≤ r.count) &&
     decide (r.eos = false) && (let short := (( decide (r.free < t.claimsAhead c n + y.toNat)) : Bool);
     decide (s.seq.detm = false) && decide (short)))))))) = true) ∧
  (∃ (s : State) (d : Dst) (a : Src) (b : Src), ((operandsReady s [a, b] d) &&
     (oks (ringAt (srcVal s a) false false (eaPop s a b))).any fun qq9 =>
     (let r := qq9.1.2.2; (let y := srcVal (srcPop s a) b; decide ((y = 0 ∨ r.count < y.toNat))))) = true) ∧
  (∃ (s : State) (d : Dst) (a : Src) (b : Src) (rlx : Bool) (eos : Bool),
     ((operandsReady s [a, b] d) && (oks (ringAt (srcVal s a) false false (eaPop s a b))).any fun qq9 =>
     (let c := qq9.1.1; (let n := qq9.1.2.1; (let r := qq9.1.2.2; (let t := qq9.2;
     (let y := srcVal (srcPop s a) b; (let i := fld y 0 32; (let k := fld y 32 17;
     decide (fld y 49 15 = 0) && decide (0 < k) && decide (k ≤ 65536) &&
     decide (sub32 i r.f + k ≤ r.claimed) && (let can := (( decide (r.f = i) &&
     !t.ringTaken c n r false) : Bool); decide (can) && decide ((eos = true → r.t = add32 i k)) &&
     decide ((rlx = true ∨ s.releaseHeld .release .device = false))))))))))) = true) ∧
  (∃ (s : State) (d : Dst) (a : Src) (b : Src), ((operandsReady s [a, b] d) &&
     (oks (ringAt (srcVal s a) false false (eaPop s a b))).any fun qq9 =>
     (let c := qq9.1.1; (let n := qq9.1.2.1; (let r := qq9.1.2.2; (let t := qq9.2;
     (let y := srcVal (srcPop s a) b; (let i := fld y 0 32; (let k := fld y 32 17;
     decide (fld y 49 15 = 0) && decide (0 < k) && decide (k ≤ 65536) &&
     decide (sub32 i r.f + k ≤ r.claimed) && (let can := (( decide (r.f = i) &&
     !t.ringTaken c n r false) : Bool); decide (¬ can)))))))))) = true) ∧
  (∃ (s : State) (d : Dst) (a : Src) (b : Src), ((operandsReady s [a, b] d) &&
     (oks (ringAt (srcVal s a) false false (eaPop s a b))).any fun qq9 =>
     (let c := qq9.1.1; (let n := qq9.1.2.1; (let r := qq9.1.2.2; (let t := qq9.2;
     (let y := srcVal (srcPop s a) b; decide (y.toNat ≤ r.count) && (let can := (( decide (y.toNat ≤ r.free) &&
     !t.ringTaken c n r false) : Bool); decide (can)))))))) = true) ∧
  (∃ (s : State) (d : Dst) (a : Src) (b : Src), ((operandsReady s [a, b] d) &&
     (oks (ringAt (srcVal s a) false false (eaPop s a b))).any fun qq9 =>
     (let c := qq9.1.1; (let n := qq9.1.2.1; (let r := qq9.1.2.2; (let t := qq9.2;
     (let y := srcVal (srcPop s a) b; decide (y.toNat ≤ r.count) && (let can := (( decide (y.toNat ≤ r.free) &&
     !t.ringTaken c n r false) : Bool); decide (¬ can)))))))) = true) ∧
  (∃ (s : State) (d : Dst) (a : Src) (b : Src), ((let x := srcVal s a; (let y := srcVal (srcPop s a) b;
     (operandsReady s [a, b] d) && (oks (ringAt x false false (eaPop s a b))).any fun qq10 =>
     (let r := qq10.1.2.2; decide (y.toNat < r.count) && r.eos && decide (sub32 r.e r.h ≤ y.toNat))))) = true) ∧
  (∃ (s : State) (d : Dst) (a : Src) (b : Src), ((let x := srcVal s a; (let y := srcVal (srcPop s a) b;
     (operandsReady s [a, b] d) && (oks (ringAt x false false (eaPop s a b))).any fun qq10 =>
     (let c := qq10.1.1; (let n := qq10.1.2.1; (let r := qq10.1.2.2; (let t := qq10.2;
     decide (y.toNat < r.count) && (let can := (( decide (y.toNat < r.filled) &&
     !t.ringTaken c n r false) : Bool); decide ((r.eos = false ∨ y.toNat < sub32 r.e r.h)) &&
     decide (can))))))))) = true) ∧
  (∃ (s : State) (d : Dst) (a : Src) (b : Src), ((let x := srcVal s a; (let y := srcVal (srcPop s a) b;
     (operandsReady s [a, b] d) && (oks (ringAt x false false (eaPop s a b))).any fun qq10 =>
     (let c := qq10.1.1; (let n := qq10.1.2.1; (let r := qq10.1.2.2; (let t := qq10.2;
     decide (y.toNat < r.count) && (let can := (( decide (y.toNat < r.filled) &&
     !t.ringTaken c n r false) : Bool); decide ((r.eos = false ∨ y.toNat < sub32 r.e r.h)) &&
     decide (¬ can))))))))) = true) ∧
  (∃ (s : State) (d : Dst) (a : Src) (b : Src), ((let x := srcVal s a; (let y := srcVal (srcPop s a) b;
     (operandsReady s [a, b] d) && (oks (ringAt x false false (eaPop s a b))).any fun qq10 =>
     (let c := qq10.1.1; (let n := qq10.1.2.1; (let r := qq10.1.2.2; (let t := qq10.2;
     decide (y.toNat ≤ r.filled) && decide (t.ringTaken c n r false = false) &&
     decide (s.releaseHeld .release .device = false)))))))) = true) ∧
  (∃ (s : State) (d : Dst) (a : Src) (b : Src), ((let x := srcVal s a; (let y := srcVal (srcPop s a) b;
     (operandsReady s [a, b] d) && (oks (ringAt x false false (eaPop s a b))).any fun qq10 =>
     (let c := qq10.1.1; (let n := qq10.1.2.1; (let r := qq10.1.2.2; (let t := qq10.2;
     decide (y.toNat ≤ r.filled) && decide ((t.ringTaken c n r false = true ∨ s.releaseHeld .release .device = true))))))))) = true) ∧
  (∃ (s : State) (d : Dst) (a : Src) (b : Src), ((let x := srcVal s a; (let y := srcVal (srcPop s a) b;
     (operandsReady s [a, b] d) && (oks (ringAt x false false (eaPop s a b))).any fun qq10 =>
     (let r := qq10.1.2.2; decide (r.filled < y.toNat))))) = true) ∧
  (∃ (s : State) (d : Dst) (a : Src) (b : Src), ((let x := srcVal s a; (let y := srcVal (srcPop s a) b;
     (operandsReady s [a, b] d) && (oks (ringAt x false true (eaPop s a b))).any fun qq11 =>
     (let c := qq11.1.1; (let n := qq11.1.2.1; (let r := qq11.1.2.2; (let t := qq11.2;
     decide (t.ringTaken c n r false = false) && decide (s.releaseHeld .acqRel .device = false) &&
     decide (fld y 0 16 ≠ 0) && decide (fld y 16 16 = 0)))))))) = true) ∧
  (∃ (s : State) (d : Dst) (a : Src) (b : Src), ((let x := srcVal s a; (let y := srcVal (srcPop s a) b;
     (operandsReady s [a, b] d) && (oks (ringAt x false true (eaPop s a b))).any fun qq11 =>
     (let c := qq11.1.1; (let n := qq11.1.2.1; (let r := qq11.1.2.2; (let t := qq11.2;
     decide (t.ringTaken c n r false = false) && decide (s.releaseHeld .acqRel .device = false) &&
     decide (r.state = 2) && decide (fld y 32 32 = 0) && decide (sub32 y.toNat r.h ≤ r.filled)))))))) = true) ∧
  (∃ (s : State) (d : Dst) (a : Src) (b : Src), ((let x := srcVal s a; (let y := srcVal (srcPop s a) b;
     (operandsReady s [a, b] d) && (oks (ringAt x true true (eaPop s a b))).any fun qq12 =>
     (let c := qq12.1.1; (let n := qq12.1.2.1; (let r := qq12.1.2.2; (let t := qq12.2;
     decide (r.state ≠ 1) && decide (t.ringTaken c n r false = false) &&
     (oks (load t.me .vector y 64 64 t)).any fun qq8 => (let l := qq8.1;
     decide (s.releaseHeld .acqRel .device = false) && (let v := (( BitVec.ofNat 512 (ofBytes l)) : BitVec 512);
     (ringAccepts v)))))))))) = true) ∧
  (∃ (s : State) (d : Dst) (a : Src) (b : Src), ((let x := srcVal s a; (let y := srcVal (srcPop s a) b;
     (operandsReady s [a, b] d) && (oks (ringAt x true true (eaPop s a b))).any fun qq12 =>
     (let c := qq12.1.1; (let n := qq12.1.2.1; (let r := qq12.1.2.2; (let t := qq12.2;
     decide (r.state ≠ 1) && decide (t.ringTaken c n r false = false) &&
     (oks (load t.me .vector y 64 64 t)).any fun qq8 => (let l := qq8.1;
     decide (s.releaseHeld .acqRel .device = false) && (let v := (( BitVec.ofNat 512 (ofBytes l)) : BitVec 512);
     decide (ringAccepts v = false)))))))))) = true) ∧
  (∃ (s : State) (d : Dst) (a : Src), ((let x := srcVal s a; (operandsReady s [a] d) &&
     (oks (ringAt x true true (srcPop s a))).any fun _ => decide (s.seq.detm = false))) = true) ∧
  (∃ (s : State) (d : Dst) (a : Src), ((let x := srcVal s a; (operandsReady s [a] d) &&
     (oks (ringAt x true true (srcPop s a))).any fun _ => s.seq.detm)) = true) :=
  ⟨⟨rs rA 3, .reg 3, .reg 1, .reg 2, false, by decide +kernel⟩,
   ⟨rs rA 4, .reg 3, .reg 1, .reg 2, false, by decide +kernel⟩,
   ⟨rs rA 3, .reg 3, .reg 1, .reg 2, by decide +kernel⟩,
   ⟨rs rA 4, .reg 3, .reg 1, .reg 2, by decide +kernel⟩,
   ⟨rs rA 0, .reg 3, .reg 1, .reg 2, by decide +kernel⟩,
   ⟨rs rA (1 + 2 ^ 33), .reg 3, .reg 1, .reg 2, false, false, by decide +kernel⟩,
   ⟨rs rA (2 + 2 ^ 32), .reg 3, .reg 1, .reg 2, by decide +kernel⟩,
   ⟨rs rA 0, .reg 3, .reg 1, .reg 2, by decide +kernel⟩,
   ⟨rs rA 4, .reg 3, .reg 1, .reg 2, by decide +kernel⟩,
   ⟨rs rB 3, .reg 3, .reg 1, .reg 2, by decide +kernel⟩,
   ⟨rs rA 0, .reg 3, .reg 1, .reg 2, by decide +kernel⟩,
   ⟨rs rA 3, .reg 3, .reg 1, .reg 2, by decide +kernel⟩,
   ⟨rs rA 0, .reg 3, .reg 1, .reg 2, by decide +kernel⟩,
   ⟨(rs rC 1).modSeq ⟨0, .K, .pipe⟩ (fun q => { q with xforms := [⟨1, .discard, 0x80, 0, .fill, 1, 0, none, []⟩] }), .reg 3, .reg 1, .reg 2, by decide +kernel⟩,
   ⟨rs rA 4, .reg 3, .reg 1, .reg 2, by decide +kernel⟩,
   ⟨rs rA 3, .reg 3, .reg 1, .reg 2, by decide +kernel⟩,
   ⟨rs rE 3, .reg 3, .reg 1, .reg 2, by decide +kernel⟩,
   ⟨rs rE 0x1000, .reg 3, .reg 1, .reg 2, by decide +kernel⟩,
   ⟨mem (rs rE 0x2000) 0x2003 [255], .reg 3, .reg 1, .reg 2, by decide +kernel⟩,
   ⟨rs rA 0, .reg 3, .reg 1, by decide +kernel⟩,
   ⟨rs rC 7 true, .reg 3, .reg 1, by decide +kernel⟩⟩

/-- `Obligations.CopyChannelsAndRecords`: states and operands that meet its hypotheses, clause by clause. -/
theorem witness_CopyChannelsAndRecords :
  (∃ (s : State) (a : Src) (b : Src), ((operandsReady s [a, b] .discard) &&
     (let y := srcVal (srcPop s a) b; (let n := y.toNat; decide (3 < n)))) = true) ∧
  (∃ (s : State) (a : Src) (b : Src), ((operandsReady s [a, b] .discard) &&
     (let x := srcVal s a; (let y := srcVal (srcPop s a) b; (let n := y.toNat;
     decide (n ≤ 3) && decide (x.toNat % 128 ≠ 0))))) = true) ∧
  (∃ (s : State) (a : Src) (b : Src), ((operandsReady s [a, b] .discard) &&
     (let x := srcVal s a; (let y := srcVal (srcPop s a) b; (let n := y.toNat;
     decide (n ≤ 3) && decide (x.toNat % 128 = 0) && decide (s.xformsOpen = true ∨ s.remoteOpenTo ownDevice = true))))) = true) ∧
  (∃ (s : State) (a : Src) (b : Src), ((operandsReady s [a, b] .discard) &&
     (let x := srcVal s a; (let y := srcVal (srcPop s a) b; (let n := y.toNat;
     (let free := (( !((s.core s.cur.core).chan n).busy && s.firstFor 4 (4 * s.cur.core + n)) : Bool);
     decide (n ≤ 3) && decide (x.toNat % 128 = 0) && decide (s.xformsOpen = false) &&
     decide (s.remoteOpenTo ownDevice = false) && decide (free)))))) = true) ∧
  (∃ (s : State) (a : Src) (b : Src), ((operandsReady s [a, b] .discard) &&
     (let x := srcVal s a; (let y := srcVal (srcPop s a) b; (let n := y.toNat;
     (let free := (( !((s.core s.cur.core).chan n).busy && s.firstFor 4 (4 * s.cur.core + n)) : Bool);
     decide (n ≤ 3) && decide (x.toNat % 128 = 0) && decide (s.xformsOpen = false) &&
     decide (s.remoteOpenTo ownDevice = false) && decide (¬ free)))))) = true) ∧
  (∃ (s : State) (d : Dst) (a : Src), ((operandsReady s [a] d) && (let x := srcVal s a;
     (let c := (s.core s.cur.core).chan x.toNat; decide (x.toNat ≤ 3) &&
     decide (c.busy = false)))) = true) ∧
  (∃ (s : State) (d : Dst) (a : Src), ((operandsReady s [a] d) && (let x := srcVal s a;
     (let c := (s.core s.cur.core).chan x.toNat; decide (x.toNat ≤ 3) &&
     c.busy))) = true) ∧
  (∃ (s : State) (d : Dst) (a : Src), ((operandsReady s [a] d) && (let x := srcVal s a;
     (let c := (s.core s.cur.core).chan x.toNat; decide (x.toNat ≤ 3) &&
     decide ((c.busy = false ∨ s.seq.detm = false))))) = true) ∧
  (∃ (s : State) (d : Dst) (a : Src), ((operandsReady s [a] d) && (let x := srcVal s a;
     (let c := (s.core s.cur.core).chan x.toNat; decide (x.toNat ≤ 3) &&
     c.busy && s.seq.detm))) = true) ∧
  (∃ (s : State) (d : Dst) (a : Src), ((operandsReady s [a] d) && (let x := srcVal s a;
     decide (3 < x.toNat))) = true) ∧
  (∃ (s : State) (core : Nat) (k : Nat), (decide (k < 4) && (let c := (s.core core).chan k;
     decide (c.busy = false))) = true) ∧
  (∃ (s : State) (core : Nat) (k : Nat), (decide (k < 4) && (let c := (s.core core).chan k;
     c.busy && (ops (c.work)).any fun _ => true)) = true) ∧
  (∃ (s : State) (core : Nat) (k : Nat), (decide (k < 4) && (let c := (s.core core).chan k;
     c.busy && decide (c.work = none) && (s.fencedRcb c.rcb))) = true) ∧
  (∃ (s : State) (core : Nat) (k : Nat), (decide (k < 4) && (let c := (s.core core).chan k;
     (let ag := s.unitAgent core c.rcb (5 + k) c.det c.owner; c.busy &&
     decide (c.work = none) && decide (s.fencedRcb c.rcb = false) && (dns (attempt ag (load ag .engine c.next 128 128) (s.modChan core k fun z => { z with recAddr := z.next }))).any fun qq15 =>
     (let l := qq15.1; (let r := (( BitVec.ofNat 1024 (ofBytes l)) : CopyRec);
     decide (crOwn r = false)))))) = true) ∧
  (∃ (s : State) (core : Nat) (k : Nat), (decide (k < 4) && (let c := (s.core core).chan k;
     (let ag := s.unitAgent core c.rcb (5 + k) c.det c.owner; c.busy &&
     decide (c.work = none) && decide (s.fencedRcb c.rcb = false) && (dns (attempt ag (load ag .engine c.next 128 128) (s.modChan core k fun z => { z with recAddr := z.next }))).any fun qq15 =>
     (let l := qq15.1; (let t := qq15.2; (let r := (( BitVec.ofNat 1024 (ofBytes l)) : CopyRec);
     (crOwn r) && (dns (recBegin ag c.next r t)).any fun _ => true)))))) = true) ∧
  (∃ (w : RecWork), (decide (w.stage = .payload) && decide (w.pieces = []) &&
     decide (w.cause ≠ 0)) = true) ∧
  (∃ (w : RecWork), ((let r := w.desc; decide (w.stage = .payload) && decide (w.pieces = []) &&
     decide (w.cause = 0) && (crCchk r) && decide (w.crc ≠ crCrc r))) = true) ∧
  (∃ (ag : Agent) (at_ : Word) (w : RecWork) (s : State), ((let r := w.desc;
     decide (w.stage = .payload) && decide (w.pieces = []) && decide (w.cause = 0) &&
     decide ((crCchk r = true → w.crc = crCrc r)) && (dns (attempt ag (writeBack ag at_ r (if crCsum r &&
     !crCchk r then some w.crc else none) 0 w.count) s)).any fun qq17 =>
     (let t := qq17.2; (let full := if crHandleValid r then t.changeHandle ag.core (crHandle r) (handleNext (t.handle ag.core (crHandle r)) .full) else t;
     (dns (attempt ag (postBytes ag (crBar r) (crBcount r)) full)).any fun qq18 =>
     (let u := qq18.2; (let flag := store ag .scalar (crFlag r) (toBytes 8 (crFval r).toNat) 8;
     (wts (attempt ag flag u)).any fun _ => decide (crFlag r ≠ 0))))))) = true) ∧
  (∃ (ag : Agent) (at_ : Word) (w : RecWork) (s : State), ((let r := w.desc;
     decide (w.stage = .payload) && decide (w.pieces = []) && decide (w.cause = 0) &&
     decide ((crCchk r = true → w.crc = crCrc r)) && (dns (attempt ag (writeBack ag at_ r (if crCsum r &&
     !crCchk r then some w.crc else none) 0 w.count) s)).any fun qq17 =>
     (let t := qq17.2; (let full := if crHandleValid r then t.changeHandle ag.core (crHandle r) (handleNext (t.handle ag.core (crHandle r)) .full) else t;
     (dns (attempt ag (postBytes ag (crBar r) (crBcount r)) full)).any fun qq18 =>
     (let u := qq18.2; (let flag := store ag .scalar (crFlag r) (toBytes 8 (crFval r).toNat) 8;
     ((if crFlag r = 0 then [u] else (dns (attempt ag flag u)).map (·.2))).any fun v =>
     (dns (attempt ag (load ag .engine at_ 8 8) v)).any fun _ => true)))))) = true) :=
  ⟨⟨ks 0x2000 9, .reg 1, .reg 2, by decide +kernel⟩,
   ⟨(ks 1 0).modCore 0 (fun k => k.setChan 1 { Channel.idle with busy := true }) |>.modSeq ⟨0, .K, .pipe⟩ (fun q => { q with detm := true }), .reg 1, .reg 2, by decide +kernel⟩,
   ⟨(ks 0x2000 0).modSeq ⟨0, .K, .pipe⟩ (fun q => { q with xforms := [⟨1, .discard, 0x80, 0, .fill, 1, 0, none, []⟩] }), .reg 1, .reg 2, by decide +kernel⟩,
   ⟨recsS (cr 0xFF00800000001000 0xFF00800000003000 64 0 0), .reg 1, .reg 2, by decide +kernel⟩,
   ⟨(ks 0x2000 1).modCore 0 (fun k => k.setChan 1 { Channel.idle with busy := true }), .reg 1, .reg 2, by decide +kernel⟩,
   ⟨ks 2 0, .reg 3, .reg 1, by decide +kernel⟩,
   ⟨(ks 1 0).modCore 0 (fun k => k.setChan 1 { Channel.idle with busy := true }) |>.modSeq ⟨0, .K, .pipe⟩ (fun q => { q with detm := true }), .reg 3, .reg 1, by decide +kernel⟩,
   ⟨ks 2 0, .reg 3, .reg 1, by decide +kernel⟩,
   ⟨(ks 1 0).modCore 0 (fun k => k.setChan 1 { Channel.idle with busy := true }) |>.modSeq ⟨0, .K, .pipe⟩ (fun q => { q with detm := true }), .reg 3, .reg 1, by decide +kernel⟩,
   ⟨(ks 0x2000 0).modSeq ⟨0, .K, .pipe⟩ (fun q => { q with xforms := [⟨1, .discard, 0x80, 0, .fill, 1, 0, none, []⟩] }), .reg 3, .reg 1, by decide +kernel⟩,
   ⟨(ks 0x2000 0).modSeq ⟨0, .K, .pipe⟩ (fun q => { q with xforms := [⟨1, .discard, 0x80, 0, .fill, 1, 0, none, []⟩] }), 0, 0, by decide +kernel⟩,
   ⟨(recs 0).modCore 0 (fun k => k.setChan 1 { k.chan 1 with work := some (rw (cr 0x1000 0x3000 64 0 0) 0 0) }), 0, 1, by decide +kernel⟩,
   ⟨{ recs 0 with rcbs := [(0, { rootRcb with fence := true })] }, 0, 1, by decide +kernel⟩,
   ⟨recsS 0, 0, 1, by decide +kernel⟩,
   ⟨recsS (cr 0xFF00800000001000 0xFF00800000003000 64 0 0), 0, 1, by decide +kernel⟩,
   ⟨rw (cr 0x1000 0x3000 64 0 0) 0x312 0, by decide +kernel⟩,
   ⟨rw (cr 0x1000 0x3000 64 8 0) 0 5, by decide +kernel⟩,
   ⟨(tK.unitAgent 0 0 6 false (some ⟨0, 0⟩)), 0x2000, rw (cr 0x1000 0x3000 64 0 0 + 2 ^ 256 * 0xFF00800005002000) 0 0, (recs 0).setTokens 0 0 (List.replicate 16 7), by decide +kernel⟩,
   ⟨(tK.unitAgent 0 0 6 false (some ⟨0, 0⟩)), 0x2000, rw (cr 0x1000 0x3000 64 0 0) 0 0, (ks 0x2000 0).modSeq ⟨0, .K, .pipe⟩ (fun q => { q with xforms := [⟨1, .discard, 0x80, 0, .fill, 1, 0, none, []⟩] }), by decide +kernel⟩⟩

/-- `Obligations.StorageQueues`: states and operands that meet its hypotheses, clause by clause. -/
theorem witness_StorageQueues :
  (∃ (s : State) (d : Dst) (a : Src) (b : Src), ((operandsReady s [a, b] d) &&
     (let n := (srcVal (srcPop s a) b).toNat; decide (63 < n))) = true) ∧
  (∃ (s : State) (d : Dst) (a : Src) (b : Src), ((operandsReady s [a, b] d) &&
     (let s2 := eaPop s a b; (let n := (srcVal (srcPop s a) b).toNat; (let p := s.pair n;
     decide (n ≤ 63) && decide ((p.enabled = false ∨ p.tenant ≠ s2.me.tenant)))))) = true) ∧
  (∃ (s : State) (d : Dst) (a : Src) (b : Src), ((operandsReady s [a, b] d) &&
     (let s2 := eaPop s a b; (let x := srcVal s a; (let n := (srcVal (srcPop s a) b).toNat;
     (let p := s.pair n; decide (n ≤ 63) && p.enabled && decide (p.tenant = s2.me.tenant) &&
     (let next := (p.sqtail + 1) % (p.sqsize + 1); decide (next ≠ p.sqhead) &&
     (s.firstFor 5 (2 * n)) && decide (s.releaseHeld .release .system = false) &&
     (oks (load s2.me .vector x 64 64 s2)).any fun qq20 => (let l := qq20.1;
     (let t := qq20.2; (oks (store s2.me .vector (p.sqbase + BitVec.ofNat 64 (64 * p.sqtail)) l 64 t)).any fun _ =>
     true)))))))) = true) ∧
  (∃ (s : State) (d : Dst) (a : Src) (b : Src), ((operandsReady s [a, b] d) &&
     (let s2 := eaPop s a b; (let n := (srcVal (srcPop s a) b).toNat; (let p := s.pair n;
     decide (n ≤ 63) && p.enabled && decide (p.tenant = s2.me.tenant) &&
     (let next := (p.sqtail + 1) % (p.sqsize + 1); decide (next ≠ p.sqhead) &&
     decide (s.firstFor 5 (2 * n) = false)))))) = true) ∧
  (∃ (s : State) (d : Dst) (a : Src) (b : Src), ((operandsReady s [a, b] d) &&
     (let s2 := eaPop s a b; (let n := (srcVal (srcPop s a) b).toNat; (let p := s.pair n;
     decide (n ≤ 63) && p.enabled && decide (p.tenant = s2.me.tenant) &&
     (let next := (p.sqtail + 1) % (p.sqsize + 1); decide (next = p.sqhead) &&
     decide (s.seq.detm = false)))))) = true) ∧
  (∃ (s : State) (d : Dst) (a : Src) (b : Src) (nb : Bool), ((operandsReady s [a, b] d) &&
     (let s2 := eaPop s a b; (let n := (srcVal (srcPop s a) b).toNat; (let p := s.pair n;
     decide (n ≤ 63) && p.enabled && decide (p.tenant = s2.me.tenant) &&
     (let next := (p.sqtail + 1) % (p.sqsize + 1); decide (next = p.sqhead) &&
     decide ((nb = false ∨ s.seq.detm = true))))))) = true) ∧
  (∃ (s : State) (d : Dst) (a : Src) (b : Src) (chk : Bool), ((operandsReady s [a, b] d) &&
     (let s2 := eaPop s a b; (let x := srcVal s a; (let n := (srcVal (srcPop s a) b).toNat;
     (let p := s.pair n; decide (n ≤ 63) && p.enabled && decide (p.tenant = s2.me.tenant) &&
     (oks (load s2.me .vector (p.cqbase + BitVec.ofNat 64 (16 * p.cqhead)) 16 16 s2)).any fun qq21 =>
     (let l := qq21.1; (let t := qq21.2; (let e := (fun (k : Nat) => (( ofBytes (l.drop (4 * k)) % 2 ^ 32) : Nat));
     decide (e 3 / 2 ^ 16 % 2 = p.phase) && (s.firstFor 5 (2 * n + 1)) &&
     decide ((chk = true → e 3 / 2 ^ 17 = 0)) && ((if x = 0 then [t] else (oks (store s2.me .vector x l 16 t)).map (·.2))).any fun _ =>
     true)))))))) = true) ∧
  (∃ (s : State) (d : Dst) (a : Src) (b : Src), ((operandsReady s [a, b] d) &&
     (let s2 := eaPop s a b; (let n := (srcVal (srcPop s a) b).toNat; (let p := s.pair n;
     decide (n ≤ 63) && p.enabled && decide (p.tenant = s2.me.tenant) &&
     (oks (load s2.me .vector (p.cqbase + BitVec.ofNat 64 (16 * p.cqhead)) 16 16 s2)).any fun qq21 =>
     (let l := qq21.1; (let e := (fun (k : Nat) => (( ofBytes (l.drop (4 * k)) % 2 ^ 32) : Nat));
     decide ((e 3 / 2 ^ 16 % 2 ≠ p.phase ∨ s.firstFor 5 (2 * n + 1) = false)))))))) = true) :=
  ⟨⟨nv 0x1000 70 p0 0, .reg 3, .reg 1, .reg 2, by decide +kernel⟩,
   ⟨nv 0 5 { p0 with enabled := false } 0, .reg 3, .reg 1, .reg 2, by decide +kernel⟩,
   ⟨nv 0x1000 3 p0 0, .reg 3, .reg 1, .reg 2, by decide +kernel⟩,
   ⟨{ (nv 0x1000 3 p0 0).setCore 1 other with waiters := [⟨⟨1, .K, .pipe⟩, 5, 6, 0⟩] }, .reg 3, .reg 1, .reg 2, by decide +kernel⟩,
   ⟨nv 0 63 { p0 with sqtail := 3 } 0x10000, .reg 3, .reg 1, .reg 2, by decide +kernel⟩,
   ⟨nv 0 63 { p0 with sqtail := 3 } 0x10000, .reg 3, .reg 1, .reg 2, false, by decide +kernel⟩,
   ⟨nv 0 63 { p0 with sqtail := 3 } 0x10000, .reg 3, .reg 1, .reg 2, false, by decide +kernel⟩,
   ⟨{ (nv 0x1000 3 p0 0).setCore 1 other with waiters := [⟨⟨1, .K, .pipe⟩, 5, 6, 0⟩] }, .reg 3, .reg 1, .reg 2, by decide +kernel⟩⟩

end UnitParts

namespace TaskParts

def mem (s : State) (a : Nat) (l : List Nat) : State := setDevBytes s a (l.map fun n => BitVec.ofNat 8 n)
def rb (n v : Nat) : List Nat := (toBytes n v).map (·.toNat)
def ks (x : Tab Word) : State := tState ⟨0, .K, .pipe⟩ (tCtx .K x [(0, [5])])
def md (s : State) (f : Seq → Seq) : State := s.modSeq ⟨0, .K, .pipe⟩ f
def rec0 (kind gang nbox npred : Nat) : Nat := kind + 8 * gang + 2 ^ 17 * nbox + 2 ^ 20 * npred + 0x200 * 2 ^ 64 + 7 * 2 ^ 128
def tp (r : Nat) : State := mem (ks [(1, 0x1000), (2, 0), (4, 0x5000)]) 0x1000 (rb 320 r)
def rgd (sp rank ver es : Nat) (ext : Nat) (base id : Nat) : Nat := base + id * 2 ^ 64 + sp * 2 ^ 72 + rank * 2 ^ 80 + ver * 2 ^ 88 + es * 2 ^ 96 + ext * 2 ^ 128 + es * 2 ^ 256
def wreg (s : State) : State := s.modGrove 0 fun k => { k with regions := [(3, { desc := BitVec.ofNat 512 (rgd 2 1 2 4 100 0x10000 3), tenant := 0, rcb := 0, current := 0 })] }
def boxed : Nat := rec0 1 0 1 0 + (3 + 2 ^ 8 + 2 ^ 10) * 2 ^ 512 + 100 * 2 ^ (512 + 96)
def tp0 : State := wreg (tp boxed)
def tp1 : State := wreg (tp (rec0 0 1 0 0))
def tp2 : State := tp (rec0 7 0 0 0)
def tp3 : State := { tp (rec0 0 0 0 0) with rcbs := [(0, { rootRcb with window := 1, useWindow := [(0, 1)] })] }
def tp4 : State := { tp (rec0 2 0 0 0) with rcbs := [(0, { rootRcb with fabric := 1, useFabric := 1, cls := 3 })] }
def pw (dev g fk : Nat) : Word := BitVec.ofNat 64 (dev + g * 2 ^ 21 + fk * 2 ^ 28)
def tp6 : State := (((tp (rec0 2 0 0 0)).modSeq ⟨0, .K, .pipe⟩ fun q => { q with x := Tab.set 0 q.x 2 (pw 5 95 0) }).modLink 0 fun l => { l with up := true }).modLink 1 fun l => { l with up := true }
def tp7 : State := ((tp (rec0 2 0 0 0)).modSeq ⟨0, .K, .pipe⟩ fun q => { q with x := Tab.set 0 q.x 2 (pw 5 95 0) })
def wreq : PostReq := { record := BitVec.ofNat 2560 (rec0 0 0 0 0), addr := 0x1000, poster := .stream ⟨0, .K, .pipe⟩ (some ⟨0, 0⟩) true (.reg 3) (.reg 1) 0 }
def tp8 : State := md ((tp (rec0 0 0 0 0)).modGrove 0 fun k => { k with waiting := [wreq] }) fun q => { q with waiting := true }
def tp9 : State := tp8.modGrove 0 fun k => { k with waiting := [{ wreq with poster := .host 0 1 4 }, wreq] }
def own : OpOwner := { core := 0, tenant := 0, rcb := 0, levels := [0], job := none, by_ := ⟨0, .K, .pipe⟩, task := some ⟨0, 0⟩, pc := 0x80, order := 0, det := true, link := some 0 }
def rm : RemotePost := { device := 5, op := 3, grove := 0, fkey := 0, record := BitVec.ofNat 2560 (rec0 0 0 0 0) }
def tp11 : State := { tp8 with remote := [(0, .post own 5 (some 0x5000) rm 0 true), (1, .post { own with det := false } 0 (some 0x5000) rm 0 true)] }
def tp12 : State := md (tp (rec0 0 0 0 0)) fun q => { q with xforms := [⟨1, .discard, 0x80, 0, .fill, 1, 0, none, []⟩] }
def pstr : Poster → List (Stream × Option TaskRef × Bool × Dst × Src × Word) | .stream a b c d e f => [(a, b, c, d, e, f)] | _ => []
def rpost : RemoteOp → List (OpOwner × Nat × Option Word × RemotePost × Word × Bool) | .post a b c d e f => [(a, b, c, d, e, f)] | _ => []
def ent (st : EState) (seq : Nat) (e a : Nat) (early : Bool) (g : Option Nat) : Entry := { placedEntry 0 0 with state := st, postSeq := seq, edges := BitVec.ofNat 256 e, anc := BitVec.ofNat 256 a, early := early, gang := g }
def tw (x : Nat) (f : Seq → Seq) : State := md ((ks [(1, BitVec.ofNat 64 x)]).modGrove 0 fun k => { k with postSeq := 5, window := [(0, ent .issued 2 0 0 false none), (1, ent .waiting 3 1 1 false none), (7, ent .issued 4 0 0 true none)] }) f
def rd (x : Nat) : State := mem (wreg (ks [(1, 0x1000), (2, 0)])) 0x1000 (rb 64 x)
def dr (id : Nat) (w : Bool) : State := (wreg (ks [(1, BitVec.ofNat 64 id)])).modGrove 0 fun k => if w then { k with window := Tab.put k.window 9 { ent .waiting 3 0 0 false none with record := BitVec.ofNat 2560 boxed, binds := [0] } } else k
def we (f : Grove → Grove) : State := (wreg (ks [])).modGrove 0 f
def ge (kind : Nat) (st : EState) (seq : Nat) (e : Nat) : Entry := { ent st seq e 0 false none with record := BitVec.ofNat 2560 (rec0 kind 0 0 0), engine := none }
def we0 : State := we fun k => { k with checks := [1, 2], window := [(0, ent .issued 2 0 0 false none), (1, { ge 0 .checking 3 0 with poster := .host 0 0 0 }), (2, ge 0 .checking 4 2)], postSeq := 5 }
def we1 : State := we fun k => { k with window := [(0, ent .issued 2 0 0 false none), (1, ge 0 .retiring 3 0), (2, ge 0 .waiting 4 2), (3, ge 0 .retiring 4 2)], resolves := [(1, [2, 3])], postSeq := 5 }
def we2 : State := { we (fun k => { k with window := [(0, ent .issued 2 0 0 false none), (1, ge 1 .ready 3 0), (2, ge 1 .ready 1 0), (3, ge 2 .ready 4 2)], postSeq := 5, lseed := 77 }) with rcbs := [(0, { rootRcb with tickets := 3, cls := 2 })] }
def we3 : State := { (ks []).modGrove 1 (fun k => { k with window := [(1, ge 1 .ready 3 0), (2, ge 1 .ready 1 0)], postSeq := 5, lseed := 77 }) with rcbs := [(0, { rootRcb with tickets := 3, cls := 2 })] }
def gg (st : EState) : Entry := { ge 0 st 3 0 with gang := some 0 }
def we4 : State := we fun k => { k with window := [(0, ent .issued 2 0 0 false none), (1, gg .retiring), (2, gg .retiring)], postSeq := 5 }
def we5 : State := we fun k => { k with window := [(0, ent .issued 2 0 0 false none), (1, gg .retiring), (2, gg .waiting)], postSeq := 5 }
def pre (l : List (Nat × Nat)) : List ((Nat × Nat) × List (Nat × Nat)) := (List.range l.length).map fun i => (l.getD i (0, 0), l.take i)
def ckp : List Nat → List (Nat × List Nat) | a :: b => [(a, b)] | _ => []

/-- `Obligations.TaskPosts`: states and operands that meet its hypotheses, clause by clause. -/
theorem witness_TaskPosts :
  (∃ (s : State) (d : Dst) (a : Src) (nb : Bool), ((operandsReady s [a] d) &&
     (recAt (srcPop s a) (srcVal s a)).any fun qq1 => (let r := qq1.1; (let t := qq1.2;
     (let q := postReqOf s d a nb r; (fits s r (srcVal s a) t).any fun _ => decide ((t.nextPost s.homeGrove = none ∨ (t.nextPost s.homeGrove).any (fun p => p.poster == q.poster) = true)))))) = true) ∧
  (∃ (s : State) (d : Dst) (a : Src), ((operandsReady s [a] d) && (recAt (srcPop s a) (srcVal s a)).any fun qq1 =>
     (let r := qq1.1; (recMalformed r))) = true) ∧
  (∃ (s : State) (d : Dst) (a : Src), ((operandsReady s [a] d) && (recAt (srcPop s a) (srcVal s a)).any fun qq1 =>
     (let r := qq1.1; (let t := qq1.2; decide (recMalformed r = false) &&
     decide (postFailure t s.homeGrove ((t.grove s.homeGrove).openGang s.taskNow) r (srcVal s a) = none) &&
     ((t.xformsOpen || t.remoteOpenTo ownDevice))))) = true) ∧
  (∃ (s : State) (d : Dst) (a : Src), ((operandsReady s [a] d) && (recAt (srcPop s a) (srcVal s a)).any fun qq1 =>
     (let r := qq1.1; (let t := qq1.2; decide (recMalformed r = false) &&
     decide (postFailure t s.homeGrove ((t.grove s.homeGrove).openGang s.taskNow) r (srcVal s a) = none) &&
     decide ((t.xformsOpen || t.remoteOpenTo ownDevice) = false) && decide ((t.windowFull s.homeGrove (recRcb r) = true ∨ (t.grove s.homeGrove).freeSlot false = none))))) = true) ∧
  (∃ (s : State) (g : Nat), ((ops (s.nextPost g)).any fun qq6 => (let q := qq6;
     (pstr q.poster).any fun z => (let st := z.1; (let d := z.2.2.2.1; (let a := z.2.2.2.2.1;
     (let v := { s with cur := st }; (operandsReady v [a] d) && (recAt (srcPop v a) (srcVal v a)).any fun qq2 =>
     (let r := qq2.1; (let t := qq2.2; (fits v r (srcVal v a) t).any fun _ =>
     true)))))))) = true) ∧
  (∃ (s : State) (g : Nat), ((ops (s.nextPost g)).any fun qq6 => (let q := qq6;
     (let v := leaveWaiting g q s; decide (q.poster.isLocal = false) &&
     (v.active (recRcb q.record)) && decide (v.refuses q = false) && decide (postFailure v g none q.record q.addr = none) &&
     decide (v.windowFull g (recRcb q.record) = false) && (ops ((v.grove g).freeSlot true)).any fun _ =>
     true))) = true) ∧
  (∃ (s : State) (d : Dst) (a : Src) (b : Src), ((operandsReady s [a, b, d.asSrc] .discard) &&
     (let w := srcVal (srcPop s a) b; (let v := srcVal (eaPop s a b) d.asSrc;
     decide (fld w 21 7 ≤ 95) && decide (fld w 60 4 = 0) && decide (v.toNat % 8 = 0) &&
     (recAt (srcPop (eaPop s a b) d.asSrc) (srcVal s a)).any fun qq3 =>
     (let r := qq3.1; decide ((recMalformed r = true ∨ recGang r = true)))))) = true) ∧
  (∃ (s : State) (d : Dst) (a : Src) (b : Src), ((operandsReady s [a, b, d.asSrc] .discard) &&
     (let w := srcVal (srcPop s a) b; (let v := srcVal (eaPop s a b) d.asSrc;
     decide (fld w 21 7 ≤ 95) && decide (fld w 60 4 = 0) && decide (v.toNat % 8 = 0) &&
     (recAt (srcPop (eaPop s a b) d.asSrc) (srcVal s a)).any fun qq3 =>
     (let r := qq3.1; (let t := qq3.2; decide (recMalformed r = false) &&
     decide (recGang r = false) && decide ((t.xformsOpen = true ∧ fld w 0 21 = ownDevice ∨ t.fabricFull t.seq.trcb = true))))))) = true) ∧
  (∃ (s : State) (d : Dst) (a : Src) (b : Src), ((operandsReady s [a, b, d.asSrc] .discard) &&
     (let w := srcVal (srcPop s a) b; (let v := srcVal (eaPop s a b) d.asSrc;
     decide (fld w 21 7 ≤ 95) && decide (fld w 60 4 = 0) && decide (v.toNat % 8 = 0) &&
     (recAt (srcPop (eaPop s a b) d.asSrc) (srcVal s a)).any fun qq3 =>
     (let r := qq3.1; (let t := qq3.2; decide (recMalformed r = false) &&
     decide (recGang r = false) && decide ((t.xformsOpen = false ∨ fld w 0 21 ≠ ownDevice)) &&
     decide (t.fabricFull t.seq.trcb = false) && (let u := jobCountBy t.seq.trcb true (chargeFabric t.seq.trcb true t);
     (reaches u))))))) = true) ∧
  (∃ (s : State) (d : Dst) (a : Src) (b : Src), ((operandsReady s [a, b, d.asSrc] .discard) &&
     (let w := srcVal (srcPop s a) b; (let v := srcVal (eaPop s a b) d.asSrc;
     decide (fld w 21 7 ≤ 95) && decide (fld w 60 4 = 0) && decide (v.toNat % 8 = 0) &&
     (recAt (srcPop (eaPop s a b) d.asSrc) (srcVal s a)).any fun qq3 =>
     (let r := qq3.1; (let t := qq3.2; decide (recMalformed r = false) &&
     decide (recGang r = false) && decide ((t.xformsOpen = false ∨ fld w 0 21 ≠ ownDevice)) &&
     decide (t.fabricFull t.seq.trcb = false) && (let u := jobCountBy t.seq.trcb true (chargeFabric t.seq.trcb true t);
     (cutOff u))))))) = true) ∧
  (∃ (s : State) (op : Nat), (((ops (Tab.find s.remote op)).flatMap rpost).any fun z =>
     (let at_ := z.2.2.2.2.1; (let f := z.2.2.2.2.2; f && decide (s.resendDue at_ = false)))) = true) ∧
  (∃ (s : State) (op : Nat), (((ops (Tab.find s.remote op)).flatMap rpost).any fun z =>
     (let at_ := z.2.2.2.2.1; (let f := z.2.2.2.2.2; f && (s.resendDue at_)))) = true) :=
  ⟨⟨tp0, .reg 4, .reg 1, false, by decide +kernel⟩,
   ⟨tp2, .reg 4, .reg 1, by decide +kernel⟩,
   ⟨tp12, .reg 4, .reg 1, by decide +kernel⟩,
   ⟨tp3, .reg 4, .reg 1, by decide +kernel⟩,
   ⟨tp8, 0, by decide +kernel⟩,
   ⟨tp9, 0, by decide +kernel⟩,
   ⟨tp1, .reg 4, .reg 1, .reg 2, by decide +kernel⟩,
   ⟨tp4, .reg 4, .reg 1, .reg 2, by decide +kernel⟩,
   ⟨tp6, .reg 4, .reg 1, .reg 2, by decide +kernel⟩,
   ⟨tp7, .reg 4, .reg 1, .reg 2, by decide +kernel⟩,
   ⟨tp11, 0, by decide +kernel⟩,
   ⟨{ tp11 with timer := 5000 }, 0, by decide +kernel⟩⟩

/-- `Obligations.TaskWaitsAndEnd`: states and operands that meet its hypotheses, clause by clause. -/
theorem witness_TaskWaitsAndEnd :
  (∃ (s : State) (d : Dst) (a : Src), ((operandsReady s [a] d) && (let home := s.homeGrove;
     (let g := s.grove home; (let p := (srcVal s a).toNat % 2 ^ 32; ([false, true]).any fun removed => decide (g.liveSeq p = none) &&
     decide ((s.seq.twait == some (home, p, removed)) = true))))) = true) ∧
  (∃ (s : State) (d : Dst) (a : Src), ((operandsReady s [a] d) && (let home := s.homeGrove;
     (let g := s.grove home; (let p := (srcVal s a).toNat % 2 ^ 32; decide (g.liveSeq p = none) &&
     decide (([false, true].all fun removed => s.seq.twait != some (home, p, removed)) = true) &&
     decide (g.ageOf p = .done))))) = true) ∧
  (∃ (s : State) (d : Dst) (a : Src), ((operandsReady s [a] d) && (let home := s.homeGrove;
     (let g := s.grove home; (let p := (srcVal s a).toNat % 2 ^ 32; decide (g.liveSeq p = none) &&
     decide (([false, true].all fun removed => s.seq.twait != some (home, p, removed)) = true) &&
     decide (g.ageOf p = .stale))))) = true) ∧
  (∃ (s : State) (d : Dst) (a : Src), ((operandsReady s [a] d) && (let home := s.homeGrove;
     (let g := s.grove home; (let p := (srcVal s a).toNat % 2 ^ 32; decide (g.liveSeq p = none) &&
     decide (([false, true].all fun removed => s.seq.twait != some (home, p, removed)) = true) &&
     decide (g.ageOf p = .future))))) = true) ∧
  (∃ (s : State) (d : Dst) (a : Src), ((operandsReady s [a] d) && (let home := s.homeGrove;
     (let g := s.grove home; (let p := (srcVal s a).toNat % 2 ^ 32; (ops (g.liveSeq p)).any fun qq9 =>
     (let slot := qq9; (ops (g.entry slot)).any fun qq10 => (let e := qq10;
     (let own := (match s.seq.task with | some t => t.slot | none => 256);
     decide ((slot = own ∨ bit e.anc own = true))))))))) = true) ∧
  (∃ (s : State) (d : Dst) (a : Src), ((operandsReady s [a] d) && (let home := s.homeGrove;
     (let g := s.grove home; (let p := (srcVal s a).toNat % 2 ^ 32; (ops (g.liveSeq p)).any fun qq9 =>
     (let slot := qq9; (ops (g.entry slot)).any fun qq10 => (let e := qq10;
     (let own := (match s.seq.task with | some t => t.slot | none => 256);
     decide (slot ≠ own) && decide (bit e.anc own = false)))))))) = true) ∧
  (∃ (s : State), (decide ((s.ownEntry).all (fun e => e.early = false ∨ e.edges = 0) = true)) = true) ∧
  (∃ (s : State), (decide ((s.ownEntry).any (fun e => e.early = true ∧ e.edges ≠ 0) = true)) = true) ∧
  (∃ (s : State), ((ops (s.seq.task)).any fun _ => true) = true) ∧
  (∃ (s : State), (s.tendWaits) = true) ∧
  (∃ (s : State), (decide (s.tendWaits = false) && decide (s.tendTrap = none)) = true) ∧
  (∃ (s : State), (decide (s.tendWaits = false) && (ops (s.tendTrap)).any fun _ =>
     true) = true) :=
  ⟨⟨tw 1 (fun q => { q with twait := some (0, 1, true) }), .reg 3, .reg 1, by decide +kernel⟩,
   ⟨tw 1 id, .reg 3, .reg 1, by decide +kernel⟩,
   ⟨tw 0xFFFF0000 id, .reg 3, .reg 1, by decide +kernel⟩,
   ⟨tw 6 id, .reg 3, .reg 1, by decide +kernel⟩,
   ⟨tw 2 id, .reg 3, .reg 1, by decide +kernel⟩,
   ⟨tw 4 id, .reg 3, .reg 1, by decide +kernel⟩,
   ⟨tw 2 id, by decide +kernel⟩,
   ⟨(tw 5 (fun q => { q with task := some ⟨0, 7⟩ })).modGrove 0 (fun k => { k with window := Tab.put k.window 7 (ent .issued 4 2 2 true none) }), by decide +kernel⟩,
   ⟨tw 2 id, by decide +kernel⟩,
   ⟨tw 0 (fun q => { q with xforms := [⟨1, .reg 4, 0x80, 0, .fill, 1, 0, none, []⟩] }), by decide +kernel⟩,
   ⟨tw 2 id, by decide +kernel⟩,
   ⟨tw 0 (fun q => { q with deferred := [⟨0x341, 0x80, 7, 0, 0, true, 0, 0⟩] }), by decide +kernel⟩⟩

/-- `Obligations.RegionInstructions`: states and operands that meet its hypotheses, clause by clause. -/
theorem witness_RegionInstructions :
  (∃ (s : State) (d : Dst) (a : Src), ((operandsReady s [a] d) && (oks (load (srcPop s a).me .vector (srcVal s a) 64 64 (srcPop s a))).any fun qq13 =>
     (let l := qq13.1; (let raw := (( BitVec.ofNat 512 (ofBytes l)) : RegDesc);
     (rdMalformed raw)))) = true) ∧
  (∃ (s : State) (d : Dst) (a : Src), ((operandsReady s [a] d) && (oks (load (srcPop s a).me .vector (srcVal s a) 64 64 (srcPop s a))).any fun qq13 =>
     (let l := qq13.1; (let t := qq13.2; (let raw := (( BitVec.ofNat 512 (ofBytes l)) : RegDesc);
     (let home := s.homeGrove; (let r := resolveSelf s.cur.core raw; decide (rdMalformed raw = false) &&
     decide ((rdSpace raw ≠ 2 → rdCore raw = 16 → home = groveOf s.cur.core)) &&
     (((t.grove home).region (rdId r)).isSome))))))) = true) ∧
  (∃ (s : State) (d : Dst) (a : Src), ((operandsReady s [a] d) && (oks (load (srcPop s a).me .vector (srcVal s a) 64 64 (srcPop s a))).any fun qq13 =>
     (let l := qq13.1; (let t := qq13.2; (let raw := (( BitVec.ofNat 512 (ofBytes l)) : RegDesc);
     (let home := s.homeGrove; (let r := resolveSelf s.cur.core raw; (let new := (( { desc := r, tenant := (srcPop s a).me.tenant, rcb := (srcPop s a).me.rcb, current := 0 }) : Region);
     (let w := regionWindow new home; decide (rdMalformed raw = false) &&
     decide ((rdSpace raw ≠ 2 → rdCore raw = 16 → home = groveOf s.cur.core)) &&
     decide ((t.grove home).region (rdId r) = none) && decide ((rdSpace r ≠ 2 → gapIn (t.tenant new.tenant).ocw (w + (rdSpan r).1.toNat) ((rdSpan r).2 - (rdSpan r).1).toNat = none)) &&
     decide (((t.grove home).regions.find? fun e => regionsConflict home new e.2) = none) &&
     decide (t.levelOf new.rcb (fun k => k.hbm != 0 && decide (k.hbm < k.useHbm + regionUnits r)) = none))))))))) = true) ∧
  (∃ (s : State) (a : Src), ((operandsReady s [a] .discard) && (let id := (srcVal s a).toNat;
     decide (127 < id))) = true) ∧
  (∃ (s : State) (a : Src), ((operandsReady s [a] .discard) && (let id := (srcVal s a).toNat;
     (let home := s.homeGrove; decide (id ≤ 127) && decide ((s.grove home).region id = none)))) = true) ∧
  (∃ (s : State) (a : Src), ((operandsReady s [a] .discard) && (let id := (srcVal s a).toNat;
     (let home := s.homeGrove; decide (id ≤ 127) && (ops ((s.grove home).region id)).any fun qq14 =>
     (let r := qq14; decide (r.tenant = (srcPop s a).me.tenant) && decide ((s.ownEntry).all (fun e =>
     (recBoxes e.record).all fun b => b.region != id) = true) && decide ((∀ p ∈ (s.grove home).liveBoxes, p.1.region ≠ id)))))) = true) ∧
  (∃ (s : State) (a : Src), ((operandsReady s [a] .discard) && (let id := (srcVal s a).toNat;
     (let home := s.homeGrove; decide (id ≤ 127) && (ops ((s.grove home).region id)).any fun qq14 =>
     (let r := qq14; decide (r.tenant = (srcPop s a).me.tenant) && decide ((s.ownEntry).all (fun e =>
     (recBoxes e.record).all fun b => b.region != id) = true) && decide ((∃ p ∈ (s.grove home).liveBoxes, p.1.region = id)))))) = true) :=
  ⟨⟨rd (rgd 0 2 2 4 100 0x20 4), .reg 3, .reg 1, by decide +kernel⟩,
   ⟨rd (rgd 2 1 2 4 100 0x20000 3), .reg 3, .reg 1, by decide +kernel⟩,
   ⟨rd (rgd 2 1 2 4 100 0x20000 4), .reg 3, .reg 1, by decide +kernel⟩,
   ⟨rd (rgd 2 1 2 4 100 0x20000 4), .reg 1, by decide +kernel⟩,
   ⟨dr 4 false, .reg 1, by decide +kernel⟩,
   ⟨dr 3 false, .reg 1, by decide +kernel⟩,
   ⟨dr 3 true, .reg 1, by decide +kernel⟩⟩

/-- `Obligations.WindowEvents`: states and operands that meet its hypotheses, clause by clause. -/
theorem witness_WindowEvents :
  (∃ (s : State) (g : Nat), ((ckp (s.grove g).checks).any fun z => (let slot := z.1;
     (ops ((s.grove g).entry slot)).any fun _ => true)) = true) ∧
  (∃ (s : State) (g : Nat) (slot : Nat), ((ops ((s.grove g).entry slot)).any fun qq16 =>
     (let e := qq16; decide (e.gang = none) && decide (e.state = .retiring) &&
     decide (e.edges = 0) && (s.workDone ⟨g, slot⟩))) = true) ∧
  (∃ (s : State) (g : Nat) (slot : Nat), ((ops ((s.grove g).entry slot)).any fun qq16 =>
     (let e := qq16; decide (e.gang = none) && decide ((e.state ≠ .retiring ∨ e.edges ≠ 0 ∨ s.workDone ⟨g, slot⟩ = false)))) = true) ∧
  (∃ (s : State) (g : Nat) (slot : Nat), ((ops ((s.grove g).entry slot)).any fun qq17 =>
     (let e := qq17; (ops (e.gang)).any fun qq18 => (let f := qq18; (let ms := (s.grove g).window.filter fun m => m.2.gang == some f;
     decide ((∀ m ∈ ms, m.2.state = .retiring ∧ m.2.edges = 0 ∧ s.workDone ⟨g, m.1⟩ = true)))))) = true) ∧
  (∃ (s : State) (g : Nat) (slot : Nat), ((ops ((s.grove g).entry slot)).any fun qq17 =>
     (let e := qq17; (ops (e.gang)).any fun qq18 => (let f := qq18; (let ms := (s.grove g).window.filter fun m => m.2.gang == some f;
     decide ((∃ m ∈ ms, m.2.state ≠ .retiring ∨ m.2.edges ≠ 0 ∨ s.workDone ⟨g, m.1⟩ = false)))))) = true) ∧
  (∃ (s : State) (g : Nat) (slot : Nat) (_ : Nat × List Nat), ((ops ((s.grove g).resolves.find? (fun r => r.1 == slot))).any fun _ =>
     true) = true) ∧
  (∃ (s : State) (core : Nat) (engine : Nat), (decide (s.overtemp = false) &&
     (let g := groveOf core; (let l := s.ownEligible core engine; decide (((s.drawers g).head? == some (core, engine)) = true) &&
     decide ((s.grove g).stopped = false) && (ops (drawEntry s g l)).any fun _ =>
     true))) = true) ∧
  (∃ (s : State) (core : Nat) (engine : Nat), (decide (s.overtemp = false) &&
     (let g := groveOf core; decide ((s.drawers g).head? ≠ some (core, engine)))) = true) ∧
  (∃ (s : State) (core : Nat) (engine : Nat) (_ : Nat × Entry), (decide (s.overtemp = false) &&
     (let g := groveOf core; (let l := s.ownEligible core engine; (s.engineIdle core engine) &&
     decide (((s.grove g).stopped = true ∨ l = [])) && (pre (probes core)).any fun z =>
     (let how := z.1.1; (let h := z.1.2; (let before := z.2; decide ((∀ p ∈ before, ((s.grove p.2).window.filter fun e => s.stealable p.2 core engine (p.1 == 2) e.2) = [])) &&
     (let m := (s.grove h).window.filter fun e => s.stealable h core engine (how == 2) e.2;
     decide ((s.grove h).stopped = false) && decide (m ≠ []) && (ops (drawEntry s h m)).any fun _ =>
     true))))))) = true) :=
  ⟨⟨we0, 0, by decide +kernel⟩,
   ⟨we1, 0, 1, by decide +kernel⟩,
   ⟨we0, 0, 0, by decide +kernel⟩,
   ⟨we4, 0, 1, by decide +kernel⟩,
   ⟨we5, 0, 1, by decide +kernel⟩,
   ⟨we1, 0, 1, (0, []), by decide +kernel⟩,
   ⟨we2, 0, 1, by decide +kernel⟩,
   ⟨we0, 0, 0, by decide +kernel⟩,
   ⟨we3, 0, 1, (0, placedEntry 0 0), by decide +kernel⟩⟩

end TaskParts

namespace FabricParts

def mem (s : State) (a : Nat) (l : List Nat) : State := setDevBytes s a (l.map fun n => BitVec.ofNat 8 n)
def rb (n v : Nat) : List Nat := (toBytes n v).map (·.toNat)
def ks (x : Tab Word) : State := tState ⟨0, .K, .pipe⟩ (tCtx .K x [(0, [5])])
def md (s : State) (f : Seq → Seq) : State := s.modSeq ⟨0, .K, .pipe⟩ f
def up (s : State) : State := (s.modLink 0 fun l => { l with up := true }).modLink 1 fun l => { l with up := true }
def dd (r l len flag finc crec : Nat) : Nat := r + l * 2 ^ 64 + len * 2 ^ 128 + flag * 2 ^ 192 + finc * 2 ^ 256 + crec * 2 ^ 320
def rr (v : Nat) (w : Word) (n : Nat := 64) : State := mem (mem (ks [(1, 0xFF00800000001000), (2, w)]) 0x800000001000 (rb n v)) 0x800000003000 ((List.range 8).map (· + 1))
def cdv : Nat := 0xFF00800000003000 + 64 * 2 ^ 64 + 2 * 2 ^ 96 + 3 * 2 ^ 128 + 0x2000 * 2 ^ 192 + 5 * 2 ^ 512 + 0x4000 * 2 ^ 576 + 0x5000 * 2 ^ 640 + 6 * 2 ^ 704 + 0x4000 * 2 ^ 768
def pend : State := (rr 0 0).modCore 0 fun k => { k with remote := [(0, (⟨0, 0⟩, ⟨0x380, 0x80, 7, 3, 0, true, 0, 0⟩))] }
def xop : State := md (rr 0 0) fun q => { q with xforms := [⟨1, .discard, 0x80, 0, .fill, 1, 0, none, []⟩] }
def acc (k : RemKind) (kid : Nat) (peers : List (Word × Word × Word)) (set : Bool) : RemoteAccess := { device := 5, op := 3, kind := k, dest := BitVec.ofNat 64 (kid * 2 ^ 31), raddr := 0xFF00800000004000, data := (List.range 64).map (BitVec.ofNat 8), length := 64, rflag := 0xFF00800000005000, finc := 3, set := set, peers := peers, index := 0 }
def own : OpOwner := { core := 0, tenant := 0, rcb := 0, levels := [0], job := none, by_ := ⟨0, .K, .pipe⟩, task := some ⟨0, 0⟩, pc := 0x80, order := 0, det := false, link := some 0 }
def ra : State := { (up (rr 0 0)).placeProgram .K [] with forwards := [acc .chain 0 [] false, { acc .chain 0 [] false with dest := 5 }], remote := [(0, .store own [(5, 0x4000, 0x5000), (6, 0x4008, 0x5008)] 0x2000 64), (1, .store own [(5, 0x4000, 0x5000), (6, 0x4008, 0x5008)] 0 64), (2, .load own 5 0x2000 0x9000 0xFF00800000006000 64 0x5000), (3, .rmcr own 0x2000 0xFF00800000006000 64 0xFF00800000005000 3)] }
def fst1 : RemoteOp → List (OpOwner × List (Nat × Word × Word) × Word × Nat) | .store a b c d => [(a, b, c, d)] | _ => []
def fld1 : RemoteOp → List (OpOwner × Nat × Word × Word × Word × Nat × Word) | .load a b c d e f g => [(a, b, c, d, e, f, g)] | _ => []
def frm1 : RemoteOp → List (OpOwner × Word × Word × Nat × Word × Word) | .rmcr a b c d e f => [(a, b, c, d, e, f)] | _ => []
def prs : List (Word × Word × Word) → List ((Word × Word × Word) × List (Word × Word × Word)) | a :: b => [(a, b)] | _ => []
def bs (w : Word) : State := mem (mem (ks [(1, 0xFF00800000001000), (2, w)]) 0x800000001000 (rb 64 (0xFF00800000003000 + 600 * 2 ^ 64 + 9 * 2 ^ 128 + 1 * 2 ^ 160 + 0x2000 * 2 ^ 192))) 0x800000003000 ((List.range 8).map (· + 1))
def snd1 : Send := { owner := own, dest := 5, laddr := 0xFF00800000003000, length := 20000, tag := 9, cls := 1, crec := 0x2000, state := 2, sent := 100, pfxEnd := 0, asked := true, sentAt := 0, refused := true, tokens := [] }
def full : State := { bs 5 with sends := (List.range 1024).map fun n => (n, snd1) }
def bud : State := { bs 5 with rcbs := [(0, { rootRcb with fabric := 1, useFabric := 1 })] }
def req1 : Req := { device := 5, id := 4, rcb := 0, length := 30000, tag := 9, cls := 1, order := 3, state := 3, recv := some 2, pfx := 0, next := 16384, received := 100, lapsed := [], tokens := [⟨0, 8192, 1, 0, 0⟩, ⟨8192, 8192, 0, 4096, 0⟩], gens := [], expiries := 2, lastData := 0, lives := [] }
def rcv1 : Recv := { buf := 0xFF00800000010000, cap := 100000, tag := 9, tmask := 0xF, crec := 0x2000, rcb := 0, order := 1, core := 0, req := some (5, 4) }
def bst (x : Word) : State := { ks [(1, x)] with reqs := [req1], recvs := [(2, rcv1)], sends := [(2, snd1)] }
def hld : State := { up { ks [] with sends := [(2, snd1)] } with held := [.tokens 2] }
def br : State := mem (ks [(1, 0xFF00800000001000)]) 0x800000001000 (rb 64 (0x3000 + 600 * 2 ^ 64 + 9 * 2 ^ 128 + 15 * 2 ^ 160 + 0x2000 * 2 ^ 192))
def rq (f : Req → Req) (t : Word) : State := { up (ks []) with reqs := [f req1, { req1 with device := 6, id := 1, length := 17000 }], recvs := [(2, rcv1), (3, { rcv1 with req := none, order := 0 })], timer := t }
def lk (f : Link → Link) : State := { (ks []).modLink 0 f with remote := [(0, .store own [(5, 0x4000, 0x5000), (6, 0x4008, 0x5008)] 0x2000 64), (1, .store { own with link := some 1 } [(5, 0x4000, 0x5000), (6, 0x4008, 0x5008)] 0 64)], sends := [(2, snd1)] }
def kslot (st : Nat) : KeySlot := { KeySlot.reset with state := st, installed := true, wKey := 7 }
def goodFlit : List Byte := let b := (List.range 248).map fun _ => (0 : Byte); b ++ toBytes 8 (crc64 0 b).toNat

/-- `Obligations.RemoteInstructions`: states and operands that meet its hypotheses, clause by clause. -/
theorem witness_RemoteInstructions :
  (∃ (s : State) (a : Src) (b : Src), (decide ((s.remoteFault s.cur = none ∨ s.seq.handler = true)) &&
     (operandsReady s [a, b] .discard) && (let x := srcVal s a; (let w := srcVal (srcPop s a) b;
     (let v := eaPop s a b; (let _ := dwDevice w; (oks (load v.me .vector x 64 64 v)).any fun qq1 =>
     (let l := qq1.1; (let t := qq1.2; (let m := BitVec.ofNat 512 (ofBytes l);
     decide (dwRoute w = false) && decide ((mdLaddr m).toNat % 8 = 0) &&
     decide (fld m 160 32 = 0) && decide (fld m 384 128 = 0) && (lengthOk (mdLength m)) &&
     decide ((mdRaddr m).toNat % 8 = 0) && decide ((mdCrec m).toNat % 16 = 0) &&
     decide (s.xformsOpen = false) && (oks (remoteRead v.me (mdLaddr m) (mdLength m) t)).any fun qq4 =>
     (let u := qq4.2; (reaches u)))))))))) = true) ∧
  (∃ (s : State) (a : Src) (b : Src), (decide ((s.remoteFault s.cur = none ∨ s.seq.handler = true)) &&
     (operandsReady s [a, b] .discard) && (let x := srcVal s a; (let w := srcVal (srcPop s a) b;
     (let v := eaPop s a b; (let _ := dwDevice w; (oks (load v.me .vector x 64 64 v)).any fun qq1 =>
     (let l := qq1.1; (let t := qq1.2; (let m := BitVec.ofNat 512 (ofBytes l);
     decide (dwRoute w = false) && decide ((mdLaddr m).toNat % 8 = 0) &&
     decide (fld m 160 32 = 0) && decide (fld m 384 128 = 0) && (lengthOk (mdLength m)) &&
     decide ((mdRaddr m).toNat % 8 = 0) && decide ((mdCrec m).toNat % 16 = 0) &&
     decide (s.xformsOpen = false) && (oks (remoteRead v.me (mdLaddr m) (mdLength m) t)).any fun qq4 =>
     (let u := qq4.2; (cutOff u)))))))))) = true) ∧
  (∃ (s : State) (a : Src) (b : Src), (decide ((s.remoteFault s.cur = none ∨ s.seq.handler = true)) &&
     (operandsReady s [a, b] .discard) && (let x := srcVal s a; (let w := srcVal (srcPop s a) b;
     (let v := eaPop s a b; (let _ := dwDevice w; (oks (load v.me .vector x 64 64 v)).any fun qq1 =>
     (let l := qq1.1; (let t := qq1.2; (let m := BitVec.ofNat 512 (ofBytes l);
     decide (dwRoute w = false) && decide ((mdLaddr m).toNat % 8 = 0) &&
     decide (fld m 160 32 = 0) && decide (fld m 384 128 = 0) && (lengthOk (mdLength m)) &&
     decide ((mdRaddr m).toNat % 8 = 0) && decide ((mdCrec m).toNat % 16 = 0) &&
     decide (s.xformsOpen = false) && (oks (remoteProbe v.me (mdLaddr m) (mdLength m) t)).any fun qq5 =>
     (let u := qq5.2; (reaches u)))))))))) = true) ∧
  (∃ (s : State) (a : Src) (b : Src), (decide ((s.remoteFault s.cur = none ∨ s.seq.handler = true)) &&
     (operandsReady s [a, b] .discard) && (let x := srcVal s a; (let w := srcVal (srcPop s a) b;
     (let v := eaPop s a b; (let _ := dwDevice w; (oks (load v.me .vector x 64 64 v)).any fun qq1 =>
     (let l := qq1.1; (let t := qq1.2; (let m := BitVec.ofNat 512 (ofBytes l);
     decide (dwRoute w = false) && decide ((mdLaddr m).toNat % 8 = 0) &&
     decide (fld m 160 32 = 0) && decide (fld m 384 128 = 0) && (lengthOk (mdLength m)) &&
     decide ((mdRaddr m).toNat % 8 = 0) && decide ((mdCrec m).toNat % 16 = 0) &&
     decide (s.xformsOpen = false) && (oks (remoteProbe v.me (mdLaddr m) (mdLength m) t)).any fun qq5 =>
     (let u := qq5.2; (cutOff u)))))))))) = true) ∧
  (∃ (s : State) (a : Src), (decide ((s.remoteFault s.cur = none ∨ s.seq.handler = true)) &&
     (operandsReady s [a] .discard) && decide (s.xformsOpen = false) &&
     (let v := srcPop s a; (oks (load v.me .vector (srcVal s a) 256 256 v)).any fun qq2 =>
     (let l := qq2.1; (let t := qq2.2; (let m := BitVec.ofNat 2048 (ofBytes l);
     (let p := cdPeer m 0; (let _ := dwDevice p.1; decide ((cdLaddr m).toNat % 8 = 0) &&
     decide (cdMalformed m = false) && decide (((cdPeers m).all fun q => decide (dwRoute q.1 = false)) = true) &&
     decide ((cdCrec m).toNat % 16 = 0) && (oks (remoteRead v.me (cdLaddr m) (cdLength m) t)).any fun qq6 =>
     (let u := qq6.2; (cutOff u))))))))) = true) ∧
  (∃ (s : State) (a : Src), (decide ((s.remoteFault s.cur = none ∨ s.seq.handler = true)) &&
     (operandsReady s [a] .discard) && decide (s.xformsOpen = false) &&
     (let v := srcPop s a; (oks (load v.me .vector (srcVal s a) 256 256 v)).any fun qq2 =>
     (let l := qq2.1; (let t := qq2.2; (let m := BitVec.ofNat 2048 (ofBytes l);
     (let p := cdPeer m 0; (let _ := dwDevice p.1; decide ((cdLaddr m).toNat % 8 = 0) &&
     decide (cdMalformed m = false) && decide (((cdPeers m).all fun q => decide (dwRoute q.1 = false)) = true) &&
     decide ((cdCrec m).toNat % 16 = 0) && (oks (remoteRead v.me (cdLaddr m) (cdLength m) t)).any fun qq6 =>
     (let u := qq6.2; (reaches u))))))))) = true) ∧
  (∃ (s : State) (a : Src) (b : Src), (decide ((s.remoteFault s.cur = none ∨ s.seq.handler = true)) &&
     (operandsReady s [a, b] .discard) && decide (s.xformsOpen = false) &&
     (let v := eaPop s a b; (let g := srcVal (srcPop s a) b; (oks (load v.me .vector (srcVal s a) 64 64 v)).any fun qq3 =>
     (let l := qq3.1; (let t := qq3.2; (let m := BitVec.ofNat 512 (ofBytes l);
     decide (g.toNat < 4096) && decide ((fld m 0 64) % 8 = 0) && decide (fld m 64 64 % 8 = 0) &&
     decide (fld m 160 2 ≠ 3) && decide (fld m 162 30 = 0) && decide (fld m 384 128 = 0) &&
     (lengthOk (mdLength m)) && decide ((mdFlag m).toNat % 8 = 0) && decide ((mdCrec m).toNat % 16 = 0) &&
     (oks (remoteRead v.me (BitVec.ofNat 64 (fld m 0 64)) (mdLength m) t)).any fun qq7 =>
     (let u := qq7.2; (oks (remoteProbe v.me (BitVec.ofNat 64 (fld m 64 64)) (mdLength m) u)).any fun qq8 =>
     (let w := qq8.2; (cutOff w))))))))) = true) ∧
  (∃ (s : State) (a : Src) (b : Src), (decide ((s.remoteFault s.cur = none ∨ s.seq.handler = true)) &&
     (operandsReady s [a, b] .discard) && decide (s.xformsOpen = false) &&
     (let v := eaPop s a b; (let g := srcVal (srcPop s a) b; (oks (load v.me .vector (srcVal s a) 64 64 v)).any fun qq3 =>
     (let l := qq3.1; (let t := qq3.2; (let m := BitVec.ofNat 512 (ofBytes l);
     decide (g.toNat < 4096) && decide ((fld m 0 64) % 8 = 0) && decide (fld m 64 64 % 8 = 0) &&
     decide (fld m 160 2 ≠ 3) && decide (fld m 162 30 = 0) && decide (fld m 384 128 = 0) &&
     (lengthOk (mdLength m)) && decide ((mdFlag m).toNat % 8 = 0) && decide ((mdCrec m).toNat % 16 = 0) &&
     (oks (remoteRead v.me (BitVec.ofNat 64 (fld m 0 64)) (mdLength m) t)).any fun qq7 =>
     (let u := qq7.2; (oks (remoteProbe v.me (BitVec.ofNat 64 (fld m 64 64)) (mdLength m) u)).any fun qq8 =>
     (let w := qq8.2; (reaches w))))))))) = true) ∧
  (∃ (s : State) (a : Src) (b : Src), (decide ((s.remoteFault s.cur = none ∨ s.seq.handler = true)) &&
     s.xformsOpen && (operandsReady s [a, b] .discard)) = true) ∧
  (∃ (s : State) (a : Src), (decide ((s.remoteFault s.cur = none ∨ s.seq.handler = true)) &&
     s.xformsOpen && (operandsReady s [a] .discard)) = true) ∧
  (∃ (s : State), ((ops (s.remoteFault s.cur)).any fun _ => decide (s.seq.handler = false)) = true) :=
  ⟨⟨up (rr (dd 0x9000 0xFF00800000003000 64 0x5000 1 0x2000) 5), .reg 1, .reg 2, by decide +kernel⟩,
   ⟨rr (dd 0x9000 0xFF00800000003000 64 0x5000 1 0x2000) 5, .reg 1, .reg 2, by decide +kernel⟩,
   ⟨up (rr (dd 0x9000 0xFF00800000003000 64 0x5000 1 0x2000) 5), .reg 1, .reg 2, by decide +kernel⟩,
   ⟨rr (dd 0x9000 0xFF00800000003000 64 0x5000 1 0x2000) 5, .reg 1, .reg 2, by decide +kernel⟩,
   ⟨rr cdv 0 256, .reg 1, by decide +kernel⟩,
   ⟨up (rr cdv 0 256), .reg 1, by decide +kernel⟩,
   ⟨rr (dd 0x9000 0xFF00800000003000 64 0x5000 1 0x2000) 5, .reg 1, .reg 2, by decide +kernel⟩,
   ⟨up (rr (dd 0x9000 0xFF00800000003000 64 0x5000 1 0x2000) 5), .reg 1, .reg 2, by decide +kernel⟩,
   ⟨xop, .reg 1, .reg 2, by decide +kernel⟩,
   ⟨xop, .reg 1, by decide +kernel⟩,
   ⟨pend, by decide +kernel⟩⟩

/-- `Obligations.RemoteArrivals`: states and operands that meet its hypotheses, clause by clause. -/
theorem witness_RemoteArrivals :
  (∃ (s : State) (m : RemoteAccess), ((s.behindHeld m)) = true) ∧
  (∃ (s : State) (m : RemoteAccess), (decide (s.behindHeld m = false) &&
     decide (s.keyOk (dwRcb m.dest) (dwKey m.dest) = false)) = true) ∧
  (∃ (s : State) (m : RemoteAccess), ((let ag := s.remoteAgent (dwRcb m.dest);
     decide (s.behindHeld m = false) && (s.keyOk (dwRcb m.dest) (dwKey m.dest)) &&
     decide (m.kind ≠ .load) && (dns (attempt ag (remoteWrite ag m.raddr m.data) s)).any fun qq15 =>
     (let t := qq15.2; (dns (attempt ag (flagOp ag true m.rflag m.finc m.set) t)).any fun _ => decide ((m.kind = .store ∨ m.peers = []))))) = true) ∧
  (∃ (s : State) (m : RemoteAccess), ((let ag := s.remoteAgent (dwRcb m.dest);
     decide (s.behindHeld m = false) && (s.keyOk (dwRcb m.dest) (dwKey m.dest)) &&
     decide (m.kind ≠ .load) && (dns (attempt ag (remoteWrite ag m.raddr m.data) s)).any fun qq15 =>
     (let t := qq15.2; (dns (attempt ag (flagOp ag true m.rflag m.finc m.set) t)).any fun _ => decide (m.kind = .chain) &&
     (prs m.peers).any fun _ => true))) = true) ∧
  (∃ (s : State) (m : RemoteAccess), ((let ag := s.remoteAgent (dwRcb m.dest);
     decide (s.behindHeld m = false) && (s.keyOk (dwRcb m.dest) (dwKey m.dest)) &&
     decide (m.kind = .load) && (dns (attempt ag (remoteRead ag m.raddr m.length) s)).any fun qq17 =>
     (let t := qq17.2; (dns (attempt ag (flagOp ag true m.rflag m.finc m.set) t)).any fun _ =>
     true))) = true) ∧
  (∃ (s : State) (m : RemoteAccess), (decide (m ∈ s.forwards) && (let s1 := { s with forwards := s.forwards.erase m };
     (reaches s1))) = true) ∧
  (∃ (s : State) (op : Nat), (((ops (Tab.find s.remote op)).flatMap fst1).any fun _ =>
     true) = true) ∧
  (∃ (s : State) (op : Nat) (status : Nat), (((ops (Tab.find s.remote op)).flatMap fld1).any fun _ => decide (status ≠ 0)) = true) ∧
  (∃ (s : State) (op : Nat) (status : Nat) (data : List Byte), (((ops (Tab.find s.remote op)).flatMap fld1).any fun z =>
     (let o := z.1; (let laddr := z.2.2.2.2.1; (let n := z.2.2.2.2.2.1;
     decide (status = 0) && (dns (attempt o.agent (remoteWrite o.agent laddr (fitTo n data)) s)).any fun _ =>
     true)))) = true) ∧
  (∃ (s : State) (op : Nat) (status : Nat), (((ops (Tab.find s.remote op)).flatMap frm1).any fun _ => decide (status ≠ 0)) = true) ∧
  (∃ (s : State) (op : Nat) (status : Nat) (data : List Byte), (((ops (Tab.find s.remote op)).flatMap frm1).any fun z =>
     (let o := z.1; (let daddr := z.2.2.1; (let n := z.2.2.2.1; (let flag := z.2.2.2.2.1;
     (let finc := z.2.2.2.2.2; decide (status = 0) && (dns (attempt o.agent (remoteWrite o.agent daddr (fitTo n data) >>= fun _ => flagOp o.agent false flag finc false) s)).any fun _ =>
     true)))))) = true) :=
  ⟨⟨{ ra with held := [.access (acc .store 0 [] false)] }, acc .store 0 [] false, by decide +kernel⟩,
   ⟨ra, acc .store 7 [] false, by decide +kernel⟩,
   ⟨ra, acc .store 0 [] false, by decide +kernel⟩,
   ⟨ra, acc .chain 0 [(6, 0x4000, 0x5000), (0, 0xFF00800000004000, 0xFF00800000005000)] false, by decide +kernel⟩,
   ⟨ra, acc .load 0 [] true, by decide +kernel⟩,
   ⟨ra, acc .chain 0 [] false, by decide +kernel⟩,
   ⟨ra, 0, by decide +kernel⟩,
   ⟨ra, 2, 3, by decide +kernel⟩,
   ⟨ra, 2, 0, [1, 2, 3], by decide +kernel⟩,
   ⟨ra, 3, 3, by decide +kernel⟩,
   ⟨ra, 3, 0, [1, 2, 3], by decide +kernel⟩⟩

/-- `Obligations.PullSender`: states and operands that meet its hypotheses, clause by clause. -/
theorem witness_PullSender :
  (∃ (s : State) (d : Dst) (a : Src) (b : Src) (dest : Word) (tag : Nat),
     (decide ((s.remoteFault s.cur = none ∨ s.seq.handler = true)) && (operandsReady s [a, b] d) &&
     (let v := eaPop s a b; (let w := srcVal (srcPop s a) b; (oks (load v.me .vector (srcVal s a) 64 64 v)).any fun qq21 =>
     (let l := qq21.1; (let t := qq21.2; (let m := BitVec.ofNat 512 (ofBytes l);
     decide (fld m 104 24 = 0) && decide (fld m 162 30 = 0) && decide (fld m 256 256 = 0) &&
     decide ((bdCrec m).toNat % 16 = 0) && decide (((!dwRoute w && dest == w &&
     tag == 0 || dwRoute w && fld w 12 51 == 0 && bit (Tab.get 0 t.route (fld w 0 12)) 96 &&
     dest == BitVec.ofNat 64 (fld (Tab.get 0 t.route (fld w 0 12)) 0 64) &&
     tag == fld (Tab.get 0 t.route (fld w 0 12)) 64 32) = true)) && (t.fabricFull t.seq.trcb))))))) = true) ∧
  (∃ (s : State) (d : Dst) (a : Src) (b : Src) (dest : Word) (tag : Nat),
     (decide ((s.remoteFault s.cur = none ∨ s.seq.handler = true)) && (operandsReady s [a, b] d) &&
     (let v := eaPop s a b; (let w := srcVal (srcPop s a) b; (oks (load v.me .vector (srcVal s a) 64 64 v)).any fun qq21 =>
     (let l := qq21.1; (let t := qq21.2; (let m := BitVec.ofNat 512 (ofBytes l);
     decide (fld m 104 24 = 0) && decide (fld m 162 30 = 0) && decide (fld m 256 256 = 0) &&
     decide ((bdCrec m).toNat % 16 = 0) && decide (((!dwRoute w && dest == w &&
     tag == 0 || dwRoute w && fld w 12 51 == 0 && bit (Tab.get 0 t.route (fld w 0 12)) 96 &&
     dest == BitVec.ofNat 64 (fld (Tab.get 0 t.route (fld w 0 12)) 0 64) &&
     tag == fld (Tab.get 0 t.route (fld w 0 12)) 64 32) = true)) && decide (t.fabricFull t.seq.trcb = false) &&
     decide (t.sends.length < 1024))))))) = true) ∧
  (∃ (s : State) (d : Dst) (a : Src) (b : Src) (dest : Word) (tag : Nat),
     (decide ((s.remoteFault s.cur = none ∨ s.seq.handler = true)) && (operandsReady s [a, b] d) &&
     (let v := eaPop s a b; (let w := srcVal (srcPop s a) b; (oks (load v.me .vector (srcVal s a) 64 64 v)).any fun qq21 =>
     (let l := qq21.1; (let t := qq21.2; (let m := BitVec.ofNat 512 (ofBytes l);
     decide (fld m 104 24 = 0) && decide (fld m 162 30 = 0) && decide (fld m 256 256 = 0) &&
     decide ((bdCrec m).toNat % 16 = 0) && decide (((!dwRoute w && dest == w &&
     tag == 0 || dwRoute w && fld w 12 51 == 0 && bit (Tab.get 0 t.route (fld w 0 12)) 96 &&
     dest == BitVec.ofNat 64 (fld (Tab.get 0 t.route (fld w 0 12)) 0 64) &&
     tag == fld (Tab.get 0 t.route (fld w 0 12)) 64 32) = true)) && decide (t.fabricFull t.seq.trcb = false) &&
     decide (1024 ≤ t.sends.length))))))) = true) ∧
  (∃ (s : State) (d : Dst) (a : Src), (decide ((s.remoteFault s.cur = none ∨ s.seq.handler = true)) &&
     (operandsReady s [a] d) && s.seq.detm) = true) ∧
  (∃ (s : State) (d : Dst) (a : Src), (decide ((s.remoteFault s.cur = none ∨ s.seq.handler = true)) &&
     (operandsReady s [a] d) && (let x := srcVal s a; decide (s.seq.detm = false) &&
     decide (x.toNat < 2 ^ 32) && decide (x = 0))) = true) ∧
  (∃ (s : State) (tok : Token), ((ops (s.sendOf tok.id)).any fun qq22 =>
     (let x := qq22; decide ((x.state = 2 ∨ x.state = 3)) && decide (tok.offset + tok.count ≤ x.length) &&
     decide (Arrival.tokens tok.id ∈ s.held))) = true) ∧
  (∃ (s : State) (tok : Token), ((ops (s.sendOf tok.id)).any fun qq22 =>
     (let x := qq22; decide ((x.state = 2 ∨ x.state = 3)) && decide (tok.offset + tok.count ≤ x.length) &&
     (let v := s.setSend tok.id { x with state := 3, tokens := x.tokens ++ [tok] };
     decide (Arrival.tokens tok.id ∉ s.held) && decide (x.tokens = []) &&
     (dns (attempt x.owner.agent (loadRange x.owner.agent .engine (x.laddr + BitVec.ofNat 64 tok.offset) tok.count) v)).any fun _ =>
     true))) = true) ∧
  (∃ (s : State) (id : Nat) (status : Nat), ((ops (s.sendOf id)).any fun qq23 =>
     (let x := qq23; decide ((x.owner.det = false ∨ status ≠ 2)))) = true) ∧
  (∃ (s : State) (id : Nat) (status : Nat), ((ops (s.sendOf id)).any fun qq23 =>
     (let x := qq23; x.owner.det && decide (status = 2))) = true) :=
  ⟨⟨bud, .reg 3, .reg 1, .reg 2, 5, 0, by decide +kernel⟩,
   ⟨up (bs 5), .reg 3, .reg 1, .reg 2, 5, 0, by decide +kernel⟩,
   ⟨full, .reg 3, .reg 1, .reg 2, 5, 0, by decide +kernel⟩,
   ⟨md (bst 0) (fun q => { q with detm := true }), .reg 3, .reg 1, by decide +kernel⟩,
   ⟨bst 0, .reg 3, .reg 1, by decide +kernel⟩,
   ⟨hld, ⟨0, 2, 8192, 8192, 3⟩, by decide +kernel⟩,
   ⟨up { ks [] with sends := [(2, snd1), (3, { snd1 with owner := { own with det := true } })] }, ⟨0, 2, 8192, 8192, 3⟩, by decide +kernel⟩,
   ⟨hld, 2, 0, by decide +kernel⟩,
   ⟨up { ks [] with sends := [(2, snd1), (3, { snd1 with owner := { own with det := true } })] }, 3, 2, by decide +kernel⟩⟩

/-- `Obligations.PullReceiver`: states and operands that meet its hypotheses, clause by clause. -/
theorem witness_PullReceiver :
  (∃ (s : State) (d : Dst) (a : Src), (decide ((s.remoteFault s.cur = none ∨ s.seq.handler = true)) &&
     (operandsReady s [a] d) && (let v := srcPop s a; (oks (load v.me .vector (srcVal s a) 64 64 v)).any fun qq25 =>
     (let l := qq25.1; (let t := qq25.2; (let m := BitVec.ofNat 512 (ofBytes l);
     decide (fld m 104 24 = 0) && decide (fld m 256 256 = 0) && decide (bdCrec m ≠ 0) &&
     decide ((bdCrec m).toNat % 16 = 0) && (ops (t.freeRecv)).any fun _ =>
     true))))) = true) ∧
  (∃ (s : State) (m : PullRequest), (decide (s.keyOk m.rcb m.fkey = false)) = true) ∧
  (∃ (s : State) (m : PullRequest), ((s.keyOk m.rcb m.fkey) && decide (s.reqs.length < 4096)) = true) ∧
  (∃ (s : State), ((let hs := s.holders; decide (s.tokensOut < 64) && (ops (firstReq (s.reqs.filter fun r => r.candidate &&
     !s.prefixHeld r && (hs.contains r.device || decide (hs.length < 16))))).any fun _ =>
     true)) = true) ∧
  (∃ (s : State) (t : Token), (decide (s.req t.device t.id = none)) = true) ∧
  (∃ (s : State) (t : Token) (start : Nat) (data : List Byte), ((ops (s.req t.device t.id)).any fun qq28 =>
     (let r := qq28; (ops (r.token t.offset t.gen)).any fun qq29 => (let g := qq29;
     (ops (r.recv)).any fun qq30 => (let n := qq30; (ops (Tab.find s.recvs n)).any fun qq31 =>
     (let v := qq31; decide (g.got = start) && decide (start + data.length ≤ g.count) &&
     (dns (attempt (s.recvAgent v) (storeRange (s.recvAgent v) .engine (v.buf + BitVec.ofNat 64 (t.offset + start)) data) s)).any fun _ =>
     true))))) = true) ∧
  (∃ (s : State) (device : Nat) (id : Nat) (offset : Nat), ((ops (s.req device id)).any fun qq32 =>
     (let r := qq32; (ops ((r.tokens.find? fun g => g.offset == offset &&
     g.got == 0 && decide (8000 ≤ (s.timer - g.at_).toNat)))).any fun _ =>
     true)) = true) ∧
  (∃ (s : State) (device : Nat) (id : Nat), ((ops (s.req device id)).any fun qq34 =>
     (let r := qq34; (ops (r.recv)).any fun qq35 => (let n := qq35; (ops (Tab.find s.recvs n)).any fun _ => decide ((r.state = 3 ∨ r.state = 4)) &&
     decide ((r.tokens ≠ [] ∨ r.lapsed ≠ [])) && decide (256000 ≤ (s.timer - r.lastData).toNat)))) = true) ∧
  (∃ (s : State), (decide (s.bootState ≠ 2)) = true) :=
  ⟨⟨br, .reg 3, .reg 1, by decide +kernel⟩,
   ⟨br, { device := 7, id := 9, rcb := 0, fkey := 7, length := 500, tag := 0x19, cls := 1, pfx := [] }, by decide +kernel⟩,
   ⟨br, { device := 7, id := 9, rcb := 0, fkey := 0, length := 500, tag := 0x19, cls := 1, pfx := (List.range 500).map (BitVec.ofNat 8) }, by decide +kernel⟩,
   ⟨rq id 0, by decide +kernel⟩,
   ⟨br, ⟨5, 4, 8192, 8192, 0⟩, by decide +kernel⟩,
   ⟨rq id 0, ⟨5, 4, 8192, 8192, 0⟩, 4096, List.replicate 64 7, by decide +kernel⟩,
   ⟨rq id 300000, 5, 4, 0, by decide +kernel⟩,
   ⟨rq id 300000, 5, 4, by decide +kernel⟩,
   ⟨br, by decide +kernel⟩⟩

/-- `Obligations.LinkEvents`: states and operands that meet its hypotheses, clause by clause. -/
theorem witness_LinkEvents :
  (∃ (s : State) (n : Nat) (flit : List Byte), ((let l := s.link n; (let head := ofBytes (flit.take 4);
     (let k := l.slot (head / 2 ^ 12 % 2); (let ok := (( decide (l.up = true ∧ flit.length = 256 ∧ ofBytes (flit.drop 248) = (crc64 0 (flit.take 248)).toNat ∧ (Config.gcmOpen k.key k.salt (flit.take 8) ((flit.drop 8).take 240)).isSome = true ∧ head % 4096 = l.expect)) : Bool);
     decide (decide ok = false)))))) = true) ∧
  (∃ (s : State) (n : Nat), ((let l := s.link n; l.up && decide (l.replay ≠ []) &&
     decide (l.lost s.timer = false) && decide (2000 ≤ (s.timer - l.sentAt).toNat))) = true) ∧
  (∃ (s : State) (n : Nat), ((let l := s.link n; l.up && decide (l.replay ≠ []) &&
     decide (l.lost s.timer = false) && decide ((s.timer - l.sentAt).toNat < 2000))) = true) ∧
  (∃ (s : State) (n : Nat), ((let l := s.link n; (let lost := (( decide (l.up = true ∧ l.replay ≠ [] ∧ ((16 ≤ l.replays ∧ 2000 ≤ (s.timer - l.sentAt).toNat) ∨ 20000 ≤ (s.timer - l.ackAt).toNat))) : Bool);
     decide (decide (lost = true))))) = true) ∧
  (∃ (s : State) (n : Nat), ((let l := s.link n; (let lost := (( decide (l.up = true ∧ l.replay ≠ [] ∧ ((16 ≤ l.replays ∧ 2000 ≤ (s.timer - l.sentAt).toNat) ∨ 20000 ≤ (s.timer - l.ackAt).toNat))) : Bool);
     decide (decide (lost = false))))) = true) ∧
  ((([[1, 2, 3]]).any fun _ => true) = true) ∧
  ((([5]).any fun _ => ([[1, 2, 3]]).any fun _ => true) = true) ∧
  (∃ (s : State) (n : Nat) (i : Nat), ((let l := s.link n; (let k := l.slot i;
     decide (k.state = 2) && decide ((∀ f ∈ l.replay, f.slot ≠ i))))) = true) ∧
  (∃ (s : State), (decide (s.bootState ≠ 2)) = true) ∧
  (∃ (s : State) (n : Nat) (i : Nat), ((let l := s.link n; (let k := l.slot i;
     decide (s.bootState ≠ 2) && k.installed))) = true) ∧
  (∃ (s : State) (n : Nat) (i : Nat), ((let l := s.link n; (let k := l.slot i;
     decide (s.bootState ≠ 2) && decide (k.installed = false)))) = true) :=
  ⟨⟨lk id, 0, goodFlit, by decide +kernel⟩,
   ⟨{ lk (fun l => { l with up := true, replay := [⟨4095, 0, [], none⟩] }) with timer := 3000 }, 0, by decide +kernel⟩,
   ⟨lk (fun l => { l with up := true, replay := [⟨4095, 0, [], none⟩], slots := [(0, kslot 1), (1, kslot 2)] }), 0, by decide +kernel⟩,
   ⟨{ lk (fun l => { l with up := true, replay := [⟨4095, 0, [], none⟩], queue := [⟨1, [], some (acc .chain 0 [] false)⟩], replays := 16 }) with timer := 3000 }, 0, by decide +kernel⟩,
   ⟨lk id, 0, by decide +kernel⟩,
   by decide +kernel,
   by decide +kernel,
   ⟨lk (fun l => { l with up := true, replay := [⟨4095, 0, [], none⟩], slots := [(0, kslot 1), (1, kslot 2)] }), 0, 1, by decide +kernel⟩,
   ⟨lk id, by decide +kernel⟩,
   ⟨lk (fun l => { l with up := true, replay := [⟨4095, 0, [], none⟩], slots := [(0, kslot 1), (1, kslot 2)] }), 0, 0, by decide +kernel⟩,
   ⟨lk id, 0, 0, by decide +kernel⟩⟩

end FabricParts

namespace ControlParts

def mem (s : State) (a : Nat) (l : List Nat) : State := setDevBytes s a (l.map fun n => BitVec.ofNat 8 n)
def rb (n v : Nat) : List Nat := (toBytes n v).map (·.toNat)
def ks (x : Tab Word) : State := tState ⟨0, .K, .pipe⟩ (tCtx .K x [(0, [5])])
def md (s : State) (f : Seq → Seq) : State := s.modSeq ⟨0, .K, .pipe⟩ f
def usr : State := md (ks [(1, 3), (2, 0x100)]) fun q => { q with trcb := 4 }
def pg (f : Grove → Grove) : State := (ks [(1, 3), (2, 0x100)]).modGrove 3 f
def ctx7 : Context := tCtx .V [(4, 9)] []
def pg1 : State := ((pg fun k => { k with pre := [.host, .ctxsw ⟨0, .K, .pipe⟩ (some ⟨0, 0⟩)] }).modCore 50 fun k => { k with ctx := ctx7 }).modSeq ⟨0, .K, .pipe⟩ fun q => { q with busy := .ctxsw }
def own : OpOwner := { core := 50, tenant := 0, rcb := 0, levels := [0], job := none, by_ := ⟨0, .K, .pipe⟩, task := some ⟨0, 0⟩, pc := 0x80, order := 0, det := false, link := some 0 }
def pg2 : State := pg1.modGrove 3 fun k => { k with preHalted := true }
def pg4 : State := pg1.modSeq ⟨48, .M, .pipe⟩ fun q => { q with yieldAt := some (5, 1), task := some ⟨0, 0⟩, waiting := true }
def pg5 : State := pg fun k => { k with stopped := true, window := [(3, placedEntry 50 0)], regions := [(1, { desc := 0, tenant := 0, rcb := 0, current := 0 })] }
def pg8 : State := (pg id).modSeq ⟨0, .K, .pipe⟩ fun q => { q with switched := some q.pc }
def pg9 : State := md (pg id) fun q => { q with xforms := [⟨1, .discard, 0x80, 0, .fill, 1, 0, none, []⟩] }
def imgv (par ov ten : Nat) : Nat := par + ov * 2 ^ 16 + ten * 2 ^ 32 + 3 * 2 ^ 112 + 7 * 2 ^ 128 + 2 ^ 116
def bt (n : Nat) (v : Nat) : State := mem (ks [(1, 0x1000), (2, BitVec.ofNat 64 n)]) 0x1000 (rb 64 v)
def kid : Rcb := rcbOf (BitVec.ofNat 512 (imgv 0 0x1FF 0)) rootRcb 2
def bt1 : State := { bt 5 (imgv 5 0 0) with rcbs := [(0, rootRcb), (5, kid)] }
def bt1b : State := (bt1.modGrove 2 fun k => { k with window := [(3, { placedEntry 33 1 with record := BitVec.ofNat 2560 (1 + 5 * 2 ^ 32) })] }).modCore 33 fun k => { k with lines := [⟨⟨33, .V, .pipe⟩, 1, .fill, 0, 0, 0, 0, 0, 5⟩] }
def bt3 : State := { bt 5 0 with rcbs := [(0, rootRcb), (5, { kid with terminating := true, removed := 7 })] }
def bt3b : State := bt3.modCore 33 fun k => { k with lines := [⟨⟨33, .V, .pipe⟩, 1, .fill, 0, 0, 0, 0, 0, 5⟩] }
def bt8 : State := md bt3b fun q => { q with terming := some (5, 7) }
def bt9 : State := md bt3 fun q => { q with terming := some (5, 7) }
def bt10 : State := md (bt 5 0) fun q => { q with terming := some (5, 7) }
def msy (l : List Miss) (s : State) : State := { s with msys := { s.msys with misses := [(0, l)] } }
def bz : State := { State.reset with tenants := [(1, { Tenant.reset with busy := true })] }
def bz1 : State := { bz with remote := [(0, .store { own with rcb := 5 } [] 0 64)], rcbs := [(0, rootRcb), (5, { kid with tenant := 1, terminating := true })] }
def bz2 : State := msy [⟨1, 0, [0], []⟩] bz
def he (n : Nat) : State := { (ks []).placeProgram .K [] with bootState := n, msys := { MemSys.reset with metas := [(0, [512, 1024, 262145])] }, pages := [(2, { TenantPage.reset with rings := [(1, { CmdRing.reset with cqbase := 0x5000, cqsize := 0x10007, cplbase := 0x6000, cqtail := 1 })] })], rcbs := [(0, { rootRcb with tenant := 2 })], tenants := [(2, (((ks []).placeProgram .K []).tenant 0)), (15, { Tenant.reset with hbwLo := [(0, 1)], hbwHi := [(0, 0x5FFFFF0000)] })] }
def hm (s : State) (v : Nat) : State := s.hostWrite 0x5000 (toBytes 64 v)
def hp1 : State := setDevBytes (hm (he 1) (1 + 0x1000 * 2 ^ 64)) 0x40001000 (toBytes 320 0)
def hp2 : State := hm (he 1) (1 + 0x1000 * 2 ^ 64 + 96 * 2 ^ 128)
def hp3 : State := { hp1 with tenants := [(2, { hp1.tenant 2 with busy := true })] }
def hp4 : State := hm (he 1) 2
def pcons : List PreBy → List (PreBy × List PreBy) | a :: b => [(a, b)] | _ => []

/-- `Obligations.RootPrivilege`: states and operands that meet its hypotheses, clause by clause. -/
theorem witness_RootPrivilege :
  (∃ (s : State) (a : Src), (decide (s.seq.trcb ≠ 0) && (operandsReady s [a] .discard)) = true) ∧
  (∃ (s : State) (a : Src) (b : Src), (decide (s.seq.trcb ≠ 0) && (operandsReady s [a, b] .discard)) = true) ∧
  (∃ (s : State) (d : Dst) (a : Src) (b : Src), (decide (s.seq.trcb ≠ 0) &&
     (operandsReady s [a, b] d)) = true) ∧
  (∃ (s : State) (d : Dst) (b : Src), (decide (s.seq.trcb ≠ 0) && (operandsReady s [b] d)) = true) :=
  ⟨⟨usr, .reg 1, by decide +kernel⟩,
   ⟨usr, .reg 1, .reg 2, by decide +kernel⟩,
   ⟨usr, .reg 3, .reg 1, .reg 2, by decide +kernel⟩,
   ⟨usr, .reg 3, .reg 2, by decide +kernel⟩⟩

/-- `Obligations.Preemption`: states and operands that meet its hypotheses, clause by clause. -/
theorem witness_Preemption :
  (∃ (s : State) (a : Src), (decide (s.seq.trcb = 0) && decide (s.cur.sub = .pipe) &&
     (let g := (srcVal s a).toNat; decide (g ≤ 95) && decide (g ≠ groveOf s.cur.core) &&
     (operandsReady s [a] .discard) && decide (s.seq.switched = some s.seq.pc))) = true) ∧
  (∃ (s : State) (a : Src), (decide (s.seq.trcb = 0) && decide (s.cur.sub = .pipe) &&
     (let g := (srcVal s a).toNat; decide (g ≤ 95) && decide (g ≠ groveOf s.cur.core) &&
     (operandsReady s [a] .discard) && decide (s.seq.switched ≠ some s.seq.pc) &&
     s.xformsOpen)) = true) ∧
  (∃ (s : State) (a : Src), (decide (s.seq.trcb = 0) && decide (s.cur.sub = .pipe) &&
     (let g := (srcVal s a).toNat; decide (g ≤ 95) && decide (g ≠ groveOf s.cur.core) &&
     (operandsReady s [a] .discard) && decide (s.seq.switched ≠ some s.seq.pc) &&
     decide (s.xformsOpen = false))) = true) ∧
  (∃ (s : State) (a : Src) (b : Src), (decide (s.seq.trcb = 0) && decide (s.cur.sub = .pipe) &&
     (let g := (srcVal s a).toNat; decide (g ≤ 95) && decide (g ≠ groveOf s.cur.core) &&
     (operandsReady s [a, b] .discard) && (let y := srcVal (srcPop s a) b;
     decide (y.toNat % 256 = 0) && decide ((s.preQueue g).head?.all (· == .copy s.cur) = false)))) = true) ∧
  (∃ (s : State) (g : Nat), ((pcons (s.preQueue g)).any fun z => (let p := z.1;
     p.preempts && decide ((s.grove g).preHalted = false) && decide (s.yielding g = false))) = true) ∧
  (∃ (s : State) (g : Nat), ((pcons (s.preQueue g)).any fun z => (let p := z.1;
     decide ((p.preempts = false ∨ s.yielding g = true)))) = true) ∧
  (∃ (s : State) (g : Nat), ((pcons (s.preQueue g)).any fun z => (let p := z.1;
     p.preempts && ((s.grove g).preHalted) && decide (((coresIn g).all fun c => !(s.ctx c).mx.committing) = true) &&
     decide (p = .host))) = true) ∧
  (∃ (s : State) (g : Nat), (decide (s.bootState ≠ 2) && decide (((s.grove g).stopped = false ∨ s.overtemp = true))) = true) ∧
  (∃ (s : State) (g : Nat), (decide (s.bootState ≠ 2) && ((s.grove g).stopped) &&
     decide (s.overtemp = false)) = true) ∧
  (∃ (s : State), (decide (s.bootState ≠ 2)) = true) :=
  ⟨⟨pg8, .reg 1, by decide +kernel⟩,
   ⟨pg9, .reg 1, by decide +kernel⟩,
   ⟨pg id, .reg 1, by decide +kernel⟩,
   ⟨pg1, .reg 1, .reg 2, by decide +kernel⟩,
   ⟨pg1, 3, by decide +kernel⟩,
   ⟨pg4, 3, by decide +kernel⟩,
   ⟨pg2, 3, by decide +kernel⟩,
   ⟨pg id, 3, by decide +kernel⟩,
   ⟨pg5, 3, by decide +kernel⟩,
   ⟨pg id, by decide +kernel⟩⟩

/-- `Obligations.BlockTables`: states and operands that meet its hypotheses, clause by clause. -/
theorem witness_BlockTables :
  (∃ (s : State) (d : Dst) (a : Src) (b : Src), (decide (s.seq.trcb = 0) &&
     (operandsReady s [a, b] d) && (let v := eaPop s a b; (let n := (srcVal (srcPop s a) b).toNat;
     decide (n ≠ 0) && decide (n ≤ 1023) && (oks (load v.me .vector (srcVal s a) 64 64 v)).any fun qq1 =>
     (let l := qq1.1; (let t := qq1.2; (let m := (( BitVec.ofNat 512 (ofBytes l)) : RcbImage);
     (ops (t.rcb (fld m 0 10))).any fun qq2 => (let p := qq2; decide (t.rcb n = none) &&
     decide (p.terminating = false) && decide (p.depth < 8) && decide (t.rcbs.length < 1024) &&
     decide ((fld m 0 10 = 0 ∨ p.tenant = fld m 32 4)) && decide (rcbReserved m = false)))))))) = true) ∧
  (∃ (s : State) (d : Dst) (a : Src) (b : Src), (decide (s.seq.trcb = 0) &&
     (operandsReady s [a, b] d) && (let v := eaPop s a b; (let n := (srcVal (srcPop s a) b).toNat;
     decide (n ≠ 0) && decide (n ≤ 1023) && (oks (load v.me .vector (srcVal s a) 64 64 v)).any fun qq1 =>
     (let l := qq1.1; (let t := qq1.2; (let m := (( BitVec.ofNat 512 (ofBytes l)) : RcbImage);
     decide ((t.rcb (fld m 0 10) = none ∨ (t.rcb n).isSome = true ∨ 1024 ≤ t.rcbs.length ∨ rcbReserved m = true)))))))) = true) ∧
  (∃ (s : State) (d : Dst) (b : Src), (decide (s.seq.trcb = 0) && (operandsReady s [b] d) &&
     (let n := (srcVal s b).toNat; (let t := srcPop s b; decide (n ≠ 0) &&
     decide (n ≤ 1023) && (ops t.seq.terming).any fun zz => decide (zz.1 = n) &&
     decide ((t.chain 0).contains n = false) && decide (t.stillEnding n = false)))) = true) ∧
  (∃ (s : State) (d : Dst) (b : Src), (decide (s.seq.trcb = 0) && (operandsReady s [b] d) &&
     (let n := (srcVal s b).toNat; (let t := srcPop s b; decide (n ≠ 0) &&
     decide (n ≤ 1023) && (ops t.seq.terming).any fun zz => decide (zz.1 = n) &&
     decide ((t.chain 0).contains n = false) && (t.stillEnding n) && (drained (t.under n) t)))) = true) ∧
  (∃ (s : State) (d : Dst) (b : Src), (decide (s.seq.trcb = 0) && (operandsReady s [b] d) &&
     (let n := (srcVal s b).toNat; (let t := srcPop s b; decide (n ≠ 0) &&
     decide (n ≤ 1023) && (ops t.seq.terming).any fun zz => decide (zz.1 = n) &&
     decide ((t.chain 0).contains n = false) && (t.stillEnding n) && decide (drained (t.under n) t = false)))) = true) ∧
  (∃ (s : State) (d : Dst) (b : Src), (decide (s.seq.trcb = 0) && (operandsReady s [b] d) &&
     (let n := (srcVal s b).toNat; (let t := srcPop s b; decide (n ≠ 0) &&
     decide (n ≤ 1023) && decide ((ops t.seq.terming).all (fun zz => zz.1 != n) = true) &&
     decide ((t.chain 0).contains n = false) && decide (t.rcb n = none)))) = true) ∧
  (∃ (s : State) (d : Dst) (b : Src), (decide (s.seq.trcb = 0) && (operandsReady s [b] d) &&
     (let n := (srcVal s b).toNat; (let t := srcPop s b; decide (n ≠ 0) &&
     decide (n ≤ 1023) && decide ((ops t.seq.terming).all (fun zz => zz.1 != n) = true) &&
     decide ((t.chain 0).contains n = false) && ((t.rcb n).isSome) && (let u := beginTerm n t;
     (drained (u.under n) u))))) = true) ∧
  (∃ (s : State) (d : Dst) (b : Src), (decide (s.seq.trcb = 0) && (operandsReady s [b] d) &&
     (let n := (srcVal s b).toNat; (let t := srcPop s b; decide (n ≠ 0) &&
     decide (n ≤ 1023) && decide ((ops t.seq.terming).all (fun zz => zz.1 != n) = true) &&
     decide ((t.chain 0).contains n = false) && ((t.rcb n).isSome) && (let u := beginTerm n t;
     decide (drained (u.under n) u = false))))) = true) ∧
  (∃ (s : State) (d : Dst) (b : Src), (decide (s.seq.trcb = 0) && (operandsReady s [b] d) &&
     (let n := (srcVal s b).toNat; (let t := srcPop s b; decide (n ≠ 0) &&
     decide (n ≤ 1023) && (t.active n)))) = true) ∧
  (∃ (s : State) (d : Dst) (b : Src), (decide (s.seq.trcb = 0) && (operandsReady s [b] d) &&
     (let n := (srcVal s b).toNat; (let t := srcPop s b; decide (n ≠ 0) &&
     decide (n ≤ 1023) && decide (t.active n = false)))) = true) ∧
  (∃ (s : State) (g : Nat), (decide (s.missTable g = [])) = true) ∧
  (∃ (s : State), (decide ((∀ e ∈ s.tenants, e.2.busy = false))) = true) ∧
  (∃ (s : State) (tenant : Nat), ((let t := invalidate s.invalidates s;
     (let t1 := (( if t.usesOld s.invalidates then t else { t with tinvJob := none }) : State);
     decide ((s.tenants.filter (fun e => e.2.busy)).map (·.1) = [tenant]) &&
     (let gone := t1.endingFor tenant; decide (drained gone t1 = false))))) = true) ∧
  (∃ (s : State) (tenant : Nat), ((let t := invalidate s.invalidates s;
     (let t1 := (( if t.usesOld s.invalidates then t else { t with tinvJob := none }) : State);
     decide ((s.tenants.filter (fun e => e.2.busy)).map (·.1) = [tenant]) &&
     (let gone := t1.endingFor tenant; (let mine := (fun (e : TlbEntry) =>
     (( e.tenant == tenant) : Bool)); (let w := invalidate mine (disableQueues tenant (dropRcbs gone (refuseWaiting gone t1)));
     (drained gone t1) && (w.usesOld mine))))))) = true) ∧
  (∃ (s : State) (tenant : Nat), ((let t := invalidate s.invalidates s;
     (let t1 := (( if t.usesOld s.invalidates then t else { t with tinvJob := none }) : State);
     decide ((s.tenants.filter (fun e => e.2.busy)).map (·.1) = [tenant]) &&
     (let gone := t1.endingFor tenant; (let mine := (fun (e : TlbEntry) =>
     (( e.tenant == tenant) : Bool)); (let w := invalidate mine (disableQueues tenant (dropRcbs gone (refuseWaiting gone t1)));
     (drained gone t1) && decide (w.usesOld mine = false))))))) = true) ∧
  (∃ (s : State), (decide (s.bootState ≠ 2)) = true) :=
  ⟨⟨bt 5 (imgv 0 0x1FF 3), .reg 3, .reg 1, .reg 2, by decide +kernel⟩,
   ⟨bt1, .reg 3, .reg 1, .reg 2, by decide +kernel⟩,
   ⟨bt10, .reg 3, .reg 2, by decide +kernel⟩,
   ⟨bt9, .reg 3, .reg 2, by decide +kernel⟩,
   ⟨bt8, .reg 3, .reg 2, by decide +kernel⟩,
   ⟨bt 5 (imgv 0 0x1FF 3), .reg 3, .reg 2, by decide +kernel⟩,
   ⟨bt1, .reg 3, .reg 2, by decide +kernel⟩,
   ⟨bt1b, .reg 3, .reg 2, by decide +kernel⟩,
   ⟨bt1, .reg 3, .reg 2, by decide +kernel⟩,
   ⟨bt 5 (imgv 0 0x1FF 3), .reg 3, .reg 2, by decide +kernel⟩,
   ⟨bt 5 (imgv 0 0x1FF 3), 0, by decide +kernel⟩,
   ⟨bt 5 (imgv 0 0x1FF 3), by decide +kernel⟩,
   ⟨bz1, 1, by decide +kernel⟩,
   ⟨bz2, 1, by decide +kernel⟩,
   ⟨bz, 1, by decide +kernel⟩,
   ⟨bt 5 (imgv 0 0x1FF 3), by decide +kernel⟩⟩

/-- `Obligations.HostEvents`: states and operands that meet its hypotheses, clause by clause. -/
theorem witness_HostEvents :
  (∃ (s : State), (decide (s.bootState = 2)) = true) ∧
  (∃ (s : State) (k : Nat), (decide (s.bootState ≠ 2) && decide (k < 4096)) = true) ∧
  (∃ (s : State) (t : Nat), (decide (s.bootState ≠ 2) && (s.enabled t)) = true) ∧
  (∃ (s : State) (t : Nat), (decide (s.bootState ≠ 2) && decide (s.enabled t = false)) = true) ∧
  (∃ (s : State) (t : Nat) (k : Nat), ((ops (takeCommand t k 1 s)).any fun qq4 =>
     (let u := qq4.2.2; ((u.tenant t).busy))) = true) ∧
  (∃ (s : State) (t : Nat) (k : Nat), ((ops (takeCommand t k 1 s)).any fun qq4 =>
     (let l := qq4.2.1; (let u := qq4.2.2; decide ((u.tenant t).busy = false) &&
     (oke (hostRecord u t l)).any fun _ => true))) = true) ∧
  (∃ (s : State) (t : Nat) (k : Nat), ((ops (takeCommand t k 1 s)).any fun qq4 =>
     (let l := qq4.2.1; (let u := qq4.2.2; decide ((u.tenant t).busy = false) &&
     (ers (hostRecord u t l)).any fun _ => true))) = true) ∧
  (∃ (s : State) (t : Nat) (k : Nat), ((ops (takeCommand t k 2 s)).any fun _ =>
     true) = true) ∧
  (∃ (s : State) (t : Nat) (k : Nat), ((ops (takeCommand t k 0 s)).any fun _ =>
     true) = true) ∧
  (∃ (s : State) (t : Option Nat) (o : Nat) (n : Nat) (l : List Byte), (decide (s.bootState ≠ 2) &&
     decide ((t.all fun x => s.enabled x && (gapIn (s.tenant x).hbw o l.length).isNone &&
     (gapIn (s.tenant x).hbw o n).isNone) = true) && decide (o + l.length ≤ 0x6000000000)) = true) ∧
  (∃ (s : State) (t : Option Nat) (o : Nat) (n : Nat) (l : List Byte), (decide (s.bootState ≠ 2) &&
     decide ((t.all fun x => s.enabled x && (gapIn (s.tenant x).hbw o l.length).isNone &&
     (gapIn (s.tenant x).hbw o n).isNone) = true) && decide (o + n ≤ 0x6000000000) &&
     decide (s.firstPoison o n = none)) = true) ∧
  (∃ (s : State) (t : Option Nat) (o : Nat) (n : Nat) (l : List Byte), (decide (s.bootState ≠ 2) &&
     decide ((t.all fun x => s.enabled x && (gapIn (s.tenant x).hbw o l.length).isNone &&
     (gapIn (s.tenant x).hbw o n).isNone) = true) && decide (0x6000000000 < o + l.length)) = true) :=
  ⟨⟨he 2, by decide +kernel⟩,
   ⟨he 0, 1, by decide +kernel⟩,
   ⟨he 0, 2, by decide +kernel⟩,
   ⟨he 0, 15, by decide +kernel⟩,
   ⟨hp3, 2, 1, by decide +kernel⟩,
   ⟨hp1, 2, 1, by decide +kernel⟩,
   ⟨hp2, 2, 1, by decide +kernel⟩,
   ⟨hp4, 2, 1, by decide +kernel⟩,
   ⟨he 1, 2, 1, by decide +kernel⟩,
   ⟨he 0, none, 0x2000, 0, [1, 2], by decide +kernel⟩,
   ⟨he 0, none, 0x2000, 0, [1, 2], by decide +kernel⟩,
   ⟨he 0, none, 0x5FFFFFFFFF, 0, [1, 2], by decide +kernel⟩⟩

end ControlParts

namespace DeviceParts

def mem (s : State) (a : Nat) (l : List Nat) : State := setDevBytes s a (l.map fun n => BitVec.ofNat 8 n)
def rb (n v : Nat) : List Nat := (toBytes n v).map (·.toNat)
def ks (x : Tab Word) : State := tState ⟨0, .K, .pipe⟩ (tCtx .K x [(0, [5])])
def d0 : State := { ks [] with biterr := [(7, 1), (8, 2)], mem := [(0x3000, 7)], glades := [(1, { Glade.reset with ovBase := 0x3000, ovSize := 0x1000, cached := [0x40001] }), (2, { Glade.reset with ovBase := 0x3000, ovSize := 0x1000, cached := List.replicate 16384 0 })], mgmtEvents := [⟨1, false, 0, 0, 0, 0, 0⟩], i3cAddr := none }
def d1 : State := setDevBytes { d0 with biterr := [], glades := [(1, { Glade.reset with sync := [(64, 5)] })] } 0x900100000040 (toBytes 8 (3 + 2 ^ 32 * 2))
def d2 : State := { d1 with i3cAddr := some 9, held := [.tokens 3], barCycle := some { addr := 0x900100000040, advance := true, readers := [] }, waiters := [⟨⟨0, .K, .pipe⟩, 10, 0x900101000040 / 64, 0⟩], glades := [(1, { Glade.reset with ovBase := 0x3000, ovSize := 0x1000, cached := [0x40001] })] }
def bags : List BarAgent := [.array 3, .stream 2 .K]
def pr (k : SeqKind) (b : Sub) (ws : List Nat) (f : Seq → Seq) : State :=
  { (mem (tState ⟨0, k, .pipe⟩ (tCtx k [(1, 3), (2, 4)] [])) 0x80 (ws.flatMap fun w => rb 4 w)).modSeq ⟨0, k, .pipe⟩ (fun q => f { q with pc := 0x80 }) with agenda := [.run ⟨0, k, b⟩] }
def st0 : State := pr .K .pipe [0x00010830] id
def st2 : State := pr .K .pipe [0x1FC00000] id
def st3 : State := { pr .K .pipe [0xE0400000] id with agenda := [.event .deviceTimerTick] }
def st4 : State := { pr .K .pipe [0xE0400000] id with agenda := [] }
def st5 : State := pr .K .pipe [0xE0400000] fun q => { q with deferred := [⟨0x341, 0x80, 7, 0, 0, true, 0, 0⟩] }
def wd (i : VItem) : VEntry := { pc := 0x80, items := [i], complete := 0, pair := false, order := 3 }
def st6 : State := (pr .V .va [] id).modHere fun x => { x with va := { words := [wd (.word (.vadd (.reg 1) (.reg 2) (.reg 3) false false 0))], stopped := false, fault := none } }
def st8 : State := { st4 with agenda := [.due (.replay 0)] }
def st9 : State := (pr .V .va [] id).modHere fun x => { x with va := { words := [wd (.bad 0x003 7)], stopped := false, fault := none } }
def st10 : State := pr .V .pipe [0xE0000000 + 3 * 2 ^ 16 + 2 ^ 13, 0x40010830] fun q => { q with rem := 2 }
def st7 : State := pr .K .pipe [0xE0000000 + 3 * 2 ^ 16 + 2 ^ 13, 0x00010830] fun q => { q with rem := 2 }
def econs : List Event → List (Event × List Event) | a :: b => [(a, b)] | _ => []
def rcons : List Move → List (Stream × List Move) | .run a :: b => [(a, b)] | _ => []
def vcons : List Move → List (Instr × List Move) | .event a :: b => [(a, b)] | _ => []
def dcons : List Move → List (Due × List Move) | .due a :: b => [(a, b)] | _ => []
def vbad : Option VItem → List (Nat × Word) | some (.bad c v) => [(c, v)] | _ => []
def vw : Option VItem → List Instr | some (.word i) => [i] | _ => []

/-- `Obligations.DeviceEvents`: states and operands that meet its hypotheses, clause by clause. -/
theorem witness_DeviceEvents :
  (∃ (s : State), (decide (s.bootState ≠ 2)) = true) ∧
  (∃ (s : State), (decide (s.held = [])) = true) ∧
  (∃ (s : State) (core : Nat) (off : Nat) (l : List Byte), (decide (core < 1536) &&
     decide (off + l.length ≤ 0x100000) && decide (off % 256 + l.length ≤ 256) &&
     decide (s.biterr = [])) = true) ∧
  (∃ (s : State) (w : Nat), (decide (Tab.get 0 s.biterr w = 0)) = true) ∧
  (∃ (s : State) (l : List BarAgent), (decide (s.barCycle = none) && decide (l ≠ [])) = true) ∧
  (∃ (s : State) (g : Nat) (line : Nat), ((let pa := 0x900000000000 + g % 8 * 2 ^ 32 + line % 2 ^ 26 * 64;
     (ops (s.barCycle)).any fun qq1 => (let c := qq1; decide (c.addr ≠ pa)))) = true) ∧
  (∃ (s : State) (g : Nat) (line : Nat), ((let pa := 0x900000000000 + g % 8 * 2 ^ 32 + line % 2 ^ 26 * 64;
     (ops s.barCycle).any fun c => decide (c.addr = pa))) = true) ∧
  (∃ (s : State) (g : Nat) (line : Nat), (decide (g < 8) && (let off := line * 64;
     (let pa := 0x900000000000 + g * 2 ^ 32 + off; decide (0x1000000 ≤ off) &&
     decide (off + 64 ≤ 2 ^ 32) && decide (off + 64 ≤ 0x1000000 + (s.glade g).ovSize.toNat) &&
     decide ((s.glade g).ovBase.toNat + (off - 0x1000000) + 64 ≤ 0x6000000000) &&
     (let held := (( s.waiters.any fun w => (w.kind == 1 || w.kind == 10) &&
     w.key == pa / 64) : Bool); decide (line ∈ (s.glade g).cached) && held)))) = true) ∧
  (∃ (s : State) (g : Nat) (line : Nat), (decide (g < 8) && (let off := line * 64;
     decide (0x1000000 ≤ off) && decide (off + 64 ≤ 2 ^ 32) && decide (off + 64 ≤ 0x1000000 + (s.glade g).ovSize.toNat) &&
     decide ((s.glade g).ovBase.toNat + (off - 0x1000000) + 64 ≤ 0x6000000000) &&
     decide (line ∉ (s.glade g).cached) && decide (16384 ≤ (s.glade g).cached.length))) = true) ∧
  (∃ (s : State) (g : Nat) (line : Nat), (decide (g < 8) && (let off := line * 64;
     (let pa := 0x900000000000 + g * 2 ^ 32 + off; decide (0x1000000 ≤ off) &&
     decide (off + 64 ≤ 2 ^ 32) && decide (off + 64 ≤ 0x1000000 + (s.glade g).ovSize.toNat) &&
     decide ((s.glade g).ovBase.toNat + (off - 0x1000000) + 64 ≤ 0x6000000000) &&
     (let held := (( s.waiters.any fun w => (w.kind == 1 || w.kind == 10) &&
     w.key == pa / 64) : Bool); decide ((line ∉ (s.glade g).cached ∧ (s.glade g).cached.length < 16384 ∨ line ∈ (s.glade g).cached ∧ held = false)))))) = true) ∧
  (∃ (n : Nat), (decide (3 ≤ n) && decide (n ≤ 7)) = true) ∧
  (∃ (n : Nat), (decide ((n < 3 ∨ 7 < n))) = true) ∧
  (∃ (s : State), ((ops (s.i3cAddr)).any fun _ => (econs s.mgmtEvents).any fun _ =>
     true) = true) ∧
  (∃ (s : State) (a : Nat), (decide (s.i3cAddr ≠ some a)) = true) ∧
  (∃ (s : State), (decide (s.i3cAddr = none)) = true) :=
  ⟨⟨d0, by decide +kernel⟩,
   ⟨d0, by decide +kernel⟩,
   ⟨d1, 5, 0x100, [], by decide +kernel⟩,
   ⟨d0, 6, by decide +kernel⟩,
   ⟨d0, bags, by decide +kernel⟩,
   ⟨d2, 1, 0x40000, by decide +kernel⟩,
   ⟨d2, 1, 1, by decide +kernel⟩,
   ⟨d2, 1, 0x40001, by decide +kernel⟩,
   ⟨d0, 2, 0x40000, by decide +kernel⟩,
   ⟨d0, 1, 0x40000, by decide +kernel⟩,
   ⟨3, by decide +kernel⟩,
   ⟨0, by decide +kernel⟩,
   ⟨d2, by decide +kernel⟩,
   ⟨d0, 9, by decide +kernel⟩,
   ⟨d0, by decide +kernel⟩⟩

/-- `Obligations.StepRunsDecoded`: states and operands that meet its hypotheses, clause by clause. -/
theorem witness_StepRunsDecoded :
  (∃ (s : State), ((rcons s.agenda).any fun z => (let st := z.1; (let rest := z.2;
     (let u := { tick s with agenda := rest, cur := st }; (let pc := (u.seqOf st).pc;
     (u.runs st) && decide (st.sub = .pipe) && decide (u.trapDue st = false) &&
     decide (u.slipFull st = false) && decide (u.fetchWaits st = false) &&
     (oke (fetchWord u st pc)).any fun w => decide (isRep w = false) &&
     decide (decide (checkWord st.seq w = none) = true) && (oke (fetchLits u st pc (wordLength st.seq w))).any fun qq3 =>
     (let l := qq3; (oke (decode st.seq w l)).any fun _ => true)))))) = true) ∧
  (∃ (s : State), ((rcons s.agenda).any fun z => (let st := z.1; (let rest := z.2;
     (let u := { tick s with agenda := rest, cur := st }; (let pc := (u.seqOf st).pc;
     (u.runs st) && decide (st.sub = .pipe) && decide (u.trapDue st = false) &&
     decide (u.slipFull st = false) && decide (u.fetchWaits st = false) &&
     (oke (fetchWord u st pc)).any fun w => decide (isRep w = false) &&
     (ops (checkWord st.seq w)).any fun _ => decide (isVectorClass (wordClass w) = false)))))) = true) ∧
  (∃ (s : State), ((rcons s.agenda).any fun z => (let st := z.1; (let rest := z.2;
     (let u := { tick s with agenda := rest, cur := st }; (let pc := (u.seqOf st).pc;
     (u.runs st) && decide (st.sub = .pipe) && decide (u.trapDue st = false) &&
     decide (u.slipFull st = false) && decide (u.fetchWaits st = false) &&
     (oke (fetchWord u st pc)).any fun w => (isRep w) && (oke (fetchWord u st (pc + 4))).any fun qq5 =>
     (let t := qq5; decide (st.seq = .V) && (isVectorClass (wordClass t)))))))) = true) ∧
  (∃ (s : State), ((rcons s.agenda).any fun z => (let st := z.1; (let rest := z.2;
     (let u := { tick s with agenda := rest, cur := st }; (let pc := (u.seqOf st).pc;
     (u.runs st) && decide (st.sub = .pipe) && decide (u.trapDue st = false) &&
     decide (u.slipFull st = false) && decide (u.fetchWaits st = false) &&
     (oke (fetchWord u st pc)).any fun w => (isRep w) && (oke (fetchWord u st (pc + 4))).any fun qq6 =>
     (let t := qq6; decide ((st.seq = .V → isVectorClass (wordClass t) = false)) &&
     decide (checkPair st.seq w t = none) && decide ((u.seqOf st).rem ≠ 0) &&
     (oke (decode st.seq (steppedWord w t (repCount w - (u.seqOf st).rem)) ⟨0, 0⟩)).any fun _ =>
     true)))))) = true) ∧
  (∃ (s : State), ((rcons s.agenda).any fun z => (let st := z.1; (let rest := z.2;
     (let u := { tick s with agenda := rest, cur := st }; (u.runs st) &&
     decide (st.sub = .pipe) && (u.trapDue st))))) = true) ∧
  (∃ (s : State), ((rcons s.agenda).any fun z => (let st := z.1; (let rest := z.2;
     (let u := { tick s with agenda := rest, cur := st }; (u.runs st) &&
     decide (st.sub ≠ .pipe) && (vw (nextOfSub u st)).any fun _ => true)))) = true) ∧
  (∃ (s : State), ((rcons s.agenda).any fun z => (let st := z.1; (let rest := z.2;
     (let u := { tick s with agenda := rest, cur := st }; (u.runs st) &&
     decide (st.sub ≠ .pipe) && (vbad (nextOfSub u st)).any fun _ => true)))) = true) ∧
  (∃ (s : State), ((vcons s.agenda).any fun _ => true) = true) ∧
  (∃ (s : State), ((dcons s.agenda).any fun _ => true) = true) ∧
  (∃ (s : State), (decide (s.agenda = []) && ((tick s).goesOn)) = true) :=
  ⟨⟨st0, by decide +kernel⟩,
   ⟨st2, by decide +kernel⟩,
   ⟨st10, by decide +kernel⟩,
   ⟨st7, by decide +kernel⟩,
   ⟨st5, by decide +kernel⟩,
   ⟨st6, by decide +kernel⟩,
   ⟨st9, by decide +kernel⟩,
   ⟨st3, by decide +kernel⟩,
   ⟨st8, by decide +kernel⟩,
   ⟨st4, by decide +kernel⟩⟩

/-- `Obligations.ResetState`: states and operands that meet its hypotheses, clause by clause. -/
theorem witness_ResetState :
  ((([0, 5]).any fun _ => true) = true) ∧
  ((([0, 5]).any fun _ => true) = true) ∧
  ((([0, 3]).any fun _ => true) = true) ∧
  ((([0, 15]).any fun _ => true) = true) :=
  ⟨by decide +kernel,
   by decide +kernel,
   by decide +kernel,
   by decide +kernel⟩

end DeviceParts

/-! ## Witnesses that no evaluation gives -/

/-- With both links of its glade up, a core reaches every device. -/
theorem linkFor_reaches {s : State} (h : reaches s = true) (n : Nat) : ∃ l, s.linkFor 0 n = some l := by
  simp only [reaches, Bool.and_eq_true] at h
  have hm : Config.linkHash n % 2 = 0 ∨ Config.linkHash n % 2 = 1 := by omega
  unfold State.linkFor
  split
  · exact ⟨_, rfl⟩
  · obtain e | e := hm <;> simp [gladeOf, e, h.1, h.2]

/-- With both down, it reaches the device itself alone, so of two devices it does not reach one. -/
theorem linkFor_cutOff {s : State} (h : cutOff s = true) {m n : Nat} (hmn : m ≠ n) :
    s.linkFor 0 m = none ∨ s.linkFor 0 n = none := by
  simp only [cutOff, Bool.and_eq_true, Bool.not_eq_true'] at h
  have key : ∀ k, k ≠ ownDevice → s.linkFor 0 k = none := by
    intro k hk
    have hm : Config.linkHash k % 2 = 0 ∨ Config.linkHash k % 2 = 1 := by omega
    have h2 : (Config.linkHash k + 1) % 2 = 1 - Config.linkHash k % 2 := by omega
    simp only [State.linkFor, if_neg hk, h2]
    obtain e | e := hm <;> simp [gladeOf, e, h.1, h.2]
  by_cases hm : m = ownDevice
  · exact Or.inr (key n fun hn => hmn (hm.trans hn.symm))
  · exact Or.inl (key m hm)

/-- `Obligations.LinkEvents`: a flit of zeros passes every check but the opening of the sealed part, which is a free value. -/
theorem witness_LinkEvents_receive : ∃ (s : State) (n : Nat) (flit : List Byte), (s.link n).up = true ∧ flit.length = 256 ∧
    ofBytes (flit.drop 248) = (crc64 0 (flit.take 248)).toNat ∧ ofBytes (flit.take 4) % 4096 = (s.link n).expect := by
  refine ⟨State.reset.setLink 0 { State.reset.link 0 with up := true }, 0, List.replicate 256 0, by decide +kernel,
    List.length_replicate .., ?_, by decide +kernel⟩
  have h0 : crcByte 0 0 = 0 := by decide +kernel
  have hc : ∀ n, crc64 0 (List.replicate n 0) = 0 := by
    intro n
    induction n with
    | zero => rfl
    | succ n ih => rw [List.replicate_succ, crc64, List.foldl_cons, h0]; exact ih
  have h8 : (List.replicate 256 (0 : Byte)).take 248 = List.replicate 248 0 := by simp only [List.take_replicate]; rfl
  rw [h8, hc]
  decide +kernel

/-- `Obligations.NopTrapHaltYield`: a YIELD that has waited long enough, and one that has not; the time of a core is a free
value, so the stream began to wait that long before it. -/
theorem witness_NopTrapHaltYield_time : ∀ n : Nat, n < 2 ^ 64 → ∃ (s : State) (v : Word × Nat), operandsReady s [.reg 1] .discard = true ∧
    srcVal s (.reg 1) = 1 ∧ (s.grove (groveOf s.cur.core)).preempting = false ∧ s.seq.yieldAt = some v ∧
    (s.timeAt s.cur.core - v.1).toNat = n := by
  intro n hn
  let s0 : State := tState ⟨0, .K, .pipe⟩ (tCtx .K [(1, 1)] [])
  let v : Word := s0.timeAt 0 - BitVec.ofNat 64 n
  refine ⟨s0.modSeq ⟨0, .K, .pipe⟩ fun q => { q with yieldAt := some (v, 1) }, (v, 1), rfl, rfl, ?_, rfl, ?_⟩
  · have hg : ∀ (s : State) (st : Stream) (f : Seq → Seq) (g : Nat), (s.modSeq st f).grove g = s.grove g := fun _ _ _ _ => rfl
    rw [hg]
    exact (by decide +kernel : ((tState ⟨0, .K, .pipe⟩ (tCtx .K [(1, 1)] [])).grove
      (groveOf (tState ⟨0, .K, .pipe⟩ (tCtx .K [(1, 1)] [])).cur.core)).preempting = false)
  show (s0.timeAt 0 - (s0.timeAt 0 - BitVec.ofNat 64 n)).toNat = n
  have h : s0.timeAt 0 - (s0.timeAt 0 - BitVec.ofNat 64 n) = BitVec.ofNat 64 n := by
    generalize s0.timeAt 0 = x
    generalize BitVec.ofNat 64 n = y
    bv_omega
  rw [h, BitVec.toNat_ofNat, Nat.mod_eq_of_lt hn]

/-- A table that lists every key of a list. -/
theorem has_map {α : Type} (v : α) {k : Nat} : ∀ {l : List Nat}, k ∈ l → Tab.has (l.map fun i => (i, v)) k = true
  | i :: l, h => by
    obtain rfl | h := List.mem_cons.1 h
    · simp [Tab.has]
    · simp [Tab.has, has_map v h]

/-- `Obligations.PullReceiver`: every receive of the device is posted, or every request held. -/
theorem witness_PullReceiver_full :
    (∃ (s : State) (a : Src) (l : List Byte) (t : State), noRemoteFault s ∧ operandsReady s [a] .discard = true ∧
      Reads (srcPop s a) (srcPop s a).me .vector (srcVal s a) 64 64 l t ∧ fld (BitVec.ofNat 512 (ofBytes l)) 104 24 = 0 ∧
      fld (BitVec.ofNat 512 (ofBytes l)) 256 256 = 0 ∧ bdCrec (BitVec.ofNat 512 (ofBytes l)) = 0x2000 ∧ t.freeRecv = none) ∧
    (∃ (s : State) (m : PullRequest), s.keyOk m.rcb m.fkey = true ∧ 4096 ≤ s.reqs.length) := by
  refine ⟨?_, { State.reset with rcbs := [(0, rootRcb)], reqs := List.replicate 4096 FabricParts.req1 },
    { device := 7, id := 9, rcb := 0, fkey := 0, length := 500, tag := 0x19, cls := 1, pfx := [] }, by decide +kernel,
    Nat.le_of_eq (List.length_replicate ..).symm⟩
  let full : Tab Recv := (List.range 1024).map fun n => (n, FabricParts.rcv1)
  let s : State := { FabricParts.br with recvs := full }
  have h : (oks (load (srcPop s (.reg 1)).me .vector (srcVal s (.reg 1)) 64 64 (srcPop s (.reg 1)))).any fun q =>
      decide (fld (BitVec.ofNat 512 (ofBytes q.1)) 104 24 = 0 ∧ fld (BitVec.ofNat 512 (ofBytes q.1)) 256 256 = 0 ∧
        bdCrec (BitVec.ofNat 512 (ofBytes q.1)) = 0x2000 ∧ q.2.recvs = full) := by decide +kernel
  obtain ⟨⟨l, t⟩, hm, hd⟩ := List.any_eq_true.1 h
  obtain ⟨h1, h2, h3, h5⟩ := of_decide_eq_true hd
  refine ⟨s, .reg 1, l, t, Or.inl (by decide +kernel), by decide +kernel, ?_, h1, h2, h3, ?_⟩
  · unfold Reads
    revert hm
    cases load (srcPop s (.reg 1)).me .vector (srcVal s (.reg 1)) 64 64 (srcPop s (.reg 1)) with
    | error e => intro hm; cases hm
    | ok p => intro hm; rw [List.mem_singleton.1 hm]
  · have hf : ∀ n, n < 1024 → Tab.has full n = true := fun n hn => has_map _ (List.mem_range.2 hn)
    clear_value full
    refine List.find?_eq_none.2 fun n hn => ?_
    obtain ⟨k, -, rfl⟩ := List.mem_map.1 hn
    rw [h5, hf _ (Nat.mod_lt _ (by decide))]
    decide

/-- One walk of glade 0 runs. -/
def oneWalk (m : Miss) (s : State) : State := { s with msys := { s.msys with misses := [(0, [m])] } }

/-- `Obligations.BlockTables`: the only walk of a glade ends, with a page and without one; which walk ends first is a free
value. -/
theorem witness_BlockTables_walk :
    (∃ (s : State) (g : Nat) (m : Miss), ((s.missTable g).take 64)[Config.walkEnds s.fresh % ((s.missTable g).take 64).length]? = some m ∧
      (oke (walk s m.tenant m.va)).length = 1) ∧
    (∃ (s : State) (g : Nat) (m : Miss), ((s.missTable g).take 64)[Config.walkEnds s.fresh % ((s.missTable g).take 64).length]? = some m ∧
      (ers (walk s m.tenant m.va)).length = 1) := by
  have e : ∀ (s : State) (m : Miss) (n : Nat),
      (((oneWalk m s).missTable 0).take 64)[n % (((oneWalk m s).missTable 0).take 64).length]? = some m := by
    intro s m n
    rw [show ((oneWalk m s).missTable 0).take 64 = [m] from rfl]; simp [Nat.mod_one]
  exact ⟨⟨oneWalk ⟨0, 0, [0, 3], []⟩ (tK.placeProgram .K []), 0, ⟨0, 0, [0, 3], []⟩, e _ _ _, by decide +kernel⟩,
    oneWalk ⟨0, 0x40000000, [0], []⟩ (tK.placeProgram .K []), 0, ⟨0, 0x40000000, [0], []⟩, e _ _ _, by decide +kernel⟩

/-! ## Frames, and what holds of every step -/

def answers (r : Host.Outcome State Fault Refusal) : Bool := match r with | .next _ => true | _ => false

/-- `Obligations.RegisterFrame`: each of its instructions answers a next state. -/
theorem witness_RegisterFrame :
    ([Instr.add (.reg 3) (.reg 1) (.reg 2), .sub (.queue 1) (.queue 0) (.reg 2), .mul .discard (.reg 1) .zero,
      .mulh (.reg 1) (.reg 1) (.reg 5), .mulhu (.reg 47) (.reg 1) (.reg 5), .and (.reg 3) (.reg 1) (.reg 2),
      .or (.reg 3) (.reg 1) (.reg 2), .xor (.reg 3) (.reg 1) (.reg 2), .andn (.reg 3) (.reg 1) (.reg 2),
      .shl (.reg 3) (.reg 1) (.reg 2), .shr (.reg 3) (.reg 1) (.reg 2), .sar (.reg 3) (.reg 1) (.reg 2),
      .rol (.reg 3) (.reg 1) (.reg 2), .min (.reg 3) (.reg 1) (.reg 2), .max (.reg 3) (.reg 1) (.reg 2),
      .minu (.reg 3) (.reg 1) (.reg 2), .maxu (.reg 3) (.reg 1) (.reg 2), .sext (.reg 3) (.reg 1) (.reg 2),
      .zext (.reg 3) (.reg 1) (.reg 2), .div (.reg 3) (.reg 1) (.reg 2), .divu (.reg 3) (.reg 1) (.reg 2),
      .rem (.reg 3) (.reg 1) (.reg 2), .remu (.reg 3) (.reg 1) (.reg 2), .fmin (.reg 3) (.reg 1) (.reg 2),
      .fmax (.reg 3) (.reg 1) (.reg 2), .fcmp (.reg 3) (.reg 1) (.reg 2), .bfi (.reg 3) (.reg 1) (.reg 2),
      .madr (.reg 3) (.reg 1) (.reg 2), .bfx (.reg 3) (.reg 1) (.reg 2) true, .bfx (.reg 3) (.reg 1) (.reg 2) false,
      .cmp (.reg 3) (.reg 1) (.reg 2) true, .cmp (.reg 3) (.reg 1) (.reg 2) false, .sel (.reg 3) (.reg 1) (.reg 2) .gtz,
      .addi (.reg 3) (.reg 1) 0x3FF, .clz (.reg 3) (.reg 1) .d, .ffs (.reg 3) (.reg 1) .w, .popc (.reg 3) (.reg 1) .b,
      .abs (.reg 3) (.reg 5) true, .abs (.reg 3) (.reg 5) false, .movi (.reg 3) 5].all fun i => answers (exec i tK)) = true ∧
    operandsReady tK [.queue 0, .reg 2] (.queue 1) = true ∧ operandsReady tK [.reg 1, .reg 2, (Dst.reg 3).readBack] (.reg 3) = true ∧
    operandsReady tK [.reg 1] (.reg 3) = true ∧ operandsReady tK [] (.reg 3) = true ∧ tK.biterr = [] := by
  decide +kernel

/-- `Obligations.StoreFrame`: each of its stores answers a next state; QZST stores to a PROF page. -/
theorem witness_StoreFrame :
    answers (exec (.st (.reg 5) (.reg 1) (.reg 2) .b) tK) = true ∧
    answers (exec (.st (.queue 0) (.reg 1) (.reg 2) .w) tK) = true ∧
    answers (exec (.str (.reg 5) 1 2 .release .device) tK) = true ∧
    answers (exec (.qzst 3 (.reg 1) .zero) (tState ⟨0, .Q, .pipe⟩ (tCtx .Q [(1, 0x40000000)] []))) = true ∧ tK.biterr = [] := by
  decide +kernel

/-- VA has one word at its head. -/
def tA : State := tState ⟨0, .V, .va⟩ { tCtx .V [] [] with
  vq := [(0, [5])], va := { words := [{ pc := 0x80, items := [.word .nop], complete := 0, pair := false, order := 3 }], stopped := false, fault := none } }
/-- `Obligations.VectorFrame`: each of its vector words answers a next state. -/
theorem witness_VectorFrame_two :
    ([Instr.vadd (.reg 3) (.reg 1) (.reg 2) false false 0, .vsub (.queue 1) (.queue 0) (.reg 2) true false 1,
      .vmul .discard (.reg 1) .zero false true 0, .vmin (.reg 3) (.reg 1) (.reg 2) false false 0,
      .vmax (.reg 3) (.reg 1) (.reg 2) false false 0, .vdiv (.reg 3) (.reg 1) (.reg 2) false false 0,
      .vand (.reg 3) (.reg 1) (.reg 2) false false 0, .vor (.reg 3) (.reg 1) (.reg 2) false false 0,
      .vxor (.reg 3) (.reg 1) (.reg 2) false false 0, .vshl (.reg 3) (.reg 1) (.reg 2) false false 0,
      .vshr (.reg 3) (.reg 1) (.reg 2) false false 0, .vsar (.reg 3) (.reg 1) (.reg 2) false false 0].all fun i =>
      answers (exec i tA)) = true ∧ tA.cur.sub ≠ .pipe ∧ tA.biterr = [] := by decide +kernel
/-- The same for those of one operand. -/
theorem witness_VectorFrame_one :
    ([Instr.vabs (.reg 3) (.reg 1) false 0, .vneg (.queue 1) (.queue 0) true 1, .vrcp .discard (.reg 1) false 0,
      .vrsq (.reg 3) .zero false 0, .vsqrt (.reg 3) (.reg 1) false 0, .vexp (.reg 3) (.reg 1) false 0,
      .vlog (.reg 3) (.reg 1) false 0, .vtanh (.reg 3) (.reg 1) false 0, .vsigm (.reg 3) (.reg 1) false 0,
      .vsin (.reg 3) (.reg 1) false 0, .vcos (.reg 3) (.reg 1) false 0, .vnot (.reg 3) (.reg 1) false 0,
      .vclz (.reg 3) (.reg 1) false 0, .vffs (.reg 3) (.reg 1) false 0, .vpopc (.reg 3) (.reg 1) false 0].all fun i =>
      answers (exec i tA)) = true := by decide +kernel

/-- `Obligations.MemoryStaysCanonical`: reset with a NOP placed, and a step of it. -/
theorem witness_MemoryStaysCanonical :
    answers (step (State.reset.withFetchWord 32 0xE0400000)) = true ∧ (State.reset.withFetchWord 32 0xE0400000).memWf = true := by
  decide +kernel

/-- `Obligations.MeasurementRegisters`: a cold reset changes a register that was extended; a write of
RSTCTL completes; a mailbox of the host. Whether an image is good is a free value, of the kind that a case distinction meets. -/
theorem witness_MeasurementRegisters :
    (∃ s t : State, exec .coldReset s = .next t ∧ Tab.get 0 t.mr 3 ≠ Tab.get 0 s.mr 3) ∧
    (∃ (s : State) (v : BitVec 128), s.bootState ≠ 2 ∧ bit v 0 = true ∧ answers (exec (.registerWrite none 0x1000 v) s) = true) ∧
    (∃ (n : Nat) (m : Mailbox), 3 ≤ n ∧ n ≤ 7 ∧ ∀ (s : State) (x : Nat), m = .i3c x → s.i3cAddr = some x) := by
  refine ⟨⟨{ State.reset with mr := [(3, 1)] }, _, rfl, ?_⟩,
    ⟨State.reset, 1, by decide +kernel, by decide +kernel, rfl⟩, 7, .host 0x5000, by decide, by decide, fun _ _ h => nomatch h⟩
  unfold boot
  split
  · split <;> simp [measured, Tab.get]
  · simp [coldState, State.reset, Tab.get]

/-- `Obligations.NopChangesOnlyThePc`: a stream that waits for nothing. -/
theorem witness_NopChangesOnlyThePc : ∃ s : State, s.seq.rem = 0 ∧ s.seq.waiting = false ∧ s.seq.yieldAt = none ∧
    s.seq.waitAt = none ∧ s.seq.twait = none ∧ s.seq.dropping = none ∧ s.seq.terming = none ∧ (∀ w ∈ s.waiters, w.stream ≠ s.cur) ∧
    s.msys.detach (Who.isOf s.cur) = s.msys := by
  refine ⟨tK, ?_⟩
  decide +kernel

/-- `Obligations.DecodeEncodeRoundTrip`: an event; a well-formed instruction with a literal, whose class a sequencer accepts. -/
theorem witness_DecodeEncodeRoundTrip : (∃ i : Instr, isEvent i = true) ∧ ∃ (i : Instr) (w : Nat) (l : List Nat) (k : SeqKind),
    i.wf = true ∧ isEvent i = false ∧ encode i = some (w :: l) ∧ l ≠ [] ∧ k.accepts (wordClass w) = true :=
  ⟨⟨.coldReset, rfl⟩, .add (.reg 3) (.reg 1) (.lit32 0xFFFFFFFE), _, _, .K, by decide, rfl, rfl, by decide, by decide⟩

/-! ## Images of contexts in host memory -/

/-- The grove's cache of `tState`: the third gigabyte is a page of host memory. -/
def hostTlb : List TlbEntry := [⟨0, 0, 30, 0x1F⟩, ⟨0, 0x40000000, 30, 0x10000004000001F⟩, ⟨0, 0x80000000, 30, 0x20000000000001F⟩]
/-- An agent of tenant 0 whose grove's cache holds these entries, in a device without words in error, results of walks or
remote operations. -/
def Hosted (ag : Agent) (s : State) : Prop := ag.ownWalk = false ∧ ag.tenant = 0 ∧ s.tlb (groveOf ag.core) = hostTlb ∧
  s.biterr = [] ∧ s.poison = [] ∧ s.msys.answers = [] ∧ s.remote = []

theorem hosted_find {ag : Agent} {s : State} (h : Hosted ag s) {x : Nat} (hx : x / 2 ^ 30 = 2) :
    tlbFind (s.tlb (groveOf ag.core)) ag.tenant x = some ⟨0, 0x80000000, 30, 0x20000000000001F⟩ := by
  have hx' : x / 1073741824 = 2 := hx
  rw [h.2.2.1, h.2.1]
  simp [tlbFind, hostTlb, hx']

theorem hosted_answer {ag : Agent} {s : State} (h : Hosted ag s) (x : Nat) : s.answerFor ag x = none := by
  simp [State.answerFor, h.2.2.2.2.2.1]

theorem hosted_access {ag : Agent} {s : State} (h : Hosted ag s) {a : Word} (ha : a.toNat / 2 ^ 30 = 2) {n : Nat}
    (hn : a.toNat + n ≤ 0xC0000000) {rw_ : Rw} (hr : rw_ = .read ∨ rw_ = .write) :
    ∃ p : Place, p.host = true ∧ access ag .engine rw_ a n 1 s = .ok (p, s) := by
  have h57 : a.toNat / 2 ^ 57 = 0 := by omega
  have h48 : ¬ a.toNat / 2 ^ 48 = 0xFF00 := by omega
  have hv : isVirtual a = true := by rw [isVirtual, h57]; rfl
  have ht : Machine.translate s ag a.toNat = .ok (30, 0x20000000000001F) := by
    simp [Machine.translate, h.1, hosted_answer h, hosted_find h ha]
  have hl : ¬ 2 ^ 30 < a.toNat % 2 ^ 30 + n := by omega
  have hp : permit ag rw_ 0x20000000000001F a.toNat = .ok () := by
    have b6 : bit (0x20000000000001F : Word) 6 = false := by decide
    have b2 : bit (0x20000000000001F : Word) 2 = true := by decide
    have b3 : bit (0x20000000000001F : Word) 3 = true := by decide
    have b56 : bit (0x20000000000001F : Word) 56 = false := by decide
    obtain rfl | rfl := hr <;> simp only [permit, b6, b2, b3, b56] <;> simp
  have hb : bit (0x20000000000001F : Word) 57 = true := by decide
  refine ⟨{ host := true, addr := fld (0x20000000000001F : Word) 8 48 * 256 + a.toNat % 2 ^ 30, pte := 0x20000000000001F, prog := a.toNat }, rfl, ?_⟩
  have hm : s.misses ag a.toNat = false := by simp [State.misses, hosted_answer h, hosted_find h ha]
  have hf : tlbFill ag a.toNat s = s := by simp [tlbFill, h.1, hm]
  have hw : s.walkersBusy ag a.toNat = false := by simp [State.walkersBusy, hm]
  have hlo : locate s ag .engine rw_ a n 1 = .ok { host := true, addr := fld (0x20000000000001F : Word) 8 48 * 256 + a.toNat % 2 ^ 30, pte := 0x20000000000001F, prog := a.toNat } := by
    have hz : (a.toNat / 2 ^ 48 == 0xFF00) = false := by simpa using h48
    simp only [locate, h57, hz, ht, hp, hb, hl]
    simp [Nat.mod_one]
  simp [access, hw, hlo, hf]

theorem host_waits {ag : Agent} {p : Place} (hp : p.host = true) (n : Nat) {s : State} (hr : s.remote = []) : waitPlace ag p n s = .ok ((), s) := by
  simp [waitPlace, State.placeWaits, State.accBusy, State.behindXform, State.behindRemote, hp, hr, gets', blockIf, bind, StateT.bind, Except.bind, pure, StateT.pure, Except.pure]

theorem hosted_hostWrite {ag : Agent} (l : List Byte) {s : State} (h : Hosted ag s) (a : Nat) : Hosted ag (s.hostWrite a l) := by
  induction l generalizing s a with
  | nil => exact h
  | cons b t ih => exact ih (s := { s with hostMem := Tab.set 0 s.hostMem a b }) h (a + 1)

theorem hosted_store {ag : Agent} {s : State} (h : Hosted ag s) {a : Word} (ha : a.toNat / 2 ^ 30 = 2) {l : List Byte}
    (hn : a.toNat + l.length ≤ 0xC0000000) : ∃ u, store ag .engine a l 1 s = .ok ((), u) ∧ Hosted ag u := by
  obtain ⟨p, hp, e⟩ := hosted_access h ha hn (Or.inr rfl)
  refine ⟨s.hostWrite p.addr l, ?_, hosted_hostWrite l h _⟩
  simp [store, bind, StateT.bind, Except.bind, e, host_waits hp _ h.2.2.2.2.2.2, writePlace, hp]

theorem hosted_load {ag : Agent} {s : State} (h : Hosted ag s) {a : Word} (ha : a.toNat / 2 ^ 30 = 2) {n : Nat}
    (hn : a.toNat + n ≤ 0xC0000000) : ∃ b, load ag .engine a n 1 s = .ok (b, s) := by
  obtain ⟨p, hp, e⟩ := hosted_access h ha hn (Or.inl rfl)
  exact ⟨hostBytes s p.addr n, by simp [load, bind, StateT.bind, Except.bind, e, host_waits hp _ h.2.2.2.2.2.2, readPlace, hp]⟩

theorem segments_in : ∀ (f : Nat) (a : Word) (n : Nat), a.toNat / 2 ^ 30 = 2 → a.toNat + n ≤ 0xC0000000 →
    ∀ g ∈ segments f a n, g.1.toNat / 2 ^ 30 = 2 ∧ g.1.toNat + g.2 ≤ 0xC0000000
  | 0, _, _, _, _, g, hg => by simp [segments] at hg
  | f + 1, a, n, ha, hn, g, hg => by
    have h57 : a.toNat / 2 ^ 57 = 0 := by omega
    have hv : isVirtual a = true := by rw [isVirtual, h57]; rfl
    by_cases h0 : n = 0
    · simp [segments, h0] at hg
    · simp only [segments, h0, hv, if_false, Bool.not_true, Bool.false_eq_true, List.mem_cons] at hg
      have hk : min n (65536 - a.toNat % 65536) ≤ n := Nat.min_le_left ..
      obtain rfl | hg := hg
      · exact ⟨ha, by simp only; omega⟩
      · by_cases hz : n - min n (65536 - a.toNat % 65536) = 0
        · rw [hz] at hg
          cases f <;> simp [segments] at hg
        · refine segments_in f _ _ ?_ ?_ g hg <;>
          · simp only [BitVec.toNat_add, BitVec.toNat_ofNat]
            omega

theorem hosted_storeRange {ag : Agent} {s : State} (h : Hosted ag s) {a : Word} (ha : a.toNat / 2 ^ 30 = 2) {l : List Byte}
    (hn : a.toNat + l.length ≤ 0xC0000000) : ∃ u, storeRange ag .engine a l s = .ok ((), u) ∧ Hosted ag u := by
  have key : ∀ (gs : List (Word × Nat)) (rest : List Byte) (s : State), Hosted ag s →
      (∀ g ∈ gs, g.1.toNat / 2 ^ 30 = 2 ∧ g.1.toNat + g.2 ≤ 0xC0000000) →
      ∃ r u, (gs.foldlM (fun rest g => do store ag .engine g.1 (rest.take g.2) 1; pure (rest.drop g.2)) rest : M (List Byte)) s = .ok (r, u) ∧
        Hosted ag u := by
    intro gs
    induction gs with
    | nil => exact fun rest s h _ => ⟨rest, s, rfl, h⟩
    | cons g gs ih =>
      intro rest s h hg
      obtain ⟨⟨h1, h2⟩, h3⟩ := List.forall_mem_cons.1 hg
      obtain ⟨u, e, hu⟩ := hosted_store h h1 (l := rest.take g.2) (by rw [List.length_take]; omega)
      obtain ⟨r, w, e2, hw⟩ := ih (rest.drop g.2) u hu h3
      refine ⟨r, w, ?_, hw⟩
      simp only [List.foldlM_cons, bind, StateT.bind, Except.bind, e, pure, StateT.pure, Except.pure] at e2 ⊢
      exact e2
  obtain ⟨r, u, e, hu⟩ := key (segments (l.length / 65536 + 2) a l.length) l s h (segments_in _ _ _ ha hn)
  refine ⟨u, ?_, hu⟩
  simp only [storeRange, bind, StateT.bind, Except.bind] at e ⊢
  rw [e]; rfl

theorem hosted_loadRange {ag : Agent} {s : State} (h : Hosted ag s) {a : Word} (ha : a.toNat / 2 ^ 30 = 2) {n : Nat}
    (hn : a.toNat + n ≤ 0xC0000000) : ∃ b, loadRange ag .engine a n s = .ok (b, s) := by
  have key : ∀ (gs : List (Word × Nat)) (acc : List Byte), (∀ g ∈ gs, g.1.toNat / 2 ^ 30 = 2 ∧ g.1.toNat + g.2 ≤ 0xC0000000) →
      ∃ r, (gs.foldlM (fun acc g => do let l ← load ag .engine g.1 g.2 1; pure (acc ++ l)) acc : M (List Byte)) s = .ok (r, s) := by
    intro gs
    induction gs with
    | nil => exact fun acc _ => ⟨acc, rfl⟩
    | cons g gs ih =>
      intro acc hg
      obtain ⟨⟨h1, h2⟩, h3⟩ := List.forall_mem_cons.1 hg
      obtain ⟨b, e⟩ := hosted_load h h1 h2
      obtain ⟨r, e2⟩ := ih (acc ++ b) h3
      refine ⟨r, ?_⟩
      simp only [List.foldlM_cons, bind, StateT.bind, Except.bind, e, pure, StateT.pure, Except.pure] at e2 ⊢
      exact e2
  obtain ⟨r, e⟩ := key (segments (n / 65536 + 2) a n) [] (segments_in _ _ _ ha hn)
  exact ⟨r, e⟩

theorem toBytes_length : ∀ n v, (toBytes n v).length = n
  | 0, _ => rfl
  | n + 1, v => by simp [toBytes, toBytes_length n]

theorem rowBytes_length {v : Nat} (w n : Nat) (t : Tab (BitVec v)) : (rowBytes w n t).length = n * w := by
  simp only [rowBytes, List.length_flatMap, toBytes_length]
  induction n with
  | zero => simp
  | succ n ih => simp [List.range_succ, ih, Nat.succ_mul]

theorem contextImage_length (x : Context) (k : Nat) : (contextImage x k).length = ctxBytes := by
  simp only [contextImage, seqBytes, opaqueBlock, fitTo, List.flatMap_cons, List.flatMap_nil, List.length_append, List.length_take,
    List.length_map, List.length_range, List.length_replicate, List.length_nil, rowBytes_length, toBytes_length, ctxBytes]
  rfl

theorem imageAt_in {y : Word} (hy : y = 0x80000000) {k : Nat} (hk : k < 16) :
    (imageAt y k).toNat / 2 ^ 30 = 2 ∧ (imageAt y k).toNat + ctxBytes ≤ 0xC0000000 := by
  have h : y.toNat = 0x80000000 := by rw [hy]; rfl
  have h1 : 393216 * k % 2 ^ 64 = 393216 * k := Nat.mod_eq_of_lt (by omega)
  have h2 : (0x80000000 + 393216 * k) % 2 ^ 64 = 0x80000000 + 393216 * k := Nat.mod_eq_of_lt (by omega)
  simp only [imageAt, ctxBytes, BitVec.toNat_add, BitVec.toNat_ofNat, h, h1, h2]
  omega

theorem imagesOut_exists {ag : Agent} (g : Nat) : ∀ (l : List Nat) (s : State), (∀ k ∈ l, k < 16) → Hosted ag s →
    ∃ t, ImagesOut ag g 0x80000000 l s t
  | [], s, _, _ => ⟨s, rfl⟩
  | k :: ks, s, hl, h => by
    obtain ⟨hk, hks⟩ := List.forall_mem_cons.1 hl
    have hi := imageAt_in rfl hk
    let x := (s.core (16 * g + k)).under
    obtain ⟨u, e, hu⟩ := hosted_storeRange h hi.1 (l := contextImage x (16 * s.fresh + k))
      (by rw [contextImage_length]; exact hi.2)
    obtain ⟨t, ht⟩ := imagesOut_exists g ks { u with images := (opaqueOf (contextImage x (16 * s.fresh + k)), x, (u.grove g).underGroups) ::
      (u.images.filter fun e => e.1 != opaqueOf (contextImage x (16 * s.fresh + k))) } hks hu
    exact ⟨t, s, u, by simp [checkUnder, h.2.2.2.1, h.2.2.2.2.1], e, ht⟩

theorem imagesIn_exists {ag : Agent} : ∀ (l : List Nat) (s : State), (∀ k ∈ l, k < 16) → Hosted ag s →
    ∃ b, ImagesIn ag 0x80000000 l s b s
  | [], s, _, _ => ⟨[], rfl, rfl⟩
  | k :: ks, s, hl, h => by
    obtain ⟨hk, hks⟩ := List.forall_mem_cons.1 hl
    have hi := imageAt_in rfl hk
    obtain ⟨b, e⟩ := hosted_loadRange h hi.1 hi.2
    obtain ⟨r, hr⟩ := imagesIn_exists ks s hks h
    exact ⟨b :: r, b, r, s, e, rfl, hr⟩

/-- `Obligations.Preemption`: sixteen images are written to, and read from, a page of host memory. -/
theorem witness_PreemptionImages : ∃ (s : State) (a b : Src), s.seq.trcb = 0 ∧ s.xformsOpen = false ∧
    (srcVal s a).toNat ≤ 95 ∧ (srcVal s a).toNat ≠ groveOf s.cur.core ∧ operandsReady s [a, b] .discard = true ∧
    (srcVal (srcPop s a) b).toNat % 256 = 0 ∧ copyTurn s (srcVal s a).toNat ∧ s.cur.sub = .pipe ∧
    (∃ t, ImagesOut (eaPop s a b).me (srcVal s a).toNat (srcVal (srcPop s a) b) (List.range 16) (eaPop s a b) t) ∧
    (∃ l t, ImagesIn (eaPop s a b).me (srcVal (srcPop s a) b) (List.range 16) (eaPop s a b) l t) := by
  refine ⟨tState ⟨0, .K, .pipe⟩ (tCtx .K [(1, 3), (2, 0x80000000)] []), .reg 1, .reg 2, by decide +kernel, by decide +kernel,
    by decide +kernel, by decide +kernel, by decide +kernel, by decide +kernel, Or.inl (by decide +kernel), rfl, ?_, ?_⟩
  · exact imagesOut_exists _ _ _ (fun k hk => List.mem_range.1 hk) ⟨by decide +kernel, by decide +kernel, by decide +kernel, by decide +kernel, by decide +kernel, by decide +kernel, by decide +kernel⟩
  · obtain ⟨b, hb⟩ := imagesIn_exists (List.range 16) (eaPop (tState ⟨0, .K, .pipe⟩ (tCtx .K [(1, 3), (2, 0x80000000)] [])) (.reg 1) (.reg 2))
      (fun k hk => List.mem_range.1 hk)
      (ag := (eaPop (tState ⟨0, .K, .pipe⟩ (tCtx .K [(1, 3), (2, 0x80000000)] [])) (.reg 1) (.reg 2)).me)
      ⟨by decide +kernel, by decide +kernel, by decide +kernel, by decide +kernel, by decide +kernel, by decide +kernel, by decide +kernel⟩
    exact ⟨b, _, hb⟩

end Sys2Proof.Tests
end

/-! PROOF. What the host's accesses do: writes and reads of the register blocks, commands of the rings, and the HBM
aperture, one lemma per function and case (R447 to R453), and the obligation on them. -/

namespace Sys2Proof.Machine

/-! ## What a register write may reach (R447, R455) -/

theorem onRegister_of_bootFailed {s : State} (f : State → State) (h : s.bootState = 2) : onRegister f s = .next s := by
  rw [onRegister, if_pos h]

theorem onRegister_of_ne_bootFailed {s : State} (f : State → State) (h : s.bootState ≠ 2) :
    onRegister f s = .next (f s) := by
  rw [onRegister, if_neg h]

theorem throughVf_of_enabled {s : State} {t : Nat} (f : State → State) (hb : s.bootState ≠ 2) (he : s.enabled t = true) :
    throughVf t f s = .next (f s) := by
  rw [throughVf, onRegister_of_ne_bootFailed _ hb, if_pos he]

theorem throughVf_of_not_enabled {s : State} {t : Nat} (f : State → State) (hb : s.bootState ≠ 2)
    (he : s.enabled t = false) : throughVf t f s = .next (s.send .unsupported) := by
  rw [throughVf, onRegister_of_ne_bootFailed _ hb, if_neg (by simp [he])]

theorem exec_registerWrite_pf0 (o : Nat) (w : BitVec 128) (s : State) :
    exec (.registerWrite none o w) s = onRegister (writePf0 o w) s := rfl

theorem exec_registerWrite_vf (t o : Nat) (w : BitVec 128) (s : State) :
    exec (.registerWrite (some t) o w) s = throughVf t (writePage t o (BitVec.ofNat 64 (fld w 0 64))) s := rfl

theorem exec_cqtail (t k v : Nat) (s : State) :
    exec (.cqtail t k v) s = throughVf t (writePage t (0x40 * (k % 4) + 0x18) (BitVec.ofNat 64 v)) s := rfl

theorem exec_cplhead (t k v : Nat) (s : State) :
    exec (.cplhead t k v) s = throughVf t (writePage t (0x40 * (k % 4) + 0x28) (BitVec.ofNat 64 v)) s := rfl

/-! ## The registers of PF0 (R403, R425, R449 to R451) -/

theorem inBlock_of_entry {base w n k : Nat} (hw : 0 < w) (hk : k < n) : inBlock base w n (base + w * k) = some (k, 0) := by
  have hlt : base + w * k < base + w * n := Nat.add_lt_add_left (Nat.mul_lt_mul_of_pos_left hk hw) base
  rw [inBlock, if_pos ⟨Nat.le_add_right _ _, hlt⟩, Nat.add_sub_cancel_left, Nat.mul_div_cancel_left k hw,
    Nat.mul_mod_right]

theorem inBlock_of_past {base w n o : Nat} (h : base + w * n ≤ o) : inBlock base w n o = none := by
  rw [inBlock, if_neg (by omega)]

theorem writePf0_tinvStart (w : BitVec 128) (s : State) :
    writePf0 0x2008 w s = { s with tinvStart := BitVec.ofNat 64 (fld w 0 64) } := rfl

theorem writePf0_tinv (w : BitVec 128) (s : State) :
    writePf0 0x2000 w s = tinvWrite (BitVec.ofNat 64 (fld w 0 64)) s := rfl

theorem writePf0_route {k : Nat} (w : BitVec 128) (s : State) (hk : k < 4096) :
    writePf0 (0x220000 + 16 * k) w s = { s with route := Tab.set 0 s.route k (routeEntry w) } := by
  have hpair : inBlock 0x200000 64 64 (0x220000 + 16 * k) = none := inBlock_of_past (by omega)
  have hsize : inBlock 0x210000 8 4 (0x220000 + 16 * k) = none := inBlock_of_past (by omega)
  have hroute : inBlock 0x220000 16 4096 (0x220000 + 16 * k) = some (k, 0) := inBlock_of_entry (by omega) hk
  rw [writePf0, if_neg (by omega), if_neg (by omega), if_neg (by omega), if_neg (by omega), if_neg (by omega), hpair,
    hsize, hroute]

theorem readPf0_bootState (s : State) : readPf0 s 0x10 = BitVec.ofNat 64 s.bootState := rfl

theorem readPf0_timer (s : State) : readPf0 s 0x1008 = s.timer := rfl

/-- The register block lists nothing at 0x18, which reads as zero (R449). -/
theorem readPf0_0x18_eq_zero (s : State) : readPf0 s 0x18 = 0 := rfl

/-! ## The registers of a tenant page (R452, R453) -/

theorem writePage_eqbase (t : Nat) (v : Word) (s : State) :
    writePage t 0x100 v s = s.setPage t { s.page t with eqbase := v } := rfl

/-- A ring index is the low 16 bits of the word written (R452, R453). -/
theorem toNat_ofNat_mod_index (v : Nat) : (BitVec.ofNat 64 v).toNat % 65536 = v % 65536 := by
  rw [BitVec.toNat_ofNat]
  exact Nat.mod_mod_of_dvd v (by decide)

section
variable {k : Nat} (t v : Nat) (s : State) (hk : k < 4)
include hk

theorem writePage_cqtail : writePage t (0x40 * k + 0x18) (BitVec.ofNat 64 v) s = s.setPage t { s.page t with
    rings := Tab.put (s.page t).rings k { (s.page t).ring k with cqtail := v % 65536 } } := by
  have hrings : 0x40 * k + 0x18 < 0x100 := by omega
  have hring : (0x40 * k + 0x18) / 0x40 = k := by omega
  have hreg : (0x40 * k + 0x18) % 0x40 = 0x18 := by omega
  unfold writePage
  simp only [if_pos hrings, hring, hreg, toNat_ofNat_mod_index, TenantPage.ring]

theorem writePage_cplhead : writePage t (0x40 * k + 0x28) (BitVec.ofNat 64 v) s = s.setPage t { s.page t with
    rings := Tab.put (s.page t).rings k { (s.page t).ring k with cplhead := v % 65536 } } := by
  have hrings : 0x40 * k + 0x28 < 0x100 := by omega
  have hring : (0x40 * k + 0x28) / 0x40 = k := by omega
  have hreg : (0x40 * k + 0x28) % 0x40 = 0x28 := by omega
  unfold writePage
  simp only [if_pos hrings, hring, hreg, toNat_ofNat_mod_index, TenantPage.ring]

end

/-! ## Reads of registers (R6, R393, R447) -/

theorem perform_read_pf0 {s : State} (o : Nat) (hb : s.bootState ≠ 2) :
    (Due.read none o).perform s = .next (s.send (.reply (toBytes 8 (readPf0 s o).toNat))) := by
  have hanswers : ¬ (s.bootState = 2 ∧ 0x1000 ≤ o) := fun h => hb h.1
  simp only [Due.perform, readRegister, if_neg hanswers]

theorem perform_read_vf {s : State} {t : Nat} (o : Nat) (hb : s.bootState ≠ 2) (he : s.enabled t = true) :
    (Due.read (some t) o).perform s = .next (s.send (.reply (toBytes 8 (readPage (s.page t) o).toNat))) := by
  simp only [Due.perform, readRegister, if_neg hb, if_pos he]

theorem perform_read_vf_unsupported {s : State} {t : Nat} (o : Nat) (hb : s.bootState ≠ 2) (he : s.enabled t = false) :
    (Due.read (some t) o).perform s = .next (s.send .unsupported) := by
  simp [Due.perform, readRegister, hb, he]

theorem perform_readRegion {s : State} (g id : Nat) (hb : s.bootState ≠ 2) :
    (Due.readRegion g id).perform s = .next (s.send (.reply (regionBytes s g id))) := by
  simp only [Due.perform, readRegion, if_neg hb]

/-! ## Commands of a ring (R450, R453) -/

theorem unlessBusy_of_busy {t : Nat} {s : State} (k i : Nat) (f : State → State) (h : (s.tenant t).busy = true) :
    unlessBusy t k i f s = hostComplete t k i (postWord 0 2 0) s := by
  rw [unlessBusy, if_pos h]

theorem unlessBusy_of_not_busy {t : Nat} {s : State} (k i : Nat) (f : State → State) (h : (s.tenant t).busy = false) :
    unlessBusy t k i f s = f s := by
  rw [unlessBusy, if_neg (by simp [h])]

/-- What a POST command does once it has been read: its post waits for acceptance, or its rejection is reported (R453). -/
def postCommand (t k i : Nat) (l : List Byte) (u : State) : State :=
  match hostRecord u t l with
  | .error (c, w) => hostComplete t k i (postWord 0 3 c) w
  | .ok (r, v) =>
    v.modGrove (ofBytes ((l.drop 16).take 4)) fun g => { g with waiting := g.waiting ++
      [{ record := r, addr := wordOf ((l.drop 8).take 8), poster := .host t k i }] }

section
variable {s u : State} {t k i : Nat} {l : List Byte}

theorem exec_hostPost_of_taken (h : takeCommand t k 1 s = some (i, l, u)) :
    exec (.hostPost t k) s = .next (unlessBusy t k i (postCommand t k i l) u) := by
  show execHostPost t k s = _
  rw [execHostPost, h]
  rfl

theorem exec_hostFence_of_taken (h : takeCommand t k 2 s = some (i, l, u)) :
    exec (.hostFence t k) s = .next (unlessBusy t k i (hostComplete t k i (postWord 0 0 0)) u) := by
  show execHostFence t k s = _
  rw [execHostFence, h]

theorem exec_hostCommandInvalid_of_taken (h : takeCommand t k 0 s = some (i, l, u)) :
    exec (.hostCommandInvalid t k) s =
      .next (unlessBusy t k i (hostComplete t k i (postWord 0 3 Cause.taskMalformed)) u) := by
  show execHostCommandInvalid t k s = _
  rw [execHostCommandInvalid, h]

theorem unlessBusy_hostComplete (w : Word) :
    unlessBusy t k i (hostComplete t k i w) u = hostComplete t k i (if (u.tenant t).busy then postWord 0 2 0 else w) u := by
  unfold unlessBusy
  split <;> rfl

theorem postCommand_of_rejected {c : Nat} {w : State} (h : hostRecord u t l = .error (c, w)) :
    postCommand t k i l u = hostComplete t k i (postWord 0 3 c) w := by
  rw [postCommand, h]

theorem postCommand_of_record {r : TaskRec} {v : State} (h : hostRecord u t l = .ok (r, v)) :
    postCommand t k i l u = v.modGrove (ofBytes ((l.drop 16).take 4)) fun g => { g with waiting := g.waiting ++
      [{ record := r, addr := wordOf ((l.drop 8).take 8), poster := .host t k i }] } := by
  rw [postCommand, h]

end

/-! ## What a read counts leaves the messages sent as they are (R426) -/

@[simp] theorem setPerf_out (s : State) (k : Nat) (v : Word) : (s.setPerf k v).out = s.out := by
  unfold State.setPerf
  split
  · rfl
  · split <;> rfl

@[simp] theorem count_out (c n b : Nat) (s : State) : (count c n b s).out = s.out := setPerf_out _ _ _

@[simp] theorem countFixed_out (pa k : Nat) (s : State) : (countFixed pa k s).out = s.out := by
  obtain ⟨m, hm⟩ := countFixed_keep s pa k
  rw [hm, keep_out]

@[simp] theorem touchMetas_out (a n : Nat) (s : State) : (touchMetas a n s).out = s.out := count_out _ _ _ _

@[simp] theorem countHbm_out (a n : Nat) (s : State) : (countHbm a n s).out = s.out := by
  unfold countHbm
  split
  · rfl
  · simp only [touchMetas_out, count_out]

@[simp] theorem countRead_out (p : Place) (n : Nat) (s : State) : (countRead p n s).out = s.out := by
  unfold countRead
  split
  · rfl
  · simp only [countHbm_out, countFixed_out]

/-! ## The HBM aperture (R310, R448) -/

/-- Whether the function that the host goes through shows `n` bytes from an offset on: PF0's shows all of HBM, a tenant's
the HBM windows of an enabled tenant. -/
def State.apertureShows (s : State) (tenant : Option Nat) (o n : Nat) : Prop :=
  ∀ x, tenant = some x → s.enabled x = true ∧ gapIn (s.tenant x).hbw o n = none

section
variable {s : State} {tenant : Option Nat} {o : Nat}

theorem exec_hostHbmAccess_write {l : List Byte} (n : Nat) (hb : s.bootState ≠ 2) (hs : s.apertureShows tenant o l.length)
    (ho : o + l.length ≤ 0x6000000000) :
    exec (.hostHbmAccess tenant o (some l) n) s = .next (devWrite (hostAgent (tenant.getD 0)) false o l s) := by
  show execHostHbmAccess tenant o (some l) n s = _
  cases tenant with
  | none => simp [execHostHbmAccess, hb, ho]
  | some t =>
    obtain ⟨he, hg⟩ := hs t rfl
    simp [execHostHbmAccess, hb, ho, he, hg]

theorem exec_hostHbmAccess_read {n : Nat} (hb : s.bootState ≠ 2) (hs : s.apertureShows tenant o n)
    (ho : o + n ≤ 0x6000000000) (hp : s.firstPoison o n = none) :
    exec (.hostHbmAccess tenant o none n) s =
      .next ((countRead { host := false, addr := o, pte := 0, prog := o } n s).send (.reply (devBytes s o n))) := by
  show execHostHbmAccess tenant o none n s = _
  cases tenant with
  | none => simp [execHostHbmAccess, hb, ho, hp]
  | some t =>
    obtain ⟨he, hg⟩ := hs t rfl
    simp [execHostHbmAccess, hb, ho, he, hg, hp]

theorem exec_hostHbmAccess_past_hbm {l : List Byte} (n : Nat) (hb : s.bootState ≠ 2) (ho : 0x6000000000 < o + l.length) :
    exec (.hostHbmAccess tenant o (some l) n) s = .next (s.send .unsupported) := by
  have hout : ¬ o + l.length ≤ 0x6000000000 := Nat.not_le.2 ho
  show execHostHbmAccess tenant o (some l) n s = _
  simp [execHostHbmAccess, hb, hout]

end

/-! ## The obligation -/

/-- Settles O49: register writes and reads, commands and aperture accesses, each by the lemma on its function and case. -/
theorem hostEvents : Obligations.HostEvents := by
  unfold Obligations.HostEvents
  refine ⟨fun s o t k v w => ?registers, fun s u t k i l => ?commands, fun s tenant o n l hb hs => ?aperture⟩
  case registers =>
    refine ⟨onRegister_of_bootFailed _, fun hb => ?_, readPf0_bootState s, readPf0_timer s, readPf0_0x18_eq_zero s⟩
    have hpf0 (o : Nat) : exec (.registerWrite none o w) s = .next (writePf0 o w s) := by
      rw [exec_registerWrite_pf0, onRegister_of_ne_bootFailed _ hb]
    have hring : k % 4 < 4 := Nat.mod_lt k (by decide)
    refine ⟨hpf0 o, ?tinvStart, ?tinv, fun hk => ?route, fun he => ⟨?eqbase, ?cqtail, ?cplhead⟩,
      fun he => ⟨?vfWrite, ?vfCqtail, ?vfCplhead⟩, perform_read_pf0 o hb, perform_read_vf o hb,
      perform_read_vf_unsupported o hb, perform_readRegion t k hb⟩
    case tinvStart => rw [hpf0, writePf0_tinvStart]
    case tinv => rw [hpf0, writePf0_tinv]
    case route => rw [hpf0, writePf0_route w s hk]
    case eqbase => rw [exec_registerWrite_vf, throughVf_of_enabled _ hb he, writePage_eqbase]
    case cqtail => rw [exec_cqtail, throughVf_of_enabled _ hb he, writePage_cqtail t v s hring]
    case cplhead => rw [exec_cplhead, throughVf_of_enabled _ hb he, writePage_cplhead t v s hring]
    case vfWrite => rw [exec_registerWrite_vf, throughVf_of_not_enabled _ hb he]
    case vfCqtail => rw [exec_cqtail, throughVf_of_not_enabled _ hb he]
    case vfCplhead => rw [exec_cplhead, throughVf_of_not_enabled _ hb he]
  case commands =>
    refine ⟨fun h => ?post, fun h => ?fence, fun h => ?invalid⟩
    case post =>
      rw [exec_hostPost_of_taken h]
      refine ⟨fun hbusy => ?_, fun r v hidle hrec => ?_, fun c w hidle hrec => ?_⟩
      · rw [unlessBusy_of_busy k i _ hbusy]
      · rw [unlessBusy_of_not_busy k i _ hidle, postCommand_of_record hrec]
      · rw [unlessBusy_of_not_busy k i _ hidle, postCommand_of_rejected hrec]
    case fence =>
      rw [exec_hostFence_of_taken h, unlessBusy_hostComplete]
      cases (u.tenant t).busy <;> rfl
    case invalid => rw [exec_hostCommandInvalid_of_taken h, unlessBusy_hostComplete]
  case aperture =>
    have hwrite : s.apertureShows tenant o l.length := fun x hx => by
      obtain ⟨he, hgap, -⟩ := hs x hx
      exact ⟨he, hgap⟩
    have hread : s.apertureShows tenant o n := fun x hx => by
      obtain ⟨he, -, hgap⟩ := hs x hx
      exact ⟨he, hgap⟩
    refine ⟨exec_hostHbmAccess_write n hb hwrite, fun ho hp => ⟨_, exec_hostHbmAccess_read hb hread ho hp, ?_⟩,
      exec_hostHbmAccess_past_hbm n hb⟩
    rw [State.send, countRead_out]

end Sys2Proof.Machine

/-! PROOF. The matrix registers and the array: how a word of class MX runs and what its operands leave, one lemma per
instruction and outcome, and the array's own work, one lemma per event and outcome (R169 to R208, R398), with the three
obligations on them. -/

namespace Sys2Proof.Machine

/-! ## Checks that pass and checks that stop -/

theorem M.blockIf_pass {b : Bool} (h : b = false) (s : State) : blockIf b s = .ok ((), s) := by
  rw [h, M.blockIf_false]

theorem M.blockIf_stop {b : Bool} (h : b = true) (s : State) : blockIf b s = .error (.block none, s.msys) := by
  rw [h, M.blockIf_true]

theorem M.trapIf_pass {b : Bool} (h : b = false) (c : Nat) (v : Word) (s : State) : trapIf b c v s = .ok ((), s) := by
  rw [h, M.trapIf_false]

theorem M.trapIf_stop {b : Bool} (h : b = true) (c : Nat) (v : Word) (s : State) :
    trapIf b c v s = .error (.trap c v, s.msys) := by
  rw [h, M.trapIf_true]

/-! ## An MX word runs as a scalar instruction (R188, R201, R431) -/

theorem arrayFirst_of_ready {s : State} {cls : Nat} (h : s.arrayFault cls = none ∨ s.seq.handler = true) (keep : Bool)
    (run : State → Host.Outcome State Fault Refusal) : arrayFirst cls keep run s = run s := by
  unfold arrayFirst
  split
  · next t u hf =>
    have hhandler : s.seq.handler = true := h.resolve_left fun hn => by rw [hn] at hf; cases hf
    rw [if_pos (by rw [hhandler, Bool.true_or])]
  · rfl

theorem checked_nil (s : State) : checked s [] = s := rfl

theorem operandsReady_none (s : State) : operandsReady s [] .discard = true := rfl

/-- An instruction that blocks with an effect leaves that effect on the state before it, and waits (R76). -/
theorem scalarOp_blockWith {s : State} {srcs : List Src} {d : Dst} {body : M Unit} {f : State → State}
    {on : Option (Nat × Nat × Nat)} {m : MemSys} (h : operandsReady s srcs d = true)
    (hb : body (checked s srcs) = .error (.blockWith f on, m)) :
    scalarOp srcs d body s = .next (markBlocked on (f (s.keepWait m))) := by
  simp only [scalarOp, runPipe, M.bind_ok (issue_ok h), M.bind_error hb, stopPipe, State.stopped]

section
variable {s t : State} {srcs : List Src} {d : Dst} {body : M Unit} {c : Nat} {v : Word} {m : MemSys}

theorem mxWord_of_ready (hm : mxReady s) : mxWord srcs d body s = scalarOp srcs d body s :=
  arrayFirst_of_ready hm false _

theorem mxWord_ends (hm : mxReady s) (h : operandsReady s srcs d = true) (hb : body (checked s srcs) = .ok ((), t)) :
    mxWord srcs d body s = ends s (lenOf srcs) t := by
  rw [mxWord_of_ready hm, scalarOp_ok h hb]

theorem mxWord_traps (hm : mxReady s) (h : operandsReady s srcs d = true)
    (hb : body (checked s srcs) = .error (.trap c v, m)) : mxWord srcs d body s = traps (s.keep m) c v := by
  rw [mxWord_of_ready hm, scalarOp_trap h hb]

/-- Without operands, nothing is checked before the body. -/
theorem mxWord_bare_ends (hm : mxReady s) (hb : body s = .ok ((), t)) : mxWord [] .discard body s = ends s 4 t :=
  mxWord_ends hm (operandsReady_none s) hb

theorem mxWord_bare_traps (hm : mxReady s) (hb : body s = .error (.trap c v, s.msys)) :
    mxWord [] .discard body s = traps s c v :=
  mxWord_traps hm (operandsReady_none s) hb

theorem mxWord_bare_waits (hm : mxReady s) (hb : body s = .error (.block none, s.msys)) :
    mxWord [] .discard body s = waits s := by
  rw [mxWord_of_ready hm, scalarOp_block (operandsReady_none s) hb]
  rfl

end

/-! ## What an operand leaves of the state -/

theorem readSrc_checked {s : State} {a : Src} {d : Dst} (h : operandsReady s [a] d = true) :
    readSrc a (checked s [a]) = .ok (srcVal s a, srcPop s a) := by
  rw [readSrc_ok (hasEntry_first (ready_poppable h)), srcPop_eq]
  simp only [checked, List.foldl, srcVal_check]

/-- Taking a source changes at most a token queue of the running core. -/
theorem here_srcTake (s : State) (a : Src) : ∃ q, (srcTake s a).here = { s.here with tq := q } := by
  cases a with
  | queue n => exact ⟨_, ctx_modCtx_self s s.cur.core _⟩
  | _ => exact ⟨s.here.tq, rfl⟩

theorem here_srcPop (s : State) (a : Src) : ∃ q, (srcPop s a).here = { s.here with tq := q } := by
  obtain ⟨p, hp⟩ := srcCheck_keep s a
  rw [srcPop_eq, hp]
  exact here_srcTake (s.keep p) a

@[simp] theorem srcPop_mx (s : State) (a : Src) : (srcPop s a).here.mx = s.here.mx := by
  obtain ⟨q, hq⟩ := here_srcPop s a
  rw [hq]

@[simp] theorem srcPop_seq (s : State) (a : Src) : (srcPop s a).seq = s.seq := by
  obtain ⟨q, hq⟩ := here_srcPop s a
  show (srcPop s a).here.seq (srcPop s a).cur.seq = s.here.seq s.cur.seq
  rw [hq, srcPop_cur]
  cases s.cur.seq <;> rfl

@[simp] theorem srcPop_fresh (s : State) (a : Src) : (srcPop s a).fresh = s.fresh := by
  obtain ⟨p, hp⟩ := srcCheck_keep s a
  rw [srcPop_eq, hp]
  cases a <;> rfl

/-! ## The pieces of the bodies -/

/-- The instruction that runs, as the place where a fault of its work is reported. -/
def State.origin (s : State) : Origin := { pc := s.seq.pc, order := s.fresh }

theorem thisOrigin_run (s : State) : thisOrigin s = .ok (s.origin, s) := rfl
theorem thisMx_run (s : State) : thisMx s = .ok (s.here.mx, s) := rfl
theorem thisAgent_run (s : State) : thisAgent s = .ok (s.me, s) := rfl
theorem modMx_run (f : Matrix → Matrix) (s : State) : modMx f s = .ok ((), s.withMx f) := rfl

theorem srcPop_origin (s : State) (a : Src) : (srcPop s a).origin = s.origin := by
  rw [State.origin, srcPop_seq, srcPop_fresh, State.origin]

theorem thisMx_checked (s : State) (l : List Src) : thisMx (checked s l) = .ok (s.here.mx, checked s l) := by
  obtain ⟨p, hp⟩ := checked_keep l s
  rw [hp]
  rfl

theorem loadImage_of_reads {s t : State} {a : Word} {l : List Byte} (h : Reads s s.me .vector a 64 64 l t) :
    loadImage a s = .ok (BitVec.ofNat 512 (ofBytes l), t) := by
  rw [loadImage, M.bind_ok (thisAgent_run s), M.bind_ok h, M.pure_run]

theorem modMx_congr {s : State} {core : Nat} {f g : Matrix → Matrix} (h : f (s.mx core) = g (s.mx core)) :
    s.modMx core f = s.modMx core g := by
  show s.setCtx core { s.ctx core with mx := f (s.mx core) } = s.setCtx core { s.ctx core with mx := g (s.mx core) }
  rw [h]

theorem withMx_congr {s : State} {f g : Matrix → Matrix} (h : f s.here.mx = g s.here.mx) : s.withMx f = s.withMx g :=
  modMx_congr (core := s.cur.core) h

/-- The input queue takes an operation when it has room (R183). -/
theorem queueOp_of_room {s : State} (o : MxOp) (h : s.here.mx.waitingOps < 4) :
    queueOp o s = .ok ((), s.withMx fun m => m.enqueue o) := by
  have hroom : decide (4 ≤ s.here.mx.waitingOps) = false := decide_eq_false (by omega)
  rw [queueOp, M.bind_ok (thisMx_run s), M.bind_ok (M.blockIf_pass hroom s)]
  rfl

/-! ## Images in memory (R174, R184, R196, R197) -/

/-- What MSTRM and MNEST do: they read a 64-byte image at the address in `a`, refuse one that is malformed, and load it. -/
def loadMxImage (a : Src) (malformed : BitVec 512 → Bool) (f : BitVec 512 → Matrix → Matrix) : M Unit := do
  let x ← readSrc a
  let v ← loadImage x
  trapIf (malformed v) Cause.shapeInvalid x
  modMx (f v)

theorem exec_mstrm (k : BitVec 4) (a : Src) (s : State) : exec (.mstrm k a) s =
    mxWord [a] .discard (loadMxImage a streamMalformed fun v m => { m with s := Tab.set 0 m.s k.toNat v }) s := rfl

theorem exec_mnest (a : Src) (s : State) : exec (.mnest a) s =
    mxWord [a] .discard (loadMxImage a tableMalformed fun v m => { m with table := v }) s := rfl

section
variable {s t : State} {a : Src} {l : List Byte} {malformed : BitVec 512 → Bool} {f : BitVec 512 → Matrix → Matrix}
  (ho : operandsReady s [a] .discard = true) (hm : mxReady s)
include ho hm

section
variable (hr : Reads (srcPop s a) (srcPop s a).me .vector (srcVal s a) 64 64 l t)
include hr

theorem loadMxImage_ends (hv : malformed (BitVec.ofNat 512 (ofBytes l)) = false) :
    mxWord [a] .discard (loadMxImage a malformed f) s =
      ends s (lenOf [a]) (t.withMx (f (BitVec.ofNat 512 (ofBytes l)))) := by
  refine mxWord_ends hm ho ?_
  rw [loadMxImage, M.bind_ok (readSrc_checked ho), M.bind_ok (loadImage_of_reads hr), M.bind_ok (M.trapIf_pass hv _ _ _),
    modMx_run]

theorem loadMxImage_traps (hv : malformed (BitVec.ofNat 512 (ofBytes l)) = true) :
    mxWord [a] .discard (loadMxImage a malformed f) s = traps (s.keep t.msys) 0x020 (srcVal s a) := by
  refine mxWord_traps hm ho ?_
  rw [loadMxImage, M.bind_ok (readSrc_checked ho), M.bind_ok (loadImage_of_reads hr),
    M.bind_error (M.trapIf_stop hv _ _ _)]

end

/-- MCBK: a codebook is loaded, once no weight load is under way (R207, R398). -/
theorem exec_mcbk_of_reads (k : BitVec 4) (hl : s.here.mx.loading = false)
    (hr : Reads (srcPop s a) (srcPop s a).me .vector (srcVal s a) 32 32 l t) :
    exec (.mcbk k a) s = ends s (lenOf [a]) (t.modCore t.cur.core fun c =>
      { c with books := Tab.put c.books k.toNat { vals := BitVec.ofNat 256 (ofBytes l), loaded := true } }) := by
  show execMcbk k a s = _
  refine mxWord_ends hm ho ?_
  rw [M.bind_ok (thisMx_checked s [a]), M.bind_ok (M.blockIf_pass hl _), M.bind_ok (readSrc_checked ho),
    M.bind_ok (thisAgent_run _), M.bind_ok hr, M.modS_run]

end

/-! ## Shadow pairings (R191, R204, R205) -/

/-- Whether a bank stands in a pairing, as shadow or as base. -/
def Matrix.paired (m : Matrix) (b : Nat) : Bool := m.pairs.any fun q => q.shadow == b || q.base == b

/-- The pairing of a base bank. -/
def Matrix.pairingOf (m : Matrix) (b : Nat) : Option Pairing := m.pairs.find? fun q => q.base == b

/-- Whether a bank of a pairing is busy with operations other than an MCOMMIT of it. -/
def Matrix.pairBusy (m : Matrix) (p : Pairing) : Bool :=
  { m with commit := none }.busy p.base || { m with commit := none }.busy p.shadow

/-- The matrix state without the pairings of a base bank. -/
def Matrix.unpair (b : Nat) (m : Matrix) : Matrix :=
  { m with pairs := m.pairs.filter fun q => q.base != b, commit := none }

section
variable {s : State} (hm : mxReady s)
include hm

section
variable {h c : BitVec 2}

theorem exec_mspec_of_free (hne : h ≠ c) (hh : s.here.mx.paired h.toNat = false) (hc : s.here.mx.paired c.toNat = false)
    (hb : s.here.mx.busy h.toNat = false) :
    exec (.mspec h c) s = ends s 4 (s.withMx fun m =>
      { m with pairs := m.pairs ++ [{ shadow := h.toNat, base := c.toNat, touched := 0 }] }) := by
  have hpass : (h == c || s.here.mx.paired h.toNat || s.here.mx.paired c.toNat || s.here.mx.busy h.toNat) = false := by
    simp [hne, hh, hc, hb]
  show execMspec h c s = _
  refine mxWord_bare_ends hm ?_
  rw [M.bind_ok (thisMx_run s)]
  exact M.bind_ok (M.trapIf_pass hpass _ _ s)

theorem exec_mspec_of_taken (ht : h = c ∨ s.here.mx.paired h.toNat = true ∨ s.here.mx.paired c.toNat = true ∨
      s.here.mx.busy h.toNat = true) :
    exec (.mspec h c) s = traps s 0x031 (BitVec.ofNat 64 (h.toNat + 4 * c.toNat)) := by
  have hstop : (h == c || s.here.mx.paired h.toNat || s.here.mx.paired c.toNat || s.here.mx.busy h.toNat) = true := by
    simpa [or_assoc] using ht
  show execMspec h c s = _
  refine mxWord_bare_traps hm ?_
  rw [M.bind_ok (thisMx_run s)]
  exact M.bind_error (M.trapIf_stop hstop _ _ s)

end

end

section
variable {s : State} {b : Nat} {p : Pairing}

theorem pairingOf_of_free (hp : s.here.mx.pairingOf b = some p) (hf : s.here.mx.pairBusy p = false) :
    pairingOf b s = .ok (p, s) := by
  rw [Matrix.pairingOf] at hp
  simp only [pairingOf, M.bind_ok (thisMx_run s), hp]
  exact M.bind_ok (M.blockIf_pass hf s)

theorem pairingOf_of_busy (hp : s.here.mx.pairingOf b = some p) (hf : s.here.mx.pairBusy p = true) :
    pairingOf b s = .error (.block none, s.msys) := by
  rw [Matrix.pairingOf] at hp
  simp only [pairingOf, M.bind_ok (thisMx_run s), hp]
  exact M.bind_error (M.blockIf_stop hf s)

theorem pairingOf_of_none (hp : s.here.mx.pairingOf b = none) :
    pairingOf b s = .error (.trap 0x031 (BitVec.ofNat 64 b), s.msys) := by
  rw [Matrix.pairingOf] at hp
  simp only [pairingOf, M.bind_ok (thisMx_run s), hp]
  rfl

end

theorem endPairing_run (b : Nat) (s : State) : endPairing b s = .ok ((), s.withMx (Matrix.unpair b)) := rfl

/-! ### MDISC (R205) -/

section
variable {s : State} {c : BitVec 2} {p : Pairing} (hm : mxReady s)
include hm

theorem exec_mdisc_of_free (hp : s.here.mx.pairingOf c.toNat = some p) (hf : s.here.mx.pairBusy p = false) :
    exec (.mdisc c) s = ends s 4 (s.withMx (Matrix.unpair c.toNat)) := by
  show execMdisc c s = _
  refine mxWord_bare_ends hm ?_
  rw [M.bind_ok (pairingOf_of_free hp hf), endPairing_run]

theorem exec_mdisc_of_busy (hp : s.here.mx.pairingOf c.toNat = some p) (hf : s.here.mx.pairBusy p = true) :
    exec (.mdisc c) s = waits s :=
  mxWord_bare_waits hm (M.bind_error (pairingOf_of_busy hp hf))

theorem exec_mdisc_of_none (hp : s.here.mx.pairingOf c.toNat = none) :
    exec (.mdisc c) s = traps s 0x031 (BitVec.ofNat 64 c.toNat) :=
  mxWord_bare_traps hm (M.bind_error (pairingOf_of_none hp))

end

/-! ### MCOMMIT (R205) -/

/-- A tile is copied, and MCOMMIT goes on with the next one at its next attempt. -/
def commitNext (core b : Nat) (p : Pairing) (t : Nat) (s : State) : State :=
  (commitTile core p t s).modMx core fun m => { m with commit := some (b, t + 1) }

/-- What an attempt of MCOMMIT does with the tiles that are left: it copies the first of them, and the pairing ends with the
last. -/
def copyTiles (ag : Agent) (b : Nat) (p : Pairing) : List Nat → M Unit
  | [] => endPairing b
  | [t] => do
    modS (commitTile ag.core p t)
    endPairing b
  | t :: _ => blockWith (commitNext ag.core b p t)

/-- An attempt of MCOMMIT, where `on` is the tile at which one in progress goes on. -/
def commitBody (b : Nat) (on : Option Nat) : M Unit := do
  let p ← pairingOf b
  let ag ← thisAgent
  if on.isNone then commitChecks ag p else pure ()
  copyTiles ag b p (p.tilesFrom (on.getD 0))

section
variable {s : State} {c : BitVec 2} {p : Pairing}

/-- The checks come before the first tile alone. -/
theorem commitBody_of_free {b : Nat} {on : Option Nat} (hp : s.here.mx.pairingOf b = some p)
    (hf : s.here.mx.pairBusy p = false) (hc : on.isSome = true ∨ commitChecks s.me p s = .ok ((), s)) :
    commitBody b on s = copyTiles s.me b p (p.tilesFrom (on.getD 0)) s := by
  rw [commitBody, M.bind_ok (pairingOf_of_free hp hf), M.bind_ok (thisAgent_run s)]
  cases on with
  | none =>
    have hchecks : commitChecks s.me p s = .ok ((), s) := hc.resolve_left Bool.false_ne_true
    exact M.bind_ok hchecks
  | some k => rfl

/-- A fault of earlier work takes the place of an MCOMMIT that begins, and not of one in progress. -/
theorem exec_mcommit_eq (h : mxReady s ∨ (s.here.mx.commitFrom c.toNat).isSome = true) :
    exec (.mcommit c) s = scalarOp [] .discard (commitBody c.toNat (s.here.mx.commitFrom c.toNat)) s := by
  show (if (s.here.mx.commitFrom c.toNat).isSome = true then id else arrayFirst 4 false)
    (scalarOp [] .discard (commitBody c.toNat (s.here.mx.commitFrom c.toNat))) s = _
  by_cases hon : (s.here.mx.commitFrom c.toNat).isSome = true
  · rw [if_pos hon, id]
  · rw [if_neg hon, arrayFirst_of_ready (h.resolve_right hon)]

theorem exec_mcommit_of_none (hm : mxReady s) (hp : s.here.mx.pairingOf c.toNat = none) :
    exec (.mcommit c) s = traps s 0x031 (BitVec.ofNat 64 c.toNat) := by
  rw [exec_mcommit_eq (.inl hm)]
  exact scalarOp_trap (operandsReady_none s) (M.bind_error (pairingOf_of_none hp))

section
variable (h : mxReady s ∨ (s.here.mx.commitFrom c.toNat).isSome = true) (hp : s.here.mx.pairingOf c.toNat = some p)
include h hp

theorem exec_mcommit_of_busy (hf : s.here.mx.pairBusy p = true) : exec (.mcommit c) s = waits s := by
  rw [exec_mcommit_eq h]
  exact scalarOp_block (operandsReady_none s) (M.bind_error (pairingOf_of_busy hp hf))

section
variable (hf : s.here.mx.pairBusy p = false)
  (hc : (s.here.mx.commitFrom c.toNat).isSome = true ∨ commitChecks s.me p s = .ok ((), s))
include hf hc

/-- No tile, or one, is left: MCOMMIT ends, and the pairing with it. -/
theorem exec_mcommit_ends {l : List Nat} {u : State} (hl : p.tilesFrom ((s.here.mx.commitFrom c.toNat).getD 0) = l)
    (hu : copyTiles s.me c.toNat p l s = .ok ((), u)) : exec (.mcommit c) s = ends s 4 u := by
  rw [exec_mcommit_eq h]
  exact scalarOp_ok (operandsReady_none s) ((commitBody_of_free hp hf hc).trans (by rw [hl, hu]))

/-- More tiles are left: MCOMMIT has copied one, and counts as not begun. -/
theorem exec_mcommit_goes_on {t : Nat} {l : List Nat}
    (ht : p.tilesFrom ((s.here.mx.commitFrom c.toNat).getD 0) = t :: l) (hl : l ≠ []) :
    exec (.mcommit c) s = .next (markBlocked none (commitNext s.cur.core c.toNat p t s)) := by
  obtain ⟨t2, l2, rfl⟩ := List.exists_cons_of_ne_nil hl
  have hstop : commitBody c.toNat (s.here.mx.commitFrom c.toNat) s =
      .error (.blockWith (commitNext s.cur.core c.toNat p t) none, s.msys) := by
    rw [commitBody_of_free hp hf hc, ht]
    rfl
  rw [exec_mcommit_eq h]
  exact scalarOp_blockWith (operandsReady_none s) hstop

end

end

end

/-! ## Broadcast groups and status (R193, R194, R206, R208) -/

/-- What MSTAT answers: the status word, the steps of the latest nest, or the deliveries since the join. -/
def Matrix.status (m : Matrix) : MstatWord → Word
  | .word => BitVec.ofNat 64 (mstatWord m)
  | .steps => m.steps
  | .bcast => match m.group with
    | some (_, i) => BitVec.ofNat 64 i
    | none => 0

section
variable {s : State} (hm : mxReady s)
include hm

theorem exec_mbgj_of_joined (g : BitVec 2) (h : s.here.mx.group ≠ none) : exec (.mbgj g) s = traps s 0x031 0 := by
  have hjoined : s.here.mx.group.isSome = true := Option.isSome_iff_ne_none.2 h
  show execMbgj g s = _
  refine mxWord_bare_traps hm ?_
  rw [M.bind_ok (thisMx_run s)]
  exact M.bind_error (M.trapIf_stop hjoined _ _ s)

theorem exec_mbgj_of_free {g : BitVec 2} (h : s.here.mx.group = none)
    (hb : groupBusy s (groveOf s.cur.core) g.toNat = false) :
    exec (.mbgj g) s = ends s 4 (s.withMx fun m => { m with group := some (g.toNat, 0) }) := by
  have hjoined : s.here.mx.group.isSome = false := by rw [h]; rfl
  show execMbgj g s = _
  refine mxWord_bare_ends hm ?_
  rw [M.bind_ok (thisMx_run s), M.bind_ok (M.trapIf_pass hjoined _ _ s), M.bind_ok (M.gets_run _ s),
    M.bind_ok (M.blockIf_pass hb s), modMx_run]

theorem exec_mbgl_of_none (h : s.here.mx.group = none) : exec .mbgl s = ends s 4 s := by
  show execMbgl s = _
  refine mxWord_bare_ends hm ?_
  simp only [M.bind_ok (thisMx_run s), h]
  rfl

theorem exec_mbgl_of_free {i n : Nat} (h : s.here.mx.group = some (i, n))
    (hb : groupBusy s (groveOf s.cur.core) i = false) :
    exec .mbgl s = ends s 4 (s.withMx fun m => { m with group := none }) := by
  show execMbgl s = _
  refine mxWord_bare_ends hm ?_
  simp only [M.bind_ok (thisMx_run s), h]
  rw [M.bind_ok (M.gets_run _ s), M.bind_ok (M.blockIf_pass hb s), modMx_run]

/-- MSTAT samples what it names; in deterministic mode once the array is idle (R208). -/
theorem exec_mstat_of_idle {d : Dst} (f : MstatWord) (ho : operandsReady s [] d = true)
    (hi : s.seq.detm = false ∨ s.here.mx.idle = true) :
    exec (.mstat d f) s = ends s 4 (dstPut d (s.here.mx.status f) s) := by
  have hpass : (s.seq.detm && !s.here.mx.idle) = false := by
    rcases hi with h | h <;> simp [h]
  show execMstat d f s = _
  refine mxWord_ends hm ho ?_
  rw [M.bind_ok (thisMx_checked s []), checked_nil, M.bind_ok (M.gets_run _ s), M.bind_ok (M.blockIf_pass hpass s)]
  exact writeDst_ok d (s.here.mx.status f) s

end

/-- Settles O28: each instruction by the lemma on its outcome. -/
theorem matrixRegistersAndGroups : Obligations.MatrixRegistersAndGroups := by
  unfold Obligations.MatrixRegistersAndGroups
  refine ⟨fun s k a l t ho hm => ⟨fun hr => ⟨?strm, ?strmMalformed, ?nest, ?nestMalformed⟩, ?codebook⟩,
    fun s d h c g p f => ⟨fun hm => exec_mspec_of_free hm, fun hm => exec_mspec_of_taken hm, fun hp => ?paired,
      fun hm hp => ⟨exec_mdisc_of_none hm hp, exec_mcommit_of_none hm hp⟩, fun hm => exec_mbgj_of_free hm,
      fun hm => exec_mbgj_of_joined hm g, fun hm => exec_mbgl_of_none hm, fun i n hm => exec_mbgl_of_free hm,
      fun hm => exec_mstat_of_idle hm f⟩⟩
  case strm => exact fun hv => (exec_mstrm k a s).trans (loadMxImage_ends ho hm hr hv)
  case strmMalformed => exact fun hv => (exec_mstrm k a s).trans (loadMxImage_traps ho hm hr hv)
  case nest => exact fun hv => (exec_mnest a s).trans (loadMxImage_ends ho hm hr hv)
  case nestMalformed => exact fun hv => (exec_mnest a s).trans (loadMxImage_traps ho hm hr hv)
  case codebook => exact exec_mcbk_of_reads ho hm k
  case paired =>
    have hbusy {b : Bool} (h : (!s.here.mx.pairBusy p) = b) : s.here.mx.pairBusy p = !b := by rw [← h, Bool.not_not]
    refine ⟨fun hm hfree => exec_mdisc_of_free hm hp (hbusy hfree), fun hm hfree => exec_mdisc_of_busy hm hp (hbusy hfree),
      fun h => ⟨fun hfree => exec_mcommit_of_busy h hp (hbusy hfree), fun hfree hc =>
        ⟨fun hl => ?noTile, fun t hl => ?lastTile, fun t l hl hmore => ?moreTiles⟩⟩⟩
    case noTile => exact exec_mcommit_ends h hp (hbusy hfree) hc hl rfl
    case lastTile => exact exec_mcommit_ends h hp (hbusy hfree) hc hl rfl
    case moreTiles => exact exec_mcommit_goes_on h hp (hbusy hfree) hc hl hmore

/-! ## MGO and MWAIT (R187, R198, R199) -/

/-- The matrix state once MGO has made the table and the streams that it names the active nest. -/
def Matrix.startNest (pc : Origin) (m : Matrix) : Matrix :=
  { m with
    nest := some { table := m.table, sa := Tab.get 0 m.s (ntSa m.table), sb := Tab.get 0 m.s (ntSb m.table),
                   step := 0, id := m.nestId + 1, pc := pc, shadow := m.shadowOf (nestAcc m.table), next := none,
                   last := none, wants := false }
    nestId := m.nestId + 1, steps := 0 }

/-- MGO waits neither for an active nest nor for two that drain. -/
theorem mgo_not_held {m : Matrix} (hn : m.nest = none) (hd : m.draining < 2) :
    (m.nest.isSome || decide (2 ≤ m.draining)) = false := by
  simp [hn, hd]

theorem idle_iff (m : Matrix) : m.idle = true ↔ m.nest = none ∧ m.queue = [] ∧ m.behind = [] := by
  simp [Matrix.idle, and_assoc]

section
variable {s : State} (hm : mxReady s)
include hm

section
variable (hn : s.here.mx.nest = none) (hd : s.here.mx.draining < 2)
include hn hd

theorem exec_mgo_of_passed (hc : mgoCheck s.here.mx = none) :
    exec .mgo s = ends s 4 (s.withMx (Matrix.startNest s.origin)) := by
  show execMgo s = _
  refine mxWord_bare_ends hm ?_
  simp only [M.bind_ok (thisMx_run s), M.bind_ok (M.blockIf_pass (mgo_not_held hn hd) s),
    M.bind_ok (thisOrigin_run s), hc]
  exact modMx_run _ s

theorem exec_mgo_of_failed {c : Nat} (hc : mgoCheck s.here.mx = some c) : exec .mgo s = traps s c s.seq.pc := by
  show execMgo s = _
  refine mxWord_bare_traps hm ?_
  simp only [M.bind_ok (thisMx_run s), M.bind_ok (M.blockIf_pass (mgo_not_held hn hd) s),
    M.bind_ok (thisOrigin_run s), hc]
  exact M.trap_run _ _ s

end

theorem exec_mgo_of_full (h : s.here.mx.nest ≠ none ∨ 2 ≤ s.here.mx.draining) : exec .mgo s = waits s := by
  have hfull : (s.here.mx.nest.isSome || decide (2 ≤ s.here.mx.draining)) = true := by
    simpa [Option.isSome_iff_ne_none] using h
  show execMgo s = _
  refine mxWord_bare_waits hm ?_
  rw [M.bind_ok (thisMx_run s)]
  exact M.bind_error (M.blockIf_stop hfull s)

theorem exec_mwait_of_idle (h : s.here.mx.idle = true) : exec .mwait s = ends s 4 s := by
  show execMwait s = _
  refine mxWord_bare_ends hm ?_
  rw [M.bind_ok (thisMx_run s)]
  exact M.blockIf_pass (by rw [h]; rfl) s

theorem exec_mwait_of_not_idle (h : s.here.mx.idle = false) : exec .mwait s = waits s := by
  show execMwait s = _
  refine mxWord_bare_waits hm ?_
  rw [M.bind_ok (thisMx_run s)]
  exact M.blockIf_stop (by rw [h]; rfl) s

/-! ## Operations that enter the input queue (R183, R200 to R203) -/

section
variable {b : Src} {k : BitVec 4} {x : StreamReg} (ho : operandsReady s [b] .discard = true)
  (hx : Tab.get 0 s.here.mx.s k.toNat = x)
include ho hx

/-- MMA whose checks pass enters the queue (R200). -/
theorem exec_mma_of_passed {n : BitVec 2} {mode : AccMode} {tag : WTag} (tl : BitVec 4) (z : Bool)
    (ht : s.here.mx.tag s.here.mx.selP = tag) (hn : s.here.mx.nest = none) (hrole : stRole x = false)
    (hsh : s.here.mx.isShadow n.toNat = false) (hl : tag.loaded = true)
    (hrow : mxRow tag.fmt (stFmt x) mode (stScl x || tag.scaled) = true) (hroom : s.here.mx.waitingOps < 4) :
    exec (.mma n tl k b z mode) s = ends s (lenOf [b]) ((srcPop s b).withMx fun m => m.enqueue
      (.mma x (fld (srcVal s b) 0 16) (fld (srcVal s b) 16 16) mode z n.toNat (m.shadowOf n.toNat) tl.toNat s.origin)) := by
  subst hx ht
  have hissues : s.here.mx.nest.isSome = false := by rw [hn]; rfl
  show execMma n tl k b z mode s = _
  refine mxWord_ends hm ho ?_
  rw [M.bind_ok (thisMx_checked s [b]), M.bind_ok (M.blockIf_pass hissues _), M.bind_ok (readSrc_checked ho),
    M.bind_ok (M.trapIf_pass hrole _ _ _), M.bind_ok (M.trapIf_pass hsh _ _ _),
    M.bind_ok (M.trapIf_pass (by rw [hl]; rfl) _ _ _), M.bind_ok (M.trapIf_pass (by rw [hrow]; rfl) _ _ _),
    M.bind_ok (thisOrigin_run _), srcPop_origin, queueOp_of_room _ (by rwa [srcPop_mx])]
  exact congrArg (fun u => Except.ok ((), u)) (withMx_congr (by rw [srcPop_mx]))

/-- MLDW of a weight stream enters the queue, and outside a nest gives the bank its tag (R201). -/
theorem exec_mldw_of_weights (j : BitVec 1) (hrole : stRole x = true) (hroom : s.here.mx.waitingOps < 4) :
    exec (.mldw j k b) s = ends s (lenOf [b]) (((srcPop s b).withMx fun m => m.enqueue
      (.load j.toNat x (fld (srcVal s b) 0 16) (fld (srcVal s b) 16 16) s.origin)).withMx fun m =>
        if m.nest.isSome then m
        else m.setTag j.toNat { fmt := stFmt x, scaled := stScl x, loaded := true }) := by
  subst hx
  show execMldw j k b s = _
  refine mxWord_ends hm ho ?_
  rw [M.bind_ok (thisMx_checked s [b]), M.bind_ok (readSrc_checked ho),
    M.bind_ok (M.trapIf_pass (by rw [hrole]; rfl) _ _ _), M.bind_ok (thisOrigin_run _), srcPop_origin,
    M.bind_ok (queueOp_of_room _ (by rwa [srcPop_mx])), modMx_run]

theorem exec_mldw_of_activations (j : BitVec 1) (hrole : stRole x = false) :
    exec (.mldw j k b) s = traps (s.after [b]) 0x020 0 := by
  subst hx
  show execMldw j k b s = _
  refine mxWord_traps hm ho ?_
  rw [M.bind_ok (thisMx_checked s [b]), M.bind_ok (readSrc_checked ho),
    M.bind_error (M.trapIf_stop (by rw [hrole]; rfl) _ _ _)]
  rfl

end

theorem exec_mwsel_of_room (j : BitVec 1) (hroom : s.here.mx.waitingOps < 4) :
    exec (.mwsel j) s = ends s 4 ((s.withMx fun m => m.enqueue (.sel j.toNat)).withMx fun m =>
      if m.nest.isSome then m else { m with selP := j.toNat }) := by
  show execMwsel j s = _
  refine mxWord_bare_ends hm ?_
  rw [M.bind_ok (queueOp_of_room _ hroom), modMx_run]

section
variable {n : BitVec 2} (tl : BitVec 4) (f : Bool)

/-- MZERO enters the queue, with the bank that a pairing redirects it to (R203). -/
theorem exec_mzero_of_room (hsh : s.here.mx.isShadow n.toNat = false) (hroom : s.here.mx.waitingOps < 4)
    (ha : accFootprint s.me ((s.here.mx.shadowOf n.toNat).getD n.toNat) (32 * if f then 0 else tl.toNat)
      (32 * ((if f then 15 else tl.toNat) + 1 - if f then 0 else tl.toNat)) true s = .ok ((), s)) :
    exec (.mzero n tl f) s = ends s 4 (s.withMx fun m => m.enqueue
      (.zero n.toNat (s.here.mx.shadowOf n.toNat) (if f then 0 else tl.toNat) (if f then 15 else tl.toNat)
        (32 * if f then 0 else tl.toNat))) := by
  show execMzero n tl f s = _
  refine mxWord_bare_ends hm ?_
  rw [M.bind_ok (thisMx_run s), M.bind_ok (M.trapIf_pass hsh _ _ s), M.bind_ok (thisAgent_run s), M.bind_ok ha]
  exact queueOp_of_room _ hroom

theorem exec_mzero_of_shadow (hsh : s.here.mx.isShadow n.toNat = true) : exec (.mzero n tl f) s = traps s 0x031 0 := by
  show execMzero n tl f s = _
  refine mxWord_bare_traps hm ?_
  rw [M.bind_ok (thisMx_run s)]
  exact M.bind_error (M.trapIf_stop hsh _ _ s)

end

end

/-- Settles O29: each instruction by the lemma on its outcome. -/
theorem matrixWork : Obligations.MatrixWork := by
  unfold Obligations.MatrixWork
  refine fun s n tl k j b z f mode hm => ⟨exec_mgo_of_passed hm, fun c hn hd => exec_mgo_of_failed hm hn hd,
    exec_mgo_of_full hm, fun hn hq hb => exec_mwait_of_idle hm ((idle_iff _).2 ⟨hn, hq, hb⟩), fun h => ?busy,
    fun ho => ⟨exec_mma_of_passed hm ho rfl tl z rfl, exec_mldw_of_weights hm ho rfl j,
      exec_mldw_of_activations hm ho rfl j⟩,
    exec_mwsel_of_room hm j, exec_mzero_of_room hm tl f, exec_mzero_of_shadow hm tl f⟩
  case busy =>
    refine exec_mwait_of_not_idle hm (Bool.eq_false_iff.2 fun hidle => ?_)
    obtain ⟨hn, hq, hb⟩ := (idle_iff _).1 hidle
    exact h.elim (· hn) fun h => h.elim (· hq) (· hb)

/-! ## Operations that need no cycle of their own (R183, R186) -/

section
variable {core : Nat} {s : State}

theorem settle_of_rest_nil (n : Nat) (h : (s.mx core).rest = []) : settle core n s = s := by
  cases n with
  | zero => rfl
  | succ n => rw [settle, h]

theorem settle_of_rest_load {b ti tj : Nat} {x : BitVec 512} {pc : Origin} {q : List MxOp} (n : Nat)
    (h : (s.mx core).rest = .load b x ti tj pc :: q) : settle core n s = s := by
  cases n with
  | zero => rfl
  | succ n => rw [settle, h]

end

theorem dropWhile_isStep : ∀ {l : List MxOp}, (∀ o ∈ l, o.isStep = true) → l.dropWhile MxOp.isStep = []
  | [], _ => rfl
  | o :: l, h => by
    obtain ⟨ho, hl⟩ := List.forall_mem_cons.1 h
    rw [List.dropWhile_cons_of_pos ho, dropWhile_isStep hl]

/-- Nothing stands behind the steps of a queue that holds steps alone. -/
theorem rest_of_steps {m : Matrix} (h : ∀ o ∈ m.queue, o.isStep = true) : m.rest = [] := dropWhile_isStep h

theorem rest_of_load {m : Matrix} {b ti tj : Nat} {x : BitVec 512} {pc : Origin} {q : List MxOp}
    (h : m.queue = .load b x ti tj pc :: q) : m.rest = .load b x ti tj pc :: q := by
  rw [Matrix.rest, h]
  rfl

theorem rest_of_empty {m : Matrix} (h : m.queue = []) : m.rest = [] := by
  rw [Matrix.rest, h]
  rfl

theorem steps_of_empty {m : Matrix} (h : m.queue = []) : m.steps' = [] := by
  rw [Matrix.steps', h]
  rfl

/-! ## The events of the array -/

section
variable {s t : State} {core : Nat}

/-- BANK_LOAD: the oldest operation is a load, whose tile can be read (R179). -/
theorem exec_bankLoad_of_read {b ti tj : Nat} {x : BitVec 512} {pc : Origin} {q : List MxOp} {w : WBank}
    (hq : (s.mx core).queue = .load b x ti tj pc :: q)
    (hr : attempt (s.mxAgent core) (readBTile (s.mxAgent core) (s.core core).books x ti tj) s = .done w t) :
    exec (.bankLoad core) s = .next (t.modMx core fun k => { k.setBank b w with queue := k.steps' ++ q }) := by
  have hrest := rest_of_load hq
  show execBankLoad core s = _
  simp only [execBankLoad, settle_of_rest_load 16 hrest, hrest, hr]

section
variable {st : TileStep} {q : List MxOp} (hq : (s.mx core).queue = .step st :: q) (hs : ∀ o ∈ q, o.isStep = true)
include hq hs

theorem settle_of_steps : settle core 16 s = s :=
  settle_of_rest_nil 16 <| rest_of_steps <| by
    rw [hq]
    exact List.forall_mem_cons.2 ⟨rfl, hs⟩

/-- ACCUMULATOR_ROW_COMMIT of a row that is not the last of its tile (R182). -/
theorem exec_rowCommit_of_row (hr : st.row < 31) :
    exec (.accumulatorRowCommit core) s = .next
      ((writeAccRow core st.wr (32 * st.tile + st.row)
        (st.rowValue (s.accRow core st.rd (32 * st.tile + st.row))) s).modMx core
          fun k => { k with queue := .step { st with row := st.row + 1 } :: q }) := by
  show execAccumulatorRowCommit core s = _
  simp only [execAccumulatorRowCommit, settle_of_steps hq hs, hq, if_neg (show st.row ≠ 31 by omega)]

/-- ACCUMULATOR_ROW_COMMIT of the last row: the tile step is counted, and leaves the array (R182, R208, R426). -/
theorem exec_rowCommit_of_last_row (hr : st.row = 31) :
    exec (.accumulatorRowCommit core) s = .next (settle core 16 ((count core 0x04 1
      (writeAccRow core st.wr (32 * st.tile + st.row)
        (st.rowValue (s.accRow core st.rd (32 * st.tile + st.row))) s)).modMx core
          fun k => { k with queue := q, steps := if st.nest = some k.nestId then k.steps + 1 else k.steps })) := by
  show execAccumulatorRowCommit core s = _
  simp only [execAccumulatorRowCommit, settle_of_steps hq hs, hq, if_pos hr]

end

theorem settle_of_no_queue (hq : (s.mx core).queue = []) : settle core 16 s = s :=
  settle_of_rest_nil 16 (rest_of_empty hq)

section
variable {n : Nest} (hn : (s.mx core).nest = some n) (hq : (s.mx core).queue = [])
include hn hq

/-- NEST_STEP: a fault that was kept ends the nest, once no step before it is in the array (R188). -/
theorem exec_nestStep_of_fault {c : Nat} (hf : n.fault = some c) :
    exec (.nestStep core) s = .next (s.modMx core fun k =>
      { k.endNest with fault := k.fault ++ [mxFault c n.pc (BitVec.ofNat 64 n.step)] }) := by
  show execNestStep core s = _
  simp only [execNestStep, settle_of_no_queue hq, hn, hf, nestFault]
  exact congrArg _ (modMx_congr (if_pos (by rw [hq]; rfl)))

section
variable (hf : n.fault = none) (hp : (s.grove (groveOf core)).preempting = false)
include hf hp

/-- NEST_STEP: the next step enters with the tile that the nest has (R185). -/
theorem exec_nestStep_of_tile (hb : n.last = some n.bTile ∨ n.next.isSome = true) :
    exec (.nestStep core) s = .next (nestEnter core n s) := by
  show execNestStep core s = _
  simp [execNestStep, settle_of_no_queue hq, hn, hf, hp, rest_of_empty hq, steps_of_empty hq, hb]

/-- NEST_STEP: without the tile of its next step, a nest whose tiles are broadcast asks for a delivery (R193). -/
theorem exec_nestStep_of_broadcast (hl : n.last ≠ some n.bTile) (hx : n.next = none) (hb : ntBc n.table = true) :
    exec (.nestStep core) s = .next (s.modMx core fun k =>
      { k with nest := k.nest.map fun z => { z with wants := true } }) := by
  show execNestStep core s = _
  simp [execNestStep, settle_of_no_queue hq, hn, hf, hp, rest_of_empty hq, steps_of_empty hq, hl, hx, hb]

end

end

/-- The step that enters is counted off; after its last the nest has no steps left (R185). -/
theorem nestEnter_of_entered {n : Nest} {st : TileStep}
    (h : attempt (s.mxAgent core) (enterStep (s.mxAgent core) n.sa (ntCoord n.table (ntOrigin n.table 0) 0 n.step)
      (ntCoord n.table (ntOrigin n.table 1) 1 n.step) (ntMode n.table) (ntZero n.table n.step) (nestAcc n.table)
      n.shadow (ntCoord n.table (ntTile0 n.table) 4 n.step).toNat (some n.id)) (s.modMx core fun k => k.takeNext n)
        = .done st t) :
    nestEnter core n s = t.modMx core fun k =>
      let k1 := k.addStep n.shadow st k.rest
      if n.step + 1 = ntTotal n.table then k1.endNest
      else { k1 with nest := k1.nest.map fun z => { z with step := n.step + 1 } } := by
  simp only [nestEnter, h]

/-- BROADCAST_DELIVERY: every member waits for it, and the source can read the tile (R193). -/
theorem exec_broadcastDelivery_of_read {grove g src : Nat} {rest : List Nat} {n : Nest} {w : WBank}
    (hc : groupCores s grove g = src :: rest)
    (hw : ∀ c ∈ src :: rest, ∃ z, (s.mx c).nest = some z ∧ z.wants = true) (hn : (s.mx src).nest = some n)
    (hr : attempt (s.mxAgent src) (readBTile (s.mxAgent src) (s.core src).books n.sb n.bTile.1 n.bTile.2) s = .done w t) :
    exec (.broadcastDelivery grove g) s = .next
      (((src :: rest).foldl (fun u c => u.modMx c fun k =>
          { k.nestLoaded w with group := k.group.map fun q => (q.1, q.2 + 1) }) t).modGrove grove
        fun k => { k with groups := Tab.put k.groups g (Tab.get 0 k.groups g + 1) }) := by
  show execBroadcastDelivery grove g s = _
  simp only [execBroadcastDelivery, hc, hn, hr]
  refine congrArg Host.Outcome.next (if_neg ?_)
  rw [Bool.not_eq_true', Bool.not_eq_false, List.all_eq_true]
  intro c hmem
  obtain ⟨z, hz, hwants⟩ := hw c hmem
  rw [hz]
  exact hwants

end

/-- Settles O30: each event of the array by the lemma on its outcome. -/
theorem matrixArrayEvents : Obligations.MatrixArrayEvents := by
  unfold Obligations.MatrixArrayEvents
  refine fun s core => ⟨fun b x ti tj pc q w t => exec_bankLoad_of_read, fun st q => exec_rowCommit_of_row,
    fun st q => exec_rowCommit_of_last_row, fun n c hn hf hq => exec_nestStep_of_fault hn hq hf,
    fun n hn hf hq hp => ⟨fun st t hb he => ?enters, exec_nestStep_of_broadcast hn hq hf hp⟩,
    fun grove g src rest n w t => exec_broadcastDelivery_of_read⟩
  case enters => rw [exec_nestStep_of_tile hn hq hf hp hb, nestEnter_of_entered he]

end Sys2Proof.Machine

/-! PROOF. The rotation unit: how a word of class RT runs and what its operands and its reads of memory leave, one lemma per
instruction and outcome, and the commits and overflows of the array (R210 to R238, R426), with the two obligations on them. -/

namespace Sys2Proof.Machine

/-! ## Reads of memory leave the running instruction where it is -/

theorem ite_origin {p : Prop} [Decidable p] {s t u : State} (ht : t.origin = s.origin) (hu : u.origin = s.origin) :
    (if p then t else u).origin = s.origin := by
  split
  · exact ht
  · exact hu

theorem foldl_origin {α : Type} {f : State → α → State} (hf : ∀ s a, (f s a).origin = s.origin) (l : List α) (s : State) :
    (l.foldl f s).origin = s.origin :=
  List.foldlRecOn l f (motive := fun t => t.origin = s.origin) rfl fun t ht a _ => (hf t a).trans ht

@[simp] theorem setPerf_origin (s : State) (k : Nat) (v : Word) : (s.setPerf k v).origin = s.origin :=
  ite_origin rfl (ite_origin rfl rfl)

@[simp] theorem count_origin (c n b : Nat) (s : State) : (count c n b s).origin = s.origin := setPerf_origin _ _ _

@[simp] theorem countFixed_origin (pa k : Nat) (s : State) : (countFixed pa k s).origin = s.origin :=
  ite_origin (count_origin _ _ _ _) rfl

@[simp] theorem keep_origin (s : State) (m : MemSys) : (s.keep m).origin = s.origin := rfl

@[simp] theorem touchMetas_origin (a n : Nat) (s : State) : (touchMetas a n s).origin = s.origin :=
  (keep_origin _ _).trans (count_origin _ _ _ _)

@[simp] theorem countHbm_origin (a n : Nat) (s : State) : (countHbm a n s).origin = s.origin := by
  unfold countHbm
  split
  · rfl
  · simp only [touchMetas_origin, count_origin]

@[simp] theorem countRead_origin (p : Place) (n : Nat) (s : State) : (countRead p n s).origin = s.origin := by
  unfold countRead
  split
  · rfl
  · simp only [countHbm_origin, countFixed_origin]

@[simp] theorem hostWrite_origin : ∀ (l : List Byte) (a : Nat) (s : State), (s.hostWrite a l).origin = s.origin
  | [], _, _ => rfl
  | _ :: l, a, _ => hostWrite_origin l (a + 1) _

@[simp] theorem send_origin (s : State) (m : OutMsg) : (s.send m).origin = s.origin := rfl

@[simp] theorem setPage_origin (s : State) (t : Nat) (p : TenantPage) : (s.setPage t p).origin = s.origin := rfl

@[simp] theorem mgmtEvent_origin (e : Event) (s : State) : (mgmtEvent e s).origin = s.origin := rfl

@[simp] theorem signalVector_origin (t v : Nat) (s : State) : (signalVector t v s).origin = s.origin :=
  ite_origin (send_origin _ _) (setPage_origin _ _ _)

@[simp] theorem event_origin (c r k o : Nat) (v : Word) (s : State) : (event c r k o v s).origin = s.origin := by
  unfold event
  dsimp only
  split
  · exact mgmtEvent_origin _ _
  · split
    · exact mgmtEvent_origin _ _
    · split
      · exact setPage_origin _ _ _
      · rw [signalVector_origin, setPage_origin, hostWrite_origin]

@[simp] theorem modRcb_origin (s : State) (r : Nat) (f : Rcb → Rcb) : (s.modRcb r f).origin = s.origin := by
  unfold State.modRcb
  split <;> rfl

/-- A change to the sequencers of every core that leaves their program counters alone. -/
theorem mapCores_origin {s : State} {f : Nat → Core → Core} (h0 : ∀ c, f c Core.reset = Core.reset)
    (hpc : ∀ c k i, ((f c k).ctx.seq i).pc = (k.ctx.seq i).pc) :
    State.origin { s with cores := Tab.mapVals f s.cores } = s.origin := by
  have hcore : Tab.get Core.reset (Tab.mapVals f s.cores) s.cur.core = f s.cur.core (s.core s.cur.core) :=
    Tab.get_mapVals _ _ f s.cores _ (h0 _)
  simp only [State.origin, State.seq, State.seqOf, State.ctx, State.core, hcore, hpc]

/-- A fence stops sequencers, and leaves each at its instruction (R433). -/
@[simp] theorem fenceOne_origin (r : Nat) (s : State) : (fenceOne r s).origin = s.origin := by
  unfold fenceOne
  split
  · rfl
  · refine (mapCores_origin (fun c => rfl) fun c k i => ?_).trans (modRcb_origin _ _ _)
    cases i <;> dsimp only [Context.seq] <;> split <;> rfl

@[simp] theorem machineCheckWord_origin (o a : Nat) (l : List Nat) (s : State) :
    (machineCheckWord o a l s).origin = s.origin := rfl

/-- A word in error is marked and reported, and at most its owner is fenced (R249, R435, R436). -/
@[simp] theorem detectWord_origin (c o : Nat) (s : State) (w : Nat) : (detectWord c o s w).origin = s.origin := by
  unfold detectWord
  refine ite_origin rfl ?_
  dsimp only
  split
  · rw [machineCheckWord_origin]
    exact ite_origin (count_origin _ _ _ _) rfl
  · rw [fenceOne_origin, event_origin]
    exact ite_origin (count_origin _ _ _ _) rfl

@[simp] theorem tlbInstall_origin (g n a lg : Nat) (e : Word) (s : State) : (tlbInstall g n a lg e s).origin = s.origin := by
  unfold tlbInstall
  exact keep_origin _ _

@[simp] theorem countWalk_origin (g n a : Nat) (s : State) : (countWalk g n a s).origin = s.origin :=
  (count_origin _ _ _ _).trans (foldl_origin (fun _ _ => countHbm_origin _ _ _) _ _)

@[simp] theorem finishWalk_origin (g n a : Nat) (l : List Nat) (w : Option Who) (s : State) :
    (finishWalk g n a l w s).origin = s.origin := by
  unfold finishWalk
  dsimp only
  split
  · exact (foldl_origin (fun _ _ => detectWord_origin _ _ _ _) _ _).trans
      ((keep_origin _ _).trans (countWalk_origin _ _ _ _))
  · exact (foldl_origin (fun _ _ => tlbInstall_origin _ _ _ _ _ _) _ _).trans
      ((keep_origin _ _).trans (countWalk_origin _ _ _ _))

@[simp] theorem tlbFill_origin (ag : Agent) (a : Nat) (s : State) : (tlbFill ag a s).origin = s.origin :=
  ite_origin (countWalk_origin _ _ _ _)
    (ite_origin ((finishWalk_origin _ _ _ _ _ _).trans (ite_origin rfl (count_origin _ _ _ _))) rfl)

/-- A part of a meaning that, where it ends, leaves the running instruction where it is. -/
def KeepsOrigin {α : Type} (m : M α) : Prop := ∀ s a t, m s = .ok (a, t) → t.origin = s.origin

theorem KeepsOrigin.bind {α β : Type} {m : M α} {f : α → M β} (h : KeepsOrigin m) (g : ∀ a, KeepsOrigin (f a)) :
    KeepsOrigin (m >>= f) := fun s b u hb => by
  obtain ⟨a, t, hm, hf⟩ := M.bind_inv hb
  exact (g a t b u hf).trans (h s a t hm)

theorem KeepsOrigin.pure {α : Type} (a : α) : KeepsOrigin (pure a : M α) := fun s b t h => by cases h; rfl
theorem KeepsOrigin.gets {α : Type} (f : State → α) : KeepsOrigin (gets' f) := fun s b t h => by cases h; rfl
theorem KeepsOrigin.trap {α : Type} (c : Nat) (v : Word) : KeepsOrigin (trap c v : M α) := fun s b t h => by cases h

theorem KeepsOrigin.blockIf (b : Bool) : KeepsOrigin (blockIf b) := fun s a t h => by
  cases b with
  | false => cases h; rfl
  | true => cases h

theorem failM_ne_ok {α : Type} {f : Fail} {s t : State} {a : α} : failM f s ≠ .ok (a, t) := by
  unfold failM
  split <;> exact fun h => nomatch h

theorem KeepsOrigin.mapM {α β : Type} {f : α → M β} (hf : ∀ a, KeepsOrigin (f a)) : ∀ l : List α, KeepsOrigin (l.mapM f)
  | [] => by
    rw [List.mapM_nil]
    exact .pure _
  | a :: l => by
    rw [List.mapM_cons]
    exact .bind (hf a) fun _ => .bind (KeepsOrigin.mapM hf l) fun _ => .pure _

/-- An admitted access has translated its address, and no more (R275). -/
theorem KeepsOrigin.access (ag : Agent) (via : Via) (rw_ : Rw) (a : Word) (n al : Nat) :
    KeepsOrigin (access ag via rw_ a n al) := fun s p t h => by
  unfold Machine.access at h
  split at h
  · cases h
  · dsimp only at h
    split at h
    · exact absurd h failM_ne_ok
    · cases h
      exact ite_origin (tlbFill_origin _ _ _) rfl

theorem KeepsOrigin.waitPlace (ag : Agent) (p : Place) (n : Nat) : KeepsOrigin (waitPlace ag p n) :=
  .bind (.gets _) fun _ => .blockIf _

theorem KeepsOrigin.readPlace (ag : Agent) (p : Place) (n : Nat) : KeepsOrigin (readPlace ag p n) := fun s l t h => by
  unfold Machine.readPlace at h
  split at h
  · cases h
    rfl
  · split at h
    · cases h
      exact ite_origin (modRcb_origin _ _ _) rfl
    · split at h
      · exact absurd h failM_ne_ok
      · cases h
        exact countRead_origin _ _ _

theorem KeepsOrigin.load (ag : Agent) (via : Via) (a : Word) (n al : Nat) : KeepsOrigin (load ag via a n al) :=
  .bind (.access _ _ _ _ _ _) fun _ => .bind (.waitPlace _ _ _) fun _ => .readPlace _ _ _

theorem KeepsOrigin.readSpan (ag : Agent) (a n es : Nat) : KeepsOrigin (readSpan ag a n es) :=
  .bind (.mapM (fun _ => .load _ _ _ _ _) _) fun _ => .pure _

/-- A row that has been read, in either form (R213, R214). -/
theorem KeepsOrigin.readRow (f : Bool) (a : Word) (n m skip : Nat) : KeepsOrigin (readRow f a n m skip) := by
  refine .bind (.gets _) fun ag => ?_
  cases f with
  | true =>
    refine .bind (.readSpan _ _ _ _) fun l => ?_
    dsimp only
    split
    · exact .trap _ _
    · exact .pure _
  | false =>
    refine .bind (.load _ _ _ _ _) fun l => ?_
    split
    · exact .pure _
    · exact .trap _ _

/-! ## What checking and taking operands leaves of the memory system (R76, R249) -/

/-- A memory system that differs from that of a state at most in its corrected errors, which an instruction that waits takes
back. -/
def OnlyFixed (s : State) (m : MemSys) : Prop := ∃ c, m = { s.msys with fixed := c }

theorem srcCheck_onlyFixed (s : State) (a : Src) : OnlyFixed s (srcCheck s a).msys := by
  cases a with
  | reg n =>
    show OnlyFixed s (countFixed _ _ s).msys
    unfold countFixed count State.setPerf
    rw [isFixedKey_fixed]
    split
    · exact ⟨_, rfl⟩
    · exact ⟨_, rfl⟩
  | _ => exact ⟨_, rfl⟩

theorem srcPop_onlyFixed (s : State) (a : Src) : OnlyFixed s (srcPop s a).msys := by
  have h : (srcPop s a).msys = (srcCheck s a).msys := by
    rw [srcPop_eq]
    cases a <;> rfl
  rw [h]
  exact srcCheck_onlyFixed s a

theorem OnlyFixed.foldl {f : State → Src → State} (hf : ∀ s a, OnlyFixed s (f s a).msys) :
    ∀ (l : List Src) (s : State), OnlyFixed s (l.foldl f s).msys
  | [], _ => ⟨_, rfl⟩
  | a :: l, s => by
    obtain ⟨c, hc⟩ := hf s a
    obtain ⟨e, he⟩ := OnlyFixed.foldl hf l (f s a)
    exact ⟨e, by rw [List.foldl_cons, he, hc]⟩

theorem OnlyFixed.waits {s : State} {m : MemSys} (h : OnlyFixed s m) : waits (s.keepWait m) = waits s := by
  obtain ⟨c, rfl⟩ := h
  rfl

/-! ## An RT word runs as a scalar instruction (R223, R431) -/

section
variable {s t : State} {keep : Bool} {srcs : List Src} {d : Dst} {body : M Unit} {c : Nat} {v : Word}

theorem rtWord_of_ready (hr : rtReady s ∨ keep = true) : rtWord keep srcs d body s = scalarOp srcs d body s := by
  rcases hr with hr | rfl
  · exact arrayFirst_of_ready hr keep _
  · unfold rtWord arrayFirst
    split
    · rw [Bool.or_true, if_pos rfl]
    · rfl

theorem rtWord_ends (hr : rtReady s) (h : operandsReady s srcs d = true) (hb : body (checked s srcs) = .ok ((), t)) :
    rtWord keep srcs d body s = ends s (lenOf srcs) t := by
  rw [rtWord_of_ready (.inl hr), scalarOp_ok h hb]

theorem rtWord_traps (hr : rtReady s) (h : operandsReady s srcs d = true)
    (hb : body (checked s srcs) = .error (.trap c v, (srcs.foldl srcPop s).msys)) :
    rtWord keep srcs d body s = traps (s.after srcs) c v := by
  rw [rtWord_of_ready (.inl hr), scalarOp_trap h hb]
  rfl

theorem rtWord_waits {m : MemSys} (hr : rtReady s) (h : operandsReady s srcs d = true) (hm : OnlyFixed s m)
    (hb : body (checked s srcs) = .error (.block none, m)) : rtWord keep srcs d body s = waits s := by
  rw [rtWord_of_ready (.inl hr), scalarOp_block h hb, hm.waits]

end

/-! ## The pieces of the bodies -/

theorem thisRot_checked (s : State) (l : List Src) : thisRot (checked s l) = .ok (s.here.rot, checked s l) := by
  obtain ⟨p, hp⟩ := checked_keep l s
  rw [hp]
  rfl

theorem idle_of_no_ops {r : Rot} (h : r.ops = []) : (!r.ops.isEmpty) = false := by
  rw [h]
  rfl

theorem busy_of_ops {r : Rot} (h : r.ops ≠ []) : (!r.ops.isEmpty) = true := by simpa using h

theorem modRotM_run (f : Rot → Rot) (s : State) : modRotM f s = .ok ((), s.withRot f) := rfl

/-- The rotation state with another operation in the array; a row operation behind an overflow that is still to be delivered
is discarded (R223). -/
def Rot.enter (o : QOp) (r : Rot) : Rot :=
  if r.fault.isSome && o.isRow then r else { r with ops := r.ops ++ [o] }

theorem enterRot_run (o : QOp) (s : State) : enterRot o s = .ok ((), s.withRot (Rot.enter o)) := rfl

/-- A later instruction of a stream is to write d (R97). -/
def claimFor (st : Stream) (d : Dst) (s : State) : State := s.modCtx st.core fun x => x.claim st.seq d

theorem claimDst_run (d : Dst) (s : State) : claimDst d s = .ok ((), claimFor s.cur d s) := rfl

theorem eaPop_origin (s : State) (a b : Src) : (eaPop s a b).origin = s.origin :=
  (srcPop_origin _ _).trans (srcPop_origin _ _)

theorem eaPop_cur (s : State) (a b : Src) : (eaPop s a b).cur = s.cur := (srcPop_cur _ _).trans (srcPop_cur _ _)

/-- Two operands that are ready are read one after the other. -/
theorem readTwo_checked {α : Type} {s : State} {a b : Src} {d : Dst} (h : operandsReady s [a, b] d = true)
    (f : Word → Word → M α) :
    (do let x ← readSrc a; let y ← readSrc b; f x y) (checked s [a, b]) =
      f (srcVal s a) (srcVal (srcPop s a) b) (eaPop s a b) := by
  have hp := ready_poppable h
  rw [M.bind_ok (readSrc_ok (hasEntry_first hp)), M.bind_ok (readSrc_ok (hasEntry_first (poppable_rest hp))), taken_two,
    val_two]
  simp only [checked, List.foldl, srcVal_check]
  rfl

/-- The two results of a scalar rotation in one word (R233). -/
def rotated (v : Int × Int) : Word := BitVec.ofNat 64 (wrapInt 32 (compensate v.1) + 2 ^ 32 * wrapInt 32 (compensate v.2))

/-- The code and the length of a scalar vectoring in one word (R232). -/
def vectored (v : Nat × Int) : Word := BitVec.ofNat 64 (v.1 + 2 ^ 32 * wrapInt 32 (compensate v.2))

/-- An angle in radians, as an FP32 code (R227). -/
def radians (th : Int) : Word :=
  BitVec.ofNat 64 (NumFmt.fp32.roundSticky .rne (.fin (decide (th < 0)) th.natAbs (-((fixP : Int) + 160))) true)

/-- What QRDT and QWRT do: they check the selector, wait for the operations in the array that are to write what they move, and
move the row and pair that it names (R235). -/
def moveRow (a b : Src) (busy : Rot → Nat → Bool) (move : Rot → Word → Nat × Nat → M Unit) : M Unit := do
  let r ← thisRot
  let x ← readSrc a
  let v ← readSrc b
  let jt ← rowSelector r v
  blockIf (busy r jt.2)
  move r x jt

/-- The row of a row number and a pair. -/
def Rot.rowAt (r : Rot) (jt : Nat × Nat) : RRow := Tab.get RRow.zero r.rows (16 * jt.2 + jt.1)

/-- The rotation state with some columns, and the exponent, of a row from another row. -/
def Rot.putRow (jt : Nat × Nat) (cols : List Nat) (row : RRow) (r : Rot) : Rot :=
  { r with rows := Tab.put r.rows (16 * jt.2 + jt.1) ((r.rowAt jt).put cols row) }

theorem exec_qrdt (a b : Src) (f : Bool) (s : State) : exec (.qrdt a b f) s =
    rtWord false [a, b] .discard (moveRow a b (fun r _ => r.writesAng) fun r x jt =>
      storeRow f x (rotN r) (rotM r) (rotCols (rotN r) (rotM r) jt.1) (r.rowAt jt)) s := rfl

theorem exec_qwrt (a b : Src) (f : Bool) (s : State) : exec (.qwrt a b f) s =
    rtWord false [a, b] .discard (moveRow a b Rot.writesTri fun r x jt => do
      let row ← readRow f x (rotN r) (rotM r) jt.1
      modRotM (Rot.putRow jt (rotCols (rotN r) (rotM r) jt.1) row)) s := rfl

/-- Whether an operation in the array is to write what QRDA stores (R236). -/
def Rot.writesSel (r : Rot) : RowSel → Bool
  | .o0 => r.writesOut
  | .o1 => r.writesApl
  | .ang => r.writesAng

/-- What QRDA stores: an output row, or the angles (R236). -/
def storeSel (f : Bool) (x : RowSel) (r : Rot) (ad : Word) : M Unit :=
  match x with
  | .o0 => storeRow f ad (rotN r) (rotM r) (rotCols (rotN r) (rotM r) 0) r.o0
  | .o1 => storeRow f ad (rotN r) (rotM r) (rotCols (rotN r) (rotM r) 0) r.o1
  | .ang => fun s => store s.me .vector ad ((List.range 16).flatMap fun i => toBytes 4 (Tab.get 0 r.ang i)) 64 s

theorem exec_qrda (a : Src) (x : RowSel) (f : Bool) (s : State) : exec (.qrda a x f) s =
    rtWord false [a] .discard (do
      let r ← thisRot
      let ad ← readSrc a
      blockIf (r.writesSel x)
      storeSel f x r ad) s := by cases x <;> rfl

/-- What QSTAT answers (R238). -/
def Rot.status (r : Rot) : Word :=
  BitVec.ofNat 64 ((!r.ops.isEmpty).toNat + 2 * r.fault.isSome.toNat + 4 * fld r.qcf 0 4 + 2 ^ 6 * rotM r +
    2 ^ 10 * rotT r + 2 ^ 32 * r.passes.toNat)

/-- A Q2.30 mantissa in a word (R232). -/
def q230 (v : Word) (lo : Nat) : Int := sextInt 32 (fld v lo 32)

theorem rotOperand_of_small {v : Word} {lo : Nat} (h : (q230 v lo).natAbs < 2 ^ 29) (s : State) :
    rotOperand v lo s = .ok (q230 v lo, s) := by
  show (if 2 ^ 29 ≤ (q230 v lo).natAbs then trap Cause.illegalOperand v else pure (q230 v lo) : M Int) s = _
  rw [if_neg (by omega), M.pure_run]

theorem rotOperand_of_large {v : Word} {lo : Nat} (h : 2 ^ 29 ≤ (q230 v lo).natAbs) (s : State) :
    rotOperand v lo s = .error (.trap 0x002 v, s.msys) := by
  show (if 2 ^ 29 ≤ (q230 v lo).natAbs then trap Cause.illegalOperand v else pure (q230 v lo) : M Int) s = _
  rw [if_pos h]
  rfl

theorem rowSelector_of_valid {r : Rot} {v : Word} (hj : fld v 0 4 < rotN r) (hz : fld v 5 59 = 0) (s : State) :
    rowSelector r v s = .ok ((fld v 0 4, fld v 4 1), s) := by
  have hvalid : (decide (rotN r ≤ fld v 0 4) || fld v 5 59 != 0) = false := by
    rw [hz, decide_eq_false (by omega)]
    rfl
  rw [rowSelector, M.bind_ok (M.trapIf_pass hvalid _ _ s), M.pure_run]

theorem rowSelector_of_invalid {r : Rot} {v : Word} (h : rotN r ≤ fld v 0 4 ∨ fld v 5 59 ≠ 0) (s : State) :
    rowSelector r v s = .error (.trap 0x002 v, s.msys) := by
  have hinvalid : (decide (rotN r ≤ fld v 0 4) || fld v 5 59 != 0) = true := by simpa using h
  rw [rowSelector, M.bind_error (M.trapIf_stop hinvalid _ _ s)]

/-! ## QCFG, QCLR, QANN and QAPL (R228 to R231) -/

section
variable {s : State} (hr : rtReady s)
include hr

section
variable {a : Src} (ho : operandsReady s [a] .discard = true)
include ho

theorem exec_qcfg_of_pending (hp : s.here.rot.ops ≠ []) : exec (.qcfg a) s = waits s := by
  show execQcfg a s = _
  refine rtWord_waits hr ho (OnlyFixed.foldl srcCheck_onlyFixed [a] s) ?_
  rw [M.bind_ok (thisRot_checked s [a])]
  exact M.bind_error (M.blockIf_stop (busy_of_ops hp) _)

section
variable (hi : s.here.rot.ops = [])
include hi

theorem exec_qcfg_of_valid (hm : fld (srcVal s a) 4 4 ≤ 8) (hz : fld (srcVal s a) 9 55 = 0) :
    exec (.qcfg a) s = ends s (lenOf [a]) ((srcPop s a).withRot fun r => { r with qcf := (srcVal s a).setWidth 9 }) := by
  have hvalid : (decide (8 < fld (srcVal s a) 4 4) || fld (srcVal s a) 9 55 != 0) = false := by
    rw [hz, decide_eq_false (by omega)]
    rfl
  show execQcfg a s = _
  refine rtWord_ends hr ho ?_
  rw [M.bind_ok (thisRot_checked s [a]), M.bind_ok (M.blockIf_pass (idle_of_no_ops hi) _), M.bind_ok (readSrc_checked ho),
    M.bind_ok (M.trapIf_pass hvalid _ _ _), modRotM_run]

theorem exec_qcfg_of_invalid (hv : 8 < fld (srcVal s a) 4 4 ∨ fld (srcVal s a) 9 55 ≠ 0) :
    exec (.qcfg a) s = traps (s.after [a]) 0x002 (srcVal s a) := by
  have hinvalid : (decide (8 < fld (srcVal s a) 4 4) || fld (srcVal s a) 9 55 != 0) = true := by simpa using hv
  show execQcfg a s = _
  refine rtWord_traps hr ho ?_
  rw [M.bind_ok (thisRot_checked s [a]), M.bind_ok (M.blockIf_pass (idle_of_no_ops hi) _), M.bind_ok (readSrc_checked ho),
    M.bind_error (M.trapIf_stop hinvalid _ _ _)]
  rfl

end

theorem exec_qann_of_read {f : Bool} {row : RRow} {t : State}
    (hrow : readRow f (srcVal s a) (rotN s.here.rot) (rotM s.here.rot) 0 (srcPop s a) = .ok (row, t)) :
    exec (.qann a f) s = ends s (lenOf [a]) (t.withRot (Rot.enter
      (.pass row (rotT s.here.rot) (rotN s.here.rot) (rotM s.here.rot) s.origin))) := by
  have horigin : t.origin = s.origin := (KeepsOrigin.readRow _ _ _ _ _ _ _ _ hrow).trans (srcPop_origin s a)
  show execQann a f s = _
  refine rtWord_ends hr ho ?_
  rw [M.bind_ok (thisRot_checked s [a]), M.bind_ok (readSrc_checked ho), M.bind_ok hrow, M.bind_ok (thisOrigin_run t),
    horigin, enterRot_run]

end

theorem exec_qclr_of_free {k : BitVec 1} (hk : s.here.rot.writesTri k.toNat = false) :
    exec (.qclr k) s = ends s 4 (s.withRot fun r => { r with rows := Tab.keep (fun j => j / 16 != k.toNat) r.rows }) := by
  show execQclr k s = _
  refine rtWord_ends hr (operandsReady_none s) ?_
  rw [M.bind_ok (thisRot_checked s []), M.bind_ok (M.blockIf_pass hk _)]
  exact modRotM_run _ s

theorem exec_qapl_of_read {a b : Src} {f : Bool} {row low : RRow} {t u : State}
    (ho : operandsReady s [a, b] .discard = true)
    (hrow : readRow f (srcVal s a) (rotN s.here.rot) (rotM s.here.rot) 0 (eaPop s a b) = .ok (row, t))
    (hlow : readRow f (srcVal s a + if f then BitVec.ofNat 64 (4 * (rotN s.here.rot + rotM s.here.rot)) else 128)
      (rotN s.here.rot) (rotM s.here.rot) 0 t = .ok (low, u)) :
    exec (.qapl a b f) s = ends s (lenOf [a, b]) (u.withRot (Rot.enter
      (.apl row low (fld (srcVal (srcPop s a) b) 0 32) (rotN s.here.rot) (rotM s.here.rot) s.origin))) := by
  have horigin : u.origin = s.origin := (KeepsOrigin.readRow _ _ _ _ _ _ _ _ hlow).trans <|
    (KeepsOrigin.readRow _ _ _ _ _ _ _ _ hrow).trans (eaPop_origin s a b)
  show execQapl a b f s = _
  refine rtWord_ends hr ho ?_
  rw [M.bind_ok (thisRot_checked s [a, b]), readTwo_checked ho, M.bind_ok hrow, M.bind_ok hlow, M.bind_ok (thisOrigin_run u),
    horigin, enterRot_run]

/-! ## QVEC and QROT (R232, R233) -/

section
variable {a b : Src} {d : Dst} (ho : operandsReady s [a, b] d = true)
include ho

theorem exec_qvec_of_valid (hx : (q230 (srcVal s a) 0).natAbs < 2 ^ 29)
    (hy : (q230 (srcVal (srcPop s a) b) 0).natAbs < 2 ^ 29) :
    exec (.qvec d a b) s = ends s (lenOf [a, b]) ((claimFor s.cur d (eaPop s a b)).withRot (Rot.enter
      (.scalar d (vectored (vectoring (q230 (srcVal s a) 0) (q230 (srcVal (srcPop s a) b) 0)))))) := by
  show execQvec d a b s = _
  refine rtWord_ends hr ho ?_
  rw [readTwo_checked ho, M.bind_ok (rotOperand_of_small hx _), M.bind_ok (rotOperand_of_small hy _)]
  exact M.bind_ok (by rw [claimDst_run, eaPop_cur])

theorem exec_qvec_of_large (hx : 2 ^ 29 ≤ (q230 (srcVal s a) 0).natAbs) :
    exec (.qvec d a b) s = traps (s.after [a, b]) 0x002 (srcVal s a) := by
  show execQvec d a b s = _
  refine rtWord_traps hr ho ?_
  rw [readTwo_checked ho]
  exact M.bind_error (rotOperand_of_large hx _)

theorem exec_qrot_of_valid (hx : (q230 (srcVal s a) 0).natAbs < 2 ^ 29) (hy : (q230 (srcVal s a) 32).natAbs < 2 ^ 29) :
    exec (.qrot d a b) s = ends s (lenOf [a, b]) ((claimFor s.cur d (eaPop s a b)).withRot (Rot.enter
      (.scalar d (rotated (rotate (fld (srcVal (srcPop s a) b) 0 32) (q230 (srcVal s a) 0) (q230 (srcVal s a) 32)))))) := by
  show execQrot d a b s = _
  refine rtWord_ends hr ho ?_
  rw [readTwo_checked ho, M.bind_ok (rotOperand_of_small hx _), M.bind_ok (rotOperand_of_small hy _)]
  exact M.bind_ok (by rw [claimDst_run, eaPop_cur])

end

/-! ## QANGF and QANGR (R226, R227, R234) -/

section
variable {a : Src} {d : Dst} (ho : operandsReady s [a] d = true)
include ho

theorem exec_qangf_of_ready :
    exec (.qangf d a) s = ends s (lenOf [a]) (dstPut d (radians (angleOf (fld (srcVal s a) 0 32))) (srcPop s a)) := by
  show execQangf d a s = _
  refine rtWord_ends hr ho ?_
  rw [M.bind_ok (readSrc_checked ho)]
  exact writeDst_ok d _ _

theorem exec_qangr_of_finite {sg : Bool} {m : Nat} {e : Int}
    (hv : NumFmt.fp32.decode (fld (srcVal s a) 0 32) = .fin sg m e) :
    exec (.qangr d a) s = ends s (lenOf [a]) (dstPut d (BitVec.ofNat 64 (codeOfAngle sg m e)) (srcPop s a)) := by
  show execQangr d a s = _
  refine rtWord_ends hr ho ?_
  simp only [M.bind_ok (readSrc_checked ho), hv]
  exact writeDst_ok d _ _

theorem exec_qangr_of_not_finite (hv : ∀ sg m e, NumFmt.fp32.decode (fld (srcVal s a) 0 32) ≠ .fin sg m e) :
    exec (.qangr d a) s = traps (s.after [a]) 0x002 (BitVec.ofNat 64 (fld (srcVal s a) 0 32)) := by
  show execQangr d a s = _
  refine rtWord_traps hr ho ?_
  rw [M.bind_ok (readSrc_checked ho)]
  cases hd : NumFmt.fp32.decode (fld (srcVal s a) 0 32) with
  | fin sg m e => exact absurd hd (hv sg m e)
  | nan => exact M.trap_run _ _ _
  | inf neg => exact M.trap_run _ _ _

end

/-! ## QRDT and QWRT (R235) -/

section
variable {a b : Src} (ho : operandsReady s [a, b] .discard = true)
include ho

section
variable {busy : Rot → Nat → Bool} {move : Rot → Word → Nat × Nat → M Unit}

section
variable (hj : fld (srcVal (srcPop s a) b) 0 4 < rotN s.here.rot) (hz : fld (srcVal (srcPop s a) b) 5 59 = 0)
include hj hz

theorem moveRow_ends {t : State} (hfree : busy s.here.rot (fld (srcVal (srcPop s a) b) 4 1) = false)
    (hmove : move s.here.rot (srcVal s a) (fld (srcVal (srcPop s a) b) 0 4, fld (srcVal (srcPop s a) b) 4 1)
      (eaPop s a b) = .ok ((), t)) :
    rtWord false [a, b] .discard (moveRow a b busy move) s = ends s (lenOf [a, b]) t := by
  refine rtWord_ends hr ho ?_
  rw [moveRow, M.bind_ok (thisRot_checked s [a, b]), readTwo_checked ho, M.bind_ok (rowSelector_of_valid hj hz _),
    M.bind_ok (M.blockIf_pass hfree _), hmove]

theorem moveRow_waits (hbusy : busy s.here.rot (fld (srcVal (srcPop s a) b) 4 1) = true) :
    rtWord false [a, b] .discard (moveRow a b busy move) s = waits s := by
  refine rtWord_waits hr ho (OnlyFixed.foldl srcPop_onlyFixed [a, b] s) ?_
  rw [moveRow, M.bind_ok (thisRot_checked s [a, b]), readTwo_checked ho, M.bind_ok (rowSelector_of_valid hj hz _)]
  exact M.bind_error (M.blockIf_stop hbusy _)

end

theorem moveRow_traps
    (hv : rotN s.here.rot ≤ fld (srcVal (srcPop s a) b) 0 4 ∨ fld (srcVal (srcPop s a) b) 5 59 ≠ 0) :
    rtWord false [a, b] .discard (moveRow a b busy move) s = traps (s.after [a, b]) 0x002 (srcVal (srcPop s a) b) := by
  refine rtWord_traps hr ho ?_
  rw [moveRow, M.bind_ok (thisRot_checked s [a, b]), readTwo_checked ho]
  exact M.bind_error (rowSelector_of_invalid hv _)

end

theorem exec_qwrt_of_read {f : Bool} {row : RRow} {t : State} (hj : fld (srcVal (srcPop s a) b) 0 4 < rotN s.here.rot)
    (hz : fld (srcVal (srcPop s a) b) 5 59 = 0) (hfree : s.here.rot.writesTri (fld (srcVal (srcPop s a) b) 4 1) = false)
    (hrow : readRow f (srcVal s a) (rotN s.here.rot) (rotM s.here.rot) (fld (srcVal (srcPop s a) b) 0 4) (eaPop s a b) =
      .ok (row, t)) :
    exec (.qwrt a b f) s = ends s (lenOf [a, b]) (t.withRot (Rot.putRow (fld (srcVal (srcPop s a) b) 0 4,
      fld (srcVal (srcPop s a) b) 4 1) (rotCols (rotN s.here.rot) (rotM s.here.rot) (fld (srcVal (srcPop s a) b) 0 4)) row)) := by
  rw [exec_qwrt]
  exact moveRow_ends hr ho hj hz hfree (M.bind_ok hrow)

end

/-! ## QRDA (R236) -/

/-- A store of an output row or of the angles, once no operation in the array is to write them. -/
theorem exec_qrda_of_stored {a : Src} {t : State} (x : RowSel) (f : Bool) (ho : operandsReady s [a] .discard = true)
    (hfree : s.here.rot.writesSel x = false)
    (hst : storeSel f x s.here.rot (srcVal s a) (srcPop s a) = .ok ((), t)) :
    exec (.qrda a x f) s = ends s (lenOf [a]) t := by
  rw [exec_qrda]
  refine rtWord_ends hr ho ?_
  rw [M.bind_ok (thisRot_checked s [a]), M.bind_ok (readSrc_checked ho), M.bind_ok (M.blockIf_pass hfree _), hst]

/-! ## QWAIT and QSTAT (R237, R238) -/

theorem exec_qwait_of_idle (hi : s.here.rot.ops = []) : exec .qwait s = ends s 4 s := by
  show execQwait s = _
  refine rtWord_ends hr (operandsReady_none s) ?_
  rw [M.bind_ok (thisRot_checked s []), M.blockIf_pass (idle_of_no_ops hi), checked_nil]

theorem exec_qwait_of_pending (hp : s.here.rot.ops ≠ []) : exec .qwait s = waits s := by
  show execQwait s = _
  refine rtWord_waits hr (operandsReady_none s) (OnlyFixed.foldl srcCheck_onlyFixed [] s) ?_
  rw [M.bind_ok (thisRot_checked s [])]
  exact M.blockIf_stop (busy_of_ops hp) _

end

theorem Rot.status_eq (r : Rot) : r.status = BitVec.ofNat 64 ((if r.ops = [] then 0 else 1) +
    (if r.fault.isSome then 2 else 0) + 4 * (rotN r - 1) + 2 ^ 6 * rotM r + 2 ^ 10 * rotT r + 2 ^ 32 * r.passes.toNat) := by
  have hops : (!r.ops.isEmpty).toNat = if r.ops = [] then 0 else 1 := by cases r.ops <;> rfl
  have hfault : 2 * r.fault.isSome.toNat = if r.fault.isSome then 2 else 0 := by cases r.fault <;> rfl
  rw [Rot.status, hops, hfault, rotN, Nat.add_sub_cancel]

/-- QSTAT samples the status; in deterministic mode once the array is idle, and before a pending fault is delivered. -/
theorem exec_qstat_of_idle {s : State} {d : Dst} (hr : rtReady s ∨ s.seq.detm = true) (ho : operandsReady s [] d = true)
    (hi : s.seq.detm = false ∨ s.here.rot.ops = []) :
    exec (.qstat d) s = ends s 4 (dstPut d s.here.rot.status s) := by
  have hpass : (s.seq.detm && !s.here.rot.ops.isEmpty) = false := by
    rcases hi with h | h
    · rw [h, Bool.false_and]
    · rw [idle_of_no_ops h, Bool.and_false]
  show execQstat d s = _
  refine (rtWord_of_ready hr).trans (scalarOp_ok ho ?_)
  rw [M.bind_ok (thisRot_checked s []), checked_nil, M.bind_ok (M.gets_run _ s), M.bind_ok (M.blockIf_pass hpass s)]
  exact writeDst_ok d _ s

/-- Settles O31: each instruction by the lemma on its outcome. -/
theorem rotationInstructions : Obligations.RotationInstructions := by
  unfold Obligations.RotationInstructions
  refine ⟨fun s d a b k f row low t u hr => ⟨fun ho hi => ⟨exec_qcfg_of_valid hr ho hi, exec_qcfg_of_invalid hr ho hi⟩,
      fun hp ho => exec_qcfg_of_pending hr ho hp, exec_qclr_of_free hr,
      fun ho => exec_qann_of_read hr ho, exec_qapl_of_read hr,
      fun ho => ⟨exec_qvec_of_valid hr ho, exec_qvec_of_large hr ho, exec_qrot_of_valid hr ho⟩,
      fun ho => ⟨exec_qangf_of_ready hr ho, fun sg m e => exec_qangr_of_finite hr ho, exec_qangr_of_not_finite hr ho⟩⟩,
    fun s d a b f row t => ⟨fun hr ho hj hz => ⟨fun hfree hst => ?stored, fun hbusy => ?storeWaits, fun hbusy => ?readWaits,
        exec_qwrt_of_read hr ho hj hz⟩,
      fun hr ho hv => ⟨?storeTraps, ?readTraps⟩,
      fun hr ho => ⟨exec_qrda_of_stored hr .o0 f ho, exec_qrda_of_stored hr .o1 f ho, exec_qrda_of_stored hr .ang f ho⟩,
      fun hr => ⟨exec_qwait_of_idle hr, exec_qwait_of_pending hr⟩, fun hr ho hi => ?status⟩⟩
  case stored => exact (exec_qrdt a b f s).trans (moveRow_ends hr ho hj hz hfree hst)
  case storeWaits => exact (exec_qrdt a b f s).trans (moveRow_waits hr ho hj hz hbusy)
  case readWaits => exact (exec_qwrt a b f s).trans (moveRow_waits hr ho hj hz hbusy)
  case storeTraps => exact (exec_qrdt a b f s).trans (moveRow_traps hr ho hv)
  case readTraps => exact (exec_qwrt a b f s).trans (moveRow_traps hr ho hv)
  case status => rw [exec_qstat_of_idle hr ho hi, Rot.status_eq]

/-! ## The array commits its oldest operation (R219 to R223) -/

section
variable {s : State} {core : Nat} (hg : (s.grove (groveOf core)).preHalted = false)
include hg

theorem exec_commit_of_row {o : QOp} {q : List QOp} {r : Rot} (ho : (s.rot core).ops = o :: q) (hrow : o.isRow = true)
    (hc : (s.rot core).commit = some (.ok r)) :
    exec (.arrayOperationCommit core) s = .next (count core 0x05 1 (s.modRot core fun _ => r)) := by
  show execArrayOperationCommit core s = _
  simp only [execArrayOperationCommit, hg, ho, hc]
  cases o with
  | scalar d v => cases hrow
  | pass v t n m pc => rfl
  | apl u l c n m pc => rfl

theorem exec_commit_of_overflow {o : QOp} {q : List QOp} {pc : Origin} {j : Nat} (ho : (s.rot core).ops = o :: q)
    (hc : (s.rot core).commit = some (.error (pc, j))) :
    exec (.arrayOperationCommit core) s = .next (rotFault core 0 pc j s) := by
  show execArrayOperationCommit core s = _
  simp only [execArrayOperationCommit, hg, ho, hc]
  cases o <;> rfl

/-- A scalar operation commits once its destination takes the result (R101, R221). -/
theorem exec_commit_of_scalar {d : Dst} {v : Word} {q : List QOp} (ho : (s.rot core).ops = .scalar d v :: q) :
    exec (.arrayOperationCommit core) s = .next (if s.takes core true (s.ctx core) .Q d then
      count core 0x05 1 (writeScalar core d v (s.modRot core fun _ => { s.rot core with ops := q })) else s) := by
  have hc : (s.rot core).commit = some (.ok { s.rot core with ops := q }) := by
    rw [Rot.commit, ho]
  show execArrayOperationCommit core s = _
  simp only [execArrayOperationCommit, hg, ho, hc]
  rfl

theorem exec_commit_of_taken {d : Dst} {v : Word} {q : List QOp} (ho : (s.rot core).ops = .scalar d v :: q)
    (ht : s.takes core true (s.ctx core) .Q d = true) :
    exec (.arrayOperationCommit core) s = .next
      (count core 0x05 1 (writeScalar core d v (s.modRot core fun _ => { s.rot core with ops := q }))) := by
  rw [exec_commit_of_scalar hg ho, if_pos ht]

theorem exec_commit_of_not_taken {d : Dst} {v : Word} {q : List QOp} (ho : (s.rot core).ops = .scalar d v :: q)
    (ht : ¬ s.takes core true (s.ctx core) .Q d = true) : exec (.arrayOperationCommit core) s = .next s := by
  rw [exec_commit_of_scalar hg ho, if_neg ht]

/-- The array reaches one of its overflows, whichever comes first (R223). -/
theorem exec_rotationFaultPending_of_some (hl : (s.rot core).overflows ≠ []) : ∃ e ∈ (s.rot core).overflows,
    exec (.rotationFaultPending core) s = .next (rotFault core e.1 e.2.1 e.2.2 s) := by
  have hi : Config.overflowFirst s.fresh % (s.rot core).overflows.length < (s.rot core).overflows.length :=
    Nat.mod_lt _ (List.length_pos_iff.2 hl)
  refine ⟨_, List.getElem_mem hi, ?_⟩
  show execRotationFaultPending core s = _
  simp only [execRotationFaultPending, List.getElem?_eq_getElem hi, hg]
  rfl

end

theorem exec_rotationFaultPending_of_none {s : State} {core : Nat} (hl : (s.rot core).overflows = []) :
    exec (.rotationFaultPending core) s = .next s := by
  show execRotationFaultPending core s = _
  simp only [execRotationFaultPending, hl]
  rfl

/-- A token queue takes a result when it has room and no push waits that comes before Q's (R101). -/
theorem takes_queue_iff {s : State} {core k : Nat} : s.takes core true (s.ctx core) .Q (.queue k) = true ↔
    (Tab.get [] (s.ctx core).tq k).length < 16 ∧ s.pushTurn core 3 k = true := by
  simp only [State.takes, Bool.and_eq_true, decide_eq_true_eq]
  rfl

/-! ### What the oldest operation gives (R219, R220, R231) -/

section
variable {r : Rot} {q : List QOp}

theorem commit_of_pass {v : RRow} {t n m : Nat} {pc : Origin} {p : PassState} (ho : r.ops = .pass v t n m pc :: q)
    (hp : passAll t n m { rows := r.rows, codes := [], v := v } = .ok p) : r.commit = some (.ok { r with
      rows := p.rows, ang := p.codes.zipIdx.foldl (fun tb c => Tab.set 0 tb c.2 c.1) [], o0 := p.v,
      passes := r.passes + 1, ops := q }) := by
  simp only [Rot.commit, ho, hp]

theorem commit_of_pass_overflow {v : RRow} {t n m j : Nat} {pc : Origin} (ho : r.ops = .pass v t n m pc :: q)
    (hp : passAll t n m { rows := r.rows, codes := [], v := v } = .error j) : r.commit = some (.error (pc, j)) := by
  simp only [Rot.commit, ho, hp]

theorem commit_of_apl {u l x y : RRow} {c n m : Nat} {pc : Origin} (ho : r.ops = .apl u l c n m pc :: q)
    (hp : aplPair n m c u l = some (x, y)) : r.commit = some (.ok { r with o0 := x, o1 := y, ops := q }) := by
  simp only [Rot.commit, ho, hp]

theorem commit_of_apl_overflow {u l : RRow} {c n m : Nat} {pc : Origin} (ho : r.ops = .apl u l c n m pc :: q)
    (hp : aplPair n m c u l = none) : r.commit = some (.error (pc, 0)) := by
  simp only [Rot.commit, ho, hp]

end

/-- Settles O32: each kind of operation by what it gives, and each event by the lemma on its outcome. -/
theorem rotationCommit : Obligations.RotationCommit := by
  unfold Obligations.RotationCommit
  refine fun s core hg => ⟨fun v t n m pc q ho => ⟨fun p hp => ?pass, fun j hp => ?passOverflow⟩,
    fun u l c n m pc q ho => ⟨fun x y hp => ?apl, fun hp => ?aplOverflow⟩,
    fun d v q ho => ⟨fun n hd => ?register, fun k hd => ⟨fun hcan => ?queue, fun hcan => ?queueFull⟩, fun hd => ?discard⟩,
    exec_rotationFaultPending_of_none, exec_rotationFaultPending_of_some hg⟩
  case pass => exact exec_commit_of_row hg ho rfl (commit_of_pass ho hp)
  case passOverflow => exact exec_commit_of_overflow hg ho (commit_of_pass_overflow ho hp)
  case apl => exact exec_commit_of_row hg ho rfl (commit_of_apl ho hp)
  case aplOverflow => exact exec_commit_of_overflow hg ho (commit_of_apl_overflow ho hp)
  case register =>
    subst hd
    exact exec_commit_of_taken hg ho rfl
  case queue =>
    subst hd
    exact exec_commit_of_taken hg ho (takes_queue_iff.2 hcan)
  case queueFull =>
    subst hd
    exact exec_commit_of_not_taken hg ho (fun h => hcan (takes_queue_iff.1 h))
  case discard =>
    subst hd
    exact exec_commit_of_taken hg ho rfl

end Sys2Proof.Machine
